-- ==== Sys2Proof/Word.lean ====
section
/-! DEFINITION. The word types of the block: a 32-bit register word and a byte. Counts, indices, instants and exact
arithmetic are plain Nat and Int. -/

namespace Sys2Proof

/-- A register word (R9: every register is 32 bits wide). -/
abbrev Word := BitVec 32

/-- A byte of memory. -/
abbrev Byte := BitVec 8

/-- An accumulator of a Jalob unit (R121). -/
abbrev Acc72 := BitVec 72

end Sys2Proof
end

