-- ==== Sys2Proof/Syntax.lean ====
section
/-! DEFINITION. The commands and events of the block (spec/opcode_table.json) as plain data, with the records their
operands are made of. Instants within a tick are given as `dt`, the nanoseconds of Media Time that have passed since
the instant the block stands at (assumption 4). -/

namespace Sys2Proof

/-- A command as the device sees it: the fields of a CMD descriptor (R275), the bytes its buffer read returned (R276), the
ring or other source it came from (R268) and the doorbell stamp it carries (R273). Reserved bits are gathered in `rsv`. -/
structure Cmd where
  src    : Nat := 0          -- R290 SOURCE: 0 host, 1 twin, 2 debug, 3 Windlass
  ring   : Nat := 0          -- the CMD ring
  tag    : Nat := 0
  tgt    : Bool := false
  long   : Bool := false
  rsv    : Nat := 0
  tgtNs  : Nat := 0
  tgtSec : Nat := 0
  rampMs : Nat := 0
  shape  : Nat := 0
  a      : Nat := 0
  b      : Nat := 0
  addr   : Nat := 0
  len    : Nat := 0
  c      : Nat := 0
  i0     : Nat := 0
  i1     : Nat := 0
  i2     : Nat := 0
  i3     : Nat := 0
  readOk : Bool := true      -- false: a host read of the buffer failed (CMD_HOST_READ)
  buf    : List Byte := []   -- the LEN bytes the host reads returned
  db     : Option Nat := none -- the doorbell stamp (R273)
  ok     : Bool := true      -- what the device's own work on the command found: the self-test of R97, a verification
  dt     : Nat := 0
deriving DecidableEq, Repr

/-- A 64-bit word of an ECC memory as DPR_LOG0 and DPR_LOG1 name it: the log (0-5 regions, 6 hub, 7 LPDDR), MEM, INSTANCE
and the word's number within its memory. -/
structure WordId where
  log  : Nat
  mem  : Nat
  inst : Nat
  word : Nat
deriving DecidableEq, Repr

/-- A value on the bus of the host interface or of Windlass, with the width of its access in bytes (R264). -/
structure BusWord where
  val  : Nat
  size : Nat := 4
deriving DecidableEq, Repr

/-- A read of `size` bytes at an offset of BAR0 or BAR2 (R264), by the host (0) or by Windlass (1). -/
structure BusRead where
  who  : Nat := 0
  bar  : Nat := 0
  off  : Nat
  size : Nat := 4
deriving DecidableEq, Repr

/-- What LPDDR training found: whether the memory trains (R445), and whether the CRC of the SRAM's header holds (R373). -/
structure LpddrTrain where
  trains : Bool
  ok     : Bool
deriving DecidableEq, Repr

/-- The word of the LPDDR copy that a voice of the Standpipe read, and its syndrome (R81, R316). -/
structure VoiceEcc where
  voice : Nat
  word  : WordId
  syn   : Nat
deriving DecidableEq, Repr

/-- A cluster whose reset is asserted, with the Pump channels that have a burst under way and the beats written (R113). -/
structure ClusterCut where
  cluster : Nat
  cut     : List (Nat × Nat) := []
deriving DecidableEq, Repr

/-- The instant at which a frame leaves, and the word of the transmit buffer it meets with its syndrome (R241, R316). -/
structure NetLeave where
  dt   : Nat := 0
  word : Nat := 0
  syn  : Nat := 0
deriving DecidableEq, Repr

/-- What the memories answer to an instruction of a unit: cycles of stall beyond those the rules fix (a wait for grant, a
data SRAM taken by another master), the syndromes the decoders compute (R308), an error response. -/
structure UPort where
  stall : Nat := 0           -- cycles a stall of R130 lasts that the instruction itself does not fix
  mx    : Bool := false      -- another master asks for the unit's X SRAM in this cycle (R117)
  my    : Bool := false      -- the same for its Y SRAM
  syn   : Nat := 0
  syn2  : Nat := 0           -- of the second load of a DMAC
  fsyn  : Nat := 0           -- of the instruction fetch
  bus   : Bool := false
deriving DecidableEq, Repr

/-- What the memories answer to a Pump: the bytes a host read returned, whether every access was answered without error, the
syndromes (R308) of the words read in rising address, and of the word a partial write reads. -/
structure PmpIo where
  host : List Byte := []
  ok   : Bool := true
  syns : List Nat := []
  wsyn : Nat := 0
  busy  : Nat := 0           -- bursts of the Pump under way, not of Class S (R299)
  busyS : Nat := 0           -- those of Class S
  dt   : Nat := 0
deriving DecidableEq, Repr

/-- A frame a power cell sends (R174): its 160 bytes, whether it begins with K28.5 and no code group was in error, its
round trip (R169). -/
structure RxFrame where
  codesOk : Bool := true
  bytes   : List Byte := []
  rtt     : Nat := 0
  dt      : Nat := 0
deriving DecidableEq, Repr

/-- A frame sync at a TDM port: the BCLK cycles of the frame it ends and that frame's slot words (R223), slot 0 first. -/
structure TdmSync where
  bclks : Nat := 0
  words : List Word := []
  dt    : Nat := 0
deriving DecidableEq, Repr

/-- A frame received at a network port (R240): from the destination address to the byte before the FCS, whether the FCS is
right and no code group was in error; how many bytes of earlier frames still stand in the receive buffer, in queue 7's reserve and
in the rest (R241); the word at which its reading meets a syndrome, and that syndrome (R316); and how long before its last byte its
SFD was. -/
structure NetRx where
  bytes  : List Byte := []
  fcsOk  : Bool := true
  codeOk : Bool := true
  left7  : Nat := 0
  left   : Nat := 0
  word   : Nat := 0
  syn    : Nat := 0
  sfd    : Nat := 0
  dt     : Nat := 0
deriving DecidableEq, Repr

/-- What the device's read of a descriptor returned (R272, R276, R284): the 64 bytes, whether the read succeeded, whether the
read of the buffer it names succeeded, and that buffer. -/
structure Desc where
  bytes  : List Byte := []
  readOk : Bool := true
  bufOk  : Bool := true
  buf    : List Byte := []
  ok     : Bool := true      -- as in Cmd
  dt     : Nat := 0
deriving DecidableEq, Repr

/-- The header of a twin-link message as received (R341): the link, the fields the receiver uses, whether the frame was
received without error, and when. -/
structure TwHdr where
  link    : Nat := 0
  version : Nat := 1
  ok      : Bool := true
  side    : Nat := 0
  active  : Bool := false
  tickno  : Nat := 0
  mts     : Nat := 0
  dt      : Nat := 0
deriving DecidableEq, Repr

/-- HELLO (R342). -/
structure TwHello where
  uid    : Nat := 0
  side   : Nat := 0
  home   : Bool := false
  role   : Nat := 0
  digest : Nat := 0        -- firmware image digest
  schema : Nat := 0        -- settings schema version
deriving DecidableEq, Repr

/-- BEAT (R343), with the TICKNO and MTS of its header. -/
structure TwBeat where
  tickno : Nat := 0
  mts    : Nat := 0
  health : Nat := 0
  dig0   : Nat := 0
  dig1   : Nat := 0
  digDp  : Nat := 0
  echoRx : Nat := 0
  echoTx : Nat := 0
  ql     : Nat := 0
  role   : Nat := 0
  alarm  : Nat := 0
  sec    : Nat := 0
deriving DecidableEq, Repr

/-- MIRROR (R355). -/
structure TwMirror where
  sample  : Nat := 0       -- MTS of the sample instant
  local_  : List (Option Word) := []
  asrc    : List (Option Word) := []
deriving DecidableEq, Repr

/-- What SYNC carries in its SETTINGS phase (R357): every setting made by a mirrored command, in the formats of the commands
that make them: bank words and active banks, images of UNIT_LOAD, message bytes, stream records, register words by BAR0
offset, and each playing voice with its message and start instant. The bytes of the message are not laid out by the spec. -/
structure TwSettings where
  rt      : List (Nat × Nat) := []
  rtAct   : Nat := 0
  map     : List (Nat × Nat) := []
  xp      : List (Nat × Word) := []
  ow      : List (Nat × Word) := []
  mapAct  : Nat := 0
  tileAct : List Nat := []                           -- active bank of each tile
  dc      : List (Nat × Nat) := []
  ln      : List (Nat × Nat) := []
  dcAct   : Nat := 0
  regs    : List (Nat × Word) := []
  units   : List (Nat × List Byte) := []
  pars    : List (Nat × List Byte) := []             -- inactive parameter banks
  msgs    : List (Nat × List Byte) := []
  rx      : List (Nat × List Byte) := []
  tx      : List (Nat × List Byte) := []
  voices  : List (Nat × Nat × Nat × Nat) := []      -- voice, message, start instant, zones
  blHf    : List (Nat × Nat × Nat × Nat × Int) := [] -- Line Watch baselines: channel, frequency, flags, |Z|, phase
  blLf    : List (Nat × Nat × Nat × Nat × Int) := []
  blSw    : List (Nat × List (Nat × Nat × Nat × Int)) := [] -- sweep baselines: channel, then each point
deriving DecidableEq, Repr

/-- What CUT carries of a drive channel (R203, R206): state of the retry cycle with the time its timer has left, limiter gain
and energy bins. -/
structure TwCutCh where
  c     : Nat
  st    : Nat
  cause : Nat
  retry : Nat
  left  : Nat
  gain  : Nat
  bins  : List Nat
  cur   : Nat
  tickE : Nat
  lastE : Nat
  errA  : List Int             -- shaper states (R187)
  errB  : List Int
deriving DecidableEq, Repr

/-- What CUT carries of a boost group (R190, R197): reference, accumulator, measuring phase and its sums. -/
structure TwCutGrp where
  g     : Nat
  r6    : Nat
  acc   : Nat
  meas  : Nat
  v0    : Nat
  ve    : Nat
  q     : Int
  riseN : Nat
  since : Nat              -- ns since the phase began
deriving DecidableEq, Repr

/-- What CUT carries of a demodulation (R210). -/
structure TwCutPilot where
  c     : Nat
  lf    : Bool
  start : Nat
  stop  : Nat
  n     : Nat
  bad   : Nat
  hiz   : Bool
  a     : List Int
  b     : List Int
deriving DecidableEq, Repr

/-- SYNC (R342, R357). -/
inductive TwSync where
  | settings (x : TwSettings)
  | page (page capture : Nat) (data : List Byte)
  | passEnd
  | cut (frame : Nat) (chs : List TwCutCh) (grps : List TwCutGrp) (pilots : List TwCutPilot)
deriving DecidableEq, Repr

/-- The messages of the twin link (R342). -/
inductive TwMsg where
  | hello (m : TwHello)
  | beat (m : TwBeat)
  | mirror (m : TwMirror)
  | cmd (tick code : Nat) (c : Cmd)
  | cmdAck (tag status : Nat)
  | yield (mts : Nat)
  | handover (seq : Nat) (request : Bool)
  | handoverAck (seq : Nat)
  | sync (m : TwSync)
  | syncAck (refused : List Nat) (phase : Nat) (done : Bool)
deriving DecidableEq, Repr


/-- A report of a detector (R324) for a condition that no other row of the table brings about: a parity error, an error
response, a lockstep mismatch. -/
structure Report where
  fam    : Nat := 0
  inst   : Nat := 0
  subj   : Nat := 0
  kind   : Nat := 0
  detail : Nat := 0
deriving DecidableEq, Repr

/-- A debug access (R386): an aligned 32-bit read or write at an address of the Windlass map of a pair (R105), with the base of
that pair's window into the DPA in steps of 1 GiB. -/
structure DbgAcc where
  write : Bool := false
  pair  : Nat := 0
  base  : Nat := 0
  addr  : Nat := 0
  data  : Nat := 0
  dt    : Nat := 0
deriving DecidableEq, Repr

/-- The commands and events of the block: one constructor per row of spec/opcode_table.json, in its order. The docstring of
each constructor names its row. The rows of the table carry no fields, so the operands are those the row's rule gives
the command or event. -/
inductive Instr where
  /-- POR_N_ASSERT (R442). -/
  | porNAssert (low : Nat)
  /-- POR_N_RELEASE (R363), with the straps (R430): bit 0 IOV_B, 1 TEST_EN, 2 STRAP2, 3 STRAP3. -/
  | porNRelease (straps : Nat)
  /-- AON_VALID_CLEAR (R362). -/
  | aonValidClear
  /-- SUPPLY_UNDERVOLTAGE (R434). -/
  | supplyUndervoltage (rail : Nat)
  /-- XO_LOSS (R440). -/
  | xoLoss
  /-- PLL_CLOCK_LOSS (R325). -/
  | pllClockLoss (i : Nat)
  /-- THERMAL_HOLD (R437). -/
  | thermalHold
  /-- THERMAL_HOLD_END (R437). -/
  | thermalHoldEnd
  /-- DIE_TEMPERATURE_THRESHOLD (R325). -/
  | dieTemperatureThreshold (i : Nat) (t : Int)
  /-- FIRMWARE_BANK_SELECT (R402). -/
  | firmwareBankSelect
  /-- CHECKER_SELF_TEST (R310). -/
  | checkerSelfTest (fails : List WordId)
  /-- TCM_LOAD_AND_REMAP (R364). -/
  | tcmLoadAndRemap (ok : Bool)
  /-- LPDDR_TRAINING (R363). -/
  | lpddrTraining (x : LpddrTrain)
  /-- SETTINGS_IMPORT_FAILURE (R404). -/
  | settingsImportFailure
  /-- HUB_SRAM_INIT (R311). -/
  | hubSramInit
  /-- LPDDR_ZERO_FILL_COMPLETE (R311). -/
  | lpddrZeroFillComplete
  /-- STAGE_1_COMPLETE (R363). -/
  | stage1Complete
  /-- STANDPIPE_READY (R365). -/
  | standpipeReady
  /-- STAGE_2_COMPLETE (R363). -/
  | stage2Complete
  /-- FUNCTION_LEVEL_RESET (R266). -/
  | functionLevelReset
  /-- PERST_N_ASSERT (R442). -/
  | perstNAssert
  /-- TICK_START (R32). -/
  | tickStart
  /-- INPUT_DELIVERY_COMPLETE (R91). -/
  | inputDeliveryComplete (c : Nat)
  /-- UNIT_WAKE (R138). -/
  | unitWake (dt : Nat)
  /-- PRE_MATRIX_DEADLINE (R140). -/
  | preMatrixDeadline (dt : Nat)
  /-- OUTPUT_DELIVERY_COMPLETE (R91). -/
  | outputDeliveryComplete (c : Nat)
  /-- OUTPUT_COLLECTION (R55). -/
  | outputCollection (dt : Nat)
  /-- TILE_GROUP_PROCESS (R70). -/
  | tileGroupProcess (c : Nat) (dt : Nat)
  /-- SAMPLE_INSTANT (R189). -/
  | sampleInstant
  /-- ARMED_EVENT_EXECUTE (R24). -/
  | armedEventExecute
  /-- LONG_FORM_HANDOVER (R25). -/
  | longFormHandover
  /-- SKEW_CALIBRATION (R100). -/
  | skewCalibration (d : Nat) (delay : Nat) (skew8 : Nat)
  /-- MEDIA_TIME_INTEGRITY_FAULT (R34). -/
  | mediaTimeIntegrityFault (cond : Nat)
  /-- SLOT_MEASUREMENT_UPDATE (R37). -/
  | slotMeasurementUpdate (dt : Nat)
  /-- SLOT_INVALID (R36). -/
  | slotInvalid (n : Nat)
  /-- SLOT_VALID (R40). -/
  | slotValid (n : Nat)
  /-- WTR_EXPIRY (R40). -/
  | wtrExpiry (n : Nat)
  /-- DRIFT_HOLD_EXPIRY (R40). -/
  | driftHoldExpiry (n : Nat)
  /-- WH_LOCK (R45). -/
  | whLock
  /-- WH_UNLOCK (R45). -/
  | whUnlock
  /-- SWITCH_DELTA_FIX (R48). -/
  | switchDeltaFix
  /-- WH_SWITCH (R48). -/
  | whSwitch
  /-- ACQ_HOLD_EXPIRY (R42). -/
  | acqHoldExpiry
  /-- REACQ_EXPIRY (R42). -/
  | reacqExpiry
  /-- FREE_WAIT_EXPIRY (R21). -/
  | freeWaitExpiry
  /-- PPSIN_EDGE (R36). -/
  | ppsinEdge (dt : Nat)
  /-- REFIN_EDGE (R36). -/
  | refinEdge (i : Nat) (dt : Nat)
  /-- NOP (R286). -/
  | nop (c : Cmd)
  /-- CFG_JOURNAL_READ (R290). -/
  | cfgJournalRead (c : Cmd)
  /-- REG_SET (R286). -/
  | regSet (c : Cmd)
  /-- MT_STEP (R18). -/
  | mtStep (c : Cmd)
  /-- EPOCH_RESTART (R20). -/
  | epochRestart (c : Cmd)
  /-- MT_RATE_SET (R15). -/
  | mtRateSet (c : Cmd)
  /-- WH_ACQUIRE (R42). -/
  | whAcquire (c : Cmd)
  /-- WH_LOOP_OPEN (R54). -/
  | whLoopOpen (c : Cmd)
  /-- WH_LOOP_CLOSE (R54). -/
  | whLoopClose (c : Cmd)
  /-- WH_PHASE_STEP (R53). -/
  | whPhaseStep (c : Cmd)
  /-- ROUTE_WRITE (R64). -/
  | routeWrite (c : Cmd)
  /-- ROUTE_READ (R64). -/
  | routeRead (c : Cmd)
  /-- ROUTE_COMMIT (R64). -/
  | routeCommit (c : Cmd)
  /-- ROUTE_STATUS (R286). -/
  | routeStatus (c : Cmd)
  /-- BANK_COPY_COMPLETE (R65). -/
  | bankCopyComplete (which : Nat)
  /-- XP_WRITE (R286). -/
  | xpWrite (c : Cmd)
  /-- XP_READ (R286). -/
  | xpRead (c : Cmd)
  /-- XP_COMMIT (R66). -/
  | xpCommit (c : Cmd)
  /-- XP_SET (R73). -/
  | xpSet (c : Cmd)
  /-- XP_SET_HELD_APPLY (R73). -/
  | xpSetHeldApply
  /-- RAMP_END (R183). -/
  | rampEnd
  /-- SP_CONFIG (R82). -/
  | spConfig (c : Cmd)
  /-- SP_PLAY (R86). -/
  | spPlay (c : Cmd)
  /-- SP_STOP (R86). -/
  | spStop (c : Cmd)
  /-- SP_MSG_BLOCK (R80). -/
  | spMsgBlock (c : Cmd)
  /-- SP_MSG_COMMIT (R80). -/
  | spMsgCommit (c : Cmd)
  /-- SP_MSG_STORE_COMPLETE (R80). -/
  | spMsgStoreComplete (m : Nat) (ok : Bool)
  /-- ALARM_INPUT_CHANGE (R441). -/
  | alarmInputChange (n : Nat) (active : Bool) (dt : Nat)
  /-- DEBOUNCE_EXPIRY (R83). -/
  | debounceExpiry (n : Nat)
  /-- WATCH_LOSS_EXPIRY (R83). -/
  | watchLossExpiry (z : Nat)
  /-- WATCH_RETURN_EXPIRY (R85). -/
  | watchReturnExpiry (z : Nat)
  /-- REPETITION_END (R85). -/
  | repetitionEnd (v : Nat)
  /-- VOICE_FLASH_FALLBACK (R81). -/
  | voiceFlashFallback (x : VoiceEcc)
  /-- ASRC_SETTLED (R59). -/
  | asrcSettled (key : Nat)
  /-- ASRC_RATE_LOSS (R59). -/
  | asrcRateLoss (key : Nat)
  /-- CL_RESET (R92). -/
  | clReset (c : Cmd)
  /-- CLUSTER_RESET_ASSERT (R92). -/
  | clusterResetAssert (x : ClusterCut)
  /-- CLUSTER_RESET_RELEASE (R92). -/
  | clusterResetRelease (c : Nat)
  /-- CLUSTER_RELOAD_COMPLETE (R92). -/
  | clusterReloadComplete (c : Nat) (ok : Bool)
  /-- CLUSTER_RETURN (R92). -/
  | clusterReturn (c : Nat)
  /-- UNIT_SPARE (R94). -/
  | unitSpare (c : Cmd)
  /-- SPARE_REDIRECT (R94). -/
  | spareRedirect (g : Nat)
  /-- SPARE_IMAGE_LOADED (R94). -/
  | spareImageLoaded (g : Nat)
  /-- UNIT_RESTORE (R97). -/
  | unitRestore (c : Cmd)
  /-- RESTORE_REDIRECT_REMOVE (R97). -/
  | restoreRedirectRemove (u : Nat)
  /-- UNIT_LOAD (R143). -/
  | unitLoad (c : Cmd)
  /-- UNIT_LOAD_COMPLETE (R143). -/
  | unitLoadComplete (u : Nat)
  /-- UNIT_UNLOAD (R451). -/
  | unitUnload (c : Cmd)
  /-- UNIT_SET (R114). -/
  | unitSet (c : Cmd)
  /-- INS_WRITE (R145). -/
  | insWrite (c : Cmd)
  /-- INS_READ (R145). -/
  | insRead (c : Cmd)
  /-- INS_COMMIT (R146). -/
  | insCommit (c : Cmd)
  /-- DP_SET (R114). -/
  | dpSet (c : Cmd)
  /-- DP_RETRAIN (R175). -/
  | dpRetrain (c : Cmd)
  /-- DP_MBX_SEND (R180). -/
  | dpMbxSend (c : Cmd)
  /-- DP_MBX_TIMEOUT (R180). -/
  | dpMbxTimeout (n : Nat)
  /-- DC_WRITE (R182). -/
  | dcWrite (c : Cmd)
  /-- DC_READ (R182). -/
  | dcRead (c : Cmd)
  /-- DC_COMMIT (R182). -/
  | dcCommit (c : Cmd)
  /-- BG_SET (R191). -/
  | bgSet (c : Cmd)
  /-- DRIVE_FRAME_LAUNCH (R170). -/
  | driveFrameLaunch
  /-- DRIVE_RX_FRAME (R174). -/
  | driveRxFrame (n : Nat) (f : RxFrame)
  /-- TRAINING_TIMEOUT (R175). -/
  | trainingTimeout (n : Nat)
  /-- DRIVE_LINK_DOWN (R175). -/
  | driveLinkDown (n : Nat)
  /-- DOWN_RETRAIN_EXPIRY (R175). -/
  | downRetrainExpiry (n : Nat)
  /-- RETRY_EXPIRY (R203). -/
  | retryExpiry (c : Nat)
  /-- CHECK_END (R203). -/
  | checkEnd (c : Nat)
  /-- TRIP_FREE_EXPIRY (R203). -/
  | tripFreeExpiry (c : Nat)
  /-- RAIL_OVERVOLTAGE_TRIP (R196). -/
  | railOvervoltageTrip (g : Nat)
  /-- RAIL_RETURN (R196). -/
  | railReturn (g : Nat)
  /-- MEASUREMENT_TIMEOUT (R197). -/
  | measurementTimeout (g : Nat)
  /-- ENERGY_BIN_END (R205). -/
  | energyBinEnd
  /-- FLT_SET (R200). -/
  | fltSet (c : Cmd)
  /-- FLT_LINE_WRITE (R208). -/
  | fltLineWrite (c : Cmd)
  /-- FLT_LINE_READ (R208). -/
  | fltLineRead (c : Cmd)
  /-- FLT_REMEASURE (R197). -/
  | fltRemeasure (c : Cmd)
  /-- FLT_CLEAR (R203). -/
  | fltClear (c : Cmd)
  /-- FLT_READ (R204). -/
  | fltRead (c : Cmd)
  /-- LW_WINDOW_END (R210). -/
  | lwWindowEnd (c : Nat)
  /-- LW_BASELINE (R212). -/
  | lwBaseline (c : Cmd)
  /-- LW_READ (R215). -/
  | lwRead (c : Cmd)
  /-- LW_SWEEP (R213). -/
  | lwSweep (c : Cmd)
  /-- SWEEP_POINT_END (R214). -/
  | sweepPointEnd
  /-- LW_SWEEP_ABORT (R214). -/
  | lwSweepAbort (c : Cmd)
  /-- LW_SWEEP_READ (R215). -/
  | lwSweepRead (c : Cmd)
  /-- TDM_SET (R218). -/
  | tdmSet (c : Cmd)
  /-- TDM_RING_SET (R227). -/
  | tdmRingSet (c : Cmd)
  /-- TDM_AG_START (R231). -/
  | tdmAgStart (c : Cmd)
  /-- TDM_AG_STOP (R231). -/
  | tdmAgStop (c : Cmd)
  /-- TDM_FRAME_SYNC (R221). -/
  | tdmFrameSync (p : Nat) (f : TdmSync)
  /-- TDM_FRAME_SYNC_TIMEOUT (R221). -/
  | tdmFrameSyncTimeout (p : Nat)
  /-- TDM_RING_IDX_WRITE (R227). -/
  | tdmRingIdxWrite (p : Nat) (v : Word)
  /-- PDM_SET (R236). -/
  | pdmSet (c : Cmd)
  /-- PDM_STUCK (R236). -/
  | pdmStuck (p : Nat) (mic : Nat) (stuck : Bool)
  /-- NET_SET (R245). -/
  | netSet (c : Cmd)
  /-- NET_PTP_DS (R254). -/
  | netPtpDs (c : Cmd)
  /-- FWD_WRITE (R251). -/
  | fwdWrite (c : Cmd)
  /-- FWD_READ (R251). -/
  | fwdRead (c : Cmd)
  /-- FWD_COMMIT (R251). -/
  | fwdCommit (c : Cmd)
  /-- NET_STREAM_RX (R258). -/
  | netStreamRx (c : Cmd)
  /-- NET_STREAM_TX (R260). -/
  | netStreamTx (c : Cmd)
  /-- NET_STREAM_DEL (R256). -/
  | netStreamDel (c : Cmd)
  /-- NET_STREAM_READ (R286). -/
  | netStreamRead (c : Cmd)
  /-- NET_FRAME_TX (R261). -/
  | netFrameTx (c : Cmd)
  /-- NET_FRAME_READ (R261). -/
  | netFrameRead (c : Cmd)
  /-- NETWORK_LINK_UP (R239). -/
  | networkLinkUp (p : Nat) (partner : Nat)
  /-- NETWORK_LINK_DOWN (R239). -/
  | networkLinkDown (p : Nat) (loc : Bool) (rem : Bool) (los : Bool)
  /-- MODULE_PRESENCE_CHANGE (R239). -/
  | modulePresenceChange (p : Nat) (absent : Bool)
  /-- FRAME_RECEIVE (R240). -/
  | frameReceive (p : Nat) (f : NetRx)
  /-- PAUSE (R247). -/
  | pause (p : Nat) (f : NetRx)
  /-- PAUSE_EXPIRY (R247). -/
  | pauseExpiry (p : Nat)
  /-- FRAME_TRANSMIT (R244). -/
  | frameTransmit (p : Nat) (x : NetLeave)
  /-- PTP_SYNC_SEND (R254). -/
  | ptpSyncSend (p : Nat)
  /-- PTP_ANNOUNCE_SEND (R254). -/
  | ptpAnnounceSend (p : Nat)
  /-- PDELAY_REQ_SEND (R254). -/
  | pdelayReqSend (p : Nat)
  /-- ANNOUNCE_TIMEOUT (R253). -/
  | announceTimeout (p : Nat)
  /-- SYNC_TIMEOUT (R36). -/
  | syncTimeout (n : Nat)
  /-- DOORBELL (R271): a write of `size` bytes at a BAR2 offset (R264). -/
  | doorbell (off : Nat) (v : BusWord) (dt : Nat)
  /-- DESCRIPTOR_TAKE (R272). -/
  | descriptorTake (r : Nat) (d : Desc)
  /-- INTERRUPT_COALESCE_TIMEOUT (R279). -/
  | interruptCoalesceTimeout (r : Nat)
  /-- HIN_RETURN (R284). -/
  | hinReturn (r : Nat)
  /-- GO (R265). -/
  | go
  /-- REGISTER_WRITE (R267): a write at a BAR0 offset (R264), by the host (0) or by Windlass (1). Windlass raises event line
  off % 256 of cluster off / 256 with who = 2 (R91). -/
  | registerWrite (who : Nat) (off : Nat) (v : BusWord) (dt : Nat)
  /-- RCL_READ (R408). -/
  | rclRead (x : BusRead)
  /-- MT_NS_READ (R13). -/
  | mtNsRead (dt : Nat)
  /-- LATCHING_LO_READ (R262). -/
  | latchingLoRead (off : Nat)
  /-- LOG_ENTRY_READ (R317). -/
  | logEntryRead (off : Nat)
  /-- PC_CNT_READ (R418). -/
  | pcCntRead (agg : Bool) (n : Nat) (j : Nat) (dt : Nat)
  /-- SEC_REMAP_WRITE (R106). -/
  | secRemapWrite (v : Nat)
  /-- ARM_WRITE (R114). -/
  | armWrite (off : Nat) (set : Bool) (dt : Nat)
  /-- KICK (R297). -/
  | kick (n : Nat)
  /-- ABORT (R303). -/
  | abort (n : Nat)
  /-- PMP_CHANNEL_ENABLE (R296). -/
  | pmpChannelEnable (n : Nat) (en : Bool)
  /-- PMP_INDEX_WRITE (R296). -/
  | pmpIndexWrite (n : Nat) (v : Nat)
  /-- PUMP_TRIGGER (R297). -/
  | pumpTrigger (n : Nat) (io : PmpIo)
  /-- PUMP_BURST_ISSUE (R299). -/
  | pumpBurstIssue (p : Nat) (io : PmpIo)
  /-- DESCRIPTOR_COMPLETE (R301). -/
  | descriptorComplete (n : Nat) (io : PmpIo)
  /-- BURST_ERROR (R304). -/
  | burstError (n : Nat) (io : PmpIo)
  /-- NOP_INSTRUCTION (R148). -/
  | nopInstruction (u : Nat) (x : UPort)
  /-- MOV (R152). -/
  | mov (u : Nat) (x : UPort)
  /-- ADD (R153). -/
  | add (u : Nat) (x : UPort)
  /-- ADDS (R153). -/
  | adds (u : Nat) (x : UPort)
  /-- SUB (R153). -/
  | sub (u : Nat) (x : UPort)
  /-- SUBS (R153). -/
  | subs (u : Nat) (x : UPort)
  /-- AND (R153). -/
  | and (u : Nat) (x : UPort)
  /-- OR (R153). -/
  | or (u : Nat) (x : UPort)
  /-- XOR (R153). -/
  | xor (u : Nat) (x : UPort)
  /-- NEG (R153). -/
  | neg (u : Nat) (x : UPort)
  /-- ABS (R153). -/
  | abs (u : Nat) (x : UPort)
  /-- MIN (R153). -/
  | min (u : Nat) (x : UPort)
  /-- MAX (R153). -/
  | max (u : Nat) (x : UPort)
  /-- CMP (R153). -/
  | cmp (u : Nat) (x : UPort)
  /-- LSL (R153). -/
  | lsl (u : Nat) (x : UPort)
  /-- LSR (R153). -/
  | lsr (u : Nat) (x : UPort)
  /-- ASR (R153). -/
  | asr (u : Nat) (x : UPort)
  /-- MUL (R153). -/
  | mul (u : Nat) (x : UPort)
  /-- MULF (R153). -/
  | mulf (u : Nat) (x : UPort)
  /-- ADDI (R154). -/
  | addi (u : Nat) (x : UPort)
  /-- ANDI (R154). -/
  | andi (u : Nat) (x : UPort)
  /-- ORI (R154). -/
  | ori (u : Nat) (x : UPort)
  /-- XORI (R154). -/
  | xori (u : Nat) (x : UPort)
  /-- CMPI (R154). -/
  | cmpi (u : Nat) (x : UPort)
  /-- LSLI (R154). -/
  | lsli (u : Nat) (x : UPort)
  /-- LSRI (R154). -/
  | lsri (u : Nat) (x : UPort)
  /-- ASRI (R154). -/
  | asri (u : Nat) (x : UPort)
  /-- MOVI (R154). -/
  | movi (u : Nat) (x : UPort)
  /-- MOVHI (R154). -/
  | movhi (u : Nat) (x : UPort)
  /-- PMOD (R155). -/
  | pmod (u : Nat) (x : UPort)
  /-- PADDI (R155). -/
  | paddi (u : Nat) (x : UPort)
  /-- ALDI (R155). -/
  | aldi (u : Nat) (x : UPort)
  /-- ALDH (R155). -/
  | aldh (u : Nat) (x : UPort)
  /-- LD (R156). -/
  | ld (u : Nat) (x : UPort)
  /-- LDD (R156). -/
  | ldd (u : Nat) (x : UPort)
  /-- ST (R156). -/
  | st (u : Nat) (x : UPort)
  /-- STD (R156). -/
  | std (u : Nat) (x : UPort)
  /-- LDR (R156). -/
  | ldr (u : Nat) (x : UPort)
  /-- STR (R156). -/
  | str (u : Nat) (x : UPort)
  /-- STA (R157). -/
  | sta (u : Nat) (x : UPort)
  /-- CLR (R158). -/
  | clr (u : Nat) (x : UPort)
  /-- MPY (R158). -/
  | mpy (u : Nat) (x : UPort)
  /-- MPYN (R158). -/
  | mpyn (u : Nat) (x : UPort)
  /-- MPYI (R158). -/
  | mpyi (u : Nat) (x : UPort)
  /-- MAC (R158). -/
  | mac (u : Nat) (x : UPort)
  /-- MSU (R158). -/
  | msu (u : Nat) (x : UPort)
  /-- MACI (R158). -/
  | maci (u : Nat) (x : UPort)
  /-- MSUI (R158). -/
  | msui (u : Nat) (x : UPort)
  /-- ADDA (R158). -/
  | adda (u : Nat) (x : UPort)
  /-- SUBA (R158). -/
  | suba (u : Nat) (x : UPort)
  /-- ACCD (R158). -/
  | accd (u : Nat) (x : UPort)
  /-- NEGA (R158). -/
  | nega (u : Nat) (x : UPort)
  /-- ABSA (R158). -/
  | absa (u : Nat) (x : UPort)
  /-- ASLA (R158). -/
  | asla (u : Nat) (x : UPort)
  /-- ASRA (R158). -/
  | asra (u : Nat) (x : UPort)
  /-- EXP (R124). -/
  | exp (u : Nat) (x : UPort)
  /-- NORM (R124). -/
  | norm (u : Nat) (x : UPort)
  /-- MVA (R158). -/
  | mva (u : Nat) (x : UPort)
  /-- MVA24 (R158). -/
  | mva24 (u : Nat) (x : UPort)
  /-- CMPA (R158). -/
  | cmpa (u : Nat) (x : UPort)
  /-- SMAC (R160). -/
  | smac (u : Nat) (x : UPort)
  /-- DMAC (R161). -/
  | dmac (u : Nat) (x : UPort)
  /-- BR (R163). -/
  | br (u : Nat) (x : UPort)
  /-- CALL (R163). -/
  | call (u : Nat) (x : UPort)
  /-- JR (R163). -/
  | jr (u : Nat) (x : UPort)
  /-- RETI (R132). -/
  | reti (u : Nat) (x : UPort)
  /-- REP (R129). -/
  | rep (u : Nat) (x : UPort)
  /-- REPL (R163). -/
  | repl (u : Nat) (x : UPort)
  /-- DBNZ (R163). -/
  | dbnz (u : Nat) (x : UPort)
  /-- WAIT (R166). -/
  | wait (u : Nat) (x : UPort)
  /-- WAITM (R166). -/
  | waitm (u : Nat) (x : UPort)
  /-- RAISE (R166). -/
  | raise (u : Nat) (x : UPort)
  /-- DONE (R139). -/
  | done (u : Nat) (x : UPort)
  /-- WRITE_BUFFER_ENTRY_LEAVE (R135). -/
  | writeBufferEntryLeave (u : Nat)
  /-- INTERRUPT_ACCEPT (R132). -/
  | interruptAccept (u : Nat)
  /-- PERFORMANCE_COUNTER_OVERFLOW (R417). -/
  | performanceCounterOverflow (agg : Bool) (n : Nat) (j : Nat)
  /-- CORRECTED_WRITE_BACK (R315). -/
  | correctedWriteBack (w : WordId)
  /-- MERGE_WRITE_BACK (R313). -/
  | mergeWriteBack (w : WordId)
  /-- DIPPER_PASS_START (R318). -/
  | dipperPassStart (d : Nat)
  /-- DIPPER_READ (R318). -/
  | dipperRead (d : Nat) (w : WordId) (syn : Nat) (last : Bool)
  /-- WINDLASS_RESTORE (R321). -/
  | windlassRestore (w : WordId) (kind : Nat) (arg : Nat)
  /-- ISLAND_POWER_UP (R322). -/
  | islandPowerUp (g : Nat) (fails : List WordId)
  /-- SMP_FAULT (R326). -/
  | smpFault (r : Option Report)
  /-- REACTION_TIMER_EXPIRY (R328). -/
  | reactionTimerExpiry (c : Nat) (dry : Bool)
  /-- WINDLASS_ACK (R329). -/
  | windlassAck (c : Nat)
  /-- HEARTBEAT_MISS (R332). -/
  | heartbeatMiss
  /-- ALIVE_TOGGLE (R332). -/
  | aliveToggle
  /-- THERMAL_CAP_LIFT (R330). -/
  | thermalCapLift
  /-- QUENCH_WINDOW_END (R333). -/
  | quenchWindowEnd (cluster : Bool) (n : Nat)
  /-- SMP_ACK (R329). -/
  | smpAck (c : Cmd)
  /-- SMP_INJECT (R336). -/
  | smpInject (c : Cmd)
  /-- INJ (R336). -/
  | inj (f : Nat) (dry : Bool)
  /-- SMP_SET (R325). -/
  | smpSet (c : Cmd)
  /-- HELLO (R342). -/
  | hello (h : TwHdr) (m : TwHello)
  /-- HELLO_SEND (R342). -/
  | helloSend
  /-- BEAT (R353). -/
  | beat (h : TwHdr) (m : TwBeat)
  /-- BEAT_MISSED (R343). -/
  | beatMissed (l : Nat) (dt : Nat)
  /-- MIRROR (R355). -/
  | mirror (h : TwHdr) (m : TwMirror)
  /-- CMD (R356). -/
  | cmd (h : TwHdr) (tick : Nat) (code : Nat) (c : Cmd)
  /-- CMD_ACK (R356). -/
  | cmdAck (h : TwHdr) (tag : Nat) (status : Nat)
  /-- YIELD (R348). -/
  | yield (h : TwHdr)
  /-- PYIELD_ASSERT (R348). -/
  | pyieldAssert (level : Bool) (dt : Nat)
  /-- PALIVE_LOSS (R348). -/
  | paliveLoss (lost : Bool) (dt : Nat)
  /-- HANDOVER (R349). -/
  | handover (h : TwHdr) (seq : Nat) (request : Bool)
  /-- HANDOVER_ACK (R349). -/
  | handoverAck (h : TwHdr) (seq : Nat)
  /-- HANDOVER_TIMEOUT (R349). -/
  | handoverTimeout
  /-- PAIR_WAIT_EXPIRY (R346). -/
  | pairWaitExpiry
  /-- TWIN_LINK_DOWN (R340). -/
  | twinLinkDown (l : Nat) (lost : Bool)
  /-- SYNC (R357). -/
  | sync (h : TwHdr) (m : TwSync)
  /-- SYNC_ACK (R357). -/
  | syncAck (h : TwHdr) (refused : List Nat) (phase : Nat) (done : Bool)
  /-- RESYNC_PHASE_COMPLETE (R357). -/
  | resyncPhaseComplete
  /-- RESYNC_TIMEOUT (R357). -/
  | resyncTimeout
  /-- RESYNC_RETRY_EXPIRY (R357). -/
  | resyncRetryExpiry
  /-- HOME_HOLD_EXPIRY (R360). -/
  | homeHoldExpiry
  /-- MT_ALIGNED_LOSS_EXPIRY (R352). -/
  | mtAlignedLossExpiry
  /-- TW_SET (R339). -/
  | twSet (c : Cmd)
  /-- TW_YIELD (R349). -/
  | twYield (c : Cmd)
  /-- TW_RESYNC (R357). -/
  | twResync (c : Cmd)
  /-- TW_HOME (R349). -/
  | twHome (c : Cmd)
  /-- LOG_RECORD_DURABLE (R371). -/
  | logRecordDurable
  /-- COMPACTION_START (R372). -/
  | compactionStart
  /-- COMPACTION_COMPLETE (R372). -/
  | compactionComplete
  /-- PWR_SET (R379). -/
  | pwrSet (c : Cmd)
  /-- POWER_TRANSITION_START (R380). -/
  | powerTransitionStart
  /-- ISLANDS_OFF (R380). -/
  | islandsOff
  /-- STANDBY_EXIT_RELOAD_COMPLETE (R380). -/
  | standbyExitReloadComplete
  /-- OFF_ENTRY_COMPLETE (R380). -/
  | offEntryComplete
  /-- FW_BLOCK (R399). -/
  | fwBlock (c : Cmd)
  /-- FW_VERIFY (R400). -/
  | fwVerify (c : Cmd)
  /-- FW_ACTIVATE (R401). -/
  | fwActivate (c : Cmd)
  /-- FW_COMMIT (R403). -/
  | fwCommit (c : Cmd)
  /-- SEC_SEAL (R385). -/
  | secSeal (c : Cmd)
  /-- DBG_CHALLENGE (R390). -/
  | dbgChallenge (c : Cmd)
  /-- DBG_OPEN (R391). -/
  | dbgOpen (c : Cmd)
  /-- DBG_CLOSE (R392). -/
  | dbgClose (c : Cmd)
  /-- SESSION_EXPIRY (R392). -/
  | sessionExpiry
  /-- NONCE_EXPIRY (R390). -/
  | nonceExpiry
  /-- LOCKOUT_EXPIRY (R391). -/
  | lockoutExpiry
  /-- DBG_ACCESS (R386). -/
  | dbgAccess (a : DbgAcc)
  /-- DEBUG_WRITE (R388). -/
  | debugWrite (off : Nat) (v : Nat) (dt : Nat)
  /-- BOUNDARY_SCAN_INSTRUCTION (R395). -/
  | boundaryScanInstruction (i : Nat)
  /-- HALT (R389). -/
  | halt (u : Nat)
  /-- RESUME (R389). -/
  | resume (u : Nat)
  /-- STEP (R389). -/
  | step (u : Nat) (x : UPort)
  /-- PAIR0_HALT (R389). -/
  | pair0Halt (halt : Bool)
  /-- PAIR1_HALT (R389). -/
  | pair1Halt (halt : Bool)
  /-- STAGE (R384). -/
  | stage (w : Nat)
  /-- BURN (R384). -/
  | burn (w : Nat) (ok : Bool)
  /-- RECOVERY_BLOCK (R405). -/
  | recoveryBlock (w : Nat)
  /-- RECOVERY_VERIFY (R405). -/
  | recoveryVerify (w : Nat)
  /-- RECOVERY_ACTIVATE (R405). -/
  | recoveryActivate (w : Nat)
  /-- CENSUS_AT (R410). -/
  | censusAt (c : Cmd)
  /-- CENSUS_SNAPSHOT (R411). -/
  | censusSnapshot (dt : Nat)
  /-- CENSUS_COPY_COMPLETE (R412). -/
  | censusCopyComplete (status : Nat)
  /-- PC_SET (R419). -/
  | pcSet (c : Cmd)
  /-- TWIN_LINK_UP (R340). -/
  | twinLinkUp (l : Nat) (delay : Nat)
  /-- WINDLASS_HEARTBEAT (R332). -/
  | windlassHeartbeat
  /-- DELAY_REQ_SEND (R36). -/
  | delayReqSend (p : Nat)
  /-- FW_VERIFY_COMPLETE (R400). -/
  | fwVerifyComplete (b : Nat)
  /-- FW_ACTIVATE_COMPLETE (R401). -/
  | fwActivateComplete (b : Nat)
  /-- FW_COMMIT_COMPLETE (R403). -/
  | fwCommitComplete
  /-- RECOVERY_OP_COMPLETE (R405). -/
  | recoveryOpComplete (ok : Bool)
deriving DecidableEq, Repr

end Sys2Proof
end

