-- ==== Sys2Proof/WellFormed.lean ====
section
/-! DEFINITION. Well-formed commands: operands that name an instance lie in its range, and words have their width. The machine
answers every term all the same; what a command does to an instance that does not exist is nothing. -/

namespace Sys2Proof

/-- A number fits `w` bits. -/
def fits (w v : Nat) : Bool := decide (v < 2 ^ w)

/-- A command's fields have the widths of its descriptor (R275), and its buffer holds what LEN says at most. -/
def cmdWf (c : Cmd) : Bool :=
  decide (c.src < 4) && fits 8 c.ring && fits 32 c.tag && fits 32 c.tgtNs && fits 48 c.tgtSec && fits 16 c.rampMs && fits 8 c.shape
    && fits 32 c.a && fits 32 c.b && fits 64 c.addr && fits 32 c.len && fits 32 c.c && fits 32 c.i0 && fits 32 c.i1
    && fits 32 c.i2 && fits 32 c.i3 && decide (c.buf.length ≤ c.len) && (c.db.all (fits 32))

/-- A descriptor has 64 bytes (R270). -/
def descWf (d : Desc) : Bool := d.bytes.length == 64

/-- A twin-link header (R341): two links, 32-bit TICKNO and MTS. -/
def hdrWf (h : TwHdr) : Bool := decide (h.link < 2) && fits 32 h.tickno && fits 32 h.mts

/-- A BEAT's fields have their widths (R343). -/
def beatWf (m : TwBeat) : Bool :=
  fits 32 m.tickno && fits 32 m.mts && fits 64 m.health && fits 32 m.dig0 && fits 32 m.dig1 && fits 32 m.digDp && fits 48 m.sec

/-- Syndromes are 8 bits wide (R308). -/
def portWf (x : UPort) : Bool := fits 8 x.syn && fits 8 x.syn2 && fits 8 x.fsyn
def ioWf (x : PmpIo) : Bool := x.syns.all (fits 8) && fits 8 x.wsyn

/-- A frame of a power cell has 160 bytes (R174). -/
def rxWf (f : RxFrame) : Bool := f.bytes.length == 160

/-- A network frame holds at least its two addresses and its type (R240). -/
def netWf (f : NetRx) : Bool := decide (14 ≤ f.bytes.length)

/-- An ECC word belongs to one of the eight logs (R317). -/
def wordWf (w : WordId) : Bool := decide (w.log < 8) && fits 3 w.mem

/-- A debug access is aligned, by one of the two pairs (R386). -/
def accWf (a : DbgAcc) : Bool := decide (a.pair < 2) && fits 32 a.addr && a.addr % 4 == 0 && fits 32 a.data

/-- The check of a command. -/
def Instr.wf : Instr → Bool
  | .porNRelease straps => decide (straps < 16)
  | .porNAssert _ | .aonValidClear | .xoLoss | .thermalHold | .thermalHoldEnd | .firmwareBankSelect
  | .tcmLoadAndRemap _ | .lpddrTraining _ | .settingsImportFailure | .hubSramInit | .lpddrZeroFillComplete | .stage1Complete
  | .standpipeReady | .stage2Complete | .functionLevelReset | .perstNAssert | .tickStart | .unitWake _
  | .preMatrixDeadline _ | .outputCollection _ | .sampleInstant | .armedEventExecute | .longFormHandover
  | .slotMeasurementUpdate _ | .whLock | .whUnlock | .switchDeltaFix | .whSwitch | .acqHoldExpiry | .reacqExpiry
  | .freeWaitExpiry | .ppsinEdge _ | .xpSetHeldApply | .rampEnd | .asrcSettled _ | .asrcRateLoss _ | .driveFrameLaunch
  | .energyBinEnd | .sweepPointEnd | .go | .mtNsRead _ | .smpFault _ | .heartbeatMiss | .aliveToggle | .thermalCapLift
  | .helloSend | .pyieldAssert _ _ | .paliveLoss _ _ | .handoverTimeout | .pairWaitExpiry | .resyncPhaseComplete
  | .resyncTimeout | .resyncRetryExpiry | .homeHoldExpiry | .mtAlignedLossExpiry | .logRecordDurable | .compactionStart
  | .compactionComplete | .powerTransitionStart | .islandsOff | .standbyExitReloadComplete | .offEntryComplete
  | .sessionExpiry | .nonceExpiry | .lockoutExpiry | .pair0Halt _ | .pair1Halt _ | .censusSnapshot _ | .windlassHeartbeat
  | .fwCommitComplete | .recoveryOpComplete _ => true
  | .supplyUndervoltage rail => decide (rail < 9)
  | .pllClockLoss i | .refinEdge i _ => decide (i < 4)
  | .dieTemperatureThreshold i _ => decide (i < 12)
  | .checkerSelfTest fails => fails.all wordWf
  | .inputDeliveryComplete c | .outputDeliveryComplete c | .tileGroupProcess c _
  | .clusterResetRelease c | .clusterReloadComplete c _ | .clusterReturn c => decide (c < 24)
  | .skewCalibration d _ _ => decide (d < 2)
  | .mediaTimeIntegrityFault cond => decide (cond < 4)
  | .slotInvalid n | .slotValid n | .wtrExpiry n | .driftHoldExpiry n | .syncTimeout n => decide (n < 15)
  | .nop c | .cfgJournalRead c | .regSet c | .mtStep c | .epochRestart c | .mtRateSet c | .whAcquire c | .whLoopOpen c
  | .whLoopClose c | .whPhaseStep c | .routeWrite c | .routeRead c | .routeCommit c | .routeStatus c | .xpWrite c
  | .xpRead c | .xpCommit c | .xpSet c | .spConfig c | .spPlay c | .spStop c | .spMsgBlock c | .spMsgCommit c | .clReset c
  | .unitSpare c | .unitRestore c | .unitLoad c | .unitUnload c | .unitSet c | .insWrite c | .insRead c | .insCommit c
  | .dpSet c | .dpRetrain c | .dpMbxSend c | .dcWrite c | .dcRead c | .dcCommit c | .bgSet c | .fltSet c | .fltLineWrite c
  | .fltLineRead c | .fltRemeasure c | .fltClear c | .fltRead c | .lwBaseline c | .lwRead c | .lwSweep c | .lwSweepAbort c
  | .lwSweepRead c | .tdmSet c | .tdmRingSet c | .tdmAgStart c | .tdmAgStop c | .pdmSet c | .netSet c | .netPtpDs c
  | .fwdWrite c | .fwdRead c | .fwdCommit c | .netStreamRx c | .netStreamTx c | .netStreamDel c | .netStreamRead c
  | .netFrameTx c | .netFrameRead c | .smpAck c | .smpInject c | .smpSet c | .twSet c | .twYield c | .twResync c | .twHome c
  | .pwrSet c | .fwBlock c | .fwVerify c | .fwActivate c | .fwCommit c | .secSeal c | .dbgChallenge c | .dbgOpen c
  | .dbgClose c | .censusAt c | .pcSet c => cmdWf c
  | .bankCopyComplete which => decide (which < 5)
  | .spMsgStoreComplete m _ => decide (m < 16)
  | .alarmInputChange n _ _ | .debounceExpiry n => decide (n < 8)
  | .watchLossExpiry z | .watchReturnExpiry z => decide (z < 32)
  | .repetitionEnd v => decide (v < 16)
  | .clusterResetAssert x => decide (x.cluster < 24)
  | .voiceFlashFallback x => decide (x.voice < 16) && wordWf x.word && decide (x.syn < 256)
  | .spareRedirect g | .spareImageLoaded g => decide (g < 6)
  | .restoreRedirectRemove u | .unitLoadComplete u | .writeBufferEntryLeave u | .interruptAccept u | .halt u | .resume u => decide (u < 192)
  | .dpMbxTimeout n | .trainingTimeout n | .driveLinkDown n | .downRetrainExpiry n => decide (n < 24)
  | .driveRxFrame n f => decide (n < 24) && rxWf f
  | .retryExpiry c | .checkEnd c | .tripFreeExpiry c | .lwWindowEnd c => decide (c < 192)
  | .railOvervoltageTrip g | .railReturn g | .measurementTimeout g => decide (g < 48)
  | .tdmFrameSync p _ | .tdmFrameSyncTimeout p | .tdmRingIdxWrite p _ => decide (p < 16)
  | .pdmStuck p mic _ => decide (p < 8) && decide (mic < 2)
  | .networkLinkUp p _ | .networkLinkDown p _ _ _ | .modulePresenceChange p _ | .pauseExpiry p | .frameTransmit p _
  | .ptpSyncSend p | .ptpAnnounceSend p | .pdelayReqSend p | .announceTimeout p | .delayReqSend p => decide (p < 8)
  | .frameReceive p f | .pause p f => decide (p < 8) && netWf f
  | .doorbell off v _ => decide (off < 2 ^ 16) && decide (v.val < 256 ^ v.size) && decide (v.size ≤ 8)
  | .debugWrite off v _ => decide (off < 2 ^ 25) && decide (v < 2 ^ 32)
  | .descriptorTake r d => decide (r < 32) && descWf d
  | .interruptCoalesceTimeout r | .hinReturn r => decide (r < 32)
  | .registerWrite who off v _ => decide (who < 3) && decide (off < 2 ^ 25) && decide (v.val < 256 ^ v.size) && decide (v.size ≤ 8)
  | .rclRead x => decide (x.who < 2) && (x.bar == 0 || x.bar == 2) && decide (x.off < 2 ^ 25) && decide (x.size ≤ 8)
  | .latchingLoRead off | .logEntryRead off | .armWrite off _ _ => decide (off < 2 ^ 25)
  | .pcCntRead _ n _ _ | .performanceCounterOverflow _ n _ | .quenchWindowEnd _ n => decide (n < 192)
  | .secRemapWrite v => decide (v < 2 ^ 32)
  | .kick n | .abort n | .pmpChannelEnable n _ => decide (n < 448)
  | .pmpIndexWrite n v => decide (n < 448) && decide (v < 2 ^ 32)
  | .pumpTrigger n io | .descriptorComplete n io | .burstError n io => decide (n < 448) && ioWf io
  | .pumpBurstIssue p io => decide (p < 28) && ioWf io
  | .nopInstruction u x | .mov u x | .add u x | .adds u x | .sub u x | .subs u x | .and u x | .or u x | .xor u x | .neg u x
  | .abs u x | .min u x | .max u x | .cmp u x | .lsl u x | .lsr u x | .asr u x | .mul u x | .mulf u x | .addi u x
  | .andi u x | .ori u x | .xori u x | .cmpi u x | .lsli u x | .lsri u x | .asri u x | .movi u x | .movhi u x | .pmod u x
  | .paddi u x | .aldi u x | .aldh u x | .ld u x | .ldd u x | .st u x | .std u x | .ldr u x | .str u x | .sta u x | .clr u x
  | .mpy u x | .mpyn u x | .mpyi u x | .mac u x | .msu u x | .maci u x | .msui u x | .adda u x | .suba u x | .accd u x
  | .nega u x | .absa u x | .asla u x | .asra u x | .exp u x | .norm u x | .mva u x | .mva24 u x | .cmpa u x | .smac u x
  | .dmac u x | .br u x | .call u x | .jr u x | .reti u x | .rep u x | .repl u x | .dbnz u x | .wait u x | .waitm u x
  | .raise u x | .done u x | .step u x => decide (u < 192) && portWf x
  | .correctedWriteBack w | .mergeWriteBack w | .windlassRestore w _ _ => wordWf w
  | .dipperPassStart d => decide (d < 8)
  | .dipperRead d w syn _ => decide (d < 8) && wordWf w && decide (syn < 256)
  | .islandPowerUp g fails => decide (g < 6) && fails.all wordWf
  | .reactionTimerExpiry c _ | .windlassAck c => decide (c < 8)
  | .inj f _ => decide (f < 128)
  | .hello h _ | .mirror h _ | .yield h | .sync h _ => hdrWf h
  | .syncAck h _ phase _ => hdrWf h && decide (phase < 5)
  | .beat h m => hdrWf h && beatWf m
  | .beatMissed l _ | .twinLinkDown l _ | .twinLinkUp l _ => decide (l < 2)
  | .cmd h _ code c => hdrWf h && decide (code < 65536) && cmdWf c
  | .cmdAck h tag status => hdrWf h && decide (tag < 2 ^ 32) && decide (status < 65536)
  | .handover h seq _ | .handoverAck h seq => hdrWf h && decide (seq < 65536)
  | .dbgAccess a => accWf a
  | .boundaryScanInstruction i => decide (i < 7)
  | .stage w | .burn w _ | .recoveryBlock w | .recoveryVerify w | .recoveryActivate w => decide (w < 2 ^ 32)
  | .censusCopyComplete status => decide (status < 65536)
  | .fwVerifyComplete b | .fwActivateComplete b => decide (b < 2)

end Sys2Proof
end

