-- ==== Sys2Proof/Machine/Codes.lean ====
section
/-! DEFINITION. The numbers of the host interface: status codes (R288), event record types (R282) and the command catalogue
(R286) with the marks and argument fields of each command. -/

namespace Sys2Proof.Machine

/-! Status codes (R288). -/

abbrev Sts.OK : Nat := 0x0000
abbrev Sts.CMD_UNKNOWN : Nat := 0x0101
abbrev Sts.CMD_FORMAT : Nat := 0x0102
abbrev Sts.CMD_CLASS : Nat := 0x0103
abbrev Sts.CMD_STATE : Nat := 0x0104
abbrev Sts.CMD_REG : Nat := 0x0105
abbrev Sts.CMD_RANGE : Nat := 0x0106
abbrev Sts.CMD_HOST_READ : Nat := 0x0107
abbrev Sts.CMD_SOURCE : Nat := 0x0108
abbrev Sts.MT_RATE_RANGE : Nat := 0x0201
abbrev Sts.MT_STEP_REFUSED : Nat := 0x0202
abbrev Sts.MT_STEP_RANGE : Nat := 0x0203
abbrev Sts.MT_EVENT_CANCELLED : Nat := 0x0204
abbrev Sts.MT_SCHED_FULL : Nat := 0x0205
abbrev Sts.WH_CONFIG_SIZE : Nat := 0x0211
abbrev Sts.WH_LOOP_CLOSED : Nat := 0x0212
abbrev Sts.WH_PHASE_RANGE : Nat := 0x0213
abbrev Sts.SRC_EXHAUSTED : Nat := 0x0301
abbrev Sts.SRC_CLASS : Nat := 0x0302
abbrev Sts.ROUTE_CONFLICT : Nat := 0x0311
abbrev Sts.ROUTE_RANGE : Nat := 0x0312
abbrev Sts.ROUTE_BANK_LOCKED : Nat := 0x0313
abbrev Sts.XP_CONFLICT : Nat := 0x0321
abbrev Sts.XP_RANGE : Nat := 0x0322
abbrev Sts.XP_BUDGET : Nat := 0x0323
abbrev Sts.XP_BANK_LOCKED : Nat := 0x0324
abbrev Sts.XP_XFADE_LIMIT : Nat := 0x0325
abbrev Sts.SP_MSG_CRC : Nat := 0x0331
abbrev Sts.SP_CONFLICT : Nat := 0x0332
abbrev Sts.SP_ZONE_BUSY : Nat := 0x0333
abbrev Sts.SP_PREEMPTED : Nat := 0x0334
abbrev Sts.SPARE_CONFLICT : Nat := 0x0401
abbrev Sts.UNIT_FAILED : Nat := 0x0402
abbrev Sts.UNIT_NO_SPARE : Nat := 0x0403
abbrev Sts.UNIT_IMAGE : Nat := 0x0404
abbrev Sts.UNIT_BUSY : Nat := 0x0405
abbrev Sts.UNIT_BIND : Nat := 0x0406
abbrev Sts.UNIT_BUDGET : Nat := 0x0407
abbrev Sts.INS_BANK_LOCKED : Nat := 0x0411
abbrev Sts.INS_RANGE : Nat := 0x0412
abbrev Sts.DP_DOWN : Nat := 0x0501
abbrev Sts.DP_MBX_TIMEOUT : Nat := 0x0502
abbrev Sts.DC_RANGE : Nat := 0x0511
abbrev Sts.DC_LOOKAHEAD : Nat := 0x0512
abbrev Sts.DC_BANK_LOCKED : Nat := 0x0513
abbrev Sts.BG_RANGE : Nat := 0x0521
abbrev Sts.BG_LOOP : Nat := 0x0522
abbrev Sts.FLT_CEILING : Nat := 0x0531
abbrev Sts.FLT_RELEASE : Nat := 0x0532
abbrev Sts.LW_RANGE : Nat := 0x0541
abbrev Sts.LW_SWEEP_BUSY : Nat := 0x0542
abbrev Sts.LW_NO_BASELINE : Nat := 0x0543
abbrev Sts.TDM_RANGE : Nat := 0x0601
abbrev Sts.TDM_BUSY : Nat := 0x0602
abbrev Sts.TDM_AG_CONFLICT : Nat := 0x0603
abbrev Sts.TDM_AG_RANGE : Nat := 0x0604
abbrev Sts.NET_STREAM_RANGE : Nat := 0x0701
abbrev Sts.NET_BW : Nat := 0x0702
abbrev Sts.NET_PTP_ROLE : Nat := 0x0703
abbrev Sts.FWD_RANGE : Nat := 0x0711
abbrev Sts.FWD_CONFLICT : Nat := 0x0712
abbrev Sts.FWD_BANK_LOCKED : Nat := 0x0713
abbrev Sts.PMP_ABORTED : Nat := 0x0801
abbrev Sts.DISABLED : Nat := 0x0802
abbrev Sts.PMP_BUS_ERROR : Nat := 0x0803
abbrev Sts.PMP_ECC : Nat := 0x0804
abbrev Sts.TW_NOT_PAIRED : Nat := 0x0901
abbrev Sts.TW_ROLE : Nat := 0x0902
abbrev Sts.TW_RESYNC_BUSY : Nat := 0x0903
abbrev Sts.FW_CRC : Nat := 0x0A01
abbrev Sts.FW_OFFSET : Nat := 0x0A02
abbrev Sts.FW_SIGNATURE : Nat := 0x0A03
abbrev Sts.FW_BINDING : Nat := 0x0A04
abbrev Sts.FW_SCHEMA : Nat := 0x0A05
abbrev Sts.FW_STATE : Nat := 0x0A06
abbrev Sts.SEC_STATE : Nat := 0x0A11
abbrev Sts.DBG_DENIED : Nat := 0x0A12
abbrev Sts.DBG_AUTH : Nat := 0x0A13
abbrev Sts.CEN_BUSY : Nat := 0x0B01
abbrev Sts.CEN_RANGE : Nat := 0x0B02
abbrev Sts.SMP_RANGE : Nat := 0x0B11
abbrev Sts.SMP_INJ_DENIED : Nat := 0x0B12
abbrev Sts.PWR_STATE : Nat := 0x0B21

/-! Event record types (R282). -/

abbrev Evt.SMP_FAULT : Nat := 0x0001
abbrev Evt.WH_LOCK : Nat := 0x0010
abbrev Evt.WH_UNLOCK : Nat := 0x0011
abbrev Evt.WH_SWITCH : Nat := 0x0012
abbrev Evt.WH_REF_LOST : Nat := 0x0013
abbrev Evt.WH_DRIFTING : Nat := 0x0014
abbrev Evt.WH_DISQUALIFIED : Nat := 0x0015
abbrev Evt.WH_HOLDOVER : Nat := 0x0016
abbrev Evt.DP_MBX_RX : Nat := 0x0020
abbrev Evt.LW_DEVIATION : Nat := 0x0021
abbrev Evt.LW_SWEEP_DONE : Nat := 0x0022
abbrev Evt.AUDIO_UNDERRUN : Nat := 0x0030
abbrev Evt.PDM_STUCK : Nat := 0x0031
abbrev Evt.NET_FRAME_RX : Nat := 0x0040
abbrev Evt.HIF_RING_ERR : Nat := 0x0050
abbrev Evt.HIF_IGNORED : Nat := 0x0051

/-! Command codes (R286). -/

abbrev Code.NOP : Nat := 0x0100
abbrev Code.CFG_JOURNAL_READ : Nat := 0x0101
abbrev Code.REG_SET : Nat := 0x0102
abbrev Code.MT_STEP : Nat := 0x0200
abbrev Code.EPOCH_RESTART : Nat := 0x0201
abbrev Code.MT_RATE_SET : Nat := 0x0202
abbrev Code.WH_ACQUIRE : Nat := 0x0203
abbrev Code.WH_LOOP_OPEN : Nat := 0x0204
abbrev Code.WH_LOOP_CLOSE : Nat := 0x0205
abbrev Code.WH_PHASE_STEP : Nat := 0x0206
abbrev Code.ROUTE_WRITE : Nat := 0x0300
abbrev Code.ROUTE_READ : Nat := 0x0301
abbrev Code.ROUTE_COMMIT : Nat := 0x0302
abbrev Code.ROUTE_STATUS : Nat := 0x0303
abbrev Code.XP_WRITE : Nat := 0x0310
abbrev Code.XP_READ : Nat := 0x0311
abbrev Code.XP_COMMIT : Nat := 0x0312
abbrev Code.XP_SET : Nat := 0x0313
abbrev Code.SP_CONFIG : Nat := 0x0320
abbrev Code.SP_PLAY : Nat := 0x0321
abbrev Code.SP_STOP : Nat := 0x0322
abbrev Code.SP_MSG_BLOCK : Nat := 0x0323
abbrev Code.SP_MSG_COMMIT : Nat := 0x0324
abbrev Code.CL_RESET : Nat := 0x0400
abbrev Code.UNIT_SPARE : Nat := 0x0401
abbrev Code.UNIT_RESTORE : Nat := 0x0402
abbrev Code.UNIT_LOAD : Nat := 0x0403
abbrev Code.UNIT_UNLOAD : Nat := 0x0404
abbrev Code.UNIT_SET : Nat := 0x0405
abbrev Code.INS_WRITE : Nat := 0x0410
abbrev Code.INS_READ : Nat := 0x0411
abbrev Code.INS_COMMIT : Nat := 0x0412
abbrev Code.DP_SET : Nat := 0x0500
abbrev Code.DP_RETRAIN : Nat := 0x0501
abbrev Code.DP_MBX_SEND : Nat := 0x0502
abbrev Code.DC_WRITE : Nat := 0x0510
abbrev Code.DC_READ : Nat := 0x0511
abbrev Code.DC_COMMIT : Nat := 0x0512
abbrev Code.BG_SET : Nat := 0x0513
abbrev Code.FLT_SET : Nat := 0x0520
abbrev Code.FLT_LINE_WRITE : Nat := 0x0521
abbrev Code.FLT_LINE_READ : Nat := 0x0522
abbrev Code.FLT_REMEASURE : Nat := 0x0523
abbrev Code.FLT_CLEAR : Nat := 0x0524
abbrev Code.FLT_READ : Nat := 0x0525
abbrev Code.LW_BASELINE : Nat := 0x0530
abbrev Code.LW_READ : Nat := 0x0531
abbrev Code.LW_SWEEP : Nat := 0x0532
abbrev Code.LW_SWEEP_ABORT : Nat := 0x0533
abbrev Code.LW_SWEEP_READ : Nat := 0x0534
abbrev Code.TDM_SET : Nat := 0x0600
abbrev Code.TDM_RING_SET : Nat := 0x0601
abbrev Code.TDM_AG_START : Nat := 0x0602
abbrev Code.TDM_AG_STOP : Nat := 0x0603
abbrev Code.PDM_SET : Nat := 0x0604
abbrev Code.NET_SET : Nat := 0x0700
abbrev Code.NET_PTP_DS : Nat := 0x0701
abbrev Code.FWD_WRITE : Nat := 0x0710
abbrev Code.FWD_READ : Nat := 0x0711
abbrev Code.FWD_COMMIT : Nat := 0x0712
abbrev Code.NET_STREAM_RX : Nat := 0x0720
abbrev Code.NET_STREAM_TX : Nat := 0x0721
abbrev Code.NET_STREAM_DEL : Nat := 0x0722
abbrev Code.NET_STREAM_READ : Nat := 0x0723
abbrev Code.NET_FRAME_TX : Nat := 0x0730
abbrev Code.NET_FRAME_READ : Nat := 0x0731
abbrev Code.TW_SET : Nat := 0x0900
abbrev Code.TW_YIELD : Nat := 0x0901
abbrev Code.TW_RESYNC : Nat := 0x0902
abbrev Code.TW_HOME : Nat := 0x0903
abbrev Code.FW_BLOCK : Nat := 0x0A00
abbrev Code.FW_VERIFY : Nat := 0x0A01
abbrev Code.FW_ACTIVATE : Nat := 0x0A02
abbrev Code.FW_COMMIT : Nat := 0x0A03
abbrev Code.SEC_SEAL : Nat := 0x0A10
abbrev Code.DBG_CHALLENGE : Nat := 0x0A11
abbrev Code.DBG_OPEN : Nat := 0x0A12
abbrev Code.DBG_CLOSE : Nat := 0x0A13
abbrev Code.CENSUS_AT : Nat := 0x0B00
abbrev Code.PC_SET : Nat := 0x0B01
abbrev Code.SMP_ACK : Nat := 0x0B10
abbrev Code.SMP_INJECT : Nat := 0x0B11
abbrev Code.SMP_SET : Nat := 0x0B12
abbrev Code.PWR_SET : Nat := 0x0B20

/-- Which argument fields a catalogue row uses (R276: every other field must be 0). -/
structure Uses where
  a : Bool := false
  b : Bool := false
  c : Bool := false
  buf : Bool := false
  addr : Bool := false
  i0 : Bool := false
  i1 : Bool := false
  i2 : Bool := false
  i3 : Bool := false
  mask : Bool := false
  ramp : Bool := false
deriving DecidableEq, Repr

/-- A row of the command catalogue (R286): code, the marks S, T, L, G, W, the fields used. -/
structure CatRow where
  code : Nat
  s : Bool
  t : Bool
  l : Bool
  g : Bool
  w : Bool
  uses : Uses
deriving DecidableEq, Repr

/-- The row of a command code; none is an unknown code. -/
def catalogue (code : Nat) : Option CatRow :=
  match code with
  | 0x0100 => some ⟨0x0100, true, false, false, false, false, {  }⟩
  | 0x0101 => some ⟨0x0101, false, false, false, false, false, { a := true, b := true, buf := true }⟩
  | 0x0102 => some ⟨0x0102, false, false, false, true, false, { buf := true }⟩
  | 0x0200 => some ⟨0x0200, false, false, false, true, false, { i0 := true, i1 := true, i2 := true }⟩
  | 0x0201 => some ⟨0x0201, false, false, false, true, false, {  }⟩
  | 0x0202 => some ⟨0x0202, false, false, false, true, false, { a := true }⟩
  | 0x0203 => some ⟨0x0203, false, false, false, false, false, {  }⟩
  | 0x0204 => some ⟨0x0204, false, false, false, true, false, {  }⟩
  | 0x0205 => some ⟨0x0205, false, false, false, true, false, {  }⟩
  | 0x0206 => some ⟨0x0206, false, false, false, true, false, { a := true, b := true }⟩
  | 0x0300 => some ⟨0x0300, false, false, false, false, false, { a := true, b := true, buf := true }⟩
  | 0x0301 => some ⟨0x0301, false, false, false, false, false, { a := true, b := true, c := true, buf := true }⟩
  | 0x0302 => some ⟨0x0302, false, false, true, true, false, { ramp := true }⟩
  | 0x0303 => some ⟨0x0303, false, false, false, false, false, {  }⟩
  | 0x0310 => some ⟨0x0310, false, false, false, false, false, { a := true, b := true, c := true, buf := true }⟩
  | 0x0311 => some ⟨0x0311, false, false, false, false, false, { a := true, b := true, c := true, buf := true }⟩
  | 0x0312 => some ⟨0x0312, false, false, true, true, false, { a := true, c := true, i0 := true, ramp := true }⟩
  | 0x0313 => some ⟨0x0313, true, false, false, true, false, { a := true, buf := true, ramp := true }⟩
  | 0x0320 => some ⟨0x0320, false, false, false, true, false, { buf := true }⟩
  | 0x0321 => some ⟨0x0321, true, true, false, false, false, { a := true, b := true }⟩
  | 0x0322 => some ⟨0x0322, true, false, false, false, false, { a := true, b := true }⟩
  | 0x0323 => some ⟨0x0323, false, false, false, false, false, { a := true, b := true, buf := true, i0 := true }⟩
  | 0x0324 => some ⟨0x0324, false, false, false, true, true, { a := true }⟩
  | 0x0400 => some ⟨0x0400, false, false, false, false, false, { a := true }⟩
  | 0x0401 => some ⟨0x0401, false, false, false, false, false, { a := true }⟩
  | 0x0402 => some ⟨0x0402, false, true, false, false, false, { a := true }⟩
  | 0x0403 => some ⟨0x0403, false, true, false, true, true, { a := true, c := true, buf := true }⟩
  | 0x0404 => some ⟨0x0404, false, true, false, true, false, { a := true }⟩
  | 0x0405 => some ⟨0x0405, true, false, false, true, false, { a := true, i0 := true }⟩
  | 0x0410 => some ⟨0x0410, false, false, false, false, false, { a := true, b := true, buf := true }⟩
  | 0x0411 => some ⟨0x0411, false, false, false, false, false, { a := true, b := true, c := true, buf := true }⟩
  | 0x0412 => some ⟨0x0412, false, false, true, true, false, { mask := true }⟩
  | 0x0500 => some ⟨0x0500, false, false, false, true, false, { a := true, i0 := true, i1 := true }⟩
  | 0x0501 => some ⟨0x0501, false, false, false, false, false, { a := true }⟩
  | 0x0502 => some ⟨0x0502, false, false, false, false, true, { a := true, buf := true }⟩
  | 0x0510 => some ⟨0x0510, false, false, false, false, false, { a := true, b := true, buf := true }⟩
  | 0x0511 => some ⟨0x0511, false, false, false, false, false, { a := true, b := true, c := true, buf := true }⟩
  | 0x0512 => some ⟨0x0512, false, false, true, true, false, { ramp := true }⟩
  | 0x0513 => some ⟨0x0513, false, false, false, true, false, { a := true, i0 := true, i1 := true }⟩
  | 0x0520 => some ⟨0x0520, false, false, false, true, false, { a := true, i0 := true, i1 := true, i2 := true, i3 := true }⟩
  | 0x0521 => some ⟨0x0521, false, false, false, false, false, { a := true, b := true, buf := true }⟩
  | 0x0522 => some ⟨0x0522, false, false, false, false, false, { a := true, b := true, c := true, buf := true }⟩
  | 0x0523 => some ⟨0x0523, false, false, false, false, false, { a := true, b := true }⟩
  | 0x0524 => some ⟨0x0524, true, false, false, false, false, { mask := true }⟩
  | 0x0525 => some ⟨0x0525, false, false, false, false, false, { a := true, b := true, buf := true }⟩
  | 0x0530 => some ⟨0x0530, false, false, false, true, true, { mask := true, i0 := true }⟩
  | 0x0531 => some ⟨0x0531, false, false, false, false, false, { a := true, b := true, buf := true }⟩
  | 0x0532 => some ⟨0x0532, false, false, true, false, false, { a := true, b := true, buf := true }⟩
  | 0x0533 => some ⟨0x0533, false, false, false, false, false, {  }⟩
  | 0x0534 => some ⟨0x0534, false, false, false, false, false, { a := true, b := true, buf := true }⟩
  | 0x0600 => some ⟨0x0600, false, false, false, true, false, { a := true, i0 := true, i1 := true, i2 := true, i3 := true }⟩
  | 0x0601 => some ⟨0x0601, false, false, false, true, false, { a := true, i0 := true, i1 := true, i2 := true }⟩
  | 0x0602 => some ⟨0x0602, false, false, true, false, false, { a := true }⟩
  | 0x0603 => some ⟨0x0603, false, true, false, false, false, { a := true }⟩
  | 0x0604 => some ⟨0x0604, false, false, false, true, false, { a := true, i0 := true, i1 := true }⟩
  | 0x0700 => some ⟨0x0700, false, false, false, true, false, { a := true, buf := true }⟩
  | 0x0701 => some ⟨0x0701, false, false, false, true, false, { a := true, buf := true }⟩
  | 0x0710 => some ⟨0x0710, false, false, false, false, false, { a := true, b := true, buf := true }⟩
  | 0x0711 => some ⟨0x0711, false, false, false, false, false, { a := true, b := true, c := true, buf := true }⟩
  | 0x0712 => some ⟨0x0712, false, false, true, true, false, { ramp := true }⟩
  | 0x0720 => some ⟨0x0720, false, false, true, true, false, { a := true, buf := true }⟩
  | 0x0721 => some ⟨0x0721, false, false, true, true, false, { a := true, buf := true }⟩
  | 0x0722 => some ⟨0x0722, false, false, true, true, false, { a := true }⟩
  | 0x0723 => some ⟨0x0723, false, false, false, false, false, { a := true, b := true, c := true, buf := true }⟩
  | 0x0730 => some ⟨0x0730, false, false, false, false, false, { a := true, buf := true }⟩
  | 0x0731 => some ⟨0x0731, false, false, false, false, false, { buf := true }⟩
  | 0x0900 => some ⟨0x0900, false, false, false, true, false, { buf := true }⟩
  | 0x0901 => some ⟨0x0901, false, false, false, false, false, {  }⟩
  | 0x0902 => some ⟨0x0902, false, false, false, false, false, {  }⟩
  | 0x0903 => some ⟨0x0903, false, false, false, false, false, {  }⟩
  | 0x0A00 => some ⟨0x0A00, false, false, false, false, false, { a := true, b := true, buf := true, i0 := true }⟩
  | 0x0A01 => some ⟨0x0A01, false, false, false, false, true, { a := true }⟩
  | 0x0A02 => some ⟨0x0A02, false, false, false, false, true, { a := true, c := true }⟩
  | 0x0A03 => some ⟨0x0A03, false, false, false, true, true, { a := true }⟩
  | 0x0A10 => some ⟨0x0A10, false, false, false, false, false, {  }⟩
  | 0x0A11 => some ⟨0x0A11, false, false, false, false, false, { buf := true }⟩
  | 0x0A12 => some ⟨0x0A12, false, false, false, false, false, { buf := true }⟩
  | 0x0A13 => some ⟨0x0A13, false, false, false, false, false, {  }⟩
  | 0x0B00 => some ⟨0x0B00, false, false, true, false, false, { a := true, addr := true }⟩
  | 0x0B01 => some ⟨0x0B01, false, false, false, true, false, { a := true, i0 := true, i1 := true, i2 := true, i3 := true }⟩
  | 0x0B10 => some ⟨0x0B10, false, false, false, false, false, { a := true }⟩
  | 0x0B11 => some ⟨0x0B11, false, false, false, false, false, { a := true }⟩
  | 0x0B12 => some ⟨0x0B12, false, false, false, true, false, { buf := true }⟩
  | 0x0B20 => some ⟨0x0B20, false, true, false, true, false, { a := true }⟩
  | _ => none

end Sys2Proof.Machine
end

