-- ==== Sys2Proof/Machine/RegMap.lean ====
section
/-! DEFINITION. The register map: every register type of R428 with its BAR0 offsets (R423), its fields, access codes
(R9), stated ranges and the value every field has after power-up (R10). Offsets are from the index of
spec/19_address_map.md, fields from the register tables at the end of each chapter. -/

namespace Sys2Proof.Machine

/-- The register types of R428, under the manual's names. -/
inductive RegId where
  | MT_NS
  | MT_SEC_LO
  | MT_SEC_HI
  | MT_FRAC
  | MT_TICKNO
  | MT_RATE
  | MT_EPOCH
  | MT_CTL
  | MT_SLEW_MAX
  | WH_CTL
  | WH_STATUS
  | WH_BW
  | WH_LOCK
  | WH_TIMERS
  | WH_DRIFT
  | WH_HO_RATE
  | WH_HO_VALID
  | WH_ABSORB_LO
  | WH_ABSORB_HI
  | WH_SLOT_CFG
  | WH_SLOT_STAT
  | WH_SLOT_PHASE
  | WH_SLOT_FREQ
  | WH_QL_MAP
  | WH_CLKOUT
  | WH_CLKOUT_PHASE
  | CL_MIX_CTL
  | CL_MIX_STAT
  | CL_MIX_CYC
  | CL_MIX_MISS
  | SP_CTL
  | SP_TIMING
  | SP_STAT
  | SP_ZONE_ACT
  | SP_ZONE
  | SP_WATCH_A
  | SP_WATCH_B
  | SP_MSG
  | CL_CTL
  | CL_STAT
  | RG_SPARE
  | RG_SPARE_STAT
  | RG_PWR
  | MT_SKEW
  | SEC_REMAP
  | UNIT_CTL
  | UNIT_STAT
  | UNIT_DONE
  | UNIT_CYC
  | UNIT_TRAP
  | UNIT_FLAGS
  | UNIT_TICK_DEADLINE
  | DP_CTL
  | DP_MOD
  | DP_BOOST
  | DP_STAT
  | DP_ERR
  | DP_SENSE
  | BG_CTL
  | BG_RAIL
  | BG_STAT
  | FLT_CTL
  | FLT_FUSE0
  | FLT_FUSE1
  | FLT_TRIPS
  | FLT_TRIPPED
  | FLT_LIMITING
  | FLT_GRP
  | FLT_CAP
  | FLT_VE
  | FLT_REL
  | LW_CTL
  | LW_DEV
  | LW_EVENTS
  | LW_SWEEP_STAT
  | TDM_CTL
  | TDM_FRAME
  | TDM_MASK_RX
  | TDM_MASK_TX
  | TDM_PACK
  | TDM_RING_BASE
  | TDM_RING_CFG
  | TDM_RING_IDX
  | TDM_STAT
  | TDM_ERR
  | TDM_AG_STAT
  | PDM_CTL
  | PDM_GAIN
  | PDM_STAT
  | PDM_ERR
  | PDM_LEVEL
  | NET_CTL
  | NET_STAT
  | NET_MAC_LO
  | NET_MAC_HI
  | NET_PCP_MAP
  | NET_SHAPER
  | NET_TXQ_LIMIT
  | NET_PTP_CFG
  | NET_PTP_ASYM
  | NET_PTP_LINKDLY
  | NET_IPV4
  | NET_CNT_LO
  | NET_CNT_HI
  | NET_FWD_STAT
  | NET_MGMT_STAT
  | HIF_CTL
  | HIF_STAT
  | HIF_IGN_ADDR
  | HIF_CFG_GEN
  | HIF_RING_BASE_LO
  | HIF_RING_BASE_HI
  | HIF_RING_CFG
  | HIF_RING_AUD
  | HIF_RING_IDX
  | HIF_RING_STAT
  | PMP_CH_CTL
  | PMP_CH_RING_LO
  | PMP_CH_RING_HI
  | PMP_CH_RING_CFG
  | PMP_CH_IDX
  | PMP_CH_STAT
  | PMP_CH_RES
  | PMP_CH_CNT
  | PMP_SUM
  | DPR_CTL
  | DPR_STAT
  | RG_ECC_CNT0
  | RG_ECC_CNT1
  | RG_ECC_CNT2
  | DPR_CISWIN
  | DPR_HUB_CTL
  | DPR_HUB_STAT
  | DPR_HUB_CNT0
  | DPR_HUB_CNT1
  | DPR_DDR_CNT
  | DPR_BIST
  | DPR_LOGSTAT
  | DPR_LOG0
  | DPR_LOG1
  | DPR_LOG2
  | SMP_CTL
  | SMP_STAT
  | SMP_LOGSTAT
  | SMP_LOG0
  | SMP_LOG1
  | SMP_LOG2
  | SMP_CLASS_CTL
  | SMP_CLASS_STAT
  | SMP_FAM
  | TW_CTL
  | TW_TIMERS
  | TW_SYNC
  | TW_MIRROR
  | TW_STAT
  | TW_HEALTH_LO
  | TW_HEALTH_HI
  | TW_PEER_LO
  | TW_PEER_HI
  | TW_CNT
  | TW_SYNC_RGN_BASE
  | TW_SYNC_RGN_LEN
  | TW_LINK
  | TW_PARTNER_ID
  | RW_CTL
  | RW_STAT
  | RW_SCHEMA
  | RW_DURABLE
  | RW_PENDING
  | RW_LOG
  | RW_CAUSE
  | RW_TIMES
  | RW_PWR_STAT
  | SEC_STATE
  | SEC_UID
  | SEC_HWTYPE
  | SEC_FW_STAT
  | SEC_FW_VER
  | SEC_RCV_CTL
  | SEC_RCV_STAT
  | SEC_RCV_CRC
  | SEC_RCV_BUF
  | DBG_STAT
  | DBG_RUNCTL
  | DBG_FUSE_CTL
  | DBG_FUSE_DATA
  | CEN_STAT
  | CEN_SEQ
  | CEN_MTS
  | PC_SEL
  | PC_CNT
  | PC_MTS
  | PC_OVF
  | PC_AGG_SEL
  | PC_AGG_CNT
  | PC_AGG_MTS
  | PC_AGG_OVF
deriving DecidableEq, Repr

/-- Every register type, in the order above. -/
def RegId.all : List RegId := [
  .MT_NS, .MT_SEC_LO, .MT_SEC_HI, .MT_FRAC, .MT_TICKNO, .MT_RATE, .MT_EPOCH, .MT_CTL,
  .MT_SLEW_MAX, .WH_CTL, .WH_STATUS, .WH_BW, .WH_LOCK, .WH_TIMERS, .WH_DRIFT, .WH_HO_RATE,
  .WH_HO_VALID, .WH_ABSORB_LO, .WH_ABSORB_HI, .WH_SLOT_CFG, .WH_SLOT_STAT, .WH_SLOT_PHASE, .WH_SLOT_FREQ, .WH_QL_MAP,
  .WH_CLKOUT, .WH_CLKOUT_PHASE, .CL_MIX_CTL, .CL_MIX_STAT, .CL_MIX_CYC, .CL_MIX_MISS, .SP_CTL, .SP_TIMING,
  .SP_STAT, .SP_ZONE_ACT, .SP_ZONE, .SP_WATCH_A, .SP_WATCH_B, .SP_MSG, .CL_CTL, .CL_STAT,
  .RG_SPARE, .RG_SPARE_STAT, .RG_PWR, .MT_SKEW, .SEC_REMAP, .UNIT_CTL, .UNIT_STAT, .UNIT_DONE,
  .UNIT_CYC, .UNIT_TRAP, .UNIT_FLAGS, .UNIT_TICK_DEADLINE, .DP_CTL, .DP_MOD, .DP_BOOST, .DP_STAT,
  .DP_ERR, .DP_SENSE, .BG_CTL, .BG_RAIL, .BG_STAT, .FLT_CTL, .FLT_FUSE0, .FLT_FUSE1,
  .FLT_TRIPS, .FLT_TRIPPED, .FLT_LIMITING, .FLT_GRP, .FLT_CAP, .FLT_VE, .FLT_REL, .LW_CTL,
  .LW_DEV, .LW_EVENTS, .LW_SWEEP_STAT, .TDM_CTL, .TDM_FRAME, .TDM_MASK_RX, .TDM_MASK_TX, .TDM_PACK,
  .TDM_RING_BASE, .TDM_RING_CFG, .TDM_RING_IDX, .TDM_STAT, .TDM_ERR, .TDM_AG_STAT, .PDM_CTL, .PDM_GAIN,
  .PDM_STAT, .PDM_ERR, .PDM_LEVEL, .NET_CTL, .NET_STAT, .NET_MAC_LO, .NET_MAC_HI, .NET_PCP_MAP,
  .NET_SHAPER, .NET_TXQ_LIMIT, .NET_PTP_CFG, .NET_PTP_ASYM, .NET_PTP_LINKDLY, .NET_IPV4, .NET_CNT_LO, .NET_CNT_HI,
  .NET_FWD_STAT, .NET_MGMT_STAT, .HIF_CTL, .HIF_STAT, .HIF_IGN_ADDR, .HIF_CFG_GEN, .HIF_RING_BASE_LO, .HIF_RING_BASE_HI,
  .HIF_RING_CFG, .HIF_RING_AUD, .HIF_RING_IDX, .HIF_RING_STAT, .PMP_CH_CTL, .PMP_CH_RING_LO, .PMP_CH_RING_HI, .PMP_CH_RING_CFG,
  .PMP_CH_IDX, .PMP_CH_STAT, .PMP_CH_RES, .PMP_CH_CNT, .PMP_SUM, .DPR_CTL, .DPR_STAT, .RG_ECC_CNT0,
  .RG_ECC_CNT1, .RG_ECC_CNT2, .DPR_CISWIN, .DPR_HUB_CTL, .DPR_HUB_STAT, .DPR_HUB_CNT0, .DPR_HUB_CNT1, .DPR_DDR_CNT,
  .DPR_BIST, .DPR_LOGSTAT, .DPR_LOG0, .DPR_LOG1, .DPR_LOG2, .SMP_CTL, .SMP_STAT, .SMP_LOGSTAT,
  .SMP_LOG0, .SMP_LOG1, .SMP_LOG2, .SMP_CLASS_CTL, .SMP_CLASS_STAT, .SMP_FAM, .TW_CTL, .TW_TIMERS,
  .TW_SYNC, .TW_MIRROR, .TW_STAT, .TW_HEALTH_LO, .TW_HEALTH_HI, .TW_PEER_LO, .TW_PEER_HI, .TW_CNT,
  .TW_SYNC_RGN_BASE, .TW_SYNC_RGN_LEN, .TW_LINK, .TW_PARTNER_ID, .RW_CTL, .RW_STAT, .RW_SCHEMA, .RW_DURABLE,
  .RW_PENDING, .RW_LOG, .RW_CAUSE, .RW_TIMES, .RW_PWR_STAT, .SEC_STATE, .SEC_UID, .SEC_HWTYPE,
  .SEC_FW_STAT, .SEC_FW_VER, .SEC_RCV_CTL, .SEC_RCV_STAT, .SEC_RCV_CRC, .SEC_RCV_BUF, .DBG_STAT, .DBG_RUNCTL,
  .DBG_FUSE_CTL, .DBG_FUSE_DATA, .CEN_STAT, .CEN_SEQ, .CEN_MTS, .PC_SEL, .PC_CNT, .PC_MTS,
  .PC_OVF, .PC_AGG_SEL, .PC_AGG_CNT, .PC_AGG_MTS, .PC_AGG_OVF]

/-- The access codes of R9. -/
inductive Acc where
  | ro | rw | w1c | rcl | wo | rws
deriving DecidableEq, Repr

/-- One named field of a register type. -/
structure Fld where
  reg : RegId
  hi  : Nat
  lo  : Nat
deriving DecidableEq, Repr

/-- A field with its access code and the least and greatest value its register map states. -/
structure FldDesc where
  fld : Fld
  acc : Acc
  min : Nat
  max : Nat
deriving DecidableEq, Repr

/-- Where the instances of a register type lie: instance `first + i·n2 + j` is at `base + s1·i + s2·j`. -/
structure Seg where
  first : Nat
  base  : Nat
  n1    : Nat
  s1    : Nat
  n2    : Nat
  s2    : Nat
deriving DecidableEq, Repr

/-! The fields, named F.<register>_<field>. -/

abbrev F.MT_NS_NS : Fld := ⟨.MT_NS, 31, 0⟩
abbrev F.MT_SEC_LO_SEC_LO : Fld := ⟨.MT_SEC_LO, 31, 0⟩
abbrev F.MT_SEC_HI_SEC_HI : Fld := ⟨.MT_SEC_HI, 15, 0⟩
abbrev F.MT_FRAC_FRAC : Fld := ⟨.MT_FRAC, 31, 0⟩
abbrev F.MT_TICKNO_TICKNO : Fld := ⟨.MT_TICKNO, 31, 0⟩
abbrev F.MT_RATE_RATE : Fld := ⟨.MT_RATE, 31, 0⟩
abbrev F.MT_EPOCH_RELEASED : Fld := ⟨.MT_EPOCH, 18, 18⟩
abbrev F.MT_EPOCH_WINDOW : Fld := ⟨.MT_EPOCH, 17, 17⟩
abbrev F.MT_EPOCH_STEPPED : Fld := ⟨.MT_EPOCH, 16, 16⟩
abbrev F.MT_EPOCH_EPOCH : Fld := ⟨.MT_EPOCH, 15, 0⟩
abbrev F.MT_CTL_FREE_WAIT : Fld := ⟨.MT_CTL, 15, 8⟩
abbrev F.MT_CTL_ALIGN : Fld := ⟨.MT_CTL, 1, 1⟩
abbrev F.MT_CTL_STEP_WAIT : Fld := ⟨.MT_CTL, 0, 0⟩
abbrev F.MT_SLEW_MAX_SLEW_MAX : Fld := ⟨.MT_SLEW_MAX, 15, 0⟩
abbrev F.WH_CTL_REVERT : Fld := ⟨.WH_CTL, 2, 2⟩
abbrev F.WH_CTL_CONFIG : Fld := ⟨.WH_CTL, 1, 0⟩
abbrev F.WH_STATUS_SWITCH_COUNT : Fld := ⟨.WH_STATUS, 31, 16⟩
abbrev F.WH_STATUS_QL : Fld := ⟨.WH_STATUS, 15, 12⟩
abbrev F.WH_STATUS_CFG_ERR : Fld := ⟨.WH_STATUS, 11, 11⟩
abbrev F.WH_STATUS_LOCK : Fld := ⟨.WH_STATUS, 8, 8⟩
abbrev F.WH_STATUS_LOOP : Fld := ⟨.WH_STATUS, 7, 5⟩
abbrev F.WH_STATUS_MODE : Fld := ⟨.WH_STATUS, 4, 4⟩
abbrev F.WH_STATUS_SELECTED : Fld := ⟨.WH_STATUS, 3, 0⟩
abbrev F.WH_BW_SVC_BW : Fld := ⟨.WH_BW, 25, 16⟩
abbrev F.WH_BW_ACQ_BW : Fld := ⟨.WH_BW, 9, 0⟩
abbrev F.WH_LOCK_LOCK_TIME : Fld := ⟨.WH_LOCK, 31, 24⟩
abbrev F.WH_LOCK_LOCK_FREQ : Fld := ⟨.WH_LOCK, 23, 16⟩
abbrev F.WH_LOCK_LOCK_PHASE : Fld := ⟨.WH_LOCK, 15, 0⟩
abbrev F.WH_TIMERS_REACQ : Fld := ⟨.WH_TIMERS, 27, 16⟩
abbrev F.WH_TIMERS_ACQ_HOLD : Fld := ⟨.WH_TIMERS, 11, 0⟩
abbrev F.WH_DRIFT_DRIFT_HOLD : Fld := ⟨.WH_DRIFT, 31, 24⟩
abbrev F.WH_DRIFT_HARD : Fld := ⟨.WH_DRIFT, 17, 8⟩
abbrev F.WH_DRIFT_SOFT : Fld := ⟨.WH_DRIFT, 7, 0⟩
abbrev F.WH_HO_RATE_RATE : Fld := ⟨.WH_HO_RATE, 31, 0⟩
abbrev F.WH_HO_VALID_SPAN : Fld := ⟨.WH_HO_VALID, 6, 1⟩
abbrev F.WH_HO_VALID_VALID : Fld := ⟨.WH_HO_VALID, 0, 0⟩
abbrev F.WH_ABSORB_LO_ABSORB : Fld := ⟨.WH_ABSORB_LO, 31, 0⟩
abbrev F.WH_ABSORB_HI_ABSORB : Fld := ⟨.WH_ABSORB_HI, 31, 0⟩
abbrev F.WH_SLOT_CFG_WTR : Fld := ⟨.WH_SLOT_CFG, 31, 20⟩
abbrev F.WH_SLOT_CFG_DOMAIN : Fld := ⟨.WH_SLOT_CFG, 19, 12⟩
abbrev F.WH_SLOT_CFG_NOM : Fld := ⟨.WH_SLOT_CFG, 11, 9⟩
abbrev F.WH_SLOT_CFG_QL : Fld := ⟨.WH_SLOT_CFG, 8, 5⟩
abbrev F.WH_SLOT_CFG_PRIO : Fld := ⟨.WH_SLOT_CFG, 4, 1⟩
abbrev F.WH_SLOT_CFG_EN : Fld := ⟨.WH_SLOT_CFG, 0, 0⟩
abbrev F.WH_SLOT_STAT_WTR_LEFT : Fld := ⟨.WH_SLOT_STAT, 23, 12⟩
abbrev F.WH_SLOT_STAT_QL : Fld := ⟨.WH_SLOT_STAT, 11, 8⟩
abbrev F.WH_SLOT_STAT_STATE : Fld := ⟨.WH_SLOT_STAT, 2, 0⟩
abbrev F.WH_SLOT_PHASE_PHASE : Fld := ⟨.WH_SLOT_PHASE, 31, 0⟩
abbrev F.WH_SLOT_FREQ_FREQ : Fld := ⟨.WH_SLOT_FREQ, 31, 0⟩
abbrev F.WH_QL_MAP_VALID : Fld := ⟨.WH_QL_MAP, 31, 31⟩
abbrev F.WH_QL_MAP_QL : Fld := ⟨.WH_QL_MAP, 19, 16⟩
abbrev F.WH_QL_MAP_ACC_MAX : Fld := ⟨.WH_QL_MAP, 15, 8⟩
abbrev F.WH_QL_MAP_CLASS : Fld := ⟨.WH_QL_MAP, 7, 0⟩
abbrev F.WH_CLKOUT_PRIV : Fld := ⟨.WH_CLKOUT, 5, 5⟩
abbrev F.WH_CLKOUT_EN : Fld := ⟨.WH_CLKOUT, 4, 4⟩
abbrev F.WH_CLKOUT_FREQ : Fld := ⟨.WH_CLKOUT, 3, 0⟩
abbrev F.WH_CLKOUT_PHASE_PHASE : Fld := ⟨.WH_CLKOUT_PHASE, 31, 0⟩
abbrev F.CL_MIX_CTL_SKIP : Fld := ⟨.CL_MIX_CTL, 1, 1⟩
abbrev F.CL_MIX_CTL_EN : Fld := ⟨.CL_MIX_CTL, 0, 0⟩
abbrev F.CL_MIX_STAT_GROUPS : Fld := ⟨.CL_MIX_STAT, 21, 16⟩
abbrev F.CL_MIX_STAT_COPYING : Fld := ⟨.CL_MIX_STAT, 3, 3⟩
abbrev F.CL_MIX_STAT_RAMPING : Fld := ⟨.CL_MIX_STAT, 2, 2⟩
abbrev F.CL_MIX_STAT_ARMED : Fld := ⟨.CL_MIX_STAT, 1, 1⟩
abbrev F.CL_MIX_STAT_ACTIVE : Fld := ⟨.CL_MIX_STAT, 0, 0⟩
abbrev F.CL_MIX_CYC_PEAK : Fld := ⟨.CL_MIX_CYC, 31, 16⟩
abbrev F.CL_MIX_CYC_LAST : Fld := ⟨.CL_MIX_CYC, 15, 0⟩
abbrev F.CL_MIX_MISS_MISS : Fld := ⟨.CL_MIX_MISS, 31, 0⟩
abbrev F.SP_CTL_DEBOUNCE : Fld := ⟨.SP_CTL, 31, 24⟩
abbrev F.SP_CTL_RAMP : Fld := ⟨.SP_CTL, 15, 8⟩
abbrev F.SP_CTL_EN : Fld := ⟨.SP_CTL, 0, 0⟩
abbrev F.SP_TIMING_RETURN : Fld := ⟨.SP_TIMING, 31, 16⟩
abbrev F.SP_TIMING_LOSS : Fld := ⟨.SP_TIMING, 15, 0⟩
abbrev F.SP_STAT_VOICE_BUSY : Fld := ⟨.SP_STAT, 31, 16⟩
abbrev F.SP_STAT_ALARM : Fld := ⟨.SP_STAT, 15, 8⟩
abbrev F.SP_STAT_FLASH_ONLY : Fld := ⟨.SP_STAT, 1, 1⟩
abbrev F.SP_STAT_READY : Fld := ⟨.SP_STAT, 0, 0⟩
abbrev F.SP_ZONE_ACT_ACTIVE : Fld := ⟨.SP_ZONE_ACT, 31, 0⟩
abbrev F.SP_ZONE_DUCK : Fld := ⟨.SP_ZONE, 31, 24⟩
abbrev F.SP_ZONE_VATT : Fld := ⟨.SP_ZONE, 23, 16⟩
abbrev F.SP_ZONE_MSG : Fld := ⟨.SP_ZONE, 15, 12⟩
abbrev F.SP_ZONE_VOICE : Fld := ⟨.SP_ZONE, 11, 8⟩
abbrev F.SP_ZONE_ALARM_MASK : Fld := ⟨.SP_ZONE, 7, 0⟩
abbrev F.SP_WATCH_A_VALID1 : Fld := ⟨.SP_WATCH_A, 26, 26⟩
abbrev F.SP_WATCH_A_SLOT1 : Fld := ⟨.SP_WATCH_A, 25, 16⟩
abbrev F.SP_WATCH_A_VALID0 : Fld := ⟨.SP_WATCH_A, 10, 10⟩
abbrev F.SP_WATCH_A_SLOT0 : Fld := ⟨.SP_WATCH_A, 9, 0⟩
abbrev F.SP_WATCH_B_VALID1 : Fld := ⟨.SP_WATCH_B, 26, 26⟩
abbrev F.SP_WATCH_B_SLOT1 : Fld := ⟨.SP_WATCH_B, 25, 16⟩
abbrev F.SP_WATCH_B_VALID0 : Fld := ⟨.SP_WATCH_B, 10, 10⟩
abbrev F.SP_WATCH_B_SLOT0 : Fld := ⟨.SP_WATCH_B, 9, 0⟩
abbrev F.SP_MSG_PRESENT : Fld := ⟨.SP_MSG, 31, 31⟩
abbrev F.SP_MSG_FLASH_OK : Fld := ⟨.SP_MSG, 30, 30⟩
abbrev F.SP_MSG_DDR_OK : Fld := ⟨.SP_MSG, 29, 29⟩
abbrev F.SP_MSG_FORMAT : Fld := ⟨.SP_MSG, 28, 27⟩
abbrev F.SP_MSG_SAMPLES : Fld := ⟨.SP_MSG, 26, 0⟩
abbrev F.CL_CTL_AUTO_RST : Fld := ⟨.CL_CTL, 1, 1⟩
abbrev F.CL_CTL_EN : Fld := ⟨.CL_CTL, 0, 0⟩
abbrev F.CL_STAT_RESETS : Fld := ⟨.CL_STAT, 31, 24⟩
abbrev F.CL_STAT_NO_SPARE : Fld := ⟨.CL_STAT, 23, 16⟩
abbrev F.CL_STAT_FAILED : Fld := ⟨.CL_STAT, 15, 8⟩
abbrev F.CL_STAT_STATE : Fld := ⟨.CL_STAT, 2, 0⟩
abbrev F.RG_SPARE_EN : Fld := ⟨.RG_SPARE, 8, 8⟩
abbrev F.RG_SPARE_SPARE_SEL : Fld := ⟨.RG_SPARE, 4, 0⟩
abbrev F.RG_SPARE_STAT_TAKEOVERS : Fld := ⟨.RG_SPARE_STAT, 31, 24⟩
abbrev F.RG_SPARE_STAT_FOR_UNIT : Fld := ⟨.RG_SPARE_STAT, 23, 16⟩
abbrev F.RG_SPARE_STAT_STATE : Fld := ⟨.RG_SPARE_STAT, 1, 0⟩
abbrev F.RG_PWR_ON : Fld := ⟨.RG_PWR, 0, 0⟩
abbrev F.MT_SKEW_CAL : Fld := ⟨.MT_SKEW, 31, 31⟩
abbrev F.MT_SKEW_DELAY : Fld := ⟨.MT_SKEW, 15, 0⟩
abbrev F.SEC_REMAP_REMAP : Fld := ⟨.SEC_REMAP, 0, 0⟩
abbrev F.UNIT_CTL_ARM : Fld := ⟨.UNIT_CTL, 31, 31⟩
abbrev F.UNIT_CTL_IEV_EN : Fld := ⟨.UNIT_CTL, 16, 16⟩
abbrev F.UNIT_CTL_IEV : Fld := ⟨.UNIT_CTL, 15, 8⟩
abbrev F.UNIT_CTL_PCOV_EN : Fld := ⟨.UNIT_CTL, 4, 1⟩
abbrev F.UNIT_CTL_MUTE : Fld := ⟨.UNIT_CTL, 0, 0⟩
abbrev F.UNIT_STAT_PLOCK : Fld := ⟨.UNIT_STAT, 15, 15⟩
abbrev F.UNIT_STAT_PBANK : Fld := ⟨.UNIT_STAT, 14, 14⟩
abbrev F.UNIT_STAT_PARAM : Fld := ⟨.UNIT_STAT, 13, 13⟩
abbrev F.UNIT_STAT_POINT : Fld := ⟨.UNIT_STAT, 12, 12⟩
abbrev F.UNIT_STAT_CLASS : Fld := ⟨.UNIT_STAT, 11, 10⟩
abbrev F.UNIT_STAT_NO_SPARE : Fld := ⟨.UNIT_STAT, 9, 9⟩
abbrev F.UNIT_STAT_MUTED : Fld := ⟨.UNIT_STAT, 8, 8⟩
abbrev F.UNIT_STAT_STATE : Fld := ⟨.UNIT_STAT, 2, 0⟩
abbrev F.UNIT_DONE_LAST_DONE : Fld := ⟨.UNIT_DONE, 31, 0⟩
abbrev F.UNIT_CYC_PEAK : Fld := ⟨.UNIT_CYC, 31, 16⟩
abbrev F.UNIT_CYC_LAST : Fld := ⟨.UNIT_CYC, 15, 0⟩
abbrev F.UNIT_TRAP_PC : Fld := ⟨.UNIT_TRAP, 31, 16⟩
abbrev F.UNIT_TRAP_COUNT : Fld := ⟨.UNIT_TRAP, 15, 8⟩
abbrev F.UNIT_TRAP_CAUSE : Fld := ⟨.UNIT_TRAP, 3, 0⟩
abbrev F.UNIT_FLAGS_TICKS : Fld := ⟨.UNIT_FLAGS, 31, 16⟩
abbrev F.UNIT_FLAGS_CBE : Fld := ⟨.UNIT_FLAGS, 2, 2⟩
abbrev F.UNIT_FLAGS_AGV : Fld := ⟨.UNIT_FLAGS, 1, 1⟩
abbrev F.UNIT_FLAGS_SV : Fld := ⟨.UNIT_FLAGS, 0, 0⟩
abbrev F.UNIT_TICK_DEADLINE_ERR : Fld := ⟨.UNIT_TICK_DEADLINE, 31, 31⟩
abbrev F.UNIT_TICK_DEADLINE_D : Fld := ⟨.UNIT_TICK_DEADLINE, 8, 0⟩
abbrev F.DP_CTL_ARM : Fld := ⟨.DP_CTL, 31, 31⟩
abbrev F.DP_CTL_CODE_BITS : Fld := ⟨.DP_CTL, 5, 1⟩
abbrev F.DP_CTL_EN : Fld := ⟨.DP_CTL, 0, 0⟩
abbrev F.DP_MOD_NS_ORDER : Fld := ⟨.DP_MOD, 10, 8⟩
abbrev F.DP_MOD_MIN_PULSE : Fld := ⟨.DP_MOD, 7, 0⟩
abbrev F.DP_BOOST_ON_MAX : Fld := ⟨.DP_BOOST, 31, 24⟩
abbrev F.DP_BOOST_ILIM : Fld := ⟨.DP_BOOST, 23, 16⟩
abbrev F.DP_BOOST_KI : Fld := ⟨.DP_BOOST, 15, 8⟩
abbrev F.DP_BOOST_KP : Fld := ⟨.DP_BOOST, 7, 0⟩
abbrev F.DP_STAT_TEMP_MAX : Fld := ⟨.DP_STAT, 31, 24⟩
abbrev F.DP_STAT_RTT : Fld := ⟨.DP_STAT, 23, 14⟩
abbrev F.DP_STAT_CLAIM_TX : Fld := ⟨.DP_STAT, 13, 13⟩
abbrev F.DP_STAT_FOLLOWED : Fld := ⟨.DP_STAT, 12, 12⟩
abbrev F.DP_STAT_CELL_READY : Fld := ⟨.DP_STAT, 11, 11⟩
abbrev F.DP_STAT_CAUSE : Fld := ⟨.DP_STAT, 10, 7⟩
abbrev F.DP_STAT_STATE : Fld := ⟨.DP_STAT, 2, 0⟩
abbrev F.DP_ERR_CRC : Fld := ⟨.DP_ERR, 31, 20⟩
abbrev F.DP_ERR_MISSED : Fld := ⟨.DP_ERR, 19, 12⟩
abbrev F.DP_ERR_CLIP : Fld := ⟨.DP_ERR, 7, 0⟩
abbrev F.DP_SENSE_RAIL1 : Fld := ⟨.DP_SENSE, 31, 16⟩
abbrev F.DP_SENSE_RAIL0 : Fld := ⟨.DP_SENSE, 15, 0⟩
abbrev F.BG_CTL_ARM : Fld := ⟨.BG_CTL, 31, 31⟩
abbrev F.BG_CTL_BLEED : Fld := ⟨.BG_CTL, 19, 19⟩
abbrev F.BG_CTL_HEADROOM : Fld := ⟨.BG_CTL, 18, 12⟩
abbrev F.BG_CTL_LOOKAHEAD : Fld := ⟨.BG_CTL, 11, 4⟩
abbrev F.BG_CTL_LINE_V : Fld := ⟨.BG_CTL, 2, 2⟩
abbrev F.BG_CTL_OUT_MODE : Fld := ⟨.BG_CTL, 1, 0⟩
abbrev F.BG_RAIL_DECAY : Fld := ⟨.BG_RAIL, 31, 24⟩
abbrev F.BG_RAIL_SLEW : Fld := ⟨.BG_RAIL, 23, 16⟩
abbrev F.BG_RAIL_RAIL_MAX : Fld := ⟨.BG_RAIL, 15, 8⟩
abbrev F.BG_RAIL_RAIL_MIN : Fld := ⟨.BG_RAIL, 7, 0⟩
abbrev F.BG_STAT_TARGET : Fld := ⟨.BG_STAT, 31, 16⟩
abbrev F.BG_STAT_CAPPED : Fld := ⟨.BG_STAT, 2, 2⟩
abbrev F.BG_STAT_CMD : Fld := ⟨.BG_STAT, 1, 0⟩
abbrev F.FLT_CTL_ARM : Fld := ⟨.FLT_CTL, 31, 31⟩
abbrev F.FLT_CTL_CELL_DELAY : Fld := ⟨.FLT_CTL, 25, 16⟩
abbrev F.FLT_CTL_LIM_START : Fld := ⟨.FLT_CTL, 15, 8⟩
abbrev F.FLT_CTL_MEAS_V : Fld := ⟨.FLT_CTL, 7, 0⟩
abbrev F.FLT_FUSE0_E_RELEASE_CEIL : Fld := ⟨.FLT_FUSE0, 31, 16⟩
abbrev F.FLT_FUSE0_E_STORE_CEIL : Fld := ⟨.FLT_FUSE0, 15, 0⟩
abbrev F.FLT_FUSE1_E_WINDOW_CEIL : Fld := ⟨.FLT_FUSE1, 15, 0⟩
abbrev F.FLT_TRIPS_TRIPS : Fld := ⟨.FLT_TRIPS, 31, 0⟩
abbrev F.FLT_TRIPPED_CH : Fld := ⟨.FLT_TRIPPED, 31, 0⟩
abbrev F.FLT_LIMITING_CH : Fld := ⟨.FLT_LIMITING, 31, 0⟩
abbrev F.FLT_GRP_E_STORE_MAX : Fld := ⟨.FLT_GRP, 31, 16⟩
abbrev F.FLT_GRP_C_DECL : Fld := ⟨.FLT_GRP, 15, 0⟩
abbrev F.FLT_CAP_C_MEAS : Fld := ⟨.FLT_CAP, 31, 16⟩
abbrev F.FLT_CAP_CAUSE : Fld := ⟨.FLT_CAP, 7, 5⟩
abbrev F.FLT_CAP_USED_MEAS : Fld := ⟨.FLT_CAP, 4, 4⟩
abbrev F.FLT_CAP_MEAS : Fld := ⟨.FLT_CAP, 2, 0⟩
abbrev F.FLT_VE_V0 : Fld := ⟨.FLT_VE, 31, 16⟩
abbrev F.FLT_VE_V_E : Fld := ⟨.FLT_VE, 15, 0⟩
abbrev F.FLT_REL_E_RELEASE_MAX : Fld := ⟨.FLT_REL, 15, 0⟩
abbrev F.LW_CTL_ARM : Fld := ⟨.LW_CTL, 31, 31⟩
abbrev F.LW_CTL_EN : Fld := ⟨.LW_CTL, 0, 0⟩
abbrev F.LW_DEV_CH : Fld := ⟨.LW_DEV, 31, 0⟩
abbrev F.LW_EVENTS_EVENTS : Fld := ⟨.LW_EVENTS, 31, 0⟩
abbrev F.LW_SWEEP_STAT_SWEEP : Fld := ⟨.LW_SWEEP_STAT, 31, 16⟩
abbrev F.LW_SWEEP_STAT_POINT : Fld := ⟨.LW_SWEEP_STAT, 15, 8⟩
abbrev F.LW_SWEEP_STAT_STATE : Fld := ⟨.LW_SWEEP_STAT, 2, 0⟩
abbrev F.TDM_CTL_ARM : Fld := ⟨.TDM_CTL, 31, 31⟩
abbrev F.TDM_CTL_RING_DIR : Fld := ⟨.TDM_CTL, 16, 16⟩
abbrev F.TDM_CTL_RING : Fld := ⟨.TDM_CTL, 15, 15⟩
abbrev F.TDM_CTL_AG : Fld := ⟨.TDM_CTL, 14, 12⟩
abbrev F.TDM_CTL_SYNC : Fld := ⟨.TDM_CTL, 11, 11⟩
abbrev F.TDM_CTL_MASTER : Fld := ⟨.TDM_CTL, 10, 10⟩
abbrev F.TDM_CTL_FORMAT : Fld := ⟨.TDM_CTL, 9, 8⟩
abbrev F.TDM_CTL_TX_EN : Fld := ⟨.TDM_CTL, 1, 1⟩
abbrev F.TDM_CTL_RX_EN : Fld := ⟨.TDM_CTL, 0, 0⟩
abbrev F.TDM_FRAME_FS : Fld := ⟨.TDM_FRAME, 18, 16⟩
abbrev F.TDM_FRAME_SLOTS : Fld := ⟨.TDM_FRAME, 13, 8⟩
abbrev F.TDM_FRAME_DLY : Fld := ⟨.TDM_FRAME, 6, 6⟩
abbrev F.TDM_FRAME_SLOT_BITS : Fld := ⟨.TDM_FRAME, 5, 4⟩
abbrev F.TDM_FRAME_BCLK_POL : Fld := ⟨.TDM_FRAME, 3, 3⟩
abbrev F.TDM_FRAME_FS_WIDTH : Fld := ⟨.TDM_FRAME, 2, 1⟩
abbrev F.TDM_FRAME_FS_INV : Fld := ⟨.TDM_FRAME, 0, 0⟩
abbrev F.TDM_MASK_RX_MASK : Fld := ⟨.TDM_MASK_RX, 31, 0⟩
abbrev F.TDM_MASK_TX_MASK : Fld := ⟨.TDM_MASK_TX, 31, 0⟩
abbrev F.TDM_PACK_BLOCK_N : Fld := ⟨.TDM_PACK, 15, 8⟩
abbrev F.TDM_PACK_PACK : Fld := ⟨.TDM_PACK, 1, 0⟩
abbrev F.TDM_RING_BASE_BASE : Fld := ⟨.TDM_RING_BASE, 31, 0⟩
abbrev F.TDM_RING_CFG_RECSZ : Fld := ⟨.TDM_RING_CFG, 19, 4⟩
abbrev F.TDM_RING_CFG_SIZE : Fld := ⟨.TDM_RING_CFG, 3, 0⟩
abbrev F.TDM_RING_IDX_PI : Fld := ⟨.TDM_RING_IDX, 31, 16⟩
abbrev F.TDM_RING_IDX_CI : Fld := ⟨.TDM_RING_IDX, 15, 0⟩
abbrev F.TDM_STAT_PHASE : Fld := ⟨.TDM_STAT, 31, 16⟩
abbrev F.TDM_STAT_MODE : Fld := ⟨.TDM_STAT, 8, 7⟩
abbrev F.TDM_STAT_IDX_ERR : Fld := ⟨.TDM_STAT, 6, 6⟩
abbrev F.TDM_STAT_UNDERRUN : Fld := ⟨.TDM_STAT, 5, 5⟩
abbrev F.TDM_STAT_STATE : Fld := ⟨.TDM_STAT, 2, 0⟩
abbrev F.TDM_ERR_UNDERRUN : Fld := ⟨.TDM_ERR, 31, 24⟩
abbrev F.TDM_ERR_LATE : Fld := ⟨.TDM_ERR, 23, 16⟩
abbrev F.TDM_ERR_OVERRUN : Fld := ⟨.TDM_ERR, 15, 8⟩
abbrev F.TDM_ERR_FRAMING : Fld := ⟨.TDM_ERR, 7, 0⟩
abbrev F.TDM_AG_STAT_MEMBERS : Fld := ⟨.TDM_AG_STAT, 31, 16⟩
abbrev F.TDM_AG_STAT_FS : Fld := ⟨.TDM_AG_STAT, 6, 4⟩
abbrev F.TDM_AG_STAT_STATE : Fld := ⟨.TDM_AG_STAT, 1, 0⟩
abbrev F.PDM_CTL_ARM : Fld := ⟨.PDM_CTL, 31, 31⟩
abbrev F.PDM_CTL_CLK : Fld := ⟨.PDM_CTL, 3, 3⟩
abbrev F.PDM_CTL_HPF : Fld := ⟨.PDM_CTL, 2, 2⟩
abbrev F.PDM_CTL_MIC1_EN : Fld := ⟨.PDM_CTL, 1, 1⟩
abbrev F.PDM_CTL_MIC0_EN : Fld := ⟨.PDM_CTL, 0, 0⟩
abbrev F.PDM_GAIN_GAIN1 : Fld := ⟨.PDM_GAIN, 31, 16⟩
abbrev F.PDM_GAIN_GAIN0 : Fld := ⟨.PDM_GAIN, 15, 0⟩
abbrev F.PDM_STAT_RUN : Fld := ⟨.PDM_STAT, 2, 2⟩
abbrev F.PDM_STAT_STUCK1 : Fld := ⟨.PDM_STAT, 1, 1⟩
abbrev F.PDM_STAT_STUCK0 : Fld := ⟨.PDM_STAT, 0, 0⟩
abbrev F.PDM_ERR_STUCK1 : Fld := ⟨.PDM_ERR, 31, 24⟩
abbrev F.PDM_ERR_STUCK0 : Fld := ⟨.PDM_ERR, 23, 16⟩
abbrev F.PDM_ERR_CLIP1 : Fld := ⟨.PDM_ERR, 15, 8⟩
abbrev F.PDM_ERR_CLIP0 : Fld := ⟨.PDM_ERR, 7, 0⟩
abbrev F.PDM_LEVEL_PEAK1 : Fld := ⟨.PDM_LEVEL, 31, 16⟩
abbrev F.PDM_LEVEL_PEAK0 : Fld := ⟨.PDM_LEVEL, 15, 0⟩
abbrev F.NET_CTL_MAX_FRAME : Fld := ⟨.NET_CTL, 31, 18⟩
abbrev F.NET_CTL_PAUSE_OBEY : Fld := ⟨.NET_CTL, 5, 5⟩
abbrev F.NET_CTL_AN_EN : Fld := ⟨.NET_CTL, 4, 4⟩
abbrev F.NET_CTL_MODE : Fld := ⟨.NET_CTL, 3, 2⟩
abbrev F.NET_CTL_EN : Fld := ⟨.NET_CTL, 0, 0⟩
abbrev F.NET_STAT_PAUSED : Fld := ⟨.NET_STAT, 7, 7⟩
abbrev F.NET_STAT_PAUSE_RES : Fld := ⟨.NET_STAT, 6, 5⟩
abbrev F.NET_STAT_REMOTE_FAULT : Fld := ⟨.NET_STAT, 4, 4⟩
abbrev F.NET_STAT_LOCAL_FAULT : Fld := ⟨.NET_STAT, 3, 3⟩
abbrev F.NET_STAT_LOS : Fld := ⟨.NET_STAT, 2, 2⟩
abbrev F.NET_STAT_MOD_ABS : Fld := ⟨.NET_STAT, 1, 1⟩
abbrev F.NET_STAT_UP : Fld := ⟨.NET_STAT, 0, 0⟩
abbrev F.NET_MAC_LO_MAC_LO : Fld := ⟨.NET_MAC_LO, 31, 0⟩
abbrev F.NET_MAC_HI_MAC_HI : Fld := ⟨.NET_MAC_HI, 15, 0⟩
abbrev F.NET_PCP_MAP_UNTAGGED : Fld := ⟨.NET_PCP_MAP, 26, 24⟩
abbrev F.NET_PCP_MAP_Q_PCP : Fld := ⟨.NET_PCP_MAP, 23, 0⟩
abbrev F.NET_SHAPER_EN : Fld := ⟨.NET_SHAPER, 31, 31⟩
abbrev F.NET_SHAPER_IDLE_SLOPE : Fld := ⟨.NET_SHAPER, 16, 0⟩
abbrev F.NET_TXQ_LIMIT_P_LIMIT : Fld := ⟨.NET_TXQ_LIMIT, 24, 16⟩
abbrev F.NET_TXQ_LIMIT_B_LIMIT : Fld := ⟨.NET_TXQ_LIMIT, 8, 0⟩
abbrev F.NET_PTP_CFG_ANN_TIMEOUT : Fld := ⟨.NET_PTP_CFG, 31, 28⟩
abbrev F.NET_PTP_CFG_LOG_PDELAY : Fld := ⟨.NET_PTP_CFG, 27, 24⟩
abbrev F.NET_PTP_CFG_LOG_ANNOUNCE : Fld := ⟨.NET_PTP_CFG, 23, 20⟩
abbrev F.NET_PTP_CFG_LOG_SYNC : Fld := ⟨.NET_PTP_CFG, 19, 16⟩
abbrev F.NET_PTP_CFG_TC_EN : Fld := ⟨.NET_PTP_CFG, 6, 6⟩
abbrev F.NET_PTP_CFG_TRANSPORT : Fld := ⟨.NET_PTP_CFG, 5, 4⟩
abbrev F.NET_PTP_CFG_MECH : Fld := ⟨.NET_PTP_CFG, 3, 3⟩
abbrev F.NET_PTP_CFG_ROLE : Fld := ⟨.NET_PTP_CFG, 1, 0⟩
abbrev F.NET_PTP_ASYM_ASYM : Fld := ⟨.NET_PTP_ASYM, 31, 0⟩
abbrev F.NET_PTP_LINKDLY_LINKDLY : Fld := ⟨.NET_PTP_LINKDLY, 31, 0⟩
abbrev F.NET_IPV4_ADDR : Fld := ⟨.NET_IPV4, 31, 0⟩
abbrev F.NET_CNT_LO_LO : Fld := ⟨.NET_CNT_LO, 31, 0⟩
abbrev F.NET_CNT_HI_HI : Fld := ⟨.NET_CNT_HI, 31, 0⟩
abbrev F.NET_FWD_STAT_ENTRIES : Fld := ⟨.NET_FWD_STAT, 31, 16⟩
abbrev F.NET_FWD_STAT_COPYING : Fld := ⟨.NET_FWD_STAT, 2, 2⟩
abbrev F.NET_FWD_STAT_ARMED : Fld := ⟨.NET_FWD_STAT, 1, 1⟩
abbrev F.NET_FWD_STAT_ACTIVE : Fld := ⟨.NET_FWD_STAT, 0, 0⟩
abbrev F.NET_MGMT_STAT_WAITING : Fld := ⟨.NET_MGMT_STAT, 8, 0⟩
abbrev F.HIF_CTL_GO : Fld := ⟨.HIF_CTL, 0, 0⟩
abbrev F.HIF_STAT_EVT_LOST : Fld := ⟨.HIF_STAT, 31, 16⟩
abbrev F.HIF_STAT_GO_ERR : Fld := ⟨.HIF_STAT, 7, 4⟩
abbrev F.HIF_STAT_IGNORED : Fld := ⟨.HIF_STAT, 2, 2⟩
abbrev F.HIF_STAT_STATE : Fld := ⟨.HIF_STAT, 0, 0⟩
abbrev F.HIF_IGN_ADDR_OFFSET : Fld := ⟨.HIF_IGN_ADDR, 24, 0⟩
abbrev F.HIF_CFG_GEN_GEN : Fld := ⟨.HIF_CFG_GEN, 31, 0⟩
abbrev F.HIF_RING_BASE_LO_BASE : Fld := ⟨.HIF_RING_BASE_LO, 31, 0⟩
abbrev F.HIF_RING_BASE_HI_BASE : Fld := ⟨.HIF_RING_BASE_HI, 31, 0⟩
abbrev F.HIF_RING_CFG_TYPE : Fld := ⟨.HIF_RING_CFG, 31, 29⟩
abbrev F.HIF_RING_CFG_SIZE : Fld := ⟨.HIF_RING_CFG, 28, 24⟩
abbrev F.HIF_RING_CFG_CLASS : Fld := ⟨.HIF_RING_CFG, 23, 22⟩
abbrev F.HIF_RING_CFG_VECTOR : Fld := ⟨.HIF_RING_CFG, 21, 16⟩
abbrev F.HIF_RING_CFG_PAIR : Fld := ⟨.HIF_RING_CFG, 15, 11⟩
abbrev F.HIF_RING_CFG_COAL : Fld := ⟨.HIF_RING_CFG, 10, 9⟩
abbrev F.HIF_RING_CFG_EN : Fld := ⟨.HIF_RING_CFG, 0, 0⟩
abbrev F.HIF_RING_AUD_RATE : Fld := ⟨.HIF_RING_AUD, 16, 16⟩
abbrev F.HIF_RING_AUD_CHANNELS : Fld := ⟨.HIF_RING_AUD, 15, 8⟩
abbrev F.HIF_RING_AUD_INDEX : Fld := ⟨.HIF_RING_AUD, 3, 0⟩
abbrev F.HIF_RING_IDX_HOST_IDX : Fld := ⟨.HIF_RING_IDX, 31, 16⟩
abbrev F.HIF_RING_IDX_DEV_IDX : Fld := ⟨.HIF_RING_IDX, 15, 0⟩
abbrev F.HIF_RING_STAT_FRAMES_LOST : Fld := ⟨.HIF_RING_STAT, 31, 16⟩
abbrev F.HIF_RING_STAT_OWN_MISS : Fld := ⟨.HIF_RING_STAT, 4, 4⟩
abbrev F.HIF_RING_STAT_IDX_ERR : Fld := ⟨.HIF_RING_STAT, 3, 3⟩
abbrev F.HIF_RING_STAT_STATE : Fld := ⟨.HIF_RING_STAT, 1, 0⟩
abbrev F.PMP_CH_CTL_KICK : Fld := ⟨.PMP_CH_CTL, 26, 26⟩
abbrev F.PMP_CH_CTL_TRIG_TICK : Fld := ⟨.PMP_CH_CTL, 25, 25⟩
abbrev F.PMP_CH_CTL_TRIG_LINE : Fld := ⟨.PMP_CH_CTL, 24, 17⟩
abbrev F.PMP_CH_CTL_RETRY_N : Fld := ⟨.PMP_CH_CTL, 16, 14⟩
abbrev F.PMP_CH_CTL_SHARE : Fld := ⟨.PMP_CH_CTL, 13, 7⟩
abbrev F.PMP_CH_CTL_QOS : Fld := ⟨.PMP_CH_CTL, 6, 4⟩
abbrev F.PMP_CH_CTL_CLASS : Fld := ⟨.PMP_CH_CTL, 3, 2⟩
abbrev F.PMP_CH_CTL_ABORT : Fld := ⟨.PMP_CH_CTL, 1, 1⟩
abbrev F.PMP_CH_CTL_EN : Fld := ⟨.PMP_CH_CTL, 0, 0⟩
abbrev F.PMP_CH_RING_LO_BASE_LO : Fld := ⟨.PMP_CH_RING_LO, 31, 0⟩
abbrev F.PMP_CH_RING_HI_BASE_HI : Fld := ⟨.PMP_CH_RING_HI, 31, 0⟩
abbrev F.PMP_CH_RING_CFG_EVT_SEL : Fld := ⟨.PMP_CH_RING_CFG, 25, 22⟩
abbrev F.PMP_CH_RING_CFG_EVT_CL : Fld := ⟨.PMP_CH_RING_CFG, 21, 17⟩
abbrev F.PMP_CH_RING_CFG_ERR_EN : Fld := ⟨.PMP_CH_RING_CFG, 16, 16⟩
abbrev F.PMP_CH_RING_CFG_ERR_LINE : Fld := ⟨.PMP_CH_RING_CFG, 15, 8⟩
abbrev F.PMP_CH_RING_CFG_HOST : Fld := ⟨.PMP_CH_RING_CFG, 4, 4⟩
abbrev F.PMP_CH_RING_CFG_SIZE : Fld := ⟨.PMP_CH_RING_CFG, 3, 0⟩
abbrev F.PMP_CH_IDX_INDEX : Fld := ⟨.PMP_CH_IDX, 15, 0⟩
abbrev F.PMP_CH_STAT_STATUS : Fld := ⟨.PMP_CH_STAT, 31, 16⟩
abbrev F.PMP_CH_STAT_PENDING : Fld := ⟨.PMP_CH_STAT, 5, 5⟩
abbrev F.PMP_CH_STAT_IDX_ERR : Fld := ⟨.PMP_CH_STAT, 4, 4⟩
abbrev F.PMP_CH_STAT_INT : Fld := ⟨.PMP_CH_STAT, 3, 3⟩
abbrev F.PMP_CH_STAT_STATE : Fld := ⟨.PMP_CH_STAT, 2, 0⟩
abbrev F.PMP_CH_RES_RESIDUE : Fld := ⟨.PMP_CH_RES, 31, 0⟩
abbrev F.PMP_CH_CNT_DESC : Fld := ⟨.PMP_CH_CNT, 31, 0⟩
abbrev F.PMP_SUM_BUSY : Fld := ⟨.PMP_SUM, 31, 16⟩
abbrev F.PMP_SUM_INT : Fld := ⟨.PMP_SUM, 15, 0⟩
abbrev F.DPR_CTL_PERIOD : Fld := ⟨.DPR_CTL, 27, 16⟩
abbrev F.DPR_CTL_EN : Fld := ⟨.DPR_CTL, 0, 0⟩
abbrev F.DPR_STAT_PASSES : Fld := ⟨.DPR_STAT, 31, 16⟩
abbrev F.DPR_STAT_LATE : Fld := ⟨.DPR_STAT, 15, 8⟩
abbrev F.DPR_STAT_STATE : Fld := ⟨.DPR_STAT, 1, 0⟩
abbrev F.RG_ECC_CNT0_X : Fld := ⟨.RG_ECC_CNT0, 31, 16⟩
abbrev F.RG_ECC_CNT0_PROG : Fld := ⟨.RG_ECC_CNT0, 15, 0⟩
abbrev F.RG_ECC_CNT1_CIS : Fld := ⟨.RG_ECC_CNT1, 31, 16⟩
abbrev F.RG_ECC_CNT1_Y : Fld := ⟨.RG_ECC_CNT1, 15, 0⟩
abbrev F.RG_ECC_CNT2_UE : Fld := ⟨.RG_ECC_CNT2, 31, 16⟩
abbrev F.RG_ECC_CNT2_TILE : Fld := ⟨.RG_ECC_CNT2, 15, 0⟩
abbrev F.DPR_CISWIN_VALID : Fld := ⟨.DPR_CISWIN, 31, 31⟩
abbrev F.DPR_CISWIN_LEN : Fld := ⟨.DPR_CISWIN, 25, 16⟩
abbrev F.DPR_CISWIN_BASE : Fld := ⟨.DPR_CISWIN, 8, 0⟩
abbrev F.DPR_HUB_CTL_DDR_PERIOD : Fld := ⟨.DPR_HUB_CTL, 26, 16⟩
abbrev F.DPR_HUB_CTL_SRAM_PERIOD : Fld := ⟨.DPR_HUB_CTL, 12, 1⟩
abbrev F.DPR_HUB_CTL_EN : Fld := ⟨.DPR_HUB_CTL, 0, 0⟩
abbrev F.DPR_HUB_STAT_SRAM_PASSES : Fld := ⟨.DPR_HUB_STAT, 31, 24⟩
abbrev F.DPR_HUB_STAT_DDR_PASSES : Fld := ⟨.DPR_HUB_STAT, 23, 16⟩
abbrev F.DPR_HUB_STAT_LATE : Fld := ⟨.DPR_HUB_STAT, 15, 8⟩
abbrev F.DPR_HUB_STAT_DDR_STATE : Fld := ⟨.DPR_HUB_STAT, 3, 2⟩
abbrev F.DPR_HUB_STAT_SRAM_STATE : Fld := ⟨.DPR_HUB_STAT, 1, 0⟩
abbrev F.DPR_HUB_CNT0_NETBUF : Fld := ⟨.DPR_HUB_CNT0, 31, 16⟩
abbrev F.DPR_HUB_CNT0_TCM : Fld := ⟨.DPR_HUB_CNT0, 15, 0⟩
abbrev F.DPR_HUB_CNT1_UE : Fld := ⟨.DPR_HUB_CNT1, 31, 16⟩
abbrev F.DPR_HUB_CNT1_HUBSRAM : Fld := ⟨.DPR_HUB_CNT1, 15, 0⟩
abbrev F.DPR_DDR_CNT_UE : Fld := ⟨.DPR_DDR_CNT, 31, 16⟩
abbrev F.DPR_DDR_CNT_CE : Fld := ⟨.DPR_DDR_CNT, 15, 0⟩
abbrev F.DPR_BIST_DONE : Fld := ⟨.DPR_BIST, 31, 31⟩
abbrev F.DPR_BIST_HUB_FAIL : Fld := ⟨.DPR_BIST, 30, 30⟩
abbrev F.DPR_BIST_CL_FAIL : Fld := ⟨.DPR_BIST, 23, 0⟩
abbrev F.DPR_LOGSTAT_OVERWRITTEN : Fld := ⟨.DPR_LOGSTAT, 31, 16⟩
abbrev F.DPR_LOGSTAT_COUNT : Fld := ⟨.DPR_LOGSTAT, 5, 0⟩
abbrev F.DPR_LOG0_VALID : Fld := ⟨.DPR_LOG0, 31, 31⟩
abbrev F.DPR_LOG0_UE : Fld := ⟨.DPR_LOG0, 30, 30⟩
abbrev F.DPR_LOG0_REQ : Fld := ⟨.DPR_LOG0, 29, 27⟩
abbrev F.DPR_LOG0_MEM : Fld := ⟨.DPR_LOG0, 26, 24⟩
abbrev F.DPR_LOG0_SYNDROME : Fld := ⟨.DPR_LOG0, 23, 16⟩
abbrev F.DPR_LOG0_INSTANCE : Fld := ⟨.DPR_LOG0, 7, 0⟩
abbrev F.DPR_LOG1_WORD : Fld := ⟨.DPR_LOG1, 31, 0⟩
abbrev F.DPR_LOG2_MTS : Fld := ⟨.DPR_LOG2, 31, 0⟩
abbrev F.SMP_CTL_INJ_EN : Fld := ⟨.SMP_CTL, 0, 0⟩
abbrev F.SMP_STAT_HB_MISS : Fld := ⟨.SMP_STAT, 7, 7⟩
abbrev F.SMP_STAT_YIELD : Fld := ⟨.SMP_STAT, 6, 6⟩
abbrev F.SMP_STAT_ALIVE_RUN : Fld := ⟨.SMP_STAT, 5, 5⟩
abbrev F.SMP_STAT_CAPPED : Fld := ⟨.SMP_STAT, 4, 4⟩
abbrev F.SMP_STAT_ACTIVE : Fld := ⟨.SMP_STAT, 3, 3⟩
abbrev F.SMP_STAT_PKG_LEVEL : Fld := ⟨.SMP_STAT, 2, 0⟩
abbrev F.SMP_LOGSTAT_OVERWRITTEN : Fld := ⟨.SMP_LOGSTAT, 31, 16⟩
abbrev F.SMP_LOGSTAT_COUNT : Fld := ⟨.SMP_LOGSTAT, 6, 0⟩
abbrev F.SMP_LOG0_VALID : Fld := ⟨.SMP_LOG0, 31, 31⟩
abbrev F.SMP_LOG0_INJ : Fld := ⟨.SMP_LOG0, 30, 30⟩
abbrev F.SMP_LOG0_DRY : Fld := ⟨.SMP_LOG0, 29, 29⟩
abbrev F.SMP_LOG0_QUENCHED : Fld := ⟨.SMP_LOG0, 28, 28⟩
abbrev F.SMP_LOG0_ESC : Fld := ⟨.SMP_LOG0, 27, 27⟩
abbrev F.SMP_LOG0_LEVEL : Fld := ⟨.SMP_LOG0, 26, 24⟩
abbrev F.SMP_LOG0_SUBJECT : Fld := ⟨.SMP_LOG0, 23, 16⟩
abbrev F.SMP_LOG0_DET : Fld := ⟨.SMP_LOG0, 15, 0⟩
abbrev F.SMP_LOG1_KIND : Fld := ⟨.SMP_LOG1, 31, 24⟩
abbrev F.SMP_LOG1_DETAIL : Fld := ⟨.SMP_LOG1, 23, 0⟩
abbrev F.SMP_LOG2_MTS : Fld := ⟨.SMP_LOG2, 31, 0⟩
abbrev F.SMP_CLASS_CTL_WACK_MAX : Fld := ⟨.SMP_CLASS_CTL, 29, 28⟩
abbrev F.SMP_CLASS_CTL_TIMER : Fld := ⟨.SMP_CLASS_CTL, 19, 0⟩
abbrev F.SMP_CLASS_STAT_QUENCHED : Fld := ⟨.SMP_CLASS_STAT, 31, 24⟩
abbrev F.SMP_CLASS_STAT_FAULTS : Fld := ⟨.SMP_CLASS_STAT, 23, 16⟩
abbrev F.SMP_CLASS_STAT_ESCALATIONS : Fld := ⟨.SMP_CLASS_STAT, 15, 8⟩
abbrev F.SMP_CLASS_STAT_UNACK : Fld := ⟨.SMP_CLASS_STAT, 7, 7⟩
abbrev F.SMP_CLASS_STAT_PEND : Fld := ⟨.SMP_CLASS_STAT, 6, 4⟩
abbrev F.SMP_CLASS_STAT_ACTIVE : Fld := ⟨.SMP_CLASS_STAT, 3, 3⟩
abbrev F.SMP_CLASS_STAT_LEVEL : Fld := ⟨.SMP_CLASS_STAT, 2, 0⟩
abbrev F.SMP_FAM_INJ : Fld := ⟨.SMP_FAM, 31, 31⟩
abbrev F.SMP_FAM_DRY : Fld := ⟨.SMP_FAM, 30, 30⟩
abbrev F.SMP_FAM_INJ_SUBJ : Fld := ⟨.SMP_FAM, 23, 16⟩
abbrev F.SMP_FAM_INJ_INST : Fld := ⟨.SMP_FAM, 15, 8⟩
abbrev F.SMP_FAM_MIN : Fld := ⟨.SMP_FAM, 6, 4⟩
abbrev F.SMP_FAM_LEVEL : Fld := ⟨.SMP_FAM, 2, 0⟩
abbrev F.TW_CTL_HOME_THRESHOLD : Fld := ⟨.TW_CTL, 15, 8⟩
abbrev F.TW_CTL_HOME : Fld := ⟨.TW_CTL, 2, 2⟩
abbrev F.TW_CTL_SIDE : Fld := ⟨.TW_CTL, 1, 1⟩
abbrev F.TW_CTL_EN : Fld := ⟨.TW_CTL, 0, 0⟩
abbrev F.TW_TIMERS_HOME_HOLD : Fld := ⟨.TW_TIMERS, 27, 16⟩
abbrev F.TW_TIMERS_PAIR_WAIT : Fld := ⟨.TW_TIMERS, 11, 0⟩
abbrev F.TW_SYNC_RESYNC_MAX : Fld := ⟨.TW_SYNC, 31, 24⟩
abbrev F.TW_SYNC_LOCK_TICKS : Fld := ⟨.TW_SYNC, 15, 0⟩
abbrev F.TW_MIRROR_PDM : Fld := ⟨.TW_MIRROR, 23, 16⟩
abbrev F.TW_MIRROR_TDM : Fld := ⟨.TW_MIRROR, 15, 0⟩
abbrev F.TW_STAT_PEER_SCORE : Fld := ⟨.TW_STAT, 31, 24⟩
abbrev F.TW_STAT_SCORE : Fld := ⟨.TW_STAT, 23, 16⟩
abbrev F.TW_STAT_SYNC_CAUSE : Fld := ⟨.TW_STAT, 15, 13⟩
abbrev F.TW_STAT_T1_UP : Fld := ⟨.TW_STAT, 12, 12⟩
abbrev F.TW_STAT_T0_UP : Fld := ⟨.TW_STAT, 11, 11⟩
abbrev F.TW_STAT_PYIELD : Fld := ⟨.TW_STAT, 10, 10⟩
abbrev F.TW_STAT_PALIVE_OK : Fld := ⟨.TW_STAT, 9, 9⟩
abbrev F.TW_STAT_SPLIT : Fld := ⟨.TW_STAT, 8, 8⟩
abbrev F.TW_STAT_LOCKSTEP : Fld := ⟨.TW_STAT, 7, 7⟩
abbrev F.TW_STAT_PARTNER : Fld := ⟨.TW_STAT, 6, 6⟩
abbrev F.TW_STAT_SYNC_PHASE : Fld := ⟨.TW_STAT, 5, 3⟩
abbrev F.TW_STAT_ROLE : Fld := ⟨.TW_STAT, 2, 0⟩
abbrev F.TW_HEALTH_LO_WORD : Fld := ⟨.TW_HEALTH_LO, 31, 0⟩
abbrev F.TW_HEALTH_HI_WORD : Fld := ⟨.TW_HEALTH_HI, 31, 0⟩
abbrev F.TW_PEER_LO_WORD : Fld := ⟨.TW_PEER_LO, 31, 0⟩
abbrev F.TW_PEER_HI_WORD : Fld := ⟨.TW_PEER_HI, 31, 0⟩
abbrev F.TW_CNT_TAKEOVERS : Fld := ⟨.TW_CNT, 31, 24⟩
abbrev F.TW_CNT_MISMATCHES : Fld := ⟨.TW_CNT, 23, 16⟩
abbrev F.TW_CNT_RESYNCS : Fld := ⟨.TW_CNT, 15, 8⟩
abbrev F.TW_CNT_MIRROR_LOST : Fld := ⟨.TW_CNT, 7, 0⟩
abbrev F.TW_SYNC_RGN_BASE_BASE : Fld := ⟨.TW_SYNC_RGN_BASE, 20, 0⟩
abbrev F.TW_SYNC_RGN_LEN_LEN : Fld := ⟨.TW_SYNC_RGN_LEN, 20, 0⟩
abbrev F.TW_LINK_MISSED : Fld := ⟨.TW_LINK, 31, 24⟩
abbrev F.TW_LINK_UP : Fld := ⟨.TW_LINK, 16, 16⟩
abbrev F.TW_LINK_DELAY : Fld := ⟨.TW_LINK, 15, 0⟩
abbrev F.TW_PARTNER_ID_ID : Fld := ⟨.TW_PARTNER_ID, 31, 0⟩
abbrev F.RW_CTL_COMPACT_PCT : Fld := ⟨.RW_CTL, 6, 0⟩
abbrev F.RW_STAT_QSPI_ERR : Fld := ⟨.RW_STAT, 8, 8⟩
abbrev F.RW_STAT_COMPACTING : Fld := ⟨.RW_STAT, 7, 7⟩
abbrev F.RW_STAT_COPY : Fld := ⟨.RW_STAT, 6, 6⟩
abbrev F.RW_STAT_CLAMPED : Fld := ⟨.RW_STAT, 5, 5⟩
abbrev F.RW_STAT_FACTORY : Fld := ⟨.RW_STAT, 4, 4⟩
abbrev F.RW_STAT_WARM : Fld := ⟨.RW_STAT, 3, 3⟩
abbrev F.RW_STAT_STAGE : Fld := ⟨.RW_STAT, 2, 0⟩
abbrev F.RW_SCHEMA_SCHEMA : Fld := ⟨.RW_SCHEMA, 15, 0⟩
abbrev F.RW_DURABLE_GEN : Fld := ⟨.RW_DURABLE, 31, 0⟩
abbrev F.RW_PENDING_RECORDS : Fld := ⟨.RW_PENDING, 31, 16⟩
abbrev F.RW_PENDING_KIB : Fld := ⟨.RW_PENDING, 15, 0⟩
abbrev F.RW_LOG_USED : Fld := ⟨.RW_LOG, 31, 24⟩
abbrev F.RW_LOG_COMPACTIONS : Fld := ⟨.RW_LOG, 15, 0⟩
abbrev F.RW_CAUSE_RESETS : Fld := ⟨.RW_CAUSE, 31, 16⟩
abbrev F.RW_CAUSE_LEVEL : Fld := ⟨.RW_CAUSE, 10, 8⟩
abbrev F.RW_CAUSE_CAUSE : Fld := ⟨.RW_CAUSE, 2, 0⟩
abbrev F.RW_TIMES_READY_MS : Fld := ⟨.RW_TIMES, 31, 16⟩
abbrev F.RW_TIMES_RESTORE_MS : Fld := ⟨.RW_TIMES, 15, 0⟩
abbrev F.RW_PWR_STAT_ISLANDS : Fld := ⟨.RW_PWR_STAT, 13, 8⟩
abbrev F.RW_PWR_STAT_ARMED : Fld := ⟨.RW_PWR_STAT, 5, 5⟩
abbrev F.RW_PWR_STAT_MOVING : Fld := ⟨.RW_PWR_STAT, 4, 4⟩
abbrev F.RW_PWR_STAT_TARGET : Fld := ⟨.RW_PWR_STAT, 3, 2⟩
abbrev F.RW_PWR_STAT_STATE : Fld := ⟨.RW_PWR_STAT, 1, 0⟩
abbrev F.SEC_STATE_SVN : Fld := ⟨.SEC_STATE, 14, 8⟩
abbrev F.SEC_STATE_CEIL_LOCK : Fld := ⟨.SEC_STATE, 3, 3⟩
abbrev F.SEC_STATE_DBG_KEY : Fld := ⟨.SEC_STATE, 2, 2⟩
abbrev F.SEC_STATE_FW_KEY : Fld := ⟨.SEC_STATE, 1, 1⟩
abbrev F.SEC_STATE_SEALED : Fld := ⟨.SEC_STATE, 0, 0⟩
abbrev F.SEC_UID_ID : Fld := ⟨.SEC_UID, 31, 0⟩
abbrev F.SEC_HWTYPE_HWTYPE : Fld := ⟨.SEC_HWTYPE, 31, 0⟩
abbrev F.SEC_FW_STAT_STATE_B : Fld := ⟨.SEC_FW_STAT, 23, 20⟩
abbrev F.SEC_FW_STAT_STATE_A : Fld := ⟨.SEC_FW_STAT, 19, 16⟩
abbrev F.SEC_FW_STAT_REJ_CAUSE : Fld := ⟨.SEC_FW_STAT, 15, 12⟩
abbrev F.SEC_FW_STAT_REJ_BANK : Fld := ⟨.SEC_FW_STAT, 11, 11⟩
abbrev F.SEC_FW_STAT_RESTARTED : Fld := ⟨.SEC_FW_STAT, 10, 10⟩
abbrev F.SEC_FW_STAT_MODE : Fld := ⟨.SEC_FW_STAT, 9, 8⟩
abbrev F.SEC_FW_STAT_RUNNING : Fld := ⟨.SEC_FW_STAT, 0, 0⟩
abbrev F.SEC_FW_VER_VERSION : Fld := ⟨.SEC_FW_VER, 31, 0⟩
abbrev F.SEC_RCV_CTL_GO : Fld := ⟨.SEC_RCV_CTL, 31, 31⟩
abbrev F.SEC_RCV_CTL_OP : Fld := ⟨.SEC_RCV_CTL, 30, 29⟩
abbrev F.SEC_RCV_CTL_BANK : Fld := ⟨.SEC_RCV_CTL, 28, 28⟩
abbrev F.SEC_RCV_CTL_PAGE : Fld := ⟨.SEC_RCV_CTL, 23, 13⟩
abbrev F.SEC_RCV_CTL_LEN : Fld := ⟨.SEC_RCV_CTL, 12, 0⟩
abbrev F.SEC_RCV_STAT_BUSY : Fld := ⟨.SEC_RCV_STAT, 31, 31⟩
abbrev F.SEC_RCV_STAT_STATUS : Fld := ⟨.SEC_RCV_STAT, 15, 0⟩
abbrev F.SEC_RCV_CRC_CRC : Fld := ⟨.SEC_RCV_CRC, 31, 0⟩
abbrev F.SEC_RCV_BUF_DATA : Fld := ⟨.SEC_RCV_BUF, 31, 0⟩
abbrev F.DBG_STAT_MIN_LEFT : Fld := ⟨.DBG_STAT, 31, 23⟩
abbrev F.DBG_STAT_FAILS : Fld := ⟨.DBG_STAT, 15, 8⟩
abbrev F.DBG_STAT_LOCKOUT : Fld := ⟨.DBG_STAT, 7, 7⟩
abbrev F.DBG_STAT_DENIED : Fld := ⟨.DBG_STAT, 6, 6⟩
abbrev F.DBG_STAT_HALTED : Fld := ⟨.DBG_STAT, 5, 5⟩
abbrev F.DBG_STAT_SESSION : Fld := ⟨.DBG_STAT, 4, 4⟩
abbrev F.DBG_STAT_MAX : Fld := ⟨.DBG_STAT, 3, 2⟩
abbrev F.DBG_STAT_LEVEL : Fld := ⟨.DBG_STAT, 1, 0⟩
abbrev F.DBG_RUNCTL_PAIR1_HALT : Fld := ⟨.DBG_RUNCTL, 31, 31⟩
abbrev F.DBG_RUNCTL_PAIR0_HALT : Fld := ⟨.DBG_RUNCTL, 30, 30⟩
abbrev F.DBG_RUNCTL_STEP : Fld := ⟨.DBG_RUNCTL, 11, 11⟩
abbrev F.DBG_RUNCTL_RESUME : Fld := ⟨.DBG_RUNCTL, 10, 10⟩
abbrev F.DBG_RUNCTL_HALT : Fld := ⟨.DBG_RUNCTL, 9, 9⟩
abbrev F.DBG_RUNCTL_UNIT : Fld := ⟨.DBG_RUNCTL, 7, 0⟩
abbrev F.DBG_FUSE_CTL_GO : Fld := ⟨.DBG_FUSE_CTL, 31, 31⟩
abbrev F.DBG_FUSE_CTL_OP : Fld := ⟨.DBG_FUSE_CTL, 30, 29⟩
abbrev F.DBG_FUSE_CTL_GROUP : Fld := ⟨.DBG_FUSE_CTL, 26, 24⟩
abbrev F.DBG_FUSE_CTL_RESULT : Fld := ⟨.DBG_FUSE_CTL, 23, 20⟩
abbrev F.DBG_FUSE_CTL_WORD : Fld := ⟨.DBG_FUSE_CTL, 3, 0⟩
abbrev F.DBG_FUSE_DATA_DATA : Fld := ⟨.DBG_FUSE_DATA, 31, 0⟩
abbrev F.CEN_STAT_MASK : Fld := ⟨.CEN_STAT, 20, 16⟩
abbrev F.CEN_STAT_LIVE : Fld := ⟨.CEN_STAT, 12, 8⟩
abbrev F.CEN_STAT_STATE : Fld := ⟨.CEN_STAT, 1, 0⟩
abbrev F.CEN_SEQ_SEQ : Fld := ⟨.CEN_SEQ, 31, 0⟩
abbrev F.CEN_MTS_MTS : Fld := ⟨.CEN_MTS, 31, 0⟩
abbrev F.PC_SEL_EDGE : Fld := ⟨.PC_SEL, 6, 6⟩
abbrev F.PC_SEL_EVENT : Fld := ⟨.PC_SEL, 5, 0⟩
abbrev F.PC_CNT_COUNT : Fld := ⟨.PC_CNT, 31, 0⟩
abbrev F.PC_MTS_MTS : Fld := ⟨.PC_MTS, 31, 0⟩
abbrev F.PC_OVF_OVF : Fld := ⟨.PC_OVF, 3, 0⟩
abbrev F.PC_AGG_SEL_CL_MASK : Fld := ⟨.PC_AGG_SEL, 19, 16⟩
abbrev F.PC_AGG_SEL_UEV : Fld := ⟨.PC_AGG_SEL, 13, 8⟩
abbrev F.PC_AGG_SEL_EDGE : Fld := ⟨.PC_AGG_SEL, 6, 6⟩
abbrev F.PC_AGG_SEL_EVENT : Fld := ⟨.PC_AGG_SEL, 5, 0⟩
abbrev F.PC_AGG_CNT_COUNT : Fld := ⟨.PC_AGG_CNT, 31, 0⟩
abbrev F.PC_AGG_MTS_MTS : Fld := ⟨.PC_AGG_MTS, 31, 0⟩
abbrev F.PC_AGG_OVF_OVF : Fld := ⟨.PC_AGG_OVF, 3, 0⟩

/-- The instances of each register type in BAR0 (R423, R428). -/
def regSegs : RegId → List Seg
  | .MT_NS => [⟨0, 0x100000, 1, 0x4, 1, 4⟩]
  | .MT_SEC_LO => [⟨0, 0x100004, 1, 0x4, 1, 4⟩]
  | .MT_SEC_HI => [⟨0, 0x100008, 1, 0x4, 1, 4⟩]
  | .MT_FRAC => [⟨0, 0x10000C, 1, 0x4, 1, 4⟩]
  | .MT_TICKNO => [⟨0, 0x100010, 1, 0x4, 1, 4⟩]
  | .MT_RATE => [⟨0, 0x100014, 1, 0x4, 1, 4⟩]
  | .MT_EPOCH => [⟨0, 0x100018, 1, 0x4, 1, 4⟩]
  | .MT_CTL => [⟨0, 0x10001C, 1, 0x4, 1, 4⟩]
  | .MT_SLEW_MAX => [⟨0, 0x100020, 1, 0x4, 1, 4⟩]
  | .WH_CTL => [⟨0, 0x100100, 1, 0x4, 1, 4⟩]
  | .WH_STATUS => [⟨0, 0x100104, 1, 0x4, 1, 4⟩]
  | .WH_BW => [⟨0, 0x100108, 1, 0x4, 1, 4⟩]
  | .WH_LOCK => [⟨0, 0x10010C, 1, 0x4, 1, 4⟩]
  | .WH_TIMERS => [⟨0, 0x100110, 1, 0x4, 1, 4⟩]
  | .WH_DRIFT => [⟨0, 0x100114, 1, 0x4, 1, 4⟩]
  | .WH_HO_RATE => [⟨0, 0x100118, 1, 0x4, 1, 4⟩]
  | .WH_HO_VALID => [⟨0, 0x10011C, 1, 0x4, 1, 4⟩]
  | .WH_ABSORB_LO => [⟨0, 0x100120, 1, 0x4, 1, 4⟩]
  | .WH_ABSORB_HI => [⟨0, 0x100124, 1, 0x4, 1, 4⟩]
  | .WH_SLOT_CFG => [⟨0, 0x100140, 15, 0x4, 1, 4⟩]
  | .WH_SLOT_STAT => [⟨0, 0x100180, 16, 0x4, 1, 4⟩]
  | .WH_SLOT_PHASE => [⟨0, 0x1001C0, 16, 0x4, 1, 4⟩]
  | .WH_SLOT_FREQ => [⟨0, 0x100200, 16, 0x4, 1, 4⟩]
  | .WH_QL_MAP => [⟨0, 0x100240, 16, 0x4, 1, 4⟩]
  | .WH_CLKOUT => [⟨0, 0x100280, 8, 0x4, 1, 4⟩]
  | .WH_CLKOUT_PHASE => [⟨0, 0x1002C0, 6, 0x4, 1, 4⟩]
  | .CL_MIX_CTL => [⟨0, 0x400300, 24, 0x1000, 1, 4⟩]
  | .CL_MIX_STAT => [⟨0, 0x400304, 24, 0x1000, 1, 4⟩]
  | .CL_MIX_CYC => [⟨0, 0x400308, 24, 0x1000, 1, 4⟩]
  | .CL_MIX_MISS => [⟨0, 0x40030C, 24, 0x1000, 1, 4⟩]
  | .SP_CTL => [⟨0, 0x110000, 1, 0x4, 1, 4⟩]
  | .SP_TIMING => [⟨0, 0x110004, 1, 0x4, 1, 4⟩]
  | .SP_STAT => [⟨0, 0x110008, 1, 0x4, 1, 4⟩]
  | .SP_ZONE_ACT => [⟨0, 0x11000C, 1, 0x4, 1, 4⟩]
  | .SP_ZONE => [⟨0, 0x110100, 32, 0x4, 1, 4⟩]
  | .SP_WATCH_A => [⟨0, 0x110180, 32, 0x4, 1, 4⟩]
  | .SP_WATCH_B => [⟨0, 0x110200, 32, 0x4, 1, 4⟩]
  | .SP_MSG => [⟨0, 0x110280, 16, 0x4, 1, 4⟩]
  | .CL_CTL => [⟨0, 0x400000, 24, 0x1000, 1, 4⟩]
  | .CL_STAT => [⟨0, 0x400004, 24, 0x1000, 1, 4⟩]
  | .RG_SPARE => [⟨0, 0x418000, 6, 0x1000, 1, 4⟩]
  | .RG_SPARE_STAT => [⟨0, 0x418004, 6, 0x1000, 1, 4⟩]
  | .RG_PWR => [⟨0, 0x418008, 6, 0x1000, 1, 4⟩]
  | .MT_SKEW => [⟨0, 0x100030, 2, 0x4, 1, 4⟩]
  | .SEC_REMAP => [⟨0, 0x140000, 1, 0x4, 1, 4⟩]
  | .UNIT_CTL => [⟨0, 0x440000, 192, 0x100, 1, 4⟩]
  | .UNIT_STAT => [⟨0, 0x440004, 192, 0x100, 1, 4⟩]
  | .UNIT_DONE => [⟨0, 0x440008, 192, 0x100, 1, 4⟩]
  | .UNIT_CYC => [⟨0, 0x44000C, 192, 0x100, 1, 4⟩]
  | .UNIT_TRAP => [⟨0, 0x440010, 192, 0x100, 1, 4⟩]
  | .UNIT_FLAGS => [⟨0, 0x440014, 192, 0x100, 1, 4⟩]
  | .UNIT_TICK_DEADLINE => [⟨0, 0x44C000, 1, 0x4, 1, 4⟩]
  | .DP_CTL => [⟨0, 0x200000, 24, 0x100, 1, 4⟩]
  | .DP_MOD => [⟨0, 0x200004, 24, 0x100, 1, 4⟩]
  | .DP_BOOST => [⟨0, 0x200008, 24, 0x100, 1, 4⟩]
  | .DP_STAT => [⟨0, 0x20000C, 24, 0x100, 1, 4⟩]
  | .DP_ERR => [⟨0, 0x200010, 24, 0x100, 1, 4⟩]
  | .DP_SENSE => [⟨0, 0x200014, 24, 0x100, 1, 4⟩]
  | .BG_CTL => [⟨0, 0x204000, 48, 0x40, 1, 4⟩]
  | .BG_RAIL => [⟨0, 0x204004, 48, 0x40, 1, 4⟩]
  | .BG_STAT => [⟨0, 0x204008, 48, 0x40, 1, 4⟩]
  | .FLT_CTL => [⟨0, 0x208000, 1, 0x4, 1, 4⟩]
  | .FLT_FUSE0 => [⟨0, 0x208004, 1, 0x4, 1, 4⟩]
  | .FLT_FUSE1 => [⟨0, 0x208008, 1, 0x4, 1, 4⟩]
  | .FLT_TRIPS => [⟨0, 0x20800C, 1, 0x4, 1, 4⟩]
  | .FLT_TRIPPED => [⟨0, 0x208040, 6, 0x4, 1, 4⟩]
  | .FLT_LIMITING => [⟨0, 0x208060, 6, 0x4, 1, 4⟩]
  | .FLT_GRP => [⟨0, 0x209000, 48, 0x10, 1, 4⟩]
  | .FLT_CAP => [⟨0, 0x209004, 48, 0x10, 1, 4⟩]
  | .FLT_VE => [⟨0, 0x209008, 48, 0x10, 1, 4⟩]
  | .FLT_REL => [⟨0, 0x20900C, 48, 0x10, 1, 4⟩]
  | .LW_CTL => [⟨0, 0x20A000, 1, 0x4, 1, 4⟩]
  | .LW_DEV => [⟨0, 0x20A040, 24, 0x4, 1, 4⟩]
  | .LW_EVENTS => [⟨0, 0x20A0A0, 1, 0x4, 1, 4⟩]
  | .LW_SWEEP_STAT => [⟨0, 0x20A0B0, 1, 0x4, 1, 4⟩]
  | .TDM_CTL => [⟨0, 0x210000, 16, 0x100, 1, 4⟩]
  | .TDM_FRAME => [⟨0, 0x210004, 16, 0x100, 1, 4⟩]
  | .TDM_MASK_RX => [⟨0, 0x210008, 16, 0x100, 1, 4⟩]
  | .TDM_MASK_TX => [⟨0, 0x21000C, 16, 0x100, 1, 4⟩]
  | .TDM_PACK => [⟨0, 0x210010, 16, 0x100, 1, 4⟩]
  | .TDM_RING_BASE => [⟨0, 0x210014, 16, 0x100, 1, 4⟩]
  | .TDM_RING_CFG => [⟨0, 0x210018, 16, 0x100, 1, 4⟩]
  | .TDM_RING_IDX => [⟨0, 0x21001C, 16, 0x100, 1, 4⟩]
  | .TDM_STAT => [⟨0, 0x210020, 16, 0x100, 1, 4⟩]
  | .TDM_ERR => [⟨0, 0x210024, 16, 0x100, 1, 4⟩]
  | .TDM_AG_STAT => [⟨0, 0x216000, 4, 0x4, 1, 4⟩]
  | .PDM_CTL => [⟨0, 0x214000, 8, 0x40, 1, 4⟩]
  | .PDM_GAIN => [⟨0, 0x214004, 8, 0x40, 1, 4⟩]
  | .PDM_STAT => [⟨0, 0x214008, 8, 0x40, 1, 4⟩]
  | .PDM_ERR => [⟨0, 0x21400C, 8, 0x40, 1, 4⟩]
  | .PDM_LEVEL => [⟨0, 0x214010, 8, 0x40, 1, 4⟩]
  | .NET_CTL => [⟨0, 0x220000, 8, 0x1000, 1, 4⟩]
  | .NET_STAT => [⟨0, 0x220004, 8, 0x1000, 1, 4⟩]
  | .NET_MAC_LO => [⟨0, 0x220008, 8, 0x1000, 1, 4⟩]
  | .NET_MAC_HI => [⟨0, 0x22000C, 8, 0x1000, 1, 4⟩]
  | .NET_PCP_MAP => [⟨0, 0x220010, 8, 0x1000, 1, 4⟩]
  | .NET_SHAPER => [⟨0, 0x220020, 8, 0x1000, 3, 4⟩]
  | .NET_TXQ_LIMIT => [⟨0, 0x22002C, 8, 0x1000, 1, 4⟩]
  | .NET_PTP_CFG => [⟨0, 0x220030, 8, 0x1000, 1, 4⟩]
  | .NET_PTP_ASYM => [⟨0, 0x220034, 8, 0x1000, 1, 4⟩]
  | .NET_PTP_LINKDLY => [⟨0, 0x220038, 8, 0x1000, 1, 4⟩]
  | .NET_IPV4 => [⟨0, 0x22003C, 8, 0x1000, 1, 4⟩]
  | .NET_CNT_LO => [⟨0, 0x220800, 8, 0x1000, 40, 8⟩]
  | .NET_CNT_HI => [⟨0, 0x220804, 8, 0x1000, 40, 8⟩]
  | .NET_FWD_STAT => [⟨0, 0x228000, 1, 0x4, 1, 4⟩]
  | .NET_MGMT_STAT => [⟨0, 0x228004, 1, 0x4, 1, 4⟩]
  | .HIF_CTL => [⟨0, 0x0, 1, 0x4, 1, 4⟩]
  | .HIF_STAT => [⟨0, 0x4, 1, 0x4, 1, 4⟩]
  | .HIF_IGN_ADDR => [⟨0, 0x8, 1, 0x4, 1, 4⟩]
  | .HIF_CFG_GEN => [⟨0, 0xC, 1, 0x4, 1, 4⟩]
  | .HIF_RING_BASE_LO => [⟨0, 0x100, 32, 0x20, 1, 4⟩]
  | .HIF_RING_BASE_HI => [⟨0, 0x104, 32, 0x20, 1, 4⟩]
  | .HIF_RING_CFG => [⟨0, 0x108, 32, 0x20, 1, 4⟩]
  | .HIF_RING_AUD => [⟨0, 0x10C, 32, 0x20, 1, 4⟩]
  | .HIF_RING_IDX => [⟨0, 0x110, 32, 0x20, 1, 4⟩]
  | .HIF_RING_STAT => [⟨0, 0x114, 32, 0x20, 1, 4⟩]
  | .PMP_CH_CTL => [⟨0, 0x400400, 24, 0x1000, 16, 32⟩, ⟨384, 0x230000, 4, 0x1000, 16, 32⟩]
  | .PMP_CH_RING_LO => [⟨0, 0x400404, 24, 0x1000, 16, 32⟩, ⟨384, 0x230004, 4, 0x1000, 16, 32⟩]
  | .PMP_CH_RING_HI => [⟨0, 0x400408, 24, 0x1000, 16, 32⟩, ⟨384, 0x230008, 4, 0x1000, 16, 32⟩]
  | .PMP_CH_RING_CFG => [⟨0, 0x40040C, 24, 0x1000, 16, 32⟩, ⟨384, 0x23000C, 4, 0x1000, 16, 32⟩]
  | .PMP_CH_IDX => [⟨0, 0x400410, 24, 0x1000, 16, 32⟩, ⟨384, 0x230010, 4, 0x1000, 16, 32⟩]
  | .PMP_CH_STAT => [⟨0, 0x400414, 24, 0x1000, 16, 32⟩, ⟨384, 0x230014, 4, 0x1000, 16, 32⟩]
  | .PMP_CH_RES => [⟨0, 0x400418, 24, 0x1000, 16, 32⟩, ⟨384, 0x230018, 4, 0x1000, 16, 32⟩]
  | .PMP_CH_CNT => [⟨0, 0x40041C, 24, 0x1000, 16, 32⟩, ⟨384, 0x23001C, 4, 0x1000, 16, 32⟩]
  | .PMP_SUM => [⟨0, 0x400600, 24, 0x1000, 1, 4⟩, ⟨24, 0x230200, 4, 0x1000, 1, 4⟩]
  | .DPR_CTL => [⟨0, 0x418100, 6, 0x1000, 1, 4⟩]
  | .DPR_STAT => [⟨0, 0x418104, 6, 0x1000, 1, 4⟩]
  | .RG_ECC_CNT0 => [⟨0, 0x418108, 6, 0x1000, 1, 4⟩]
  | .RG_ECC_CNT1 => [⟨0, 0x41810C, 6, 0x1000, 1, 4⟩]
  | .RG_ECC_CNT2 => [⟨0, 0x418110, 6, 0x1000, 1, 4⟩]
  | .DPR_CISWIN => [⟨0, 0x400700, 24, 0x1000, 1, 4⟩]
  | .DPR_HUB_CTL => [⟨0, 0x240000, 1, 0x4, 1, 4⟩]
  | .DPR_HUB_STAT => [⟨0, 0x240004, 1, 0x4, 1, 4⟩]
  | .DPR_HUB_CNT0 => [⟨0, 0x240008, 1, 0x4, 1, 4⟩]
  | .DPR_HUB_CNT1 => [⟨0, 0x24000C, 1, 0x4, 1, 4⟩]
  | .DPR_DDR_CNT => [⟨0, 0x240010, 1, 0x4, 1, 4⟩]
  | .DPR_BIST => [⟨0, 0x240014, 1, 0x4, 1, 4⟩]
  | .DPR_LOGSTAT => [⟨0, 0x418114, 6, 0x1000, 1, 4⟩, ⟨6, 0x240020, 1, 0x4, 1, 4⟩, ⟨7, 0x240030, 1, 0x4, 1, 4⟩]
  | .DPR_LOG0 => [⟨0, 0x418118, 6, 0x1000, 1, 4⟩, ⟨6, 0x240024, 1, 0x4, 1, 4⟩, ⟨7, 0x240034, 1, 0x4, 1, 4⟩]
  | .DPR_LOG1 => [⟨0, 0x41811C, 6, 0x1000, 1, 4⟩, ⟨6, 0x240028, 1, 0x4, 1, 4⟩, ⟨7, 0x240038, 1, 0x4, 1, 4⟩]
  | .DPR_LOG2 => [⟨0, 0x418120, 6, 0x1000, 1, 4⟩, ⟨6, 0x24002C, 1, 0x4, 1, 4⟩, ⟨7, 0x24003C, 1, 0x4, 1, 4⟩]
  | .SMP_CTL => [⟨0, 0x250000, 1, 0x4, 1, 4⟩]
  | .SMP_STAT => [⟨0, 0x250004, 1, 0x4, 1, 4⟩]
  | .SMP_LOGSTAT => [⟨0, 0x250010, 1, 0x4, 1, 4⟩]
  | .SMP_LOG0 => [⟨0, 0x250014, 1, 0x4, 1, 4⟩]
  | .SMP_LOG1 => [⟨0, 0x250018, 1, 0x4, 1, 4⟩]
  | .SMP_LOG2 => [⟨0, 0x25001C, 1, 0x4, 1, 4⟩]
  | .SMP_CLASS_CTL => [⟨0, 0x250100, 8, 0x8, 1, 4⟩]
  | .SMP_CLASS_STAT => [⟨0, 0x250104, 8, 0x8, 1, 4⟩]
  | .SMP_FAM => [⟨0, 0x250400, 128, 0x4, 1, 4⟩]
  | .TW_CTL => [⟨0, 0x260000, 1, 0x4, 1, 4⟩]
  | .TW_TIMERS => [⟨0, 0x260004, 1, 0x4, 1, 4⟩]
  | .TW_SYNC => [⟨0, 0x260008, 1, 0x4, 1, 4⟩]
  | .TW_MIRROR => [⟨0, 0x26000C, 1, 0x4, 1, 4⟩]
  | .TW_STAT => [⟨0, 0x260010, 1, 0x4, 1, 4⟩]
  | .TW_HEALTH_LO => [⟨0, 0x260014, 1, 0x4, 1, 4⟩]
  | .TW_HEALTH_HI => [⟨0, 0x260018, 1, 0x4, 1, 4⟩]
  | .TW_PEER_LO => [⟨0, 0x26001C, 1, 0x4, 1, 4⟩]
  | .TW_PEER_HI => [⟨0, 0x260020, 1, 0x4, 1, 4⟩]
  | .TW_CNT => [⟨0, 0x260024, 1, 0x4, 1, 4⟩]
  | .TW_SYNC_RGN_BASE => [⟨0, 0x260040, 16, 0x8, 1, 4⟩]
  | .TW_SYNC_RGN_LEN => [⟨0, 0x260044, 16, 0x8, 1, 4⟩]
  | .TW_LINK => [⟨0, 0x260080, 2, 0x4, 1, 4⟩]
  | .TW_PARTNER_ID => [⟨0, 0x2600A0, 3, 0x4, 1, 4⟩]
  | .RW_CTL => [⟨0, 0x270000, 1, 0x4, 1, 4⟩]
  | .RW_STAT => [⟨0, 0x270004, 1, 0x4, 1, 4⟩]
  | .RW_SCHEMA => [⟨0, 0x270008, 1, 0x4, 1, 4⟩]
  | .RW_DURABLE => [⟨0, 0x27000C, 1, 0x4, 1, 4⟩]
  | .RW_PENDING => [⟨0, 0x270010, 1, 0x4, 1, 4⟩]
  | .RW_LOG => [⟨0, 0x270014, 1, 0x4, 1, 4⟩]
  | .RW_CAUSE => [⟨0, 0x270018, 1, 0x4, 1, 4⟩]
  | .RW_TIMES => [⟨0, 0x27001C, 1, 0x4, 1, 4⟩]
  | .RW_PWR_STAT => [⟨0, 0x270020, 1, 0x4, 1, 4⟩]
  | .SEC_STATE => [⟨0, 0x140004, 1, 0x4, 1, 4⟩]
  | .SEC_UID => [⟨0, 0x140008, 3, 0x4, 1, 4⟩]
  | .SEC_HWTYPE => [⟨0, 0x140014, 1, 0x4, 1, 4⟩]
  | .SEC_FW_STAT => [⟨0, 0x140018, 1, 0x4, 1, 4⟩]
  | .SEC_FW_VER => [⟨0, 0x14001C, 2, 0x4, 1, 4⟩]
  | .SEC_RCV_CTL => [⟨0, 0x140100, 1, 0x4, 1, 4⟩]
  | .SEC_RCV_STAT => [⟨0, 0x140104, 1, 0x4, 1, 4⟩]
  | .SEC_RCV_CRC => [⟨0, 0x140108, 1, 0x4, 1, 4⟩]
  | .SEC_RCV_BUF => [⟨0, 0x141000, 1024, 0x4, 1, 4⟩]
  | .DBG_STAT => [⟨0, 0x142000, 1, 0x4, 1, 4⟩]
  | .DBG_RUNCTL => [⟨0, 0x142004, 1, 0x4, 1, 4⟩]
  | .DBG_FUSE_CTL => [⟨0, 0x142008, 1, 0x4, 1, 4⟩]
  | .DBG_FUSE_DATA => [⟨0, 0x14200C, 1, 0x4, 1, 4⟩]
  | .CEN_STAT => [⟨0, 0x280000, 1, 0x4, 1, 4⟩]
  | .CEN_SEQ => [⟨0, 0x280004, 1, 0x4, 1, 4⟩]
  | .CEN_MTS => [⟨0, 0x280008, 1, 0x4, 1, 4⟩]
  | .PC_SEL => [⟨0, 0x440040, 192, 0x100, 4, 4⟩]
  | .PC_CNT => [⟨0, 0x440050, 192, 0x100, 4, 4⟩]
  | .PC_MTS => [⟨0, 0x440060, 192, 0x100, 1, 4⟩]
  | .PC_OVF => [⟨0, 0x440064, 192, 0x100, 1, 4⟩]
  | .PC_AGG_SEL => [⟨0, 0x418200, 6, 0x1000, 4, 4⟩]
  | .PC_AGG_CNT => [⟨0, 0x418210, 6, 0x1000, 4, 4⟩]
  | .PC_AGG_MTS => [⟨0, 0x418220, 6, 0x1000, 1, 4⟩]
  | .PC_AGG_OVF => [⟨0, 0x418224, 6, 0x1000, 1, 4⟩]

/-- The fields of each register type, reserved bits left out (they read 0). -/
def regFields : RegId → List FldDesc
  | .MT_NS => [
      ⟨F.MT_NS_NS, .ro, 0, 4294967295⟩]
  | .MT_SEC_LO => [
      ⟨F.MT_SEC_LO_SEC_LO, .ro, 0, 4294967295⟩]
  | .MT_SEC_HI => [
      ⟨F.MT_SEC_HI_SEC_HI, .ro, 0, 65535⟩]
  | .MT_FRAC => [
      ⟨F.MT_FRAC_FRAC, .ro, 0, 4294967295⟩]
  | .MT_TICKNO => [
      ⟨F.MT_TICKNO_TICKNO, .ro, 0, 4294967295⟩]
  | .MT_RATE => [
      ⟨F.MT_RATE_RATE, .ro, 0, 4294967295⟩]
  | .MT_EPOCH => [
      ⟨F.MT_EPOCH_RELEASED, .ro, 0, 1⟩,
      ⟨F.MT_EPOCH_WINDOW, .ro, 0, 1⟩,
      ⟨F.MT_EPOCH_STEPPED, .ro, 0, 1⟩,
      ⟨F.MT_EPOCH_EPOCH, .ro, 0, 65535⟩]
  | .MT_CTL => [
      ⟨F.MT_CTL_FREE_WAIT, .rw, 0, 255⟩,
      ⟨F.MT_CTL_ALIGN, .rw, 0, 1⟩,
      ⟨F.MT_CTL_STEP_WAIT, .rw, 0, 1⟩]
  | .MT_SLEW_MAX => [
      ⟨F.MT_SLEW_MAX_SLEW_MAX, .rw, 1, 5000⟩]
  | .WH_CTL => [
      ⟨F.WH_CTL_REVERT, .rw, 0, 1⟩,
      ⟨F.WH_CTL_CONFIG, .rw, 0, 2⟩]
  | .WH_STATUS => [
      ⟨F.WH_STATUS_SWITCH_COUNT, .ro, 0, 65535⟩,
      ⟨F.WH_STATUS_QL, .ro, 0, 15⟩,
      ⟨F.WH_STATUS_CFG_ERR, .w1c, 0, 1⟩,
      ⟨F.WH_STATUS_LOCK, .ro, 0, 1⟩,
      ⟨F.WH_STATUS_LOOP, .ro, 0, 7⟩,
      ⟨F.WH_STATUS_MODE, .ro, 0, 1⟩,
      ⟨F.WH_STATUS_SELECTED, .ro, 0, 15⟩]
  | .WH_BW => [
      ⟨F.WH_BW_SVC_BW, .rw, 1, 1000⟩,
      ⟨F.WH_BW_ACQ_BW, .rw, 1, 1000⟩]
  | .WH_LOCK => [
      ⟨F.WH_LOCK_LOCK_TIME, .rw, 1, 255⟩,
      ⟨F.WH_LOCK_LOCK_FREQ, .rw, 1, 255⟩,
      ⟨F.WH_LOCK_LOCK_PHASE, .rw, 1, 65535⟩]
  | .WH_TIMERS => [
      ⟨F.WH_TIMERS_REACQ, .rw, 0, 3600⟩,
      ⟨F.WH_TIMERS_ACQ_HOLD, .rw, 0, 3600⟩]
  | .WH_DRIFT => [
      ⟨F.WH_DRIFT_DRIFT_HOLD, .rw, 1, 255⟩,
      ⟨F.WH_DRIFT_HARD, .rw, 1, 500⟩,
      ⟨F.WH_DRIFT_SOFT, .rw, 1, 255⟩]
  | .WH_HO_RATE => [
      ⟨F.WH_HO_RATE_RATE, .ro, 0, 4294967295⟩]
  | .WH_HO_VALID => [
      ⟨F.WH_HO_VALID_SPAN, .ro, 0, 63⟩,
      ⟨F.WH_HO_VALID_VALID, .ro, 0, 1⟩]
  | .WH_ABSORB_LO => [
      ⟨F.WH_ABSORB_LO_ABSORB, .ro, 0, 4294967295⟩]
  | .WH_ABSORB_HI => [
      ⟨F.WH_ABSORB_HI_ABSORB, .ro, 0, 4294967295⟩]
  | .WH_SLOT_CFG => [
      ⟨F.WH_SLOT_CFG_WTR, .rw, 0, 3600⟩,
      ⟨F.WH_SLOT_CFG_DOMAIN, .rw, 0, 255⟩,
      ⟨F.WH_SLOT_CFG_NOM, .rw, 0, 7⟩,
      ⟨F.WH_SLOT_CFG_QL, .rw, 0, 15⟩,
      ⟨F.WH_SLOT_CFG_PRIO, .rw, 0, 15⟩,
      ⟨F.WH_SLOT_CFG_EN, .rw, 0, 1⟩]
  | .WH_SLOT_STAT => [
      ⟨F.WH_SLOT_STAT_WTR_LEFT, .ro, 0, 4095⟩,
      ⟨F.WH_SLOT_STAT_QL, .ro, 0, 15⟩,
      ⟨F.WH_SLOT_STAT_STATE, .ro, 0, 7⟩]
  | .WH_SLOT_PHASE => [
      ⟨F.WH_SLOT_PHASE_PHASE, .ro, 0, 4294967295⟩]
  | .WH_SLOT_FREQ => [
      ⟨F.WH_SLOT_FREQ_FREQ, .ro, 0, 4294967295⟩]
  | .WH_QL_MAP => [
      ⟨F.WH_QL_MAP_VALID, .rw, 0, 1⟩,
      ⟨F.WH_QL_MAP_QL, .rw, 0, 15⟩,
      ⟨F.WH_QL_MAP_ACC_MAX, .rw, 0, 255⟩,
      ⟨F.WH_QL_MAP_CLASS, .rw, 0, 255⟩]
  | .WH_CLKOUT => [
      ⟨F.WH_CLKOUT_PRIV, .ro, 0, 1⟩,
      ⟨F.WH_CLKOUT_EN, .rw, 0, 1⟩,
      ⟨F.WH_CLKOUT_FREQ, .rw, 0, 9⟩]
  | .WH_CLKOUT_PHASE => [
      ⟨F.WH_CLKOUT_PHASE_PHASE, .ro, 0, 4294967295⟩]
  | .CL_MIX_CTL => [
      ⟨F.CL_MIX_CTL_SKIP, .rw, 0, 1⟩,
      ⟨F.CL_MIX_CTL_EN, .rw, 0, 1⟩]
  | .CL_MIX_STAT => [
      ⟨F.CL_MIX_STAT_GROUPS, .ro, 0, 63⟩,
      ⟨F.CL_MIX_STAT_COPYING, .ro, 0, 1⟩,
      ⟨F.CL_MIX_STAT_RAMPING, .ro, 0, 1⟩,
      ⟨F.CL_MIX_STAT_ARMED, .ro, 0, 1⟩,
      ⟨F.CL_MIX_STAT_ACTIVE, .ro, 0, 1⟩]
  | .CL_MIX_CYC => [
      ⟨F.CL_MIX_CYC_PEAK, .rcl, 0, 65535⟩,
      ⟨F.CL_MIX_CYC_LAST, .ro, 0, 65535⟩]
  | .CL_MIX_MISS => [
      ⟨F.CL_MIX_MISS_MISS, .rcl, 0, 4294967295⟩]
  | .SP_CTL => [
      ⟨F.SP_CTL_DEBOUNCE, .rw, 1, 255⟩,
      ⟨F.SP_CTL_RAMP, .rw, 1, 100⟩,
      ⟨F.SP_CTL_EN, .rw, 0, 1⟩]
  | .SP_TIMING => [
      ⟨F.SP_TIMING_RETURN, .rw, 0, 10000⟩,
      ⟨F.SP_TIMING_LOSS, .rw, 10, 10000⟩]
  | .SP_STAT => [
      ⟨F.SP_STAT_VOICE_BUSY, .ro, 0, 65535⟩,
      ⟨F.SP_STAT_ALARM, .ro, 0, 255⟩,
      ⟨F.SP_STAT_FLASH_ONLY, .w1c, 0, 1⟩,
      ⟨F.SP_STAT_READY, .ro, 0, 1⟩]
  | .SP_ZONE_ACT => [
      ⟨F.SP_ZONE_ACT_ACTIVE, .ro, 0, 4294967295⟩]
  | .SP_ZONE => [
      ⟨F.SP_ZONE_DUCK, .rw, 0, 255⟩,
      ⟨F.SP_ZONE_VATT, .rw, 0, 255⟩,
      ⟨F.SP_ZONE_MSG, .rw, 0, 15⟩,
      ⟨F.SP_ZONE_VOICE, .rw, 0, 15⟩,
      ⟨F.SP_ZONE_ALARM_MASK, .rw, 0, 255⟩]
  | .SP_WATCH_A => [
      ⟨F.SP_WATCH_A_VALID1, .rw, 0, 1⟩,
      ⟨F.SP_WATCH_A_SLOT1, .rw, 0, 1023⟩,
      ⟨F.SP_WATCH_A_VALID0, .rw, 0, 1⟩,
      ⟨F.SP_WATCH_A_SLOT0, .rw, 0, 1023⟩]
  | .SP_WATCH_B => [
      ⟨F.SP_WATCH_B_VALID1, .rw, 0, 1⟩,
      ⟨F.SP_WATCH_B_SLOT1, .rw, 0, 1023⟩,
      ⟨F.SP_WATCH_B_VALID0, .rw, 0, 1⟩,
      ⟨F.SP_WATCH_B_SLOT0, .rw, 0, 1023⟩]
  | .SP_MSG => [
      ⟨F.SP_MSG_PRESENT, .ro, 0, 1⟩,
      ⟨F.SP_MSG_FLASH_OK, .ro, 0, 1⟩,
      ⟨F.SP_MSG_DDR_OK, .ro, 0, 1⟩,
      ⟨F.SP_MSG_FORMAT, .ro, 0, 3⟩,
      ⟨F.SP_MSG_SAMPLES, .ro, 0, 134217727⟩]
  | .CL_CTL => [
      ⟨F.CL_CTL_AUTO_RST, .rw, 0, 1⟩,
      ⟨F.CL_CTL_EN, .rw, 0, 1⟩]
  | .CL_STAT => [
      ⟨F.CL_STAT_RESETS, .rcl, 0, 255⟩,
      ⟨F.CL_STAT_NO_SPARE, .ro, 0, 255⟩,
      ⟨F.CL_STAT_FAILED, .ro, 0, 255⟩,
      ⟨F.CL_STAT_STATE, .ro, 0, 7⟩]
  | .RG_SPARE => [
      ⟨F.RG_SPARE_EN, .rw, 0, 1⟩,
      ⟨F.RG_SPARE_SPARE_SEL, .rw, 0, 31⟩]
  | .RG_SPARE_STAT => [
      ⟨F.RG_SPARE_STAT_TAKEOVERS, .rcl, 0, 255⟩,
      ⟨F.RG_SPARE_STAT_FOR_UNIT, .ro, 0, 255⟩,
      ⟨F.RG_SPARE_STAT_STATE, .ro, 0, 3⟩]
  | .RG_PWR => [
      ⟨F.RG_PWR_ON, .ro, 0, 1⟩]
  | .MT_SKEW => [
      ⟨F.MT_SKEW_CAL, .ro, 0, 1⟩,
      ⟨F.MT_SKEW_DELAY, .ro, 0, 65535⟩]
  | .SEC_REMAP => [
      ⟨F.SEC_REMAP_REMAP, .rw, 0, 1⟩]
  | .UNIT_CTL => [
      ⟨F.UNIT_CTL_ARM, .rw, 0, 1⟩,
      ⟨F.UNIT_CTL_IEV_EN, .rws, 0, 1⟩,
      ⟨F.UNIT_CTL_IEV, .rws, 0, 255⟩,
      ⟨F.UNIT_CTL_PCOV_EN, .rws, 0, 15⟩,
      ⟨F.UNIT_CTL_MUTE, .rws, 0, 1⟩]
  | .UNIT_STAT => [
      ⟨F.UNIT_STAT_PLOCK, .ro, 0, 1⟩,
      ⟨F.UNIT_STAT_PBANK, .ro, 0, 1⟩,
      ⟨F.UNIT_STAT_PARAM, .ro, 0, 1⟩,
      ⟨F.UNIT_STAT_POINT, .ro, 0, 1⟩,
      ⟨F.UNIT_STAT_CLASS, .ro, 0, 3⟩,
      ⟨F.UNIT_STAT_NO_SPARE, .ro, 0, 1⟩,
      ⟨F.UNIT_STAT_MUTED, .ro, 0, 1⟩,
      ⟨F.UNIT_STAT_STATE, .ro, 0, 7⟩]
  | .UNIT_DONE => [
      ⟨F.UNIT_DONE_LAST_DONE, .ro, 0, 4294967295⟩]
  | .UNIT_CYC => [
      ⟨F.UNIT_CYC_PEAK, .rcl, 0, 65535⟩,
      ⟨F.UNIT_CYC_LAST, .ro, 0, 65535⟩]
  | .UNIT_TRAP => [
      ⟨F.UNIT_TRAP_PC, .ro, 0, 65535⟩,
      ⟨F.UNIT_TRAP_COUNT, .rcl, 0, 255⟩,
      ⟨F.UNIT_TRAP_CAUSE, .ro, 0, 15⟩]
  | .UNIT_FLAGS => [
      ⟨F.UNIT_FLAGS_TICKS, .rcl, 0, 65535⟩,
      ⟨F.UNIT_FLAGS_CBE, .ro, 0, 1⟩,
      ⟨F.UNIT_FLAGS_AGV, .ro, 0, 1⟩,
      ⟨F.UNIT_FLAGS_SV, .ro, 0, 1⟩]
  | .UNIT_TICK_DEADLINE => [
      ⟨F.UNIT_TICK_DEADLINE_ERR, .w1c, 0, 1⟩,
      ⟨F.UNIT_TICK_DEADLINE_D, .rw, 200, 400⟩]
  | .DP_CTL => [
      ⟨F.DP_CTL_ARM, .rw, 0, 1⟩,
      ⟨F.DP_CTL_CODE_BITS, .rws, 12, 16⟩,
      ⟨F.DP_CTL_EN, .rws, 0, 1⟩]
  | .DP_MOD => [
      ⟨F.DP_MOD_NS_ORDER, .rws, 1, 5⟩,
      ⟨F.DP_MOD_MIN_PULSE, .rws, 10, 100⟩]
  | .DP_BOOST => [
      ⟨F.DP_BOOST_ON_MAX, .rw, 0, 255⟩,
      ⟨F.DP_BOOST_ILIM, .rw, 0, 255⟩,
      ⟨F.DP_BOOST_KI, .rw, 0, 255⟩,
      ⟨F.DP_BOOST_KP, .rw, 0, 255⟩]
  | .DP_STAT => [
      ⟨F.DP_STAT_TEMP_MAX, .ro, 0, 255⟩,
      ⟨F.DP_STAT_RTT, .ro, 0, 1023⟩,
      ⟨F.DP_STAT_CLAIM_TX, .ro, 0, 1⟩,
      ⟨F.DP_STAT_FOLLOWED, .ro, 0, 1⟩,
      ⟨F.DP_STAT_CELL_READY, .ro, 0, 1⟩,
      ⟨F.DP_STAT_CAUSE, .ro, 0, 15⟩,
      ⟨F.DP_STAT_STATE, .ro, 0, 7⟩]
  | .DP_ERR => [
      ⟨F.DP_ERR_CRC, .rcl, 0, 4095⟩,
      ⟨F.DP_ERR_MISSED, .rcl, 0, 255⟩,
      ⟨F.DP_ERR_CLIP, .rcl, 0, 255⟩]
  | .DP_SENSE => [
      ⟨F.DP_SENSE_RAIL1, .ro, 0, 65535⟩,
      ⟨F.DP_SENSE_RAIL0, .ro, 0, 65535⟩]
  | .BG_CTL => [
      ⟨F.BG_CTL_ARM, .rw, 0, 1⟩,
      ⟨F.BG_CTL_BLEED, .rws, 0, 1⟩,
      ⟨F.BG_CTL_HEADROOM, .rws, 0, 100⟩,
      ⟨F.BG_CTL_LOOKAHEAD, .rws, 0, 192⟩,
      ⟨F.BG_CTL_LINE_V, .rws, 0, 1⟩,
      ⟨F.BG_CTL_OUT_MODE, .rws, 0, 2⟩]
  | .BG_RAIL => [
      ⟨F.BG_RAIL_DECAY, .rws, 1, 255⟩,
      ⟨F.BG_RAIL_SLEW, .rws, 1, 255⟩,
      ⟨F.BG_RAIL_RAIL_MAX, .rws, 10, 160⟩,
      ⟨F.BG_RAIL_RAIL_MIN, .rws, 0, 160⟩]
  | .BG_STAT => [
      ⟨F.BG_STAT_TARGET, .ro, 0, 65535⟩,
      ⟨F.BG_STAT_CAPPED, .ro, 0, 1⟩,
      ⟨F.BG_STAT_CMD, .ro, 0, 3⟩]
  | .FLT_CTL => [
      ⟨F.FLT_CTL_ARM, .rw, 0, 1⟩,
      ⟨F.FLT_CTL_CELL_DELAY, .rws, 0, 640⟩,
      ⟨F.FLT_CTL_LIM_START, .rws, 50, 99⟩,
      ⟨F.FLT_CTL_MEAS_V, .rws, 2, 20⟩]
  | .FLT_FUSE0 => [
      ⟨F.FLT_FUSE0_E_RELEASE_CEIL, .ro, 0, 65535⟩,
      ⟨F.FLT_FUSE0_E_STORE_CEIL, .ro, 0, 65535⟩]
  | .FLT_FUSE1 => [
      ⟨F.FLT_FUSE1_E_WINDOW_CEIL, .ro, 0, 65535⟩]
  | .FLT_TRIPS => [
      ⟨F.FLT_TRIPS_TRIPS, .rcl, 0, 4294967295⟩]
  | .FLT_TRIPPED => [
      ⟨F.FLT_TRIPPED_CH, .ro, 0, 4294967295⟩]
  | .FLT_LIMITING => [
      ⟨F.FLT_LIMITING_CH, .ro, 0, 4294967295⟩]
  | .FLT_GRP => [
      ⟨F.FLT_GRP_E_STORE_MAX, .rws, 1, 65535⟩,
      ⟨F.FLT_GRP_C_DECL, .rws, 0, 65535⟩]
  | .FLT_CAP => [
      ⟨F.FLT_CAP_C_MEAS, .ro, 0, 65535⟩,
      ⟨F.FLT_CAP_CAUSE, .ro, 0, 7⟩,
      ⟨F.FLT_CAP_USED_MEAS, .ro, 0, 1⟩,
      ⟨F.FLT_CAP_MEAS, .ro, 0, 7⟩]
  | .FLT_VE => [
      ⟨F.FLT_VE_V0, .ro, 0, 65535⟩,
      ⟨F.FLT_VE_V_E, .ro, 0, 65535⟩]
  | .FLT_REL => [
      ⟨F.FLT_REL_E_RELEASE_MAX, .rws, 1, 65535⟩]
  | .LW_CTL => [
      ⟨F.LW_CTL_ARM, .rw, 0, 1⟩,
      ⟨F.LW_CTL_EN, .rws, 0, 1⟩]
  | .LW_DEV => [
      ⟨F.LW_DEV_CH, .ro, 0, 4294967295⟩]
  | .LW_EVENTS => [
      ⟨F.LW_EVENTS_EVENTS, .rcl, 0, 4294967295⟩]
  | .LW_SWEEP_STAT => [
      ⟨F.LW_SWEEP_STAT_SWEEP, .ro, 0, 65535⟩,
      ⟨F.LW_SWEEP_STAT_POINT, .ro, 0, 255⟩,
      ⟨F.LW_SWEEP_STAT_STATE, .ro, 0, 7⟩]
  | .TDM_CTL => [
      ⟨F.TDM_CTL_ARM, .rw, 0, 1⟩,
      ⟨F.TDM_CTL_RING_DIR, .rws, 0, 1⟩,
      ⟨F.TDM_CTL_RING, .rws, 0, 1⟩,
      ⟨F.TDM_CTL_AG, .rws, 0, 4⟩,
      ⟨F.TDM_CTL_SYNC, .rws, 0, 1⟩,
      ⟨F.TDM_CTL_MASTER, .rws, 0, 1⟩,
      ⟨F.TDM_CTL_FORMAT, .rws, 0, 2⟩,
      ⟨F.TDM_CTL_TX_EN, .rws, 0, 1⟩,
      ⟨F.TDM_CTL_RX_EN, .rws, 0, 1⟩]
  | .TDM_FRAME => [
      ⟨F.TDM_FRAME_FS, .rws, 0, 6⟩,
      ⟨F.TDM_FRAME_SLOTS, .rws, 1, 32⟩,
      ⟨F.TDM_FRAME_DLY, .rws, 0, 1⟩,
      ⟨F.TDM_FRAME_SLOT_BITS, .rws, 0, 2⟩,
      ⟨F.TDM_FRAME_BCLK_POL, .rws, 0, 1⟩,
      ⟨F.TDM_FRAME_FS_WIDTH, .rws, 0, 2⟩,
      ⟨F.TDM_FRAME_FS_INV, .rws, 0, 1⟩]
  | .TDM_MASK_RX => [
      ⟨F.TDM_MASK_RX_MASK, .rws, 0, 4294967295⟩]
  | .TDM_MASK_TX => [
      ⟨F.TDM_MASK_TX_MASK, .rws, 0, 4294967295⟩]
  | .TDM_PACK => [
      ⟨F.TDM_PACK_BLOCK_N, .rw, 1, 192⟩,
      ⟨F.TDM_PACK_PACK, .rw, 0, 3⟩]
  | .TDM_RING_BASE => [
      ⟨F.TDM_RING_BASE_BASE, .rw, 0, 4294967295⟩]
  | .TDM_RING_CFG => [
      ⟨F.TDM_RING_CFG_RECSZ, .ro, 0, 65535⟩,
      ⟨F.TDM_RING_CFG_SIZE, .rw, 1, 12⟩]
  | .TDM_RING_IDX => [
      ⟨F.TDM_RING_IDX_PI, .rw, 0, 65535⟩,
      ⟨F.TDM_RING_IDX_CI, .rw, 0, 65535⟩]
  | .TDM_STAT => [
      ⟨F.TDM_STAT_PHASE, .ro, 0, 65535⟩,
      ⟨F.TDM_STAT_MODE, .ro, 0, 3⟩,
      ⟨F.TDM_STAT_IDX_ERR, .w1c, 0, 1⟩,
      ⟨F.TDM_STAT_UNDERRUN, .ro, 0, 1⟩,
      ⟨F.TDM_STAT_STATE, .ro, 0, 7⟩]
  | .TDM_ERR => [
      ⟨F.TDM_ERR_UNDERRUN, .rcl, 0, 255⟩,
      ⟨F.TDM_ERR_LATE, .rcl, 0, 255⟩,
      ⟨F.TDM_ERR_OVERRUN, .rcl, 0, 255⟩,
      ⟨F.TDM_ERR_FRAMING, .rcl, 0, 255⟩]
  | .TDM_AG_STAT => [
      ⟨F.TDM_AG_STAT_MEMBERS, .ro, 0, 65535⟩,
      ⟨F.TDM_AG_STAT_FS, .ro, 0, 7⟩,
      ⟨F.TDM_AG_STAT_STATE, .ro, 0, 3⟩]
  | .PDM_CTL => [
      ⟨F.PDM_CTL_ARM, .rw, 0, 1⟩,
      ⟨F.PDM_CTL_CLK, .rws, 0, 1⟩,
      ⟨F.PDM_CTL_HPF, .rws, 0, 1⟩,
      ⟨F.PDM_CTL_MIC1_EN, .rws, 0, 1⟩,
      ⟨F.PDM_CTL_MIC0_EN, .rws, 0, 1⟩]
  | .PDM_GAIN => [
      ⟨F.PDM_GAIN_GAIN1, .rws, 0, 65535⟩,
      ⟨F.PDM_GAIN_GAIN0, .rws, 0, 65535⟩]
  | .PDM_STAT => [
      ⟨F.PDM_STAT_RUN, .ro, 0, 1⟩,
      ⟨F.PDM_STAT_STUCK1, .ro, 0, 1⟩,
      ⟨F.PDM_STAT_STUCK0, .ro, 0, 1⟩]
  | .PDM_ERR => [
      ⟨F.PDM_ERR_STUCK1, .rcl, 0, 255⟩,
      ⟨F.PDM_ERR_STUCK0, .rcl, 0, 255⟩,
      ⟨F.PDM_ERR_CLIP1, .rcl, 0, 255⟩,
      ⟨F.PDM_ERR_CLIP0, .rcl, 0, 255⟩]
  | .PDM_LEVEL => [
      ⟨F.PDM_LEVEL_PEAK1, .rcl, 0, 65535⟩,
      ⟨F.PDM_LEVEL_PEAK0, .rcl, 0, 65535⟩]
  | .NET_CTL => [
      ⟨F.NET_CTL_MAX_FRAME, .rw, 1518, 9216⟩,
      ⟨F.NET_CTL_PAUSE_OBEY, .rw, 0, 1⟩,
      ⟨F.NET_CTL_AN_EN, .rw, 0, 1⟩,
      ⟨F.NET_CTL_MODE, .rw, 0, 2⟩,
      ⟨F.NET_CTL_EN, .rw, 0, 1⟩]
  | .NET_STAT => [
      ⟨F.NET_STAT_PAUSED, .ro, 0, 1⟩,
      ⟨F.NET_STAT_PAUSE_RES, .ro, 0, 3⟩,
      ⟨F.NET_STAT_REMOTE_FAULT, .ro, 0, 1⟩,
      ⟨F.NET_STAT_LOCAL_FAULT, .ro, 0, 1⟩,
      ⟨F.NET_STAT_LOS, .ro, 0, 1⟩,
      ⟨F.NET_STAT_MOD_ABS, .ro, 0, 1⟩,
      ⟨F.NET_STAT_UP, .ro, 0, 1⟩]
  | .NET_MAC_LO => [
      ⟨F.NET_MAC_LO_MAC_LO, .rw, 0, 4294967295⟩]
  | .NET_MAC_HI => [
      ⟨F.NET_MAC_HI_MAC_HI, .rw, 0, 65535⟩]
  | .NET_PCP_MAP => [
      ⟨F.NET_PCP_MAP_UNTAGGED, .rw, 0, 7⟩,
      ⟨F.NET_PCP_MAP_Q_PCP, .rw, 0, 16777215⟩]
  | .NET_SHAPER => [
      ⟨F.NET_SHAPER_EN, .rw, 0, 1⟩,
      ⟨F.NET_SHAPER_IDLE_SLOPE, .rw, 1, 100000⟩]
  | .NET_TXQ_LIMIT => [
      ⟨F.NET_TXQ_LIMIT_P_LIMIT, .rw, 16, 448⟩,
      ⟨F.NET_TXQ_LIMIT_B_LIMIT, .rw, 16, 448⟩]
  | .NET_PTP_CFG => [
      ⟨F.NET_PTP_CFG_ANN_TIMEOUT, .rw, 2, 15⟩,
      ⟨F.NET_PTP_CFG_LOG_PDELAY, .rw, 0, 15⟩,
      ⟨F.NET_PTP_CFG_LOG_ANNOUNCE, .rw, 0, 15⟩,
      ⟨F.NET_PTP_CFG_LOG_SYNC, .rw, 0, 15⟩,
      ⟨F.NET_PTP_CFG_TC_EN, .rw, 0, 1⟩,
      ⟨F.NET_PTP_CFG_TRANSPORT, .rw, 0, 2⟩,
      ⟨F.NET_PTP_CFG_MECH, .rw, 0, 1⟩,
      ⟨F.NET_PTP_CFG_ROLE, .rw, 0, 2⟩]
  | .NET_PTP_ASYM => [
      ⟨F.NET_PTP_ASYM_ASYM, .rw, 0, 4294967295⟩]
  | .NET_PTP_LINKDLY => [
      ⟨F.NET_PTP_LINKDLY_LINKDLY, .ro, 0, 4294967295⟩]
  | .NET_IPV4 => [
      ⟨F.NET_IPV4_ADDR, .rw, 0, 4294967295⟩]
  | .NET_CNT_LO => [
      ⟨F.NET_CNT_LO_LO, .rcl, 0, 4294967295⟩]
  | .NET_CNT_HI => [
      ⟨F.NET_CNT_HI_HI, .ro, 0, 4294967295⟩]
  | .NET_FWD_STAT => [
      ⟨F.NET_FWD_STAT_ENTRIES, .ro, 0, 65535⟩,
      ⟨F.NET_FWD_STAT_COPYING, .ro, 0, 1⟩,
      ⟨F.NET_FWD_STAT_ARMED, .ro, 0, 1⟩,
      ⟨F.NET_FWD_STAT_ACTIVE, .ro, 0, 1⟩]
  | .NET_MGMT_STAT => [
      ⟨F.NET_MGMT_STAT_WAITING, .ro, 0, 511⟩]
  | .HIF_CTL => [
      ⟨F.HIF_CTL_GO, .wo, 0, 1⟩]
  | .HIF_STAT => [
      ⟨F.HIF_STAT_EVT_LOST, .rcl, 0, 65535⟩,
      ⟨F.HIF_STAT_GO_ERR, .ro, 0, 15⟩,
      ⟨F.HIF_STAT_IGNORED, .w1c, 0, 1⟩,
      ⟨F.HIF_STAT_STATE, .ro, 0, 1⟩]
  | .HIF_IGN_ADDR => [
      ⟨F.HIF_IGN_ADDR_OFFSET, .ro, 0, 33554431⟩]
  | .HIF_CFG_GEN => [
      ⟨F.HIF_CFG_GEN_GEN, .ro, 0, 4294967295⟩]
  | .HIF_RING_BASE_LO => [
      ⟨F.HIF_RING_BASE_LO_BASE, .rw, 0, 4294967295⟩]
  | .HIF_RING_BASE_HI => [
      ⟨F.HIF_RING_BASE_HI_BASE, .rw, 0, 4294967295⟩]
  | .HIF_RING_CFG => [
      ⟨F.HIF_RING_CFG_TYPE, .rw, 0, 4⟩,
      ⟨F.HIF_RING_CFG_SIZE, .rw, 4, 16⟩,
      ⟨F.HIF_RING_CFG_CLASS, .rw, 0, 2⟩,
      ⟨F.HIF_RING_CFG_VECTOR, .rw, 0, 63⟩,
      ⟨F.HIF_RING_CFG_PAIR, .rw, 0, 31⟩,
      ⟨F.HIF_RING_CFG_COAL, .rw, 0, 2⟩,
      ⟨F.HIF_RING_CFG_EN, .rw, 0, 1⟩]
  | .HIF_RING_AUD => [
      ⟨F.HIF_RING_AUD_RATE, .rw, 0, 1⟩,
      ⟨F.HIF_RING_AUD_CHANNELS, .rw, 1, 128⟩,
      ⟨F.HIF_RING_AUD_INDEX, .rw, 0, 15⟩]
  | .HIF_RING_IDX => [
      ⟨F.HIF_RING_IDX_HOST_IDX, .ro, 0, 65535⟩,
      ⟨F.HIF_RING_IDX_DEV_IDX, .ro, 0, 65535⟩]
  | .HIF_RING_STAT => [
      ⟨F.HIF_RING_STAT_FRAMES_LOST, .rcl, 0, 65535⟩,
      ⟨F.HIF_RING_STAT_OWN_MISS, .w1c, 0, 1⟩,
      ⟨F.HIF_RING_STAT_IDX_ERR, .w1c, 0, 1⟩,
      ⟨F.HIF_RING_STAT_STATE, .ro, 0, 3⟩]
  | .PMP_CH_CTL => [
      ⟨F.PMP_CH_CTL_KICK, .wo, 0, 1⟩,
      ⟨F.PMP_CH_CTL_TRIG_TICK, .rw, 0, 1⟩,
      ⟨F.PMP_CH_CTL_TRIG_LINE, .rw, 0, 255⟩,
      ⟨F.PMP_CH_CTL_RETRY_N, .rw, 0, 7⟩,
      ⟨F.PMP_CH_CTL_SHARE, .rw, 1, 64⟩,
      ⟨F.PMP_CH_CTL_QOS, .rw, 2, 6⟩,
      ⟨F.PMP_CH_CTL_CLASS, .rw, 0, 2⟩,
      ⟨F.PMP_CH_CTL_ABORT, .wo, 0, 1⟩,
      ⟨F.PMP_CH_CTL_EN, .rw, 0, 1⟩]
  | .PMP_CH_RING_LO => [
      ⟨F.PMP_CH_RING_LO_BASE_LO, .rw, 0, 4294967295⟩]
  | .PMP_CH_RING_HI => [
      ⟨F.PMP_CH_RING_HI_BASE_HI, .rw, 0, 4294967295⟩]
  | .PMP_CH_RING_CFG => [
      ⟨F.PMP_CH_RING_CFG_EVT_SEL, .rw, 0, 15⟩,
      ⟨F.PMP_CH_RING_CFG_EVT_CL, .rw, 0, 31⟩,
      ⟨F.PMP_CH_RING_CFG_ERR_EN, .rw, 0, 1⟩,
      ⟨F.PMP_CH_RING_CFG_ERR_LINE, .rw, 128, 255⟩,
      ⟨F.PMP_CH_RING_CFG_HOST, .rw, 0, 1⟩,
      ⟨F.PMP_CH_RING_CFG_SIZE, .rw, 0, 12⟩]
  | .PMP_CH_IDX => [
      ⟨F.PMP_CH_IDX_INDEX, .rw, 0, 65535⟩]
  | .PMP_CH_STAT => [
      ⟨F.PMP_CH_STAT_STATUS, .ro, 0, 65535⟩,
      ⟨F.PMP_CH_STAT_PENDING, .ro, 0, 1⟩,
      ⟨F.PMP_CH_STAT_IDX_ERR, .w1c, 0, 1⟩,
      ⟨F.PMP_CH_STAT_INT, .w1c, 0, 1⟩,
      ⟨F.PMP_CH_STAT_STATE, .ro, 0, 7⟩]
  | .PMP_CH_RES => [
      ⟨F.PMP_CH_RES_RESIDUE, .ro, 0, 4294967295⟩]
  | .PMP_CH_CNT => [
      ⟨F.PMP_CH_CNT_DESC, .rcl, 0, 4294967295⟩]
  | .PMP_SUM => [
      ⟨F.PMP_SUM_BUSY, .ro, 0, 65535⟩,
      ⟨F.PMP_SUM_INT, .ro, 0, 65535⟩]
  | .DPR_CTL => [
      ⟨F.DPR_CTL_PERIOD, .rw, 1, 3600⟩,
      ⟨F.DPR_CTL_EN, .rw, 0, 1⟩]
  | .DPR_STAT => [
      ⟨F.DPR_STAT_PASSES, .rcl, 0, 65535⟩,
      ⟨F.DPR_STAT_LATE, .rcl, 0, 255⟩,
      ⟨F.DPR_STAT_STATE, .ro, 0, 3⟩]
  | .RG_ECC_CNT0 => [
      ⟨F.RG_ECC_CNT0_X, .rcl, 0, 65535⟩,
      ⟨F.RG_ECC_CNT0_PROG, .rcl, 0, 65535⟩]
  | .RG_ECC_CNT1 => [
      ⟨F.RG_ECC_CNT1_CIS, .rcl, 0, 65535⟩,
      ⟨F.RG_ECC_CNT1_Y, .rcl, 0, 65535⟩]
  | .RG_ECC_CNT2 => [
      ⟨F.RG_ECC_CNT2_UE, .rcl, 0, 65535⟩,
      ⟨F.RG_ECC_CNT2_TILE, .rcl, 0, 65535⟩]
  | .DPR_CISWIN => [
      ⟨F.DPR_CISWIN_VALID, .ro, 0, 1⟩,
      ⟨F.DPR_CISWIN_LEN, .rw, 0, 512⟩,
      ⟨F.DPR_CISWIN_BASE, .rw, 0, 511⟩]
  | .DPR_HUB_CTL => [
      ⟨F.DPR_HUB_CTL_DDR_PERIOD, .rw, 1, 1440⟩,
      ⟨F.DPR_HUB_CTL_SRAM_PERIOD, .rw, 1, 3600⟩,
      ⟨F.DPR_HUB_CTL_EN, .rw, 0, 1⟩]
  | .DPR_HUB_STAT => [
      ⟨F.DPR_HUB_STAT_SRAM_PASSES, .rcl, 0, 255⟩,
      ⟨F.DPR_HUB_STAT_DDR_PASSES, .rcl, 0, 255⟩,
      ⟨F.DPR_HUB_STAT_LATE, .rcl, 0, 255⟩,
      ⟨F.DPR_HUB_STAT_DDR_STATE, .ro, 0, 3⟩,
      ⟨F.DPR_HUB_STAT_SRAM_STATE, .ro, 0, 3⟩]
  | .DPR_HUB_CNT0 => [
      ⟨F.DPR_HUB_CNT0_NETBUF, .rcl, 0, 65535⟩,
      ⟨F.DPR_HUB_CNT0_TCM, .rcl, 0, 65535⟩]
  | .DPR_HUB_CNT1 => [
      ⟨F.DPR_HUB_CNT1_UE, .rcl, 0, 65535⟩,
      ⟨F.DPR_HUB_CNT1_HUBSRAM, .rcl, 0, 65535⟩]
  | .DPR_DDR_CNT => [
      ⟨F.DPR_DDR_CNT_UE, .rcl, 0, 65535⟩,
      ⟨F.DPR_DDR_CNT_CE, .rcl, 0, 65535⟩]
  | .DPR_BIST => [
      ⟨F.DPR_BIST_DONE, .ro, 0, 1⟩,
      ⟨F.DPR_BIST_HUB_FAIL, .ro, 0, 1⟩,
      ⟨F.DPR_BIST_CL_FAIL, .ro, 0, 16777215⟩]
  | .DPR_LOGSTAT => [
      ⟨F.DPR_LOGSTAT_OVERWRITTEN, .rcl, 0, 65535⟩,
      ⟨F.DPR_LOGSTAT_COUNT, .ro, 0, 63⟩]
  | .DPR_LOG0 => [
      ⟨F.DPR_LOG0_VALID, .ro, 0, 1⟩,
      ⟨F.DPR_LOG0_UE, .ro, 0, 1⟩,
      ⟨F.DPR_LOG0_REQ, .ro, 0, 7⟩,
      ⟨F.DPR_LOG0_MEM, .ro, 0, 7⟩,
      ⟨F.DPR_LOG0_SYNDROME, .ro, 0, 255⟩,
      ⟨F.DPR_LOG0_INSTANCE, .ro, 0, 255⟩]
  | .DPR_LOG1 => [
      ⟨F.DPR_LOG1_WORD, .ro, 0, 4294967295⟩]
  | .DPR_LOG2 => [
      ⟨F.DPR_LOG2_MTS, .ro, 0, 4294967295⟩]
  | .SMP_CTL => [
      ⟨F.SMP_CTL_INJ_EN, .rw, 0, 1⟩]
  | .SMP_STAT => [
      ⟨F.SMP_STAT_HB_MISS, .ro, 0, 1⟩,
      ⟨F.SMP_STAT_YIELD, .ro, 0, 1⟩,
      ⟨F.SMP_STAT_ALIVE_RUN, .ro, 0, 1⟩,
      ⟨F.SMP_STAT_CAPPED, .ro, 0, 1⟩,
      ⟨F.SMP_STAT_ACTIVE, .ro, 0, 1⟩,
      ⟨F.SMP_STAT_PKG_LEVEL, .ro, 0, 7⟩]
  | .SMP_LOGSTAT => [
      ⟨F.SMP_LOGSTAT_OVERWRITTEN, .rcl, 0, 65535⟩,
      ⟨F.SMP_LOGSTAT_COUNT, .ro, 0, 127⟩]
  | .SMP_LOG0 => [
      ⟨F.SMP_LOG0_VALID, .ro, 0, 1⟩,
      ⟨F.SMP_LOG0_INJ, .ro, 0, 1⟩,
      ⟨F.SMP_LOG0_DRY, .ro, 0, 1⟩,
      ⟨F.SMP_LOG0_QUENCHED, .ro, 0, 1⟩,
      ⟨F.SMP_LOG0_ESC, .ro, 0, 1⟩,
      ⟨F.SMP_LOG0_LEVEL, .ro, 0, 7⟩,
      ⟨F.SMP_LOG0_SUBJECT, .ro, 0, 255⟩,
      ⟨F.SMP_LOG0_DET, .ro, 0, 65535⟩]
  | .SMP_LOG1 => [
      ⟨F.SMP_LOG1_KIND, .ro, 0, 255⟩,
      ⟨F.SMP_LOG1_DETAIL, .ro, 0, 16777215⟩]
  | .SMP_LOG2 => [
      ⟨F.SMP_LOG2_MTS, .ro, 0, 4294967295⟩]
  | .SMP_CLASS_CTL => [
      ⟨F.SMP_CLASS_CTL_WACK_MAX, .rw, 0, 2⟩,
      ⟨F.SMP_CLASS_CTL_TIMER, .rw, 1, 1000000⟩]
  | .SMP_CLASS_STAT => [
      ⟨F.SMP_CLASS_STAT_QUENCHED, .rcl, 0, 255⟩,
      ⟨F.SMP_CLASS_STAT_FAULTS, .rcl, 0, 255⟩,
      ⟨F.SMP_CLASS_STAT_ESCALATIONS, .rcl, 0, 255⟩,
      ⟨F.SMP_CLASS_STAT_UNACK, .ro, 0, 1⟩,
      ⟨F.SMP_CLASS_STAT_PEND, .ro, 0, 7⟩,
      ⟨F.SMP_CLASS_STAT_ACTIVE, .ro, 0, 1⟩,
      ⟨F.SMP_CLASS_STAT_LEVEL, .ro, 0, 7⟩]
  | .SMP_FAM => [
      ⟨F.SMP_FAM_INJ, .wo, 0, 1⟩,
      ⟨F.SMP_FAM_DRY, .wo, 0, 1⟩,
      ⟨F.SMP_FAM_INJ_SUBJ, .rw, 0, 255⟩,
      ⟨F.SMP_FAM_INJ_INST, .rw, 0, 255⟩,
      ⟨F.SMP_FAM_MIN, .ro, 0, 7⟩,
      ⟨F.SMP_FAM_LEVEL, .rw, 0, 4⟩]
  | .TW_CTL => [
      ⟨F.TW_CTL_HOME_THRESHOLD, .rw, 0, 255⟩,
      ⟨F.TW_CTL_HOME, .rw, 0, 1⟩,
      ⟨F.TW_CTL_SIDE, .rw, 0, 1⟩,
      ⟨F.TW_CTL_EN, .rw, 0, 1⟩]
  | .TW_TIMERS => [
      ⟨F.TW_TIMERS_HOME_HOLD, .rw, 1, 3600⟩,
      ⟨F.TW_TIMERS_PAIR_WAIT, .rw, 10, 4000⟩]
  | .TW_SYNC => [
      ⟨F.TW_SYNC_RESYNC_MAX, .rw, 10, 255⟩,
      ⟨F.TW_SYNC_LOCK_TICKS, .rw, 1, 65535⟩]
  | .TW_MIRROR => [
      ⟨F.TW_MIRROR_PDM, .rw, 0, 255⟩,
      ⟨F.TW_MIRROR_TDM, .rw, 0, 65535⟩]
  | .TW_STAT => [
      ⟨F.TW_STAT_PEER_SCORE, .ro, 0, 255⟩,
      ⟨F.TW_STAT_SCORE, .ro, 0, 255⟩,
      ⟨F.TW_STAT_SYNC_CAUSE, .ro, 0, 7⟩,
      ⟨F.TW_STAT_T1_UP, .ro, 0, 1⟩,
      ⟨F.TW_STAT_T0_UP, .ro, 0, 1⟩,
      ⟨F.TW_STAT_PYIELD, .ro, 0, 1⟩,
      ⟨F.TW_STAT_PALIVE_OK, .ro, 0, 1⟩,
      ⟨F.TW_STAT_SPLIT, .ro, 0, 1⟩,
      ⟨F.TW_STAT_LOCKSTEP, .ro, 0, 1⟩,
      ⟨F.TW_STAT_PARTNER, .ro, 0, 1⟩,
      ⟨F.TW_STAT_SYNC_PHASE, .ro, 0, 7⟩,
      ⟨F.TW_STAT_ROLE, .ro, 0, 7⟩]
  | .TW_HEALTH_LO => [
      ⟨F.TW_HEALTH_LO_WORD, .ro, 0, 4294967295⟩]
  | .TW_HEALTH_HI => [
      ⟨F.TW_HEALTH_HI_WORD, .ro, 0, 4294967295⟩]
  | .TW_PEER_LO => [
      ⟨F.TW_PEER_LO_WORD, .ro, 0, 4294967295⟩]
  | .TW_PEER_HI => [
      ⟨F.TW_PEER_HI_WORD, .ro, 0, 4294967295⟩]
  | .TW_CNT => [
      ⟨F.TW_CNT_TAKEOVERS, .rcl, 0, 255⟩,
      ⟨F.TW_CNT_MISMATCHES, .rcl, 0, 255⟩,
      ⟨F.TW_CNT_RESYNCS, .rcl, 0, 255⟩,
      ⟨F.TW_CNT_MIRROR_LOST, .rcl, 0, 255⟩]
  | .TW_SYNC_RGN_BASE => [
      ⟨F.TW_SYNC_RGN_BASE_BASE, .rw, 0, 1835007⟩]
  | .TW_SYNC_RGN_LEN => [
      ⟨F.TW_SYNC_RGN_LEN_LEN, .rw, 0, 1835008⟩]
  | .TW_LINK => [
      ⟨F.TW_LINK_MISSED, .rcl, 0, 255⟩,
      ⟨F.TW_LINK_UP, .ro, 0, 1⟩,
      ⟨F.TW_LINK_DELAY, .ro, 0, 65535⟩]
  | .TW_PARTNER_ID => [
      ⟨F.TW_PARTNER_ID_ID, .ro, 0, 4294967295⟩]
  | .RW_CTL => [
      ⟨F.RW_CTL_COMPACT_PCT, .rw, 50, 95⟩]
  | .RW_STAT => [
      ⟨F.RW_STAT_QSPI_ERR, .w1c, 0, 1⟩,
      ⟨F.RW_STAT_COMPACTING, .ro, 0, 1⟩,
      ⟨F.RW_STAT_COPY, .ro, 0, 1⟩,
      ⟨F.RW_STAT_CLAMPED, .w1c, 0, 1⟩,
      ⟨F.RW_STAT_FACTORY, .ro, 0, 1⟩,
      ⟨F.RW_STAT_WARM, .ro, 0, 1⟩,
      ⟨F.RW_STAT_STAGE, .ro, 0, 7⟩]
  | .RW_SCHEMA => [
      ⟨F.RW_SCHEMA_SCHEMA, .ro, 0, 65535⟩]
  | .RW_DURABLE => [
      ⟨F.RW_DURABLE_GEN, .ro, 0, 4294967295⟩]
  | .RW_PENDING => [
      ⟨F.RW_PENDING_RECORDS, .ro, 0, 65535⟩,
      ⟨F.RW_PENDING_KIB, .ro, 0, 65535⟩]
  | .RW_LOG => [
      ⟨F.RW_LOG_USED, .ro, 0, 255⟩,
      ⟨F.RW_LOG_COMPACTIONS, .rcl, 0, 65535⟩]
  | .RW_CAUSE => [
      ⟨F.RW_CAUSE_RESETS, .ro, 0, 65535⟩,
      ⟨F.RW_CAUSE_LEVEL, .ro, 0, 7⟩,
      ⟨F.RW_CAUSE_CAUSE, .ro, 0, 7⟩]
  | .RW_TIMES => [
      ⟨F.RW_TIMES_READY_MS, .ro, 0, 65535⟩,
      ⟨F.RW_TIMES_RESTORE_MS, .ro, 0, 65535⟩]
  | .RW_PWR_STAT => [
      ⟨F.RW_PWR_STAT_ISLANDS, .ro, 0, 63⟩,
      ⟨F.RW_PWR_STAT_ARMED, .ro, 0, 1⟩,
      ⟨F.RW_PWR_STAT_MOVING, .ro, 0, 1⟩,
      ⟨F.RW_PWR_STAT_TARGET, .ro, 0, 3⟩,
      ⟨F.RW_PWR_STAT_STATE, .ro, 0, 3⟩]
  | .SEC_STATE => [
      ⟨F.SEC_STATE_SVN, .ro, 0, 127⟩,
      ⟨F.SEC_STATE_CEIL_LOCK, .ro, 0, 1⟩,
      ⟨F.SEC_STATE_DBG_KEY, .ro, 0, 1⟩,
      ⟨F.SEC_STATE_FW_KEY, .ro, 0, 1⟩,
      ⟨F.SEC_STATE_SEALED, .ro, 0, 1⟩]
  | .SEC_UID => [
      ⟨F.SEC_UID_ID, .ro, 0, 4294967295⟩]
  | .SEC_HWTYPE => [
      ⟨F.SEC_HWTYPE_HWTYPE, .ro, 0, 4294967295⟩]
  | .SEC_FW_STAT => [
      ⟨F.SEC_FW_STAT_STATE_B, .ro, 0, 15⟩,
      ⟨F.SEC_FW_STAT_STATE_A, .ro, 0, 15⟩,
      ⟨F.SEC_FW_STAT_REJ_CAUSE, .ro, 0, 15⟩,
      ⟨F.SEC_FW_STAT_REJ_BANK, .ro, 0, 1⟩,
      ⟨F.SEC_FW_STAT_RESTARTED, .ro, 0, 1⟩,
      ⟨F.SEC_FW_STAT_MODE, .ro, 0, 3⟩,
      ⟨F.SEC_FW_STAT_RUNNING, .ro, 0, 1⟩]
  | .SEC_FW_VER => [
      ⟨F.SEC_FW_VER_VERSION, .ro, 0, 4294967295⟩]
  | .SEC_RCV_CTL => [
      ⟨F.SEC_RCV_CTL_GO, .wo, 0, 1⟩,
      ⟨F.SEC_RCV_CTL_OP, .rw, 0, 3⟩,
      ⟨F.SEC_RCV_CTL_BANK, .rw, 0, 1⟩,
      ⟨F.SEC_RCV_CTL_PAGE, .rw, 0, 2047⟩,
      ⟨F.SEC_RCV_CTL_LEN, .rw, 0, 4095⟩]
  | .SEC_RCV_STAT => [
      ⟨F.SEC_RCV_STAT_BUSY, .ro, 0, 1⟩,
      ⟨F.SEC_RCV_STAT_STATUS, .ro, 0, 65535⟩]
  | .SEC_RCV_CRC => [
      ⟨F.SEC_RCV_CRC_CRC, .rw, 0, 4294967295⟩]
  | .SEC_RCV_BUF => [
      ⟨F.SEC_RCV_BUF_DATA, .rw, 0, 4294967295⟩]
  | .DBG_STAT => [
      ⟨F.DBG_STAT_MIN_LEFT, .ro, 0, 511⟩,
      ⟨F.DBG_STAT_FAILS, .ro, 0, 255⟩,
      ⟨F.DBG_STAT_LOCKOUT, .ro, 0, 1⟩,
      ⟨F.DBG_STAT_DENIED, .w1c, 0, 1⟩,
      ⟨F.DBG_STAT_HALTED, .ro, 0, 1⟩,
      ⟨F.DBG_STAT_SESSION, .ro, 0, 1⟩,
      ⟨F.DBG_STAT_MAX, .ro, 0, 3⟩,
      ⟨F.DBG_STAT_LEVEL, .ro, 0, 3⟩]
  | .DBG_RUNCTL => [
      ⟨F.DBG_RUNCTL_PAIR1_HALT, .rw, 0, 1⟩,
      ⟨F.DBG_RUNCTL_PAIR0_HALT, .rw, 0, 1⟩,
      ⟨F.DBG_RUNCTL_STEP, .wo, 0, 1⟩,
      ⟨F.DBG_RUNCTL_RESUME, .wo, 0, 1⟩,
      ⟨F.DBG_RUNCTL_HALT, .wo, 0, 1⟩,
      ⟨F.DBG_RUNCTL_UNIT, .rw, 0, 255⟩]
  | .DBG_FUSE_CTL => [
      ⟨F.DBG_FUSE_CTL_GO, .wo, 0, 1⟩,
      ⟨F.DBG_FUSE_CTL_OP, .rw, 0, 3⟩,
      ⟨F.DBG_FUSE_CTL_GROUP, .rw, 0, 2⟩,
      ⟨F.DBG_FUSE_CTL_RESULT, .ro, 0, 15⟩,
      ⟨F.DBG_FUSE_CTL_WORD, .rw, 0, 11⟩]
  | .DBG_FUSE_DATA => [
      ⟨F.DBG_FUSE_DATA_DATA, .rw, 0, 4294967295⟩]
  | .CEN_STAT => [
      ⟨F.CEN_STAT_MASK, .ro, 0, 31⟩,
      ⟨F.CEN_STAT_LIVE, .ro, 0, 31⟩,
      ⟨F.CEN_STAT_STATE, .ro, 0, 3⟩]
  | .CEN_SEQ => [
      ⟨F.CEN_SEQ_SEQ, .ro, 0, 4294967295⟩]
  | .CEN_MTS => [
      ⟨F.CEN_MTS_MTS, .ro, 0, 4294967295⟩]
  | .PC_SEL => [
      ⟨F.PC_SEL_EDGE, .rw, 0, 1⟩,
      ⟨F.PC_SEL_EVENT, .rw, 0, 15⟩]
  | .PC_CNT => [
      ⟨F.PC_CNT_COUNT, .ro, 0, 4294967295⟩]
  | .PC_MTS => [
      ⟨F.PC_MTS_MTS, .ro, 0, 4294967295⟩]
  | .PC_OVF => [
      ⟨F.PC_OVF_OVF, .w1c, 0, 15⟩]
  | .PC_AGG_SEL => [
      ⟨F.PC_AGG_SEL_CL_MASK, .rw, 0, 15⟩,
      ⟨F.PC_AGG_SEL_UEV, .rw, 0, 15⟩,
      ⟨F.PC_AGG_SEL_EDGE, .rw, 0, 1⟩,
      ⟨F.PC_AGG_SEL_EVENT, .rw, 0, 7⟩]
  | .PC_AGG_CNT => [
      ⟨F.PC_AGG_CNT_COUNT, .ro, 0, 4294967295⟩]
  | .PC_AGG_MTS => [
      ⟨F.PC_AGG_MTS_MTS, .ro, 0, 4294967295⟩]
  | .PC_AGG_OVF => [
      ⟨F.PC_AGG_OVF_OVF, .w1c, 0, 15⟩]

/-- The families of R325: code, number of detector instances, factory level, MIN. -/
def faultFamilies : List (Nat × Nat × Nat × Nat) := [
  (0x00, 8, 0, 0),
  (0x01, 8, 1, 0),
  (0x02, 8, 2, 2),
  (0x10, 9, 3, 2),
  (0x11, 6, 3, 2),
  (0x12, 3, 0, 0),
  (0x13, 28, 1, 0),
  (0x20, 6, 2, 0),
  (0x21, 6, 2, 0),
  (0x22, 6, 0, 0),
  (0x23, 2, 3, 3),
  (0x24, 1, 3, 3),
  (0x30, 16, 1, 0),
  (0x31, 2, 3, 3),
  (0x32, 2, 1, 0),
  (0x33, 1, 1, 0),
  (0x34, 16, 1, 0),
  (0x35, 16, 1, 0),
  (0x40, 8, 1, 0),
  (0x41, 8, 1, 0),
  (0x50, 24, 1, 0),
  (0x51, 24, 0, 0),
  (0x52, 24, 2, 2),
  (0x53, 8, 1, 0),
  (0x54, 24, 1, 0),
  (0x60, 12, 4, 4),
  (0x61, 9, 3, 3),
  (0x62, 4, 3, 2),
  (0x70, 2, 1, 0),
  (0x71, 1, 1, 0),
  (0x72, 1, 1, 0),
  (0x73, 2, 1, 0)]

/-- The factory entries of WH_QL_MAP (R39): CLASS, ACC_MAX, QL of entries 0-7; entries 8-15 are not valid. -/
def qlMapFactory (i : Nat) : Nat :=
  match ([(6, 0x21, 1), (6, 0xFE, 2), (7, 0xFE, 4), (13, 0xFE, 5), (14, 0xFE, 7), (52, 0xFE, 9),
      (187, 0xFE, 9), (248, 0xFE, 12)] : List (Nat × Nat × Nat))[i]? with
  | some (c, a, q) => 2 ^ 31 + q * 2 ^ 16 + a * 2 ^ 8 + c
  | none => 0

/-- The factory WACK_MAX of the eight classes (R329). -/
def wackFactory (c : Nat) : Nat :=
  ([2, 1, 2, 2, 2, 2, 1, 1] : List Nat).getD c 0

/-- The factory word of SMP_FAM[f]: MIN and LEVEL of R325. -/
def famFactory (f : Nat) : Nat :=
  match faultFamilies.find? (fun x => x.1 == f) with
  | some (_, _, lvl, mn) => mn * 16 + lvl
  | none => 0

/-- The word of instance `i` of a register after power-up with no valid settings journal (R10): the number of the
map, the factory value of a Kept field. Fuse fields read 0 here (assumption 2). -/
def resetWord (r : RegId) (i : Nat) : Nat :=
  match r with
  | .MT_EPOCH => 131072
  | .MT_CTL => 2562
  | .MT_SLEW_MAX => 1000
  | .WH_CTL => 4
  | .WH_STATUS => 61455
  | .WH_BW => 655460
  | .WH_LOCK => 336199780
  | .WH_TIMERS => 39321660
  | .WH_DRIFT => 167785010
  | .WH_SLOT_CFG => 314574304 + i * 2
  | .WH_SLOT_STAT => 3840 + (if i = 15 then 3 else 0)
  | .WH_QL_MAP => qlMapFactory i
  | .WH_CLKOUT => 1 + (if i = 6 ∨ i = 7 then 32 else 0)
  | .CL_MIX_CTL => 3
  | .SP_CTL => 335546881
  | .SP_TIMING => 32768250
  | .SP_ZONE => 4278190080 + (i % 16) * 256
  | .CL_CTL => 3
  | .RG_SPARE => 287
  | .RG_PWR => 1
  | .UNIT_CTL => 32768
  | .UNIT_DONE => 4294967295
  | .UNIT_TICK_DEADLINE => 360
  | .DP_CTL => 24
  | .DP_MOD => 1044
  | .DP_STAT => 2147483648
  | .BG_CTL => 40964
  | .BG_RAIL => 85212180
  | .FLT_CTL => 41963525
  | .FLT_GRP => 4294901760
  | .FLT_REL => 65535
  | .LW_CTL => 1
  | .TDM_CTL => 17920
  | .TDM_FRAME => 264288
  | .TDM_PACK => 12291
  | .TDM_RING_CFG => 4
  | .PDM_CTL => 4
  | .NET_CTL => 397934608
  | .NET_PCP_MAP => 16434824
  | .NET_SHAPER => 1
  | .NET_TXQ_LIMIT => 20971648
  | .NET_PTP_CFG => 807207009
  | .HIF_RING_CFG => 67108864
  | .HIF_RING_AUD => 256
  | .PMP_CH_CTL => 57408
  | .PMP_CH_RING_CFG => 4096000
  | .DPR_CTL => 655361
  | .DPR_HUB_CTL => 3932181
  | .SMP_CLASS_CTL => 1000000 + wackFactory i * 2 ^ 28
  | .SMP_FAM => famFactory i
  | .TW_CTL => 49152
  | .TW_TIMERS => 3932660
  | .TW_SYNC => 1006635460
  | .RW_CTL => 75
  | .RW_PWR_STAT => 16128
  | .SEC_HWTYPE => 26345633
  | _ => 0

/-- Setup-class registers (R265, R267, R449): host writes are staged in SETUP and ignored and flagged in RUN. -/
def setupClass : RegId → Bool
  | .MT_CTL => true
  | .MT_SLEW_MAX => true
  | .WH_CTL => true
  | .WH_BW => true
  | .WH_LOCK => true
  | .WH_TIMERS => true
  | .WH_DRIFT => true
  | .WH_SLOT_CFG => true
  | .WH_QL_MAP => true
  | .WH_CLKOUT => true
  | .CL_MIX_CTL => true
  | .SP_CTL => true
  | .SP_TIMING => true
  | .SP_ZONE => true
  | .SP_WATCH_A => true
  | .SP_WATCH_B => true
  | .CL_CTL => true
  | .RG_SPARE => true
  | .UNIT_CTL => true
  | .UNIT_TICK_DEADLINE => true
  | .DP_CTL => true
  | .DP_MOD => true
  | .DP_BOOST => true
  | .BG_CTL => true
  | .BG_RAIL => true
  | .FLT_CTL => true
  | .FLT_GRP => true
  | .FLT_REL => true
  | .LW_CTL => true
  | .TDM_CTL => true
  | .TDM_FRAME => true
  | .TDM_MASK_RX => true
  | .TDM_MASK_TX => true
  | .TDM_PACK => true
  | .TDM_RING_BASE => true
  | .TDM_RING_CFG => true
  | .PDM_CTL => true
  | .PDM_GAIN => true
  | .NET_CTL => true
  | .NET_MAC_LO => true
  | .NET_MAC_HI => true
  | .NET_PCP_MAP => true
  | .NET_SHAPER => true
  | .NET_TXQ_LIMIT => true
  | .NET_PTP_CFG => true
  | .NET_PTP_ASYM => true
  | .NET_IPV4 => true
  | .HIF_CTL => true
  | .HIF_RING_BASE_LO => true
  | .HIF_RING_BASE_HI => true
  | .HIF_RING_CFG => true
  | .HIF_RING_AUD => true
  | .DPR_CTL => true
  | .DPR_CISWIN => true
  | .DPR_HUB_CTL => true
  | .SMP_CTL => true
  | .SMP_CLASS_CTL => true
  | .SMP_FAM => true
  | .TW_CTL => true
  | .TW_TIMERS => true
  | .TW_SYNC => true
  | .TW_MIRROR => true
  | .TW_SYNC_RGN_BASE => true
  | .TW_SYNC_RGN_LEN => true
  | .RW_CTL => true
  | .PC_SEL => true
  | .PC_AGG_SEL => true
  | .MT_NS => true
  | .MT_SEC_LO => true
  | .MT_SEC_HI => true
  | .MT_FRAC => true
  | .MT_TICKNO => true
  | .MT_RATE => true
  | .MT_EPOCH => true
  | .WH_STATUS => true
  | .WH_HO_RATE => true
  | .WH_HO_VALID => true
  | .WH_ABSORB_LO => true
  | .WH_ABSORB_HI => true
  | .WH_SLOT_STAT => true
  | .WH_SLOT_PHASE => true
  | .WH_SLOT_FREQ => true
  | .WH_CLKOUT_PHASE => true
  | .MT_SKEW => true
  | .PMP_CH_CTL => true
  | .PMP_CH_RING_LO => true
  | .PMP_CH_RING_HI => true
  | .PMP_CH_RING_CFG => true
  | .PMP_CH_IDX => true
  | .PMP_CH_STAT => true
  | .PMP_CH_RES => true
  | .PMP_CH_CNT => true
  | _ => false

end Sys2Proof.Machine
end

