-- ==== Sys2Proof/Config.lean ====
section
/-! DEFINITION. The open values of the spec. Each is an opaque constant with no body: nothing can evaluate it, so a claim
that holds, holds whatever the hardware gives. They are applied to the counter `State.free` (a fresh value each time) or
to the operands the value depends on. Assumption 1 lists who uses which. -/

namespace Sys2Proof.Config

/-- A value the spec leaves open, drawn at position `n` of the free-value counter (assumption 1). -/
opaque freeWord : Nat → BitVec 32

/-- The signed rate, in units of 2⁻⁴⁰, that the DPLL filter of R46 asks for: of its place in the filter's history (the counter
`State.free`), the phase error in ns, the bandwidth in the units of WH_BW and the following component in force. The spec gives
the filter by its bandwidth only. -/
opaque dpllFollow : Nat → Int → Nat → Int → BitVec 32

/-- The linear gain, in units of 2⁻²⁰, of a gain in units of 0.01 dB (R79, R82): the spec gives the decibels and no rounding. -/
opaque dbGain : Int → BitVec 32

/-- The value a stream converter gives (R58, R59), of its mode, the place of the sample among those one input sample gives (POLY) or
in the history of its ratio (ASRC), and the samples in its filter, newest first: the spec gives its delay and no coefficients. -/
opaque convFilter : Nat → Nat → List Int → BitVec 32

/-- The 2 Hz high-pass of a microphone (R235), of its input, the input before and the output before: the spec gives its order and
its −3 dB point. -/
opaque pdmHighPass : Int → Int → Int → BitVec 32

/-- The demand of a switching period in 2⁻¹⁶ V (R185): of the period's place among the eight of its sample, and the demands of the
last 32 samples in 2⁻⁶⁴ V, newest first. The spec gives the interpolator by its figures. -/
opaque interp : Nat → List Int → BitVec 32

/-- What the noise shaper of R187 adds to a leg's high time, in 2⁻¹⁶ code steps: of its order and the leg's last requantisation
errors, newest first. The spec gives the order and no coefficients. -/
opaque shaper : Nat → List Int → BitVec 32

/-- The MAC address of a port, of the unique ID and the port: the factory address of a network port (0 - 7, R10) and the address of a
twin link (8 and 9, R341). The spec says that each comes from the unique ID and gives no formula. -/
opaque factoryMac : Nat → Nat → BitVec 48

/-- What a word of a hub SRAM or tile SRAM holds, of its key: pairs of a table and an entry of it (assumption 46). The spec lays
these memories out nowhere. -/
opaque wordHolds : Nat → List (Nat × Nat)

/-- The payload of a twin-link message of a type other than BEAT and MIRROR (R342, assumption 84): the spec names its content and
gives no layout. -/
opaque twPayload : TwMsg → List Byte

/-- The bytes of a settings snapshot or of a log record's payload (R369, R370): the schema defines their layout, and the spec gives
no schema. -/
opaque schemaBytes {α : Type} : α → List Byte

/-- The Tvedlas manufacturer code in IDCODE (R395), which the spec does not state. -/
opaque manufacturer : BitVec 11

end Sys2Proof.Config
end

