-- ==== Sys2Proof/Machine/State.lean ====
section
/-! DEFINITION. The state of the block as plain data: the register file and, grouped by the chapter that names it, every
other piece of state the spec gives the machine, the queue of waiting commands last. Sparse collections are lists of
(key, value) pairs with rising keys that leave out every entry equal to its default (Machine/Ops.lean). -/

namespace Sys2Proof.Machine

/-- Why the block stops with a fault. No command of this block stops it: every error the spec describes is a status, an
event or a state change of the block itself. -/
inductive Fault where
  /-- Never raised by a meaning: kept so that the interface's type is inhabited. Safe. -/
  | none
deriving DecidableEq, Repr

/-- Why a command is refused. -/
inductive Refusal where
  /-- An arm of exec that has no meaning yet, raised by Machine/Dispatch.lean only. Safe: the block stops. -/
  | notModelled (mnemonic : String)
deriving DecidableEq, Repr

/-- A sparse collection: rising keys, no entry equal to the default its reader names. -/
abbrev AMap (α : Type) : Type := List (Nat × α)

/-- Addressed memory: (address, byte) cells, rising addresses, no cell holding 0 (what an unlisted address reads as,
assumption 3). -/
abbrev Mem : Type := List Host.Cell

/-- The Media Time counter (R11) and what runs beside it. -/
structure TimeSt where
  sec       : BitVec 48
  ns        : BitVec 32
  frac      : BitVec 32
  sub       : BitVec 8   -- the counter below its fraction, units of 2⁻⁴⁰ ns: the rate of R14 moves it in these (assumption 5)
  up        : Nat        -- whole ns of the local oscillator since POR_N release, the base of every timer (assumption 5)
  carry     : Nat        -- Media Time that passed beyond those whole ns, units of 2⁻⁴⁰ ns (assumption 5)
  next      : Nat        -- full count of the next tick start (R8)
  tick      : Nat        -- tick boundaries taken since POR_N release
  sample    : Nat        -- sample instants taken since the last tick start, 0-4
  frame     : Nat        -- drive frames launched since the last tick start, 0-64
  gap       : Bool       -- between an applied step and the first tick start of the new count: nothing is processed (R18)
  first     : Bool       -- the epoch is the one that power-up started (R16, R365)
  epochMt   : Int        -- count at the start of the epoch, moved with every step (R21)
  eligMt    : Int        -- first count at which a release is eligible, moved with every step (R21)
  freeWait  : Bool       -- FREE_WAIT of this epoch has passed (R21)
  settings  : Bool       -- the settings are valid for release (R21, R363, R375)
deriving DecidableEq, Repr

/-- A command on its way to its instant: armed in the scheduler (R26), held in long form (R25), or due at the next tick
boundary (immediate and late commands, R24, R29). -/
structure Entry where
  code   : Nat
  cmd    : Cmd
  gen    : Nat
  seq    : Nat           -- the command's number, for its completions (R278)
  target : Nat           -- extended target, full ns (R24)
  place  : Nat           -- placement instant, full ns (R29)
  held   : Bool          -- held by Windlass in long form (R25)
  late   : Bool          -- its completion carries LATE (R24)
  imm    : Bool          -- given no target (R29)
  wrote  : Bool          -- Windlass has written its shadows and ARM (R114, R115)
deriving DecidableEq, Repr

/-- What the Wellhead holds per reference slot beside WH_SLOT_STAT, WH_SLOT_PHASE and WH_SLOT_FREQ. -/
structure WhSlot where
  phase    : Int              -- the phase, unsaturated (R37), ns
  turns    : Int              -- whole periods folded out of the phase since the measurements began (R37)
  hz       : Nat              -- nominal frequency the measurements were folded with; 1 for a time-carrying slot
  at_      : Option (Nat × Int) -- last measurement: `up` and the reference's time, unfolded, in units of 1/hz ns (R37)
  valid    : Bool             -- the slot's validity condition of R36 holds
  lastEdge : Option Int       -- count at the last edge of a period slot or the last Sync of a PTP slot, moved with every step
  badEdges : Nat              -- consecutive edges off the nominal period by more than HARD (R36)
  hist     : List (Nat × Int) -- measurements of the last second and one older, newest first (R37)
  cls      : Nat              -- Announce clockClass; 256 before the first Announce
  acc      : Nat              -- Announce clockAccuracy
  peerQl   : Nat              -- partner's QL in its last BEAT (R38)
  timer    : Option Nat       -- WTR or DRIFT_HOLD deadline, in `up` (R40)
  lateWtr  : Bool             -- became valid during a switch: WTR starts at its completion (R41)
deriving DecidableEq, Repr

/-- A reference switch under way (R48). -/
structure WhSwitch where
  old    : Nat
  new    : Nat
  start  : Nat                -- tick number of T
  before : Nat                -- WH_STATUS.LOOP before the switch
  oldInv : Bool               -- the old phase is WH_ABSORB
  delta  : Option Int         -- Δ once fixed, in ns
  oldSum : Int                -- measurements of the old slot in the first tick: their unfolded phases, units of 1/hz ns
  oldN   : Nat                -- and their number
  newSum : Int                -- the same of the new slot
  newN   : Nat
deriving DecidableEq, Repr

/-- The Wellhead (R36 - R54). Rates are in units of 2⁻⁴⁰/24,000, so that 0.1 ppm/s is one whole number per tick. -/
structure WhSt where
  slots    : AMap WhSlot
  switch   : Option WhSwitch
  follow   : Int              -- following component (R46)
  bleed    : Int              -- bleed component (R46)
  absorb   : Int              -- WH_ABSORB in units of 2⁻³² ns (R46)
  rateSet  : Option Int       -- rate last accepted by MT_RATE_SET (R54), units of 2⁻⁴⁰
  openReq  : Bool             -- a WH_LOOP_OPEN waits for the end of a switch (R54)
  lockSince : Option Nat      -- `up` since which the loop is LOCKED (R42)
  critSince : Option Nat      -- `up` since which the lock criteria hold (R45)
  hoSince  : Option Nat       -- `up` since which the loop is in HOLDOVER in SERVICE (R42)
  lockDue  : Bool             -- the lock criteria were met: LOCKED is entered at the next tick boundary (R45, R47)
  hoHist   : List (Int × Nat) -- following component over the last 60 s of LOCKED: value and ticks, newest first (R51)
deriving DecidableEq, Repr


/-- A block of four Q1.31 samples, oldest first (R55, R142). -/
structure Blk where
  s0 : Int
  s1 : Int
  s2 : Int
  s3 : Int
deriving DecidableEq, Repr

def Blk.zero : Blk := ⟨0, 0, 0, 0⟩

/-- A gain ramp (R71): from g0 to g1 over n samples, its first sample the first of tick `start`. -/
structure Ramp where
  g0    : Int
  g1    : Int
  start : Nat
  n     : Nat
  shape : Nat
deriving DecidableEq, Repr

/-- A crossfade of sources (R74): the old sources with their weights over `den`, the new source, the ramp of its weight. -/
structure Fade where
  old  : List (Nat × Nat)
  den  : Nat
  new  : Nat
  ramp : Ramp
deriving DecidableEq, Repr

/-- A group served by stream converters (R58 - R60): its key, its converters, whether it is ASRC and has settled. -/
structure ConvGrp where
  key     : Nat
  count   : Nat
  asrc    : Bool
  settled : Bool
  fade    : Option Nat   -- tick in which the group ramps in or out
  out     : Bool         -- the ramp is to silence
deriving DecidableEq, Repr

/-- The Router, the matrix and the signal path (R55 - R74). Banks: 0 A, 1 B. -/
structure AudioSt where
  rt       : AMap Nat        -- Router entries: bank·4,096 + entry (R62)
  rtAct    : Nat             -- active Router bank
  rtLock   : Nat             -- 0 free or armed, 2 swapped, 3 copying (R64, R65)
  rtGen    : Nat             -- generation of the last commit
  rtOutTick : Nat            -- tick from which the output entries follow the active bank (R66)
  icFade   : AMap Fade       -- crossfades of IC slots
  dstFade  : AMap Fade       -- crossfades of destinations, by destination key
  inq      : AMap (List (Nat × Int)) -- samples present, by source key: (global sample number, value)
  ic       : AMap Blk        -- IC block k
  map      : AMap Nat        -- matrix-input map: bank·1,024 + MI (R67)
  mapAct   : Nat             -- active bank of the map
  xp       : AMap Word       -- crosspoints: (bank·24 + tile)·49,152 + index (R68)
  ow       : AMap Word       -- output words: bank·1,152 + matrix output (R69)
  mxLock   : Nat             -- matrix banks: 0 free or armed, 2 swapped, 3 copying
  mxMask   : Nat             -- tiles of the last commit
  mxTick   : Nat             -- tick of the last commit
  xpRamp   : AMap Ramp       -- crosspoint ramps: tile·49,152 + index
  miFade   : AMap Fade       -- crossfades of matrix inputs
  held     : List Entry      -- XP_SET commands held during a bank copy (R73)
  mi       : AMap Blk        -- matrix-input block k
  k3       : AMap Blk        -- KIND 3 inputs written for block k
  k3done   : List Nat        -- matrix inputs of KIND 3 delivered for block k
  miK      : List Nat        -- matrix inputs of KIND 3 whose block is in `mi`
  ab       : AMap Blk        -- aux busses of the block before
  grp      : AMap Nat        -- groups processed this block, a mask per tile (R70)
  cyc      : AMap Nat        -- cycles used this block per tile
  acc      : AMap Int        -- sums of block k, in units of 2⁻⁵¹: (output·2 + 1 for Class S)·4 + sample
  mo       : AMap Blk        -- matrix outputs of the last final block
  moS      : AMap Blk        -- the Class S sum of each
  moZ      : AMap Blk        -- what the zones alone add to OC0-OC191 (R365)
  moWord   : AMap Word       -- the output words that block was mixed with
  ocw      : AMap Blk        -- OC slots written by post-matrix inserts this tick
  oc       : AMap Blk        -- OC block last collected
  outNext  : AMap Blk        -- blocks collected for the next tick, by destination key
  outNextS : AMap Blk        -- the Class S content of those of drive channels (R214)
  outNextZ : AMap Blk        -- zone contributions of drive channels fed from OC0-OC191 (R365)
  outq     : AMap Blk        -- blocks the output stages play in this tick
  fadeTick : Nat             -- tick of the last ramp of R20 to silence
  fadeZ    : Bool            -- that ramp is of the zones alone, which were all that was heard (R365)
  muted    : Bool            -- the outputs are muted (R20, R21)
  gate     : Nat             -- outputs open: 0 all, 1 all but drive channels, 2 drive channels fed from OC0-OC191, 3 none
  gateOld  : Nat             -- the gate before tick `gateTick`, in which the outputs ramp (R380)
  gateTick : Nat
  conv     : List ConvGrp    -- groups in the order they were configured (R60)
  convHist : AMap (List Int) -- what a converter filters: the last samples of a channel, newest first, by source key, or by
                             -- destination key + 2⁴⁸ (R58)
  convq    : AMap (List Int) -- converted samples of the present tick, by destination key (R58)
  collTick : Nat             -- tick whose OC block has been collected
deriving DecidableEq, Repr

/-- A Standpipe voice (R79 - R86). -/
structure Voice where
  busy  : Bool
  auto  : Bool
  msg   : Nat
  pos   : Nat          -- samples given since the repetition began, GAP included, at 96 kHz
  left  : Nat          -- repetitions left of a commanded play; 0 without limit
  again : Bool         -- the repetition has ended and another follows GAP
  flash : Bool         -- the voice reads its flash copy (R81)
  old   : Bool         -- it finishes the repetition from the previous copy (R80)
  seq   : Nat          -- the SP_PLAY command
deriving DecidableEq, Repr

/-- A Standpipe zone (R82 - R86). -/
structure Zone where
  voice   : Option Nat -- the voice added to the zone
  auto    : Bool
  inhibit : Bool       -- after SP_STOP with OVERRIDE (R85)
  lost    : Bool       -- every watched slot has been absent for LOSS (R83)
  heard   : Bool       -- an ALARM input was active since the repetition began (R85)
  held    : Bool       -- a trigger came while an epoch restart mutes the outputs: it plays from the release on (R20)
  duck    : Option Ramp -- ramp of the duck gain, Q20
  vGain   : Option Ramp -- ramp of the voice's removal
  oldV    : Option Nat -- the voice being removed
  oldT    : Bool       -- that voice plays something else by now: its earlier play is removed (R84, R86)
deriving DecidableEq, Repr

/-- A message (R79, R80): staged bytes, the copy in use and the previous one. -/
structure Msg where
  staged  : Mem
  slot    : Nat          -- flash slot in use
  flash0  : Mem
  flash1  : Mem
  ddr     : Mem          -- the LPDDR copy
  store   : Option Entry -- the SP_MSG_COMMIT being stored
deriving DecidableEq, Repr

/-- The Standpipe beside its registers. -/
structure SpSt where
  voices : AMap Voice
  zones  : AMap Zone
  msgs   : AMap Msg
  blk    : AMap Blk     -- each voice's block of the present tick
  tails  : AMap Voice   -- earlier plays of voices that play something else, still being removed from zones (R84, R86)
  tblk   : AMap Blk     -- their blocks of the present tick
  ends   : AMap (Nat × Nat) -- the last commanded play of each voice that ended: its command and OK or SP_PREEMPTED (R86)
  raw    : Nat          -- levels of ALARM0 - ALARM7
  deb    : AMap Nat     -- debounce deadlines by input: `up` + 1
  since  : AMap Nat     -- `up` at which a debounced input last changed
  prev   : Nat          -- debounced inputs as of the previous tick start (R355)
  peer   : Nat          -- the partner's, as of the previous tick start (R355)
  watch  : AMap Nat     -- presence of IC slots: 2·(`up` since which it holds) + 1 when present
deriving DecidableEq, Repr

def AudioSt.reset : AudioSt :=
  { rt := [], rtAct := 0, rtLock := 0, rtGen := 0, rtOutTick := 0, icFade := [], dstFade := [], inq := [], ic := [],
    map := [], mapAct := 0, xp := [], ow := [], mxLock := 0, mxMask := 0, mxTick := 0, xpRamp := [], miFade := [],
    held := [], mi := [], k3 := [], k3done := [], miK := [], ab := [], grp := [], cyc := [], acc := [], mo := [],
    moS := [], moZ := [], moWord := [], ocw := [], oc := [], outNext := [], outNextS := [], outNextZ := [], outq := [],
    fadeTick := 0, fadeZ := false, muted := true, gate := 0, gateOld := 0, gateTick := 0, conv := [], convHist := [], convq := [], collTick := 0 }

def SpSt.reset : SpSt := ⟨[], [], [], [], [], [], [], 0, [], [], 0, 0, []⟩


/-- A pending write of a data register (R127, R150): seen by instructions from number `vis` on. -/
structure DWr where
  reg   : Nat
  val   : Word
  vis   : Nat
deriving DecidableEq, Repr

/-- A pending write in WB of a pointer, modifier, base, length, LC, IPC or ISF (R127, R150). -/
structure CWr where
  reg : Nat
  val : Word
  vis : Nat
deriving DecidableEq, Repr

/-- A pending write of SF bits (R127): the bits of `mask` take those of `val`. -/
structure FWr where
  mask : Nat
  val  : Nat
  vis  : Nat
deriving DecidableEq, Repr

/-- An accumulator (R121, R122): value and ASAT latch as accumulating operations see them, and those a non-accumulating
read sees before instruction `vis` (R127, R151). -/
structure AccSt where
  val : Acc72
  sat : Bool
  old : Acc72
  oldSat : Bool
  vis : Nat
deriving DecidableEq, Repr

/-- An entry of the write buffer (R135): bytes at a device address, or a raised event line. -/
structure WbEnt where
  line : Option Nat
  a    : Nat
  bs   : List Byte
  syn  : Nat
  pc   : Nat
deriving DecidableEq, Repr

/-- The registers and the pipeline of a Jalob unit (R118, R119). -/
structure UCore where
  d      : AMap Word
  c      : AMap Word        -- P, M, B, L, LC, IPC, ISF by the codes of R149
  acc    : AMap AccSt
  sf     : Nat              -- SF, the ASAT latches in its bits 12 - 15
  dq     : List DWr
  cq     : List CWr
  fq     : List FWr
  pc     : Nat
  slots  : Nat              -- delay slots left of a branch
  target : Nat              -- where the fetch goes after them
  rep    : Nat              -- repetitions left
  idx    : Nat              -- number of the next instruction to issue
  cyc    : Nat              -- cycles since the wake
  pend   : Nat              -- pending event lines (R134)
  iev    : Bool             -- pending event-line interrupt (R131)
  imask  : Nat
  wb     : List WbEnt
  keptX  : Nat × Nat        -- another master waits for the X SRAM (R117): the cycle after the last one it waited in, and how many
  keptY  : Nat × Nat        -- the same for the Y SRAM
  tick   : Nat              -- TICKNO of the tick being run
  woke   : Nat              -- `time.tick` of the last wake
deriving DecidableEq, Repr

/-- A binding entry (R142). -/
structure Bind where
  kind  : Nat
  index : Nat
  off   : Nat
deriving DecidableEq, Repr

/-- A loaded program: its header, its bindings and its LPDDR image (R89, R141 - R144). -/
structure UProg where
  post    : Bool
  cls     : Nat
  param   : Bool
  entry   : Nat
  ivec    : Nat
  binds   : List Bind
  prog    : List Byte
  x       : List Byte
  y       : List Byte
  par     : List Byte
  local_  : Nat
  remote  : Nat
  stateCh : Nat
  ready   : Option Nat       -- first `time.tick` it may run in
  damaged : Bool             -- NO_SPARE by R321
deriving DecidableEq, Repr

/-- A UNIT_LOAD accepted and not yet in its first run (R143). -/
structure ULoad where
  entry : Option Entry       -- none: a restore, whose completion is its own
  seq   : Nat
  prog  : UProg
  fired : Bool               -- its target or boundary has passed
deriving DecidableEq, Repr

/-- A unit: core, program, load, and the state of its written bindings (R140). -/
structure UnitSt where
  core   : UCore
  prog   : Option UProg
  load   : Option ULoad
  last   : AMap Blk          -- last block delivered, by kind·2,048 + index
  silent : Bool              -- its outputs wait for the next DONE
  muted  : Bool              -- MUTE has faded them out
  halted : Bool              -- held by the debug port (R389)
  stepOk : Bool              -- the debug port lets one instruction issue
  swapAt : Option (Nat × Entry) -- parameter swap: tick and commit (R146)
  copyAt : Option Nat        -- parameter copy: commit number
deriving DecidableEq, Repr

/-- A cluster reset under way (R92): the tick of T_j, whether the reload has ended well, and the number of the Sump fault
that started it. -/
structure ClRst where
  tick   : Nat
  loaded : Bool
  fault  : Option Nat
deriving DecidableEq, Repr

/-- Units, clusters and regions beside their registers (R88 - R97, R116 - R146). -/
structure EngSt where
  units  : AMap UnitSt
  clReq  : AMap (Nat × Option Nat) -- clusters whose reset begins: first tick of it, Sump fault
  clRst  : AMap ClRst
  spAt   : AMap Nat          -- takeovers: tick of the redirect, by region (0 none)
  redir  : AMap Nat          -- regions whose redirect is in force: 1
  restore : AMap Entry       -- UNIT_RESTORE at its target, by unit
  quU    : AMap Nat          -- units quenched after a takeover (R333): 1 until the spare's first wake, then `up` of the end + 2
  quC    : AMap Nat          -- clusters quenched: 1 while reset or reload lasts, then `up` of the end + 2
  woken   : Nat              -- `time.tick` + 1 of the last pulse of line 32 (R91), 0 none
deriving DecidableEq, Repr

def UCore.reset : UCore := ⟨[], [], [], 0, [], [], [], 0, 0, 0, 0, 0, 0, 0, false, 0, [], (0, 0), (0, 0), 0, 0⟩
def UnitSt.reset : UnitSt := ⟨UCore.reset, none, none, [], false, false, false, false, none, none⟩
def EngSt.reset : EngSt := ⟨[], [], [], [], [], [], [], [], 0⟩

/-- The values of a valid RX frame (R174). -/
structure RxVals where
  v      : List Int          -- output voltages, 1/128 V, by channel
  i      : List Int          -- output currents, 1/512 A
  rail0  : Nat               -- 1/256 V
  rail1  : Nat
  ib0    : Int               -- boost currents, 1/512 A
  ib1    : Int
  status : Nat
deriving DecidableEq, Repr

/-- A TX frame as launched (R170). -/
structure TxFrame where
  gf    : Nat                -- global drive-frame number S·1,536,000 + f
  mts   : Nat
  phase : Nat
  codes : List Nat           -- EDGE_A and EDGE_B of channels 0-7
  boost0 : Nat
  boost1 : Nat
  mbx   : List Byte
  claim : Nat
  bytes : List Byte          -- the 160 bytes on the lane, K28.5 as 0xBC
deriving DecidableEq, Repr

/-- A drive port beside its registers (R175, R176, R180). -/
structure DrvPort where
  rx      : RxVals
  rxOld   : RxVals           -- the values before them, used by a launch less than 150 ns after `rxAt` (R169)
  rxAt    : Nat              -- `up` of the last valid RX frame
  vr      : Nat × Nat        -- rails that both frames of the present period use (R186)
  run     : Nat              -- TX frames sent without a break, at most 2
  upTick  : Nat              -- tick from which the channels of a port in UP switch (R175)
  age     : Nat              -- launches since the last valid RX frame, at most 4
  got     : Nat              -- since the last launch: 0 no RX frame, 1 an invalid one, 2 a valid one
  good    : Nat              -- consecutive frames that count toward READY
  rttBad  : Nat              -- consecutive frames with RTT above 400 ns
  cause   : Nat              -- why the last frame in training did not count
  raised  : Bool             -- the training time-out has been reported
  since   : Nat              -- `up` of the entry to TRAIN or DOWN
  offLeft : Nat              -- TX frames still to send before electrical idle
  tx      : Option TxFrame
  out     : List (List Byte) -- mailbox chunks not yet acknowledged, the one in flight first
  outSeq  : Nat              -- SEQ_OUT of the chunk in flight, or of the last one
  outAt   : Nat              -- `up` at which it was put up
  entry   : Option Entry     -- the DP_MBX_SEND
  inSeq   : Nat              -- last SEQ_OUT received
  inBuf   : List Byte        -- a message under reception
deriving DecidableEq, Repr

/-- A boost group beside its registers (R189, R190, R195 - R197). -/
structure BoostGrp where
  mode    : Nat              -- OUT_MODE last seen
  r6      : Nat              -- reference in units of 1/1,536 V
  acc     : Nat
  hist    : List (Nat × Nat) -- SETTLE: (up, rail) of the last 10 ms, newest first
  at_     : Nat              -- `up` at which the measuring phase began
  q       : Int              -- RISE: sum of the boost-current codes
  riseN   : Nat              -- RISE: consecutive frames at V0 + MEAS_V
  over2   : Nat              -- consecutive frames above V_E + 2 V, at most 4
  over5   : Option Nat       -- `up` since which the rail exceeds 1.05·V_E
  okAt    : Option Nat       -- `up` since which it is at or below V_E
  off     : Bool             -- Hi-Z and OFF under R196
  forced  : Bool             -- DISCHARGE under R196
  on      : Nat              -- ON of the last command
deriving DecidableEq, Repr

/-- A drive channel: retry cycle, limiter, delay line and ramps (R183, R184, R201 - R206). -/
structure DrvCh where
  st     : Nat               -- 0 OFF, 1 NORMAL, 2 TRIPPED, 3 CHECK
  cause  : Nat
  retry  : Nat               -- RETRY in 10 ms
  timer  : Nat               -- `up` at which the state's timer ends
  tripAt : Nat               -- MTS of the last trip
  trips  : Nat               -- trips since power-up
  ovr    : Bool              -- one valid frame above I_TRIP, none below since
  normAt : Nat               -- `up` since which NORMAL without a trip
  gain0  : Nat               -- limiter gain in 2⁻³¹ at the start of the tick (R206)
  gain   : Nat               -- at its end
  bins   : List Nat          -- complete 100 ms bins, newest first, at most 99, in code products
  cur    : Nat               -- the current bin
  tickE  : Nat               -- energy of the present tick
  lastE  : Nat               -- energy of the last tick
  dl     : List Int          -- delay line, newest first, at most 193 samples
  g      : Ramp              -- gain of INVERT, TRIM and EN, Q3.20
  v      : Ramp              -- VFS, 1/25,600 V
  dg     : Ramp              -- ramp-in of the demand (R175, R196, R203), Q20
  dfade  : Option Fade       -- crossfade of read positions (R183)
  hist   : List Int          -- demands of the last samples in 2⁻⁶⁴ V, newest first, at most 32; [] when all are 0
  mod    : Int × Nat         -- modulation index in 2⁻³¹ and the switching period it is of (R186)
  errA   : List Int          -- shaper state of leg A: last errors in 2⁻¹⁶ code steps, newest first (R187)
  errB   : List Int
deriving DecidableEq, Repr

/-- Sums of a demodulation (R210) over the two halves of a window, in units of 2⁻¹⁹². -/
structure Demod where
  start : Nat                -- full count at which the window began
  stop  : Nat                -- full count at which it ends
  n     : Nat                -- frames of the window so far
  bad   : Nat                -- frames not valid
  hiz   : Bool               -- the channel was Hi-Z in it
  a     : List Int           -- vc, vs, ic, is of the first half
  b     : List Int           -- of the second half
deriving DecidableEq, Repr

/-- A measured point (R215): frequency, flags, |Z| in 1/64 Ω, phase in 0.01°. -/
structure ZPoint where
  freq  : Nat
  flags : Nat
  z     : Nat
  ph    : Int
deriving DecidableEq, Repr

/-- Line Watch at one pilot of a channel (R210 - R212). -/
structure Pilot where
  acc   : Demod
  last  : ZPoint
  base  : Option ZPoint
  dec   : Nat                -- decisions in force: 1 SHORT, 2 OPEN, 4 DRIFT
  cand  : Nat                -- decision of the last stable result
  candN : Nat                -- consecutive stable results that agree on it
  take  : List ZPoint        -- results taken for LW_BASELINE
  left  : Nat                -- windows left for it; 0 none under way
  fail  : Bool               -- the last LW_BASELINE found no baseline here
deriving DecidableEq, Repr

/-- A Night Sweep (R213, R214). -/
structure Sweep where
  entry  : Entry
  mask   : Nat
  pts    : List Nat
  level  : Nat
  dwell  : Nat
  mute   : Bool
  comp   : Bool
  num    : Nat
  idx    : Nat
  ptAt   : Nat               -- full count at which the point's settling began
  start  : Nat               -- MTS of the first point's start
  ended  : Nat               -- MTS of the last point's end
  ins    : Nat               -- channels that are not muted: an insert writes their OC slot (R214)
  run    : Bool
deriving DecidableEq, Repr

/-- Drive ports, Float and Line Watch (R167 - R215). -/
structure DrvSt where
  ports  : AMap DrvPort
  grps   : AMap BoostGrp
  chs    : AMap DrvCh
  dc     : AMap Nat          -- drive-channel banks: bank·192 + channel (R181)
  ln     : AMap Nat          -- line banks (R208)
  act    : Nat               -- active bank
  use    : Nat               -- bank in force at the modulators
  useAt  : Nat               -- tick from which the active bank is in force (R183)
  lock   : Nat               -- 0 free or armed, 2 swapped, 3 copying
  rampMs : Nat               -- ramp of the last commit
  shape  : Nat
  hf     : AMap Pilot
  lf     : AMap Pilot
  swBase : AMap (List ZPoint) -- sweep baselines
  swTake : Nat               -- channels whose baseline the next sweep becomes
  swCmd  : List Entry        -- LW_BASELINE commands that wait for it
  blCmd  : List Entry        -- LW_BASELINE commands in mode PILOT
  sweep  : Option Sweep
  swRec  : AMap (List ZPoint) -- records of the last sweep by channel
  swAcc  : AMap Demod
  swNum  : Nat               -- sweeps started since power-up (R215)
  binNo  : Nat               -- number of the current energy bin: full count over 100 ms (R205)
  mute   : AMap Ramp         -- gain of the Class P and B content of channels a sweep mutes (R214)
deriving DecidableEq, Repr

def RxVals.reset : RxVals := ⟨[], [], 0, 0, 0, 0, 0⟩
def DrvPort.reset : DrvPort :=
  ⟨RxVals.reset, RxVals.reset, 0, (0, 0), 0, 0, 4, 0, 0, 0, 0, false, 0, 0, none, [], 0, 0, none, 0, []⟩
def BoostGrp.reset : BoostGrp := ⟨0, 0, 0, [], 0, 0, 0, 0, none, none, false, false, 0⟩
def Ramp.flat (v : Int) : Ramp := ⟨v, v, 0, 0, 0⟩
def DrvCh.reset : DrvCh :=
  ⟨0, 0, 0, 0, 0, 0, false, 0, 2147483648, 2147483648, [], 0, 0, 0, [], Ramp.flat 0, Ramp.flat 0, Ramp.flat 1048576, none, [],
    (0, 0), [], []⟩
def Demod.zero : Demod := ⟨0, 0, 0, 0, false, [0, 0, 0, 0], [0, 0, 0, 0]⟩
def ZPoint.none : ZPoint := ⟨0, 0, 0, 0⟩
def Pilot.reset : Pilot := ⟨Demod.zero, ZPoint.none, Option.none, 0, 0, 0, [], 0, false⟩
def DrvSt.reset : DrvSt :=
  { ports := [], grps := [], chs := [], dc := [], ln := [], act := 0, use := 0, useAt := 0, lock := 0, rampMs := 0,
    shape := 0, hf := [], lf := [], swBase := [], swTake := 0, swCmd := [], blCmd := [], sweep := none,
    swRec := [], swAcc := [], swNum := 0, binNo := 0, mute := [] }


/-- A TDM port beside its registers (R216 - R233). -/
structure TdmPort where
  last    : Option Nat       -- `up` of the last frame sync
  mts     : Nat              -- MTS of the last frame sync
  lockN   : Nat              -- consecutive good frames while LOCKING
  phi     : Nat              -- φ of the first of them, ns
  frames  : List (List Word) -- frames of the open RX record, slots of its mask ascending
  recMts  : Nat              -- MTS of its first frame sync
  recMask : Nat
  seq     : Nat              -- RX block number
  gap     : Bool             -- blocks were lost before the next record
  step    : Bool             -- Media Time was stepped at the next record
  sent    : Bool             -- a frame has been sent from the TX ring since the start
  txW     : Nat              -- weight reached, of N (R230)
  txLast  : List (Nat × Word) -- last frame of a record: (slot, word)
  out     : List (Nat × Word) -- what SDOUT carried in the last frame: (slot, word)
  piLog   : List (Nat × Nat) -- (up, PI) of the writes of PI, newest first
  moved   : Nat              -- tick of the last transfer of the port's settings + 1 (R220)
deriving DecidableEq, Repr

/-- A PDM microphone (R235, R236). Gains are linear, in units of 2⁻²⁰. -/
structure PdmMic where
  skip  : Nat              -- samples still absent after an enable
  on    : Bool
  g0    : Int              -- gain before the ramp under way
  g1    : Int              -- gain it leads to
  left  : Nat              -- samples of the ramp still to come, 0-4
  hpX   : Int              -- last sample into the high-pass
  hpY   : Int              -- last sample out of it
deriving DecidableEq, Repr

/-- TDM and PDM ports. -/
structure ApSt where
  tdm   : AMap TdmPort
  mic   : AMap PdmMic        -- port·2 + microphone
  agRun : Nat                -- alignment groups that run
  agAt  : AMap Nat           -- full count of a group's first frame sync + 1
  pdmClk : AMap Nat          -- CLK of each port at its last sample instant (R236)
deriving DecidableEq, Repr

def TdmPort.reset : TdmPort := ⟨none, 0, 0, 0, [], 0, 0, 0, false, false, false, 0, [], [], [], 0⟩
def PdmMic.reset : PdmMic := ⟨0, false, 0, 0, 0, 0, 0⟩
def ApSt.reset : ApSt := ⟨[], [], 0, [], []⟩


/-- A frame in a transmit queue (R241 - R244), from the destination address to the byte before the FCS. -/
structure NetTx where
  bytes : List Byte
  from_ : Option (Nat × Nat)   -- a forwarded frame: ingress port and rx SFD, full count (R252)
  kind  : Nat                  -- 0 forwarded, 1 PTP, 2 stream, 3 management
  entry : Option Entry         -- the NET_FRAME_TX that waits for the stamp of the first copy (R261)
  bad   : Bool                 -- it leaves with its FCS inverted (R316)
deriving DecidableEq, Repr

/-- The PTP clock of a port (R253, R254). -/
structure PtpPort where
  ds      : List Byte          -- NET_PTP_DS, none given: []
  master  : List Byte          -- portIdentity of the master followed, []: none
  udp     : Bool               -- the master speaks UDP/IPv4
  mds     : List Byte          -- bytes 44-63 of its last Announce
  annAt   : Nat                -- `up` of that Announce
  seq     : Nat                -- sequence number of the next Sync or Announce sent
  annSeq  : Nat
  sync    : Option (Nat × Nat × Int) -- a two-step Sync: sequenceId, rx SFD (full count), correctionField
  s2m     : Option (Nat × Int) -- last Sync: rx SFD and t2 − t1 with corrections, units of 2⁻¹⁶ ns
  delay   : Option Int         -- mean path delay, units of 2⁻¹⁶ ns
  reqSeq  : Nat                -- Delay_Req: next sequence number
  req     : Option (Nat × Nat) -- the one in flight: sequence number, tx SFD
  pdSeq   : Nat                -- Pdelay_Req: next sequence number
  pdReq   : Option (Nat × Nat) -- the one in flight over Ethernet: sequence number, tx SFD
  pdReqU  : Option (Nat × Nat) -- the one in flight over UDP/IPv4
  pdResp  : Option (Nat × Nat × Int) -- a two-step Pdelay_Resp: sequence number, rx SFD, t2 less its correction, 2⁻¹⁶ ns
  pdRespU : Option (Nat × Nat × Int)
  syncDue : Nat                -- earliest `up` of the next Sync, Announce and Pdelay_Req sent (R254)
  annDue  : Nat
  pdDue   : Nat
deriving DecidableEq, Repr

/-- A network port beside its registers. -/
structure NetPort where
  q        : AMap (List NetTx) -- queues 0-7, oldest first
  credit   : AMap Int          -- shapers of queues 4-6, in 10⁻⁴ bit
  creditAt : Nat               -- `up` to which they have been reckoned
  txFree   : Nat               -- earliest `up` of the next frame's SFD
  txQ      : Nat               -- queue of the frame in transmission, 8 none
  pauseEnd : Option Nat        -- `up` at which the pause ends (R247)
  pauseAt  : Nat               -- `up` from which paused bit times are still to be counted
  pauseRem : Nat               -- paused time not yet counted, below 512 bit times, in 10⁻⁴ bit
  rx7      : Nat               -- bytes in the receive buffer: queue 7's reserve, and the rest (R241)
  rxO      : Nat
  mgmtAt   : Nat               -- earliest `up` of the next management frame (R261)
  txDis    : Bool              -- level of TX_DISABLE
  sent     : List Byte         -- the last frame sent, FCS included
  sentAt   : Nat               -- MTS of its SFD
  ptp      : PtpPort
deriving DecidableEq, Repr

/-- A stream: its record (R287), its counters, the positions filled or the samples of the packet under assembly. -/
structure Stream where
  img     : List Byte
  pkts    : Nat
  late    : Nat
  dups    : Nat
  lost    : Nat
  done    : List Nat           -- receive: positions filled, newest first
  buf     : List (List Int)    -- transmit: sample frames of the open packet
  heard   : Nat                -- receive: `up` until which its packets give the converter samples (R258)
deriving DecidableEq, Repr

/-- A frame on the management path (R261). -/
structure MgmtFrame where
  port  : Nat
  bytes : List Byte
  mts   : Nat
deriving DecidableEq, Repr

/-- Network ports, streams and the Forwarding Table (R238 - R262). -/
structure NetSt where
  ports : AMap NetPort
  fwd   : AMap Nat             -- banks: bank·4,096 + entry
  lock  : Nat                  -- 0 free or armed, 2 swapped
  rx    : AMap Stream          -- by stream number
  tx    : AMap Stream
  mgmt  : List MgmtFrame       -- oldest first, at most 256
  waitTx : List Entry          -- NET_FRAME_TX commands held by the rate limit
  held  : List (Nat × Nat × Nat × NetTx) -- packets a STANDBY holds (R347): tick, ports, queue, frame
  cnt   : AMap Nat             -- counter i of port p at 40·p + i (R262)
deriving DecidableEq, Repr

def PtpPort.reset : PtpPort := ⟨[], [], false, [], 0, 0, 0, none, none, none, 0, none, 0, none, none, none, none, 0, 0, 0⟩
def NetPort.reset : NetPort := ⟨[], [], 0, 0, 8, none, 0, 0, 0, 0, 0, true, [], 0, PtpPort.reset⟩
def Stream.none : Stream := ⟨[], 0, 0, 0, 0, [], [], 0⟩
def NetSt.reset : NetSt := ⟨[], [], 0, [], [], [], [], [], []⟩
/-- A completion (R277) as it is formed. -/
structure Cpl where
  seq    : Nat
  ring   : Nat              -- the CMD ring
  tag    : Nat
  code   : Nat
  armed  : Bool
  late   : Bool
  status : Nat
  gen    : Nat
  db     : Option Nat
  mts    : Nat
  result : List Nat         -- the 32-bit words from offset 0x18
deriving DecidableEq, Repr

/-- A command of a ring whose first completion is owed in ring order (R278). -/
structure Await where
  ring : Nat
  seq  : Nat
  cpl  : Option Cpl
deriving DecidableEq, Repr

/-- An event record (R281). -/
structure EvtRec where
  mts     : Nat
  typ     : Nat
  source  : Nat
  seq     : Nat
  lost    : Bool
  payload : List Byte
deriving DecidableEq, Repr

/-- A change-journal entry (R290). -/
structure JEntry where
  gen     : Nat
  sec     : Nat
  ns      : Nat
  code    : Nat
  source  : Nat
  outcome : Nat
  tag     : Nat
  status  : Nat
  ring    : Nat
deriving DecidableEq, Repr

/-- A HIN or HOUT descriptor the device holds (R283): taken and not yet returned. -/
structure AudDesc where
  ring    : Nat
  index   : Nat             -- descriptor index
  start   : Nat             -- full count of the first frame's instant
  frames  : Nat
  addr    : Nat
  samples : List (BitVec 32) -- HIN: the buffer, interleaved
  filled  : Nat             -- HOUT: frames written
  absent  : Nat
  gap     : Bool
  bad     : Bool
  late    : Bool
  db      : Option Nat
deriving DecidableEq, Repr

/-- The endpoint's configuration space (R263), with the reset values of the PCI Express specification (assumption 83). -/
structure PciCfg where
  cls   : Nat                -- class code
  pin   : Nat                -- Interrupt Pin
  power : Nat                -- PowerState: 0 D0, 3 D3hot
  mem   : Bool               -- Memory Space Enable
  bus   : Bool               -- Bus Master Enable
  bar0  : Nat                -- bases
  bar2  : Nat
  mps   : Nat                -- Max Payload Size, Max Read Request Size in bytes
  mrrs  : Nat
  cor   : Nat                -- AER status, correctable and uncorrectable
  unc   : Nat
deriving DecidableEq, Repr

def PciCfg.reset : PciCfg := ⟨0x040100, 0, 0, false, false, 0, 0, 128, 512, 0, 0⟩

/-- The host interface beside its registers (R263 - R290). -/
structure HifSt where
  pci      : PciCfg                 -- configuration space (R263)
  rdata    : Nat                    -- what the last register read gave (R264)
  finals   : List Cpl               -- final completions of armed commands not yet written, in the order of execution (R278)
  staged   : AMap Word              -- staging image, by register key (R265)
  goArmed  : Bool                   -- GO has passed its checks and applies at the next tick boundary (R265)
  journal  : List JEntry            -- oldest first, at most 256 (R290)
  evtSeq   : Nat                    -- number of the next event record (R281)
  lostPend : Bool                   -- the next record carries LOST (R281)
  cmdSeq   : Nat                    -- commands taken
  await    : List Await             -- first completions owed, in the order taken (R278)
  resv     : AMap Nat               -- CPL slots reserved for commands taken, by CPL ring (R278)
  stamps   : List (Nat × Nat × Nat) -- (ring, descriptor index, MTS) of doorbells not yet returned (R273)
  coal     : AMap (Nat × Nat)       -- per ring: unsignalled returns and `up` of the oldest (R279)
  msix     : AMap Word              -- MSI-X table words (R422), by word index
  pba      : AMap Nat               -- pending bit array, by vector
  msiSent  : AMap Nat               -- messages sent, by vector (R279)
  taken    : List AudDesc           -- audio descriptors held (R284, R285)
  houtGap  : AMap Nat               -- HOUT rings: frames lost since the last buffer (R285)
  lastCls  : AMap Nat               -- last ring served of each class (R280)
  retry    : AMap Nat               -- rings stopped at a descriptor that read OWN = 0 (R272): 1 until the next doorbell
  lastCpl  : Option Cpl             -- last completion formed
  lastEvt  : Option EvtRec          -- last event record formed
  hostMem  : Mem                    -- what the device has written into host memory
  flrSeq   : Nat                    -- commands taken before the last Function Level Reset: not completed (R266)
deriving DecidableEq, Repr


/-- A Pump channel beside its registers (R293 - R305). -/
structure PmpCh where
  trig  : Bool               -- a trigger has reached the idle channel and its descriptor is to be read
  desc  : List Byte          -- the descriptor in progress as read, none: []
  at_   : Nat                -- where it lies
  row   : Nat                -- rows moved
  off   : Nat                -- bytes of the present row moved
  next  : Nat                -- earliest `up` of the next burst (R300)
  err   : Nat                -- error response not yet handled (R304): 0 none, 1 uncorrectable word, 2 any other
  tgt   : Nat                -- cluster of the failing burst's target + 1, 0 none (R333)
  retry : Nat                -- retries made of the present burst
deriving DecidableEq, Repr

/-- The Pumps: channels by instance (16·Pump + channel), and the channel last served by each Pump (R299). -/
structure PmpSt where
  ch   : AMap PmpCh
  last : AMap Nat
deriving DecidableEq, Repr

def PmpCh.reset : PmpCh := ⟨false, [], 0, 0, 0, 0, 0, 0, 0⟩
def PmpSt.reset : PmpSt := ⟨[], []⟩

/-- An open merge entry of a memory port (R312): the word and its byte-valid bits. The merged bytes themselves are in the
memory at once, since every read of the word is served from the entry (R313). -/
structure MergeEnt where
  word  : Nat
  valid : Nat
deriving DecidableEq, Repr

/-- An entry of an ECC log: the words of DPR_LOG0 - DPR_LOG2 (R317). -/
structure EccEnt where
  w0  : Nat
  w1  : Nat
  mts : Nat
deriving DecidableEq, Repr

/-- A Dipper (R318): the start and the end of its last pass, and the words it has reported (R320), oldest first. -/
structure DipSt where
  start : Nat
  stop  : Nat
  known : List Nat
deriving DecidableEq, Repr

/-- Memory and its integrity (R103, R104, R307 - R323). Words are named by `wkey`. -/
structure IntegSt where
  mem     : Mem              -- LPDDR, Cisterns, unit memories, tile SRAMs and TCM by DPA (R104)
  errs    : AMap Nat         -- words known to be damaged: the syndrome they give (R308)
  wback   : List Nat         -- corrected words whose write-back is due (R315)
  merge   : AMap (List MergeEnt) -- open entries by memory port, oldest first, at most 4 (R312)
  logs    : AMap (List EccEnt)   -- the eight logs, oldest first (R317)
  dip     : AMap DipSt       -- region Dippers 0-5, hub SRAM sweep 6, LPDDR sweep 7
  restore : List Nat         -- words reported that R321 restores, in order of report
deriving DecidableEq, Repr

def IntegSt.reset : IntegSt := ⟨[], [], [], [], [], [], []⟩
/-- A report of a detector (R324): family, instance, subject, KIND, DETAIL, and the MTS of the condition. -/
structure Det where
  fam   : Nat
  inst  : Nat
  subj  : Nat
  kind  : Nat
  detail : Nat
  mts   : Nat
  inj   : Bool
  dry   : Bool
  tgt   : Nat            -- hub Pumps: the cluster of the failing burst's target + 1 (R333)
deriving DecidableEq, Repr

/-- A fault the Sump has taken (R326 - R328). -/
structure SmpFault where
  det   : Det
  level : Nat
  cfg   : Nat            -- level before escalation
  fseq  : Nat
  upAt  : Nat            -- `up` at which it was taken
deriving DecidableEq, Repr

/-- The episode of a class (R327, R328), real or of the dry test state (R337). -/
structure SmpCls where
  un    : List SmpFault  -- unacknowledged faults taken at L1 or above, oldest first
  start : Nat            -- MTS at which the episode began
  timer : Option Nat     -- `up` at which the reaction timer expires
deriving DecidableEq, Repr

/-- The Sump beside its registers (R324 - R337). -/
structure SmpSt where
  cls    : AMap SmpCls   -- by class; the dry test state of class c at 8 + c
  fseq   : Nat           -- faults since power-up, quenched ones too
  log    : List (Nat × Nat × Nat) -- the words of SMP_LOG0 - SMP_LOG2, oldest first, at most 64 (R335)
  clF    : AMap SmpFault -- the faults whose action is a cluster reset under way, by cluster (R92)
  hbAt   : Option Nat    -- `up` of Windlass's last heartbeat, none before its firmware runs (R332)
  hbHold : Bool          -- an injected heartbeat miss holds ALIVE (R325)
  alive  : Bool          -- level of ALIVE
  aliveAt : Option Nat   -- `up` of the next half period, none while ALIVE has not started or has stopped in OFF
  aliveN : Nat           -- half periods since ALIVE started
  temps  : AMap Int      -- last reading of each die sensor, 0.1 °C
  hot    : AMap Nat      -- thresholds raised and not re-armed, a mask per sensor (R325)
  hotAt  : Nat           -- `up` of the last reading at or above 122 °C (R330)
  capAt  : Nat           -- `up` of the fault that set the cap
  irqs   : Nat           -- interrupts raised to Windlass (R326)
deriving DecidableEq, Repr

def SmpCls.reset : SmpCls := ⟨[], 0, none⟩
def SmpSt.reset : SmpSt := ⟨[], 0, [], [], none, false, false, none, 0, [], [], 0, 0, 0⟩

/-- A mirrored command sent to the partner (R356) and the two outcomes it awaits. -/
structure TwCmd where
  seq    : Nat
  code   : Nat
  cmd    : Cmd
  tick   : Nat             -- apply tick
  own    : Option Nat      -- this device's status
  peer   : Option Nat      -- the status CMD_ACK returned
deriving DecidableEq, Repr

/-- A twin-link message as sent (R341): the links it left on, the SEQ of each, TICKNO and MTS of its header, its content (on the
first of them), and the frames that left. -/
structure TwSent where
  links  : List Nat
  seqs   : List Nat
  active : Bool
  tickno : Nat
  mts    : Nat
  msg    : TwMsg
  frames : List (List Byte)
deriving DecidableEq, Repr

/-- The twin (R339 - R360) beside its registers. -/
structure TwSt where
  cmdOut   : List TwCmd
  claimAt  : Nat           -- `up` from which an ACTIVE twin claims (R348, R349)
  sent     : AMap TwSent   -- last message sent of each TYPE (R342)
  seq      : AMap Nat      -- messages sent on each link
  uid      : AMap Nat      -- unique ID last heard on each link
  bad      : AMap Nat      -- 1: the partner of that link failed the checks of R339
  heard    : Nat           -- `up` of the last HELLO or BEAT, or of the entry to SEEKING
  helloAt  : Nat           -- `up` of the next HELLO
  own      : List TwBeat   -- own BEATs, newest first, at most 4
  rx       : AMap (Nat × Nat) -- per link: own receive MTS and header MTS of the last BEAT (R343)
  got      : AMap Nat      -- per link: TICKNO of the last BEAT + 1; key 2: of the last BEAT processed
  judged   : AMap Nat      -- per link: `time.tick` last judged by BEAT_MISSED
  miss     : AMap Nat      -- per link: consecutive BEATs missed
  slow     : AMap Nat      -- per link: consecutive BEATs whose delay exceeds 2.0 µs (R340)
  peer     : Option TwBeat
  peerHome : Bool
  fwDiff   : Bool          -- the partner's firmware image digest differs (R357)
  hoOut    : Option (Nat × Nat) -- a HANDOVER sent: global number of frame F, `up` of its time-out (R349)
  tcIn     : Nat           -- tick from which a new ACTIVE sends Class P and B packets
  tcOut    : Nat           -- tick before which the old ACTIVE sends them
  tookTick : Nat           -- `time.tick` of the last entry to ACTIVE
  unaligned : Option Nat   -- `up` since which MT_ALIGNED is 0 (R352)
  lowAt    : Option Nat    -- `up` since which the ACTIVE's score is below HOME_THRESHOLD (R360)
  asked    : Bool          -- a REQUEST has been sent for it
  sAbs     : Option Nat    -- `up` of the last absence of a Class S IC block (R344)
  pbAbs    : Option Nat    -- of a Class P or B IC block
  ueAt     : Option Nat    -- of an uncorrectable ECC detection
  dp       : AMap (List Byte) -- per port: bytes 0x08 - 0x2F of the TX frames of the present tick (R343)
  mirIc    : List Nat      -- IC slots that follow the ACTIVE's ASRC groups, in the order of its last MIRROR (R355)
  syncAt   : Nat           -- `up` at which the resynchronisation began (R357)
  retryAt  : Option Nat    -- `up` of the next attempt
  phaseEnd : Bool          -- the end condition of the present phase holds
  ocOk     : Bool          -- the OC digests matched in the last comparison
  passOk   : Bool          -- the present pass started after the OC digests began to match
  passOk2  : Bool          -- the pass before it did, and completed
  refused  : List Nat      -- pages refused in the present pass
  pageAt   : AMap Nat      -- 4 KiB pages of device memory: full count of the last write + 1
  sending  : List Nat      -- ACTIVE: pages of the present pass
  passAt   : Nat           -- ACTIVE: full count at which it started
  passNo   : Nat
  settings : Option TwSettings -- settings that wait for their boundary
  cutF     : Nat           -- global number of frame F of CUT
  recs     : List (Nat × Nat × Nat × RxVals) -- RX frames recorded in CUT: tick, port, global frame number, values
  locked   : Nat           -- consecutive matches in VERIFY
  health   : Nat           -- own Health Word of the last tick start (R344)
deriving DecidableEq, Repr
def TwSt.reset : TwSt :=
  { cmdOut := [], claimAt := 0, sent := [], seq := [], uid := [], bad := [], heard := 0, helloAt := 0, own := [], rx := [],
    got := [], judged := [], miss := [], slow := [], peer := none, peerHome := false, fwDiff := false, hoOut := none, tcIn := 0, tcOut := 0,
    tookTick := 0, unaligned := none, lowAt := none, asked := false, sAbs := none, pbAbs := none, ueAt := none, dp := [],
    mirIc := [], syncAt := 0, retryAt := none, phaseEnd := false, ocOk := false, passOk := false, passOk2 := false,
    refused := [], pageAt := [], sending := [], passAt := 0, passNo := 0, settings := none, cutF := 0, recs := [], locked := 0,
    health := 0 }


/-- Security, firmware banks and debug beside their registers (R383 - R406). Bank states and versions are SEC_FW_STAT and
SEC_FW_VER. -/
structure SecSt where
  bankA   : AMap Byte        -- firmware bank A in QSPI NOR: bytes other than the 0xFF of erased NOR
  bankB   : AMap Byte
  recOk   : Bool             -- a bank select record with a good CRC exists (R398)
  recSeq  : Nat              -- records of the bank select block written: the sequence number of the newest
  boot    : Nat              -- its BOOT, NEXT and NEXT_MODE
  nxt     : Nat
  nxtMode : Nat
  order   : List (Nat × Nat) -- banks of R402 not yet tried in this start-up, each with the mode it would run in
  runDigest : Nat            -- SHA-384 digest of the image that runs
  work    : List Entry       -- FW_VERIFY, FW_ACTIVATE and FW_COMMIT under way
  fuse    : AMap Nat         -- programmed words of the integrator's groups: 16·group + word (R384)
  staged  : AMap Nat         -- words staged for a BURN
  nonce   : List Byte        -- the nonce of the last DBG_CHALLENGE, none: []
  nonceAt : Nat              -- `up` at which it stops being valid
  sessEnd : Option Nat       -- `up` at which a session ends (R392)
  lockEnd : Option Nat       -- `up` at which the lockout ends (R391)
  waiting : Option Entry     -- a DBG_OPEN that waits for a voluntary handover (R393)
  fell    : Bool             -- a takeover has lowered the session to OBSERVE (R394)
  tcm0    : Mem              -- TCM of Windlass pair 0 and of pair 1
  tcm1    : Mem
  rcv     : Nat              -- the RECOVERY operation under way, 0 none (R405)
  tap     : Nat              -- instruction of the TAP: 0 BYPASS, 1 IDCODE, 2 SAMPLE/PRELOAD, 3 EXTEST, 4 HIGHZ, 5 CLAMP, 6 DBG_ACCESS
  data    : Word             -- what the last debug access read
deriving DecidableEq, Repr

def SecSt.reset : SecSt :=
  { bankA := [], bankB := [], recOk := false, recSeq := 0, boot := 0, nxt := 0, nxtMode := 0, order := [], runDigest := 0,
    work := [], fuse := [], staged := [], nonce := [], nonceAt := 0, sessEnd := none, lockEnd := none, waiting := none,
    fell := false, tcm0 := [], tcm1 := [], rcv := 0, tap := 1, data := 0 }

/-- A census being copied (R411 - R414). -/
structure CenCopy where
  entry : Entry
  image : List Byte          -- the sections, from offset 0x40
  head  : List Byte          -- bytes 0x00-0x3B of the header
  mts   : Nat
  seq   : Nat
deriving DecidableEq, Repr

/-- The census beside its registers. -/
structure CenSt where
  count : Nat                -- censuses accepted since power-up
  copy  : Option CenCopy
  wait  : List Cpl           -- final completions that follow the census's (R412)
deriving DecidableEq, Repr

def CenSt.reset : CenSt := ⟨0, none, []⟩
/-- An item of the retained state (R371). -/
inductive RetItem where
  | num (n : Nat)            -- a Kept register word, a bank word, a flash slot
  | prog (p : UProg)         -- a loaded unit image with its active parameter bank
  | bytes (b : List Byte)    -- a stream record
  | pts (l : List ZPoint)    -- a Line Watch baseline
deriving DecidableEq, Repr

/-- The retained state, by item number (Machine/Retain.lean numbers them). -/
abbrev Retained : Type := AMap RetItem

/-- A log record (R370). A full record carries the items the change altered, none: removed; a marker record none (R371). -/
structure LogRec where
  gen    : Nat
  code   : Nat
  source : Nat
  sec    : Nat
  ns     : Nat
  full   : Bool
  upNs   : Nat              -- `up` of the effect
  items  : List (Nat × Option RetItem)
deriving DecidableEq, Repr

/-- A settings copy in QSPI NOR (R369): its header, its snapshot and its log. -/
structure Copy where
  valid   : Bool
  schema  : Nat
  seq     : Nat
  baseGen : Nat
  snap    : Retained
  log     : List LogRec     -- oldest first
deriving DecidableEq, Repr

/-- The Retention Well and the reset record (R367 - R377), and the power states' transition (R378 - R380). -/
structure RwSt where
  aonValid : Bool           -- AON_VALID (R362)
  copy0    : Copy
  copy1    : Copy
  last     : Retained       -- the retained state as of the last log record
  pend     : List LogRec    -- records not yet durable
  ring     : List Nat       -- generations of those the pending ring of the SRAM holds (R371)
  lastDur  : Nat            -- `up` at which the last record became durable
  sramGen  : Nat            -- SRAM header: highest generation assigned (R368)
  sramDur  : Nat            -- SRAM header: DURABLE_GEN
  sramCnt  : Nat            -- SRAM header: reset count
  sramJrn  : List JEntry    -- the change journal as held in the SRAM
  recLevel : Nat            -- reset record: package level at POR_N assertion
  recOff   : Bool           -- reset record: the device was in OFF
  porLow   : Bool           -- POR_N is held low
  straps   : Nat            -- the straps sampled at its release (R430): bit 0 IOV_B, 1 TEST_EN, 2 STRAP2, 3 STRAP3
  hold     : Bool           -- thermal hold at start-up (R437)
  boot     : Nat            -- start-up steps done (R363): 0 none, 1 bank selected, 2 TCMs loaded, 3 LPDDR trained, 4 hub SRAMs
                            -- written, 5 LPDDR zero-filled, 6 stage 1, 7 READY, 8 stage 2
  replay   : Retained       -- the retained state that start-up restores
  moveFrom : Nat            -- state a running transition left (R380)
  moveTick : Nat            -- `time.tick` of its boundary T
  pwr      : Option Entry   -- the PWR_SET being armed or run (R379)
  pwrHo    : Bool           -- it waits for a voluntary handover
  islOff   : Bool           -- the islands are off and the hub clocks have dropped (R380)
  preTrial : List Nat        -- generations that were pending when a trial or auto image started (R374)
deriving DecidableEq, Repr
/-- The whole state of the block. -/
structure State where
  regs    : AMap Word        -- the register file by register key (R9, R428)
  shadow  : AMap Word        -- shadows of RWS registers that differ from the active register's after-power-up word (R114)
  armAt   : AMap Nat         -- by register key of its ARM field: `up` at which ARM was set (R114)
  rwsWait : List Entry       -- commands that wait for a hand-over point other than a tick boundary (R115)
  free    : Nat              -- the model's own counter of open values (assumption 1)
  time    : TimeSt
  sched   : List Entry       -- armed events, at most 1,024 (R26)
  dueNext : List Entry       -- immediate commands and late events, due at the next tick boundary (R24, R29)
  wh      : WhSt
  hif     : HifSt
  ret     : RwSt
  tw      : TwSt
  smp     : SmpSt
  sec     : SecSt
  aud     : AudioSt
  sp      : SpSt
  eng     : EngSt
  pmp     : PmpSt
  drv     : DrvSt
  ap      : ApSt
  net     : NetSt
  cen     : CenSt
  integ   : IntegSt
  detq    : List Det         -- detector reports the Sump has not taken yet (assumption 8)
  pending : List Instr       -- the commands that wait, first in, first out
deriving DecidableEq, Repr

def TimeSt.reset : TimeSt := ⟨0, 0, 0, 0, 0, 0, 41666, 0, 0, 0, false, true, 0, 0, false, false⟩

def WhSt.reset : WhSt := ⟨[], none, 0, 0, 0, none, false, none, none, none, false, []⟩

def HifSt.reset : HifSt :=
  ⟨PciCfg.reset, 0, [], [], false, [], 0, false, 0, [], [], [], [], [], [], [], [], [], [], [], none, none, [], 0⟩

def Copy.empty : Copy := ⟨false, 0, 0, 0, [], []⟩

def RwSt.reset : RwSt :=
  { aonValid := false, copy0 := Copy.empty, copy1 := Copy.empty, last := [], pend := [], ring := [], lastDur := 0, sramGen := 0,
    sramDur := 0, sramCnt := 0, sramJrn := [], recLevel := 0, recOff := false, porLow := false, straps := 0, hold := false,
    boot := 0, replay := [], moveFrom := 0, moveTick := 0, pwr := none, pwrHo := false, islOff := false, preTrial := [] }

def State.reset : State :=
  { regs := [], shadow := [], armAt := [], rwsWait := [], free := 0, time := TimeSt.reset, sched := [], dueNext := [], wh := WhSt.reset,
    hif := HifSt.reset, ret := RwSt.reset, tw := TwSt.reset, smp := SmpSt.reset, sec := SecSt.reset, aud := AudioSt.reset, sp := SpSt.reset,
    eng := EngSt.reset, pmp := PmpSt.reset, drv := DrvSt.reset, ap := ApSt.reset, net := NetSt.reset, cen := CenSt.reset,
    integ := IntegSt.reset, detq := [], pending := [] }

end Sys2Proof.Machine
end

