-- ==== Sys2Proof/Machine/Ops.lean ====
section
/-! DEFINITION. The named operations every family uses: sparse collections and memories, the register file, Media Time,
pins and interrupts, event records, completions, the change journal and detector reports. -/

namespace Sys2Proof.Machine

/-! ### Sparse collections -/

/-- The value at key `q`: the default `d` where none is listed. -/
def mget {α : Type} (d : α) : AMap α → Nat → α
  | [], _ => d
  | (k, v) :: t, q => if q = k then v else mget d t q

/-- The listed entry at a key. -/
def mfind {α : Type} (m : AMap α) (k : Nat) : Option α := (m.find? (fun p => p.1 == k)).map (·.2)

/-- Remove the entry at `q`. -/
def mdel {α : Type} : AMap α → Nat → AMap α
  | [], _ => []
  | (k, w) :: t, q => if q = k then mdel t q else (k, w) :: mdel t q

/-- Write `v` at `q`, keeping keys rising. -/
def mins {α : Type} : AMap α → Nat → α → AMap α
  | [], q, v => [(q, v)]
  | (k, w) :: t, q, v =>
    if q < k then (q, v) :: (k, w) :: t else if q = k then (q, v) :: t else (k, w) :: mins t q v

/-- Write `v` at `q`; with `drop` (the value is the default) the entry is removed instead. -/
def mset {α : Type} (drop : Bool) (m : AMap α) (q : Nat) (v : α) : AMap α :=
  if drop then mdel m q else mins m q v

/-- Write `v` at `q` in a collection whose unlisted entries read `d`. -/
def mput {α : Type} [DecidableEq α] (d : α) (m : AMap α) (q : Nat) (v : α) : AMap α :=
  mset (decide (v = d)) m q v

/-- Change the entry at `q` by `f`. -/
def mmod {α : Type} [DecidableEq α] (d : α) (m : AMap α) (q : Nat) (f : α → α) : AMap α :=
  mput d m q (f (mget d m q))

/-- The canonical form of a sparse collection: keys strictly rising, no entry equal to its default. -/
def mwf {α : Type} [DecidableEq α] (d : Nat → α) : AMap α → Bool
  | [] => true
  | [(k, v)] => decide (v ≠ d k)
  | (k, v) :: (k', v') :: t => decide (v ≠ d k) && decide (k < k') && mwf d ((k', v') :: t)

/-! ### Byte memories -/

/-- Memory in canonical form: an unlisted address reads 0. -/
def Memory.wf (m : Mem) : Bool := mwf (fun _ => (0 : Byte)) m

/-- One byte of memory. -/
def memByte (m : Mem) (a : Nat) : Byte := mget (0 : Byte) m a

/-- Write one byte. -/
def memPut (m : Mem) (a : Nat) (v : Byte) : Mem := mput (0 : Byte) m a v

/-- Write bytes at rising addresses. -/
def memWrite (m : Mem) (a : Nat) : List Byte → Mem
  | [] => m
  | b :: t => memWrite (memPut m a b) (a + 1) t

/-- `n` bytes from address `a`. -/
def memRead (m : Mem) (a : Nat) : Nat → List Byte
  | 0 => []
  | n + 1 => memByte m a :: memRead m (a + 1) n

/-- The little-endian bytes of a number (R275: multi-byte fields are little-endian). -/
def leBytes : Nat → Nat → List Byte
  | 0, _ => []
  | n + 1, v => BitVec.ofNat 8 v :: leBytes n (v / 256)

/-- The number that little-endian bytes spell. -/
def leVal : List Byte → Nat
  | [] => 0
  | b :: t => b.toNat + 256 * leVal t

/-- `n` little-endian bytes at offset `o` of a buffer. -/
def leAt (b : List Byte) (o n : Nat) : Nat := leVal ((b.drop o).take n)

/-- Big-endian (network order) number of `n` bytes at offset `o`. -/
def beAt (b : List Byte) (o n : Nat) : Nat := leVal ((b.drop o).take n).reverse

/-- A little-endian word of a memory. -/
def memWord (m : Mem) (a : Nat) (n : Nat) : Nat := leVal (memRead m a n)

/-! ### Numbers -/

/-- Two's complement reading of the low `w` bits of `v`. -/
def sext (w v : Nat) : Int :=
  let r := v % 2 ^ w
  if r < 2 ^ (w - 1) then (r : Int) else (r : Int) - (2 ^ w : Nat)

/-- The low `w` bits of an integer. -/
def wrap (w : Nat) (x : Int) : Nat := (x % ((2 ^ w : Nat) : Int)).toNat

/-- Saturate to a signed `w`-bit number. -/
def satS (w : Nat) (x : Int) : Int :=
  if x > (2 ^ (w - 1) : Nat) - 1 then ((2 ^ (w - 1) : Nat) : Int) - 1
  else if x < -((2 ^ (w - 1) : Nat) : Int) then -((2 ^ (w - 1) : Nat) : Int) else x

/-- Saturate a count to `w` bits. -/
def satU (w v : Nat) : Nat := min v (2 ^ w - 1)

/-- Bit `i` of a number. -/
def bitAt (v i : Nat) : Bool := v.testBit i

/-- Bits [hi:lo] of a number. -/
def bits (v hi lo : Nat) : Nat := v / 2 ^ lo % 2 ^ (hi + 1 - lo)

/-- Set or clear bit `i`. -/
def setBit (v i : Nat) (b : Bool) : Nat :=
  if v.testBit i = b then v else if b then v + 2 ^ i else v - 2 ^ i

/-- 1 for true. -/
def b2n (b : Bool) : Nat := if b then 1 else 0

/-- The positions of the set bits among the low `n`. -/
def bitList (n v : Nat) : List Nat := (List.range n).filter (fun i => v.testBit i)

/-- Clamp to an interval. -/
def clampI (lo hi x : Int) : Int := if x < lo then lo else if x > hi then hi else x

/-! ### The register file -/

/-- The key of instance `i` of a register type. -/
def regKey (r : RegId) (i : Nat) : Nat := 2048 * r.ctorIdx + i

/-- The word of a register. -/
def State.rr (s : State) (r : RegId) (i : Nat) : Word :=
  mget (BitVec.ofNat 32 (resetWord r i)) s.regs (regKey r i)

/-- Write the whole word of a register, whatever its access codes: what the block itself does. -/
def State.rw (s : State) (r : RegId) (i : Nat) (w : Word) : State :=
  { s with regs := mput (BitVec.ofNat 32 (resetWord r i)) s.regs (regKey r i) w }

/-- The field of a word. -/
def Fld.get (f : Fld) (w : Nat) : Nat := w / 2 ^ f.lo % 2 ^ (f.hi + 1 - f.lo)

/-- A word with one field replaced; the value is taken modulo the field's width. -/
def Fld.put (f : Fld) (w v : Nat) : Nat :=
  w / 2 ^ (f.hi + 1) * 2 ^ (f.hi + 1) + v % 2 ^ (f.hi + 1 - f.lo) * 2 ^ f.lo + w % 2 ^ f.lo

/-- The value of a field of instance `i`. -/
def State.fg (s : State) (f : Fld) (i : Nat) : Nat := f.get (s.rr f.reg i).toNat

/-- The value of a field read as a signed number. -/
def State.fgI (s : State) (f : Fld) (i : Nat) : Int := sext (f.hi + 1 - f.lo) (s.fg f i)

/-- A one-bit field as a Bool. -/
def State.fb (s : State) (f : Fld) (i : Nat) : Bool := s.fg f i == 1

/-- Replace a field of instance `i`. -/
def State.fs (s : State) (f : Fld) (i v : Nat) : State :=
  s.rw f.reg i (BitVec.ofNat 32 (f.put (s.rr f.reg i).toNat v))

/-- Replace a field by a signed value. -/
def State.fsI (s : State) (f : Fld) (i : Nat) (v : Int) : State := s.fs f i (wrap (f.hi + 1 - f.lo) v)

/-- Add to a saturating counter field. -/
def State.fadd (s : State) (f : Fld) (i n : Nat) : State :=
  s.fs f i (satU (f.hi + 1 - f.lo) (s.fg f i + n))

/-- The register at a BAR0 offset within one segment of its instances. -/
def segAt (g : Seg) (o : Nat) : Option Nat :=
  if o < g.base then none
  else
    let d := o - g.base
    let i := d / g.s1
    let e := d % g.s1
    let j := e / g.s2
    if g.n1 = 1 ∧ d < g.s2 * g.n2 ∧ d % g.s2 = 0 then some (g.first + d / g.s2)
    else if i < g.n1 ∧ j < g.n2 ∧ e % g.s2 = 0 then some (g.first + i * g.n2 + j)
    else none

/-- All register types. -/
def allRegs : List RegId := RegId.all

/-- The register that holds a BAR0 offset (R421, R423): none at an offset no register occupies. -/
def regAt (o : Nat) : Option (RegId × Nat) :=
  allRegs.findSome? (fun r =>
    (regSegs r).findSome? (fun g =>
      match segAt g o with
      | some i =>
        if r = .SMP_FAM ∧ (faultFamilies.find? (fun x => x.1 == i)).isNone then none else some (r, i)
      | none => none))

/-- The BAR0 offset of instance `i` of a register (R423). -/
def regOff (r : RegId) (i : Nat) : Nat :=
  match (regSegs r).find? (fun g => decide (g.first ≤ i ∧ i < g.first + g.n1 * g.n2)) with
  | some g => g.base + g.s1 * ((i - g.first) / g.n2) + g.s2 * ((i - g.first) % g.n2)
  | none => 0

/-! ### Free values -/

/-- Take a fresh open word (assumption 1). -/
def State.freeWord (s : State) : BitVec 32 × State :=
  (Config.freeWord s.free, { s with free := s.free + 1 })

/-! ### Media Time -/

/-- The counter's whole nanoseconds as one number. -/
def State.now (s : State) : Nat := s.time.sec.toNat * 1000000000 + s.time.ns.toNat

/-- The short form of an instant (R23). -/
def mtsOf (full : Nat) : Nat := full % 2 ^ 32

/-- MTS of the present instant. -/
def State.mts (s : State) : Nat := mtsOf s.now

/-- Global number of the tick that holds a full count: S·24,000 + k. -/
def tickAt (full : Nat) : Nat :=
  full / 1000000000 * 24000 + ((full % 1000000000 + 1) * 24000 - 1) / 1000000000

/-- The instant at which global tick `g` starts (R8). -/
def tickStart (g : Nat) : Nat := g / 24000 * 1000000000 + g % 24000 * 1000000000 / 24000

/-- The first tick start strictly after an instant (R8). -/
def nextTick (full : Nat) : Nat := tickStart (tickAt full + 1)

/-- Rounded up to a tick (R8). -/
def roundTick (full : Nat) : Nat := if tickStart (tickAt full) = full then full else nextTick full

/-- TICKNO (R28). -/
def State.tickno (s : State) : Nat := tickAt s.now % 2 ^ 32

/-- Put the counter at a full count of nanoseconds with a fraction (R11). -/
def State.setMt (s : State) (full frac : Nat) : State :=
  { s with time := { s.time with
      sec := BitVec.ofNat 48 (full / 1000000000), ns := BitVec.ofNat 32 (full % 1000000000),
      frac := BitVec.ofNat 32 frac, sub := 0 } }

/-- The whole counter in units of 2⁻⁴⁰ ns. -/
def State.count (s : State) : Nat := (s.now * 2 ^ 32 + s.time.frac.toNat) * 2 ^ 8 + s.time.sub.toNat

/-- Put the whole counter: a carry from the fraction goes into the nanoseconds, and from there into the seconds (R11). -/
def State.setCount (s : State) (m : Nat) : State :=
  { s with time := { s.time with
      sec := BitVec.ofNat 48 (m / 2 ^ 40 / 1000000000), ns := BitVec.ofNat 32 (m / 2 ^ 40 % 1000000000),
      frac := BitVec.ofNat 32 (m / 2 ^ 8), sub := BitVec.ofNat 8 m } }

/-- The rate in force in units of 2⁻⁴⁰ (R14, R46, R54): following plus bleed while the loop is closed; while it is OPEN the rate
last accepted through MT_RATE_SET, or before any the rate at which the loop opened (assumption 15). -/
def State.rateNow (s : State) : Int :=
  let closed := (s.wh.follow + s.wh.bleed) / 24000
  if s.fg F.WH_STATUS_LOOP 0 = 5 then s.wh.rateSet.getD closed else closed

/-- Media Time that passes in one ns of the local oscillator, units of 2⁻⁴⁰ ns (R14). -/
def State.pace (s : State) : Nat := (2 ^ 40 + s.rateNow).toNat

/-- Let `dt` ns of the local oscillator pass within the tick: Media Time advances at the rate in force, and the next tick start
is reached by TICK_START alone (R14, assumption 4). -/
def State.elapse (s : State) (dt : Nat) : State :=
  let d := min dt ((s.time.next * 2 ^ 40 - 1 - s.count) / s.pace)
  if d = 0 then s
  else
    let t := s.setCount (s.count + d * s.pace)
    { t with time := { t.time with up := t.time.up + d } }

/-- The counter arrives at a full count, with no fraction: the oscillator's time follows by the rate in force (R14). -/
def State.arrive (s : State) (full : Nat) : State :=
  let a := s.time.carry + (full * 2 ^ 40 - s.count)
  let t := s.setMt full 0
  { t with time := { t.time with up := t.time.up + a / s.pace, carry := a % s.pace } }

/-- Run to an instant of Media Time within the tick that still lies ahead. -/
def State.reach (s : State) (full : Nat) : State :=
  let f := min full (s.time.next - 1)
  if f ≤ s.now then s else s.arrive f

/-- A timer deadline that has been reached. -/
def State.due (s : State) (t : Option Nat) : Bool :=
  match t with
  | some d => decide (d ≤ s.time.up)
  | none => false

/-- The deadline `n` ns from now. -/
def State.inNs (s : State) (n : Nat) : Option Nat := some (s.time.up + n)

/-- Nanoseconds per millisecond and per second. -/
abbrev msNs : Nat := 1000000
abbrev secNs : Nat := 1000000000

/-! ### Interrupts and event records -/

/-- Send the MSI-X message of a vector, or set its pending bit when it is masked (R279). -/
def State.msi (s : State) (v : Nat) : State :=
  if (mget (1 : Word) s.hif.msix (4 * v + 3)).toNat % 2 = 1 then
    { s with hif := { s.hif with pba := mput 0 s.hif.pba v 1 } }
  else { s with hif := { s.hif with msiSent := mmod 0 s.hif.msiSent v (· + 1) } }

/-- The device-owned descriptors of a ring: (HOST_IDX − DEV_IDX) mod 2¹⁶ (R270). -/
def State.devOwned (s : State) (r : Nat) : Nat :=
  (s.fg F.HIF_RING_IDX_HOST_IDX r + 65536 - s.fg F.HIF_RING_IDX_DEV_IDX r) % 65536

/-- Host address of the descriptor of index `i` (R270). -/
def State.descAddr (s : State) (r i : Nat) : Nat :=
  s.fg F.HIF_RING_BASE_LO_BASE r + 2 ^ 32 * s.fg F.HIF_RING_BASE_HI_BASE r
    + 64 * (i % 2 ^ s.fg F.HIF_RING_CFG_SIZE r)

/-- Write bytes into host memory. -/
def State.hostWrite (s : State) (a : Nat) (b : List Byte) : State :=
  { s with hif := { s.hif with hostMem := memWrite s.hif.hostMem a b } }

/-- Number of returns that make one message (R279). -/
def coalN (c : Nat) : Nat := if c = 1 then 4 else if c = 2 then 16 else 1

/-- Count one return on a ring and send its message under COAL (R279). -/
def State.signal (s : State) (r : Nat) : State :=
  let (n, t) := mget (0, 0) s.hif.coal r
  let t := if n = 0 then s.time.up else t
  if n + 1 ≥ coalN (s.fg F.HIF_RING_CFG_COAL r) then
    ({ s with hif := { s.hif with coal := mput (0, 0) s.hif.coal r (0, 0) } } : State).msi
      (s.fg F.HIF_RING_CFG_VECTOR r)
  else { s with hif := { s.hif with coal := mput (0, 0) s.hif.coal r (n + 1, t) } }

/-- Return the descriptor at DEV_IDX of a ring, its 64 bytes as given (R279: bytes 8-63, then qword 0 with OWN = 0). -/
def State.ringReturn (s : State) (r : Nat) (b : List Byte) : State :=
  let d := s.fg F.HIF_RING_IDX_DEV_IDX r
  let a := s.descAddr r d
  let s := (s.hostWrite (a + 8) (b.drop 8)).hostWrite a (b.take 8)
  (s.fs F.HIF_RING_IDX_DEV_IDX r ((d + 1) % 65536)).signal r

/-- The rings of a TYPE that run. -/
def State.ringsOf (s : State) (ty : Nat) : List Nat :=
  (List.range 32).filter (fun r => s.fb F.HIF_RING_CFG_EN r && s.fg F.HIF_RING_CFG_TYPE r == ty
    && s.fg F.HIF_RING_STAT_STATE r == 1)

/-- Bytes of an event record (R281). -/
def evtBytes (e : EvtRec) : List Byte :=
  leBytes 4 e.mts ++ leBytes 2 e.typ ++ leBytes 2 (if e.lost then 2 ^ 14 else 0) ++ leBytes 2 e.source
    ++ leBytes 2 0 ++ leBytes 4 e.seq ++ ((e.payload ++ List.replicate 48 0).take 48)

/-- Post an event record stamped `mts` (R281): dropped and counted when the EVT ring has no device-owned slot. -/
def State.postAt (s : State) (mts typ source : Nat) (payload : List Byte) : State :=
  let e : EvtRec := ⟨mts, typ, source, s.hif.evtSeq, s.hif.lostPend, payload⟩
  let s := { s with hif := { s.hif with evtSeq := (s.hif.evtSeq + 1) % 2 ^ 32, lastEvt := some e } }
  match s.ringsOf 2 with
  | r :: _ =>
    if s.devOwned r = 0 then
      ({ s with hif := { s.hif with lostPend := true } } : State).fadd F.HIF_STAT_EVT_LOST 0 1
    else ({ s with hif := { s.hif with lostPend := false } } : State).ringReturn r (evtBytes e)
  | [] => ({ s with hif := { s.hif with lostPend := true } } : State).fadd F.HIF_STAT_EVT_LOST 0 1

/-- Post an event record at the present instant. -/
def State.post (s : State) (typ source : Nat) (payload : List Byte) : State :=
  s.postAt s.mts typ source payload

/-! ### Detector reports -/

/-- A detector reports a condition (R324): the report waits for the Sump, which takes it at SMP_FAULT (assumption 8). -/
def State.det (s : State) (fam inst subj kind detail : Nat) : State :=
  { s with detq := s.detq ++ [⟨fam, inst, subj, kind, detail, s.mts, false, false, 0⟩] }

/-! ### Completions and the journal -/

/-- Bytes of a completion (R277). -/
def cplBytes (c : Cpl) : List Byte :=
  leBytes 4 c.tag ++ leBytes 2 c.code
    ++ leBytes 2 (c.ring % 256 + (if c.armed then 2 ^ 14 else 0) + (if c.late then 2 ^ 13 else 0)
        + (if c.db.isSome then 2 ^ 12 else 0))
    ++ leBytes 2 c.status ++ leBytes 2 0 ++ leBytes 4 c.gen ++ leBytes 4 (c.db.getD 0) ++ leBytes 4 c.mts
    ++ (((c.result.flatMap (leBytes 4)) ++ List.replicate 40 0).take 40)

/-- Write a completion into the CPL ring its CMD ring names (R277). Nothing is written for a command that a Function Level
Reset has orphaned (R266) or whose CPL ring does not run. -/
def State.cplWrite (s : State) (c : Cpl) : State :=
  let p := s.fg F.HIF_RING_CFG_PAIR c.ring
  let s := { s with hif := { s.hif with lastCpl := some c } }
  if c.seq < s.hif.flrSeq ∨ c.ring ≥ 32 then s
  else if s.fg F.HIF_RING_STAT_STATE p = 1 ∧ s.fg F.HIF_RING_CFG_TYPE p = 1 ∧ s.devOwned p ≠ 0 then
    ({ s with hif := { s.hif with resv := mmod 0 s.hif.resv p (· - 1) } } : State).ringReturn p (cplBytes c)
  else s

/-- Write every first completion whose turn has come, in the order its ring's commands were taken (R278). The list is
walked once: `blocked` holds the rings with an earlier completion still owed. -/
def flushAwait : List Await → List Nat → State → List Await × State
  | [], _, s => ([], s)
  | a :: t, blocked, s =>
    match a.cpl with
    | some c =>
      if a.ring ∈ blocked then
        let (k, s) := flushAwait t blocked s
        (a :: k, s)
      else flushAwait t blocked (s.cplWrite c)
    | none =>
      let (k, s) := flushAwait t (a.ring :: blocked) s
      (a :: k, s)

/-- Write the final completions that need not wait: in the order of execution, each after its ARMED one. -/
def flushFinals : List Cpl → State → List Cpl × State
  | [], s => ([], s)
  | c :: t, s => if s.hif.await.any (fun a => a.seq == c.seq) then (c :: t, s) else flushFinals t (s.cplWrite c)

/-- Flush the completions owed in ring order, then the final ones. -/
def State.flush (s : State) : State :=
  let (k, s) := flushAwait s.hif.await [] s
  let s := { s with hif := { s.hif with await := k } }
  let (f, s) := flushFinals s.hif.finals s
  { s with hif := { s.hif with finals := f } }

/-- Give a command's first completion (R278). -/
def State.cplFirst (s : State) (c : Cpl) : State :=
  let s := { s with hif := { s.hif with lastCpl := some c } }
  if s.hif.await.any (fun a => a.seq == c.seq && a.cpl.isNone) then
    ({ s with hif := { s.hif with
        await := s.hif.await.map (fun a => if a.seq == c.seq then { a with cpl := some c } else a) } } : State).flush
  else s.cplWrite c

/-- Give the final completion of a command that has had an ARMED completion (R278): after that one, after the final completions of
the commands executed before it, and after that of a census whose copy is under way (R412). -/
def State.cplFinal (s : State) (c : Cpl) : State :=
  let s := { s with hif := { s.hif with lastCpl := some c } }
  if s.cen.copy.isSome then { s with cen := { s.cen with wait := s.cen.wait ++ [c] } }
  else ({ s with hif := { s.hif with finals := s.hif.finals ++ [c] } } : State).flush

/-- The completion of an entry. -/
def Entry.cpl (e : Entry) (status mts : Nat) (result : List Nat) : Cpl :=
  ⟨e.seq, e.cmd.ring, e.cmd.tag, e.code, false, e.late, status, e.gen, e.cmd.db, mts, result⟩

/-- The next Configuration Generation: n + 1 modulo 2³², 0 skipped (R289). -/
def nextGen (n : Nat) : Nat := if n + 1 ≥ 2 ^ 32 then 1 else n + 1

/-- Assign a Configuration Generation (R289). -/
def State.newGen (s : State) : Nat × State :=
  let g := nextGen (s.fg F.HIF_CFG_GEN_GEN 0)
  (g, s.fs F.HIF_CFG_GEN_GEN 0 g)

/-- Write a journal entry; the Retention Well holds the last 256 (R290). -/
def State.journal (s : State) (e : JEntry) : State :=
  let j := s.hif.journal ++ [e]
  { s with hif := { s.hif with journal := j.drop (j.length - 256) } }

/-! ### Check sums and byte orders -/

/-- n bits of a reflected CRC of 32 bits with generator `poly`. -/
def crcBits (poly : Nat) : Nat → Nat → Nat
  | 0, c => c
  | n + 1, c => crcBits poly n (if c % 2 = 1 then (c / 2) ^^^ poly else c / 2)

/-- Such a CRC over bytes, with the initial value and the final XOR of all ones. -/
def crcOf (poly : Nat) (l : List Byte) : Nat := (l.foldl (fun c b => crcBits poly 8 (c ^^^ b.toNat)) 0xFFFFFFFF) ^^^ 0xFFFFFFFF

/-- CRC-32C, the checksum of R79, R80, R141, R173 and R399. -/
def crc32c (l : List Byte) : Nat := crcOf 0x82F63B78 l

/-- CRC-32 of IEEE 802.3, the FCS of a frame (R242). -/
def crc32 (l : List Byte) : Nat := crcOf 0xEDB88320 l

/-- The big-endian bytes of a number. -/
def beBytes (n v : Nat) : List Byte := (leBytes n v).reverse

/-- The FCS of a frame (R242), inverted where a reading of it was uncorrectable (R316). -/
def fcsOf (b : List Byte) (bad : Bool) : List Byte := leBytes 4 (if bad then crc32 b ^^^ 0xFFFFFFFF else crc32 b)

/-- The unique ID (R384). -/
def State.uidBytes (s : State) : List Byte := (List.range 3).flatMap (fun i => leBytes 4 (s.fg F.SEC_UID_ID i))

/-! ### The twin link (R341, R342) -/

/-- Whether twin link l is UP. -/
def State.twUp (s : State) (l : Nat) : Bool := s.fb F.TW_LINK_UP l

def State.twRole (s : State) : Nat := s.fg F.TW_STAT_ROLE 0

/-- The payload of a message (R343, R355); of the types whose bytes the spec does not lay out, what the device gives (assumption 84). -/
def twPayload : TwMsg → List Byte
  | .beat b => leBytes 8 b.health ++ leBytes 4 b.dig0 ++ leBytes 4 b.dig1 ++ leBytes 4 b.digDp ++ leBytes 4 b.echoRx
      ++ leBytes 4 b.echoTx ++ leBytes 1 b.ql ++ leBytes 1 b.role ++ leBytes 1 b.alarm ++ leBytes 1 0 ++ leBytes 6 b.sec ++ leBytes 2 0
  | .mirror m =>
    let l := m.local_ ++ m.asrc
    let bit := (List.range l.length).foldl (fun v i => v + b2n (l.getD i none).isSome * 2 ^ i) 0
    leBytes 4 m.sample ++ leBytes 2 m.local_.length ++ leBytes 2 m.asrc.length ++ leBytes ((l.length + 31) / 32 * 4) bit
      ++ l.flatMap (fun x => leBytes 4 (x.getD 0).toNat)
  | m => (Config.twPayload m).take 9000

/-- A message as it leaves on link l with number q (R341): the Ethernet frame, padded to 64 bytes, with its FCS. -/
def State.twFrame (s : State) (ty l q : Nat) (m : TwMsg) : List Byte :=
  let p := twPayload m
  let eth := beBytes 6 0x0180C200000E ++ beBytes 6 (Config.factoryMac (leVal s.uidBytes) (8 + l)).toNat ++ beBytes 2 0x88B6
  let hdr := leBytes 1 1 ++ leBytes 1 ty ++ leBytes 1 (s.fg F.TW_CTL_SIDE 0 + 2 * b2n (s.twRole == 2)) ++ leBytes 1 0
    ++ leBytes 2 p.length ++ leBytes 2 q ++ leBytes 4 s.tickno ++ leBytes 4 s.mts
  let b := eth ++ hdr ++ p
  let b := b ++ List.replicate (60 - b.length) 0
  b ++ fcsOf b false

/-- Send a twin-link message: on every UP link, or on T0 while it is UP and else on T1. `m` gives what each link carries. -/
def State.twSendEach (s : State) (ty : Nat) (both : Bool) (m : Nat → TwMsg) : State :=
  let up := [0, 1].filter s.twUp
  let ls := if both then up else up.take 1
  if ls = [] then s
  else
    let q := fun l => mget 0 s.tw.seq l
    let x : TwSent := ⟨ls, ls.map q, s.twRole == 2, s.tickno, s.mts, m (ls.headD 0), ls.map (fun l => s.twFrame ty l (q l) (m l))⟩
    { s with tw := { s.tw with
        sent := mset false s.tw.sent ty x,
        seq := ls.foldl (fun a l => mput 0 a l ((q l + 1) % 65536)) s.tw.seq } }

/-- Send a message whose content is the same on every link. -/
def State.twSend (s : State) (ty : Nat) (both : Bool) (m : TwMsg) : State := s.twSendEach ty both (fun _ => m)

/-- Whether a resynchronisation runs, so that written pages are noted (R357). -/
def State.syncing (s : State) : Bool := s.fg F.TW_STAT_SYNC_PHASE 0 != 0

/-- Note the 4 KiB pages that a write of `n` bytes at `a` touches. -/
def State.notePages (s : State) (a n : Nat) : State :=
  if !s.syncing ∨ n = 0 then s
  else
    let ps := (List.range ((a + n - 1) / 4096 + 1 - a / 4096)).map (· + a / 4096)
    { s with tw := { s.tw with pageAt := ps.foldl (fun m p => mput 0 m p (s.now + 1)) s.tw.pageAt } }

/-- An entry to SUSPECT, from which a resynchronisation starts while the partner is ACTIVE (R346, R357). -/
def State.toSuspect (s : State) : State :=
  let s := ((s.fs F.TW_STAT_ROLE 0 4).fs F.TW_STAT_SYNC_PHASE 0 0).fs F.TW_STAT_LOCKSTEP 0 0
  { s with tw := { s.tw with hoOut := none, retryAt := none, mirIc := [], lowAt := none, asked := false } }

/-- A STANDBY becomes SUSPECT; any other role stays (R346). -/
def State.standbySuspect (s : State) : State := if s.twRole = 3 then s.toSuspect else s

end Sys2Proof.Machine
end

