-- ==== Sys2Proof/Machine/Retain.lean ====
section
/-! DEFINITION. What the Retention Well keeps (R371): the retained state of the block, and the log record every
Configuration Generation leaves. -/

namespace Sys2Proof.Machine

/-- The register types that hold Kept fields (R10), and with them retained state (R371). -/
def keptRegs : RegId → Bool
  | .HIF_CFG_GEN => false
  | .SEC_FW_STAT | .SEC_FW_VER => false
  | .WH_CLKOUT_PHASE => true
  | r => setupClass r && (regFields r).any (fun d => d.acc == .rw || d.acc == .rws)
      && !(r == .HIF_RING_BASE_LO || r == .HIF_RING_BASE_HI || r == .HIF_RING_CFG || r == .HIF_RING_AUD
        || r == .PC_SEL || r == .PC_AGG_SEL || r == .SMP_CTL || r == .PMP_CH_IDX)

/-- Whether a register key belongs to a type that holds Kept fields. -/
def keptKey (k : Nat) : Bool := (allRegs.find? (fun r => r.ctorIdx == k / 2048)).any keptRegs

/-! ### Items -/

/-- The number of item `i` of class `c`. Classes: 0 registers, 1 Router entries, 2 matrix-input map, 3 crosspoints, 4 output
words, 5 drive channels, 6 lines, 7 Forwarding Table, 8 unit images, 9 receive streams, 10 transmit streams, 11 and 12 pilot
baselines at HF and LF, 13 sweep baselines, 14 flash slots of the Standpipe store. -/
def itemKey (c i : Nat) : Nat := c * 2 ^ 40 + i

/-- The entries of one bank of a table of `n` entries, as items of class `c`. -/
def bankItems (c n act : Nat) (m : AMap Nat) : Retained :=
  (m.filter (fun p => p.1 / n == act)).map (fun p => (itemKey c (p.1 % n), .num p.2))

/-- A table in the tiles, of n words in each bank of a tile: each tile has an active bank of its own. -/
def tileItems (c n : Nat) (act : Nat → Nat) (m : AMap Word) : Retained :=
  (List.range 24).flatMap (fun t =>
    (m.filter (fun p => p.1 / n == 24 * act t + t)).map (fun p => (itemKey c (n * t + p.1 % n), .num p.2.toNat)))

/-- The pilot baselines of a map. -/
def baseItems (c : Nat) (m : AMap Pilot) : Retained :=
  m.filterMap (fun p => p.2.base.map (fun z => (itemKey c p.1, .pts [z])))

/-- The retained state as it stands (R371). -/
def State.retained (s : State) : Retained :=
  (s.regs.filter (fun p => keptKey p.1)).map (fun p => (itemKey 0 p.1, RetItem.num p.2.toNat))
    ++ bankItems 1 4096 s.aud.rtAct s.aud.rt ++ bankItems 2 1024 s.aud.mapAct s.aud.map
    ++ tileItems 3 49152 (s.fg F.CL_MIX_STAT_ACTIVE) s.aud.xp ++ tileItems 4 48 (s.fg F.CL_MIX_STAT_ACTIVE) s.aud.ow
    ++ bankItems 5 192 s.drv.act s.drv.dc ++ bankItems 6 192 s.drv.act s.drv.ln
    ++ bankItems 7 4096 (s.fg F.NET_FWD_STAT_ACTIVE 0) s.net.fwd
    ++ s.eng.units.filterMap (fun p =>
      if p.1 < 192 then p.2.prog.map (fun x => (itemKey 8 p.1, .prog { x with ready := none, damaged := false })) else none)
    ++ s.net.rx.map (fun p => (itemKey 9 p.1, .bytes p.2.img)) ++ s.net.tx.map (fun p => (itemKey 10 p.1, .bytes p.2.img))
    ++ baseItems 11 s.drv.hf ++ baseItems 12 s.drv.lf
    ++ s.drv.swBase.map (fun p => (itemKey 13 p.1, .pts p.2))
    ++ (s.sp.msgs.filter (fun p => p.2.slot != 0)).map (fun p => (itemKey 14 p.1, .num p.2.slot))

/-- The items in which `b` differs from `a`. -/
def retDiff (a b : Retained) : List (Nat × Option RetItem) :=
  (b.filter (fun p => !(a.contains p))).map (fun p => (p.1, some p.2))
    ++ (a.filter (fun p => !(b.any (fun q => q.1 == p.1)))).map (fun p => (p.1, none))

/-- Apply a record's payload (R373). -/
def retApply (m : Retained) : List (Nat × Option RetItem) → Retained
  | [] => m
  | (k, some v) :: t => retApply (mset false m k v) t
  | (k, none) :: t => retApply (mset true m k (.num 0)) t

/-! ### The log -/

/-- Bytes followed by their CRC-32C. -/
def sealed (l : List Byte) : List Byte := l ++ leBytes 4 (crc32c l)

/-- The payload of a log record: none in a marker (R371). -/
def LogRec.payload (r : LogRec) : List Byte := if r.full then Config.schemaBytes r.items else []

/-- The 32-byte header of a log record (R370). -/
def LogRec.header (r : LogRec) : List Byte :=
  sealed (leBytes 2 0x4C52 ++ leBytes 2 r.code ++ leBytes 4 r.gen ++ leBytes 4 r.payload.length ++ leBytes 1 r.source ++ leBytes 3 0
    ++ leBytes 4 r.sec ++ leBytes 4 r.ns ++ leBytes 4 (crc32c r.payload))

/-- The 64-byte header of a settings copy (R369). -/
def Copy.header (c : Copy) : List Byte :=
  let b := Config.schemaBytes c.snap
  sealed (leBytes 4 0x314A5752 ++ leBytes 2 c.schema ++ leBytes 2 0 ++ leBytes 4 c.seq ++ leBytes 4 c.baseGen ++ leBytes 4 b.length
    ++ leBytes 4 (crc32c b) ++ leBytes 36 0)

/-- Padded size of a log record (R370). -/
def LogRec.padded (r : LogRec) : Nat := (r.header.length + r.payload.length + 255) / 256 * 256

/-- RW_PENDING shows the records not yet durable and their size (R371). -/
def State.showPending (s : State) : State :=
  let n := s.ret.pend.foldl (fun a r => a + r.padded) 0
  (s.fs F.RW_PENDING_RECORDS 0 (satU 16 s.ret.pend.length)).fs F.RW_PENDING_KIB 0 (satU 16 ((n + 1023) / 1024))

/-- Bytes of the pending ring in use (R368). -/
def State.ringUsed (s : State) : Nat :=
  ((s.ret.pend.filter (fun r => s.ret.ring.contains r.gen)).map LogRec.padded).foldl (· + ·) 0

/-- Write the log record of a generation (R371): a full record for a change of retained state, else a marker. It enters the
pending ring unless it is larger than the ring's free space. -/
def State.logRecord (s : State) (gen code source : Nat) (full : Bool) : State :=
  let now := s.retained
  let r : LogRec := ⟨gen, code, source, s.time.sec.toNat % 2 ^ 32, s.time.ns.toNat, full, s.time.up,
    if full && s.ret.boot == 8 then retDiff s.ret.last now else []⟩
  let fits : Bool := decide (s.ringUsed + r.padded ≤ 56832)
  ({ s with ret := { s.ret with
      pend := s.ret.pend ++ [r], ring := if fits then s.ret.ring ++ [gen] else s.ret.ring,
      last := if full && s.ret.boot == 8 then now else s.ret.last,
      sramGen := s.fg F.HIF_CFG_GEN_GEN 0, sramJrn := s.hif.journal } } : State).showPending

end Sys2Proof.Machine
end

