-- ==== Sys2Proof/Machine/Cmds.lean ====
section
/-! DEFINITION. The common path of every command: the checks of R276 and R280, its Configuration Generation (R289), its
placement as an armed, late or immediate event (R24 - R29) and its completions (R277, R278). -/

namespace Sys2Proof.Machine

/-- Journal codes of changes that are no command (R290). -/
abbrev Code.GO : Nat := 0x01FF
abbrev Code.DEBUG_WRITE : Nat := 0x01FE

/-- The verdict of a command's own checks: a status (0 is OK) and the RESULT words that go with it. -/
abbrev Chk : Type := Nat × List Nat

/-- A verdict that accepts. -/
def Chk.ok : Chk := (Sts.OK, [])

/-- The 192-bit MASK at bytes 0x18-0x2F (R275). -/
def cmdMask (c : Cmd) : Nat :=
  c.a + c.b * 2 ^ 32 + c.addr * 2 ^ 64 + c.len * 2 ^ 128 + c.c * 2 ^ 160

/-- The signed reading of a 32-bit argument. -/
def argI (v : Nat) : Int := sext 32 v

/-- A field the row does not use must be 0. -/
def unusedOk (u : Uses) (c : Cmd) : Bool :=
  (u.a || u.mask || c.a == 0) && (u.b || u.mask || c.b == 0) && (u.c || u.mask || c.c == 0)
    && (u.buf || u.addr || u.mask || c.addr == 0) && (u.buf || u.mask || c.len == 0)
    && (u.i0 || c.i0 == 0) && (u.i1 || c.i1 == 0) && (u.i2 || c.i2 == 0) && (u.i3 || c.i3 == 0)
    && (u.ramp || (c.rampMs == 0 && c.shape == 0))

/-- The bits of A, B and C that the layout of a row's argument leaves unused: they are reserved (R275, R276, R286). -/
def rsvBits (code : Nat) : Nat × Nat × Nat :=
  if code = Code.WH_PHASE_STEP then (0xFFFFFFC0, 0, 0)
  else if code = Code.ROUTE_READ ∨ code = Code.FWD_READ ∨ code = Code.UNIT_LOAD ∨ code = Code.FW_ACTIVATE then (0, 0, 0xFFFFFFFE)
  else if code = Code.XP_WRITE then (0, 0, 0xFC000000)
  else if code = Code.XP_READ then (0, 0, 0xFCFFFEE0)
  else if code = Code.XP_COMMIT then (0xFF000000, 0, 0xFFFFFFFE)
  else if code = Code.SP_PLAY then (0xFE00F0F0, 0, 0)
  else if code = Code.SP_STOP then (0xFFFFFFFE, 0, 0)
  else if code = Code.FLT_REMEASURE then (0, 0xFFFF0000, 0)
  else if code = Code.LW_SWEEP then (0, 0xFFFCE000, 0)
  else if code = Code.NET_STREAM_DEL then (0xFFFFFE00, 0, 0)
  else if code = Code.SMP_ACK then (0xFFFFFEF8, 0, 0)
  else if code = Code.SMP_INJECT then (0xFE000000, 0, 0)
  else (0, 0, 0)

/-- No reserved bit of an argument is set. -/
def rsvOk (code : Nat) (c : Cmd) : Bool :=
  let r := rsvBits code
  r.1 &&& c.a == 0 && r.2.1 &&& c.b == 0 && r.2.2 &&& c.c == 0

/-- The format cases of R276. -/
def formatOk (code : Nat) (r : CatRow) (c : Cmd) : Bool :=
  unusedOk r.uses c && rsvOk code c && c.rsv == 0 && (!c.tgt || r.t || r.l) && (!c.long || (r.l && c.tgt))
    && (c.tgt || (c.tgtNs == 0 && c.tgtSec == 0)) && (c.long || c.tgtSec == 0)

/-- The ranges that belong to every row: RAMP_MS, SHAPE, the nanoseconds of a long-form target (R275). -/
def commonRange (c : Cmd) : Bool :=
  c.rampMs ≤ 1000 && c.shape ≤ 1 && (!c.long || c.tgtNs < 1000000000)

/-- Whether a command arrives on a Class S ring (R280). -/
def State.onClassS (s : State) (c : Cmd) : Bool := c.src == 0 && s.fg F.HIF_RING_CFG_CLASS c.ring == 2

/-- The commands the twin link mirrors (R356). -/
def mirrored (code : Nat) : Bool :=
  code ∈ [Code.ROUTE_WRITE, Code.ROUTE_COMMIT, Code.XP_WRITE, Code.XP_COMMIT, Code.XP_SET, Code.SP_CONFIG,
    Code.SP_PLAY, Code.SP_STOP, Code.SP_MSG_BLOCK, Code.SP_MSG_COMMIT, Code.UNIT_LOAD, Code.UNIT_UNLOAD,
    Code.UNIT_SET, Code.INS_WRITE, Code.INS_COMMIT, Code.DP_SET, Code.DC_WRITE, Code.DC_COMMIT, Code.BG_SET,
    Code.FLT_SET, Code.FLT_LINE_WRITE, Code.FLT_REMEASURE, Code.FLT_CLEAR, Code.LW_BASELINE, Code.LW_SWEEP,
    Code.LW_SWEEP_ABORT, Code.NET_STREAM_RX, Code.NET_STREAM_TX, Code.NET_STREAM_DEL, Code.WH_PHASE_STEP]

/-- Whether a partner is paired, so that mirrored commands go to it (R356). -/
def State.paired (s : State) : Bool := s.fb F.TW_STAT_PARTNER 0

/-- The boundary at which a command without a target applies: the next tick boundary (R29), and for a mirrored command of
a pair the first boundary 4 µs or more after acceptance (R356). -/
def State.immPlace (s : State) (code : Nat) : Nat :=
  if s.paired && mirrored code then
    (if s.now + 4000 ≤ s.time.next then s.time.next else roundTick (s.now + 4000))
  else s.time.next

/-- Send a mirrored command that the host gave to the partner (R356), to be acknowledged by CMD_ACK. -/
def State.mirrorCmd (s : State) (code seq place : Nat) (c : Cmd) : State :=
  if s.paired && mirrored code && c.src == 0 then
    let n := 64 + memWord s.integ.mem (c.addr + 0x28) 4
    let m := if code = Code.UNIT_LOAD ∧ c.c = 1 then { c with c := 0, addr := 0, buf := memRead s.integ.mem c.addr (min n c.len) }
      else c
    ({ s with tw := { s.tw with cmdOut := s.tw.cmdOut ++ [⟨seq, code, c, tickAt place, none, none⟩] } } : State).twSend 4 true
      (.cmd (tickAt place) code m)
  else s

/-- The outcome of a mirrored command (R356): a command of the partner is acknowledged with it, one of the own host keeps it
until the partner's comes. -/
def State.twOutcome (s : State) (c : Cmd) (seq status : Nat) : State :=
  if c.src = 1 then s.twSend 5 false (.cmdAck c.tag status)
  else { s with tw := { s.tw with
    cmdOut := s.tw.cmdOut.map (fun x => if x.seq == seq then { x with own := some status } else x) } }

/-- The refusals common to all commands, in the order of R276: CMD_UNKNOWN, CMD_CLASS, CMD_FORMAT, CMD_HOST_READ, then the
common ranges. -/
def preCheck (code : Nat) (c : Cmd) (s : State) : Nat :=
  match catalogue code with
  | none => Sts.CMD_UNKNOWN
  | some r =>
    if c.src = 1 ∧ !mirrored code then Sts.CMD_SOURCE
    else if s.onClassS c && !r.s then Sts.CMD_CLASS
    else if !formatOk code r c then Sts.CMD_FORMAT
    else if r.uses.buf && !c.readOk then Sts.CMD_HOST_READ
    else if !commonRange c then Sts.CMD_RANGE
    else Sts.OK

/-- Events placed at their target exactly (R29); all others round up to a tick. -/
def exactKind (code : Nat) : Bool := code ∈ [Code.TDM_AG_START, Code.CENSUS_AT]

/-- The extended target of a command (R24, R25). -/
def State.extTarget (s : State) (c : Cmd) : Int :=
  if c.long then (c.tgtSec * 1000000000 + c.tgtNs : Nat)
  else (s.now : Int) + sext 32 (c.tgtNs + 2 ^ 32 - s.mts)

/-- The placement instant of a target (R29). -/
def placeOf (code : Nat) (target : Nat) : Nat := if exactKind code then target else roundTick target

/-- Take a command: number it and, for a ring command that owes its first completion in order, list it (R278). -/
def State.takeCmd (s : State) (c : Cmd) : Nat × State :=
  let seq := s.hif.cmdSeq
  let s := { s with hif := { s.hif with cmdSeq := seq + 1 } }
  (seq, if c.src = 0 ∧ c.ring < 32 then
      { s with hif := { s.hif with await := s.hif.await ++ [⟨c.ring, seq, none⟩] } }
    else s)

/-- Refuse a command at acceptance: its one completion carries the status and no generation (R289). -/
def State.refuse (s : State) (code : Nat) (c : Cmd) (seq : Nat) (k : Chk) : State :=
  (s.cplFirst ⟨seq, if c.src = 0 then c.ring else 255, c.tag, code, false, false, k.1, 0, c.db, s.mts, k.2⟩).twOutcome c seq k.1

/-- The generation a command receives at acceptance: G commands, and every command of the twin link (R289). -/
def State.genFor (s : State) (code : Nat) (c : Cmd) : Nat × State :=
  if c.src = 1 ∨ (catalogue code).any (fun r => r.g) then s.newGen else (0, s)

/-- A W command that is not armed owes its one completion only when its work ends, out of ring order (R278). -/
def State.dropAwait (s : State) (code seq : Nat) : State :=
  if (catalogue code).any (fun r => r.w) then
    ({ s with hif := { s.hif with await := s.hif.await.filter (fun a => a.seq != seq) } } : State).flush
  else s

/-- Put a checked command at its place (R24 - R29): immediate and late commands at the next tick boundary, others armed in
the scheduler, or refused with MT_SCHED_FULL when its 1,024 entries are in use (R26). -/
def State.placeCmd (s : State) (code : Nat) (c : Cmd) (seq : Nat) : State :=
  if !c.tgt then
    let (g, s) := s.genFor code c
    let p := s.immPlace code
    (({ s with dueNext := s.dueNext ++ [⟨code, c, g, seq, p, p, false, false, true, false⟩] } : State).mirrorCmd
      code seq p c).dropAwait code seq
  else
    let t := s.extTarget c
    let p := placeOf code t.toNat
    if t < s.now ∨ p ≤ s.now then
      let (g, s) := s.genFor code c
      let q := s.immPlace code
      (({ s with dueNext := s.dueNext ++ [⟨code, c, g, seq, t.toNat, q, false, true, false, false⟩] } : State).mirrorCmd
        code seq q c).dropAwait code seq
    else if s.sched.length ≥ 1024 then
      (s.refuse code c seq (Sts.MT_SCHED_FULL, [])).det 0x33 0 0 0 0
    else
      let (g, s) := s.genFor code c
      let e : Entry := ⟨code, c, g, seq, t.toNat, p, c.long && decide (s.now + secNs < t.toNat), false, false, false⟩
      let s := ({ s with sched := s.sched ++ [e] } : State).mirrorCmd code seq p c
      s.cplFirst { (e.cpl Sts.OK (mtsOf p) []) with armed := true }

/-- Whether the device takes no command: while POR_N is low, and in OFF (R362, R378). -/
def State.dead (s : State) : Bool :=
  s.ret.porLow || (s.fg F.RW_PWR_STAT_STATE 0 == 3 && !s.fb F.RW_PWR_STAT_MOVING 0)

/-- Whether no command is served: RECOVERY serves only the SEC registers and the recovery window (R405). -/
def State.noCmds (s : State) : Bool := s.dead || s.fg F.SEC_FW_STAT_MODE 0 == 3

/-- A command arrives: the common checks, its own checks, its placement. -/
def submit (code : Nat) (chk : Cmd → State → Chk) (c : Cmd) (s : State) : State :=
  if s.noCmds then s
  else
  let s := s.elapse c.dt
  let (seq, s) := s.takeCmd c
  let p := preCheck code c s
  if p ≠ Sts.OK then s.refuse code c seq (p, [])
  else
    let k := chk c s
    if k.1 ≠ Sts.OK then s.refuse code c seq k
    else s.placeCmd code c seq

/-- Journal and log a change that is no command (R289, R290, R371). -/
def State.noteChange (s : State) (gen code source : Nat) (full : Bool) : State :=
  (s.journal ⟨gen, s.time.sec.toNat % 2 ^ 32, s.time.ns.toNat, code, source, 0, 0, 0, 255⟩).logRecord gen code source full

/-- End a command: its last completion with the present instant, and for a generation its journal entry and log record (R278, R290, R371).
The completion that follows an ARMED one carries no doorbell stamp (R273). `full` says whether retained state was altered, `late` whether
the completion carries LATE. -/
def State.finishAs (s : State) (e : Entry) (status : Nat) (result : List Nat) (full late : Bool) : State :=
  let c := { (e.cpl status s.mts result) with ring := if e.cmd.src = 0 then e.cmd.ring else 255, late := late }
  let s := (if e.imm || e.late then s.cplFirst c else s.cplFinal { c with db := none }).twOutcome e.cmd e.seq status
  if e.gen = 0 then s
  else
    (s.journal ⟨e.gen, s.time.sec.toNat % 2 ^ 32, s.time.ns.toNat, e.code, e.cmd.src, b2n (status != Sts.OK),
        e.cmd.tag, status, if e.cmd.src = 0 then e.cmd.ring else 255⟩).logRecord e.gen e.code e.cmd.src
      (full && status == Sts.OK)

/-- End a command whose completion carries LATE only when R24 says so. -/
def State.finish (s : State) (e : Entry) (status : Nat) (result : List Nat) (full : Bool) : State :=
  s.finishAs e status result full e.late

/-- Cancel an event (R18, R20): its completion carries MT_EVENT_CANCELLED. LW_SWEEP_STAT shows an armed sweep CANCELLED. -/
def State.cancel (s : State) (e : Entry) : State :=
  (if e.code = Code.LW_SWEEP then s.fs F.LW_SWEEP_STAT_STATE 0 4 else s).finish e Sts.MT_EVENT_CANCELLED [] false

/-- Cancel the events of a list in order. -/
def State.cancelAll (s : State) : List Entry → State
  | [] => s
  | e :: t => (s.cancel e).cancelAll t

end Sys2Proof.Machine
end

