-- ==== Sys2Proof/Machine/MediaTime.lean ====
section
/-! DEFINITION. Media Time and its events (R11 - R35): the step, the epoch restart, the rate, output release, the hand-over
of long-form events, skew calibration and the faults of the counter. -/

namespace Sys2Proof.Machine

/-! ### Rate -/

/-- The steering range of R14. -/
def rateMax : Int := 549755813

/-- MT_STEP's offset: signed 64-bit nanoseconds in I0 and I1, low word first (R286). -/
def stepOffset (c : Cmd) : Int := sext 64 (c.i0 + c.i1 * 2 ^ 32)

/-- The checks of MT_STEP (R19) at count `full`: the window, then the range. -/
def stepChk (off : Int) (full : Nat) (s : State) : Nat :=
  if !s.fb F.MT_EPOCH_WINDOW 0 then Sts.MT_STEP_REFUSED
  else if (full : Int) + off < 0 then Sts.MT_STEP_RANGE
  else Sts.OK

/-- MT_STEP at acceptance: judged against the boundary at which it would apply (R18, R19). -/
def chkMtStep (c : Cmd) (s : State) : Chk := (stepChk (stepOffset c) s.time.next s, [])

/-- MT_RATE_SET at acceptance (R15, R52): the loop first, then the range. -/
def chkMtRateSet (c : Cmd) (s : State) : Chk :=
  if s.fg F.WH_CTL_CONFIG 0 ≠ 2 ∨ s.fg F.WH_STATUS_LOOP 0 ≠ 5 then (Sts.WH_LOOP_CLOSED, [])
  else if argI c.a > rateMax ∨ argI c.a < -rateMax then (Sts.MT_RATE_RANGE, [])
  else Chk.ok

/-- A command without checks of its own. -/
def chkNone (_ : Cmd) (_ : State) : Chk := Chk.ok

/-- MT_RATE reads the rate in force. -/
def State.showRate (s : State) : State := s.fsI F.MT_RATE_RATE 0 s.rateNow

/-! ### The step -/

/-- Saturated phase of a slot in WH_SLOT_PHASE (R37). -/
def State.showPhase (s : State) (n : Nat) (p : Int) : State :=
  s.fsI F.WH_SLOT_PHASE_PHASE n (clampI (-2147483647) 2147483647 p)

/-- What the Wellhead holds of a slot before anything is known of it: no Announce class, so that a PTP slot matches no entry of
WH_QL_MAP and has QL15 (R38). -/
def WhSlot.init : WhSlot := ⟨0, 0, 1, none, false, none, 0, [], 256, 0xFE, 15, none, false⟩

/-- A reference slot. -/
def State.slot (s : State) (n : Nat) : WhSlot := mget WhSlot.init s.wh.slots n

/-- Replace a reference slot. -/
def State.setSlot (s : State) (n : Nat) (x : WhSlot) : State :=
  { s with wh := { s.wh with slots := mput WhSlot.init s.wh.slots n x } }

/-- Nominal frequency of a period slot in Hz (R36): REFIN by NOM, PPSIN 1. -/
def State.slotHz (s : State) (n : Nat) : Nat :=
  if n = 14 then 1
  else ([32000, 44100, 48000, 88200, 96000, 176400, 192000, 10000000] : List Nat).getD (s.fg F.WH_SLOT_CFG_NOM n) 48000

/-- Kinds of slot (R36). -/
def isPeriod (n : Nat) : Bool := 10 ≤ n && n ≤ 14
def isTwinSlot (n : Nat) : Bool := n == 8 || n == 9

/-- Phase of an edge at a count of nanoseconds within the second, folded into half a period either side (R37). -/
def foldPhase (hz ns : Nat) : Int :=
  let r := ns * hz % 1000000000
  if 2 * r ≤ 1000000000 then -((r / hz : Nat) : Int) else (((1000000000 - r) / hz : Nat) : Int)

/-- A step by `off` moves the phase of every time-carrying slot by as much the other way; a period slot's phase is folded
again. The reference's own time, from which the frequency comes, takes no step. -/
def State.stepSlots (s : State) (off : Int) : State :=
  (List.range 15).foldl (fun s n =>
    let x := s.slot n
    let x := { x with lastEdge := x.lastEdge.map (· + off) }
    if x.at_.isNone then s.setSlot n x
    else
      let p := if isPeriod n then foldPhase x.hz ((off - x.phase) % 1000000000).toNat else x.phase - off
      let u := x.phase * x.hz + x.turns * 1000000000 - off * x.hz
      let k := if isPeriod n then (u - p * x.hz + 500000000) / 1000000000 else 0
      (s.setSlot n { x with phase := p, turns := k }).showPhase n p) s

/-- WH_ABSORB in nanoseconds and its registers (R46). -/
def State.setAbsorb (s : State) (a : Int) : State := { s with wh := { s.wh with absorb := a } }

/-- Cancel every scheduled event, and every late event that R24 placed at the boundary; commands without a target stay,
moved to the first tick start of the new count (R18). -/
def State.cancelForStep (s : State) : State :=
  let gone := s.sched ++ s.dueNext.filter (fun e => !e.imm)
  let keep := (s.dueNext.filter (fun e => e.imm)).map (fun e => { e with place := s.time.next, target := s.time.next })
  ({ s with sched := [], dueNext := keep } : State).cancelAll gone

/-- Apply a step at the present boundary (R18): the counter takes T + offset, ticks resume at the first tick start of the
new count at or after it, STEPPED is set and the window closes, and every scheduled event is cancelled. Where that tick start
lies ahead, the interval up to it is not processed. -/
def State.stepTo (s : State) (off : Int) (frac : Nat) : State :=
  let full := ((s.now : Int) + off).toNat + (s.time.frac.toNat + frac) / 2 ^ 32
  let fr := (s.time.frac.toNat + frac) % 2 ^ 32
  let first := if fr = 0 then roundTick full else roundTick (full + 1)
  let t := s.setMt full fr
  let ahead : Bool := fr != 0 || first != full
  let t := { t with time := { t.time with
    next := first, gap := ahead, epochMt := t.time.epochMt + off, eligMt := t.time.eligMt + off
    sample := if ahead then 4 else t.time.sample, frame := if ahead then 64 else t.time.frame } }
  let t := (t.fs F.MT_EPOCH_STEPPED 0 1).fs F.MT_EPOCH_WINDOW 0 0
  (t.stepSlots off).cancelForStep

/-- Apply MT_STEP at its boundary (R18, R19): checked again; WH_ABSORB takes the selected slot's phase after the step (R47).
R47 does not say what becomes of WH_ABSORB while slot 15 is selected, of which no phase is measured: DESIGN CHOICE, it keeps its
value (assumption 59).
The completion carries the MTS of the first tick of the new count. -/
def applyMtStep (e : Entry) (s : State) : State :=
  let off := stepOffset e.cmd
  let k := stepChk off s.now s
  if k ≠ Sts.OK then s.finish e k [] false
  else
    let s := s.stepTo off e.cmd.i2
    let sel := s.fg F.WH_STATUS_SELECTED 0
    let s := if sel = 15 then s else s.setAbsorb ((s.slot sel).phase * 2 ^ 32)
    let c := { (e.cpl Sts.OK (mtsOf s.time.next) []) with ring := if e.cmd.src = 0 then e.cmd.ring else 255 }
    ((s.cplFirst c).journal ⟨e.gen, s.time.sec.toNat % 2 ^ 32, s.time.ns.toNat, e.code, e.cmd.src, 0, e.cmd.tag, 0,
      c.ring⟩).logRecord e.gen e.code e.cmd.src false

/-- The alignment step (R47): the counter goes to the selected reference and WH_ABSORB clears. It is subject to R17 - R19
and consumes the epoch's step. -/
def State.alignStep (s : State) : State :=
  let sel := s.fg F.WH_STATUS_SELECTED 0
  let off := (s.slot sel).phase
  if sel = 15 ∨ stepChk off s.now s ≠ Sts.OK then s
  else (s.stepTo off 0).setAbsorb 0

/-- The three conditions under which an alignment step falls due (R47). -/
def State.alignDueNow (s : State) : Bool :=
  s.fg F.WH_STATUS_LOOP 0 == 2 && s.fb F.MT_EPOCH_WINDOW 0 && s.fb F.MT_CTL_ALIGN 0

/-! ### Release -/

/-- FREE_WAIT seconds of Media Time have passed since the epoch started (R21): with FREE_WAIT = 0 they never do. -/
def State.freeWaitDue (s : State) : Bool :=
  let w := s.fg F.MT_CTL_FREE_WAIT 0
  w != 0 && decide (s.time.epochMt + (w * secNs : Nat) ≤ (s.now : Int))

/-- Release of the outputs (R21): at an eligible tick start with valid settings, when the loop is LOCKED or OPEN or
FREE_WAIT has passed, and after a step where STEP_WAIT asks for one. The first release closes the step window (R17). -/
def State.releaseCond (s : State) : Bool :=
  let loop := s.fg F.WH_STATUS_LOOP 0
  !s.fb F.MT_EPOCH_RELEASED 0 && s.time.settings && decide (s.time.eligMt ≤ (s.now : Int))
    && (loop == 2 || loop == 5 || s.time.freeWait || s.freeWaitDue)
    && (!s.fb F.MT_CTL_STEP_WAIT 0 || s.fb F.MT_EPOCH_STEPPED 0)

/-- FREE_WAIT_EXPIRY: from here release no longer waits for lock (R21). -/
def execFreeWaitExpiry (s : State) : Host.Outcome State Fault Refusal :=
  .next (if s.freeWaitDue then { s with time := { s.time with freeWait := true } } else s)

/-! ### Commands -/

def execMtStep (c : Cmd) (s : State) : Host.Outcome State Fault Refusal :=
  .next (submit Code.MT_STEP chkMtStep c s)

def execEpochRestart (c : Cmd) (s : State) : Host.Outcome State Fault Refusal :=
  .next (submit Code.EPOCH_RESTART chkNone c s)

def execMtRateSet (c : Cmd) (s : State) : Host.Outcome State Fault Refusal :=
  .next (submit Code.MT_RATE_SET chkMtRateSet c s)

/-- MT_RATE_SET at its boundary: the rate changes, the counter keeps its value (R15). -/
def applyMtRateSet (e : Entry) (s : State) : State :=
  (({ s with wh := { s.wh with rateSet := some (argI e.cmd.a) } } : State).showRate).finish e Sts.OK [] false

/-! ### Long form, skew, integrity -/

/-- Hand every held long-form event whose target is 1 s away or less to the scheduler (R25). -/
def State.handLong (s : State) : State :=
  { s with sched := s.sched.map (fun e => if e.held && decide (e.target ≤ s.now + secNs) then { e with held := false } else e) }

/-- LONG_FORM_HANDOVER (R25). -/
def execLongFormHandover (s : State) : Host.Outcome State Fault Refusal := .next s.handLong

/-- SKEW_CALIBRATION (R100): H measures the path to engine die `d` and compensates `delay` units of 0.125 ns: whole at the first
calibration, after it by at most 0.25 ns a correction (assumption 61). A skew above 8 ns raises family 0x32 (R34). -/
def execSkewCalibration (d delay skew8 : Nat) (s : State) : Host.Outcome State Fault Refusal :=
  .next (if d < 2 then
      let was := s.fg F.MT_SKEW_DELAY d
      let want := satU 16 delay
      let goal := if s.fb F.MT_SKEW_CAL d then max (was - 2) (min (was + 2) want) else want
      let s := (s.fs F.MT_SKEW_DELAY d goal).fs F.MT_SKEW_CAL d 1
      if skew8 > 64 then s.det 0x32 d 0 0 0 else s
    else s)

/-- MEDIA_TIME_INTEGRITY_FAULT (R34): condition 0 nanoseconds at or above 10⁹, 1 backwards movement, 2 and 3 the skew of E0
and E1 above 8 ns. -/
def execMediaTimeIntegrityFault (cond : Nat) (s : State) : Host.Outcome State Fault Refusal :=
  .next (if cond < 2 then s.det 0x31 cond 0 0 0 else if cond < 4 then s.det 0x32 (cond - 2) 0 0 0 else s)

/-- The capture of the whole counter with TICKNO by a read of MT_NS (R13). -/
def State.mtRead (s : State) : State :=
  ((((s.rw .MT_NS 0 s.time.ns).rw .MT_SEC_LO 0 (BitVec.ofNat 32 (s.time.sec.toNat % 2 ^ 32))).rw .MT_SEC_HI 0
    (BitVec.ofNat 32 (s.time.sec.toNat / 2 ^ 32))).rw .MT_FRAC 0 s.time.frac).rw .MT_TICKNO 0 (BitVec.ofNat 32 s.tickno)

/-- MT_NS_READ (R13): the read captures the whole counter and TICKNO, and gives the nanoseconds. -/
def execMtNsRead (dt : Nat) (s : State) : Host.Outcome State Fault Refusal :=
  let s := s.elapse dt
  .next { s.mtRead with hif := { s.hif with rdata := s.time.ns.toNat } }

end Sys2Proof.Machine
end

