-- ==== Sys2Proof/Machine/Rws.lean ====
section
/-! DEFINITION. Shadowed registers and the ARM rule (R114, R115), and register images as commands carry them. The register
file holds active words, `State.shadow` the shadows; an ARM field is bit 31 of the control register of its block. -/

namespace Sys2Proof.Machine

/-! ### Images -/

/-- The word mask of the fields of a register whose access code satisfies `p`. -/
def accMask (r : RegId) (p : Acc → Bool) : Nat :=
  (regFields r).foldl (fun m d => if p d.acc then m ||| (d.fld.put 0 (2 ^ 32 - 1)) else m) 0

/-- Fields the register maps give a signed range (R235, R254, R255). -/
def signedRanges : List (Fld × Int × Int) :=
  [(F.PDM_GAIN_GAIN0, -2000, 4000), (F.PDM_GAIN_GAIN1, -2000, 4000), (F.NET_PTP_CFG_LOG_PDELAY, -7, 4),
    (F.NET_PTP_CFG_LOG_ANNOUNCE, -3, 4), (F.NET_PTP_CFG_LOG_SYNC, -7, 1), (F.NET_PTP_ASYM_ASYM, -1000000, 1000000)]

/-- Whether a field of an image lies in its stated range. -/
def fieldOk (d : FldDesc) (w : Nat) : Bool :=
  match signedRanges.find? (fun r => r.1 == d.fld) with
  | some r =>
    let v := sext (d.fld.hi + 1 - d.fld.lo) (d.fld.get w)
    decide (r.2.1 ≤ v) && decide (v ≤ r.2.2)
  | none => decide (d.min ≤ d.fld.get w) && decide (d.fld.get w ≤ d.max)

/-- Whether every writable field of an image lies in its stated range. -/
def imgOk (r : RegId) (w : Nat) : Bool :=
  (regFields r).all (fun d => !(d.acc == .rw || d.acc == .rws) || fieldOk d w)

/-- A word with the bits of a mask replaced. -/
def maskPut (old new : Word) (m : Nat) : Word :=
  (old &&& ~~~(BitVec.ofNat 32 m)) ||| (new &&& BitVec.ofNat 32 m)

/-- Write the RW fields of a register from an image. -/
def State.imgWrite (s : State) (r : RegId) (i : Nat) (w : Nat) : State :=
  s.rw r i (maskPut (s.rr r i) (BitVec.ofNat 32 w) (accMask r (· == .rw)))

/-! ### Shadows -/

/-- The control registers that hold the ARM field of a block (R114). -/
def armRegs : List RegId := [.UNIT_CTL, .DP_CTL, .BG_CTL, .FLT_CTL, .LW_CTL, .TDM_CTL, .PDM_CTL]

/-- Registers of a block with RWS fields: how many instances there are under one ARM field, and their types. -/
def armBlock : RegId → List RegId
  | .UNIT_CTL => [.UNIT_CTL]
  | .DP_CTL => [.DP_CTL, .DP_MOD]
  | .BG_CTL => [.BG_CTL, .BG_RAIL]
  | .FLT_CTL => [.FLT_CTL, .FLT_GRP, .FLT_REL]
  | .LW_CTL => [.LW_CTL]
  | .TDM_CTL => [.TDM_CTL, .TDM_FRAME, .TDM_MASK_RX, .TDM_MASK_TX]
  | .PDM_CTL => [.PDM_CTL, .PDM_GAIN]
  | _ => []

/-- The block a register with RWS fields belongs to: the type of its ARM register. -/
def blockOf (r : RegId) : Option RegId := armRegs.find? (fun a => (armBlock a).contains r)

/-- The instance of the ARM register for instance `i` of a register: FLT has one ARM for all groups. -/
def armInst (a : RegId) (i : Nat) : Nat := if a = .FLT_CTL then 0 else i

/-- The mask of the RWS fields of a register. -/
def rwsMask (r : RegId) : Nat := accMask r (· == .rws)

/-- A shadow word. -/
def State.shw (s : State) (r : RegId) (i : Nat) : Word := mget (BitVec.ofNat 32 (resetWord r i)) s.shadow (regKey r i)
def State.setShw (s : State) (r : RegId) (i : Nat) (w : Word) : State :=
  { s with shadow := mput (BitVec.ofNat 32 (resetWord r i)) s.shadow (regKey r i) w }

/-- The instance count of a block's register under one ARM field. -/
def blockInsts (a r : RegId) (i : Nat) : List Nat :=
  if a = .FLT_CTL ∧ r ≠ .FLT_CTL then List.range 48 else [i]

/-- The ARM bit of a block. -/
def State.arm (s : State) (a : RegId) (i : Nat) : Bool := s.fb ⟨a, 31, 31⟩ i

/-- Set or clear ARM (R114 item 2), remembering when it was set for the guard. -/
def State.setArm (s : State) (a : RegId) (i : Nat) (b : Bool) : State :=
  let s := s.fs ⟨a, 31, 31⟩ i (b2n b)
  { s with armAt := mput 0 s.armAt (regKey a i) (if b then s.time.up + 1 else 0) }

/-- A write to a register with RWS fields (R114 items 1 and 2): the shadow takes the RWS fields and ARM clears, unless the
same write sets it. RW fields other than ARM take their value at once. -/
def State.rwsWrite (s : State) (r : RegId) (i : Nat) (w : Nat) : State :=
  match blockOf r with
  | none => s.imgWrite r i w
  | some a =>
    let s := s.setShw r i (maskPut (s.shw r i) (BitVec.ofNat 32 w) (rwsMask r))
    if r = a then
      let m := accMask r (· == .rw)
      let s := s.rw r i (maskPut (s.rr r i) (BitVec.ofNat 32 w) (m % 2 ^ 31))
      s.setArm a i (w.testBit 31)
    else s.setArm a (armInst a i) false

/-- Copy every shadow of a block to its active register in one step (R114 item 3); ARM then reads 0. -/
def State.handOver (s : State) (a : RegId) (i : Nat) : State :=
  let s := (armBlock a).foldl (fun s r =>
    (blockInsts a r i).foldl (fun s j => s.rw r j (maskPut (s.rr r j) (s.shw r j) (rwsMask r))) s) s
  s.setArm a i false

/-- A hand-over point of a block with its guard interval in ns (R114 items 3 and 4, R115): with ARM set before the guard,
the block transfers; ARM set inside the guard waits for the next point. -/
def State.handOverPoint (s : State) (a : RegId) (i guard : Nat) : State :=
  let t := mget 0 s.armAt (regKey a i)
  if s.arm a i && decide (t + guard ≤ s.time.up + 1) then s.handOver a i else s

/-- The hand-over at a tick boundary of every block that uses it (R115): UNIT, BG, FLT and LW. -/
def State.tickHandOver (s : State) : State :=
  s.armAt.foldl (fun s p =>
    if p.1 / 2048 = RegId.UNIT_CTL.ctorIdx then s.handOverPoint .UNIT_CTL (p.1 % 2048) 100
    else if p.1 / 2048 = RegId.BG_CTL.ctorIdx then s.handOverPoint .BG_CTL (p.1 % 2048) 100
    else if p.1 / 2048 = RegId.FLT_CTL.ctorIdx then s.handOverPoint .FLT_CTL 0 100
    else if p.1 / 2048 = RegId.LW_CTL.ctorIdx then s.handOverPoint .LW_CTL 0 100
    else s) s

/-- Whether ARM written now would miss the next tick boundary (R114 item 4, R115). -/
def State.inTickGuard (s : State) : Bool := decide (s.time.next < s.now + 100)

/-- The shadows and ARM of a command are written: inside the guard it takes effect at the boundary after (R114). -/
def Entry.written (guard : Bool) (e : Entry) : Entry :=
  { e with wrote := true, place := if guard then nextTick e.place else e.place }

/-- Mark the command numbered `seq` as written. -/
def State.markWritten (s : State) (seq : Nat) (guard : Bool) : State :=
  let f := fun (e : Entry) => if e.seq == seq then e.written guard else e
  { s with sched := s.sched.map f, dueNext := s.dueNext.map f }

/-- Submit a command whose effect is a transfer of shadows at a tick boundary: where that is the next one, Windlass writes the
shadows and ARM as it accepts it (R115). `wr` writes them. -/
def submitRws (code : Nat) (chk : Cmd → State → Chk) (wr : Cmd → State → State) (c : Cmd) (s : State) : State :=
  let seq := s.hif.cmdSeq
  let t := submit code chk c s
  if (t.sched ++ t.dueNext).any (fun e => e.seq == seq && e.place == t.time.next) then (wr c t).markWritten seq t.inTickGuard
  else t

/-- The transfer of such a command at its boundary: made when ARM is still 1 (R114). Of several commands on one block each
transfers its own images, in their order. -/
def State.rwsTransfer (s : State) (a : RegId) (i : Nat) (wr : Cmd → State → State) (e : Entry) : State :=
  if e.wrote && !s.arm a i then s
  else
    let t := (wr e.cmd s).handOver a i
    if (s.sched ++ s.dueNext).any (fun x => x.code == e.code && (a == .FLT_CTL || x.cmd.a == e.cmd.a) && x.wrote && decide (x.place ≤ s.now)) then
      let u := t.setArm a i true
      { u with armAt := mput 0 u.armAt (regKey a i) 1 }
    else t

/-! ### Power states (R378) -/

/-- RW_PWR_STAT.STATE: 0 RUN, 1 QUIET, 2 STANDBY, 3 OFF. -/
def State.pwr (s : State) : Nat := s.fg F.RW_PWR_STAT_STATE 0
def State.standby (s : State) : Bool := s.pwr == 2

/-- A command that would read or write memories of RG1 - RG5 or of tiles CL4 - CL23 is refused in STANDBY (R381). -/
def State.pwrChk (s : State) (touches : Bool) (k : Chk) : Chk :=
  if s.standby && touches then (Sts.PWR_STATE, []) else k

end Sys2Proof.Machine
end

