-- ==== Sys2Proof/Machine/Perf.lean ====
section
/-! DEFINITION. Performance counters (R415 - R418): how an event reaches the counters that select it. -/

namespace Sys2Proof.Machine

/-- Set the OVF bit of a counter: unit u, or the aggregator of region u (R417). -/
def State.pcOvf (s : State) (agg : Bool) (u j : Nat) : State :=
  if agg then s.fs F.PC_AGG_OVF_OVF u (setBit (s.fg F.PC_AGG_OVF_OVF u) j true)
  else s.fs F.PC_OVF_OVF u (setBit (s.fg F.PC_OVF_OVF u) j true)

/-- Add to counter j of unit u or of the aggregator of region u: past 0xFFFFFFFF it wraps and sets its OVF bit. -/
def State.pcAdd (s : State) (agg : Bool) (u j n : Nat) : State :=
  if n = 0 then s
  else
    let r := if agg then RegId.PC_AGG_CNT else RegId.PC_CNT
    let v := (s.rr r (4 * u + j)).toNat + n
    let s := s.rw r (4 * u + j) (BitVec.ofNat 32 v)
    if 2 ^ 32 ≤ v then s.pcOvf agg u j else s

/-- Event `ev` of unit u: `n` by count or by cycles of its level, `rises` by edges (R415), and event 7 of the region's
aggregator (R416). -/
def State.perf (s : State) (u ev n rises : Nat) : State :=
  let s := (List.range 4).foldl (fun s j =>
    if s.fg F.PC_SEL_EVENT (4 * u + j) = ev then
      s.pcAdd false u j (if s.fb F.PC_SEL_EDGE (4 * u + j) then rises else n)
    else s) s
  let g := u / 32
  (List.range 4).foldl (fun s j =>
    let i := 4 * g + j
    if s.fg F.PC_AGG_SEL_EVENT i = 7 ∧ s.fg F.PC_AGG_SEL_UEV i = ev ∧ (s.fg F.PC_AGG_SEL_CL_MASK i).testBit (u / 8 % 4) then
      s.pcAdd true g j (if s.fb F.PC_AGG_SEL_EDGE i then rises else n)
    else s) s

/-- Events of the units that happen together. -/
def State.perfs (s : State) (u : Nat) (l : List (Nat × Nat × Nat)) : State :=
  l.foldl (fun s e => if e.2.1 = 0 ∧ e.2.2 = 0 then s else s.perf u e.1 e.2.1 e.2.2) s

/-- An aggregator event of region g other than 7 (R416), from cluster c of the device where it belongs to one. -/
def State.perfAgg (s : State) (g ev : Nat) (cl : Option Nat) (n : Nat) : State :=
  (List.range 4).foldl (fun s j =>
    let i := 4 * g + j
    let mine : Bool := match cl with
      | some c => (s.fg F.PC_AGG_SEL_CL_MASK i).testBit (c % 4)
      | none => true
    if s.fg F.PC_AGG_SEL_EVENT i = ev ∧ mine then s.pcAdd true g j n else s) s

end Sys2Proof.Machine
end

