-- ==== Sys2Proof/Machine/Integrity.lean ====
section
/-! DEFINITION. Memory integrity (R307 - R323): the code, the logs and counters, merge entries, the Dippers, and reads and
writes of the device memories by address (R104). -/

namespace Sys2Proof.Machine

/-! ### The code -/

/-- Weight of an 8-bit value. -/
def weight8 (v : Nat) : Nat := (bitList 8 v).length

/-- The columns of data bits 0-63 (R308): the values of weight 3 in rising order, then the first 8 of weight 5. -/
def eccColumns : List Nat :=
  (List.range 256).filter (fun v => weight8 v == 3) ++ ((List.range 256).filter (fun v => weight8 v == 5)).take 8

/-- The check bits of a 64-bit word (R308). -/
def eccCheck (data : Nat) : Nat :=
  (bitList 64 data).foldl (fun a i => a ^^^ eccColumns.getD i 0) 0

/-- The decision on a syndrome (R308): 0 no error, 1 correctable, 2 uncorrectable. -/
def eccDecide (syn : Nat) : Nat :=
  if syn = 0 then 0 else if weight8 syn = 1 ∨ syn ∈ eccColumns then 1 else 2

/-- The data delivered for a correctable syndrome: one bit inverted, or none when a check bit is wrong (R308). -/
def eccFix (data syn : Nat) : Nat :=
  match eccColumns.findIdx? (· == syn) with
  | some i => data ^^^ 2 ^ i
  | none => data

/-! ### Words and ports -/

/-- The key of a word in the sparse collections. -/
def wkey (w : WordId) : Nat := ((w.log * 8 + w.mem) * 256 + w.inst) * 2 ^ 32 + w.word

/-- The memory port a word belongs to. -/
def wport (w : WordId) : Nat := (w.log * 8 + w.mem) * 256 + w.inst

/-- The word at a device physical address (R104), and none where no ECC memory is. -/
def wordOfDpa (a : Nat) : Option WordId :=
  if a < 0x1C0000000 then some ⟨7, 0, 0, a / 8⟩
  else if 0x1000000000 ≤ a ∧ a < 0x1000000000 + 24 * 0x200000 then
    let c := (a - 0x1000000000) / 0x200000
    some ⟨c / 4, 3, c, (a - 0x1000000000) % 0x200000 / 8⟩
  else if 0x1100000000 ≤ a ∧ a < 0x1100000000 + 192 * 0x40000 then
    let u := (a - 0x1100000000) / 0x40000
    let o := (a - 0x1100000000) % 0x40000
    if o < 0x30000 then some ⟨u / 32, o / 0x10000, u, o % 0x10000 / 8⟩ else none
  else if 0x1200000000 ≤ a ∧ a < 0x1200000000 + 24 * 0x100000 then
    let c := (a - 0x1200000000) / 0x100000
    some ⟨c / 4, 4, c, (a - 0x1200000000) % 0x100000 / 8⟩
  else if 0x3000000000 ≤ a ∧ a < 0x3000040000 then some ⟨6, 0, 0, (a - 0x3000000000) / 8⟩
  else none

/-- Bases of R104. -/
abbrev dpaCistern (c : Nat) : Nat := 0x1000000000 + 0x200000 * c
abbrev dpaProg (u : Nat) : Nat := 0x1100000000 + 0x40000 * u
abbrev dpaX (u : Nat) : Nat := dpaProg u + 0x10000
abbrev dpaY (u : Nat) : Nat := dpaProg u + 0x20000

def State.mergeOf (s : State) (port : Nat) : List MergeEnt := mget [] s.integ.merge port

/-- Whether a word has an open merge entry. -/
def State.hasEntry (s : State) (w : WordId) : Bool := (s.mergeOf (wport w)).any (fun e => e.word == (wkey w))

/-- The syndrome a read of a word meets: none while an entry is open (R313), the known one of a damaged word, else what
the decoder computes now. -/
def State.effSyn (s : State) (w : WordId) (syn : Nat) : Nat :=
  if s.hasEntry w then 0 else
    let k := mget 0 s.integ.errs (wkey w)
    if k ≠ 0 then k else syn % 256

/-! ### Logs and counters -/

/-- Count one correction in the counter of its memory (R315, R317). -/
def State.countCe (s : State) (w : WordId) : State :=
  if w.log < 6 then
    match w.mem with
    | 0 => s.fadd F.RG_ECC_CNT0_PROG w.log 1
    | 1 => s.fadd F.RG_ECC_CNT0_X w.log 1
    | 2 => s.fadd F.RG_ECC_CNT1_Y w.log 1
    | 3 => s.fadd F.RG_ECC_CNT1_CIS w.log 1
    | _ => s.fadd F.RG_ECC_CNT2_TILE w.log 1
  else if w.log = 6 then
    match w.mem with
    | 0 => s.fadd F.DPR_HUB_CNT0_TCM 0 1
    | 1 => s.fadd F.DPR_HUB_CNT0_NETBUF 0 1
    | _ => s.fadd F.DPR_HUB_CNT1_HUBSRAM 0 1
  else s.fadd F.DPR_DDR_CNT_CE 0 1

/-- Count one uncorrectable detection. -/
def State.countUe (s : State) (w : WordId) : State :=
  if w.log < 6 then s.fadd F.RG_ECC_CNT2_UE w.log 1
  else if w.log = 6 then s.fadd F.DPR_HUB_CNT1_UE 0 1
  else s.fadd F.DPR_DDR_CNT_UE 0 1

/-- Entries a log holds (R317). -/
def logCap (i : Nat) : Nat := if i = 7 then 32 else 16

/-- Log a detection (R317): at a full log the oldest entry is overwritten and counted. -/
def State.eccLog (s : State) (w : WordId) (ue : Bool) (req syn : Nat) : State :=
  let l := mget [] s.integ.logs w.log
  let e : EccEnt := ⟨2 ^ 31 + b2n ue * 2 ^ 30 + req % 8 * 2 ^ 27 + w.mem % 8 * 2 ^ 24 + syn % 256 * 2 ^ 16 + w.inst % 256,
    w.word % 2 ^ 32, s.mts⟩
  let full := logCap w.log ≤ l.length
  let l' := (if full then l.drop 1 else l) ++ [e]
  let s := { s with integ := { s.integ with logs := mput [] s.integ.logs w.log l' } }
  let s := s.fs F.DPR_LOGSTAT_COUNT w.log l'.length
  if full then s.fadd F.DPR_LOGSTAT_OVERWRITTEN w.log 1 else s

/-- A read of DPR_LOG0 (R317): the oldest entry is returned, its other words latched, and it leaves the log. -/
def State.dprLogRead (s : State) (i : Nat) : State :=
  match mget [] s.integ.logs i with
  | [] => s.rw .DPR_LOG0 i 0
  | e :: t =>
    let s := { s with integ := { s.integ with logs := mput [] s.integ.logs i t } }
    (((s.rw .DPR_LOG0 i (BitVec.ofNat 32 e.w0)).rw .DPR_LOG1 i (BitVec.ofNat 32 e.w1)).rw .DPR_LOG2 i
      (BitVec.ofNat 32 e.mts)).fs F.DPR_LOGSTAT_COUNT i t.length

/-! ### Detection -/

/-- Memories that R321 restores after a report: unit X, Y and program, TCM, other hub SRAMs and LPDDR. -/
def restorable (w : WordId) : Bool :=
  (w.log < 6 && (w.mem < 3 || w.mem == 4)) || (w.log == 6 && w.mem != 1) || w.log == 7

/-- A read meets a correctable word (R315): counted, logged, reported, and written back when the port is free. -/
def State.foundCe (s : State) (w : WordId) (syn req : Nat) : State :=
  let s := ((s.countCe w).eccLog w false req syn).det 0x00 w.log w.inst req syn
  { s with integ := { s.integ with errs := mput 0 s.integ.errs (wkey w) syn,
                                   wback := if (wkey w) ∈ s.integ.wback then s.integ.wback else s.integ.wback ++ [(wkey w)] } }

/-- A read meets an uncorrectable word (R316): logged and reported; the word stays as it is. -/
def State.foundUe (s : State) (w : WordId) (syn req : Nat) : State :=
  let s := ((s.countUe w).eccLog w true req syn).det 0x01 w.log w.inst req syn
  let s := { s with tw := { s.tw with ueAt := some s.time.up } }
  { s with integ := { s.integ with errs := mput 0 s.integ.errs (wkey w) syn,
                                   restore := if restorable w && !(s.integ.restore.contains (wkey w))
                                     then s.integ.restore ++ [(wkey w)] else s.integ.restore } }

/-- Read a word through its decoder: 0 good, 1 corrected, 2 uncorrectable. -/
def State.eccRead (s : State) (w : WordId) (syn req : Nat) : Nat × State :=
  let e := s.effSyn w syn
  match eccDecide e with
  | 0 => (0, s)
  | 1 => (1, s.foundCe w e req)
  | _ => (2, s.foundUe w e req)

/-! ### Tables in hub and tile SRAMs (R307, R316, R321) -/

/-- The tables that fixed-function readers read, each with the keys of its entries: Router banks, input map, crosspoints, output
words, drive-channel and line banks, Forwarding Table, stream converter samples, drive modulator samples. -/
abbrev Tab.ROUTER : Nat := 1
abbrev Tab.MAP : Nat := 2
abbrev Tab.XP : Nat := 3
abbrev Tab.OUT : Nat := 4
abbrev Tab.DC : Nat := 5
abbrev Tab.LINE : Nat := 6
abbrev Tab.FWD : Nat := 7
abbrev Tab.CONV : Nat := 8
abbrev Tab.MOD : Nat := 9

/-- The word a key names. -/
def wordOfKey (k : Nat) : WordId := ⟨k / 2 ^ 43, k / 2 ^ 40 % 8, k / 2 ^ 32 % 256, k % 2 ^ 32⟩

/-- The entries of a table in words that decode as uncorrectable. -/
def State.lostOf (s : State) (tab : Nat) : List Nat :=
  (s.integ.errs.filter (fun p => eccDecide p.2 == 2)).flatMap (fun p =>
    ((Config.wordHolds p.1).filter (fun x => x.1 == tab)).map (·.2))

/-- Whether an entry of a table is lost to its readers (R316). -/
def State.lost (s : State) (tab key : Nat) : Bool := (s.lostOf tab).contains key

/-- The damaged words that hold entries [lo, lo + n) of a table. -/
def State.errsIn (s : State) (tab lo n : Nat) : List Nat :=
  (s.integ.errs.filter (fun p => (Config.wordHolds p.1).any (fun x => x.1 == tab && decide (lo ≤ x.2) && decide (x.2 < lo + n)))).map
    (·.1)

/-- A fixed-function reader reads entries [lo, lo + n) of a table: what it meets is logged and reported (R315, R316). -/
def State.readTab (s : State) (tab lo n : Nat) : State :=
  (s.errsIn tab lo n).foldl (fun s k => (s.eccRead (wordOfKey k) 0 5).2) s

/-- The refusal of a commit by the first offending entry (R321): `k` is the verdict on the entries, `st` the status of an entry of
the bank [lo, lo + n) that is lost. -/
def State.lostChk (s : State) (tab lo n st : Nat) (k : Chk) : Chk :=
  match ((s.lostOf tab).filter (fun i => decide (lo ≤ i) && decide (i < lo + n))).min? with
  | none => k
  | some i => if k.1 = Sts.OK ∨ i - lo < k.2.headD 0 then (st, [i - lo]) else k

/-! ### Writes -/

/-- A word has been written in full: its damage, its entry and its place on every known-bad list are gone (R312, R314,
R315, R320). -/
def State.fullWrite (s : State) (w : WordId) : State :=
  { s with integ := { s.integ with
      errs := mput 0 s.integ.errs (wkey w) 0,
      wback := s.integ.wback.filter (· != (wkey w)),
      restore := s.integ.restore.filter (· != (wkey w)),
      merge := mput [] s.integ.merge (wport w) ((s.mergeOf (wport w)).filter (fun e => e.word != (wkey w))),
      dip := s.integ.dip.map (fun p => (p.1, { p.2 with known := p.2.known.filter (· != (wkey w)) })) } }

/-- Entries [lo, lo + n) of a table are written. A word they fill is written in full and good again; a partial write onto an
uncorrectable word is refused and reported (R314). -/
def State.wroteTab (s : State) (tab lo n : Nat) : State :=
  (s.errsIn tab lo n).foldl (fun s k =>
    let w := wordOfKey k
    if (Config.wordHolds k).all (fun x => x.1 == tab && decide (lo ≤ x.2) && decide (x.2 < lo + n)) then s.fullWrite w
    else if eccDecide (s.effSyn w 0) = 2 then s.foundUe w (s.effSyn w 0) 4
    else s) s

/-- Write an entry back as one full word (R313). -/
def State.mergeBack (s : State) (port word : Nat) : State :=
  { s with integ := { s.integ with
      errs := mput 0 s.integ.errs word 0,
      wback := s.integ.wback.filter (· != word),
      merge := mput [] s.integ.merge port ((s.mergeOf port).filter (fun e => e.word != word)),
      dip := s.integ.dip.map (fun p => (p.1, { p.2 with known := p.2.known.filter (· != word) })) } }

/-- Merge bytes into an open entry; an entry with all 8 bytes valid is written back (R313). -/
def State.mergeInto (s : State) (w : WordId) (mask : Nat) : State :=
  let l := (s.mergeOf (wport w)).map (fun e => if e.word == (wkey w) then { e with valid := e.valid ||| mask } else e)
  let s := { s with integ := { s.integ with merge := mput [] s.integ.merge (wport w) l } }
  if l.any (fun e => e.word == (wkey w) && e.valid % 256 == 255) then s.mergeBack (wport w) (wkey w) else s

/-- Open an entry for a partial write (R312): with all 4 open the oldest is written back first. -/
def State.mergeOpen (s : State) (w : WordId) : State :=
  let s := match s.mergeOf (wport w) with
    | e :: t => if t.length ≥ 3 then s.mergeBack (wport w) e.word else s
    | [] => s
  { s with integ := { s.integ with merge := mput [] s.integ.merge (wport w) (s.mergeOf (wport w) ++ [⟨(wkey w), 0⟩]) } }

/-- The words an aligned or unaligned byte range touches: word address and byte mask. -/
def wordsOf (a n : Nat) : List (Nat × Nat) :=
  if n = 0 then []
  else (List.range ((a + n - 1) / 8 - a / 8 + 1)).map (fun i =>
    let w := a / 8 + i
    (w, (List.range 8).foldl (fun m b => if a ≤ 8 * w + b ∧ 8 * w + b < a + n then m + 2 ^ b else m) 0))

/-- Whether a partial write to a word would be refused (R314). -/
def State.refusesPartial (s : State) (p : Nat × Nat) (syn : Nat) : Bool :=
  match wordOfDpa (8 * p.1) with
  | some w => p.2 != 255 && !s.hasEntry w && eccDecide (s.effSyn w syn) == 2
  | none => false

/-- Account for the writing of one word of a burst (R312, R313). -/
def State.wroteWord (s : State) (p : Nat × Nat) (syn : Nat) : State :=
  match wordOfDpa (8 * p.1) with
  | some w =>
    if p.2 = 255 then s.fullWrite w
    else if s.hasEntry w then s.mergeInto w p.2
    else
      let s := (s.eccRead w syn 6).2
      (s.mergeOpen w).mergeInto w p.2
  | none => s

/-- Write a burst of bytes at a device address (R312 - R314): refused whole when it holds a partial write onto an
uncorrectable word. `syn` is the syndrome a partial write's read half meets. -/
def State.busWrite (s : State) (a : Nat) (bs : List Byte) (syn : Nat) : Bool × State :=
  let ws := wordsOf a bs.length
  match ws.find? (fun p => s.refusesPartial p syn) with
  | some p =>
    match wordOfDpa (8 * p.1) with
    | some w => (false, s.foundUe w (s.effSyn w syn) 6)
    | none => (false, s)
  | none =>
    let s := ws.foldl (fun s p => s.wroteWord p syn) s
    (true, ({ s with integ := { s.integ with mem := memWrite s.integ.mem a bs } } : State).notePages a bs.length)

/-- Write every byte of a range in full words, clearing it first: the loads of images and the zero-fills (R143, R311). -/
def State.fillRange (s : State) (a n : Nat) (bs : List Byte) : State :=
  let inside := fun k => decide (a ≤ k ∧ k < a + n)
  let m := memWrite (s.integ.mem.filter (fun p => !inside p.1)) a (bs.take n)
  let hit := fun k =>
    match wordOfDpa a, wordOfDpa (a + n - 1) with
    | some w0, some w1 => decide ((wkey w0) ≤ k ∧ k ≤ (wkey w1))
    | _, _ => false
  let s := s.notePages a n
  { s with integ := { s.integ with
      mem := m,
      errs := s.integ.errs.filter (fun p => !hit p.1),
      wback := s.integ.wback.filter (fun k => !hit k),
      restore := s.integ.restore.filter (fun k => !hit k),
      merge := s.integ.merge.map (fun p => (p.1, p.2.filter (fun e => !hit e.word))) |>.filter (fun p => p.2 ≠ []),
      dip := s.integ.dip.map (fun p => (p.1, { p.2 with known := p.2.known.filter (fun k => !hit k) })) } }

/-- Bytes at a device address. -/
def State.dpaRead (s : State) (a n : Nat) : List Byte := memRead s.integ.mem a n

/-- A little-endian number at a device address. -/
def State.dpaWord (s : State) (a n : Nat) : Nat := leVal (s.dpaRead a n)

/-! ### Commands and events of the memories -/

/-- CORRECTED_WRITE_BACK (R315): the corrected word is written in the port's next free cycle, unless a write came first. -/
def execCorrectedWriteBack (w : WordId) (s : State) : Host.Outcome State Fault Refusal :=
  .next (if (wkey w) ∈ s.integ.wback then
      { s with integ := { s.integ with errs := mput 0 s.integ.errs (wkey w) 0, wback := s.integ.wback.filter (· != (wkey w)) } }
    else s)

/-- MERGE_WRITE_BACK (R313): an entry that has had no write for 32 cycles, is full, evicted or meets a reset. -/
def execMergeWriteBack (w : WordId) (s : State) : Host.Outcome State Fault Refusal :=
  .next (if s.hasEntry w then s.mergeBack (wport w) (wkey w) else s)

/-- Dipper `d`: whether it may run (0-5 regions, 6 hub SRAMs, 7 LPDDR). -/
def State.dipEn (s : State) (d : Nat) : Bool :=
  if d < 6 then s.fb F.DPR_CTL_EN d && s.fb F.RG_PWR_ON d else s.fb F.DPR_HUB_CTL_EN 0

/-- The pass period of a Dipper in ns (R318). -/
def State.dipPeriod (s : State) (d : Nat) : Nat :=
  if d < 6 then s.fg F.DPR_CTL_PERIOD d * secNs
  else if d = 6 then s.fg F.DPR_HUB_CTL_SRAM_PERIOD 0 * secNs
  else s.fg F.DPR_HUB_CTL_DDR_PERIOD 0 * 60 * secNs

/-- State field of a Dipper's sweep: 0 OFF, 1 SWEEPING, 2 WAITING. -/
def State.dipState (s : State) (d : Nat) : Nat :=
  if d < 6 then s.fg F.DPR_STAT_STATE d else if d = 6 then s.fg F.DPR_HUB_STAT_SRAM_STATE 0
  else s.fg F.DPR_HUB_STAT_DDR_STATE 0

def State.setDipState (s : State) (d v : Nat) : State :=
  if d < 6 then s.fs F.DPR_STAT_STATE d v else if d = 6 then s.fs F.DPR_HUB_STAT_SRAM_STATE 0 v
  else s.fs F.DPR_HUB_STAT_DDR_STATE 0 v

def DipSt.init : DipSt := ⟨0, 0, []⟩
def State.dipOf (s : State) (d : Nat) : DipSt := mget DipSt.init s.integ.dip d
def State.setDip (s : State) (d : Nat) (x : DipSt) : State :=
  { s with integ := { s.integ with dip := mput DipSt.init s.integ.dip d x } }

/-- DIPPER_PASS_START (R318): PERIOD after the previous pass started, or late at its end. A Dipper that is off stays off. -/
def execDipperPassStart (d : Nat) (s : State) : Host.Outcome State Fault Refusal :=
  .next (if 8 ≤ d then s
    else if !s.dipEn d then s.setDipState d 0
    else
      let x := s.dipOf d
      let st := s.dipState d
      if st = 1 then s
      else if st = 2 ∧ s.time.up < x.start + s.dipPeriod d then s
      else
        let late := st = 2 ∧ x.start + s.dipPeriod d < x.stop
        let s := (s.setDip d { x with start := s.time.up }).setDipState d 1
        if late then (if d < 6 then s.fadd F.DPR_STAT_LATE d 1 else s.fadd F.DPR_HUB_STAT_LATE 0 1) else s)

/-- The coverage of a Dipper (R318). -/
def State.dipCovers (s : State) (d : Nat) (w : WordId) : Bool :=
  if d < 6 then
    w.log == d && (
      if w.mem < 3 then w.inst / 32 == d && (let st := s.fg F.UNIT_STAT_STATE w.inst; 1 ≤ st && st ≤ 5)
      else if w.mem == 3 then
        w.inst / 4 == d && s.fb F.DPR_CISWIN_VALID w.inst
          && decide (s.fg F.DPR_CISWIN_BASE w.inst * 512 ≤ w.word)
          && decide (w.word < (s.fg F.DPR_CISWIN_BASE w.inst + s.fg F.DPR_CISWIN_LEN w.inst) * 512)
      else w.inst / 4 == d)
  else if d == 6 then w.log == 6
  else w.log == 7

/-- Whether a unit repeats an instruction over the data SRAM a word lies in: a Dipper's read waits for the whole of it (R117). -/
def State.dipWaits (s : State) (w : WordId) : Bool :=
  decide (w.log < 6) && (w.mem == 1 || w.mem == 2) && s.fg F.UNIT_STAT_STATE w.inst == 2
    && decide (0 < (mget UnitSt.reset s.eng.units w.inst).core.rep)

/-- DIPPER_READ (R318 - R320): one word of the coverage; a word with an open entry is skipped. `last` marks the last word
of the pass. -/
def execDipperRead (d : Nat) (w : WordId) (syn : Nat) (last : Bool) (s : State) : Host.Outcome State Fault Refusal :=
  .next (if 8 ≤ d ∨ s.dipState d ≠ 1 ∨ s.dipWaits w then s
    else
      let owner := min d 6
      let s := if d < 6 then s.perfAgg d 4 none 1 else s
      let e := s.effSyn w syn
      let s := if !s.dipCovers d w ∨ s.hasEntry w then s
        else match eccDecide e with
          | 0 => s
          | 1 => s.foundCe w e 3
          | _ =>
            let x := s.dipOf owner
            if (wkey w) ∈ x.known then s
            else
              let k := x.known ++ [(wkey w)]
              (s.setDip owner { x with known := k.drop (k.length - 4) }).foundUe w e 3
      if last then
        let s := (s.setDip d { s.dipOf d with stop := s.time.up }).setDipState d 2
        if d < 6 then s.fadd F.DPR_STAT_PASSES d 1
        else if d = 6 then s.fadd F.DPR_HUB_STAT_SRAM_PASSES 0 1
        else s.fadd F.DPR_HUB_STAT_DDR_PASSES 0 1
      else s)

/-! ### Checker self-test -/

/-- A unit is FAILED: its own state and its bit in CL_STAT. -/
def State.markFailed (s : State) (u : Nat) : State :=
  (s.fs F.UNIT_STAT_STATE u 6).fs F.CL_STAT_FAILED (u / 8) (setBit (s.fg F.CL_STAT_FAILED (u / 8)) (u % 8) true)

/-- The unit that RG_SPARE names (R93). -/
def State.spareOf (s : State) (g : Nat) : Option Nat :=
  if s.fb F.RG_SPARE_EN g then some (32 * g + s.fg F.RG_SPARE_SPARE_SEL g) else none

/-- The actions of a failed checker (R310). A hub or LPDDR checker stops start-up. -/
def State.checkerFailed (s : State) (w : WordId) : State :=
  let s := s.det 0x02 w.log 0 0 0
  if w.log < 6 ∧ w.mem < 3 then
    let s := s.markFailed w.inst
    if s.spareOf (w.inst / 32) = some w.inst then s.fs F.RG_SPARE_STAT_STATE (w.inst / 32) 3 else s
  else if w.log < 6 then
    let s := (s.fs F.CL_STAT_STATE w.inst 4).fs F.DPR_BIST_CL_FAIL 0 (setBit (s.fg F.DPR_BIST_CL_FAIL 0) w.inst true)
    (List.range 8).foldl (fun s u => s.markFailed (8 * w.inst + u)) s
  else s.fs F.DPR_BIST_HUB_FAIL 0 1

/-- CHECKER_SELF_TEST (R310): the checkers named in `fails` fail. -/
def execCheckerSelfTest (fails : List WordId) (s : State) : Host.Outcome State Fault Refusal :=
  .next ((fails.foldl State.checkerFailed s).fs F.DPR_BIST_DONE 0 1)

end Sys2Proof.Machine
end

