-- ==== Sys2Proof/Machine/Signal.lean ====
section
/-! DEFINITION. Samples, ramps and crossfades (R57, R71 - R74): exact sums, gains by the formula of R71, weighted sources. -/

namespace Sys2Proof.Machine

/-! ### Rounding -/

/-- A sample from an exact quotient. A quotient that is a Q1.31 value is that value; for one between two values the
rounding is open, and beyond full scale the value is open (assumption 1). -/
def State.q31 (s : State) (num : Int) (den : Nat) : Int × State :=
  let q := num / (den : Int)
  if q < -2147483648 ∨ q > 2147483647 then
    let (w, s) := s.freeWord
    (w.toInt, s)
  else if num % (den : Int) = 0 then (q, s)
  else
    let (w, s) := s.freeWord
    (if w.getLsbD 0 ∧ q < 2147483647 then q + 1 else q, s)

/-- Sample i of a block. -/
def Blk.at (b : Blk) (i : Nat) : Int :=
  match i with
  | 0 => b.s0
  | 1 => b.s1
  | 2 => b.s2
  | _ => b.s3

/-- A block whose sample i is f i. -/
def Blk.of (f : Nat → Int) : Blk := ⟨f 0, f 1, f 2, f 3⟩

/-- A block formed sample by sample with the state threaded through. -/
def State.blk (s : State) (f : Nat → State → Int × State) : Blk × State :=
  let (a, s) := f 0 s
  let (b, s) := f 1 s
  let (c, s) := f 2 s
  let (d, s) := f 3 s
  (⟨a, b, c, d⟩, s)

/-- A block with sample i scaled by num i over den. -/
def State.scaleBlk (s : State) (b : Blk) (num : Nat → Int) (den : Nat) : Blk × State :=
  s.blk (fun i s => s.q31 (b.at i * num i) den)

/-- The fades of R140: out over the block, and in with the next one. -/
def State.fadeOut (s : State) (b : Blk) : Blk × State := s.scaleBlk b (fun i => (3 - i : Int)) 4
def State.fadeIn (s : State) (b : Blk) : Blk × State := s.scaleBlk b (fun i => (i + 1 : Int)) 4

/-- The 16 bytes of a block and back (R142). -/
def blkBytes (b : Blk) : List Byte :=
  leBytes 4 (wrap 32 b.s0) ++ leBytes 4 (wrap 32 b.s1) ++ leBytes 4 (wrap 32 b.s2) ++ leBytes 4 (wrap 32 b.s3)

def blkOfBytes (l : List Byte) : Blk := Blk.of (fun i => sext 32 (leAt l (4 * i) 4))

/-! ### Ramps -/

/-- Fixed-point fractions of 2¹⁹² for the raised cosine. -/
abbrev fx : Nat := 2 ^ 192

/-- π in units of 2⁻¹⁹². -/
def piFx : Nat := 19720096697726538562396133364228268891463450865190089732560

/-- cos of an angle in units of 2⁻¹⁹², by its series: term t holds the current term, k its index. -/
def cosTerms (x2 : Int) : Nat → Nat → Int → Int
  | 0, _, _ => 0
  | n + 1, k, t => t + cosTerms x2 n (k + 1) (-(t * x2 / fx / ((2 * k + 1) * (2 * k + 2) : Nat)))

/-- The raised-cosine weight (1 − cos(π·n/N))/2 as an exact-enough quotient over 2·2¹⁹² (R71). The three rational weights
between 0 and 1 are exact. -/
def cosWeight (n N : Nat) : Int :=
  if n ≥ N then 2 * (fx : Int)
  else if 2 * n = N then fx
  else if 3 * n = N then fx / 2
  else if 3 * n = 2 * N then 3 * fx / 2
  else
    let x : Int := (piFx * n / N : Nat)
    (fx : Int) - cosTerms (x * x / fx) 48 0 fx

/-- Round a quotient to the nearest integer, ties toward `toward` (R71). -/
def roundTo (num : Int) (den : Nat) (toward : Int) : Int :=
  let q := num / (den : Int)
  let r := num % (den : Int)
  if 2 * r < den then q
  else if 2 * r > den then q + 1
  else if toward > q then q + 1 else q

/-- Sample n of a ramp (R71): n = 1 to N, and g1 from N on. -/
def Ramp.gain (r : Ramp) (n : Nat) : Int :=
  if n ≥ r.n then r.g1
  else if n = 0 then r.g0
  else if r.shape = 0 then r.g0 + roundTo ((r.g1 - r.g0) * n) r.n (r.g1 - r.g0)
  else r.g0 + roundTo ((r.g1 - r.g0) * cosWeight n r.n) (2 * fx) (r.g1 - r.g0)

/-- Gain of sample i of tick t. -/
def Ramp.atTick (r : Ramp) (t i : Nat) : Int := r.gain (4 * (t - r.start) + i + 1)

/-- The same, with the first gain before the ramp starts. -/
def Ramp.held (r : Ramp) (t i : Nat) : Int := if t < r.start then r.g0 else r.atTick t i

/-- Whether the ramp has given its last sample before tick t. -/
def Ramp.done (r : Ramp) (t : Nat) : Bool := decide (r.start + (r.n + 3) / 4 ≤ t)

/-- The samples of a ramp time (R71): 96 × RAMP_MS, 0 meaning 20 ms. -/
def rampN (ms : Nat) : Nat := 96 * (if ms = 0 then 20 else ms)

/-- The gain last computed before tick t: where a new ramp starts (R72). -/
def Ramp.last (r : Ramp) (t : Nat) : Int := r.gain (4 * (t - r.start))

/-! ### Crossfades -/

/-- The weight of the new source is a gain ramp from 0 to 2²⁰ (R71, R74). -/
def fadeRamp (t ms shape : Nat) : Ramp := ⟨0, 1048576, t, rampN ms, shape⟩

/-- Start a crossfade to a new source at tick t: from the source alone, or from the weights an earlier crossfade had
reached (R74). -/
def startFade (old : Option Fade) (cur new t ms shape : Nat) : Fade :=
  match old with
  | none => ⟨[(cur, 1)], 1, new, fadeRamp t ms shape⟩
  | some f =>
    let w := (f.ramp.last t).toNat
    ⟨(f.new, w * f.den) :: f.old.map (fun p => (p.1, p.2 * (1048576 - w))), f.den * 1048576, new, fadeRamp t ms shape⟩

/-- One sample of a crossfade: the weighted sum of its sources over the common denominator. -/
def Fade.sample (f : Fade) (w : Nat) (x : Nat → Int) : Int × Nat :=
  (f.old.foldl (fun a p => a + ((p.2 * (1048576 - w) : Nat) : Int) * x p.1) 0 + ((w * f.den : Nat) : Int) * x f.new,
    f.den * 1048576)

/-- A block of a crossfade of blocks. -/
def State.fadeBlk (s : State) (f : Fade) (t : Nat) (x : Nat → Blk) : Blk × State :=
  s.blk (fun i s =>
    let (n, d) := f.sample (f.ramp.atTick t i).toNat (fun k => (x k).at i)
    s.q31 n d)

end Sys2Proof.Machine
end

