-- ==== Sys2Proof/Machine/Banks.lean ====
section
/-! DEFINITION. Double-banked tables (R64, R65, R182, R208, R251) and the transfers of bank entries from and to the host's
buffers. A two-bank table of n entries is a sparse collection under the keys bank·n + entry. -/

namespace Sys2Proof.Machine

/-- Copy the active bank into the inactive one (R65). -/
def copyBank {α : Type} (n act : Nat) (m : AMap α) : AMap α :=
  let a := (m.filter (fun p => p.1 / n == act)).map (fun p => (p.1 % n, p.2))
  a ++ a.map (fun p => (n + p.1, p.2))

/-- Write consecutive entries of a bank from little-endian bytes, `w` bytes each; `d` is what an unlisted entry reads. -/
def writeEntries (d w : Nat) (key : Nat) (b : List Byte) : Nat → AMap Nat → AMap Nat
  | 0, m => m
  | n + 1, m => mput d (writeEntries d w key b n m) (key + n) (leAt b (w * n) w)

/-- The bytes of consecutive entries. -/
def readEntries (d w : Nat) (key n : Nat) (m : AMap Nat) : List Byte :=
  (List.range n).flatMap (fun i => leBytes w (mget d m (key + i)))

/-- The range check of a transfer of `c.b` entries of `w` bytes from entry `c.a` in a table of `n` (R276). -/
def spanOk (n w : Nat) (c : Cmd) : Bool := decide (1 ≤ c.b) && decide (c.a + c.b ≤ n) && decide (w * c.b ≤ c.len)
    && decide (c.len ≤ w * n)

/-- An exact quotient, or its floor or the step above when it falls between two (assumption 1). -/
def State.quot (s : State) (num den : Nat) : Nat × State :=
  if num % den = 0 then (num / den, s)
  else
    let (w, s) := s.freeWord
    (num / den + b2n (w.getLsbD 0), s)

/-- Largest r with r² ≤ n, bit by bit from bit k − 1. -/
def isqrtBits (n : Nat) : Nat → Nat → Nat
  | 0, r => r
  | k + 1, r => isqrtBits n k (if (r + 2 ^ k) * (r + 2 ^ k) ≤ n then r + 2 ^ k else r)

def isqrt (n : Nat) : Nat := isqrtBits n (n.log2 / 2 + 1) 0

/-- A command of this code is armed, held or due at the next boundary. -/
def State.armedAny (s : State) (code : Nat) : Bool := (s.sched ++ s.dueNext).any (fun e => e.code == code)

/-- The package level of the Sump (R326). -/
def State.level (s : State) : Nat := s.fg F.SMP_STAT_PKG_LEVEL 0

end Sys2Proof.Machine
end

