-- ==== Sys2Proof/Machine/Census.lean ====
section
/-! DEFINITION. The census (R407 - R414) and the commands of the performance counters (R415 - R419). -/

namespace Sys2Proof.Machine

/-! ### Counter sets (R407, R414) -/

/-- The registers of a set in the order of its section: PMP, ECC, SMP and LINE. -/
def setRegs : Nat → List (RegId × Nat)
  | 1 => (List.range 448).map (fun i => (.PMP_CH_CNT, i))
  | 2 => (List.range 6).flatMap (fun g => [(.RG_ECC_CNT0, g), (.RG_ECC_CNT1, g), (.RG_ECC_CNT2, g)])
      ++ [(.DPR_HUB_CNT0, 0), (.DPR_HUB_CNT1, 0), (.DPR_DDR_CNT, 0)] ++ (List.range 8).map (fun i => (.DPR_LOGSTAT, i))
  | 3 => (List.range 8).map (fun i => (.SMP_CLASS_STAT, i)) ++ [(.SMP_LOGSTAT, 0)]
  | 4 => [(.LW_EVENTS, 0), (.FLT_TRIPS, 0)] ++ (List.range 24).map (fun i => (.DP_ERR, i))
  | _ => []

/-- Bytes of a section. -/
def setSize : Nat → Nat
  | 0 => 2560 | 1 => 1792 | 2 => 128 | 3 => 64 | 4 => 128 | _ => 0

/-- The set an RCL register belongs to. -/
def setOf (r : RegId) : Option Nat :=
  if r = .NET_CNT_LO then some 0 else (List.range 5).find? (fun k => (setRegs k).any (fun e => e.1 == r))

/-- Clear the RCL fields of a register. -/
def State.rclClear (s : State) (r : RegId) (i : Nat) : State :=
  s.rw r i (maskPut (s.rr r i) 0 (accMask r (· == .rcl)))

/-- Length of a census buffer (R413, R414). -/
def cenLen (mask : Nat) : Nat := 64 + (bitList 5 mask).foldl (fun n k => n + setSize k) 0

/-- CEN_STAT shows the census armed or copying. -/
def State.showCen (s : State) : State :=
  match s.cen.copy, (s.sched ++ s.dueNext).find? (fun e => e.code == Code.CENSUS_AT) with
  | some c, _ => (s.fs F.CEN_STAT_STATE 0 2).fs F.CEN_STAT_MASK 0 c.entry.cmd.a
  | none, some e => (s.fs F.CEN_STAT_STATE 0 1).fs F.CEN_STAT_MASK 0 e.cmd.a
  | none, none => (s.fs F.CEN_STAT_STATE 0 0).fs F.CEN_STAT_MASK 0 0

def chkCensusAt (c : Cmd) (s : State) : Chk :=
  if s.armedAny Code.CENSUS_AT ∨ s.cen.copy.isSome then (Sts.CEN_BUSY, [])
  else if c.a = 0 ∨ 32 ≤ c.a ∨ c.addr % 64 ≠ 0 ∨ 0x1C0000000 < c.addr + cenLen c.a then (Sts.CEN_RANGE, [])
  else Chk.ok

/-- Number a census as it is accepted: cancelled ones count too (R413). -/
def execCensusAt (c : Cmd) (s : State) : Host.Outcome State Fault Refusal :=
  let seq := s.hif.cmdSeq
  let t := submit Code.CENSUS_AT chkCensusAt c s
  .next (if (t.sched ++ t.dueNext).any (fun e => e.seq == seq) then
      ({ t with cen := { t.cen with count := t.cen.count + 1 } } : State).showCen
    else t)

/-- Whether the counters of a set entry are of an island that is off: they read 0 (R414). -/
def State.cntOff (s : State) (e : RegId × Nat) : Bool :=
  match e.1 with
  | .PMP_CH_CNT => decide (e.2 < 384) && !s.fb F.RG_PWR_ON (e.2 / 64)
  | .RG_ECC_CNT0 | .RG_ECC_CNT1 | .RG_ECC_CNT2 => !s.fb F.RG_PWR_ON e.2
  | _ => false

/-- The section of a set. -/
def State.setImage (s : State) (k : Nat) : List Byte :=
  let b := if k = 0 then (List.range 320).flatMap (fun i => leBytes 8 (mget 0 s.net.cnt i))
    else (setRegs k).flatMap (fun e => leBytes 4 (if s.cntOff e then 0 else (s.rr e.1 e.2).toNat))
  b ++ List.replicate (setSize k - b.length) 0

/-- Clear the counters of a set. -/
def State.setClear (s : State) (k : Nat) : State :=
  if k = 0 then { s with net := { s.net with cnt := [] } }
  else (setRegs k).foldl (fun s e => s.rclClear e.1 e.2) s

/-- The snapshot (R411): every counter of the named sets is copied and cleared, and the header is formed (R413). -/
def applyCensusAt (e : Entry) (s : State) : State :=
  let mask := e.cmd.a % 32
  let sets := bitList 5 mask
  let live := s.fg F.CEN_STAT_LIVE 0
  let off := (List.range 6).foldl (fun n g => n + (if s.fb F.RG_PWR_ON g then 0 else 2 ^ g)) 0
  let img := sets.flatMap (fun k => s.setImage k)
  let head := [0x43, 0x45, 0x4E, 0x31] ++ leBytes 4 s.cen.count ++ leBytes 4 s.mts ++ leBytes 6 s.time.sec.toNat
    ++ leBytes 1 mask ++ leBytes 1 (b2n e.late) ++ leBytes 4 s.tickno ++ leBytes 1 (live &&& mask) ++ leBytes 1 off
    ++ leBytes 2 0 ++ leBytes 4 (cenLen mask) ++ List.replicate 28 0
  let s := (sets.foldl State.setClear s).fs F.CEN_STAT_LIVE 0 (live - (live &&& mask))
  ({ s with cen := { s.cen with copy := some ⟨e, img, head, s.mts, s.cen.count⟩ } } : State).showCen

/-- CENSUS_SNAPSHOT: the counter reaches an armed census's target (R411). -/
def execCensusSnapshot (dt : Nat) (s : State) : Host.Outcome State Fault Refusal :=
  let s := s.elapse dt
  .next (match s.sched.find? (fun e => e.code == Code.CENSUS_AT && !e.held && decide (e.place ≤ s.now)) with
    | some e => applyCensusAt e { s with sched := s.sched.filter (fun x => x.seq != e.seq) }
    | none => s)

/-- CENSUS_COPY_COMPLETE (R412): sections and header are written and the completion follows; an error ends the census with
its Pump status and no header. -/
def execCensusCopyComplete (status : Nat) (s : State) : Host.Outcome State Fault Refusal :=
  .next (match s.cen.copy with
    | none => s
    | some c =>
      let w := s.cen.wait
      let s := { s with cen := { s.cen with copy := none, wait := [] } }
      let bad : Bool := status == Sts.PMP_ECC || status == Sts.PMP_BUS_ERROR
      let s := if bad then s
        else
          let hdr := c.head ++ leBytes 4 (crc32c (c.head ++ c.image))
          let s := ((s.busWrite (c.entry.cmd.addr + 64) c.image 0).2.busWrite c.entry.cmd.addr hdr 0).2
          (s.rw .CEN_SEQ 0 (BitVec.ofNat 32 c.seq)).rw .CEN_MTS 0 (BitVec.ofNat 32 c.mts)
      let cpl := c.entry.cpl (if bad then status else Sts.OK) c.mts (if bad then [] else [64 + c.image.length, c.seq])
      let s := if c.entry.imm ∨ c.entry.late then s.cplFirst cpl else s.cplFinal cpl
      (w.foldl State.cplFinal s).showCen)

/-- A live read of an RCL field (R408): the field is cleared and its set marked. -/
def State.liveRead (s : State) (r : RegId) (i : Nat) : State :=
  let s := match setOf r with
    | some k => s.fs F.CEN_STAT_LIVE 0 (setBit (s.fg F.CEN_STAT_LIVE 0) k true)
    | none => s
  s.rclClear r i

/-! ### Performance counters -/

def chkPcSet (c : Cmd) (_ : State) : Chk :=
  let ws := [c.i0, c.i1, c.i2, c.i3]
  let unit := c.a < 192
  let agg := 0x100 ≤ c.a ∧ c.a < 0x106
  if (unit ∧ ws.all (fun w => imgOk .PC_SEL w && decide (w < 128)))
      ∨ (agg ∧ ws.all (fun w => imgOk .PC_AGG_SEL w && w &&& 0xFFF0C080 == 0)) then Chk.ok
  else (Sts.CMD_RANGE, [])

/-- PC_SET at its boundary (R419): selections written, counters and OVF bits cleared. -/
def applyPcSet (e : Entry) (s : State) : State :=
  let c := e.cmd
  let agg := decide (0x100 ≤ c.a)
  let n := if agg then c.a - 0x100 else c.a
  let s := ([c.i0, c.i1, c.i2, c.i3].zipIdx).foldl (fun s p =>
    (s.rw (if agg then .PC_AGG_SEL else .PC_SEL) (4 * n + p.2) (BitVec.ofNat 32 p.1)).rw
      (if agg then .PC_AGG_CNT else .PC_CNT) (4 * n + p.2) 0) s
  (s.rw (if agg then .PC_AGG_OVF else .PC_OVF) n 0).finish e Sts.OK [] false

def execPcSet (c : Cmd) (s : State) : Host.Outcome State Fault Refusal := .next (submit Code.PC_SET chkPcSet c s)

/-- Whether an aggregator event counts signals of the region matrix and the Cistern banks that no command of the block
shows: its count is open (assumption 1). -/
def openAgg (ev : Nat) : Bool := ev == 1 || ev == 2 || ev == 3 || ev == 5

/-- What a read of performance counter i, of a unit or of an aggregator, changes (R418): it latches the MTS of the instant at
which it samples the counter. -/
def State.pcRead (s : State) (agg : Bool) (i : Nat) : State :=
  if agg then
    let s := if openAgg (s.fg F.PC_AGG_SEL_EVENT i) then
        let (w, s) := s.freeWord
        s.rw .PC_AGG_CNT i w
      else s
    s.rw .PC_AGG_MTS (i / 4) (BitVec.ofNat 32 s.mts)
  else s.rw .PC_MTS (i / 4) (BitVec.ofNat 32 s.mts)

/-- PC_CNT_READ (R418): a read gives the counter and latches the MTS. -/
def execPcCntRead (agg : Bool) (n j dt : Nat) (s : State) : Host.Outcome State Fault Refusal :=
  let s := s.elapse dt
  .next (if 4 ≤ j ∨ (agg && decide (6 ≤ n)) ∨ 192 ≤ n then s
    else
      let t := s.pcRead agg (4 * n + j)
      { t with hif := { t.hif with rdata := (t.rr (if agg then .PC_AGG_CNT else .PC_CNT) (4 * n + j)).toNat } })

/-- PERFORMANCE_COUNTER_OVERFLOW (R417): a counter whose next event takes it past 0xFFFFFFFF wraps to 0 and sets its OVF bit. One
whose event no command shows may be about to wrap at any instant. -/
def execPerformanceCounterOverflow (agg : Bool) (n j : Nat) (s : State) : Host.Outcome State Fault Refusal :=
  .next (if 4 ≤ j ∨ (agg && decide (6 ≤ n)) ∨ 192 ≤ n then s
    else if agg then
      (if s.fg F.PC_AGG_SEL_EVENT (4 * n + j) ≠ 0
          ∧ (openAgg (s.fg F.PC_AGG_SEL_EVENT (4 * n + j)) ∨ s.rr .PC_AGG_CNT (4 * n + j) = 0xFFFFFFFF) then
        (s.rw .PC_AGG_CNT (4 * n + j) 0).pcOvf true n j
      else s)
    else if s.fg F.PC_SEL_EVENT (4 * n + j) ≠ 0 ∧ s.rr .PC_CNT (4 * n + j) = 0xFFFFFFFF then
      (s.rw .PC_CNT (4 * n + j) 0).pcOvf false n j
    else s)

end Sys2Proof.Machine
end

