-- ==== Sys2Proof/Machine/Ports.lean ====
section
/-! DEFINITION. Converter groups (R58 - R60) and the TDM and PDM ports (R216 - R237). Samples enter the Router under the key
of their source and their number on the 96 kHz grid; a converter's response is given by its delay alone, so the values it
delivers are open (assumption 1). -/

namespace Sys2Proof.Machine

/-! ### Samples at the Router -/

/-- The key of a source or destination: TYPE, INST, CHAN of a Router entry (R62). -/
def endKey (ty inst chan : Nat) : Nat := ty * 2 ^ 32 + inst * 2 ^ 16 + chan

/-- A sample arrives with its number on the sample grid (R56). -/
def State.pushIn (s : State) (key n : Nat) (v : Int) : State :=
  let l := mget [] s.aud.inq key
  if l.any (fun p => p.1 == n) then s
  else { s with aud := { s.aud with inq := mput [] s.aud.inq key (l ++ [(n, v)]) } }

/-- Global number of the first sample instant at or after an instant, and of the last at or before it. -/
def sampleAtOrAfter (full : Nat) : Nat :=
  let n := (full % 1000000000 * 96000 + 999999999) / 1000000000
  let n := if full % 1000000000 ≤ (n - 1) * 1000000000 / 96000 ∧ 0 < n then n - 1 else n
  full / 1000000000 * 96000 + n
def sampleAtOrBefore (full : Nat) : Nat :=
  full / 1000000000 * 96000 + ((full % 1000000000 + 1) * 96000 - 1) / 1000000000

/-! ### Converter groups (R58 - R60) -/

/-- The key of a group: the source or destination side, TYPE and INST. -/
def grpKey (out : Bool) (ty inst : Nat) : Nat := b2n out * 2 ^ 40 + ty * 2 ^ 32 + inst * 2 ^ 16

/-- Conversion modes of R58. -/
abbrev Conv.DIRECT : Nat := 0
abbrev Conv.POLY : Nat := 1
abbrev Conv.ASRC : Nat := 2

/-- Converters in use but for the groups of a list of keys. -/
def State.convInUse (s : State) (but : List Nat) : Nat :=
  s.aud.conv.foldl (fun n g => if g.key ∈ but then n else n + g.count) 0

/-- Configure a group: it takes its place after those configured before it; without converters it leaves the list. -/
def State.convSet (s : State) (key count : Nat) (asrc : Bool) : State :=
  let l := s.aud.conv.filter (fun g => g.key != key)
  { s with aud := { s.aud with
      conv := if count = 0 then l else l ++ [⟨key, count, asrc, false, none, false⟩]
      convHist := s.aud.convHist.filter (fun p => p.1 % 2 ^ 48 / 65536 + p.1 / 2 ^ 48 * 2 ^ 24 != key / 65536) } }

def State.convOf (s : State) (key : Nat) : Option ConvGrp := s.aud.conv.find? (fun g => g.key == key)

/-- The place of an output channel's samples among those that converters filter. -/
def outHist (key : Nat) : Nat := key + 2 ^ 48

/-- A sample enters a converter's filter: as zero where its word is uncorrectable (R316). A filter whose group delay is 12 or 64
samples spans twice as many and one (R58). -/
def State.convPush (s : State) (mode key : Nat) (v : Int) : State :=
  let n := if mode = Conv.ASRC then 129 else 25
  let v := if s.lost Tab.CONV key then 0 else v
  { s with aud := { s.aud with convHist := mput [] s.aud.convHist key ((v :: mget [] s.aud.convHist key).take n) } }

/-- A sample a converter gives: silence for silence, else what its filter makes of the samples in it (assumption 62). -/
def State.convValue (s : State) (mode key phase : Nat) : Int × State :=
  let h := mget [] s.aud.convHist key
  if h.all (· == 0) then (0, s)
  else if mode = Conv.ASRC then ((Config.convFilter mode s.free h).toInt, { s with free := s.free + 1 })
  else ((Config.convFilter mode phase h).toInt, s)

/-- Deliver a sample of a group: at once for DIRECT, through the filter after 12 samples for POLY, where one of a 48 kHz group gives
two (R58). An ASRC group filters it for the instants to come (R59). -/
def State.pushMode (s : State) (mode key n : Nat) (v : Int) (twice : Bool) : State :=
  if mode = Conv.DIRECT then s.pushIn key n v
  else
    let s := s.convPush mode key v
    if mode = Conv.ASRC then s
    else
      let (w, s) := s.convValue mode key 0
      let s := s.pushIn key (n + 12) w
      if twice then
        let (w, s) := s.convValue mode key 1
        s.pushIn key (n + 13) w
      else s

/-- The samples an output converter makes of a block (R58): two at 48 kHz, eight at 192 kHz. -/
def State.convBlk (s : State) (key : Nat) (b : Blk) (up : Bool) : List Int × State :=
  (List.range 4).foldl (fun (q : List Int × State) i =>
    let t := q.2.convPush Conv.POLY key (b.at i)
    if up then
      let (v, t) := t.convValue Conv.POLY key 0
      let (w, t) := t.convValue Conv.POLY key 1
      (q.1 ++ [v, w], t)
    else if i % 2 = 0 then
      let (v, t) := t.convValue Conv.POLY key 0
      (q.1 ++ [v], t)
    else (q.1, t)) (([] : List Int), s)

/-- The converter of a group by its place among the 64: what family 0x34 names. -/
def State.convIndex (s : State) (key : Nat) : Nat :=
  (s.aud.conv.takeWhile (fun g => g.key != key)).foldl (fun n g => n + g.count) 0

/-- ASRC_SETTLED (R59): the estimate settles and the group ramps in. -/
def execAsrcSettled (key : Nat) (s : State) : Host.Outcome State Fault Refusal :=
  .next { s with aud := { s.aud with conv := s.aud.conv.map (fun (g : ConvGrp) =>
    if g.key = key ∧ g.asrc ∧ !g.settled then { g with settled := true, fade := some (s.time.tick + 1), out := false } else g) } }

/-- ASRC_RATE_LOSS (R59): the group ramps to silence, family 0x34 is raised, settling starts again. -/
def execAsrcRateLoss (key : Nat) (s : State) : Host.Outcome State Fault Refusal :=
  .next (match s.convOf key with
    | none => s
    | some g =>
      if !g.asrc then s
      else
        let s := { s with aud := { s.aud with conv := s.aud.conv.map (fun (g : ConvGrp) =>
          if g.key = key then { g with settled := false, fade := if g.settled then some (s.time.tick + 1) else none, out := true }
          else g) } }
        s.det 0x34 (s.convIndex key / 4) (s.convIndex key) 0 0)

/-! ### TDM settings -/

def tdmFsHz : Nat → Nat
  | 0 => 32000 | 1 => 44100 | 2 => 48000 | 3 => 88200 | 4 => 96000 | 5 => 176400 | _ => 192000
def tdmBits : Nat → Nat
  | 0 => 16 | 1 => 24 | _ => 32

def State.tdm (s : State) (p : Nat) : TdmPort := mget TdmPort.reset s.ap.tdm p
def State.setTdm (s : State) (p : Nat) (x : TdmPort) : State :=
  { s with ap := { s.ap with tdm := mput TdmPort.reset s.ap.tdm p x } }
def State.tdmFs (s : State) (p : Nat) : Nat := tdmFsHz (s.fg F.TDM_FRAME_FS p)
def State.tdmSlots (s : State) (p : Nat) : Nat := s.fg F.TDM_FRAME_SLOTS p
def State.tdmBitsOf (s : State) (p : Nat) : Nat := tdmBits (s.fg F.TDM_FRAME_SLOT_BITS p)
def State.tdmOn (s : State) (p : Nat) : Bool := s.fb F.TDM_CTL_RX_EN p || s.fb F.TDM_CTL_TX_EN p
/-- Whether a direction (0 RX, 1 TX) uses the ring. -/
def State.tdmRing (s : State) (p dir : Nat) : Bool := s.fb F.TDM_CTL_RING p && s.fg F.TDM_CTL_RING_DIR p == dir

/-- Mode of a port's Router directions (R219). -/
def tdmMode (master sync : Bool) (fs : Nat) : Nat :=
  if !master && !sync then Conv.ASRC else if fs = 4 then Conv.DIRECT else Conv.POLY
def State.tdmModeOf (s : State) (p : Nat) : Nat :=
  tdmMode (s.fb F.TDM_CTL_MASTER p) (s.fb F.TDM_CTL_SYNC p) (s.fg F.TDM_FRAME_FS p)

/-- Whether a Router entry of the active bank names an end point with Class S: an input entry of class 2, or an output entry
whose OC slot's output word has class 2. -/
def State.classSEnd (s : State) (out : Bool) (ty inst : Nat) : Bool :=
  s.aud.rt.any (fun p =>
    p.1 / 4096 == s.aud.rtAct && p.2.testBit 63 && p.2.testBit 62 == out && bits p.2 43 40 == ty && bits p.2 39 24 == inst
      && (if out then bits ((mget (0 : Word) s.aud.moWord (bits p.2 57 48)).toNat) 31 30 == 2 else bits p.2 61 60 == 2))

/-- Frame-grid number of an instant that is a frame sync instant of rate fs (R220). -/
def frameNo (fs full : Nat) : Option Nat :=
  let ns := full % 1000000000
  let i := (ns * fs + 999999999) / 1000000000
  let hit := fun j => decide (j * 1000000000 / fs = ns)
  if hit i then some (full / 1000000000 * fs + i)
  else if 0 < i ∧ hit (i - 1) then some (full / 1000000000 * fs + i - 1) else none

/-- The grid instant at or before an instant. -/
def gridBefore (fs full : Nat) : Nat :=
  full / 1000000000 * 1000000000 + ((full % 1000000000 + 1) * fs - 1) / 1000000000 * 1000000000 / fs

/-- The settings a TDM_SET on its way will give port p (R60, R218): the last one accepted whose transfer is still to come. -/
def State.tdmWaits (s : State) (p : Nat) : Option Cmd :=
  (((s.rwsWait ++ s.dueNext).filter (fun e => e.code == Code.TDM_SET && e.cmd.a == p)).getLast?).map (·.cmd)

/-- Converters that a port's settings take (R219): one for each direction in use that the Router serves. -/
def tdmNeed (ctl fs : Nat) : Nat :=
  let mode := tdmMode (F.TDM_CTL_MASTER.get ctl == 1) (F.TDM_CTL_SYNC.get ctl == 1) fs
  let ring := F.TDM_CTL_RING.get ctl == 1
  let rdir := F.TDM_CTL_RING_DIR.get ctl
  if mode = Conv.DIRECT then 0
  else b2n (F.TDM_CTL_RX_EN.get ctl == 1 && !(ring && rdir == 0)) + b2n (F.TDM_CTL_TX_EN.get ctl == 1 && !(ring && rdir == 1))

/-- Converters in use or promised to a TDM_SET on its way, but for the groups of a list of keys (R60). -/
def State.convUsed (s : State) (but : List Nat) : Nat :=
  (List.range 16).foldl (fun n p =>
    match s.tdmWaits p with
    | some c =>
      if grpKey false 2 p ∈ but then n
      else
        let has := s.convInUse but - s.convInUse (but ++ [grpKey false 2 p, grpKey true 2 p])
        n + (tdmNeed c.i0 (F.TDM_FRAME_FS.get c.i1) - has)
    | none => n) (s.convInUse but)

/-- The group and the rate that a port has, or that a TDM_SET on its way will give it. -/
def State.tdmAgFs (s : State) (p : Nat) : Nat × Nat :=
  match s.tdmWaits p with
  | some c => (F.TDM_CTL_AG.get c.i0, F.TDM_FRAME_FS.get c.i1)
  | none => (s.fg F.TDM_CTL_AG p, s.fg F.TDM_FRAME_FS p)

/-- TDM_SET's checks in their order (R218). -/
def chkTdmSet (c : Cmd) (s : State) : Chk :=
  let p := c.a
  let master := F.TDM_CTL_MASTER.get c.i0 == 1
  let sync := F.TDM_CTL_SYNC.get c.i0 == 1
  let fs := F.TDM_FRAME_FS.get c.i1
  let slots := F.TDM_FRAME_SLOTS.get c.i1
  let fmt := F.TDM_CTL_FORMAT.get c.i0
  let ag := F.TDM_CTL_AG.get c.i0
  let ring := F.TDM_CTL_RING.get c.i0 == 1
  let rdir := F.TDM_CTL_RING_DIR.get c.i0
  if 16 ≤ p then (Sts.CMD_RANGE, [])
  else if 49152000 < tdmFsHz fs * slots * tdmBits (F.TDM_FRAME_SLOT_BITS.get c.i1)
      ∨ (fmt < 2 ∧ slots ≠ 2) ∨ !imgOk .TDM_CTL c.i0 ∨ !imgOk .TDM_FRAME c.i1
      ∨ ((master ∨ sync) ∧ fs ≠ 2 ∧ fs ≠ 4 ∧ fs ≠ 6) ∨ (ring ∧ rdir = 1 ∧ !master) then (Sts.TDM_RANGE, [])
  else if ag ≠ 4 ∧ (!master ∨ (List.range 16).any (fun q =>
      q != p && (s.tdmAgFs q).1 == ag && (s.tdmAgFs q).2 != fs)) then (Sts.TDM_AG_CONFLICT, [])
  else if 64 < s.convUsed [grpKey false 2 p, grpKey true 2 p] + tdmNeed c.i0 fs then (Sts.SRC_EXHAUSTED, [])
  else if tdmMode master sync fs = Conv.ASRC ∧ (s.classSEnd false 2 p ∨ s.classSEnd true 2 p) then (Sts.SRC_CLASS, [])
  else Chk.ok

/-- The groups' registers: members, their rate, their state (R231). -/
def State.agShow (s : State) : State :=
  (List.range 4).foldl (fun s a =>
    let m := (List.range 16).filter (fun p => s.fg F.TDM_CTL_AG p == a)
    let fs := match m with
      | p :: _ => s.fg F.TDM_FRAME_FS p
      | [] => 0
    let armed := (s.sched ++ s.dueNext).any (fun e => e.code == Code.TDM_AG_START && e.cmd.a == a)
    let st := if s.ap.agRun.testBit a then 2 else if armed then 1 else 0
    ((s.fs F.TDM_AG_STAT_MEMBERS a (m.foldl (fun n p => n + 2 ^ p) 0)).fs F.TDM_AG_STAT_FS a fs).fs F.TDM_AG_STAT_STATE a st) s

/-! ### Rings (R226 - R230) -/

def packWord (form : Nat) (w : Word) : List Byte :=
  let v := w.toNat
  match form with
  | 0 => leBytes 3 (v / 256)
  | 1 => leBytes 4 (wrap 32 (sext 24 (v / 256)))
  | 2 => leBytes 4 (v / 256 * 256)
  | _ => leBytes 4 v
def packLen (form : Nat) : Nat := if form = 0 then 3 else 4
def unpackWord (form : Nat) (b : List Byte) : Word :=
  let v := leVal b
  BitVec.ofNat 32 (match form with
    | 0 => v * 256
    | 1 => v % 2 ^ 24 * 256
    | 2 => v / 256 * 256
    | _ => v)

/-- RECSZ (R227). -/
def State.recSz (s : State) (p : Nat) : Nat :=
  (16 + s.fg F.TDM_PACK_BLOCK_N p * s.tdmSlots p * packLen (s.fg F.TDM_PACK_PACK p) + 63) / 64

def State.recAddr (s : State) (p i : Nat) : Nat :=
  s.fg F.TDM_RING_BASE_BASE p * 64 + i % 2 ^ s.fg F.TDM_RING_CFG_SIZE p * s.recSz p * 64

/-- Close the open RX record (R228, R229): written unless the ring is full. -/
def State.closeRec (s : State) (p : Nat) (short : Bool) : State :=
  let x := s.tdm p
  if x.frames = [] then s
  else
    let pi := s.fg F.TDM_RING_IDX_PI p
    let full := (pi + 65536 - s.fg F.TDM_RING_IDX_CI p) % 65536 ≥ 2 ^ s.fg F.TDM_RING_CFG_SIZE p
    let form := s.fg F.TDM_PACK_PACK p
    let s := s.setTdm p { x with frames := [], seq := (x.seq + 1) % 2 ^ 32, gap := decide full, step := x.step && decide full }
    if full then s.fadd F.TDM_ERR_OVERRUN p 1
    else
      let b := leBytes 4 x.recMts ++ leBytes 4 x.seq ++ leBytes 4 x.recMask ++ leBytes 2 x.frames.length
        ++ leBytes 1 (b2n short + 2 * b2n x.gap + 4 * b2n x.step) ++ leBytes 1 form
        ++ x.frames.flatMap (fun f => f.flatMap (packWord form))
      ((s.busWrite (s.recAddr p pi) b 0).2).fs F.TDM_RING_IDX_PI p ((pi + 1) % 65536)

/-- A frame enters the open RX record; BLOCK_N frames close it. -/
def State.ringRx (s : State) (p : Nat) (mts : Nat) (ws : List Word) : State :=
  let x := s.tdm p
  let mask := s.fg F.TDM_MASK_RX_MASK p % 2 ^ s.tdmSlots p
  let f := (bitList 32 mask).map (fun i => ws.getD i 0)
  let x := if x.frames = [] then { x with recMts := mts, recMask := mask } else x
  let s := s.setTdm p { x with frames := x.frames ++ [f] }
  if s.fg F.TDM_PACK_BLOCK_N p ≤ x.frames.length + 1 then s.closeRec p false else s

/-- PI as far as it was written 10 µs or more ago (R230). -/
def State.usablePi (s : State) (p : Nat) : Nat :=
  match (s.tdm p).piLog.find? (fun e => decide (e.1 + 10000 ≤ s.time.up)) with
  | some e => e.2
  | none => s.fg F.TDM_RING_IDX_CI p

/-- The record that covers frame number `i` (R230): records before it are discarded and counted; its last frame ends it.
`n` bounds the search. -/
def State.findRec (s : State) (p fs i : Nat) : Nat → Option (List (Nat × Word)) × State
  | 0 => (none, s)
  | n + 1 =>
    let ci := s.fg F.TDM_RING_IDX_CI p
    if s.usablePi p = ci then (none, s)
    else
      let a := s.recAddr p ci
      let r := s.dpaWord a 4
      let full := ((s.now : Int) + sext 32 (r + 2 ^ 32 - s.mts)).toNat
      let mask := s.dpaWord (a + 8) 4
      let frames := s.dpaWord (a + 12) 2
      let form := s.fg F.TDM_PACK_PACK p
      let drop := (s.fs F.TDM_RING_IDX_CI p ((ci + 1) % 65536)).fadd F.TDM_ERR_LATE p 1
      match frameNo fs full with
      | none => drop.findRec p fs i n
      | some j =>
        if j + frames ≤ i then drop.findRec p fs i n
        else if i < j then (none, s)
        else
          let slots := bitList 32 mask
          let b := a + 16 + (i - j) * slots.length * packLen form
          let s := if i + 1 = j + frames then s.fs F.TDM_RING_IDX_CI p ((ci + 1) % 65536) else s
          (some (slots.zipIdx.map (fun q => (q.1, unpackWord form (s.dpaRead (b + q.2 * packLen form) (packLen form))))), s)

/-- A word scaled by w/n. -/
def State.scaleWord (s : State) (v : Word) (w n : Nat) : Word × State :=
  if w = n then (v, s)
  else
    let (y, s) := s.q31 (v.toInt * w) n
    (BitVec.ofInt 32 y, s)

/-- Scale every word of a frame. -/
def State.scaleFrame (s : State) (w n : Nat) : List (Nat × Word) → List (Nat × Word) × State
  | [] => ([], s)
  | q :: t =>
    let (v, s) := s.scaleWord q.2 w n
    let (r, s) := s.scaleFrame w n t
    ((q.1, v) :: r, s)

/-- The TX ring at a frame sync (R230): the frame covered, or the fade of an underrun. -/
def State.ringTx (s : State) (p i : Nat) : List (Nat × Word) × State :=
  let fs := s.tdmFs p
  let n := fs / 1000
  let (f, s) := s.findRec p fs i (2 ^ s.fg F.TDM_RING_CFG_SIZE p + 1)
  let x := s.tdm p
  match f with
  | some l =>
    let w := if x.sent then min n (x.txW + 1) else n
    let s := s.setTdm p { x with sent := true, txW := w, txLast := l }
    let s := if w = n then s.fs F.TDM_STAT_UNDERRUN p 0 else s
    s.scaleFrame w n l
  | none =>
    if !x.sent then ([], s)
    else
      let s := if s.fb F.TDM_STAT_UNDERRUN p then s
        else ((s.fs F.TDM_STAT_UNDERRUN p 1).fadd F.TDM_ERR_UNDERRUN p 1).post Evt.AUDIO_UNDERRUN p []
      let w := x.txW - 1
      let s := s.setTdm p { s.tdm p with txW := w }
      s.scaleFrame w n x.txLast

/-- The number of a frame within its tick, on the grid of R220. -/
def State.frameOfTick (s : State) (fs : Nat) : Nat :=
  ((s.now % 1000000000 + 1) * fs - 1) / 1000000000 - tickAt s.now % 24000 * fs / 24000

/-- The muting of a TX ring by R20 and R233: a fade over the tick of the restart, then zero until release. -/
def State.ringMute (s : State) (fs : Nat) (l : List (Nat × Word)) : List (Nat × Word) × State :=
  if s.fb F.MT_EPOCH_RELEASED 0 then (l, s)
  else if s.aud.fadeTick = s.time.tick then
    let n := fs / 24000
    s.scaleFrame (n - 1 - s.frameOfTick fs) n l
  else s.scaleFrame 0 1 l

/-! ### Frame syncs (R220 - R224) -/

/-- Guard of a transfer at a frame sync: 4 BCLK in ns (R115). -/
def State.tdmGuard (s : State) (p : Nat) : Nat := 4000000000 / max 1 (s.tdmFs p * s.tdmSlots p * s.tdmBitsOf p)

/-- Stop a port (R224): clocks low, SDOUT Hi-Z, the open record closes. -/
def State.tdmStop (s : State) (p st : Nat) : State :=
  let s := s.closeRec p true
  ((s.setTdm p { s.tdm p with last := none, lockN := 0, out := [], sent := false, txW := 0, txLast := [] }).fs
    F.TDM_STAT_STATE p st).fs F.TDM_STAT_UNDERRUN p 0

/-- Complete the TDM_SET commands of a port whose transfer took place. -/
def State.tdmSetDone (s : State) (p : Nat) : State :=
  s.rwsWait.foldl (fun (s : State) (e : Entry) =>
    if e.code = Code.TDM_SET ∧ e.cmd.a = p ∧ !s.arm .TDM_CTL p then
      ({ s with rwsWait := s.rwsWait.filter (fun x => x.seq != e.seq) } : State).finish e Sts.OK [] true
    else s) s

/-- The converter groups of a port as its settings now stand (R219). A group that would need a 65th converter stays unconfigured
(R60). -/
def State.tdmConv (s : State) (p : Nat) : State :=
  let m := s.tdmModeOf p
  let one := fun (s : State) (dir : Nat) (en : Bool) =>
    let key := grpKey (dir == 1) 2 p
    let n := if m ≠ Conv.DIRECT ∧ en ∧ !s.tdmRing p dir ∧ s.convInUse [key] < 64 then 1 else 0
    match s.convOf key with
    | some g => if g.count = n ∧ g.asrc = (m == Conv.ASRC) then s else s.convSet key n (m == Conv.ASRC)
    | none => s.convSet key n (m == Conv.ASRC)
  (one (one s 0 (s.fb F.TDM_CTL_RX_EN p)) 1 (s.fb F.TDM_CTL_TX_EN p)).fs F.TDM_STAT_MODE p m

/-- RECSZ as the settings stand (R227). -/
def State.showRec (s : State) (p : Nat) : State := s.fs F.TDM_RING_CFG_RECSZ p (s.recSz p)

/-- Transfer the shadows of a port (R224): a change of the masks alone is hitless, any other stops the port. -/
def State.tdmHandOver (s : State) (p guard : Nat) : State :=
  if !s.arm .TDM_CTL p then s
  else
    let t := s.handOverPoint .TDM_CTL p guard
    if t.arm .TDM_CTL p then s
    else
      let same := (t.rr .TDM_CTL p).toNat % 2 ^ 31 == (s.rr .TDM_CTL p).toNat % 2 ^ 31 && t.rr .TDM_FRAME p == s.rr .TDM_FRAME p
      let u := if same then s.closeRec p true else s.tdmStop p 0
      let u := u.setTdm p { u.tdm p with moved := s.time.tick + 1 }
      ((((u.handOver .TDM_CTL p).tdmConv p).showRec p).agShow).tdmSetDone p

/-- Start an enabled port at a tick boundary (R220, R221, R231): a lone master runs, a group member waits for its group, from the
first boundary after the transfer of its settings on; a slave locks. -/
def State.tdmStart (s : State) (p : Nat) : State :=
  let st := s.fg F.TDM_STAT_STATE p
  if s.standby ∨ s.pwr = 3 ∨ s.level = 4 then (if st = 0 then s else s.tdmStop p 0)
  else if !s.tdmOn p then (if st = 0 then s else s.tdmStop p 0)
  else if st ≠ 0 ∧ st ≠ 1 then s
  else if s.fb F.TDM_CTL_MASTER p ∧ (s.tdm p).moved = s.time.tick + 1 then s
  else if s.fb F.TDM_CTL_MASTER p then
    let ag := s.fg F.TDM_CTL_AG p
    if ag = 4 ∨ s.ap.agRun.testBit ag then
      (s.setTdm p { s.tdm p with seq := 0, gap := false, step := false }).fs F.TDM_STAT_STATE p 3
    else s.fs F.TDM_STAT_STATE p 1
  else (s.setTdm p { s.tdm p with seq := 0, gap := false, step := false }).fs F.TDM_STAT_STATE p 2

/-- The ports at a tick boundary: hand-overs of ports without frame syncs (R224), then starts. -/
def State.tdmBoundary (s : State) : State :=
  (List.range 16).foldl (fun s p =>
    let s := if s.fg F.TDM_STAT_STATE p = 3 then s else s.tdmHandOver p 100
    (s.showRec p).tdmStart p) s

/-- Media Time was stepped (R233): the frame under way is cut, the open RX record closes, the next one carries STEP. -/
def State.tdmStepped (s : State) : State :=
  (List.range 16).foldl (fun s p =>
    if s.fg F.TDM_STAT_STATE p ≠ 3 then s
    else
      let s := s.closeRec p true
      s.setTdm p { s.tdm p with step := true, last := if s.fb F.TDM_CTL_MASTER p then none else (s.tdm p).last }) s

/-- A framing or lock error (R221): LOST, and at once LOCKING. SDOUT drives 0. -/
def State.tdmLost (s : State) (p : Nat) : State :=
  let s := ((s.tdmStop p 2).fadd F.TDM_ERR_FRAMING p 1).det 0x35 p 0 0 0
  let mask := if s.fb F.TDM_CTL_TX_EN p then bitList (s.tdmSlots p) (s.fg F.TDM_MASK_TX_MASK p) else []
  s.setTdm p { s.tdm p with out := mask.map (fun k => (k, (0 : Word))) }

/-- The received slots of the frame that ends go to the Router (R222, R223), or to the ring. -/
def State.tdmRx (s : State) (p : Nat) (ws : List Word) : State :=
  if !s.fb F.TDM_CTL_RX_EN p then s
  else
    let b := s.tdmBitsOf p
    let top := fun (w : Word) => BitVec.ofNat 32 (w.toNat / 2 ^ (32 - b) * 2 ^ (32 - b))
    let ws := ws.map top
    if s.tdmRing p 0 then s.ringRx p (s.tdm p).mts ws
    else
      let n := sampleAtOrAfter s.now
      let m := s.tdmModeOf p
      let fs := s.tdmFs p
      -- of the two samples of 192 kHz that one instant takes, the converter answers after the second
      let early : Bool := fs == 192000 && sampleAtOrAfter (s.now + 5208) == n
      if m ≠ Conv.DIRECT ∧ (s.convOf (grpKey false 2 p)).isNone then s
      else
        (bitList (s.tdmSlots p) (s.fg F.TDM_MASK_RX_MASK p)).foldl (fun s i =>
          let v := (ws.getD i 0).toInt
          if m = Conv.POLY ∧ early then s.convPush m (endKey 2 p i) v
          else s.pushMode m (endKey 2 p i) n v (fs == 48000)) s

/-- The output converters of the TDM ports on the block that is played (R58, R222): POLY groups make the frames of the tick of it,
ASRC groups filter it for the frames to come. -/
def State.tdmConvert (s : State) : State :=
  (List.range 16).foldl (fun s p =>
    match s.convOf (grpKey true 2 p) with
    | none => s
    | some g =>
      (bitList (s.tdmSlots p) (s.fg F.TDM_MASK_TX_MASK p)).foldl (fun s k =>
        let key := endKey 2 p k
        let b := mget Blk.zero s.aud.outq key
        if g.asrc then (List.range 4).foldl (fun s i => s.convPush Conv.ASRC (outHist key) (b.at i)) s
        else
          let (l, s) := s.convBlk (outHist key) b (s.tdmFs p == 192000)
          { s with aud := { s.aud with convq := mput [] s.aud.convq key l } }) s) { s with aud := { s.aud with convq := [] } }

/-- The word of a slot in the frame that starts (R222): the sample played, what POLY made of it, or an ASRC group's sample, which
is silence until the group has settled and ramps in and out over a tick (R59). -/
def State.tdmTxWord (s : State) (p k : Nat) : Int × State :=
  let key := endKey 2 p k
  let i := sampleAtOrBefore s.now - 4 * tickAt s.now
  if s.tdmModeOf p = Conv.DIRECT then ((mget Blk.zero s.aud.outq key).at i, s)
  else
    match s.convOf (grpKey true 2 p) with
    | none => (0, s)
    | some g =>
      if g.asrc then
        if g.fade = some s.time.tick then
          let (v, s) := s.convValue Conv.ASRC (outHist key) 0
          s.q31 (v * (if g.out then 3 - i else i + 1 : Int)) 4
        else if g.settled then s.convValue Conv.ASRC (outHist key) 0
        else (0, s)
      else ((mget [] s.aud.convq key).getD (s.frameOfTick (s.tdmFs p)) 0, s)

/-- The slots sent in the frame that starts (R222, R223): Router slots from the block being played, ring slots by record. -/
def State.tdmTx (s : State) (p : Nat) : State :=
  if !s.fb F.TDM_CTL_TX_EN p then s.setTdm p { s.tdm p with out := [] }
  else
    let b := s.tdmBitsOf p
    let mask := bitList (s.tdmSlots p) (s.fg F.TDM_MASK_TX_MASK p)
    let (l, s) := if s.tdmRing p 1 then
        let i := (frameNo (s.tdmFs p) s.now).getD 0
        let (l, s) := s.ringTx p i
        let (l, s) := s.ringMute (s.tdmFs p) l
        (mask.map (fun k => (k, ((l.find? (fun q => q.1 == k)).map (·.2)).getD 0)), s)
      else
        mask.foldl (fun q k =>
          let (v, t) := q.2.tdmTxWord p k
          (q.1 ++ [(k, BitVec.ofInt 32 v)], t)) (([] : List (Nat × Word)), s)
    let cut := fun (w : Word) => BitVec.ofNat 32 (w.toNat / 2 ^ (32 - b) * 2 ^ (32 - b))
    s.setTdm p { s.tdm p with out := l.map (fun q => (q.1, cut q.2)) }

/-- The framing checks of a slave at a frame sync (R221). -/
def State.tdmSlave (s : State) (p : Nat) (bclks : Nat) : State :=
  let x := s.tdm p
  let st := s.fg F.TDM_STAT_STATE p
  let sync := s.fb F.TDM_CTL_SYNC p
  let phi := s.now - gridBefore (s.tdmFs p) s.now
  let okB := bclks == s.tdmSlots p * s.tdmBitsOf p
  let near := fun (a b : Nat) => decide (max a b - min a b ≤ 100)
    || decide (1000000000 ≤ (max a b - min a b + 100) * s.tdmFs p)
  if st = 2 then
    if !okB then s.setTdm p { x with lockN := 0, last := some s.time.up }
    else if x.lockN = 0 ∨ (sync ∧ !near phi x.phi) then s.setTdm p { x with lockN := 1, phi := phi, last := some s.time.up }
    else
      let s := s.setTdm p { x with lockN := x.lockN + 1, last := some s.time.up }
      if 16 ≤ x.lockN + 1 then
        (s.fs F.TDM_STAT_STATE p 3).fs F.TDM_STAT_PHASE p (if sync then phi else 0)
      else s
  else if !okB || (sync && !near phi (s.fg F.TDM_STAT_PHASE p)) then s.tdmLost p
  else s.setTdm p { x with last := some s.time.up }

/-- TDM_FRAME_SYNC: a frame sync of port p (R220 - R224). A master port has one at each instant of its grid only. -/
def execTdmFrameSync (p : Nat) (f : TdmSync) (s : State) : Host.Outcome State Fault Refusal :=
  let s := s.elapse f.dt
  let st := s.fg F.TDM_STAT_STATE p
  let master := s.fb F.TDM_CTL_MASTER p
  .next (if 16 ≤ p ∨ st < 2
        ∨ (master ∧ (st ≠ 3 ∨ (s.tdm p).last = some s.time.up ∨ (frameNo (s.tdmFs p) s.now).isNone)) then s
    else
      let first := (s.tdm p).last.isNone || st == 2
      let s := if master then s.setTdm p { s.tdm p with last := some s.time.up } else s.tdmSlave p f.bclks
      if s.fg F.TDM_STAT_STATE p ≠ 3 then s
      else
        let s := if first then s else s.tdmRx p f.words
        let s := s.setTdm p { s.tdm p with mts := s.mts }
        let s := s.tdmHandOver p (s.tdmGuard p)
        if s.fg F.TDM_STAT_STATE p ≠ 3 then (if s.fb F.TDM_CTL_MASTER p then s else s.tdmStart p) else s.tdmTx p)

/-- TDM_FRAME_SYNC_TIMEOUT (R221): no frame sync within 2 frame periods. -/
def execTdmFrameSyncTimeout (p : Nat) (s : State) : Host.Outcome State Fault Refusal :=
  .next (match (s.tdm p).last with
    | some t =>
      if p < 16 ∧ s.fg F.TDM_STAT_STATE p = 3 ∧ !s.fb F.TDM_CTL_MASTER p
          ∧ t + 2 * 1000000000 / s.tdmFs p ≤ s.time.up then s.tdmLost p else s
    | none => s)

/-- TDM_RING_IDX_WRITE (R227): software writes the index it owns; a write that would overfill the ring is ignored. -/
def State.tdmRingIdx (s : State) (p : Nat) (v : Word) : State :=
  let tx := s.fg F.TDM_CTL_RING_DIR p == 1
  let pi := if tx then v.toNat / 65536 else s.fg F.TDM_RING_IDX_PI p
  let ci := if tx then s.fg F.TDM_RING_IDX_CI p else v.toNat % 65536
  if 16 ≤ p then s
    else if 2 ^ s.fg F.TDM_RING_CFG_SIZE p < (pi + 65536 - ci) % 65536 then s.fs F.TDM_STAT_IDX_ERR p 1
    else
      let s := (s.fs F.TDM_RING_IDX_PI p pi).fs F.TDM_RING_IDX_CI p ci
      if tx then
        let x := s.tdm p
        let keep := x.piLog.filter (fun e => decide (s.time.up < e.1 + 10000))
        let old := (x.piLog.filter (fun e => !decide (s.time.up < e.1 + 10000))).take 1
        s.setTdm p { x with piLog := (s.time.up, pi) :: keep ++ old }
      else s

def execTdmRingIdxWrite (p : Nat) (v : Word) (s : State) : Host.Outcome State Fault Refusal := .next (s.tdmRingIdx p v)

/-! ### Commands -/

/-- Windlass writes the shadows and ARM of a port; the command waits for the hand-over (R224). -/
def applyTdmSet (e : Entry) (s : State) : State :=
  let c := e.cmd
  let s := ((s.rwsWrite .TDM_FRAME c.a c.i1).rwsWrite .TDM_MASK_RX c.a c.i2).rwsWrite .TDM_MASK_TX c.a c.i3
  let s := s.rwsWrite .TDM_CTL c.a (c.i0 % 2 ^ 31 + 2 ^ 31)
  { s with rwsWait := s.rwsWait ++ [e] }

/-- Commands whose hand-over point is not the tick boundary: Windlass acts at acceptance, or at the pair's apply boundary
(R356). -/
def submitPort (code : Nat) (chk : Cmd → State → Chk) (wr : Entry → State → State) (c : Cmd) (s : State) : State :=
  let seq := s.hif.cmdSeq
  let t := submit code chk c s
  match t.dueNext.find? (fun e => e.seq == seq) with
  | some e => wr e { t with dueNext := t.dueNext.filter (fun x => x.seq != seq) }
  | none => t

def execTdmSet (c : Cmd) (s : State) : Host.Outcome State Fault Refusal :=
  .next (submitPort Code.TDM_SET chkTdmSet applyTdmSet c s)

/-- TDM_RING_SET (R227): while both directions are disabled; the ring must lie in LPDDR. -/
def chkTdmRingSet (c : Cmd) (s : State) : Chk :=
  let bytes := packLen (F.TDM_PACK_PACK.get c.i0)
  let sz := (16 + F.TDM_PACK_BLOCK_N.get c.i0 * s.tdmSlots c.a * bytes + 63) / 64
  if 16 ≤ c.a then (Sts.CMD_RANGE, [])
  else if s.tdmOn c.a then (Sts.TDM_BUSY, [])
  else if !imgOk .TDM_PACK c.i0 ∨ !imgOk .TDM_RING_CFG c.i2
      ∨ 0x1C0000000 < c.i1 * 64 + 2 ^ F.TDM_RING_CFG_SIZE.get c.i2 * sz * 64 then (Sts.TDM_RANGE, [])
  else Chk.ok

def applyTdmRingSet (e : Entry) (s : State) : State :=
  let k := chkTdmRingSet e.cmd s
  if k.1 ≠ Sts.OK then s.finish e k.1 k.2 false
  else
    let p := e.cmd.a
    let s := ((s.imgWrite .TDM_PACK p e.cmd.i0).imgWrite .TDM_RING_BASE p e.cmd.i1).imgWrite .TDM_RING_CFG p e.cmd.i2
    (s.showRec p).finish e Sts.OK [] true

def execTdmRingSet (c : Cmd) (s : State) : Host.Outcome State Fault Refusal :=
  .next (submit Code.TDM_RING_SET chkTdmRingSet c s)

/-- The members of an alignment group. -/
def State.agMembers (s : State) (a : Nat) : List Nat := (List.range 16).filter (fun p => s.fg F.TDM_CTL_AG p == a)

/-- TDM_AG_START (R231): the target must be a frame sync instant of the group's rate. -/
def chkTdmAgStart (c : Cmd) (s : State) : Chk :=
  if 4 ≤ c.a then (Sts.CMD_RANGE, [])
  else
    match s.agMembers c.a with
    | [] => (Sts.TDM_AG_RANGE, [])
    | p :: _ =>
      if c.tgt ∧ (frameNo (s.tdmFs p) (s.extTarget c).toNat).isNone then (Sts.TDM_AG_RANGE, []) else Chk.ok

/-- The group starts (R231): every member that waits sends its first frame sync at this instant. -/
def applyTdmAgStart (e : Entry) (s : State) : State :=
  let a := e.cmd.a
  let s := { s with ap := { s.ap with agRun := setBit s.ap.agRun a true, agAt := mput 0 s.ap.agAt a (s.now + 1) } }
  let s := (s.agMembers a).foldl (fun s p => if s.fg F.TDM_STAT_STATE p = 1 then s.tdmStart p else s) s
  s.agShow.finish e Sts.OK [] false

def execTdmAgStart (c : Cmd) (s : State) : Host.Outcome State Fault Refusal :=
  .next (submit Code.TDM_AG_START chkTdmAgStart c s).agShow

def chkTdmAgStop (c : Cmd) (_ : State) : Chk := if c.a < 4 then Chk.ok else (Sts.CMD_RANGE, [])

/-- TDM_AG_STOP (R231): the members return to WAIT. -/
def applyTdmAgStop (e : Entry) (s : State) : State :=
  let a := e.cmd.a
  let s := { s with ap := { s.ap with agRun := setBit s.ap.agRun a false } }
  let s := (s.agMembers a).foldl (fun s p => if s.fg F.TDM_STAT_STATE p = 3 then s.tdmStop p 1 else s) s
  s.agShow.finish e Sts.OK [] false

def execTdmAgStop (c : Cmd) (s : State) : Host.Outcome State Fault Refusal :=
  .next (submit Code.TDM_AG_STOP chkTdmAgStop c s)

/-! ### PDM (R234 - R236) -/

def State.mic (s : State) (p m : Nat) : PdmMic := mget PdmMic.reset s.ap.mic (2 * p + m)
def State.setMic (s : State) (p m : Nat) (x : PdmMic) : State :=
  { s with ap := { s.ap with mic := mput PdmMic.reset s.ap.mic (2 * p + m) x } }

def State.micEn (s : State) (p m : Nat) : Bool := if m = 0 then s.fb F.PDM_CTL_MIC0_EN p else s.fb F.PDM_CTL_MIC1_EN p
def State.micStuck (s : State) (p m : Nat) : Bool := if m = 0 then s.fb F.PDM_STAT_STUCK0 p else s.fb F.PDM_STAT_STUCK1 p

/-- A sample saturated to Q1.31, and whether it was. -/
def sat31 (v : Int) : Int × Bool :=
  (clampI (-2147483648) 2147483647 v, decide (2147483647 < v) || decide (v < -2147483648))

/-- The gain of a microphone for its next sample (R235): a change ramps linearly over the 4 samples of a tick. -/
def PdmMic.nextGain (x : PdmMic) (want : Int) : Int × PdmMic :=
  let x := if x.g1 = want then x else { x with g0 := x.g1 - (x.g1 - x.g0) * x.left / 4, g1 := want, left := 4 }
  let x := { x with left := x.left - 1 }
  (x.g1 - (x.g1 - x.g0) * x.left / 4, x)

/-- A microphone's sample at a sample instant (R235). The decimator's value, in units of 2⁻³¹ of full scale, is open: it is that of
the pin's bits 8 samples before, which no command brings. It saturates, passes the high-pass with HPF = 1 and takes the gain; a
sample that saturates in the decimator or after the gain counts once in CLIP. -/
def State.micSample (s : State) (p m n : Nat) : State :=
  let x := s.mic p m
  let en := s.micEn p m && !s.standby && s.pwr != 3
  if !en then s.setMic p m PdmMic.reset
  else
    let want := (Config.dbGain (s.fgI (if m = 0 then F.PDM_GAIN_GAIN0 else F.PDM_GAIN_GAIN1) p)).toNat
    let x := if x.on then x else { PdmMic.reset with skip := 16, on := true, g0 := want, g1 := want }
    if 0 < x.skip then s.setMic p m { x with skip := x.skip - 1 }
    else if s.micStuck p m then s.setMic p m x
    else
      let (w, s) := s.freeWord
      let (d, clip) := sat31 (2 * w.toInt)
      let y := if s.fb F.PDM_CTL_HPF p then (Config.pdmHighPass d x.hpX x.hpY).toInt else d
      let (g, x) := ({ x with hpX := d, hpY := y } : PdmMic).nextGain want
      let (v, clip') := sat31 (y * g / 2 ^ 20)
      let s := s.setMic p m x
      let s := if clip || clip' then (if m = 0 then s.fadd F.PDM_ERR_CLIP0 p 1 else s.fadd F.PDM_ERR_CLIP1 p 1) else s
      let (pk, s) := s.freeWord
      let s := if m = 0 then s.fs F.PDM_LEVEL_PEAK0 p (pk.toNat % 65536) else s.fs F.PDM_LEVEL_PEAK1 p (pk.toNat % 65536)
      s.pushIn (endKey 3 p m) n v

/-- The PDM ports at a sample instant (R115, R236): hand-over, then samples; a change of the clock rate, however it came, starts the
microphones anew. -/
def State.pdmSample (s : State) (n : Nat) : State :=
  (List.range 8).foldl (fun s p =>
    let s := if !s.arm .PDM_CTL p then s
      else
        let t := s.handOverPoint .PDM_CTL p 100
        if t.arm .PDM_CTL p then s
        else
          t.rwsWait.foldl (fun (s : State) (e : Entry) =>
            if e.code = Code.PDM_SET ∧ e.cmd.a = p then
              ({ s with rwsWait := s.rwsWait.filter (fun x => x.seq != e.seq) } : State).finish e Sts.OK [] true
            else s) t
    let clk := s.fg F.PDM_CTL_CLK p
    let s := if mget 0 s.ap.pdmClk p = clk then s
      else
        let s := (s.setMic p 0 PdmMic.reset).setMic p 1 PdmMic.reset
        { s with ap := { s.ap with pdmClk := mput 0 s.ap.pdmClk p clk } }
    let run := (s.micEn p 0 || s.micEn p 1) && !s.standby && s.pwr != 3
    let s := if run == s.fb F.PDM_STAT_RUN p then s else s.fs F.PDM_STAT_RUN p (b2n run)
    if run || (s.mic p 0).on || (s.mic p 1).on then (s.micSample p 0 n).micSample p 1 n else s) s

def chkPdmSet (c : Cmd) (_ : State) : Chk :=
  let g := fun (f : Fld) => decide (-2000 ≤ sext 16 (f.get c.i1)) && decide (sext 16 (f.get c.i1) ≤ 4000)
  if 8 ≤ c.a ∨ !imgOk .PDM_CTL c.i0 ∨ !g F.PDM_GAIN_GAIN0 ∨ !g F.PDM_GAIN_GAIN1 then (Sts.CMD_RANGE, []) else Chk.ok

def applyPdmSet (e : Entry) (s : State) : State :=
  let s := (s.rwsWrite .PDM_GAIN e.cmd.a e.cmd.i1).rwsWrite .PDM_CTL e.cmd.a (e.cmd.i0 % 2 ^ 31 + 2 ^ 31)
  { s with rwsWait := s.rwsWait ++ [e] }

def execPdmSet (c : Cmd) (s : State) : Host.Outcome State Fault Refusal :=
  .next (submitPort Code.PDM_SET chkPdmSet applyPdmSet c s)

/-- PDM_STUCK (R236): DATA without transitions for 1 ms, or with transitions again for 10 ms. -/
def execPdmStuck (p mic : Nat) (stuck : Bool) (s : State) : Host.Outcome State Fault Refusal :=
  .next (if 8 ≤ p ∨ 2 ≤ mic ∨ (stuck && !s.micEn p mic) ∨ s.micStuck p mic = stuck then s
    else
      let s := if mic = 0 then s.fs F.PDM_STAT_STUCK0 p (b2n stuck) else s.fs F.PDM_STAT_STUCK1 p (b2n stuck)
      let s := if stuck then (if mic = 0 then s.fadd F.PDM_ERR_STUCK0 p 1 else s.fadd F.PDM_ERR_STUCK1 p 1) else s
      s.post Evt.PDM_STUCK p (leBytes 1 mic ++ leBytes 1 (b2n stuck)))

/-- An ASRC group that runs delivers a sample for every instant of the grid, 64 samples late (R58, R59); until it has settled the
Router takes silence in its place. -/
def State.asrcPush (s : State) (key n : Nat) : State :=
  let (w, s) := s.convValue Conv.ASRC key 0
  s.pushIn key (n + 64) w

/-- TDM ports on ASRC at a sample instant. -/
def State.tdmAsrc (s : State) (n : Nat) : State :=
  (List.range 16).foldl (fun s p =>
    match s.convOf (grpKey false 2 p) with
    | some g =>
      if g.asrc ∧ s.fg F.TDM_STAT_STATE p = 3 then
        (bitList (s.tdmSlots p) (s.fg F.TDM_MASK_RX_MASK p)).foldl (fun s i =>
          s.asrcPush (endKey 2 p i) n) s
      else s
    | none => s) s

end Sys2Proof.Machine
end

