-- ==== Sys2Proof/Machine/Jalob.lean ====
section
/-! DEFINITION. The Jalob instruction words (R147 - R166): the instructions as data, their decoding and their encoding.
An undefined encoding decodes to none. -/

namespace Sys2Proof.Machine

/-- Operations of the register form (R153). -/
inductive AluOp where
  | add | adds | sub | subs | and | or | xor | neg | abs | min | max | cmp | lsl | lsr | asr | mul | mulf
deriving DecidableEq, Repr

/-- Operations of the immediate form (R154). -/
inductive ImmOp where
  | addi | andi | ori | xori | cmpi | lsli | lsri | asri | movi | movhi
deriving DecidableEq, Repr

/-- Loads and stores (R156) but for STA. -/
inductive MemOp where
  | ld | ldd | st | std | ldr | str
deriving DecidableEq, Repr

/-- Accumulator operations (R158). -/
inductive AccOp where
  | clr | mpy | mpyn | mpyi | mac | msu | maci | msui | adda | suba | accd | nega | absa | asla | asra | exp | norm
  | mva | mva24 | cmpa
deriving DecidableEq, Repr

/-- A Jalob instruction. Fields are numbers within the widths of their layouts. -/
inductive JInstr where
  | nop
  | mov (dst src : Nat)
  | pmod (k j : Nat)
  | paddi (k imm : Nat)
  | aldi (c imm : Nat)
  | aldh (c imm : Nat)
  | br (cond t : Nat)
  | call (d t : Nat)
  | jr (d : Nat)
  | reti
  | rep (n : Nat)
  | repl
  | dbnz (t : Nat)
  | wait (line : Nat)
  | waitm (g m d : Nat)
  | raise (line : Nat)
  | done
  | alu (op : AluOp) (d a b : Nat)
  | alui (op : ImmOp) (d a v : Nat)
  | mem (op : MemOp) (k j m r : Nat)
  | sta (k j m a w24 rnd : Nat)
  | accu (op : AccOp) (a b x y n rnd : Nat)
  | smac (op a x y sp k lm dd : Nat)
  | dmac (sh s0 s1 ap x0 y0 x1 y1 xm xp xd ym yp yd : Nat)
deriving DecidableEq, Repr

/-! ### Operation codes -/

def AluOp.code : AluOp → Nat
  | .add => 0x00 | .adds => 0x01 | .sub => 0x02 | .subs => 0x03 | .and => 0x04 | .or => 0x05 | .xor => 0x06
  | .neg => 0x07 | .abs => 0x08 | .min => 0x09 | .max => 0x0A | .cmp => 0x0B | .lsl => 0x0C | .lsr => 0x0D
  | .asr => 0x0E | .mul => 0x10 | .mulf => 0x11

def aluOfCode (c : Nat) : Option AluOp :=
  match c with
  | 0x00 => some .add | 0x01 => some .adds | 0x02 => some .sub | 0x03 => some .subs | 0x04 => some .and
  | 0x05 => some .or | 0x06 => some .xor | 0x07 => some .neg | 0x08 => some .abs | 0x09 => some .min
  | 0x0A => some .max | 0x0B => some .cmp | 0x0C => some .lsl | 0x0D => some .lsr | 0x0E => some .asr
  | 0x10 => some .mul | 0x11 => some .mulf | _ => none

def ImmOp.code : ImmOp → Nat
  | .addi => 0 | .andi => 1 | .ori => 2 | .xori => 3 | .cmpi => 4 | .lsli => 5 | .lsri => 6 | .asri => 7
  | .movi => 8 | .movhi => 9

def immOfCode (c : Nat) : Option ImmOp :=
  match c with
  | 0 => some .addi | 1 => some .andi | 2 => some .ori | 3 => some .xori | 4 => some .cmpi | 5 => some .lsli
  | 6 => some .lsri | 7 => some .asri | 8 => some .movi | 9 => some .movhi | _ => none

def MemOp.code : MemOp → Nat
  | .ld => 0 | .ldd => 1 | .st => 2 | .std => 3 | .ldr => 4 | .str => 5

def memOfCode (c : Nat) : Option MemOp :=
  match c with
  | 0 => some .ld | 1 => some .ldd | 2 => some .st | 3 => some .std | 4 => some .ldr | 5 => some .str | _ => none

def AccOp.code : AccOp → Nat
  | .clr => 0x00 | .mpy => 0x01 | .mpyn => 0x02 | .mpyi => 0x03 | .mac => 0x04 | .msu => 0x05 | .maci => 0x06
  | .msui => 0x07 | .adda => 0x08 | .suba => 0x09 | .accd => 0x0A | .nega => 0x0B | .absa => 0x0C | .asla => 0x0D
  | .asra => 0x0E | .exp => 0x10 | .norm => 0x11 | .mva => 0x12 | .mva24 => 0x13 | .cmpa => 0x14

def accOfCode (c : Nat) : Option AccOp :=
  match c with
  | 0x00 => some .clr | 0x01 => some .mpy | 0x02 => some .mpyn | 0x03 => some .mpyi | 0x04 => some .mac
  | 0x05 => some .msu | 0x06 => some .maci | 0x07 => some .msui | 0x08 => some .adda | 0x09 => some .suba
  | 0x0A => some .accd | 0x0B => some .nega | 0x0C => some .absa | 0x0D => some .asla | 0x0E => some .asra
  | 0x10 => some .exp | 0x11 => some .norm | 0x12 => some .mva | 0x13 => some .mva24 | 0x14 => some .cmpa
  | _ => none

/-! ### What the layouts allow -/

/-- The fields an accumulator operation uses: b, x, y, n, RND (R158). -/
def AccOp.usesB : AccOp → Bool | .adda | .suba | .cmpa => true | _ => false
def AccOp.usesX : AccOp → Bool
  | .mpy | .mpyn | .mpyi | .mac | .msu | .maci | .msui | .accd | .exp | .norm | .mva | .mva24 => true | _ => false
def AccOp.usesY : AccOp → Bool | .mpy | .mpyn | .mpyi | .mac | .msu | .maci | .msui => true | _ => false
def AccOp.usesN : AccOp → Bool | .asla | .asra => true | _ => false
def AccOp.usesRnd : AccOp → Bool | .mva | .mva24 => true | _ => false

/-- Which register codes a load or store allows (R156). -/
def MemOp.allows (op : MemOp) (r : Nat) : Bool :=
  match op with
  | .ld | .st => decide (r < 16)
  | .ldd | .std => decide (r < 16 ∧ r % 2 = 0)
  | .ldr => decide (16 ≤ r ∧ r ≤ 0x3C)
  | .str => decide (16 ≤ r ∧ r ≤ 0x3F)

/-- A well-formed instruction: every field within its width, every unused field 0, every code allowed (R147). -/
def JInstr.wf : JInstr → Bool
  | .nop | .reti | .repl | .done => true
  | .mov dst src => decide (dst < 64 ∧ src < 64)
  | .pmod k j => decide (k < 8 ∧ j < 8)
  | .paddi k imm => decide (k < 8 ∧ imm < 65536)
  | .aldi c imm => decide (((16 ≤ c ∧ c < 48) ∨ c = 0x3C) ∧ imm < 65536)
  | .aldh c imm => decide ((16 ≤ c ∧ c < 48) ∧ imm < 65536)
  | .br cond t => decide (cond < 13 ∧ t < 16384)
  | .call d t => decide (d < 16 ∧ t < 16384)
  | .jr d => decide (d < 16)
  | .rep n => decide (n < 4096)
  | .dbnz t => decide (t < 16384)
  | .wait l | .raise l => decide (l < 256)
  | .waitm g m d => decide (g < 8 ∧ m < 16 ∧ d < 16)
  | .alu op d a b => decide (d < 16 ∧ a < 16 ∧ b < 16 ∧ (op = .cmp → d = 0))
  | .alui op d a v =>
    decide (d < 16 ∧ a < 16 ∧ v < 65536 ∧ (op = .cmpi → d = 0) ∧ ((op = .movi ∨ op = .movhi) → a = 0)
      ∧ ((op = .lsli ∨ op = .lsri ∨ op = .asri) → v < 32))
  | .mem op k j m r => decide (k < 8 ∧ j < 8 ∧ m < 4 ∧ r < 64) && op.allows r
  | .sta k j m a w24 rnd => decide (k < 8 ∧ j < 8 ∧ m < 4 ∧ a < 4 ∧ w24 < 2 ∧ rnd < 4 ∧ rnd ≠ 0)
  | .accu op a b x y n rnd =>
    decide (a < 4 ∧ b < 4 ∧ x < 16 ∧ y < 16 ∧ n < 64 ∧ rnd < 4)
      && (op.usesB || b == 0) && (op.usesX || x == 0) && (op.usesY || y == 0) && (op.usesN || n == 0)
      && (if op.usesRnd then rnd != 0 else rnd == 0)
  | .smac op a x y sp k lm dd =>
    decide (op < 4 ∧ a < 4 ∧ x < 16 ∧ y < 16 ∧ sp < 2 ∧ k < 4 ∧ lm < 4 ∧ dd < 16 ∧ (lm = 0 → k = 0 ∧ dd = 0))
  | .dmac sh s0 s1 ap x0 y0 x1 y1 xm xp xd ym yp yd =>
    decide (sh < 2 ∧ s0 < 2 ∧ s1 < 2 ∧ ap < 2 ∧ x0 < 8 ∧ y0 < 8 ∧ x1 < 8 ∧ y1 < 8 ∧ xm < 4 ∧ xp < 4 ∧ xd < 8
      ∧ ym < 4 ∧ yp < 4 ∧ yd < 8 ∧ (xm = 0 → xp = 0 ∧ xd = 0 ∧ sh = 0) ∧ (ym = 0 → yp = 0 ∧ yd = 0))

/-! ### Encoding -/

/-- The number of the word (R148 - R163). -/
def jenc : JInstr → Nat
  | .nop => 1
  | .mov dst src => 0x10000000 + dst * 2 ^ 22 + src * 2 ^ 16
  | .pmod k j => 0x20000000 + k * 2 ^ 22 + j * 2 ^ 19
  | .paddi k imm => 0x22000000 + k * 2 ^ 22 + imm
  | .aldi c imm => 0x24000000 + c * 2 ^ 19 + imm
  | .aldh c imm => 0x26000000 + c * 2 ^ 19 + imm
  | .br cond t => 0x30000000 + cond * 2 ^ 20 + t
  | .call d t => 0x31000000 + d * 2 ^ 20 + t
  | .jr d => 0x32000000 + d * 2 ^ 16
  | .reti => 0x33000000
  | .rep n => 0x34000000 + n
  | .repl => 0x35000000
  | .dbnz t => 0x36000000 + t
  | .wait l => 0x37000000 + l
  | .waitm g m d => 0x38000000 + g * 2 ^ 21 + m * 2 ^ 17 + d * 2 ^ 13
  | .raise l => 0x39000000 + l
  | .done => 0x3A000000
  | .alu op d a b => 0x40000000 + op.code * 2 ^ 22 + d * 2 ^ 18 + a * 2 ^ 14 + b * 2 ^ 10
  | .alui op d a v => 0x50000000 + op.code * 2 ^ 24 + d * 2 ^ 20 + a * 2 ^ 16 + v
  | .mem op k j m r => 0x80000000 + op.code * 2 ^ 25 + k * 2 ^ 22 + j * 2 ^ 19 + m * 2 ^ 17 + r * 2 ^ 11
  | .sta k j m a w24 rnd =>
    0x8C000000 + k * 2 ^ 22 + j * 2 ^ 19 + m * 2 ^ 17 + a * 2 ^ 15 + w24 * 2 ^ 14 + rnd * 2 ^ 12
  | .accu op a b x y n rnd =>
    0x90000000 + op.code * 2 ^ 23 + a * 2 ^ 21 + b * 2 ^ 19 + x * 2 ^ 15 + y * 2 ^ 11 + n * 2 ^ 5 + rnd * 2 ^ 3
  | .smac op a x y sp k lm dd =>
    0xA0000000 + op * 2 ^ 27 + a * 2 ^ 25 + x * 2 ^ 21 + y * 2 ^ 17 + sp * 2 ^ 16 + k * 2 ^ 14 + lm * 2 ^ 12 + dd * 2 ^ 8
  | .dmac sh s0 s1 ap x0 y0 x1 y1 xm xp xd ym yp yd =>
    0xC0000000 + sh * 2 ^ 29 + s0 * 2 ^ 28 + s1 * 2 ^ 27 + ap * 2 ^ 26 + x0 * 2 ^ 23 + y0 * 2 ^ 20 + x1 * 2 ^ 17
      + y1 * 2 ^ 14 + xm * 2 ^ 12 + xp * 2 ^ 10 + xd * 2 ^ 7 + ym * 2 ^ 5 + yp * 2 ^ 3 + yd

/-- The 32-bit word of an instruction. -/
def jencode (i : JInstr) : Word := BitVec.ofNat 32 (jenc i)

/-! ### Decoding -/

/-- Bits [lo + n − 1 : lo] of a number. -/
def fld (w lo n : Nat) : Nat := w / 2 ^ lo % 2 ^ n

/-- The control class (R163). -/
def decControl (w : Nat) : Option JInstr :=
  match fld w 24 4 with
  | 0x0 => if fld w 14 6 = 0 then some (.br (fld w 20 4) (fld w 0 14)) else none
  | 0x1 => if fld w 14 6 = 0 then some (.call (fld w 20 4) (fld w 0 14)) else none
  | 0x2 => if fld w 20 4 = 0 ∧ fld w 0 16 = 0 then some (.jr (fld w 16 4)) else none
  | 0x3 => if fld w 0 24 = 0 then some .reti else none
  | 0x4 => if fld w 12 12 = 0 then some (.rep (fld w 0 12)) else none
  | 0x5 => if fld w 0 24 = 0 then some .repl else none
  | 0x6 => if fld w 14 10 = 0 then some (.dbnz (fld w 0 14)) else none
  | 0x7 => if fld w 8 16 = 0 then some (.wait (fld w 0 8)) else none
  | 0x8 => if fld w 0 13 = 0 then some (.waitm (fld w 21 3) (fld w 17 4) (fld w 13 4)) else none
  | 0x9 => if fld w 8 16 = 0 then some (.raise (fld w 0 8)) else none
  | 0xA => if fld w 0 24 = 0 then some .done else none
  | _ => none

/-- The address-register class (R155). -/
def decAddr (w : Nat) : Option JInstr :=
  match fld w 25 3 with
  | 0 => if fld w 0 19 = 0 then some (.pmod (fld w 22 3) (fld w 19 3)) else none
  | 1 => if fld w 16 6 = 0 then some (.paddi (fld w 22 3) (fld w 0 16)) else none
  | 2 => if fld w 16 3 = 0 then some (.aldi (fld w 19 6) (fld w 0 16)) else none
  | 3 => if fld w 16 3 = 0 then some (.aldh (fld w 19 6) (fld w 0 16)) else none
  | _ => none

/-- The load and store class (R156, R157). -/
def decMem (w : Nat) : Option JInstr :=
  if fld w 25 3 = 6 then
    (if fld w 0 12 = 0 then
      some (.sta (fld w 22 3) (fld w 19 3) (fld w 17 2) (fld w 15 2) (fld w 14 1) (fld w 12 2)) else none)
  else if fld w 0 11 = 0 then
    (memOfCode (fld w 25 3)).map (fun op => .mem op (fld w 22 3) (fld w 19 3) (fld w 17 2) (fld w 11 6))
  else none

/-- The layout of a word by its class (R148), before the checks of R147. -/
def decForm (w : Nat) : Option JInstr :=
  match fld w 28 4 with
  | 0x0 => if w = 1 then some .nop else none
  | 0x1 => if fld w 0 16 = 0 then some (.mov (fld w 22 6) (fld w 16 6)) else none
  | 0x2 => decAddr w
  | 0x3 => decControl w
  | 0x4 =>
    if fld w 0 10 = 0 then (aluOfCode (fld w 22 6)).map (fun op => .alu op (fld w 18 4) (fld w 14 4) (fld w 10 4))
    else none
  | 0x5 => (immOfCode (fld w 24 4)).map (fun op => .alui op (fld w 20 4) (fld w 16 4) (fld w 0 16))
  | 0x8 => decMem w
  | 0x9 =>
    if fld w 0 3 = 0 then
      (accOfCode (fld w 23 5)).map (fun op =>
        .accu op (fld w 21 2) (fld w 19 2) (fld w 15 4) (fld w 11 4) (fld w 5 6) (fld w 3 2))
    else none
  | 0xA | 0xB =>
    if fld w 0 8 = 0 then
      some (.smac (fld w 27 2) (fld w 25 2) (fld w 21 4) (fld w 17 4) (fld w 16 1) (fld w 14 2) (fld w 12 2) (fld w 8 4))
    else none
  | 0xC | 0xD | 0xE | 0xF =>
    some (.dmac (fld w 29 1) (fld w 28 1) (fld w 27 1) (fld w 26 1) (fld w 23 3) (fld w 20 3) (fld w 17 3) (fld w 14 3)
      (fld w 12 2) (fld w 10 2) (fld w 7 3) (fld w 5 2) (fld w 3 2) (fld w 0 3))
  | _ => none

/-- Decode a word (R147): none for an undefined encoding. -/
def jdecode (w : Word) : Option JInstr :=
  match decForm w.toNat with
  | some i => if i.wf then some i else none
  | none => none

end Sys2Proof.Machine
end

