-- ==== Sys2Proof/Machine/Flags.lean ====
section
/-! DEFINITION. The flag computations and the arithmetic of the Jalob unit (R119, R121 - R124, R153, R154, R158): results
of data-register operations with their flags, accumulation with its bounds, saturating stores, normalisation. -/

namespace Sys2Proof.Machine

/-! Bits of SF (R119). -/
abbrev sfZ : Nat := 1
abbrev sfN : Nat := 2
abbrev sfC : Nat := 4
abbrev sfV : Nat := 8
abbrev sfSV : Nat := 256
abbrev sfAGV : Nat := 512
abbrev sfCBE : Nat := 1024
abbrev sfIE : Nat := 65536

/-- A result with the flags it writes: which bits, and their values. -/
structure FlagRes where
  val  : Word
  mask : Nat
  bits : Nat
deriving DecidableEq, Repr

/-- Z and N of a 32-bit result. -/
def znBits (v : Word) : Nat := (if v = 0 then sfZ else 0) + (if v.msb then sfN else 0)

/-- A result that sets Z and N alone. -/
def resZN (v : Word) : FlagRes := ⟨v, sfZ + sfN, znBits v⟩

/-- A result that sets Z, N and C: shifts (R153). -/
def resZNC (v : Word) (c : Bool) : FlagRes := ⟨v, sfZ + sfN + sfC, znBits v + (if c then sfC else 0)⟩

/-- A result that sets Z, N and V. -/
def resZNV (v : Word) (o : Bool) : FlagRes := ⟨v, sfZ + sfN + sfV, znBits v + (if o then sfV else 0)⟩

/-- A result that sets Z, N, C and V. -/
def resAll (v : Word) (c o : Bool) : FlagRes :=
  ⟨v, sfZ + sfN + sfC + sfV, znBits v + (if c then sfC else 0) + (if o then sfV else 0)⟩

/-- Signed overflow of an exact sum or difference. -/
def ovf32 (x : Int) : Bool := decide (x > 2147483647 ∨ x < -2147483648)

/-- Addition: carry out of bit 31, signed overflow. -/
def addRes (a b : Word) : FlagRes :=
  resAll (a + b) (decide (2 ^ 32 ≤ a.toNat + b.toNat)) (ovf32 (a.toInt + b.toInt))

/-- Subtraction: C is the borrow. -/
def subRes (a b : Word) : FlagRes := resAll (a - b) (decide (a.toNat < b.toNat)) (ovf32 (a.toInt - b.toInt))

/-- A saturated sum with the carry of the unsaturated one (ADDS, SUBS). -/
def satRes (x : Int) (c : Bool) : FlagRes := resAll (BitVec.ofInt 32 (satS 32 x)) c (ovf32 x)

/-- Logical left shift by a count: C is the last bit shifted out, 0 for a count of 0 or above 32. -/
def lslRes (a : Word) (n : Nat) : FlagRes := resZNC (a <<< n) (decide (1 ≤ n ∧ n ≤ 32) && a.getLsbD (32 - n))

/-- Logical right shift. -/
def lsrRes (a : Word) (n : Nat) : FlagRes := resZNC (a >>> n) (decide (1 ≤ n ∧ n ≤ 32) && a.getLsbD (n - 1))

/-- Arithmetic right shift: a count above 31 fills with the sign. -/
def asrRes (a : Word) (n : Nat) : FlagRes := resZNC (a.sshiftRight n) (decide (1 ≤ n ∧ n ≤ 32) && a.getLsbD (n - 1))

/-- The rounded saturated fractional product (MULF). -/
def mulfRes (a b : Word) : FlagRes :=
  let t := (2 * a.toInt * b.toInt + 2147483648) / 4294967296
  resZNV (BitVec.ofInt 32 (satS 32 t)) (ovf32 t)

/-- The register form (R153): result and flags of an operation on two data registers. -/
def aluRes (op : AluOp) (a b : Word) : FlagRes :=
  let n := b.toNat % 64
  match op with
  | .add => addRes a b
  | .adds => satRes (a.toInt + b.toInt) (decide (2 ^ 32 ≤ a.toNat + b.toNat))
  | .sub => subRes a b
  | .subs => satRes (a.toInt - b.toInt) (decide (a.toNat < b.toNat))
  | .and => resZN (a &&& b)
  | .or => resZN (a ||| b)
  | .xor => resZN (a ^^^ b)
  | .neg => resZNV (-a) (decide (a.toInt = -2147483648))
  | .abs => if a.toInt = -2147483648 then resZNV 0x7FFFFFFF true else resZNV (if a.msb then -a else a) false
  | .min => resZN (if a.toInt ≤ b.toInt then a else b)
  | .max => resZN (if a.toInt ≤ b.toInt then b else a)
  | .cmp => subRes a b
  | .lsl => lslRes a n
  | .lsr => lsrRes a n
  | .asr => asrRes a n
  | .mul => resZN (a * b)
  | .mulf => mulfRes a b

/-- Sign extension of a 16-bit immediate. -/
def sext16 (v : Nat) : Word := BitVec.ofInt 32 (sext 16 v)

/-- The immediate form (R154); `old` is the destination before (MOVHI). -/
def immRes (op : ImmOp) (a old : Word) (v : Nat) : FlagRes :=
  match op with
  | .addi => addRes a (sext16 v)
  | .andi => resZN (a &&& BitVec.ofNat 32 v)
  | .ori => resZN (a ||| BitVec.ofNat 32 v)
  | .xori => resZN (a ^^^ BitVec.ofNat 32 v)
  | .cmpi => subRes a (sext16 v)
  | .lsli => lslRes a (v % 32)
  | .lsri => lsrRes a (v % 32)
  | .asri => asrRes a (v % 32)
  | .movi => ⟨sext16 v, 0, 0⟩
  | .movhi => ⟨BitVec.ofNat 32 (v % 65536 * 65536 + old.toNat % 65536), 0, 0⟩

/-! ### Accumulators -/

/-- The bounds of an accumulator (R121). -/
abbrev accMax : Int := 2 ^ 71 - 1
abbrev accMin : Int := -(2 ^ 71)

/-- A result written to an accumulator: the value, whether it was replaced by a bound, and its flags Z, N, V. -/
structure AccRes where
  val : Acc72
  sat : Bool
  v   : Bool
deriving DecidableEq, Repr

/-- An exact result narrowed to 72 bits: outside the bounds it is the bound on its side (R122). -/
def accSat (x : Int) : AccRes :=
  if x > accMax then ⟨BitVec.ofInt 72 accMax, true, true⟩
  else if x < accMin then ⟨BitVec.ofInt 72 accMin, true, true⟩
  else ⟨BitVec.ofInt 72 x, false, false⟩

/-- Accumulation (R121, R122): a latched accumulator stays at its bound and sets V. -/
def accAdd (cur : Acc72) (sat : Bool) (x : Int) : AccRes :=
  if sat then ⟨cur, true, true⟩ else accSat (cur.toInt + x)

/-- Z and N of an accumulator. -/
def znAcc (v : Acc72) : Nat := (if v = 0 then sfZ else 0) + (if v.msb then sfN else 0)

/-- Fractional and integer products of two data registers, exact (R121). -/
def fracProd (x y : Word) : Int := 2 * x.toInt * y.toInt
def intProd (x y : Word) : Int := x.toInt * y.toInt

/-- The saturating store of R123: the value written and whether it saturated. RND: 1 TRUNCATE, 2 ROUND_HALF_UP,
3 CONVERGENT. -/
def storeAcc (v : Acc72) (latched : Bool) (w24 : Bool) (rnd : Nat) : Word × Bool :=
  let s := if w24 then 40 else 32
  let w := 64 - s
  let hi : Int := 2 ^ (w - 1) - 1
  let lo : Int := -(2 ^ (w - 1))
  let x := v.toInt
  let k : Int := 2 ^ s
  let fl := x / k
  let r := x % k
  let t := if rnd = 1 then fl
    else if rnd = 2 then (x + 2 ^ (s - 1)) / k
    else if 2 * r < k then fl else if 2 * r > k then fl + 1 else if fl % 2 = 0 then fl else fl + 1
  let (q, sat) := if latched then (if x < 0 then lo else hi, true)
    else if t > hi then (hi, true) else if t < lo then (lo, true) else (t, false)
  (BitVec.ofInt 32 (if w24 then q * 256 else q), sat)

/-- EXP (R124): the redundant sign bits below bit 71. -/
def accExp (v : Acc72) : Nat :=
  let sgn := v.msb
  match (List.range 71).find? (fun i => v.getLsbD (70 - i) != sgn) with
  | some i => i
  | none => 71

/-- NORM (R124): the shift e and the normalised value. -/
def accNorm (v : Acc72) : Int × Acc72 :=
  let e : Int := (accExp v : Int) - 8
  if v = 0 then (63, 0)
  else if e ≥ 0 then (e, v <<< e.toNat) else (e, v.sshiftRight (-e).toNat)

/-! ### Conditions -/

/-- The branch conditions of R164. -/
def condHolds (c sf : Nat) : Bool :=
  let z := sf.testBit 0
  let n := sf.testBit 1
  let cy := sf.testBit 2
  let v := sf.testBit 3
  match c with
  | 0 => true
  | 1 => z
  | 2 => !z
  | 3 => n != v
  | 4 => n == v
  | 5 => !z && n == v
  | 6 => z || n != v
  | 7 => cy
  | 8 => !cy
  | 9 => v
  | 10 => !v
  | 11 => n
  | _ => !n

end Sys2Proof.Machine
end

