-- ==== Sys2Proof/Machine/Operands.lean ====
section
/-! DEFINITION. The operand forms of the Jalob unit: pending writes and what an instruction sees of them (R127, R150, R151),
the register codes (R149, R152), pointers and their post-modification (R125). -/

namespace Sys2Proof.Machine

/-! ### Pending writes -/

/-- Whether a pending data-register write is still to be seen after instruction `n` settles: neither seen now nor
superseded by a later write that is (R150). -/
def keepDWr (n : Nat) : List DWr → List DWr
  | [] => []
  | e :: t => if e.vis ≤ n ∨ t.any (fun x => x.reg == e.reg && decide (x.vis ≤ n)) then keepDWr n t else e :: keepDWr n t

/-- Apply one data-register write. -/
def putDWr (d : AMap Word) (e : DWr) : AMap Word := mput 0 d e.reg e.val

/-- Data registers after every write that instruction `n` sees, in program order. -/
def seenD (n : Nat) (d : AMap Word) : List DWr → AMap Word
  | [] => d
  | e :: t => if e.vis ≤ n then seenD n (putDWr d e) t else seenD n d t

/-- Sticky bits of SF that writes of one cycle set: they stand whatever another write of that cycle clears (R150). -/
def stickySets (l : List FWr) (v : Nat) : Nat :=
  (l.filter (fun e => e.vis == v)).foldl (fun m e => m ||| (e.val &&& e.mask &&& (sfSV + sfAGV + sfCBE))) 0

/-- Settle the pending writes that the next instruction sees (R127). -/
def UCore.settle (c : UCore) (n : Nat) : UCore :=
  { c with
    d := seenD n c.d c.dq
    dq := keepDWr n c.dq
    c := (c.cq.filter (fun e => decide (e.vis ≤ n))).foldl (fun m e => mput 0 m e.reg e.val) c.c
    cq := c.cq.filter (fun e => !decide (e.vis ≤ n))
    sf := (c.fq.filter (fun e => decide (e.vis ≤ n))).foldl (fun f e => (f - (f &&& e.mask) + (e.val &&& e.mask)) ||| stickySets c.fq e.vis) c.sf
    fq := c.fq.filter (fun e => !decide (e.vis ≤ n)) }

/-- Settle everything in flight: the pipeline has drained. -/
def UCore.drain (c : UCore) : UCore := c.settle (c.idx + 16)

/-- Data register as the present instruction sees it. -/
def UCore.dr (c : UCore) (r : Nat) : Word := mget 0 c.d r

/-- Pointer, modifier, base, length, LC, IPC or ISF by code. -/
def UCore.cr (c : UCore) (code : Nat) : Word := mget 0 c.c code

/-- Write a data register, seen `lat` instructions on. -/
def UCore.wd (c : UCore) (r : Nat) (v : Word) (lat : Nat) : UCore :=
  { c with dq := c.dq ++ [⟨r, v, c.idx + lat⟩] }

/-- Write a pointer, modifier, base, length, LC, IPC or ISF in WB (R127: seen by i + 3). -/
def UCore.wc (c : UCore) (code : Nat) (v : Word) : UCore :=
  { c with cq := c.cq ++ [⟨code, if code = 0x3C ∨ code = 0x3E then v &&& 0xFFFF else v, c.idx + 3⟩] }

/-- Write SF bits, seen `lat` instructions on. -/
def UCore.wf (c : UCore) (mask val lat : Nat) : UCore :=
  if mask = 0 then c else { c with fq := c.fq ++ [⟨mask, val, c.idx + lat⟩] }

/-- Flags set in EX (i + 3) and in WB (i + 4) (R127). -/
def UCore.wfEx (c : UCore) (mask val : Nat) : UCore := c.wf mask val 3
def UCore.wfWb (c : UCore) (mask val : Nat) : UCore := c.wf mask val 4

def AccSt.zero : AccSt := ⟨0, false, 0, false, 0⟩
def UCore.ac (c : UCore) (a : Nat) : AccSt := mget AccSt.zero c.acc a

/-- An accumulator as a non-accumulating read sees it (R127): value and latch. -/
def UCore.accRead (c : UCore) (a : Nat) : Acc72 × Bool :=
  let x := c.ac a
  if c.idx < x.vis then (x.old, x.oldSat) else (x.val, x.sat)

/-- Write an accumulator: the next accumulating operation sees value and latch at once, a non-accumulating read `lat`
instructions on, and SF shows the latch with the flags of WB (R119, R127). -/
def UCore.wacc (c : UCore) (a : Nat) (v : Acc72) (sat : Bool) (lat : Nat) : UCore :=
  let x := c.ac a
  let seen := if c.idx + 1 < x.vis then (x.old, x.oldSat) else (x.val, x.sat)
  ({ c with acc := mput AccSt.zero c.acc a ⟨v, sat, seen.1, seen.2, c.idx + lat⟩ } : UCore).wfWb (2 ^ (12 + a))
    (if sat then 2 ^ (12 + a) else 0)

/-- SF as a move reads it: its bits and the ASAT latches (R119). -/
def UCore.sfWord (c : UCore) : Word := BitVec.ofNat 32 c.sf

/-! ### Register codes -/

/-- The value of a register code (R149, R152). A pointer code read right after a post-modify shows the new pointer
(assumption 67). -/
def UCore.readCode (c : UCore) (code : Nat) : Word :=
  if code < 0x10 then c.dr code
  else if code < 0x30 then c.cr code
  else if code < 0x34 then (c.accRead (code - 0x30)).1.extractLsb' 32 32
  else if code < 0x38 then (c.accRead (code - 0x34)).1.extractLsb' 0 32
  else if code < 0x3C then ((c.accRead (code - 0x38)).1.extractLsb' 64 8).signExtend 32
  else if code = 0x3D then c.sfWord
  else c.cr code

/-- An accumulator with one part written (R118): A.H extends its sign into A.G and clears A.L. -/
def accPart (v : Acc72) (part : Nat) (w : Word) : Acc72 :=
  match part with
  | 0 => (w.signExtend 40 ++ (0 : BitVec 32))
  | 1 => v.extractLsb' 32 40 ++ w
  | _ => w.extractLsb' 0 8 ++ v.extractLsb' 0 64

/-- Write a register code (R152), with the latency of a move (`ld` false) or of a load (R127, R151). -/
def UCore.writeCode (c : UCore) (code : Nat) (v : Word) (ld : Bool) : UCore :=
  if code < 0x10 then c.wd code v (if ld then 3 else 1)
  else if code < 0x30 then c.wc code v
  else if code < 0x3C then
    let a := (code - 0x30) % 4
    c.wacc a (accPart (c.ac a).val ((code - 0x30) / 4) v) false (if ld then 3 else 2)
  else if code = 0x3D then
    let w := v.toNat
    c.wf (sfZ + sfN + sfC + sfV + sfIE
        + (if w.testBit 8 then 0 else sfSV) + (if w.testBit 9 then 0 else sfAGV) + (if w.testBit 10 then 0 else sfCBE))
      (w &&& (sfZ + sfN + sfC + sfV + sfIE)) 3
  else c.wc code v

/-! ### Pointers -/

/-- The post-modify of pointer k by a step (R125): at most one wrap correction, then CBE and the base. -/
def postMod (p b l step : Word) : Word × Bool :=
  let q := p + step
  if l ≠ 0 ∧ step ≠ 0 then
    let off := (q - b).toInt
    let q := if off ≥ l.toNat then q - l else if off < 0 then q + l else q
    let off := (q - b).toInt
    if off < 0 ∨ off ≥ l.toNat then (b, true) else (q, false)
  else (q, false)

/-- Step pointer k: the new value is seen by the next address generation (R127). CBE is sticky. -/
def UCore.stepPtr (c : UCore) (k : Nat) (step : Word) : UCore :=
  let (q, cbe) := postMod (c.cr (0x10 + k)) (c.cr (0x20 + k)) (c.cr (0x28 + k)) step
  let c := { c with c := mput 0 c.c (0x10 + k) q }
  if cbe then c.wf sfCBE sfCBE 2 else c

/-- Step pointer k in WB (PMOD, PADDI: R155): read in AG, written with a move's latency. -/
def UCore.stepPtrWb (c : UCore) (k : Nat) (step : Word) : UCore :=
  let (q, cbe) := postMod (c.cr (0x10 + k)) (c.cr (0x20 + k)) (c.cr (0x28 + k)) step
  let c := c.wc (0x10 + k) q
  if cbe then c.wf sfCBE sfCBE 3 else c

/-- The step a MOD field names: none, +size, −size, Mj (R156). -/
def UCore.modStep (c : UCore) (m j size : Nat) : Word :=
  match m with
  | 0 => 0
  | 1 => BitVec.ofNat 32 size
  | 2 => -(BitVec.ofNat 32 size)
  | _ => c.cr (0x18 + j)

end Sys2Proof.Machine
end

