-- ==== Sys2Proof/Machine/UnitOps.lean ====
section
/-! DEFINITION. The Jalob unit's access to the rest of the device: which program a unit runs, its address map (R103), loads,
the write buffer (R135, R136), event lines (R91, R134), traps (R137), and its written bindings (R140, R142). -/

namespace Sys2Proof.Machine

/-! ### Units and roles -/

def State.unit (s : State) (u : Nat) : UnitSt := mget UnitSt.reset s.eng.units u
def State.setUnit (s : State) (u : Nat) (x : UnitSt) : State :=
  { s with eng := { s.eng with units := mput UnitSt.reset s.eng.units u x } }
def State.core (s : State) (u : Nat) : UCore := (s.unit u).core
def State.setCore (s : State) (u : Nat) (c : UCore) : State := s.setUnit u { s.unit u with core := c }
def State.ust (s : State) (u : Nat) : Nat := s.fg F.UNIT_STAT_STATE u
def State.setUst (s : State) (u v : Nat) : State := s.fs F.UNIT_STAT_STATE u v
def State.progOf (s : State) (u : Nat) : Option UProg := (s.unit u).prog

/-- The unit whose program unit `u` runs (R94): the one its region's spare serves, or itself. -/
def State.role (s : State) (u : Nat) : Nat :=
  let g := u / 32
  if s.spareOf g = some u ∧ s.fg F.RG_SPARE_STAT_STATE g = 2 then s.fg F.RG_SPARE_STAT_FOR_UNIT g else u

/-- The unit that runs the program of unit `p` (R94): the serving spare, or itself. -/
def State.runner (s : State) (p : Nat) : Nat :=
  let g := p / 32
  if s.fg F.RG_SPARE_STAT_STATE g = 2 ∧ s.fg F.RG_SPARE_STAT_FOR_UNIT g = p then (s.spareOf g).getD p else p

/-- Whether the Cistern accesses of `u` are redirected to another cluster (R95). -/
def State.remote (s : State) (u : Nat) : Bool := s.role u / 8 != u / 8

/-! ### The address map -/

/-- What an address of a unit names. -/
inductive UTgt where
  | mem (a : Nat) (cistern : Bool)
  | line (l : Nat)
  | bad (cause : Nat)
deriving DecidableEq, Repr

/-- Whether a unit owns an event line it raises (R91, R94): lines 64 + 8u to 71 + 8u of the program's unit. -/
def State.ownsLine (s : State) (u l : Nat) : Bool := decide (l / 8 = 8 + s.role u % 8)

/-- Address of the byte `ea` of the active parameter bank (R145). -/
def State.paramAddr (s : State) (u ea : Nat) : Nat :=
  dpaY u + (if s.fb F.UNIT_STAT_PBANK u then 0xF000 else 0xE000) + ea % 0x1000

/-- Resolve an access through pointer k (R103, R125, R145): alignment first, then the map. -/
def State.uAddr (s : State) (u k ea size : Nat) (store : Bool) : UTgt :=
  if ea % size ≠ 0 then .bad 3
  else if k < 4 then
    if ea < 0x10000 then .mem (dpaX u + ea) false
    else if 0x100000 ≤ ea ∧ ea < 0x300000 then .mem (dpaCistern (s.role u / 8) + (ea - 0x100000)) true
    else if 0x300000 ≤ ea ∧ ea < 0x300400 ∧ store ∧ size = 4 then
      let l := (ea - 0x300000) / 4
      if s.ownsLine u l then .line l else .bad 4
    else .bad 4
  else if ea < 0x10000 then
    let par : Bool := match s.progOf (s.role u) with
      | some p => p.param
      | none => false
    if par ∧ 0xE000 ≤ ea then
      (if ea < 0xF000 ∨ store then .bad 4 else .mem (s.paramAddr u ea) false)
    else .mem (dpaY u + ea) false
  else .bad 4

/-! ### Reading -/

/-- A byte as the unit reads it: its own stores in the write buffer come first (R127). -/
def UCore.byteOver (c : UCore) (a : Nat) (b : Byte) : Byte :=
  c.wb.foldl (fun v e => if e.line.isNone ∧ e.a ≤ a ∧ a < e.a + e.bs.length then e.bs.getD (a - e.a) v else v) b

/-- A word of 4 bytes as the unit reads it. -/
def State.uWord (s : State) (u a : Nat) : Word :=
  BitVec.ofNat 32 (leVal ((List.range 4).map (fun i => (s.core u).byteOver (a + i) (memByte s.integ.mem (a + i)))))

/-! ### Event lines -/

/-- A unit latches a pulse (R131, R134): its spare where one serves it. A serving spare latches no line of its own cluster
(R94). -/
def State.latchLine (s : State) (p l : Nat) : State :=
  if s.role p ≠ p then s
  else
    let q := s.runner p
    let c := s.core q
    s.setCore q { c with pend := setBit c.pend l true, iev := c.iev || s.fg F.UNIT_CTL_IEV p == l }

/-- The interrupt a unit would accept (R131): 0 none, 1 event line, 2 a performance counter. -/
def State.intPending (s : State) (u : Nat) : Nat :=
  let c := s.core u
  if c.iev && c.imask.testBit 0 then 1
  else if (s.fg F.PC_OVF_OVF u &&& (c.imask / 2)) % 16 ≠ 0 then 2
  else 0

/-- A Pump channel beside its registers. -/
def State.pch (s : State) (n : Nat) : PmpCh := mget PmpCh.reset s.pmp.ch n
def State.setPch (s : State) (n : Nat) (x : PmpCh) : State :=
  { s with pmp := { s.pmp with ch := mput PmpCh.reset s.pmp.ch n x } }

/-- A trigger reaches Pump channel n (R297): an idle channel reads its descriptor next, a busy one keeps one pending bit. -/
def State.pmpTrig (s : State) (n : Nat) : State :=
  let st := s.fg F.PMP_CH_STAT_STATE n
  if st = 1 then s.setPch n { s.pch n with trig := true }
  else if st = 2 then s.fs F.PMP_CH_STAT_PENDING n 1
  else s

/-- The Pump channels that are enabled, by instance: EN is 0 in every channel whose word is not listed. -/
def State.pmpOn (s : State) : List Nat :=
  (s.regs.filter (fun p => p.1 / 2048 == RegId.PMP_CH_CTL.ctorIdx && p.2.toNat.testBit 0)).map (fun p => p.1 % 2048)

/-- The cluster whose lines a channel uses: its own, or EVT_CL (R297). -/
def State.pmpCl (s : State) (n : Nat) : Nat := if n < 384 then n / 16 else s.fg F.PMP_CH_RING_CFG_EVT_CL n

/-- EVENT_LINE_PULSE (R91, R134, R297): every unit of the cluster latches the line, and Pump channels triggered by it are
triggered. Lines 35 - 63 never pulse. -/
def State.pulse (s : State) (cl l : Nat) : State :=
  if 35 ≤ l ∧ l < 64 ∨ 24 ≤ cl then s
  else
    let s := (List.range 8).foldl (fun s i => s.latchLine (8 * cl + i) l) s
    (s.pmpOn.filter (fun n => s.pmpCl n == cl && s.fg F.PMP_CH_CTL_TRIG_LINE n == l)).foldl State.pmpTrig s

/-! ### Written bindings -/

/-- The blocks written for the present tick: a KIND 3 matrix input delivered, or an OC slot (R142). -/
def State.deliver (s : State) (kind index : Nat) (b : Blk) : State :=
  if kind = 4 then
    { s with aud := { s.aud with k3 := mput Blk.zero s.aud.k3 index b,
                                 k3done := if index ∈ s.aud.k3done then s.aud.k3done else index :: s.aud.k3done } }
  else { s with aud := { s.aud with ocw := mput Blk.zero s.aud.ocw index b } }

/-- The block a program left in its Cistern for a binding. -/
def State.bindBlk (s : State) (p off : Nat) : Blk := blkOfBytes (s.dpaRead (dpaCistern (p / 8) + off) 16)

/-- The Router or a tile reads the block of a binding (R311, R316): absent or silent, thus zero, where a word of it is
uncorrectable. -/
def State.readBind (s : State) (p off : Nat) : Blk × State :=
  let a := dpaCistern (p / 8) + off
  let (bad, s) := [a, a + 8].foldl (fun (q : Bool × State) a =>
    match wordOfDpa a with
    | some w =>
      let (k, t) := q.2.eccRead w 0 5
      (q.1 || k == 2, t)
    | none => q) (false, s)
  (if bad then Blk.zero else s.bindBlk p off, s)

/-- Take the written bindings at DONE (R139, R140): ramped in after silence or an unmute, faded out at a mute. -/
def State.takeBinds (s : State) (p : Nat) : State :=
  let x := s.unit p
  match x.prog with
  | none => s
  | some pr =>
    let mute := s.fb F.UNIT_CTL_MUTE p
    let s := pr.binds.foldl (fun s b =>
      if b.kind < 4 then s
      else
        let (raw, s) := s.readBind p b.off
        let (o, s) := if mute then (if x.muted ∨ x.silent then (Blk.zero, s) else s.fadeOut raw)
          else if x.muted ∨ x.silent then s.fadeIn raw else (raw, s)
        let y := s.unit p
        (s.setUnit p { y with last := mput Blk.zero y.last (b.kind * 2048 + b.index) o }).deliver b.kind b.index o) s
    (s.setUnit p { s.unit p with silent := false, muted := mute }).fs F.UNIT_STAT_MUTED (s.runner p) (b2n mute)

/-- Replace the written bindings after an overrun or a trap (R140): the last block delivered, faded, then silence. What stands
replaced for this tick already stays. -/
def State.fadeBinds (s : State) (p : Nat) : State :=
  let x := s.unit p
  match x.prog with
  | none => s
  | some pr =>
    let s := pr.binds.foldl (fun s b =>
      if b.kind < 4 then s
      else if x.silent then (if b.kind = 4 ∧ !(b.index ∈ s.aud.k3done) then s.deliver 4 b.index Blk.zero else s)
      else
        let (o, s) := s.fadeOut (mget Blk.zero x.last (b.kind * 2048 + b.index))
        let y := s.unit p
        (s.setUnit p { y with last := mput Blk.zero y.last (b.kind * 2048 + b.index) Blk.zero }).deliver b.kind b.index o) s
    s.setUnit p { s.unit p with silent := true }

/-! ### Traps and the write buffer -/

/-- Stop a unit at a trap (R137): cause and PC recorded, the detector reports, the outputs fade as for an overrun. -/
def State.stopTrap (s : State) (u cause pc : Nat) : State :=
  let s := ((s.fs F.UNIT_TRAP_CAUSE u cause).fs F.UNIT_TRAP_PC u pc).fadd F.UNIT_TRAP_COUNT u 1
  let s := (s.setUst u 5).det 0x21 (u / 32) u cause pc
  s.fadeBinds (s.role u)

/-- One entry leaves the write buffer (R135): a raise pulses its line, a store reaches its memory. False: a partial write was
refused (R314). -/
def State.wbOut (s : State) (u : Nat) (e : WbEnt) : Bool × State :=
  match e.line with
  | some l => (true, s.pulse (s.role u / 8) l)
  | none => s.busWrite e.a e.bs e.syn

/-- The oldest entry leaves. A refused partial write traps with PARTIAL_ECC (R137): what was issued completes and the buffer
drains. -/
def State.wbLeave (s : State) (u : Nat) : State :=
  let c := s.core u
  match c.wb with
  | [] => s
  | e :: t =>
    let (ok, s) := (s.setCore u { c with wb := t }).wbOut u e
    if ok then s
    else
      let s := s.setCore u { (s.core u).drain with wb := [] }
      (t.foldl (fun s e => (s.wbOut u e).2) s).stopTrap u 7 e.pc

/-- Drain the write buffer (R136): at most its 8 entries. -/
def State.wbDrain (s : State) (u : Nat) : Nat → State
  | 0 => s
  | n + 1 => if (s.core u).wb = [] then s else (s.wbLeave u).wbDrain u n

/-- A trap at the present instruction (R137): what was issued before completes and the write buffer drains. Of a trap met in
draining, that one counts. -/
def State.trap (s : State) (u cause : Nat) : State :=
  let c := s.core u
  let s := (s.setCore u c.drain).wbDrain u 8
  if s.ust u = 5 then s else s.stopTrap u cause c.pc

/-- Whether the write buffer is full: 8 entries (R135). -/
def UCore.wbFull (c : UCore) : Bool := decide (8 ≤ c.wb.length)

/-- A store or a raise enters the write buffer (R135); a full buffer stalls the unit until an entry leaves (R130). -/
def State.wbPush (s : State) (u : Nat) (e : WbEnt) : State :=
  let s := if (s.core u).wbFull then s.wbLeave u else s
  let c := s.core u
  s.setCore u { c with wb := c.wb ++ [e] }

/-- WRITE_BUFFER_ENTRY_LEAVE (R135). -/
def execWriteBufferEntryLeave (u : Nat) (s : State) : Host.Outcome State Fault Refusal :=
  .next (if u < 192 then s.wbLeave u else s)

/-! ### Issue -/

/-- Whether a unit may issue an instruction: running or waiting, and not held by the debug port, which stops it at an acceptance
boundary: the delay slots of a branch still issue (R132, R389). -/
def State.canIssue (s : State) (u : Nat) : Bool :=
  decide (u < 192) && (s.ust u == 2 || s.ust u == 3)
    && (!(s.unit u).halted || (s.unit u).stepOk || decide (0 < (s.core u).slots))

/-- The instruction word at a program address. -/
def State.fetch (s : State) (u pc : Nat) : Word := BitVec.ofNat 32 (s.dpaWord (dpaProg u + pc) 4)

/-- Instructions that may not stand in a delay slot (R128, R163). -/
def JInstr.noSlot : JInstr → Bool
  | .br .. | .call .. | .jr .. | .reti | .rep .. | .repl | .dbnz .. | .done | .wait .. | .waitm .. => true
  | _ => false

/-- Instructions that may not follow a REP (R129), accesses through a window apart. -/
def JInstr.noRep : JInstr → Bool
  | .raise .. => true
  | i => i.noSlot

/-- The next instruction: after a repetition, in delay slots, or in line (R128, R129). -/
def UCore.advance (c : UCore) (stall : Nat) : UCore :=
  let c := { c with idx := c.idx + 1, cyc := c.cyc + 1 + stall }
  if c.rep > 1 then { c with rep := c.rep - 1 }
  else if c.rep = 1 then { c with rep := 0, pc := (c.pc + 4) % 65536 }
  else if c.slots = 1 then { c with slots := 0, pc := c.target }
  else if c.slots > 1 then { c with slots := c.slots - 1, pc := (c.pc + 4) % 65536 }
  else { c with pc := (c.pc + 4) % 65536 }

/-- A branch with its two delay slots (R128): the target, or the instruction after the slots. -/
def UCore.branch (c : UCore) (taken : Bool) (t : Nat) : UCore :=
  { c.advance 0 with slots := 2, target := if taken then t % 65536 else (c.pc + 12) % 65536 }

/-- Finish an instruction that has no effect outside the core. -/
def State.coreDone (s : State) (u : Nat) (c : UCore) (stall : Nat) : State :=
  let x := s.unit u
  s.setUnit u { x with core := c.advance stall, stepOk := false }

/-- A local load while another master asks for the memory (R117, R130): that master waits 3 consecutive cycles, then takes the
next and the unit stalls 1 cycle; inside a REP it waits on. -/
def UCore.contend (c : UCore) (kept : Nat × Nat) (other : Bool) : Nat × (Nat × Nat) :=
  if !other then (0, (0, 0))
  else
    let n := if kept.1 = c.cyc then kept.2 else 0
    if n < 3 ∨ c.rep > 0 then (0, (c.cyc + 1, min 3 (n + 1))) else (1, (0, 0))

/-- The stall of a load (R130) and the core after it: 4 or 12 cycles and the wait for grant at the Cistern, which a redirected
unit (`far`) reaches later, else the conflict for the local memory. -/
def UCore.loadStall (c : UCore) (k : Nat) (cis far : Bool) (x : UPort) : Nat × UCore :=
  if cis then ((if far then 12 else 4) + x.stall, c)
  else if k < 4 then ((c.contend c.keptX x.mx).1, { c with keptX := (c.contend c.keptX x.mx).2 })
  else ((c.contend c.keptY x.my).1, { c with keptY := (c.contend c.keptY x.my).2 })

/-- Read memory for a load (R130, R137, R315, R316): the words, the stall, or a trap cause. ALIGN and MAP go before SLOT
(assumption 65). -/
def State.uLoad (s : State) (u k size : Nat) (x : UPort) : Sum Nat (List Word × Nat) × State :=
  let c := s.core u
  match s.uAddr u k (c.cr (0x10 + k)).toNat size false with
  | .bad cause => (.inl cause, s)
  | .line _ => (.inl 4, s)
  | .mem a cis =>
    if cis ∧ c.rep > 0 then (.inl 2, s)
    else if cis ∧ x.bus then (.inl 8, s)
    else
      let (e, s) := match wordOfDpa a with
        | some w => s.eccRead w x.syn 1
        | none => (0, s)
      if e = 2 then (.inl 6, s)
      else
        let ws := s.uWord u a :: (if size = 8 then [s.uWord u (a + 4)] else [])
        let (st, c) := (s.core u).loadStall k cis (s.remote u) x
        (.inr (ws, st), s.setCore u c)

/-- Store through pointer k (R125, R135): a trap cause, or the entry in the write buffer. ALIGN and MAP go before SLOT
(assumption 65). -/
def State.uStore (s : State) (u k size : Nat) (ws : List Word) (x : UPort) : Option Nat × State :=
  let c := s.core u
  let pc := c.pc
  match s.uAddr u k (c.cr (0x10 + k)).toNat size true with
  | .bad cause => (some cause, s)
  | .line l =>
    if c.rep > 0 then (some 2, s)
    else if x.bus then (some 8, s)
    else (none, s.wbPush u ⟨some l, 0, [], 0, pc⟩)
  | .mem a cis =>
    if cis ∧ c.rep > 0 then (some 2, s)
    else if cis ∧ x.bus then (some 8, s)
    else (none, s.wbPush u ⟨none, a, ws.flatMap (fun w => leBytes 4 w.toNat), x.syn, pc⟩)

end Sys2Proof.Machine
end

