-- ==== Sys2Proof/Machine/Session.lean ====
section
/-! DEFINITION. Debug sessions (R392 - R394): the level in force, and the end of a session, at which the level falls to NONE and
every halted unit and pair resumes. -/

namespace Sys2Proof.Machine

/-- DBG_STAT.HALTED: a unit or a pair is held by debug. -/
def State.showHalted (s : State) : State :=
  let b := s.eng.units.any (fun p => p.2.halted) || s.fb F.DBG_RUNCTL_PAIR0_HALT 0 || s.fb F.DBG_RUNCTL_PAIR1_HALT 0
  s.fs F.DBG_STAT_HALTED 0 (b2n b)

/-- Every halted unit and pair resumes (R389). -/
def State.resumeAll (s : State) : State :=
  let s := { s with eng := { s.eng with units := s.eng.units.map (fun (p : Nat × UnitSt) => (p.1, { p.2 with halted := false, stepOk := false })) } }
  ((s.fs F.DBG_RUNCTL_PAIR0_HALT 0 0).fs F.DBG_RUNCTL_PAIR1_HALT 0 0).fs F.DBG_STAT_HALTED 0 0

/-- A session or grant ends (R392). -/
def State.dbgEnd (s : State) : State :=
  let s := (((s.fs F.DBG_STAT_SESSION 0 0).fs F.DBG_STAT_MAX 0 0).fs F.DBG_STAT_LEVEL 0 0).fs F.DBG_STAT_MIN_LEFT 0 0
  { s.resumeAll with sec := { s.sec with sessEnd := none, fell := false } }

/-- The highest level the table of R393 allows at present: the Twin entry holds for a twin that is STANDBY, SUSPECT or YIELDED,
and at package level L4 the QUIET rows apply in RUN. -/
def State.dbgTable (s : State) : Nat :=
  let p := if s.fb F.RW_PWR_STAT_MOVING 0 ∧ s.fg F.RW_PWR_STAT_TARGET 0 = 3 then 3 else s.fg F.RW_PWR_STAT_STATE 0
  let r := s.twRole
  if s.fb F.SEC_STATE_SEALED 0 ∧ !s.fb F.DBG_STAT_SESSION 0 then 0
  else if p = 3 then 0
  else if p = 2 then 1
  else if p = 1 ∨ s.fg F.SMP_STAT_PKG_LEVEL 0 = 4 then 3
  else if r = 3 ∨ r = 4 ∨ r = 5 then 3
  else 1

/-- The level in force (R393, R394): the lower of the level granted and the table's; after a takeover at most OBSERVE. -/
def State.dbgLevel (s : State) : Nat :=
  min (min (s.fg F.DBG_STAT_MAX 0) s.dbgTable) (if s.sec.fell then 1 else 3)

/-- Minutes left of a session, a minute begun counting as one (DEDUCED); 0 in OPEN. -/
def State.minLeft (s : State) : Nat := (s.sec.sessEnd.map (fun e => (e - s.time.up + 59999999999) / 60000000000)).getD 0

/-- The level is recomputed; where it falls below HALT, halted cores resume. -/
def State.dbgRelevel (s : State) : State :=
  let l := s.dbgLevel
  let was := s.fg F.DBG_STAT_LEVEL 0
  let s := (s.fs F.DBG_STAT_LEVEL 0 l).fs F.DBG_STAT_MIN_LEFT 0 s.minLeft
  if 2 ≤ was ∧ l < 2 then s.resumeAll else s

/-- A takeover by a device that holds HALT or FULL (R394). -/
def State.dbgFall (s : State) : State :=
  if s.fg F.DBG_STAT_LEVEL 0 < 2 then s
  else ({ s with sec := { s.sec with fell := true } } : State).dbgRelevel

/-- An access or a TAP instruction has been refused (R386, R395). -/
def State.dbgDenied (s : State) : State := s.fs F.DBG_STAT_DENIED 0 1

end Sys2Proof.Machine
end

