-- ==== Sys2Proof/Machine/Host.lean ====
section
/-! DEFINITION. The host interface's rings (R269 - R285): doorbells, the checks of GO, coalesced messages, HIN and HOUT. -/

namespace Sys2Proof.Machine

def State.hifRun (s : State) : Bool := s.fb F.HIF_STAT_STATE 0
def State.ringEn (s : State) (r : Nat) : Bool := s.fb F.HIF_RING_CFG_EN r
def State.ringTy (s : State) (r : Nat) : Nat := s.fg F.HIF_RING_CFG_TYPE r
def State.ringRuns (s : State) (r : Nat) : Bool := s.fg F.HIF_RING_STAT_STATE r == 1

/-- A ring error: its event record with the cause (R282). -/
def State.ringErr (s : State) (r cause : Nat) : State := s.post Evt.HIF_RING_ERR r (leBytes 4 cause)

/-- A ring halts when a host memory read fails (R272). -/
def State.ringHalt (s : State) (r : Nat) : State := (s.fs F.HIF_RING_STAT_STATE r 2).ringErr r 3

/-- DOORBELL: a write to BAR2 (R264, R271, R273, R427). -/
def execDoorbell (off : Nat) (x : BusWord) (dt : Nat) (s : State) : Host.Outcome State Fault Refusal :=
  let s := s.elapse dt
  let r := off / 256
  let v := x.val
  .next (if x.size ≠ 4 ∨ off % 256 ≠ 0 ∨ 32 ≤ r ∨ !s.hifRun then s
    else
      let host := s.fg F.HIF_RING_IDX_HOST_IDX r
      let dev := s.fg F.HIF_RING_IDX_DEV_IDX r
      let new := v % 65536
      let n := (new + 65536 - dev) % 65536
      if 65536 ≤ v ∨ 2 ^ s.fg F.HIF_RING_CFG_SIZE r ≤ n ∨ n < (host + 65536 - dev) % 65536 ∨ !s.ringEn r then
        (s.fs F.HIF_RING_STAT_IDX_ERR r 1).ringErr r 1
      else
        let s := s.fs F.HIF_RING_IDX_HOST_IDX r new
        { s with hif := { s.hif with
            retry := mput 0 s.hif.retry r 0,
            stamps := if new = host then s.hif.stamps else s.hif.stamps ++ [(r, host, s.mts)] } })

/-- The stamp that belongs to a descriptor, taken off the list. -/
def State.takeStamp (s : State) (r i : Nat) : Option Nat × State :=
  match s.hif.stamps.find? (fun t => t.1 == r && t.2.1 == i) with
  | some t => (some t.2.2, { s with hif := { s.hif with stamps := s.hif.stamps.filter (fun x => x != t) } })
  | none => (none, s)

/-- INTERRUPT_COALESCE_TIMEOUT (R279): 50 µs after the oldest unsignalled return. -/
def execInterruptCoalesceTimeout (r : Nat) (s : State) : Host.Outcome State Fault Refusal :=
  let c := mget (0, 0) s.hif.coal r
  .next (if r < 32 ∧ c.1 ≠ 0 ∧ c.2 + 50000 ≤ s.time.up then
      ({ s with hif := { s.hif with coal := mput (0, 0) s.hif.coal r (0, 0) } } : State).msi (s.fg F.HIF_RING_CFG_VECTOR r)
    else s)

/-! ### The checks of GO (R269) -/

def State.ringBase (s : State) (r : Nat) : Nat := s.fg F.HIF_RING_BASE_LO_BASE r + 2 ^ 32 * s.fg F.HIF_RING_BASE_HI_BASE r

/-- Enabled rings of a TYPE. -/
def State.ringsEn (s : State) (ty : Nat) : List Nat := (List.range 32).filter (fun r => s.ringEn r && s.ringTy r == ty)

/-- Converters the 48 kHz audio rings need (R58, R283). -/
def State.ringConv (s : State) (r : Nat) : Nat :=
  if s.fb F.HIF_RING_AUD_RATE r then (s.fg F.HIF_RING_AUD_CHANNELS r + 31) / 32 else 0

/-- The key of the converter group of an audio ring. -/
def State.ringGrp (s : State) (r : Nat) : Nat := grpKey (s.ringTy r == 4) 4 (s.fg F.HIF_RING_AUD_INDEX r)

def dupIn : List Nat → Bool
  | [] => false
  | a :: t => t.contains a || dupIn t

/-- The cause for which GO is refused, 0 when it is not. -/
def State.goCause (s : State) : Nat :=
  let cmd := s.ringsEn 0
  let aud := s.ringsEn 3 ++ s.ringsEn 4
  let pair := fun r => s.fg F.HIF_RING_CFG_PAIR r
  let chans := fun ty => (s.ringsEn ty).foldl (fun n r => n + s.fg F.HIF_RING_AUD_CHANNELS r) 0
  if cmd.any (fun r => !(s.ringsEn 1).contains (pair r)) then 1
  else if 1 < (s.ringsEn 2).length then 2
  else if 128 < chans 3 ∨ 128 < chans 4 then 3
  else if cmd.any (fun r => cmd.any (fun q => s.fg F.HIF_RING_CFG_CLASS r == 2 && s.fg F.HIF_RING_CFG_CLASS q != 2
      && pair q == pair r)) then 4
  else if [3, 4].any (fun ty => dupIn ((s.ringsEn ty).map (fun r => s.fg F.HIF_RING_AUD_INDEX r))) then 5
  else if (List.range 32).any (fun r => s.ringEn r && (s.ringBase r % 64 != 0
      || decide (2 ^ 64 < s.ringBase r + 64 * 2 ^ s.fg F.HIF_RING_CFG_SIZE r))) then 6
  else if 64 < s.convUsed (aud.map s.ringGrp) + aud.foldl (fun n r => n + s.ringConv r) 0 then 7
  else 0

/-- 1 written to HIF_CTL.GO (R265): in SETUP the rings are checked; with no error the staging image applies at the next tick
boundary as one commit, which has a generation where the image is not empty. -/
def State.goWrite (s : State) : State :=
  if s.hifRun ∨ s.hif.goArmed ∨ s.fg F.SEC_FW_STAT_MODE 0 = 3 then s
  else
    let c := s.goCause
    let s := s.fs F.HIF_STAT_GO_ERR 0 c
    if c ≠ 0 then s
    else
      let e : Entry := ⟨Code.GO, { ring := 255 }, 0, s.hif.cmdSeq, s.time.next, s.time.next, false, false, true, false⟩
      { s with dueNext := s.dueNext ++ [e], hif := { s.hif with goArmed := true, cmdSeq := s.hif.cmdSeq + 1 } }

def execGo (s : State) : Host.Outcome State Fault Refusal := .next (if s.noCmds then s else s.goWrite)

/-- Every enabled ring starts (R427), and its converters are configured. -/
def State.ringsStart (s : State) : State :=
  (List.range 32).foldl (fun s r =>
    if !s.ringEn r then s
    else
      let s := ((s.fs F.HIF_RING_STAT_STATE r 1).fs F.HIF_RING_IDX_HOST_IDX r 0).fs F.HIF_RING_IDX_DEV_IDX r 0
      if s.ringTy r = 3 ∨ s.ringTy r = 4 then s.convSet (s.ringGrp r) (s.ringConv r) false else s) s

/-! ### A Function Level Reset (R266, R422) -/

/-- The host interface alone is reset: rings disabled, staging image emptied, HIN and HOUT stopped, MSI-X and configuration space
cleared. Samples that HIN rings have placed ahead go with them; commands accepted run on without completions. -/
def State.hifReset (s : State) : State :=
  let s := (List.range 32).foldl (fun s r =>
    let s := if s.ringTy r = 3 ∨ s.ringTy r = 4 then s.convSet (s.ringGrp r) 0 false else s
    (((((s.rw .HIF_RING_BASE_LO r (BitVec.ofNat 32 (resetWord .HIF_RING_BASE_LO r))).rw .HIF_RING_BASE_HI r
      (BitVec.ofNat 32 (resetWord .HIF_RING_BASE_HI r))).rw .HIF_RING_CFG r (BitVec.ofNat 32 (resetWord .HIF_RING_CFG r))).rw
      .HIF_RING_AUD r (BitVec.ofNat 32 (resetWord .HIF_RING_AUD r))).rw .HIF_RING_IDX r
      (BitVec.ofNat 32 (resetWord .HIF_RING_IDX r))).rw .HIF_RING_STAT r (BitVec.ofNat 32 (resetWord .HIF_RING_STAT r))) s
  let s := s.fs F.HIF_STAT_STATE 0 0
  let s := { s with aud := { s.aud with inq := s.aud.inq.filter (fun p => p.1 / 2 ^ 32 != 4) } }
  { s with hif := { s.hif with
      pci := PciCfg.reset, finals := [], staged := [], goArmed := false, await := [], resv := [], stamps := [], coal := [],
      msix := [], pba := [], taken := [],
      houtGap := [], lastCls := [], retry := [], flrSeq := s.hif.cmdSeq } }

/-- FUNCTION_LEVEL_RESET (R266): it also ends a debug session (R392). -/
def execFunctionLevelReset (s : State) : Host.Outcome State Fault Refusal := .next s.hifReset.dbgEnd

/-- PERST_N_ASSERT (R442): the host interface is reset as by a Function Level Reset. -/
def execPerstNAssert (s : State) : Host.Outcome State Fault Refusal := .next s.hifReset.dbgEnd

/-! ### Audio rings (R283 - R285) -/

/-- Sample rate of a ring. -/
def State.ringFs (s : State) (r : Nat) : Nat := if s.fb F.HIF_RING_AUD_RATE r then 48000 else 96000

/-- FRAMES within its range. -/
def State.framesOk (s : State) (r n : Nat) : Bool :=
  if s.fb F.HIF_RING_AUD_RATE r then n % 2 == 0 && decide (2 ≤ n) && decide (n ≤ 2048)
  else n % 4 == 0 && decide (4 ≤ n) && decide (n ≤ 4096)

/-- The grid number of an instant, if it is one (R7, R283). -/
def State.ringGrid (s : State) (r full : Nat) : Option Nat := frameNo (s.ringFs r) full

/-- An instant near the present from its MTS. -/
def State.nearMts (s : State) (m : Nat) : Nat := ((s.now : Int) + sext 32 (m + 2 ^ 32 - s.mts)).toNat

/-- The write-back of an audio descriptor (R283). -/
def audBytes (d : AudDesc) : List Byte :=
  leBytes 4 (mtsOf d.start) ++ leBytes 2 d.frames
    ++ leBytes 2 ((if d.late then 2 ^ 14 else 0) + (if d.gap then 2 ^ 13 else 0) + (if d.db.isSome then 2 ^ 12 else 0)
        + (if d.bad then 2 ^ 11 else 0))
    ++ leBytes 8 d.addr ++ leBytes 4 (satU 32 d.absent) ++ leBytes 4 (d.db.getD 0) ++ List.replicate 40 0

/-- Return an audio descriptor and count its absent frames. -/
def State.audReturn (s : State) (d : AudDesc) : State :=
  let s := { s with hif := { s.hif with taken := s.hif.taken.filter (fun x => !(x.ring == d.ring && x.index == d.index)) } }
  (s.fadd F.HIF_RING_STAT_FRAMES_LOST d.ring d.absent).ringReturn d.ring (audBytes d)

/-- Whether a HIN descriptor may be returned: BAD, or the gather of its last frame has closed (R284). -/
def State.hinDone (s : State) (d : AudDesc) : Bool :=
  d.bad || (match s.ringGrid d.ring d.start with
    | some n => decide ((n + d.frames - 1) * (96000 / s.ringFs d.ring) / 4 < tickAt s.now)
    | none => true)

/-- Return the oldest HIN descriptor of a ring if its time has come. -/
def State.hinFlush (s : State) (r : Nat) : State :=
  match s.hif.taken.find? (fun d => d.ring == r) with
  | some d => if s.ringTy r = 3 ∧ s.hinDone d then s.audReturn d else s
  | none => s

/-- HIN_RETURN (R284). -/
def execHinReturn (r : Nat) (s : State) : Host.Outcome State Fault Refusal := .next (s.hinFlush r)

/-- Place one HIN frame (R284): its samples when its block is still open and no descriptor has filled it. -/
def State.hinFrame (s : State) (r n : Nat) (smp : Nat → Int) : Bool × State :=
  let i := s.fg F.HIF_RING_AUD_INDEX r
  let half := s.fb F.HIF_RING_AUD_RATE r
  let g := if half then 2 * n else n
  let at_ := if half then g + 12 else g
  let taken := (mget [] s.aud.inq (endKey 4 i 0)).any (fun p => p.1 == at_)
  if g / 4 < tickAt s.now ∨ taken then (false, s)
  else
    let m := if half then Conv.POLY else Conv.DIRECT
    (true, (List.range (s.fg F.HIF_RING_AUD_CHANNELS r)).foldl (fun s c =>
      s.pushMode m (endKey 4 i c) g (smp c) half) s)

/-- Take a HIN descriptor (R284). -/
def State.hinTake (s : State) (d : AudDesc) : State :=
  let ch := s.fg F.HIF_RING_AUD_CHANNELS d.ring
  match s.ringGrid d.ring d.start, s.framesOk d.ring d.frames with
  | some n, true =>
    let (lost, s) := (List.range d.frames).foldl (fun (q : Nat × State) j =>
      let (ok, t) := q.2.hinFrame d.ring (n + j) (fun c => (d.samples.getD (j * ch + c) 0).toInt)
      (q.1 + b2n !ok, t)) (0, s)
    let d := { d with absent := lost, late := decide (0 < lost) }
    { s with hif := { s.hif with taken := s.hif.taken ++ [d] } }
  | _, _ =>
    let d := { d with bad := true, absent := d.frames }
    ({ s with hif := { s.hif with taken := s.hif.taken ++ [d] } } : State).hinFlush d.ring

/-- Fill the HOUT descriptors with the block collected for output tick g (R285). -/
def State.houtRing (s : State) (r g : Nat) : State :=
  let i := s.fg F.HIF_RING_AUD_INDEX r
  let ch := s.fg F.HIF_RING_AUD_CHANNELS r
  let half := s.fb F.HIF_RING_AUD_RATE r
  let nf := if half then 2 else 4
  match s.hif.taken.find? (fun d => d.ring == r) with
  | none => { s with hif := { s.hif with houtGap := mmod 0 s.hif.houtGap r (· + nf) } }
  | some d =>
    let gap := mget 0 s.hif.houtGap r
    let d := if d.filled = 0 then { d with start := tickStart g, gap := decide (0 < gap), absent := gap } else d
    let s := { s with hif := { s.hif with houtGap := mput 0 s.hif.houtGap r 0 } }
    let (l, s) := (List.range ch).foldl (fun (q : List (List Int) × State) c =>
      let b := mget Blk.zero q.2.aud.outNext (endKey 4 i c)
      if half then
        let (v, t) := q.2.convBlk (outHist (endKey 4 i c)) b false
        (q.1 ++ [v], t)
      else (q.1 ++ [(List.range 4).map b.at], q.2)) (([] : List (List Int)), s)
    let b := (List.range nf).flatMap (fun f => l.flatMap (fun v => leBytes 4 (wrap 32 (v.getD f 0))))
    let s := s.hostWrite (d.addr + 4 * ch * d.filled) b
    let d := { d with filled := d.filled + nf }
    let s := { s with hif := { s.hif with taken := s.hif.taken.map (fun x => if x.ring == r && x.index == d.index then d else x) } }
    if d.frames ≤ d.filled then s.audReturn d else s

/-- Every HOUT ring that runs, at the collection of the block for output tick g. -/
def State.houtCollect (s : State) (g : Nat) : State :=
  (List.range 32).foldl (fun s r => if s.ringRuns r && s.ringTy r == 4 then s.houtRing r g else s) s

/-! ### Service order (R280) -/

/-- Whether a CMD ring has a descriptor to take and room for its completions (R272, R278). -/
def State.cmdReady (s : State) (r : Nat) : Bool :=
  let p := s.fg F.HIF_RING_CFG_PAIR r
  s.ringRuns r && s.ringTy r == 0 && s.devOwned r != 0 && mget 0 s.hif.retry r == 0
    && decide (mget 0 s.hif.resv p + 2 ≤ s.devOwned p)

/-- The ring served next: Class S, then P, then B; round-robin within a class. -/
def State.nextRing (s : State) : Option Nat :=
  [2, 1, 0].findSome? (fun k =>
    let l := (List.range 32).filter (fun r => s.cmdReady r && s.fg F.HIF_RING_CFG_CLASS r == k)
    let last := mget 31 s.hif.lastCls k
    match l.find? (fun r => decide (last < r)) with
    | some r => some r
    | none => l.head?)

/-- The command a CMD descriptor spells (R275). -/
def cmdOf (r : Nat) (b : List Byte) (readOk : Bool) (buf : List Byte) (db : Option Nat) (ok : Bool) : Cmd :=
  let fl := leAt b 6 2
  { src := 0, ring := r, tag := leAt b 0 4, tgt := fl.testBit 14, long := fl.testBit 13,
    rsv := fl % 8192 + leAt b 0x15 3, tgtNs := leAt b 8 4, tgtSec := leAt b 0xC 6, rampMs := leAt b 0x12 2,
    shape := leAt b 0x14 1, a := leAt b 0x18 4, b := leAt b 0x1C 4, addr := leAt b 0x20 8, len := leAt b 0x28 4,
    c := leAt b 0x2C 4, i0 := leAt b 0x30 4, i1 := leAt b 0x34 4, i2 := leAt b 0x38 4, i3 := leAt b 0x3C 4,
    readOk := readOk, buf := buf, db := db, ok := ok, dt := 0 }

end Sys2Proof.Machine
end

