-- ==== Sys2Proof/Machine/Wellhead.lean ====
section
/-! DEFINITION. The Wellhead (R36 - R54): slot measurement, quality levels, slot states, selection, the loop, the switch,
the bleed, holdover, and the commands that steer it. -/

namespace Sys2Proof.Machine

/-! ### Slots -/

abbrev State.sst (s : State) (n : Nat) : Nat := s.fg F.WH_SLOT_STAT_STATE n
def State.setSst (s : State) (n v : Nat) : State := s.fs F.WH_SLOT_STAT_STATE n v
def State.service (s : State) : Bool := s.fb F.WH_STATUS_MODE 0
def State.setTimer (s : State) (n : Nat) (t : Option Nat) : State := s.setSlot n { s.slot n with timer := t }

/-- QL of a PTP slot from its last Announce (R38): the first valid entry of WH_QL_MAP that matches. -/
def State.ptpQl (s : State) (cls acc : Nat) : Nat :=
  match (List.range 16).find? (fun i => s.fb F.WH_QL_MAP_VALID i && s.fg F.WH_QL_MAP_CLASS i == cls
      && decide (acc ≤ s.fg F.WH_QL_MAP_ACC_MAX i)) with
  | some i => s.fg F.WH_QL_MAP_QL i
  | none => 15

/-- The quality level of a slot (R38). -/
def State.qlOf (s : State) (n : Nat) : Nat :=
  if n < 8 then s.ptpQl (s.slot n).cls (s.slot n).acc
  else if isTwinSlot n then min 15 ((s.slot n).peerQl + 1)
  else if n < 15 then s.fg F.WH_SLOT_CFG_QL n
  else 15

/-- WH_SLOT_STAT.QL and WH_STATUS.QL read the levels in force. -/
def State.showQl (s : State) : State :=
  let s := (List.range 15).foldl (fun s n => s.fs F.WH_SLOT_STAT_QL n (s.qlOf n)) s
  s.fs F.WH_STATUS_QL 0 (s.qlOf (s.fg F.WH_STATUS_SELECTED 0))

/-- Frequencies of the other slots that are QUALIFIED or DRIFTING (R40). -/
def State.ensembleOf (s : State) (n : Nat) : List Int :=
  ((List.range 15).filter (fun m => m != n && (s.sst m == 3 || s.sst m == 4))).map (fun m => s.fgI F.WH_SLOT_FREQ_FREQ m)

/-- The median; with an even count the mean of the two middle values (R40). -/
def median (l : List Int) : Int :=
  let t := l.mergeSort (· ≤ ·)
  let k := t.length
  if k % 2 = 1 then t.getD (k / 2) 0 else (t.getD (k / 2 - 1) 0 + t.getD (k / 2) 0) / 2

/-- The frequency against which drift of slot `n` is judged (R40). -/
def State.ensemble (s : State) (n : Nat) : Int :=
  let l := s.ensembleOf n
  if l.length ≥ 2 then median l
  else if s.fb F.WH_HO_VALID_VALID 0 then s.fgI F.WH_HO_RATE_RATE 0 else 0

/-- A frequency difference beyond SOFT (0.1 ppm units) and beyond HARD (ppm), in units of 2⁻⁴⁰ (R50). -/
def State.beyondSoft (s : State) (d : Int) : Bool := decide (d.natAbs * 10000000 > s.fg F.WH_DRIFT_SOFT 0 * 2 ^ 40)
def State.beyondHard (s : State) (d : Int) : Bool := decide (d.natAbs * 1000000 > s.fg F.WH_DRIFT_HARD 0 * 2 ^ 40)

/-- Distance of a slot's frequency from its ensemble. -/
def State.drift (s : State) (n : Nat) : Int := s.fgI F.WH_SLOT_FREQ_FREQ n - s.ensemble n

/-- A slot's WTR starts (R40, R41): during a switch it waits for the switch's completion. -/
def State.startWtr (s : State) (n : Nat) : State :=
  let s := s.setSst n 2
  let w := s.fg F.WH_SLOT_CFG_WTR n
  let s := s.fs F.WH_SLOT_STAT_WTR_LEFT n w
  if s.wh.switch.isSome then s.setSlot n { s.slot n with timer := none, lateWtr := true }
  else s.setSlot n { s.slot n with timer := s.inNs (w * secNs), lateWtr := false }

/-- A slot becomes valid (R40): WTR in SERVICE, QUALIFIED in ACQUIRE. A DISQUALIFIED slot within SOFT starts DRIFT_HOLD. -/
def State.slotValid (s : State) (n : Nat) : State :=
  let s := s.setSlot n { s.slot n with valid := true }
  if s.sst n = 1 then (if s.service then s.startWtr n else s.setSst n 3)
  else if s.sst n = 5 ∧ !s.beyondSoft (s.drift n) ∧ (s.slot n).timer.isNone then
    s.setTimer n (s.inNs (s.fg F.WH_DRIFT_DRIFT_HOLD 0 * secNs))
  else s

/-- A slot meets its invalidity condition (R36, R40): QUALIFIED and DRIFTING slots post WH_REF_LOST and raise family 0x30. -/
def State.slotInvalid (s : State) (n : Nat) : State :=
  let st := s.sst n
  let s := s.setSlot n { s.slot n with valid := false, lastEdge := none, badEdges := 0, hist := [], at_ := none, turns := 0 }
  if st = 2 then ((s.setTimer n none).setSst n 1).fs F.WH_SLOT_STAT_WTR_LEFT n 0
  else if st = 3 ∨ st = 4 then
    ((((s.setTimer n none).setSst n 1).post Evt.WH_REF_LOST n []).det 0x30 n 0 0 0)
  else if st = 5 then s.setTimer n none
  else s

/-- A slot is DISQUALIFIED (R40). -/
def State.disqualify (s : State) (n : Nat) : State :=
  (((s.setTimer n none).setSst n 5).post Evt.WH_DISQUALIFIED n (leBytes 4 (s.fg F.WH_SLOT_FREQ_FREQ n))).det 0x30 n 0 1 0

/-- The drift rows of R40 for one slot. A slot that is INVALID though valid under R36 (its WTR was broken by SOFT) takes the
first rows of the table again. -/
def State.judgeDrift (s : State) (n : Nat) : State :=
  let st := s.sst n
  let d := s.drift n
  if st = 1 then (if (s.slot n).valid then s.slotValid n else s)
  else if st = 2 then
    (if s.beyondSoft d then ((s.setTimer n none).setSst n 1).fs F.WH_SLOT_STAT_WTR_LEFT n 0 else s)
  else if st = 3 then
    if s.beyondHard d then s.disqualify n
    else if s.beyondSoft d then
      (((s.setSst n 4).setTimer n (s.inNs (s.fg F.WH_DRIFT_DRIFT_HOLD 0 * secNs))).post Evt.WH_DRIFTING n
        (leBytes 4 (s.fg F.WH_SLOT_FREQ_FREQ n)))
    else s
  else if st = 4 then
    if s.beyondHard d then s.disqualify n
    else if s.beyondSoft d then s
    else (s.setSst n 3).setTimer n none
  else if st = 5 then
    if s.beyondSoft d ∨ !(s.slot n).valid then s.setTimer n none
    else if (s.slot n).timer.isNone then s.setTimer n (s.inNs (s.fg F.WH_DRIFT_DRIFT_HOLD 0 * secNs))
    else s
  else s

/-- The measurements a frequency is averaged over (R37): those of the second before `t`, and the first one before that second, so
that a reference measured once a second has two. -/
def lastSecond (t : Nat) : List (Nat × Int) → List (Nat × Int)
  | [] => []
  | p :: l => if t < p.1 + secNs then p :: lastSecond t l else [p]

/-- Fractional offset of a reference against the local oscillator over its measurements, in units of 2⁻⁴⁰ (R37): how much faster
than the oscillator its own time, in units of 1/hz ns, moved from the oldest to the newest. -/
def phaseSlope (hz : Nat) (h : List (Nat × Int)) : Option Int :=
  match h.head?, h.getLast? with
  | some (t1, r1), some (t0, r0) =>
    if t1 ≤ t0 then none else some ((r1 - r0 - hz * (t1 - t0 : Nat)) * 2 ^ 40 / (hz * (t1 - t0) : Nat))
  | _, _ => none

/-- Update a slot's frequency (R37) from its measurements; with one measurement it is taken as the rate in force
(assumption 12). -/
def State.updateFreq (s : State) (n : Nat) : State :=
  let x := s.slot n
  if !x.valid then s
  else
    let h := match x.at_ with
      | some m => lastSecond m.1 (if x.hist.head? = some m then x.hist else m :: x.hist)
      | none => x.hist
    (s.setSlot n { x with hist := h }).fsI F.WH_SLOT_FREQ_FREQ n (satS 32 ((phaseSlope x.hz h).getD s.rateNow))

/-- Seconds of WTR remaining (R40). -/
def State.showWtr (s : State) (n : Nat) : State :=
  match (s.slot n).timer with
  | some d => if s.sst n = 2 then s.fs F.WH_SLOT_STAT_WTR_LEFT n ((d - s.time.up + secNs - 1) / secNs) else s
  | none => s

/-- SLOT_MEASUREMENT_UPDATE (R37, R40): every slot's frequency, then its drift. -/
def execSlotMeasurementUpdate (dt : Nat) (s : State) : Host.Outcome State Fault Refusal :=
  let s := s.elapse dt
  let s := (List.range 15).foldl (fun s n => s.updateFreq n) s
  .next ((List.range 15).foldl (fun s n => (s.judgeDrift n).showWtr n) s)

/-- WTR_EXPIRY (R40). -/
def execWtrExpiry (n : Nat) (s : State) : Host.Outcome State Fault Refusal :=
  .next (if n < 15 ∧ s.sst n = 2 ∧ s.due (s.slot n).timer then
      ((s.setTimer n none).setSst n 3).fs F.WH_SLOT_STAT_WTR_LEFT n 0
    else s)

/-- DRIFT_HOLD_EXPIRY (R40): DRIFTING to DISQUALIFIED, or DISQUALIFIED back to WTR or QUALIFIED. -/
def execDriftHoldExpiry (n : Nat) (s : State) : Host.Outcome State Fault Refusal :=
  .next (if n < 15 ∧ s.due (s.slot n).timer then
      if s.sst n = 4 then s.disqualify n
      else if s.sst n = 5 then
        (if s.service then (s.setTimer n none).startWtr n else (s.setTimer n none).setSst n 3)
      else s
    else s)

/-- A measured phase of a slot (R37). The whole periods that folding takes out are counted, so that a wrap of the folded phase is
no jump of the frequency; during the first tick of a switch the phases of its two slots are averaged (R48). -/
def State.slotPhase (s : State) (n : Nat) (p : Int) : State :=
  let x := s.slot n
  let hz := if isPeriod n then s.slotHz n else 1
  let goOn : Bool := x.at_.isSome && x.hz == hz
  let k := if isPeriod n && goOn then x.turns + ((x.phase - p) * hz + 500000000) / 1000000000 else 0
  let u := p * hz + k * 1000000000
  let s := s.setSlot n { x with phase := p, turns := k, hz := hz, at_ := some (s.time.up, s.now * hz + u)
                                hist := if goOn then x.hist else [] }
  let s := match s.wh.switch with
    | some w =>
      if w.delta.isNone ∧ s.time.tick = w.start then
        let w := if n = w.old then { w with oldSum := w.oldSum + u, oldN := w.oldN + 1 } else w
        let w := if n = w.new then { w with newSum := w.newSum + u, newN := w.newN + 1 } else w
        { s with wh := { s.wh with switch := some w } }
      else s
    | none => s
  s.showPhase n p

/-- The count since the last edge or Sync of a slot. -/
def State.edgeGap (s : State) (n : Nat) : Option Int := (s.slot n).lastEdge.map (fun t => (s.now : Int) - t)

/-- No edge of a period slot for longer than R36 allows: 1.1 s of PPSIN, two nominal periods of REFIN. -/
def State.edgeLate (s : State) (n : Nat) : Bool :=
  match s.edgeGap n with
  | some g => if n = 14 then decide (g > 1100000000) else decide (g * s.slotHz n > 2000000000)
  | none => true

/-- An edge of a period slot: time-stamped, its phase folded, and judged against R36. `bad` says whether the edge breaks the
slot's period rule, `limit` how many such edges in a row make it invalid. An edge that comes too late finds the slot invalid and
is the first of a new row. -/
def State.periodEdge (s : State) (n : Nat) (bad : Bool) (limit : Nat) : State :=
  let late := s.edgeLate n
  let s := if late && (s.slot n).lastEdge.isSome then s.slotInvalid n else s
  let x := s.slot n
  let nb := if bad && !late then x.badEdges + 1 else 0
  let s := s.setSlot n { x with lastEdge := some (s.now : Int), badEdges := nb }
  let s := s.slotPhase n (foldPhase (s.slotHz n) s.time.ns.toNat)
  if nb ≥ limit then s.slotInvalid n
  else if !late && !bad && s.sst n != 0 && !(s.slot n).valid then s.slotValid n
  else s

/-- PPSIN_EDGE (R36, R439): slot 14. An edge earlier than 0.9 s after the previous one makes the slot invalid. -/
def execPpsinEdge (dt : Nat) (s : State) : Host.Outcome State Fault Refusal :=
  let s := s.elapse dt
  let bad := match s.edgeGap 14 with
    | some g => decide (g < 900000000)
    | none => false
  .next (s.periodEdge 14 bad 1)

/-- REFIN_EDGE (R36): slots 10 - 13. Eight consecutive edges off the nominal period by more than HARD make the slot invalid. -/
def execRefinEdge (i dt : Nat) (s : State) : Host.Outcome State Fault Refusal :=
  if i < 4 then
    let n := 10 + i
    let s := s.elapse dt
    let hz := s.slotHz n
    let bad := match s.edgeGap n with
      | some g => decide ((g * hz - 1000000000).natAbs * 1000000 > s.fg F.WH_DRIFT_HARD 0 * 1000000000)
      | none => false
    .next (s.periodEdge n bad 8)
  else .next s

/-! ### Mode and loop -/

abbrev State.loop (s : State) : Nat := s.fg F.WH_STATUS_LOOP 0

/-- Enter a loop state; LOCK shows LOCKED and the counts of R42 and R45 follow it. -/
def State.setLoop (s : State) (l : Nat) : State :=
  let s := (s.fs F.WH_STATUS_LOOP 0 l).fs F.WH_STATUS_LOCK 0 (b2n (l == 2))
  { s with wh := { s.wh with
      lockSince := if l = 2 then some s.time.up else none
      critSince := none
      lockDue := false
      hoSince := if l = 4 && s.service then some s.time.up else none } }

/-- Enter ACQUIRE (0) or SERVICE (1). A slot in WTR becomes QUALIFIED when the mode changes to ACQUIRE (R40, R42). -/
def State.setMode (s : State) (m : Nat) : State :=
  let s := s.fs F.WH_STATUS_MODE 0 m
  let s := { s with wh := { s.wh with hoSince := if m = 1 ∧ s.loop = 4 then some s.time.up else none } }
  if m = 0 then
    (List.range 15).foldl (fun s n => if s.sst n = 2 then
        (((s.setSlot n { s.slot n with timer := none, lateWtr := false }).setSst n 3).fs F.WH_SLOT_STAT_WTR_LEFT n 0)
      else s) s
  else s

/-- The phase error of R45, in nanoseconds. -/
def State.phaseErr (s : State) : Int := (s.slot (s.fg F.WH_STATUS_SELECTED 0)).phase - s.wh.absorb / 2 ^ 32

/-- The frequency error of R45, units of 2⁻⁴⁰. -/
def State.freqErr (s : State) : Int := s.fgI F.WH_SLOT_FREQ_FREQ (s.fg F.WH_STATUS_SELECTED 0) - s.wh.follow / 24000

/-- Both errors within `k` times their limits. -/
def State.within (s : State) (k : Nat) : Bool :=
  decide (s.phaseErr.natAbs ≤ k * s.fg F.WH_LOCK_LOCK_PHASE 0)
    && decide (s.freqErr.natAbs * 100000000 ≤ k * s.fg F.WH_LOCK_LOCK_FREQ 0 * 2 ^ 40)

/-- WH_LOCK (R45): ACQUIRING with the criteria met for LOCK_TIME. LOCKED is entered at the tick boundary that follows (R47). -/
def execWhLock (s : State) : Host.Outcome State Fault Refusal :=
  .next (if s.loop = 1 ∧ s.within 1 ∧ s.due (s.wh.critSince.map (· + s.fg F.WH_LOCK_LOCK_TIME 0 * 100000000)) then
      { s with wh := { s.wh with lockDue := true } }
    else s)

/-- Position 2 of R32 for the Wellhead: LOCKED is entered if its criteria were met and still hold; the alignment step is made if
it is due, but dropped at the boundary of an EPOCH_RESTART; then the WH_LOCK event is posted (R20, R45, R47). -/
def State.lockEntry (s : State) (restarted : Bool) : State :=
  let entering : Bool := s.wh.lockDue && decide (s.loop = 1) && s.within 1
  let s := { s with wh := { s.wh with lockDue := false } }
  let s := if entering then s.setLoop 2 else s
  let s := if !restarted && s.alignDueNow then s.alignStep else s
  if entering then s.post Evt.WH_LOCK (s.fg F.WH_STATUS_SELECTED 0) [] else s

/-- WH_UNLOCK (R45). -/
def execWhUnlock (s : State) : Host.Outcome State Fault Refusal :=
  .next (if s.loop = 2 ∧ !s.within 4 then (s.setLoop 1).post Evt.WH_UNLOCK (s.fg F.WH_STATUS_SELECTED 0) [] else s)

/-- ACQ_HOLD_EXPIRY (R42). -/
def State.acqHold (s : State) : State :=
  if !s.service ∧ s.loop = 2 ∧ s.due (s.wh.lockSince.map (· + s.fg F.WH_TIMERS_ACQ_HOLD 0 * secNs)) then s.setMode 1
  else s

def execAcqHoldExpiry (s : State) : Host.Outcome State Fault Refusal := .next s.acqHold

/-- REACQ_EXPIRY (R42): never when REACQ is 0. -/
def execReacqExpiry (s : State) : Host.Outcome State Fault Refusal :=
  let r := s.fg F.WH_TIMERS_REACQ 0
  .next (if s.service ∧ s.loop = 4 ∧ r ≠ 0 ∧ s.due (s.wh.hoSince.map (· + r * secNs)) then s.setMode 0 else s)

/-! ### Selection and the switch -/

/-- The eligible slots of R43. -/
def State.eligible (s : State) : List Nat :=
  (List.range 15).filter (fun n => (s.sst n == 3 || s.sst n == 4) && (s.service || decide (s.qlOf n < 15)))

/-- The key of R43: QL in ACQUIRE, PRIO in SERVICE. -/
def State.selKey (s : State) (n : Nat) : Nat := if s.service then s.fg F.WH_SLOT_CFG_PRIO n else s.qlOf n

/-- The eligible slot with the least (key, n). -/
def State.bestSlot (s : State) : List Nat → Nat
  | [] => 15
  | n :: t =>
    let m := s.bestSlot t
    if m = 15 ∨ s.selKey n ≤ s.selKey m then n else m

/-- The choice of an evaluation (R43). -/
def State.choice (s : State) : Nat :=
  let el := s.eligible
  let cur := s.fg F.WH_STATUS_SELECTED 0
  let ch := s.bestSlot el
  if cur ∈ el ∧ s.selKey cur = s.selKey ch then cur
  else if s.service ∧ !s.fb F.WH_CTL_REVERT 0 ∧ cur ∈ el then cur
  else ch

/-- The following component is lost: HOLDOVER, or FREE without an average (R45). -/
def State.enterHoldover (s : State) : State :=
  let s := (s.fs F.WH_STATUS_SELECTED 0 15).fs F.WH_STATUS_QL 0 15
  let s := s.setLoop (if s.fb F.WH_HO_VALID_VALID 0 then 4 else 0)
  (s.post Evt.WH_HOLDOVER 15 []).det 0x30 15 0 2 0

/-- Start a switch at this boundary (R48): SELECTED still shows the old slot. -/
def State.startSwitch (s : State) (new : Nat) : State :=
  let old := s.fg F.WH_STATUS_SELECTED 0
  let l := s.loop
  let inv := old = 15 ∨ !(s.slot old).valid ∨ l = 0 ∨ l = 4 ∨ l = 5
  let s := s.setLoop 3
  { s with wh := { s.wh with switch := some ⟨old, new, s.time.tick, l, inv, none, 0, 0, 0, 0⟩ } }

/-- SELECTION_EVALUATION (R43, R54): at every tick boundary but during a switch. While OPEN a selection change is reported
only. -/
def State.evaluate (s : State) : State :=
  if s.wh.switch.isSome then s
  else
    let cur := s.fg F.WH_STATUS_SELECTED 0
    let ch := s.choice
    if ch = cur then s
    else if s.loop = 5 then
      ((s.fs F.WH_STATUS_SELECTED 0 ch).fs F.WH_STATUS_QL 0 (s.qlOf ch)).post Evt.WH_SWITCH ch
        (leBytes 8 cur ++ leBytes 8 0)
    else if ch = 15 then s.enterHoldover
    else s.startSwitch ch

/-- The average of a slot's phase over a tick (R48): its `n` unfolded measurements summed, and folded back by the periods that
its phase has folded out now; a slot that was not measured keeps its last phase. -/
def State.meanPhase (s : State) (slot : Nat) (sum : Int) (n : Nat) : Int :=
  let x := s.slot slot
  if n = 0 then x.phase else (sum - n * x.turns * 1000000000) / (n * x.hz : Nat)

/-- SWITCH_DELTA_FIX (R48): Δ = new phase − old phase, one tick after the start. -/
def execSwitchDeltaFix (s : State) : Host.Outcome State Fault Refusal :=
  .next (match s.wh.switch with
    | some w =>
      if w.delta.isNone ∧ w.start + 1 ≤ s.time.tick then
        let old := if w.oldInv ∨ !(s.slot w.old).valid then s.wh.absorb / 2 ^ 32 else s.meanPhase w.old w.oldSum w.oldN
        { s with wh := { s.wh with switch := some { w with delta := some (s.meanPhase w.new w.newSum w.newN - old) } } }
      else s
    | none => s)

/-- A WTR that waited for the end of a switch starts there (R41). -/
def State.lateWtrs (s : State) : State :=
  (List.range 15).foldl (fun s n => if (s.slot n).lateWtr && s.sst n == 2 then s.startWtr n else s) s

/-- WH_SWITCH (R48): two ticks after the start WH_ABSORB increases by Δ, the new slot drives the detector, SELECTED and
SWITCH_COUNT follow, and the loop leaves SWITCHING for the state before it (ACQUIRING after FREE, HOLDOVER or OPEN). A
WH_LOOP_OPEN that waited opens the loop (R54). -/
def execWhSwitch (s : State) : Host.Outcome State Fault Refusal :=
  .next (match s.wh.switch with
    | some w =>
      match w.delta with
      | some d =>
        if w.start + 2 ≤ s.time.tick then
          let s := { s with wh := { s.wh with absorb := s.wh.absorb + d * 2 ^ 32, switch := none } }
          let s := (s.fs F.WH_STATUS_SELECTED 0 w.new).fs F.WH_STATUS_QL 0 (s.qlOf w.new)
          let s := s.fs F.WH_STATUS_SWITCH_COUNT 0 ((s.fg F.WH_STATUS_SWITCH_COUNT 0 + 1) % 65536)
          let s := s.post Evt.WH_SWITCH w.new (leBytes 8 w.old ++ leBytes 8 (wrap 64 d))
          let s := s.setLoop (if w.before = 2 then 2 else 1)
          let s := s.lateWtrs
          if s.wh.openReq then
            ({ s with wh := { s.wh with openReq := false } } : State).setLoop 5
          else s
        else s
      | none => s
    | none => s)

/-! ### The components of the rate, once per tick -/

/-- 0.1 ppm/s as a change per tick, in units of 2⁻⁴⁰/24,000: ⌊0.1·10⁻⁶·2⁴⁰⌋. -/
def accel : Int := 109951

/-- The bleed limit MT_SLEW_MAX (0.01 ppm) in units of 2⁻⁴⁰/24,000. -/
def State.slewMax (s : State) : Int := (s.fg F.MT_SLEW_MAX_SLEW_MAX 0 * 2 ^ 40 * 24000 / 100000000 : Nat)

/-- One tick of the bleed (R46, R49): the rate rises at 0.1 ppm/s to at most MT_SLEW_MAX and falls at 0.1 ppm/s so as to
reach zero with WH_ABSORB. `v` and `a` are the bleed rate and the residual, both positive here. -/
def bleedStep (v a limit : Int) : Int :=
  -- residual removed while braking from v: v²/(2·accel) ticks·rate, in units of 2⁻³² ns per (rate · tick) of 125000/768/24000
  if a ≤ 0 then (if v ≤ accel then 0 else v - accel)
  else if v * v * 125000 ≥ 2 * accel * a * 768 * 24000 then (if v ≤ accel then v else v - accel)
  else min (v + accel) limit

/-- Residual removed in one tick by a bleed rate, in units of 2⁻³² ns: rate·2⁻⁴⁰/24,000 · 125,000/3 ns. -/
def bleedMove (v : Int) : Int := v * 125000 / (768 * 24000)

/-- One tick of the bleed component with its sign (R46): toward a WH_ABSORB of zero, or to rest before it turns. -/
def bleedTick (v a limit : Int) : Int :=
  if a ≥ 0 ∧ v ≥ 0 then bleedStep v a limit
  else if a ≤ 0 ∧ v ≤ 0 then -(bleedStep (-v) (-a) limit)
  else if v > 0 then (if v ≤ accel then 0 else v - accel) else (if -v ≤ accel then 0 else v + accel)

/-- The bandwidth of the DPLL (R46): WH_BW.ACQ_BW in ACQUIRE, SVC_BW in SERVICE. -/
def State.loopBw (s : State) : Nat := if s.service then s.fg F.WH_BW_SVC_BW 0 else s.fg F.WH_BW_ACQ_BW 0

/-- One tick of the rate components (R45, R46, R48): the DPLL on the phase error while a reference drives it, the holdover rate
under the clamp, the value held in FREE and SWITCHING; the bleed in every state but SWITCHING and OPEN. In FREE the following
component is held, so the bleed alone keeps the clamp, also where MT_SLEW_MAX was lowered below it (assumption 17). -/
def State.rateTick (s : State) : State :=
  let l := s.loop
  if l = 5 then s.showRate
  else
    let a := s.wh.absorb
    let v := s.wh.bleed
    let limit := if l = 0 then max s.slewMax ((v.natAbs : Int) - accel) else s.slewMax
    let b := if l = 3 then v else bleedTick v a limit
    let a' := if (a ≥ 0 ∧ a ≤ bleedMove b) ∨ (a ≤ 0 ∧ a ≥ bleedMove b) then 0 else a - bleedMove b
    let sum := s.wh.follow + s.wh.bleed
    let wish : Int := if l = 1 ∨ l = 2 then
        (Config.dpllFollow s.free s.phaseErr s.loopBw (s.wh.follow / 24000)).toInt * 24000
      else if l = 4 then s.fgI F.WH_HO_RATE_RATE 0 * 24000
      else s.wh.follow
    let sum' := if l = 0 ∨ l = 3 then wish + b
      else clampI (-(rateMax * 24000)) (rateMax * 24000) (clampI (sum - accel) (sum + accel) (wish + b))
    let s := if l = 1 ∨ l = 2 then { s with free := s.free + 1 } else s
    ({ s with wh := { s.wh with follow := sum' - b, bleed := b, absorb := a' } } : State).showRate

/-- One more tick of a value in a history of values and ticks, newest first. -/
def runPush (v : Int) : List (Int × Nat) → List (Int × Nat)
  | (x, n) :: t => if x = v then (x, n + 1) :: t else (v, 1) :: (x, n) :: t
  | [] => [(v, 1)]

/-- The newest `k` ticks of such a history. -/
def runTake : Nat → List (Int × Nat) → List (Int × Nat)
  | _, [] => []
  | k, (x, n) :: t => if k = 0 then [] else if k ≤ n then [(x, k)] else (x, n) :: runTake (k - n) t

/-- One tick of LOCKED history for WH_HO_RATE (R51): the average of the following component over the last 60 s in LOCKED, which
are 1,440,000 ticks. -/
def State.holdTick (s : State) : State :=
  if s.loop ≠ 2 then s
  else
    let h := runTake 1440000 (runPush s.wh.follow s.wh.hoHist)
    let total := h.foldl (fun (a : Int) x => a + x.1 * x.2) 0
    let n := h.foldl (fun (a : Nat) x => a + x.2) 0
    let s := { s with wh := { s.wh with hoHist := h } }
    ((s.fsI F.WH_HO_RATE_RATE 0 (total / (n : Int) / 24000)).fs F.WH_HO_VALID_SPAN 0 (n / 24000)).fs F.WH_HO_VALID_VALID 0 1

/-- Whether the lock criteria hold without a break (R45). -/
def State.critTick (s : State) : State :=
  if s.loop = 1 then
    { s with wh := { s.wh with critSince := if s.within 1 then (s.wh.critSince.orElse fun _ => some s.time.up) else none } }
  else s

/-- The Wellhead's part of a tick boundary, after the actions of R32. -/
def State.whTick (s : State) : State :=
  let s := s.rateTick.holdTick.critTick
  let s := if s.fg F.WH_TIMERS_ACQ_HOLD 0 = 0 then s.acqHold else s
  s.evaluate.showQl

/-! ### Writes to the Wellhead's registers -/

/-- The slot transitions a write to WH_SLOT_CFG.EN makes (R40). -/
def State.slotEnable (s : State) (n oldEn : Nat) : State :=
  let en := s.fg F.WH_SLOT_CFG_EN n
  if en = 0 ∧ oldEn = 1 then
    ((s.setTimer n none).setSst n 0).fs F.WH_SLOT_STAT_WTR_LEFT n 0
  else if en = 1 ∧ oldEn = 0 then
    let s := s.setSst n 1
    if (s.slot n).valid then s.slotValid n else s
  else s

/-! ### Clock outputs (R49, R53) -/

/-- The time a clock output follows, in units of 2⁻³² ns: CLKOUT0 - CLKOUT5 follow Media Time + WH_ABSORB + WH_CLKOUT_PHASE, so
that they take the Δ of a switch and a WH_PHASE_STEP in one move; CLKOUT6 and CLKOUT7 follow Media Time alone (R49, R53). -/
def State.clkTime (s : State) (n : Nat) : Int :=
  let t : Int := (s.now * 2 ^ 32 + s.time.frac.toNat : Nat)
  if n < 6 then t + s.wh.absorb + s.fgI F.WH_CLKOUT_PHASE_PHASE n * 2 ^ 32 else t

/-- Frequency of a clock output in Hz (WH_CLKOUT.FREQ). -/
def clkHz (f : Nat) : Nat :=
  ([1, 48000, 96000, 192000, 1536000, 6144000, 12288000, 24576000, 10000000, 49152000] : List Nat).getD f 48000

/-- The level of a clock output: low while EN = 0 and in OFF, else high for the first half of each period of the time it follows,
at 1 Hz for the first 1 µs. A period starts with the second (assumption 60). -/
def State.clkout (s : State) (n : Nat) : Bool :=
  let hz := clkHz (s.fg F.WH_CLKOUT_FREQ n)
  let r := (s.clkTime n * hz) % (1000000000 * 2 ^ 32)
  s.fb F.WH_CLKOUT_EN n && !s.dead
    && decide (if hz = 1 then r < 1000 * 2 ^ 32 else 2 * r < 1000000000 * 2 ^ 32)

/-! ### Commands -/

def chkWhAcquire (_ : Cmd) (_ : State) : Chk := Chk.ok

def chkWhLoop (_ : Cmd) (s : State) : Chk :=
  if s.fg F.WH_CTL_CONFIG 0 = 2 then Chk.ok else (Sts.WH_CONFIG_SIZE, [])

/-- WH_PHASE_STEP (R52, R53): refused in Domain Master; an amount out of range, or one that takes a CLKOUT's sum out of
range, refuses the whole command. -/
def chkWhPhaseStep (c : Cmd) (s : State) : Chk :=
  let p := argI c.b
  if s.fg F.WH_CTL_CONFIG 0 = 2 then (Sts.WH_CONFIG_SIZE, [])
  else if p < -1000000 ∨ p > 1000000 then (Sts.WH_PHASE_RANGE, [])
  else if (bitList 6 c.a).any (fun n => decide ((s.fgI F.WH_CLKOUT_PHASE_PHASE n + p).natAbs > 2147483647)) then
    (Sts.WH_PHASE_RANGE, [])
  else Chk.ok

def execWhAcquire (c : Cmd) (s : State) : Host.Outcome State Fault Refusal :=
  .next (submit Code.WH_ACQUIRE chkWhAcquire c s)

def execWhLoopOpen (c : Cmd) (s : State) : Host.Outcome State Fault Refusal :=
  .next (submit Code.WH_LOOP_OPEN chkWhLoop c s)

def execWhLoopClose (c : Cmd) (s : State) : Host.Outcome State Fault Refusal :=
  .next (submit Code.WH_LOOP_CLOSE chkWhLoop c s)

def execWhPhaseStep (c : Cmd) (s : State) : Host.Outcome State Fault Refusal :=
  .next (submit Code.WH_PHASE_STEP chkWhPhaseStep c s)

/-- WH_ACQUIRE (R42). -/
def applyWhAcquire (e : Entry) (s : State) : State := (s.setMode 0).finish e Sts.OK [] false

/-- WH_LOOP_OPEN (R45, R54): after a switch in progress. Media Time runs at the rate last accepted through MT_RATE_SET. -/
def applyWhLoopOpen (e : Entry) (s : State) : State :=
  let s := if s.loop = 5 then s
    else if s.wh.switch.isSome then { s with wh := { s.wh with openReq := true } }
    else s.setLoop 5
  s.finish e Sts.OK [] false

/-- WH_LOOP_CLOSE (R45, R54): SWITCHING toward the selected slot, or HOLDOVER or FREE on slot 15. The rate in force is the
starting rate. -/
def applyWhLoopClose (e : Entry) (s : State) : State :=
  let s := if s.loop ≠ 5 then { s with wh := { s.wh with openReq := false } }
    else
      let s := { s with wh := { s.wh with follow := s.rateNow * 24000, bleed := 0 } }
      let sel := s.fg F.WH_STATUS_SELECTED 0
      if sel = 15 then s.setLoop (if s.fb F.WH_HO_VALID_VALID 0 then 4 else 0)
      else s.startSwitch sel
  s.finish e Sts.OK [] false

/-- WH_PHASE_STEP at its boundary (R53). -/
def applyWhPhaseStep (e : Entry) (s : State) : State :=
  let k := chkWhPhaseStep e.cmd s
  if k.1 ≠ Sts.OK then s.finish e k.1 [] false
  else
    let p := argI e.cmd.b
    let s := (bitList 6 e.cmd.a).foldl (fun s n => s.fsI F.WH_CLKOUT_PHASE_PHASE n (s.fgI F.WH_CLKOUT_PHASE_PHASE n + p)) s
    s.finish e Sts.OK [] true

end Sys2Proof.Machine
end

