-- ==== Sys2Proof/Machine/Net.lean ====
section
/-! DEFINITION. Network ports, streams, PTP and the Forwarding Table (R238 - R262). The layouts of IEEE 802.3, IPv4, UDP, RTP
and IEEE 1588-2019 messages, which the spec names and does not print, are those standards' own (assumption 30). -/

namespace Sys2Proof.Machine

/-! ### Bytes -/

def byteAt (b : List Byte) (o : Nat) : Nat := (b.getD o 0).toNat
/-- Replace bytes at an offset. -/
def patch (b : List Byte) (o : Nat) (l : List Byte) : List Byte := b.take o ++ l ++ b.drop (o + l.length)
def zeros (n : Nat) : List Byte := List.replicate n 0
def padTo (n : Nat) (b : List Byte) : List Byte := b ++ List.replicate (n - b.length) 0

/-! ### Ports -/

def State.np (s : State) (p : Nat) : NetPort := mget NetPort.reset s.net.ports p
def State.setNp (s : State) (p : Nat) (x : NetPort) : State :=
  { s with net := { s.net with ports := mput NetPort.reset s.net.ports p x } }

/-- Count `n` in counter `i` of a port, saturating at 2⁶⁴ − 1 (R262). -/
def State.cntAdd (s : State) (p i n : Nat) : State :=
  { s with net := { s.net with cnt := mmod 0 s.net.cnt (40 * p + i) (fun v => satU 64 (v + n)) } }

def State.netUp (s : State) (p : Nat) : Bool := s.fb F.NET_STAT_UP p

/-- Port rate in units of 100 kbit/s (R238). -/
def State.portRate (s : State) (p : Nat) : Nat :=
  match s.fg F.NET_CTL_MODE p with
  | 0 => 100000 | 1 => 25000 | _ => 10000

/-- Nanoseconds that a number of bits takes on the line, rounded up. -/
def State.bitsNs (s : State) (p n : Nat) : Nat := (n * 10000 + s.portRate p - 1) / s.portRate p

/-- The MAC of a port. -/
def State.netMac (s : State) (p : Nat) : List Byte :=
  beBytes 6 (s.fg F.NET_MAC_HI_MAC_HI p * 2 ^ 32 + s.fg F.NET_MAC_LO_MAC_LO p)

/-! ### Queues and shapers (R241, R243 - R245) -/

def NetPort.queue (x : NetPort) (k : Nat) : List NetTx := mget [] x.q k
def NetPort.queued (x : NetPort) (ks : List Nat) : Nat :=
  ks.foldl (fun n k => (x.queue k).foldl (fun n f => n + f.bytes.length + 4) n) 0

/-- Idle slope of a port's queue k = 4-6, in units of 100 kbit/s. -/
def State.idleSlope (s : State) (p k : Nat) : Nat := s.fg F.NET_SHAPER_IDLE_SLOPE (3 * p + (k - 4))
def State.shaped (s : State) (p k : Nat) : Bool := s.fb F.NET_SHAPER_EN (3 * p + (k - 4))

/-- Reckon the credits up to the present instant (R245): 100 kbit/s over 1 ns is 10⁻⁴ bit. A paused port keeps them; a queue that
is empty and no longer transmitting keeps no positive credit. -/
def State.creditRun (s : State) (p : Nat) : State :=
  let x := s.np p
  let t0 := x.creditAt
  let t1 := s.time.up
  let busy := min t1 x.txFree - t0
  let idle := if x.pauseEnd.isSome then 0 else t1 - max t0 x.txFree
  let c := [4, 5, 6].foldl (fun (m : AMap Int) k =>
    let slope : Int := s.idleSlope p k
    let waits := !(x.queue k).isEmpty
    let v := mget 0 m k
    let v := v + (if x.txQ = k then (slope - s.portRate p) * busy else if waits then slope * busy else 0)
    let v := if waits then v + slope * idle else if x.txQ = k ∧ t1 < x.txFree then v else min v 0
    mput 0 m k (if s.shaped p k then v else 0)) x.credit
  s.setNp p { x with credit := c, creditAt := t1, txQ := if x.txFree ≤ t1 then 8 else x.txQ }

/-- Whether a frame fits the transmit buffer (R241). -/
def State.txFits (s : State) (p k n : Nat) : Bool :=
  let x := s.np p
  if k = 7 then x.queued [7] + n ≤ 65536
  else
    decide (x.queued [0, 1, 2, 3, 4, 5, 6] + n ≤ 448 * 1024)
      && (if 4 ≤ k then decide (x.queued [4, 5, 6] + n ≤ s.fg F.NET_TXQ_LIMIT_P_LIMIT p * 1024)
          else decide (x.queued [0, 1, 2, 3] + n ≤ s.fg F.NET_TXQ_LIMIT_B_LIMIT p * 1024))

/-- Queue a frame for transmission: one that does not fit is dropped and counted (R241). At L4 a port sends no frame of its
own (R326). -/
def State.enqueue (s : State) (p k : Nat) (f : NetTx) : State :=
  if f.kind ≠ 0 ∧ s.level = 4 then s
  else if !s.netUp p ∨ !s.txFits p k (f.bytes.length + 4) then s.cntAdd p 30 1
  else
    let s := s.creditRun p
    let x := s.np p
    s.setNp p { x with q := mput [] x.q k (x.queue k ++ [f]) }

/-- The queue served next (R244). -/
def State.pickQueue (s : State) (p : Nat) : Option Nat :=
  let x := s.np p
  if !(x.queue 7).isEmpty then some 7
  else
    match [6, 5, 4].find? (fun k => !(x.queue k).isEmpty && (!s.shaped p k || decide (0 ≤ mget 0 x.credit k))) with
    | some k => some k
    | none => [3, 2, 1, 0].find? (fun k => !(x.queue k).isEmpty)

/-- Count the time paused so far in units of 512 bit times (R247); what is left over counts with the next pause. -/
def State.countPause (s : State) (p : Nat) : State :=
  let x := s.np p
  match x.pauseEnd with
  | some e =>
    let n := x.pauseRem + (min s.time.up e - x.pauseAt) * s.portRate p
    (s.setNp p { x with pauseAt := max s.time.up x.pauseAt, pauseRem := n % 5120000 }).cntAdd p 31 (n / 5120000)
  | none => s

/-! ### Link (R239) -/

/-- A completion of a NET_FRAME_TX whose every copy was lost: no copy left, so the stamp is open (assumption 1). -/
def State.txLostCpl (s : State) (l : List NetTx) : State :=
  l.foldl (fun (s : State) (f : NetTx) =>
    match f.entry with
    | some e =>
      if (List.range 8).any (fun p => (List.range 8).any (fun k => ((s.np p).queue k).any (fun g =>
          g.entry.any (fun d => d.seq == e.seq)))) then s
      else
        let (w, s) := s.freeWord
        s.finish e Sts.OK [w.toNat] false
    | none => s) s

/-- Leaving UP: the waiting frames are discarded and counted, and family 0x40 is raised. -/
def State.netDown (s : State) (p : Nat) : State :=
  if !s.netUp p then s
  else
    let s := s.countPause p
    let x := s.np p
    let l := (List.range 8).flatMap (fun k => x.queue k)
    let s := s.setNp p { x with q := [], credit := [], txFree := s.time.up, txQ := 8, pauseEnd := none }
    let s := ((s.cntAdd p 30 l.length).cntAdd p 36 1).fs F.NET_STAT_UP p 0
    let s := ((s.fs F.NET_STAT_PAUSED p 0).det 0x40 p 0 0 0).txLostCpl l
    if s.sst p = 0 then s else s.slotInvalid p

/-- TX_DISABLE of a port: high while it does not run or its module is absent. -/
def State.showTxDis (s : State) (p : Nat) : State :=
  s.setNp p { s.np p with txDis := !s.fb F.NET_CTL_EN p || s.fb F.NET_STAT_MOD_ABS p }

/-- What clause 37 resolves for a port that advertises PAUSE = ASM_DIR = `own` (R238), by Table 28B-3 of IEEE 802.3: `partner` bit 0
is the partner's PAUSE, bit 1 its ASM_DIR. -/
def pauseRes (own : Bool) (partner : Nat) : Nat :=
  if !own then 0 else if partner.testBit 0 then 2 else if partner.testBit 1 then 1 else 0

/-- NETWORK_LINK_UP (R239): the condition of the port's mode is met. `partner` is what the partner advertised in auto-negotiation. -/
def execNetworkLinkUp (p partner : Nat) (s : State) : Host.Outcome State Fault Refusal :=
  .next (if 8 ≤ p ∨ !s.fb F.NET_CTL_EN p ∨ s.fb F.NET_STAT_MOD_ABS p ∨ s.netUp p then s
    else
      let an := s.fg F.NET_CTL_MODE p = 2 ∧ s.fb F.NET_CTL_AN_EN p
      let s := ((s.fs F.NET_STAT_LOCAL_FAULT p 0).fs F.NET_STAT_REMOTE_FAULT p 0).fs F.NET_STAT_LOS p 0
      let s := (s.fs F.NET_STAT_PAUSE_RES p (if an then pauseRes (s.fb F.NET_CTL_PAUSE_OBEY p) partner else 0)).fs F.NET_STAT_UP p 1
      s.setNp p { s.np p with creditAt := s.time.up, txFree := s.time.up })

/-- NETWORK_LINK_DOWN (R239): block lock or synchronisation is lost, or a fault is signalled in mode 0. -/
def execNetworkLinkDown (p : Nat) (loc rem los : Bool) (s : State) : Host.Outcome State Fault Refusal :=
  .next (if 8 ≤ p then s
    else
      let f := s.fg F.NET_CTL_MODE p == 0
      let s := if f && loc && !s.fb F.NET_STAT_LOCAL_FAULT p then s.cntAdd p 37 1 else s
      let s := if f && rem && !s.fb F.NET_STAT_REMOTE_FAULT p then s.cntAdd p 38 1 else s
      ((((s.fs F.NET_STAT_LOCAL_FAULT p (b2n (f && loc))).fs F.NET_STAT_REMOTE_FAULT p (b2n (f && rem))).fs F.NET_STAT_LOS p
        (b2n los)).netDown p))

/-- MODULE_PRESENCE_CHANGE (R239): MOD_ABS high holds TX_DISABLE high until a module returns. -/
def execModulePresenceChange (p : Nat) (absent : Bool) (s : State) : Host.Outcome State Fault Refusal :=
  .next (if 8 ≤ p then s
    else
      let s := (s.fs F.NET_STAT_MOD_ABS p (b2n absent)).showTxDis p
      if absent then s.netDown p else s)

/-! ### Headers -/

/-- What the device reads of a frame: its tag, its EtherType and the offset after it. -/
structure EthHdr where
  tagged : Bool
  pcp    : Nat
  vid    : Nat
  etype  : Nat
  off    : Nat
deriving DecidableEq, Repr

def ethHdr (b : List Byte) : EthHdr :=
  if beAt b 12 2 = 0x8100 then ⟨true, byteAt b 14 / 32, beAt b 14 2 % 4096, beAt b 16 2, 18⟩
  else ⟨false, 0, 0, beAt b 12 2, 14⟩

def frameDa (b : List Byte) : Nat := beAt b 0 6

/-- Ones' complement sum of the 16-bit words of an IPv4 header. -/
def ipSum (b : List Byte) (o : Nat) : Nat → Nat
  | 0 => 0
  | n + 1 => ipSum b o n + beAt b (o + 2 * n) 2
def fold16 (v : Nat) : Nat := let w := v / 65536 + v % 65536; w / 65536 + w % 65536

/-- A good IPv4 header at an offset. -/
def ipOk (b : List Byte) (o : Nat) : Bool :=
  byteAt b o / 16 == 4 && decide (5 ≤ byteAt b o % 16) && decide (o + beAt b (o + 2) 2 ≤ b.length)
    && decide (4 * (byteAt b o % 16) ≤ beAt b (o + 2) 2) && fold16 (ipSum b o (2 * (byteAt b o % 16))) == 0xFFFF

/-- Offset of the UDP header of a UDP/IPv4 frame. -/
def udpOff (b : List Byte) (h : EthHdr) : Option Nat :=
  if h.etype = 0x0800 ∧ byteAt b (h.off + 9) = 17 then some (h.off + 4 * (byteAt b h.off % 16)) else none

/-- A PTP message: its offset and whether it is carried over UDP (R253). -/
def ptpAt (b : List Byte) : Option (Nat × Bool) :=
  let h := ethHdr b
  if h.etype = 0x88F7 then some (h.off, false)
  else
    match udpOff b h with
    | some u => if beAt b (u + 2) 2 = 319 ∨ beAt b (u + 2) 2 = 320 then some (u + 8, true) else none
    | none => none

abbrev Ptp.SYNC : Nat := 0
abbrev Ptp.DELAY_REQ : Nat := 1
abbrev Ptp.PDELAY_REQ : Nat := 2
abbrev Ptp.PDELAY_RESP : Nat := 3
abbrev Ptp.FOLLOW_UP : Nat := 8
abbrev Ptp.DELAY_RESP : Nat := 9
abbrev Ptp.PDELAY_FU : Nat := 10
abbrev Ptp.ANNOUNCE : Nat := 11

def ptpType (b : List Byte) (o : Nat) : Nat := byteAt b o % 16
def isPdelay (t : Nat) : Bool := t == Ptp.PDELAY_REQ || t == Ptp.PDELAY_RESP || t == Ptp.PDELAY_FU

/-- correctionField of a PTP message: signed, units of 2⁻¹⁶ ns. -/
def ptpCorr (b : List Byte) (o : Nat) : Int := sext 64 (beAt b (o + 8) 8)

/-- A timestamp of a PTP body in ns. -/
def ptpTime (b : List Byte) (o : Nat) : Nat := beAt b o 6 * 1000000000 + beAt b (o + 6) 4
def ptpTimeBytes (full : Nat) : List Byte := beBytes 6 (full / 1000000000) ++ beBytes 4 (full % 1000000000)

/-! ### Forwarding Table (R249 - R251) -/

def fwdValid (e : Nat) : Bool := e.testBit 63
def fwdAny (e : Nat) : Bool := e.testBit 60
def fwdVid (e : Nat) : Nat := bits e 59 48
def fwdDa (e : Nat) : Nat := bits e 47 0
def fwdIn (e : Nat) : Nat := bits e 87 80
def fwdQueue (e : Nat) : Nat := bits e 79 76
def fwdLocal (e : Nat) : Bool := e.testBit 72
def fwdPorts (e : Nat) : Nat := bits e 71 64

def State.fwdAct (s : State) : Nat := s.fg F.NET_FWD_STAT_ACTIVE 0

/-- The valid entries of a bank with their indices, ascending. -/
def State.fwdBank (s : State) (k : Nat) : List (Nat × Nat) :=
  (s.net.fwd.filter (fun p => p.1 / 4096 == k && fwdValid p.2)).map (fun p => (p.1 % 4096, p.2))

/-- The entry of a frame (R250): an exact match of DA and VID, else an ANY_VID entry of the DA. An entry in an uncorrectable word is
taken as not valid (R316). -/
def State.fwdLookup (s : State) (p : Nat) (b : List Byte) : Option Nat :=
  let gone := s.lostOf Tab.FWD
  let l := (s.fwdBank s.fwdAct).filter (fun e =>
    (fwdIn e.2).testBit p && fwdDa e.2 == frameDa b && !gone.contains (4096 * s.fwdAct + e.1))
  match l.find? (fun e => !fwdAny e.2 && fwdVid e.2 == (ethHdr b).vid) with
  | some e => some e.2
  | none => (l.find? (fun e => fwdAny e.2)).map (·.2)

/-- Whether a valid entry is in range (R249, R251). -/
def fwdEntryOk (e : Nat) : Bool :=
  decide (e < 2 ^ 128) && bits e 62 61 == 0 && bits e 127 88 == 0 && bits e 75 73 == 0 && fwdIn e != 0 && decide (fwdQueue e ≤ 8)

/-- Whether two entries conflict (R251). -/
def fwdClash (a b : Nat) : Bool :=
  fwdDa a == fwdDa b && fwdVid a == fwdVid b && fwdAny a == fwdAny b && (fwdIn a &&& fwdIn b) != 0

/-- The first offending entry of a bank and its status (R251). -/
def fwdBad : List (Nat × Nat) → List (Nat × Nat) → Option (Nat × Nat)
  | _, [] => none
  | seen, e :: t =>
    if !fwdEntryOk e.2 then some (e.1, Sts.FWD_RANGE)
    else if seen.any (fun d => fwdClash d.2 e.2) then some (e.1, Sts.FWD_CONFLICT)
    else fwdBad (seen ++ [e]) t

/-- NET_FWD_STAT follows the banks. -/
def State.showFwd (s : State) : State :=
  ((s.fs F.NET_FWD_STAT_ENTRIES 0 (s.fwdBank s.fwdAct).length).fs F.NET_FWD_STAT_COPYING 0 (b2n (s.net.lock == 2))).fs
    F.NET_FWD_STAT_ARMED 0 (b2n (s.armedAny Code.FWD_COMMIT))

def State.fwdLocked (s : State) : Bool := s.net.lock != 0 || s.armedAny Code.FWD_COMMIT

def chkFwdWrite (c : Cmd) (s : State) : Chk :=
  if !spanOk 4096 16 c then (Sts.CMD_RANGE, []) else if s.fwdLocked then (Sts.FWD_BANK_LOCKED, []) else Chk.ok

def applyFwdWrite (e : Entry) (s : State) : State :=
  let k := chkFwdWrite e.cmd s
  if k.1 ≠ Sts.OK then s.finish e k.1 k.2 false
  else
    let first := 4096 * (1 - s.fwdAct) + e.cmd.a
    let s := s.wroteTab Tab.FWD first e.cmd.b
    ({ s with net := { s.net with fwd := writeEntries 0 16 first e.cmd.buf e.cmd.b s.net.fwd } } : State).finish e Sts.OK [] true

def execFwdWrite (c : Cmd) (s : State) : Host.Outcome State Fault Refusal := .next (submit Code.FWD_WRITE chkFwdWrite c s)

def chkFwdRead (c : Cmd) (_ : State) : Chk := if spanOk 4096 16 c then Chk.ok else (Sts.CMD_RANGE, [])

def applyFwdRead (e : Entry) (s : State) : State :=
  (s.hostWrite e.cmd.addr (readEntries 0 16 (4096 * e.cmd.c + e.cmd.a) e.cmd.b s.net.fwd)).finish e Sts.OK [] false

def execFwdRead (c : Cmd) (s : State) : Host.Outcome State Fault Refusal := .next (submit Code.FWD_READ chkFwdRead c s)

def chkFwdCommit (_ : Cmd) (s : State) : Chk :=
  let b := 1 - s.fwdAct
  if s.fwdLocked then (Sts.FWD_BANK_LOCKED, [])
  else s.lostChk Tab.FWD (4096 * b) 4096 Sts.FWD_RANGE
    (match fwdBad [] (s.fwdBank b) with
    | some e => (e.2, [e.1])
    | none => Chk.ok)

def applyFwdCommit (e : Entry) (s : State) : State :=
  let s := (s.fs F.NET_FWD_STAT_ACTIVE 0 (1 - s.fwdAct))
  let s := { s with net := { s.net with lock := 2 } }
  (s.showFwd).finish e Sts.OK [] true

def execFwdCommit (c : Cmd) (s : State) : Host.Outcome State Fault Refusal :=
  .next (submit Code.FWD_COMMIT chkFwdCommit c s).showFwd

/-- The copy of the new active bank into the inactive one ends the lock (R251). -/
def State.fwdCopied (s : State) : State :=
  if s.net.lock = 0 then s
  else
    let s := s.wroteTab Tab.FWD (4096 * (1 - s.fwdAct)) 4096
    ({ s with net := { s.net with fwd := copyBank 4096 s.fwdAct s.net.fwd, lock := 0 } } : State).showFwd

/-! ### Management path (R261) -/

def State.toMgmt (s : State) (p : Nat) (b : List Byte) (mts : Nat) : State :=
  if 256 ≤ s.net.mgmt.length then s.cntAdd p 20 1
  else
    let s := { s with net := { s.net with mgmt := s.net.mgmt ++ [MgmtFrame.mk p b mts] } }
    ((s.fs F.NET_MGMT_STAT_WAITING 0 s.net.mgmt.length).cntAdd p 19 1).postAt mts Evt.NET_FRAME_RX p (leBytes 4 b.length)

/-- NET_FRAME_READ: the oldest frame held (R261, R286). -/
def chkNetFrameRead (c : Cmd) (s : State) : Chk :=
  match s.net.mgmt with
  | [] => (Sts.CMD_STATE, [])
  | f :: _ => if c.len < f.bytes.length then (Sts.CMD_RANGE, []) else Chk.ok

def applyNetFrameRead (e : Entry) (s : State) : State :=
  let k := chkNetFrameRead e.cmd s
  match s.net.mgmt with
  | f :: t =>
    if k.1 ≠ Sts.OK then s.finish e k.1 [] false
    else
      let s := { s with net := { s.net with mgmt := t } }
      ((s.fs F.NET_MGMT_STAT_WAITING 0 t.length).hostWrite e.cmd.addr f.bytes).finish e Sts.OK [f.port, f.bytes.length, f.mts]
        false
  | [] => s.finish e k.1 [] false

def execNetFrameRead (c : Cmd) (s : State) : Host.Outcome State Fault Refusal :=
  .next (submit Code.NET_FRAME_READ chkNetFrameRead c s)

def chkNetFrameTx (c : Cmd) (_ : State) : Chk :=
  if c.a = 0 ∨ 256 ≤ c.a ∨ c.len < 60 ∨ 9212 < c.len then (Sts.CMD_RANGE, []) else Chk.ok

/-- Send a management frame on its ports in queue 0. -/
def State.mgmtSend (s : State) (e : Entry) : State :=
  let ps := bitList 8 e.cmd.a
  let f : NetTx := ⟨e.cmd.buf.take e.cmd.len, none, 3, some e, false⟩
  let s := ps.foldl (fun s p =>
    (s.setNp p { s.np p with mgmtAt := s.time.up + 500000 }).enqueue p 0 f) s
  s.txLostCpl [f]

/-- The held commands whose ports may send again: 2,000 frames per second per port (R261), in order. -/
def State.mgmtTick (s : State) : State :=
  s.net.waitTx.foldl (fun (s : State) (e : Entry) =>
    if (bitList 8 e.cmd.a).all (fun p => decide ((s.np p).mgmtAt ≤ s.time.up)) then
      ({ s with net := { s.net with waitTx := s.net.waitTx.filter (fun d => d.seq != e.seq) } } : State).mgmtSend e
    else s) s

def applyNetFrameTx (e : Entry) (s : State) : State :=
  ({ s with net := { s.net with waitTx := s.net.waitTx ++ [e] } } : State).mgmtTick

def execNetFrameTx (c : Cmd) (s : State) : Host.Outcome State Fault Refusal :=
  .next (submit Code.NET_FRAME_TX chkNetFrameTx c s)

/-! ### Pause (R247) -/

def State.unpause (s : State) (p : Nat) : State :=
  let s := (s.creditRun p).countPause p
  (s.setNp p { s.np p with pauseEnd := none }).fs F.NET_STAT_PAUSED p 0

/-- A PAUSE frame with its pause_time: the frame in progress is finished first. -/
def State.pauseFrame (s : State) (p q : Nat) : State :=
  let s := s.cntAdd p 11 1
  if !s.fb F.NET_CTL_PAUSE_OBEY p then s
  else if q = 0 then s.unpause p
  else
    let s := (s.creditRun p).countPause p
    let x := s.np p
    let t := max s.time.up x.txFree
    (s.setNp p { x with pauseEnd := some (t + s.bitsNs p (512 * q)), pauseAt := max t x.pauseAt }).fs F.NET_STAT_PAUSED p 1

/-- PAUSE_EXPIRY (R247). -/
def execPauseExpiry (p : Nat) (s : State) : Host.Outcome State Fault Refusal :=
  .next (if p < 8 ∧ s.due (s.np p).pauseEnd then s.unpause p else s)

/-! ### PTP clocks (R253, R254) -/

/-- clockIdentity of a port: its MAC with 0xFF 0xFE after the third byte. -/
def State.clockId (s : State) (p : Nat) : List Byte := (s.netMac p).take 3 ++ [0xFF, 0xFE] ++ (s.netMac p).drop 3
def State.portId (s : State) (p : Nat) : List Byte := s.clockId p ++ beBytes 2 (p + 1)

/-- Bytes 44-63 of the Announce of a port: NET_PTP_DS, or the defaults of IEEE 1588. -/
def State.annData (s : State) (p : Nat) : List Byte :=
  let d := (s.np p).ptp.ds
  if d = [] then ([0, 37, 0, 128, 248, 0xFE, 0xFF, 0xFF, 128] : List Byte) ++ s.clockId p ++ [0, 0, 0xA0] else d

def State.ptpDomain (s : State) (p : Nat) : Nat := s.fg F.WH_SLOT_CFG_DOMAIN p
def State.ptpRole (s : State) (p : Nat) : Nat := s.fg F.NET_PTP_CFG_ROLE p
def State.ptpP2p (s : State) (p : Nat) : Bool := s.fb F.NET_PTP_CFG_MECH p

/-- A PTP message: header and body. -/
def State.ptpMsg (s : State) (p ty seq flags logInt : Nat) (corr : Int) (body : List Byte) : List Byte :=
  ([BitVec.ofNat 8 ty, 2] : List Byte) ++ beBytes 2 (34 + body.length) ++ ([BitVec.ofNat 8 (s.ptpDomain p), 0] : List Byte) ++ beBytes 2 flags
    ++ beBytes 8 (wrap 64 corr) ++ zeros 4 ++ s.portId p ++ beBytes 2 seq
    ++ ([BitVec.ofNat 8 (match ty with | 0 => 0 | 1 => 1 | 8 => 2 | 9 => 3 | _ => 5), BitVec.ofNat 8 (logInt % 256)] : List Byte) ++ body

/-- The frame that carries a PTP message: raw Ethernet or UDP/IPv4 (R253). -/
def State.ptpFrame (s : State) (p : Nat) (udp : Bool) (m : List Byte) : List Byte :=
  let ty := byteAt m 0 % 16
  let pd := isPdelay ty
  if udp then
    let len := 28 + m.length
    let ip := ([0x45, 0] : List Byte) ++ beBytes 2 len ++ [0, 0, 0, 0, 1, 17, 0, 0] ++ beBytes 4 (s.fg F.NET_IPV4_ADDR p)
      ++ (if pd then [224, 0, 0, 107] else [224, 0, 1, 129])
    let ip := patch ip 10 (beBytes 2 (0xFFFF - fold16 (ipSum ip 0 10)))
    let port := if ty < 8 then 319 else 320
    ([0x01, 0x00, 0x5E, 0x00] : List Byte) ++ (if pd then [0x00, 0x6B] else [0x01, 0x81]) ++ s.netMac p ++ [0x08, 0x00] ++ ip
      ++ beBytes 2 port ++ beBytes 2 port ++ beBytes 2 (8 + m.length) ++ [0, 0] ++ m
  else
    (if pd then ([0x01, 0x80, 0xC2, 0x00, 0x00, 0x0E] : List Byte) else [0x01, 0x1B, 0x19, 0x00, 0x00, 0x00]) ++ s.netMac p ++ [0x88, 0xF7] ++ m

/-- Queue a PTP message of the device's own: queue 7 (R243). -/
def State.ptpSend (s : State) (p : Nat) (udp : Bool) (from_ : Option (Nat × Nat)) (m : List Byte) : State :=
  s.enqueue p 7 ⟨s.ptpFrame p udp m, from_, 1, none, false⟩

/-- Send on every transport the port is set to. -/
def State.ptpSendAll (s : State) (p : Nat) (m : List Byte) : State :=
  let t := s.fg F.NET_PTP_CFG_TRANSPORT p
  let s := if t = 0 ∨ t = 2 then s.ptpSend p false none m else s
  if t = 1 ∨ t = 2 then s.ptpSend p true none m else s

def State.setPtp (s : State) (p : Nat) (x : PtpPort) : State := s.setNp p { s.np p with ptp := x }

/-- An interval of 2ⁿ seconds in ns. -/
def logNs (n : Int) : Nat := if n < 0 then secNs / 2 ^ n.natAbs else secNs * 2 ^ n.toNat

/-- PTP_SYNC_SEND (R254): every 2^LOG_SYNC s a MASTER port sends a one-step Sync; its time is inserted at transmission. -/
def execPtpSyncSend (p : Nat) (s : State) : Host.Outcome State Fault Refusal :=
  let x := (s.np p).ptp
  .next (if 8 ≤ p ∨ s.ptpRole p ≠ 2 ∨ !s.netUp p ∨ s.time.up < x.syncDue then s
    else
      let n := s.fgI F.NET_PTP_CFG_LOG_SYNC p
      (s.setPtp p { x with seq := (x.seq + 1) % 65536, syncDue := s.time.up + logNs n }).ptpSendAll p
        (s.ptpMsg p Ptp.SYNC x.seq 0 (wrap 8 n) 0 (zeros 10)))

/-- PTP_ANNOUNCE_SEND (R254): every 2^LOG_ANNOUNCE s. -/
def execPtpAnnounceSend (p : Nat) (s : State) : Host.Outcome State Fault Refusal :=
  let x := (s.np p).ptp
  .next (if 8 ≤ p ∨ s.ptpRole p ≠ 2 ∨ !s.netUp p ∨ s.time.up < x.annDue then s
    else
      let n := s.fgI F.NET_PTP_CFG_LOG_ANNOUNCE p
      (s.setPtp p { x with annSeq := (x.annSeq + 1) % 65536, annDue := s.time.up + logNs n }).ptpSendAll p
        (s.ptpMsg p Ptp.ANNOUNCE x.annSeq 8 (wrap 8 n) 0 (zeros 10 ++ s.annData p)))

/-- PDELAY_REQ_SEND (R254): every 2^LOG_PDELAY s at a peer-to-peer port with PTP enabled; the copies on two transports are two
exchanges. -/
def execPdelayReqSend (p : Nat) (s : State) : Host.Outcome State Fault Refusal :=
  let x := (s.np p).ptp
  .next (if 8 ≤ p ∨ s.ptpRole p = 0 ∨ !s.ptpP2p p ∨ !s.netUp p ∨ s.time.up < x.pdDue then s
    else
      (s.setPtp p { x with
        pdSeq := (x.pdSeq + 1) % 65536, pdReq := none, pdReqU := none, pdResp := none, pdRespU := none
        pdDue := s.time.up + logNs (s.fgI F.NET_PTP_CFG_LOG_PDELAY p) }).ptpSendAll p
        (s.ptpMsg p Ptp.PDELAY_REQ x.pdSeq 0 0x7F 0 (zeros 20)))

/-- The exchange of one transport. -/
def PtpPort.req2 (x : PtpPort) (udp : Bool) : Option (Nat × Nat) := if udp then x.pdReqU else x.pdReq
def PtpPort.resp2 (x : PtpPort) (udp : Bool) : Option (Nat × Nat × Int) := if udp then x.pdRespU else x.pdResp
def PtpPort.setReq2 (x : PtpPort) (udp : Bool) (v : Option (Nat × Nat)) : PtpPort :=
  if udp then { x with pdReqU := v } else { x with pdReq := v }
def PtpPort.setResp2 (x : PtpPort) (udp : Bool) (v : Option (Nat × Nat × Int)) : PtpPort :=
  if udp then { x with pdRespU := v } else { x with pdResp := v }

/-- DELAY_REQ_SEND (R36, R253): an end-to-end SLAVE port that follows a master. -/
def execDelayReqSend (p : Nat) (s : State) : Host.Outcome State Fault Refusal :=
  .next (if 8 ≤ p ∨ s.ptpRole p ≠ 1 ∨ s.ptpP2p p ∨ !s.netUp p ∨ (s.np p).ptp.master = [] then s
    else
      let x := (s.np p).ptp
      (s.setPtp p { x with reqSeq := (x.reqSeq + 1) % 65536, req := none }).ptpSend p x.udp none
        (s.ptpMsg p Ptp.DELAY_REQ x.reqSeq 0 0x7F 0 (zeros 10)))

/-- ANNOUNCE_TIMEOUT (R253, R36): the loss of the master's Announce raises family 0x41 and invalidates the slot. -/
def execAnnounceTimeout (p : Nat) (s : State) : Host.Outcome State Fault Refusal :=
  let x := (s.np p).ptp
  .next (if 8 ≤ p ∨ s.ptpRole p ≠ 1 ∨ x.master = []
      ∨ s.time.up < x.annAt + s.fg F.NET_PTP_CFG_ANN_TIMEOUT p * logNs (s.fgI F.NET_PTP_CFG_LOG_ANNOUNCE p) then s
    else
      let s := s.setPtp p { x with master := [], sync := none, s2m := none, delay := none, req := none }
      (s.det 0x41 p 0 0 0).slotInvalid p)

def keyLt : List Nat → List Nat → Bool
  | a :: s, b :: t => decide (a < b) || (decide (a = b) && keyLt s t)
  | _, _ => false

/-- The dataset comparison of IEEE 1588-2019 of two Announces heard on one port: of different grandmasters priority1, class, accuracy,
variance, priority2 and identity decide, of one grandmaster stepsRemoved and the sender. -/
def annLt (d sender d' sender' : List Byte) : Bool :=
  if beAt d 9 8 = beAt d' 9 8 then keyLt [beAt d 17 2, beAt sender 0 10] [beAt d' 17 2, beAt sender' 0 10]
  else
    let key := fun (l : List Byte) => [byteAt l 3, byteAt l 4, byteAt l 5, beAt l 6 2, byteAt l 8, beAt l 9 8]
    keyLt (key d) (key d')

/-- An Announce at a SLAVE port (R253): the best master heard is followed; its class and accuracy are the slot's. -/
def State.ptpAnnounce (s : State) (p : Nat) (udp : Bool) (src d : List Byte) : State :=
  let x := (s.np p).ptp
  let follow := x.master = [] ∨ src = x.master ∨ annLt d src x.mds x.master
  if !follow then s
  else
    let y := { x with master := src, udp := udp, mds := d, annAt := s.time.up }
    let y := if src = x.master then y else { y with sync := none, s2m := none, delay := none, req := none }
    let s := (s.setPtp p y).setSlot p { s.slot p with cls := byteAt d 4, acc := byteAt d 5 }
    if byteAt d 4 = 255 ∧ s.sst p ≠ 0 then s.slotInvalid p else s

/-- A quotient in ns of a time in units of 2⁻¹⁶ ns over n: exact, or one of its two neighbours (assumption 1). -/
def State.toNs (s : State) (v : Int) : Int × State :=
  if v % 65536 = 0 then (v / 65536, s)
  else
    let (w, s) := s.freeWord
    (v / 65536 + (b2n (w.getLsbD 0) : Nat), s)

/-- The phase of slot p from a Sync: reference minus Media Time (R37). -/
def State.ptpPhase (s : State) (p : Nat) : State :=
  let x := (s.np p).ptp
  match x.s2m, x.delay with
  | some m, some d =>
    let (ns, s) := s.toNs (d - m.2)
    let s := s.slotPhase p ns
    let s := s.setSlot p { s.slot p with lastEdge := some (s.now : Int) }
    if x.master ≠ [] ∧ (s.slot p).cls ≠ 255 ∧ s.sst p ≠ 0 ∧ !(s.slot p).valid then s.slotValid p else s
  | _, _ => s

/-- A measured Sync: t2 − t1 less the corrections. -/
def State.ptpSync (s : State) (p rx t1 : Nat) (corr : Int) : State :=
  let x := (s.np p).ptp
  (s.setPtp p { x with s2m := some (rx, ((rx : Int) - t1) * 65536 - corr), sync := none }).ptpPhase p

/-- meanLinkDelay of a peer-to-peer port (R254). -/
def State.ptpLinkDelay (s : State) (p : Nat) (udp : Bool) (twice : Int) : State :=
  let x := (s.np p).ptp
  let d := twice / 2
  let (ns, s) := s.toNs d
  (s.setPtp p { ((x.setReq2 udp none).setResp2 udp none) with delay := some d }).fs F.NET_PTP_LINKDLY_LINKDLY p (wrap 32 ns)

/-- A PTP message at a port with PTP enabled, in its domain and on a transport it uses. -/
def State.ptpRx (s : State) (p : Nat) (b : List Byte) (o : Nat) (udp : Bool) (rx : Nat) : State :=
  let x := (s.np p).ptp
  let ty := ptpType b o
  let src := (b.drop (o + 20)).take 10
  let seq := beAt b (o + 30) 2
  let corr := ptpCorr b o
  let two := (byteAt b (o + 6)).testBit 1
  let slave := s.ptpRole p = 1
  if ty = Ptp.ANNOUNCE then (if slave then s.ptpAnnounce p udp src ((b.drop (o + 44)).take 20) else s)
  else if ty = Ptp.SYNC then
    if !slave ∨ src ≠ x.master ∨ x.master = [] then s
    else if two then s.setPtp p { x with sync := some (seq, rx, corr) }
    else s.ptpSync p rx (ptpTime b (o + 34)) corr
  else if ty = Ptp.FOLLOW_UP then
    match x.sync with
    | some y => if slave ∧ src = x.master ∧ y.1 = seq then s.ptpSync p y.2.1 (ptpTime b (o + 34)) (y.2.2 + corr) else s
    | none => s
  else if ty = Ptp.DELAY_REQ then
    if s.ptpRole p = 2 then
      s.ptpSend p udp none (s.ptpMsg p Ptp.DELAY_RESP seq 0 0 corr (ptpTimeBytes rx ++ src))
    else s
  else if ty = Ptp.DELAY_RESP then
    match x.req, x.s2m with
    | some r, some m =>
      if slave ∧ !s.ptpP2p p ∧ src = x.master ∧ (b.drop (o + 44)).take 10 = s.portId p ∧ r.1 = seq then
        let back := ((ptpTime b (o + 34) : Int) - r.2) * 65536 - corr
        s.setPtp p { x with delay := some ((m.2 + back) / 2), req := none }
      else s
    | _, _ => s
  else if ty = Ptp.PDELAY_REQ then
    if s.ptpP2p p then
      s.ptpSend p udp (some (p, rx)) (s.ptpMsg p Ptp.PDELAY_RESP seq 0 0x7F corr (zeros 10 ++ src))
    else s
  else if ty = Ptp.PDELAY_RESP then
    match x.req2 udp with
    | some r =>
      if s.ptpP2p p ∧ (b.drop (o + 44)).take 10 = s.portId p ∧ r.1 = seq then
        if two then s.setPtp p (x.setResp2 udp (some (seq, rx, (ptpTime b (o + 34) : Int) * 65536 - corr)))
        else s.ptpLinkDelay p udp (((rx : Int) - r.2) * 65536 - corr)
      else s
    | none => s
  else if ty = Ptp.PDELAY_FU then
    match x.req2 udp, x.resp2 udp with
    | some r, some y =>
      if s.ptpP2p p ∧ y.1 = seq ∧ r.1 = seq then
        s.ptpLinkDelay p udp (((y.2.1 : Int) - r.2) * 65536 - ((ptpTime b (o + 34) : Int) * 65536 + corr - y.2.2))
      else s
    | _, _ => s
  else s

/-! ### Streams (R256 - R260) -/

def Stream.fmt (x : Stream) : Nat := byteAt x.img 0
def Stream.l32 (x : Stream) : Bool := byteAt x.img 1 == 1
def Stream.r96 (x : Stream) : Bool := byteAt x.img 2 == 1
def Stream.spp (x : Stream) : Nat := byteAt x.img 3
def Stream.chans (x : Stream) : Nat := leAt x.img 4 2
def Stream.cls (x : Stream) : Nat := byteAt x.img 7 % 4
def Stream.wordLen (x : Stream) : Nat := if x.l32 then 4 else 3

def State.rxs (s : State) (n : Nat) : Stream := mget Stream.none s.net.rx n
def State.txs (s : State) (n : Nat) : Stream := mget Stream.none s.net.tx n
def State.setRxs (s : State) (n : Nat) (x : Stream) : State :=
  { s with net := { s.net with rx := mput Stream.none s.net.rx n x } }
def State.setTxs (s : State) (n : Nat) (x : Stream) : State :=
  { s with net := { s.net with tx := mput Stream.none s.net.tx n x } }

/-- The settings of the table of R256. -/
def streamOk (r : List Byte) : Bool :=
  let x := { Stream.none with img := r }
  if x.fmt = 0 then
    byteAt r 1 ≤ 1 && byteAt r 2 ≤ 1
      && (if x.r96 then x.spp ∈ [12, 24, 32, 48, 96] else x.spp ∈ [6, 12, 16, 24, 48])
      && decide (1 ≤ x.chans) && decide (x.chans ≤ 64) && decide (x.spp * x.chans * x.wordLen ≤ 1440)
  else x.fmt == 1 && x.l32 && byteAt r 1 == 1 && byteAt r 2 == 1 && x.spp == 4 && decide (1 ≤ x.chans) && decide (x.chans ≤ 256)

/-- Converters of a stream (R58): none for 96 kHz synchronous. -/
def streamConv (asrc : Bool) (r : List Byte) : Nat :=
  let x := { Stream.none with img := r }
  if !asrc && x.r96 then 0 else (x.chans + 31) / 32

def rxSync (r : List Byte) : Bool := (byteAt r 6).testBit 7

def chkNetStreamRx (c : Cmd) (s : State) : Chk :=
  let r := c.buf.take 32
  let asrc := !rxSync r
  if 256 ≤ c.a ∨ c.len ≠ 32 then (Sts.CMD_RANGE, [])
  else if !streamOk r ∨ 4 ≤ byteAt r 7 ∨ byteAt r 7 = 3 ∨ 19200 < leAt r 0x10 4 ∨ beAt r 0x0E 2 ≠ 0
      ∨ (r.drop 0x18).any (· != 0) then (Sts.NET_STREAM_RANGE, [])
  else if asrc ∧ byteAt r 7 % 4 = 2 then (Sts.SRC_CLASS, [])
  else if 64 < s.convUsed [grpKey false 1 c.a] + streamConv asrc r then (Sts.SRC_EXHAUSTED, [])
  else Chk.ok

/-- NET_STREAM_RX at its boundary: the stream runs under the new setting from the block at that tick. -/
def applyNetStreamRx (e : Entry) (s : State) : State :=
  let k := chkNetStreamRx e.cmd s
  if k.1 ≠ Sts.OK then s.finish e k.1 k.2 false
  else
    let r := e.cmd.buf.take 32
    ((s.setRxs e.cmd.a { Stream.none with img := r }).convSet (grpKey false 1 e.cmd.a) (streamConv (!rxSync r) r)
      (!rxSync r)).finish e Sts.OK [] true

def execNetStreamRx (c : Cmd) (s : State) : Host.Outcome State Fault Refusal :=
  .next (submit Code.NET_STREAM_RX chkNetStreamRx c s)

/-- The queue rule of R243. -/
def txQueueOk (cls q : Nat) : Bool :=
  match cls with
  | 0 => decide (q ≤ 3)
  | 1 => decide (4 ≤ q) && decide (q ≤ 6)
  | 2 => true
  | _ => false

def chkNetStreamTx (c : Cmd) (s : State) : Chk :=
  let r := c.buf.take 64
  let f := byteAt r 7
  if 256 ≤ c.a ∨ c.len ≠ 64 then (Sts.CMD_RANGE, [])
  else if !streamOk r ∨ f.testBit 7 ∨ bits f 3 2 ≠ 0 ∨ !txQueueOk (f % 4) (bits f 6 4) ∨ byteAt r 6 = 0 ∨ beAt r 0x0E 2 ≠ 0
      ∨ (byteAt r 0 = 0 ∧ (byteAt r 0x26 < 96 ∨ 127 < byteAt r 0x26 ∨ byteAt r 0x27 = 0))
      ∨ (r.drop 0x28).any (· != 0) then (Sts.NET_STREAM_RANGE, [])
  else if 64 < s.convUsed [grpKey true 1 c.a] + streamConv false r then (Sts.SRC_EXHAUSTED, [])
  else Chk.ok

def applyNetStreamTx (e : Entry) (s : State) : State :=
  let k := chkNetStreamTx e.cmd s
  if k.1 ≠ Sts.OK then s.finish e k.1 k.2 false
  else
    let r := e.cmd.buf.take 64
    ((s.setTxs e.cmd.a { Stream.none with img := r }).convSet (grpKey true 1 e.cmd.a) (streamConv false r) false).finish e
      Sts.OK [] true

def execNetStreamTx (c : Cmd) (s : State) : Host.Outcome State Fault Refusal :=
  .next (submit Code.NET_STREAM_TX chkNetStreamTx c s)

def chkNetStreamDel (_ : Cmd) (_ : State) : Chk := Chk.ok

def applyNetStreamDel (e : Entry) (s : State) : State :=
  let n := e.cmd.a % 256
  let out := e.cmd.a.testBit 8
  let s := if out then s.setTxs n Stream.none else s.setRxs n Stream.none
  (s.convSet (grpKey out 1 n) 0 false).finish e Sts.OK [] true

def execNetStreamDel (c : Cmd) (s : State) : Host.Outcome State Fault Refusal :=
  .next (submit Code.NET_STREAM_DEL chkNetStreamDel c s)

def chkNetStreamRead (c : Cmd) (_ : State) : Chk := if spanOk 256 32 c ∧ c.c ≤ 1 then Chk.ok else (Sts.CMD_RANGE, [])

/-- NET_STREAM_READ: 32 bytes per stream. The layout of the settings summary is open (assumption 1); the four counts follow
it in the order the spec names them. -/
def applyNetStreamRead (e : Entry) (s : State) : State :=
  let s := (List.range e.cmd.b).foldl (fun s i =>
    let n := e.cmd.a + i
    let x := if e.cmd.c = 1 then s.txs n else s.rxs n
    let (w0, s) := s.freeWord
    let (w1, s) := s.freeWord
    let (w2, s) := s.freeWord
    let (w3, s) := s.freeWord
    s.hostWrite (e.cmd.addr + 32 * i) (leBytes 4 w0.toNat ++ leBytes 4 w1.toNat ++ leBytes 4 w2.toNat ++ leBytes 4 w3.toNat
      ++ leBytes 4 x.pkts ++ leBytes 4 x.late ++ leBytes 4 x.dups ++ leBytes 4 x.lost)) s
  s.finish e Sts.OK [] false

def execNetStreamRead (c : Cmd) (s : State) : Host.Outcome State Fault Refusal :=
  .next (submit Code.NET_STREAM_READ chkNetStreamRead c s)

/-- Instant of sample number n of the grid of a rate (R7). -/
def gridInstant (fs n : Nat) : Nat := n / fs * 1000000000 + n % fs * 1000000000 / fs

/-- Extend a 32-bit number to the value nearest a reference (R258). -/
def extend32 (ref v : Nat) : Nat := ((ref : Int) + sext 32 (v + 2 ^ 32 - ref % 2 ^ 32)).toNat

/-- Number at 96 kHz of a stream's sample i of its own rate, link offset included. -/
def Stream.at96 (x : Stream) (i : Nat) : Nat := (if x.r96 then i else 2 * i) + leAt x.img 0x10 4

/-- A copy of position `pos` whose first sample is number `i0` of the stream's rate (R258, R259). -/
def State.streamCopy (s : State) (p n pos i0 : Nat) (get : Nat → Nat → Int) : State :=
  let x := s.rxs n
  let fs := if x.r96 then 96000 else 48000
  if pos ∈ x.done then (s.setRxs n { x with dups := x.dups + 1 }).cntAdd p 17 1
  else if rxSync x.img ∧ s.now + 200000000 < gridInstant fs i0 then (s.setRxs n { x with late := x.late + 1 }).cntAdd p 16 1
  else
    let sync := rxSync x.img
    let late := sync && decide (tickStart (x.at96 i0 / 4 + 1) < s.now + 1000)
    let s := s.setRxs n { x with pkts := x.pkts + 1, late := x.late + b2n late, done := (pos :: x.done).take 8192 }
    let s := if late then s.cntAdd p 16 1 else s
    if !sync then
      let s := s.setRxs n { s.rxs n with heard := s.time.up + 2 * x.spp * 1000000000 / fs }
      (List.range x.spp).foldl (fun s i =>
        (List.range x.chans).foldl (fun s c => s.convPush Conv.ASRC (endKey 1 n c) (get i c)) s) s
    else
      let m := if x.r96 then Conv.DIRECT else Conv.POLY
      let open_ := 4 * tickAt s.now
      (List.range x.spp).foldl (fun s i =>
        let g := x.at96 (i0 + i)
        (List.range x.chans).foldl (fun s c =>
          let key := endKey 1 n c
          if open_ ≤ g + (if x.r96 then 0 else 13) then s.pushMode m key g (get i c) (!x.r96) else s) s) s

/-- The receive stream of an identity that names the port. -/
def State.findRxs (s : State) (p : Nat) (ok : Stream → Bool) : Option Nat :=
  (s.net.rx.find? (fun e =>
    let f := byteAt e.2.img 6
    ok e.2 && (f % 8 == p || (f.testBit 6 && bits f 5 3 == p)))).map (·.1)

/-- A frame in stream format (R256, R257): whether it is one, and what it does. -/
def State.streamRx (s : State) (p : Nat) (b : List Byte) : Bool × State :=
  let h := ethHdr b
  if h.etype = 0x88B5 then
    let o := h.off
    let found := s.findRxs p (fun x => x.fmt == 1 && leAt x.img 8 4 == beAt b (o + 4) 4
      && x.chans == beAt b (o + 2) 2)
    if byteAt b o ≠ 1 then (true, s.cntAdd p 18 1)
    else
      match found with
      | some n =>
        if b.length < o + 16 + 16 * (s.rxs n).chans then (false, s.cntAdd p 18 1)
        else
          let g := extend32 (tickAt s.now) (beAt b (o + 8) 4)
          let ch := (s.rxs n).chans
          (true, (s.cntAdd p 15 1).streamCopy p n g (4 * g) (fun i c => sext 32 (beAt b (o + 16 + 4 * (i * ch + c)) 4)))
      | none => (false, s.cntAdd p 18 1)
  else
    match udpOff b h with
    | some u =>
      let dip := (b.drop (h.off + 16)).take 4
      let dport := beAt b (u + 2) 2
      let r := u + 8
      let ident := fun (x : Stream) => x.fmt == 0 && (x.img.drop 8).take 4 == dip && leAt x.img 0x0C 2 == dport
      let rtp := byteAt b r / 64 == 2 && decide (96 ≤ byteAt b (r + 1) % 128) && dport != 319 && dport != 320
      if !(s.net.rx.any (fun e => ident e.2)) && !rtp then (false, s)
      else if !ipOk b h.off then (true, s.cntAdd p 21 1)
      else
        match s.findRxs p ident with
        | some n =>
          let x := s.rxs n
          let hdr := 12 + 4 * (byteAt b r % 16)
          let need := x.spp * x.chans * x.wordLen
          if !rtp ∨ beAt b (u + 4) 2 ≠ 8 + hdr + need then (false, s.cntAdd p 18 1)
          else
            let fs := if x.r96 then 96000 else 48000
            let ref := s.now / 1000000000 * fs + s.now % 1000000000 * fs / 1000000000
            let off := leAt x.img 0x14 4
            let i0 := extend32 ref ((beAt b (r + 4) 4 + 2 ^ 32 - off) % 2 ^ 32)
            let w := x.wordLen
            let get := fun i c => sext 32 (beAt b (r + hdr + w * (i * x.chans + c)) w * (if w = 3 then 256 else 1))
            (true, (s.cntAdd p 15 1).streamCopy p n (i0 / x.spp) i0 get)
        | none => (false, s.cntAdd p 18 1)
    | none => (false, s)

/-- The positions whose first sample's block is gathered at global tick g: one that no copy has filled is lost (R259). -/
def State.streamGather (s : State) (g : Nat) : State :=
  s.net.rx.foldl (fun (s : State) (e : Nat × Stream) =>
    let x := s.rxs e.1
    let step := if x.r96 then x.spp else 2 * x.spp
    let off := leAt x.img 0x10 4
    -- first position whose number reaches the block 4(g − 1) … 4g − 1
    let pos := (4 * g - 4 - off + step - 1) / step
    if rxSync x.img ∧ off + pos * step < 4 * g ∧ 4 * g ≤ off + pos * step + 4 ∧ pos ∉ x.done then
      s.setRxs e.1 { x with lost := x.lost + 1 }
    else s) s

/-- Streams on ASRC at a sample instant: arrival plus LINK_OFFSET (R258). A stream that stops delivers no more samples once the time
of two packets has passed (assumption 62). -/
def State.netAsrc (s : State) (n : Nat) : State :=
  s.aud.conv.foldl (fun (s : State) (g : ConvGrp) =>
    let k := g.key / 65536 % 65536
    if g.asrc ∧ g.key = grpKey false 1 k ∧ s.time.up < (s.rxs k).heard then
      (List.range (s.rxs k).chans).foldl (fun s c =>
        s.asrcPush (endKey 1 k c) (n + leAt (s.rxs k).img 0x10 4)) s
    else s) s

/-! ### Transmit streams (R260, R347) -/

/-- The frame of a packet on port p. `smp` are its sample frames. -/
def State.packet (s : State) (n p : Nat) (x : Stream) (i0 : Nat) (smp : List (List Int)) : List Byte :=
  let r := x.img
  let v := leAt r 0x1E 2
  let tag := if v.testBit 12 then [0x81, 0x00] ++ beBytes 2 (bits v 15 13 * 8192 + v % 4096) else []
  let eth := (r.drop 0x18).take 6 ++ s.netMac p ++ tag
  let pay := smp.flatMap (fun f => f.flatMap (fun v => if x.l32 then beBytes 4 (wrap 32 v) else beBytes 3 (wrap 32 v / 256)))
  let _ := n
  if x.fmt = 1 then
    let role := s.fg F.TW_STAT_ROLE 0
    let fl := b2n (role != 0) + 2 * s.fg F.TW_CTL_SIDE 0 + (if x.cls = 2 then 4 else 0)
    eth ++ [0x88, 0xB5] ++ [1, BitVec.ofNat 8 fl] ++ beBytes 2 x.chans ++ beBytes 4 (leAt r 8 4) ++ beBytes 4 (i0 / 4 % 2 ^ 32)
      ++ beBytes 4 0 ++ pay
  else
    let len := 20 + 8 + 12 + pay.length
    let ip := ([0x45, 0] : List Byte) ++ beBytes 2 len ++ [0, 0, 0, 0, BitVec.ofNat 8 (byteAt r 0x27), 17, 0, 0] ++ (r.drop 0x20).take 4
      ++ (r.drop 8).take 4
    let ip := patch ip 10 (beBytes 2 (0xFFFF - fold16 (ipSum ip 0 10)))
    eth ++ [0x08, 0x00] ++ ip ++ beBytes 2 (leAt r 0x24 2) ++ beBytes 2 (leAt r 0x0C 2) ++ beBytes 2 (20 + pay.length) ++ [0, 0]
      ++ [0x80, BitVec.ofNat 8 (byteAt r 0x26)] ++ beBytes 2 (i0 / x.spp % 65536)
      ++ beBytes 4 ((i0 + leAt r 0x10 4) % 2 ^ 32) ++ beBytes 4 (leAt r 0x14 4) ++ pay

def Stream.txQueue (x : Stream) : Nat := if x.cls = 2 then 7 else bits (byteAt x.img 7) 6 4

/-- Send a packet on every port of its mask, or hold it while the role is STANDBY (R347). -/
def State.sendPacket (s : State) (n : Nat) (x : Stream) (i0 : Nat) (smp : List (List Int)) : State :=
  let role := s.fg F.TW_STAT_ROLE 0
  let hold := role = 3 ∧ x.cls ≠ 2
  if role = 2 ∧ x.cls ≠ 2 ∧ s.time.tick < s.tw.tcIn then s
  else
  (bitList 8 (byteAt x.img 6)).foldl (fun s p =>
    let f : NetTx := ⟨s.packet n p x i0 smp, none, 2, none, false⟩
    if hold then { s with net := { s.net with held := s.net.held ++ [(s.time.tick, p, x.txQueue, f)] } }
    else s.enqueue p x.txQueue f) s

/-- Whether streams are sent at all: power state, level and role (R347, R378, R326). -/
def State.streamsRun (s : State) : Bool :=
  let role := s.fg F.TW_STAT_ROLE 0
  decide (s.pwr < 2) && decide (s.level < 4) && (role == 0 || role == 2 || role == 3 || decide (s.time.tick < s.tw.tcOut))

/-- One stream takes the four samples of the tick whose output instants begin at sample 4g (R256, R260). -/
def State.streamTx (s : State) (g n : Nat) : State :=
  let x := s.txs n
  let (l, s) := (List.range x.chans).foldl (fun (q : List (List Int) × State) c =>
    let b := mget Blk.zero q.2.aud.outq (endKey 1 n c)
    if x.r96 then (q.1 ++ [(List.range 4).map b.at], q.2)
    else
      let (v, t) := q.2.convBlk (outHist (endKey 1 n c)) b false
      (q.1 ++ [v], t)) (([] : List (List Int)), s)
  (List.range (if x.r96 then 4 else 2)).foldl (fun s i =>
    let x := s.txs n
    let idx := if x.r96 then 4 * g + i else 2 * g + i
    let buf := x.buf ++ [l.map (fun v => v.getD i 0)]
    if (idx + 1) % x.spp = 0 then
      let s := s.setTxs n { x with buf := [], pkts := x.pkts + b2n (x.spp ≤ buf.length) }
      if x.spp ≤ buf.length then s.sendPacket n x (idx + 1 - x.spp) (buf.drop (buf.length - x.spp)) else s
    else s.setTxs n { x with buf := buf }) s

/-- The transmit streams of a tick: Class S first, in ascending stream number (R260); held packets older than 6 ticks are
discarded (R347). -/
def State.streamTick (s : State) (g : Nat) : State :=
  let s := { s with net := { s.net with held := s.net.held.filter (fun h => decide (s.time.tick ≤ h.1 + 6)) } }
  if !s.streamsRun then s
  else
    let ns := s.net.tx.map (·.1)
    let isS := fun n => (s.txs n).cls == 2
    let only := s.twRole == 4
    (ns.filter (fun n => !isS n)).foldl (fun s n => s.streamTx g n)
      ((ns.filter (fun n => isS n && !only)).foldl (fun s n => s.streamTx g n) s)

/-- A takeover sends the held packets in assembly order (R348). -/
def State.sendHeld (s : State) : State :=
  let l := s.net.held
  l.foldl (fun s h => s.enqueue h.2.1 h.2.2.1 h.2.2.2) { s with net := { s.net with held := [] } }

/-! ### Reception (R240, R243, R250) -/

/-- The queue of a frame by its tag (R243). -/
def State.tagQueue (s : State) (p : Nat) (b : List Byte) : Nat :=
  let h := ethHdr b
  if h.tagged then s.fg F.NET_PCP_MAP_Q_PCP p / 8 ^ h.pcp % 8 else s.fg F.NET_PCP_MAP_UNTAGGED p

/-- The egress queue of a forwarded frame (R243). -/
def State.fwdClass (s : State) (p e : Nat) (b : List Byte) : Nat :=
  if fwdQueue e < 8 then fwdQueue e else s.tagQueue p b

/-- The queue a received frame is classified to. -/
def State.rxClass (s : State) (p : Nat) (b : List Byte) : Nat :=
  match s.fwdLookup p b with
  | some e => s.fwdClass p e b
  | none => s.tagQueue p b

/-- Forward a frame under its entry (R250, R255), `bad` where its reading was uncorrectable. -/
def State.forward (s : State) (p e rx : Nat) (b : List Byte) (bad : Bool) : State :=
  let pd := match ptpAt b with
    | some o => isPdelay (ptpType b o.1)
    | none => false
  let s := (bitList 8 (fwdPorts e)).foldl (fun s q =>
    if q = p ∨ (pd && (s.ptpP2p p || s.ptpP2p q)) then s
    else s.enqueue q (s.fwdClass p e b) ⟨b, some (p, rx), 0, none, bad⟩) s
  if fwdLocal e && !bad then s.toMgmt p b (mtsOf rx) else s

/-- A frame accepted under R240. -/
def State.accepted (s : State) (p rx : Nat) (b : List Byte) : State :=
  let da := frameDa b
  let s := (s.cntAdd p 0 (b.length + 4)).cntAdd p 1 1
  let s := if da = 2 ^ 48 - 1 then s.cntAdd p 4 1 else if (byteAt b 0).testBit 0 then s.cntAdd p 3 1 else s.cntAdd p 2 1
  let h := ethHdr b
  if h.etype = 0x8808 then
    (if beAt b h.off 2 = 1 then s.pauseFrame p (beAt b (h.off + 2) 2) else s.cntAdd p 12 1)
  else
    match ptpAt b with
    | some (o, udp) =>
      if udp && !ipOk b h.off then s.cntAdd p 21 1
      else
        let s := if ptpType b o < 8 then s.cntAdd p 13 1 else s.cntAdd p 14 1
        let t := s.fg F.NET_PTP_CFG_TRANSPORT p
        let mine := s.ptpRole p ≠ 0 ∧ byteAt b (o + 4) = s.ptpDomain p ∧ (t = 2 ∨ t = b2n udp)
        let s := if mine then s.ptpRx p b o udp rx else s
        match s.fwdLookup p b with
        | some e => s.forward p e rx b false
        | none =>
          if da = beAt (s.netMac p) 0 6 ∨ da = 2 ^ 48 - 1 then s.toMgmt p b (mtsOf rx) else s
    | none =>
      let (used, s) := s.streamRx p b
      if h.etype = 0x88B5 ∧ byteAt b h.off ≠ 1 then s
      else
        match s.fwdLookup p b with
        | some e => s.forward p e rx b false
        | none =>
          if used then s
          else if da = beAt (s.netMac p) 0 6 ∨ da = 2 ^ 48 - 1 then s.toMgmt p b (mtsOf rx)
          else s.cntAdd p 10 1

/-- Store a frame of n bytes in the receive buffer beside what is left there (R241): none where it does not fit. -/
def State.rxStore (s : State) (p k n left7 left : Nat) : Option State :=
  let x := s.np p
  let a := min x.rx7 left7
  let b := min x.rxO left
  if k = 7 then (if a + n ≤ 65536 then some (s.setNp p { x with rx7 := a + n, rxO := b }) else none)
  else if b + n ≤ 448 * 1024 then some (s.setNp p { x with rx7 := a, rxO := b + n })
  else none

/-- A frame whose reading is uncorrectable (R316): it is forwarded with its FCS inverted, and no part of it is consumed. -/
def State.rxBad (s : State) (p rx : Nat) (b : List Byte) : State :=
  match s.fwdLookup p b with
  | some e => if (ethHdr b).etype = 0x8808 then s else s.forward p e rx b true
  | none => s

/-- The checks of R240 and R241 on a received frame. -/
def State.received (s : State) (p : Nat) (f : NetRx) : State :=
  let n := f.bytes.length + 4
  let max := s.fg F.NET_CTL_MAX_FRAME p + (if (ethHdr f.bytes).tagged then 4 else 0)
  if !s.netUp p then s
  else if n < 64 then (s.cntAdd p 6 1).cntAdd p 39 n
  else if max < n then (s.cntAdd p 7 1).cntAdd p 39 n
  else if !f.fcsOk ∨ !f.codeOk then
    let s := if f.codeOk then s else s.cntAdd p 8 1
    let s := if f.fcsOk then s else s.cntAdd p 5 1
    s.cntAdd p 39 n
  else
    match s.rxStore p (s.rxClass p f.bytes) n f.left7 f.left with
    | none => s.cntAdd p 9 1
    | some s =>
      let s := s.readTab Tab.FWD (4096 * s.fwdAct) 4096
      let (k, s) := s.eccRead ⟨6, 1, p, f.word⟩ f.syn 5
      if k = 2 then s.rxBad p (s.now - f.sfd) f.bytes else s.accepted p (s.now - f.sfd) f.bytes

/-- FRAME_RECEIVE: the last byte of a frame has been received (R240, R250). -/
def execFrameReceive (p : Nat) (f : NetRx) (s : State) : Host.Outcome State Fault Refusal :=
  .next (if 8 ≤ p then s else (s.elapse f.dt).received p f)

/-- PAUSE: a received MAC control frame with opcode 0x0001 (R247). -/
def execPause (p : Nat) (f : NetRx) (s : State) : Host.Outcome State Fault Refusal :=
  .next (if 8 ≤ p then s else (s.elapse f.dt).received p f)

/-! ### Transmission (R244, R252, R254, R255) -/

/-- The transparent-clock correction of a forwarded event message (R255), with the counts it makes. -/
def State.tcRewrite (s : State) (q : Nat) (f : NetTx) : List Byte × State :=
  match f.from_, ptpAt f.bytes with
  | some (a, rx), some (o, udp) =>
    let ty := ptpType f.bytes o
    if f.kind ≠ 0 ∨ 4 ≤ ty ∨ !s.fb F.NET_PTP_CFG_TC_EN a ∨ !s.fb F.NET_PTP_CFG_TC_EN q then (f.bytes, s)
    else
      let res := sext 32 (s.mts + 2 ^ 32 - mtsOf rx)
      let asym := if ty = Ptp.SYNC then s.fgI F.NET_PTP_ASYM_ASYM a
        else if ty = Ptp.DELAY_REQ then -(s.fgI F.NET_PTP_ASYM_ASYM q) else 0
      let link := if s.ptpP2p a ∧ ty = Ptp.SYNC then (s.fg F.NET_PTP_LINKDLY_LINKDLY a : Int) else 0
      let c := ptpCorr f.bytes o + (res + asym + link) * 65536
      let ovf : Bool := decide (c > 2 ^ 63 - 1 ∨ c < -(2 ^ 63))
      let b := patch f.bytes (o + 8) (beBytes 8 (if ovf then 2 ^ 63 - 1 else wrap 64 c))
      let b := if udp then patch b (o - 2) [0, 0] else b
      let s := s.cntAdd q 32 1
      (b, if ovf then s.cntAdd q 33 1 else s)
  | _, _ => (f.bytes, s)

/-- What the transmitter inserts into a PTP message of the device's own at its SFD (R254). -/
def State.ownPtp (s : State) (p : Nat) (f : NetTx) : List Byte × State :=
  match ptpAt f.bytes with
  | none => (f.bytes, s)
  | some (o, udp) =>
    let x := (s.np p).ptp
    let seq := beAt f.bytes (o + 30) 2
    match ptpType f.bytes o with
    | 0 => (patch (patch f.bytes (o + 8) (beBytes 8 (s.time.frac.toNat / 65536))) (o + 34) (ptpTimeBytes s.now), s)
    | 1 => (f.bytes, s.setPtp p { x with req := some (seq, s.now) })
    | 2 => (f.bytes, s.setPtp p (x.setReq2 udp (some (seq, s.now))))
    | 3 =>
      match f.from_ with
      | some (_, rx) =>
        (patch f.bytes (o + 8) (beBytes 8 (wrap 64 (ptpCorr f.bytes o + sext 32 (s.mts + 2 ^ 32 - mtsOf rx) * 65536))), s)
      | none => (f.bytes, s)
    | _ => (f.bytes, s)

/-- The counters of a frame sent. -/
def State.countTx (s : State) (p k : Nat) (f : NetTx) : State :=
  let n := max 64 (f.bytes.length + 4)
  let s := (s.cntAdd p 22 n).cntAdd p 23 1
  let s := if frameDa f.bytes = 2 ^ 48 - 1 then s.cntAdd p 26 1
    else if (byteAt f.bytes 0).testBit 0 then s.cntAdd p 25 1 else s.cntAdd p 24 1
  let s := s.cntAdd p (if k = 7 then 27 else if 4 ≤ k then 28 else 29) 1
  let s := if f.kind = 2 then s.cntAdd p 34 1 else s
  if f.kind = 0 then s.cntAdd p 35 1 else s

/-- The first copy of a management frame has left: its command completes with the stamp (R261). -/
def State.mgmtSent (s : State) (f : NetTx) : State :=
  match f.entry with
  | none => s
  | some e =>
    let clean := fun (g : NetTx) => if g.entry.any (fun d => d.seq == e.seq) then { g with entry := none } else g
    let s := (List.range 8).foldl (fun s p =>
      let x := s.np p
      s.setNp p { x with q := x.q.map (fun m => (m.1, m.2.map clean)) }) s
    s.finish e Sts.OK [s.mts] false

/-- FRAME_TRANSMIT (R244): the transmitter of port p is free, and the SFD of the frame selected leaves at this instant. Its FCS is
computed over what leaves (R242), after a word of the transmit buffer was met (R316, assumption 46). -/
def execFrameTransmit (p : Nat) (io : NetLeave) (s : State) : Host.Outcome State Fault Refusal :=
  let s := s.elapse io.dt
  .next (if 8 ≤ p ∨ !s.netUp p ∨ s.time.up < (s.np p).txFree ∨ (s.np p).pauseEnd.isSome then s
    else
      let s := s.creditRun p
      match s.pickQueue p with
      | none => s
      | some k =>
        match (s.np p).queue k with
        | [] => s
        | f :: t =>
          let (ecc, s) := s.eccRead ⟨6, 1, p, io.word⟩ io.syn 5
          let (b, s) := if f.kind = 1 then s.ownPtp p f else s.tcRewrite p f
          let f := { f with bytes := padTo 60 b, bad := f.bad || ecc == 2 }
          let x := s.np p
          let x := { x with
            q := mput [] x.q k t,
            txQ := k, txFree := s.time.up + s.bitsNs p (8 * (f.bytes.length + 24)), sent := f.bytes ++ fcsOf f.bytes f.bad,
            sentAt := s.mts }
          ((s.setNp p x).countTx p k f).mgmtSent f)

/-! ### NET_SET and NET_PTP_DS -/

/-- The word i of a NET_SET image and the register it is of (R286). -/
def netReg (p i : Nat) : RegId × Nat :=
  match i with
  | 0 => (.NET_CTL, p)
  | 1 => (.NET_PCP_MAP, p)
  | 2 => (.NET_SHAPER, 3 * p)
  | 3 => (.NET_SHAPER, 3 * p + 1)
  | 4 => (.NET_SHAPER, 3 * p + 2)
  | 5 => (.NET_TXQ_LIMIT, p)
  | 6 => (.NET_PTP_CFG, p)
  | 7 => (.NET_PTP_ASYM, p)
  | 8 => (.NET_IPV4, p)
  | 9 => (.NET_MAC_LO, p)
  | _ => (.NET_MAC_HI, p)

/-- Declared bandwidth of the Class S transmit streams of a port, in bit/s (R245). -/
def State.declaredS (s : State) (p : Nat) : Nat :=
  s.net.tx.foldl (fun n e =>
    let x := e.2
    if x.cls = 2 ∧ (byteAt x.img 6).testBit p then
      let tag := if (byteAt x.img 0x1F).testBit 4 then 4 else 0
      let len := max 64 (14 + tag + (if x.fmt = 1 then 16 else 40) + x.spp * x.chans * x.wordLen + 4) + 20
      n + 8 * len * (if x.r96 then 96000 else 48000) / x.spp
    else n) 0

def chkNetSet (c : Cmd) (s : State) : Chk :=
  let w := fun i => leAt c.buf (4 * i) 4
  let rate := match F.NET_CTL_MODE.get (w 0) with
    | 0 => 100000 | 1 => 25000 | _ => 10000
  let slope := fun i => F.NET_SHAPER_IDLE_SLOPE.get (w i)
  let sum := [2, 3, 4].foldl (fun n i => n + (if F.NET_SHAPER_EN.get (w i) = 1 then slope i else 0)) 0
  if 8 ≤ c.a ∨ c.len ≠ 48 ∨ w 11 ≠ 0 ∨ !(List.range 11).all (fun i => imgOk (netReg c.a i).1 (w i))
      ∨ [2, 3, 4].any (fun i => decide (rate < slope i)) then (Sts.CMD_RANGE, [])
  else if rate * 100000 * 95 < (sum * 100000 + s.declaredS c.a) * 100 then (Sts.NET_BW, [])
  else if F.NET_PTP_CFG_ROLE.get (w 6) = 2 ∧ s.fg F.WH_CTL_CONFIG 0 ≠ 2 then (Sts.NET_PTP_ROLE, [])
  else Chk.ok

/-- NET_CTL of port p has been written, `old` the word before (R238, R239): a change of MODE, AN_EN or MAX_FRAME takes the link
down, and so does EN = 0. -/
def State.netCtlDone (s : State) (p : Nat) (old : Word) : State :=
  let new := s.rr .NET_CTL p
  let keep := BitVec.ofNat 32 (2 ^ 32 - 2 ^ 18 + 0x1C)
  (if old &&& keep ≠ new &&& keep ∨ !s.fb F.NET_CTL_EN p then s.netDown p else s).showTxDis p

def applyNetSet (e : Entry) (s : State) : State :=
  let k := chkNetSet e.cmd s
  if k.1 ≠ Sts.OK then s.finish e k.1 k.2 false
  else
    let p := e.cmd.a
    let old := s.rr .NET_CTL p
    let s := s.creditRun p
    let s := (List.range 11).foldl (fun s i => s.imgWrite (netReg p i).1 (netReg p i).2 (leAt e.cmd.buf (4 * i) 4)) s
    (s.netCtlDone p old).finish e Sts.OK [] true

def execNetSet (c : Cmd) (s : State) : Host.Outcome State Fault Refusal := .next (submit Code.NET_SET chkNetSet c s)

def chkNetPtpDs (c : Cmd) (_ : State) : Chk := if 8 ≤ c.a ∨ c.len ≠ 20 then (Sts.CMD_RANGE, []) else Chk.ok

def applyNetPtpDs (e : Entry) (s : State) : State :=
  (s.setPtp e.cmd.a { (s.np e.cmd.a).ptp with ds := e.cmd.buf.take 20 }).finish e Sts.OK [] false

def execNetPtpDs (c : Cmd) (s : State) : Host.Outcome State Fault Refusal := .next (submit Code.NET_PTP_DS chkNetPtpDs c s)

end Sys2Proof.Machine
end

