-- ==== Sys2Proof/Machine/Standpipe.lean ====
section
/-! DEFINITION. The Standpipe (R79 - R87): messages, voices, zones, triggers and commanded plays. -/

namespace Sys2Proof.Machine

/-! ### Messages -/

def Msg.empty : Msg := ⟨[], 0, [], [], [], none⟩
def State.msg (s : State) (m : Nat) : Msg := mget Msg.empty s.sp.msgs m
def State.setMsg (s : State) (m : Nat) (x : Msg) : State :=
  { s with sp := { s.sp with msgs := mput Msg.empty s.sp.msgs m x } }

/-- The flash copy in use and the other one. -/
def Msg.inUse (x : Msg) : Mem := if x.slot = 0 then x.flash0 else x.flash1
def Msg.other (x : Msg) : Mem := if x.slot = 0 then x.flash1 else x.flash0

/-- Header fields of a copy (R79). -/
def msgFormat (d : Mem) : Nat := memWord d 6 2
def msgSamples (d : Mem) : Nat := memWord d 8 4
def msgBytes (d : Mem) : Nat := msgSamples d * (if msgFormat d = 0 then 2 else 3)
def msgGain (d : Mem) : Int := sext 16 (memWord d 0xC 2)
/-- Length and GAP in samples at 96 kHz. -/
def msgLen (d : Mem) : Nat := if msgFormat d = 2 then msgSamples d else 2 * msgSamples d
def msgGap (d : Mem) : Nat := 96 * memWord d 0xE 2

/-- The store of an assembled message begins (R80): the flash slot that is not in use takes it. -/
def Msg.storing (x : Msg) (e : Entry) : Msg :=
  let d := x.staged.filter (fun p => decide (p.1 < 64 + msgBytes x.staged))
  { x with store := some e, flash0 := if x.slot = 0 then x.flash0 else d, flash1 := if x.slot = 0 then d else x.flash1 }

/-- The checks of R79 and R80 on an assembled message. -/
def msgOk (m : Nat) (d : Mem) : Bool :=
  memWord d 0 4 == 0x314D5053 && memWord d 4 2 == m && decide (msgFormat d ≤ 2)
    && decide (64 + msgBytes d ≤ 0x4000000) && (memRead d 0x14 40).all (· == 0)
    && memWord d 0x3C 4 == crc32c (memRead d 0 0x3C) && memWord d 0x10 4 == crc32c (memRead d 64 (msgBytes d))

/-- SP_MSG[m] shows a verified copy (R79, R80). -/
def State.showMsg (s : State) (m : Nat) (ddr : Bool) : State :=
  let d := (s.msg m).inUse
  ((((s.fs F.SP_MSG_PRESENT m 1).fs F.SP_MSG_FLASH_OK m 1).fs F.SP_MSG_DDR_OK m (b2n ddr)).fs F.SP_MSG_FORMAT m
    (msgFormat d)).fs F.SP_MSG_SAMPLES m (msgSamples d)

/-- Bytes of every message in the store but `m`: 64 MiB hold all of them (R79). -/
def State.storeUsed (s : State) (m : Nat) : Nat :=
  (List.range 16).foldl (fun n k =>
    if k ≠ m ∧ s.fb F.SP_MSG_PRESENT k then n + 64 + msgBytes (s.msg k).inUse else n) 0

/-! ### Gains -/

/-- Linear gain in units of 2⁻²⁰: 0 dB is exact, any other value is open (assumption 1). -/
def dbQ20 (centi : Int) : Int := if centi = 0 then 1048576 else (Config.dbGain centi).toNat

/-! ### Voices -/

def Voice.idle : Voice := ⟨false, false, 0, 0, 0, false, false, false, 0⟩
def Zone.idle : Zone := ⟨none, false, false, false, false, false, none, none, none, false⟩
def State.voice (s : State) (v : Nat) : Voice := mget Voice.idle s.sp.voices v
def State.setVoice (s : State) (v : Nat) (x : Voice) : State :=
  { s with sp := { s.sp with voices := mput Voice.idle s.sp.voices v x } }
def State.zone (s : State) (z : Nat) : Zone := mget Zone.idle s.sp.zones z
def State.setZone (s : State) (z : Nat) (x : Zone) : State :=
  { s with sp := { s.sp with zones := mput Zone.idle s.sp.zones z x } }

/-- The zones a voice serves. -/
def State.zonesOf (s : State) (v : Nat) : List Nat := (List.range 32).filter (fun z => (s.zone z).voice == some v)

/-- The copy a voice reads (R80, R81): the previous one to the end of its repetition, else LPDDR or flash. -/
def State.voiceCopy (s : State) (x : Voice) : Mem :=
  let m := s.msg x.msg
  if !s.fb F.SP_MSG_PRESENT x.msg then []
  else if x.old then m.other
  else if x.flash ∨ !s.fb F.SP_MSG_DDR_OK x.msg then m.inUse else m.ddr

/-- Sample i of a repetition: 96 kHz data are exact at 0 dB; an interpolated sample is open (R79). -/
def State.msgSample (s : State) (d : Mem) (i : Nat) : Int × State :=
  if msgLen d ≤ i then (0, s)
  else if msgFormat d = 2 then
    let x := sext 24 (memWord d (64 + 3 * i) 3) * 256
    if msgGain d = 0 then (x, s) else s.q31 (x * dbQ20 (msgGain d)) 1048576
  else
    let (w, s) := s.freeWord
    (w.toInt, s)

/-- ALARM inputs as R83 sees them: in a pair the OR of both twins' states as of the previous tick (R355). -/
def State.alarms (s : State) : Nat := if s.paired then s.sp.prev ||| s.sp.peer else s.fg F.SP_STAT_ALARM 0

/-- Whether an ALARM input of a zone's mask is active. -/
def State.zoneAlarm (s : State) (z : Nat) : Bool := s.alarms &&& s.fg F.SP_ZONE_ALARM_MASK z != 0

/-- Whether a zone goes on after the present repetition (R85, R86). -/
def State.zoneGoesOn (s : State) (z : Nat) (x : Voice) : Bool :=
  if x.auto then (s.zone z).heard || s.zoneAlarm z else x.left != 1

/-- Whether a voice starts another repetition. -/
def State.voiceGoesOn (s : State) (v : Nat) (x : Voice) : Bool := (s.zonesOf v).any (fun z => s.zoneGoesOn z x)

/-- Whether a zone still ramps a voice out (R84). -/
def State.removing (s : State) (z v : Nat) (tail : Bool) : Bool :=
  let x := s.zone z
  x.oldV == some v && x.oldT == tail && (match x.vGain with
    | some r => !r.done s.time.tick
    | none => false)

/-- Whether the voice is being removed from a zone under a ramp (R84): it goes on under the ramp. -/
def State.voiceTail (s : State) (v : Nat) : Bool := (List.range 32).any (fun z => s.removing z v false)

/-- The four samples of a play from its position, and the play four samples on: GAP separates repetitions, and the next repetition
reads the copy in use by then (R80, R85). `cont` says whether another repetition follows the present one. -/
def State.playSamples (s : State) (x : Voice) (cont : Bool) : Blk × Voice × State :=
  let d := s.voiceCopy x
  let cyc := msgLen d + msgGap d
  let next := s.voiceCopy { x with old := false }
  let (b, s) := s.blk (fun i s =>
    let j := x.pos + i
    if j < cyc then s.msgSample d j else if cont then s.msgSample next (j - cyc) else (0, s))
  (b, { x with pos := x.pos + 4 }, s)

/-- A play at the start of a block: where its cycle has ended and another follows, the next repetition has begun. -/
def State.playWraps (s : State) (x : Voice) : Bool :=
  let d := s.voiceCopy x
  x.again && decide (msgLen d + msgGap d ≤ x.pos)

/-- The play in its next repetition. -/
def State.playWrap (s : State) (x : Voice) : Voice :=
  let d := s.voiceCopy x
  { x with pos := x.pos - (msgLen d + msgGap d), again := false, old := false
           left := if x.left > 1 then x.left - 1 else x.left }

/-- The block of an earlier play of a voice that is still being removed from a zone (R84, R86). -/
def State.tailBlock (s : State) (v : Nat) : State :=
  match mfind s.sp.tails v with
  | none => s
  | some x =>
    if (List.range 32).any (fun z => s.removing z v true) then
      let (b, y, s) := s.playSamples x false
      { s with sp := { s.sp with tails := mset false s.sp.tails v y, tblk := mput Blk.zero s.sp.tblk v b } }
    else { s with sp := { s.sp with tails := mdel s.sp.tails v, tblk := mput Blk.zero s.sp.tblk v Blk.zero } }

/-- Give a voice's block of the tick (R84, R85): GAP separates repetitions. -/
def State.voiceBlock (s : State) (v : Nat) : State :=
  let s := s.tailBlock v
  let x := s.voice v
  if !x.busy ∧ !s.voiceTail v then { s with sp := { s.sp with blk := mput Blk.zero s.sp.blk v Blk.zero } }
  else
    let wrap := s.playWraps x
    let x := if wrap then s.playWrap x else x
    let s := if wrap then (s.zonesOf v).foldl (fun s z => s.setZone z { s.zone z with heard := false }) s else s
    let (b, x, s) := s.playSamples x (x.busy && (x.again || s.voiceGoesOn v x))
    let s := s.setVoice v x
    { s with sp := { s.sp with blk := mput Blk.zero s.sp.blk v b } }

/-- The registers that show what plays. -/
def State.showSp (s : State) : State :=
  let busy := (List.range 16).foldl (fun n v => if (s.voice v).busy then n + 2 ^ v else n) 0
  let act := (List.range 32).foldl (fun n z => if (s.zone z).voice.isSome then n + 2 ^ z else n) 0
  (s.fs F.SP_STAT_VOICE_BUSY 0 busy).fs F.SP_ZONE_ACT_ACTIVE 0 act

/-! ### Starting and stopping -/

/-- The duck gain last computed. -/
def State.duckNow (s : State) (z : Nat) : Int :=
  match (s.zone z).duck with
  | some r => r.last s.time.tick
  | none => 1048576

/-- DUCK of a zone (R84): 0xFF is mute. -/
def State.duckTarget (s : State) (z : Nat) : Int :=
  let d := s.fg F.SP_ZONE_DUCK z
  if d = 0xFF then 0 else dbQ20 (-50 * (d : Int))

/-- Samples of SP_CTL.RAMP. -/
def State.spRamp (s : State) : Nat := 96 * s.fg F.SP_CTL_RAMP 0

/-- Remove the voice from a zone and release its duck, each over RAMP (R84). -/
def State.leaveZone (s : State) (z : Nat) : State :=
  let x := s.zone z
  match x.voice with
  | none => s
  | some v => s.setZone z { x with
      voice := none, auto := false, heard := false, oldV := some v, oldT := false,
      vGain := some ⟨1048576, 0, s.time.tick, s.spRamp, 0⟩,
      duck := some ⟨s.duckNow z, 1048576, s.time.tick, s.spRamp, 0⟩ }

/-- A voice that serves no zone goes idle (R85). -/
def State.tidyVoice (s : State) (v : Nat) : State :=
  let x := s.voice v
  if (s.zonesOf v).isEmpty then
    let s := if x.busy ∧ !x.auto then { s with sp := { s.sp with ends := mset false s.sp.ends v (x.seq, Sts.OK) } } else s
    s.setVoice v { x with busy := false }
  else s

/-- End a commanded play with a status (R86), which no completion carries: it is kept by voice (assumption 26). -/
def State.endPlay (s : State) (v status : Nat) : State :=
  let s := (s.zonesOf v).foldl State.leaveZone s
  let s := { s with sp := { s.sp with ends := mset false s.sp.ends v ((s.voice v).seq, status) } }
  s.setVoice v { s.voice v with busy := false }

/-- Start a message on a voice. What it played before goes on as a tail in the zones that still ramp it out (R84). -/
def State.startVoice (s : State) (v m : Nat) (auto : Bool) (reps seq : Nat) : State :=
  let s := if s.voiceTail v then
      let s := (List.range 32).foldl (fun s z =>
        let x := s.zone z
        if x.oldV ≠ some v then s
        else if x.oldT then s.setZone z { x with oldV := none, vGain := none, oldT := false }
        else s.setZone z { x with oldT := true }) s
      { s with sp := { s.sp with tails := mset false s.sp.tails v (s.voice v) } }
    else s
  s.setVoice v { Voice.idle with busy := true, auto := auto, msg := m, left := reps, seq := seq }

/-- Play starts in a zone at the present boundary (R84): the duck ramps, the voice enters without a ramp, also where it was being
removed from the zone. -/
def State.joinZone (s : State) (z v : Nat) (auto : Bool) : State :=
  let s := s.leaveZone z
  let x := s.zone z
  let x := if x.oldV = some v ∧ !x.oldT then { x with oldV := none, vGain := none } else x
  s.setZone z { x with
    voice := some v, auto := auto, heard := auto && s.zoneAlarm z, held := false,
    duck := some ⟨s.duckNow z, s.duckTarget z, s.time.tick, s.spRamp, 0⟩ }

/-! ### Triggers -/

/-- The valid watched slots of a zone (R83). -/
def State.watched (s : State) (z : Nat) : List Nat :=
  (if s.fb F.SP_WATCH_A_VALID0 z then [s.fg F.SP_WATCH_A_SLOT0 z] else [])
    ++ (if s.fb F.SP_WATCH_A_VALID1 z then [s.fg F.SP_WATCH_A_SLOT1 z] else [])
    ++ (if s.fb F.SP_WATCH_B_VALID0 z then [s.fg F.SP_WATCH_B_SLOT0 z] else [])
    ++ (if s.fb F.SP_WATCH_B_VALID1 z then [s.fg F.SP_WATCH_B_SLOT1 z] else [])

/-- Presence of an IC slot: whether it is present and since when (`up`). A slot never seen is absent since POR_N release
(R365). -/
def State.presence (s : State) (k : Nat) : Bool × Nat :=
  let v := mget 0 s.sp.watch k
  (v % 2 == 1, v / 2)

/-- Record a slot's presence in the tick just gathered, which began at `since` (R57, R83). -/
def State.notePresence (s : State) (k : Nat) (present : Bool) (since : Nat) : State :=
  if (s.presence k).1 = present then s
  else { s with sp := { s.sp with watch := mput 0 s.sp.watch k (2 * since + b2n present) } }

/-- Every watched slot has been absent for LOSS (R83). -/
def State.lossDue (s : State) (z : Nat) : Bool :=
  (s.watched z).all (fun k =>
    !(s.presence k).1 && decide ((s.presence k).2 + s.fg F.SP_TIMING_LOSS 0 * msNs ≤ s.time.up))

/-- A watched slot has been present for RETURN (R85). -/
def State.returnDue (s : State) (z : Nat) : Bool :=
  (s.watched z).any (fun k =>
    (s.presence k).1 && decide ((s.presence k).2 + s.fg F.SP_TIMING_RETURN 0 * msNs ≤ s.time.up))

/-- The ALARM inputs of a zone have all been inactive for one debounce period (R85). -/
def State.quietDue (s : State) (z : Nat) : Bool :=
  (bitList 8 (s.fg F.SP_ZONE_ALARM_MASK z)).all (fun n =>
    !(s.fg F.SP_STAT_ALARM 0).testBit n
      && decide (mget 0 s.sp.since n + s.fg F.SP_CTL_DEBOUNCE 0 * msNs ≤ s.time.up))

/-- Whether a trigger plays at once: the outputs are not muted by an epoch restart (R20, R365). -/
def State.spOpen (s : State) : Bool := s.fb F.MT_EPOCH_RELEASED 0 || s.time.first

/-- Start autonomous play in a zone (R83, R84, R86): a commanded play that holds the voice ends, and one that loses its last
zone goes idle. -/
def State.startAuto (s : State) (z : Nat) : State :=
  let v := s.fg F.SP_ZONE_VOICE z
  let x := s.voice v
  let s := if x.busy ∧ !x.auto then s.endPlay v Sts.SP_PREEMPTED else s
  let s := if (s.voice v).busy then s else s.startVoice v (s.fg F.SP_ZONE_MSG z) true 0 0
  let old := (s.zone z).voice
  let s := s.joinZone z v true
  match old with
  | some w => if w = v then s else s.tidyVoice w
  | none => s

/-- Without SP_CTL.EN the Standpipe plays nothing: every zone stops under its ramps. -/
def State.spDisabled (s : State) : State :=
  (List.range 32).foldl (fun s z =>
    let s := s.setZone z { s.zone z with held := false }
    match (s.zone z).voice with
    | some v => (s.leaveZone z).tidyVoice v
    | none => s) s

/-- The trigger of a zone (R83): an ALARM input of its mask is active and every watched slot is lost. -/
def State.trigger (s : State) (z : Nat) : Bool :=
  s.zoneAlarm z && !(s.zone z).inhibit && ((s.watched z).isEmpty || (s.zone z).lost)

/-- The evaluation of every zone at a tick boundary (R20, R83, R85). -/
def State.spEvaluate (s : State) : State :=
  let s := if s.fb F.SP_CTL_EN 0 then s else s.spDisabled
  let on := s.fb F.SP_CTL_EN 0 && s.fb F.SP_STAT_READY 0
  let s := (List.range 32).foldl (fun s z =>
    let x := s.zone z
    let x := { x with
      lost := x.lost && (s.watched z).all (fun k => !(s.presence k).1)
      inhibit := x.inhibit && !s.quietDue z
      heard := x.heard || (x.auto && s.zoneAlarm z) }
    let s := s.setZone z x
    if !on || (x.voice.isSome && x.auto) || !(x.held || s.trigger z) then s
    else if s.spOpen then s.startAuto z
    else s.setZone z { x with held := true }) s
  s.showSp

/-! ### Contributions to the mix (R84) -/

/-- The duck gain of a zone for sample i of the present tick. -/
def State.duckAt (s : State) (z t i : Nat) : Int :=
  match (s.zone z).duck with
  | some r => r.atTick t i
  | none => 1048576

/-- The ramps of zones that have ended (R84): the voice removed leaves the zone, a released duck is at rest. -/
def State.zoneRampEnd (s : State) : State :=
  (List.range 32).foldl (fun s z =>
    let x := s.zone z
    let ended (r : Option Ramp) : Bool := match r with
      | some r => r.done s.time.tick
      | none => false
    let x := if ended x.vGain then { x with oldV := none, vGain := none, oldT := false } else x
    let x := if x.voice.isNone && ended x.duck then { x with duck := none } else x
    s.setZone z x) s

/-- What a zone adds to sample i of its outputs, in units of 2⁻⁷¹: the voice below its VATT, and one being removed. -/
def State.zoneAdd (s : State) (z t i : Nat) : Int :=
  let x := s.zone z
  let att := dbQ20 (-50 * (s.fg F.SP_ZONE_VATT z : Int))
  let a := match x.voice with
    | some v => (mget Blk.zero s.sp.blk v).at i * att * 1048576
    | none => 0
  let b := match x.oldV, x.vGain with
    | some v, some r => (mget Blk.zero (if x.oldT then s.sp.tblk else s.sp.blk) v).at i * att * r.atTick t i
    | _, _ => 0
  a + b

/-! ### Commands -/

/-- The words of an SP_CONFIG image. -/
def spWord (c : Cmd) (i : Nat) : Nat := leAt c.buf (4 * i) 4

/-- Zones that share a voice with non-zero masks must share the message (R82). `zw` gives the SP_ZONE words. -/
def spZonesOk (zw : Nat → Nat) : Bool :=
  (List.range 32).all (fun y => (List.range 32).all (fun z =>
    F.SP_ZONE_ALARM_MASK.get (zw y) == 0 || F.SP_ZONE_ALARM_MASK.get (zw z) == 0
      || F.SP_ZONE_VOICE.get (zw y) != F.SP_ZONE_VOICE.get (zw z)
      || F.SP_ZONE_MSG.get (zw y) == F.SP_ZONE_MSG.get (zw z)))

/-- The register and instance of word i of an SP_CONFIG image (R286). -/
def spReg (i : Nat) : RegId × Nat :=
  if i = 0 then (.SP_CTL, 0) else if i = 1 then (.SP_TIMING, 0)
  else if i < 34 then (.SP_ZONE, i - 2) else if i < 66 then (.SP_WATCH_A, i - 34) else (.SP_WATCH_B, i - 66)

def chkSpConfig (c : Cmd) (_ : State) : Chk :=
  if c.len ≠ 392 then (Sts.CMD_RANGE, [])
  else if !(List.range 98).all (fun i => imgOk (spReg i).1 (spWord c i)) then (Sts.XP_RANGE, [])
  else if !spZonesOk (fun z => spWord c (2 + z)) then (Sts.SP_CONFLICT, [])
  else Chk.ok

def applySpConfig (e : Entry) (s : State) : State :=
  ((List.range 98).foldl (fun s i => s.imgWrite (spReg i).1 (spReg i).2 (spWord e.cmd i)) s).finish e Sts.OK [] true

def execSpConfig (c : Cmd) (s : State) : Host.Outcome State Fault Refusal :=
  .next (submit Code.SP_CONFIG chkSpConfig c s)

/-- SP_PLAY (R86): a voice busy with another play needs PREEMPT; one in autonomous play is busy whatever the flag. -/
def chkSpPlay (c : Cmd) (s : State) : Chk :=
  let x := s.voice (c.a % 16)
  if !s.fb F.SP_CTL_EN 0 ∨ !s.fb F.SP_STAT_READY 0 ∨ !s.fb F.SP_MSG_PRESENT (bits c.a 11 8) then (Sts.CMD_STATE, [])
  else if x.busy && (x.auto || !c.a.testBit 24) then (Sts.SP_ZONE_BUSY, [])
  else Chk.ok

def applySpPlay (e : Entry) (s : State) : State :=
  let k := chkSpPlay e.cmd s
  if k.1 ≠ Sts.OK then s.finish e k.1 k.2 false
  else
    let v := e.cmd.a % 16
    let s := if (s.voice v).busy then s.endPlay v Sts.SP_PREEMPTED else s
    let s := s.startVoice v (bits e.cmd.a 11 8) false (bits e.cmd.a 23 16) e.seq
    let skip := (bitList 32 e.cmd.b).filter (fun z => (s.zone z).voice.isSome && (s.zone z).auto)
    let s := (bitList 32 e.cmd.b).foldl (fun s z =>
      if z ∈ skip then s
      else
        let old := (s.zone z).voice
        let s := s.joinZone z v false
        match old with
        | some w => if w = v then s else s.tidyVoice w
        | none => s) s
    let s := (s.tidyVoice v).showSp
    s.finish e Sts.OK [skip.foldl (fun n z => n + 2 ^ z) 0] false

def execSpPlay (c : Cmd) (s : State) : Host.Outcome State Fault Refusal :=
  .next (submit Code.SP_PLAY chkSpPlay c s)

/-- SP_STOP (R85, R86). Without OVERRIDE it is refused for a zone in autonomous play; DESIGN CHOICE: refused whole, so that the plays
of the other zones it names go on (assumption 64). -/
def chkSpStop (c : Cmd) (s : State) : Chk :=
  if !c.a.testBit 0 ∧ (bitList 32 c.b).any (fun z => (s.zone z).voice.isSome && (s.zone z).auto) then (Sts.SP_ZONE_BUSY, [])
  else Chk.ok

def applySpStop (e : Entry) (s : State) : State :=
  let k := chkSpStop e.cmd s
  if k.1 ≠ Sts.OK then s.finish e k.1 k.2 false
  else
    let s := (bitList 32 e.cmd.b).foldl (fun s z =>
      let x := s.zone z
      let s := if (x.auto ∨ x.held) ∧ e.cmd.a.testBit 0 then s.setZone z { x with inhibit := true, held := false } else s
      match x.voice with
      | some v => (s.leaveZone z).tidyVoice v
      | none => s) s
    s.showSp.finish e Sts.OK [] false

def execSpStop (c : Cmd) (s : State) : Host.Outcome State Fault Refusal :=
  .next (submit Code.SP_STOP chkSpStop c s)

/-- SP_MSG_BLOCK (R80). -/
def chkSpMsgBlock (c : Cmd) (_ : State) : Chk :=
  if 15 < c.a ∨ c.len = 0 ∨ 4096 < c.len ∨ 0x4000000 < c.b + c.len then (Sts.CMD_RANGE, [])
  else if crc32c (c.buf.take c.len) ≠ c.i0 then (Sts.SP_MSG_CRC, [])
  else Chk.ok

def applySpMsgBlock (e : Entry) (s : State) : State :=
  let x := s.msg e.cmd.a
  (s.setMsg e.cmd.a { x with staged := memWrite x.staged e.cmd.b (e.cmd.buf.take e.cmd.len) }).finish e Sts.OK [] false

def execSpMsgBlock (c : Cmd) (s : State) : Host.Outcome State Fault Refusal :=
  .next (submit Code.SP_MSG_BLOCK chkSpMsgBlock c s)

/-- SP_MSG_COMMIT (R80): one store of a message at a time; the whole store holds 64 MiB. -/
def chkSpMsgCommit (c : Cmd) (s : State) : Chk :=
  if 15 < c.a then (Sts.CMD_RANGE, [])
  else if (s.msg c.a).store.isSome then (Sts.CMD_STATE, [])
  else Chk.ok

/-- SP_MSG_COMMIT at its boundary: the checks of R79 and R80 on the assembled message, then the store. R79 refuses a header with
another MAGIC, NUMBER, FORMAT or reserved byte and names no status: DESIGN CHOICE, SP_MSG_CRC as for the CRCs (assumption 63). -/
def applySpMsgCommit (e : Entry) (s : State) : State :=
  let x := s.msg e.cmd.a
  if x.store.isSome then s.finish e Sts.CMD_STATE [] false
  else if !msgOk e.cmd.a x.staged then s.finish e Sts.SP_MSG_CRC [] false
  else if 0x4000000 < s.storeUsed e.cmd.a + 64 + msgBytes x.staged then s.finish e Sts.CMD_RANGE [] false
  else s.setMsg e.cmd.a (x.storing e)

def execSpMsgCommit (c : Cmd) (s : State) : Host.Outcome State Fault Refusal :=
  .next (submit Code.SP_MSG_COMMIT chkSpMsgCommit c s)

/-- SP_MSG_STORE_COMPLETE (R80): the copy in the other flash slot has been read back and LPDDR written; `ok` false means
the copy did not verify, and the previous copy stays in use. Voices finish their repetition from the previous copy. -/
def execSpMsgStoreComplete (m : Nat) (ok : Bool) (s : State) : Host.Outcome State Fault Refusal :=
  let x := s.msg m
  .next (match x.store with
    | none => s
    | some e =>
      if !ok then (s.setMsg m { x with store := none }).finish e Sts.SP_MSG_CRC [] false
      else
        let s := s.setMsg m { x with slot := 1 - x.slot, ddr := x.other, store := none }
        let s := (List.range 16).foldl (fun s v =>
          if (s.voice v).busy ∧ (s.voice v).msg = m then s.setVoice v { s.voice v with old := true, flash := false }
          else s) s
        (s.showMsg m true).finish e Sts.OK [] true)

/-! ### Events -/

/-- ALARM_INPUT_CHANGE (R83, R441): the input takes a level and must hold it for DEBOUNCE. -/
def execAlarmInputChange (n : Nat) (active : Bool) (dt : Nat) (s : State) : Host.Outcome State Fault Refusal :=
  let s := s.elapse dt
  .next (if 8 ≤ n ∨ s.sp.raw.testBit n = active then s
    else
      let same : Bool := (s.fg F.SP_STAT_ALARM 0).testBit n == active
      { s with sp := { s.sp with
          raw := setBit s.sp.raw n active,
          deb := mput 0 s.sp.deb n (if same then 0 else s.time.up + s.fg F.SP_CTL_DEBOUNCE 0 * msNs + 1) } })

/-- DEBOUNCE_EXPIRY (R83). -/
def execDebounceExpiry (n : Nat) (s : State) : Host.Outcome State Fault Refusal :=
  let d := mget 0 s.sp.deb n
  .next (if 8 ≤ n ∨ d = 0 ∨ s.time.up + 1 < d then s
    else
      let s := s.fs F.SP_STAT_ALARM 0 (setBit (s.fg F.SP_STAT_ALARM 0) n (s.sp.raw.testBit n))
      { s with sp := { s.sp with deb := mput 0 s.sp.deb n 0, since := mput 0 s.sp.since n s.time.up } })

/-- WATCH_LOSS_EXPIRY (R83). -/
def execWatchLossExpiry (z : Nat) (s : State) : Host.Outcome State Fault Refusal :=
  .next (if z < 32 ∧ s.lossDue z then s.setZone z { s.zone z with lost := true } else s)

/-- WATCH_RETURN_EXPIRY (R85): autonomous play stops at once under its ramps. -/
def execWatchReturnExpiry (z : Nat) (s : State) : Host.Outcome State Fault Refusal :=
  let x := s.zone z
  .next (if z < 32 ∧ x.auto ∧ s.returnDue z then
      match x.voice with
      | some v => ((s.leaveZone z).tidyVoice v).showSp
      | none => s
    else s)

/-- REPETITION_END (R85, R86): at the end of a repetition each zone stops or goes on after GAP. -/
def execRepetitionEnd (v : Nat) (s : State) : Host.Outcome State Fault Refusal :=
  let x := s.voice v
  .next (if 16 ≤ v ∨ !x.busy ∨ x.again ∨ x.pos < msgLen (s.voiceCopy x) then s
    else
      let s := (s.zonesOf v).foldl (fun s z => if s.zoneGoesOn z x then s else s.leaveZone z) s
      let s := s.setVoice v { s.voice v with again := true }
      (s.tidyVoice v).showSp)

/-- VOICE_FLASH_FALLBACK (R81, R316): the read of a word of the LPDDR copy met a syndrome. An uncorrectable error is logged,
counted and reported as every requester's is, and the voice goes on from flash at its position. -/
def execVoiceFlashFallback (x : VoiceEcc) (s : State) : Host.Outcome State Fault Refusal :=
  let v := s.voice x.voice
  .next (if 16 ≤ x.voice ∨ !v.busy ∨ x.word.log ≠ 7 then s
    else
      let (k, s) := s.eccRead x.word x.syn 5
      if k ≠ 2 then s
      else ((s.setVoice x.voice { v with flash := true }).fs F.SP_STAT_FLASH_ONLY 0 1).fs F.SP_MSG_DDR_OK v.msg 0)

end Sys2Proof.Machine
end

