-- ==== Sys2Proof/Machine/Router.lean ====
section
/-! DEFINITION. The Router (R55 - R66, R74): its entries and banks, the gather of input blocks, the collection of output
blocks and the output stage. -/

namespace Sys2Proof.Machine

/-! ### Sparse ranges and fades -/

/-- Copy the entries [src, src + n) over [dst, dst + n). -/
def copyRange {α : Type} (src dst n : Nat) (m : AMap α) : AMap α :=
  m.filter (fun p => decide (p.1 < dst))
    ++ (m.filter (fun p => decide (src ≤ p.1) && decide (p.1 < src + n))).map (fun p => (p.1 - src + dst, p.2))
    ++ m.filter (fun p => decide (dst + n ≤ p.1))

/-- Elements without repeats, the first of each kept. -/
def nub (l : List Nat) : List Nat := l.foldl (fun a k => if k ∈ a then a else a ++ [k]) []

/-- The crossfade of a slot that still runs before tick t. -/
def runFade (m : AMap Fade) (k t : Nat) : Option Fade := (mfind m k).filter (fun f => !f.ramp.done t)

/-! ### Entries (R62) -/

def rtValid (e : Nat) : Bool := e.testBit 63
def rtOut (e : Nat) : Bool := e.testBit 62
def rtClass (e : Nat) : Nat := bits e 61 60
def rtSlot (e : Nat) : Nat := bits e 57 48
def rtType (e : Nat) : Nat := bits e 43 40
def rtInst (e : Nat) : Nat := bits e 39 24
def rtChan (e : Nat) : Nat := bits e 23 8
def rtInv (e : Nat) : Bool := e.testBit 0
/-- The end point an entry names. -/
def rtKey (e : Nat) : Nat := endKey (rtType e) (rtInst e) (rtChan e)
/-- The source of an input entry: end point and polarity; 0 is silence. -/
def rtSrc (e : Nat) : Nat := 2 * rtKey e + b2n (rtInv e)
/-- The source of an output entry: OC slot and polarity; 0 is silence. -/
def rtFeed (e : Nat) : Nat := 2 + 2 * rtSlot e + b2n (rtInv e)

/-- The entries of a bank with their numbers, ascending. -/
def State.rtBank (s : State) (b : Nat) : List (Nat × Nat) :=
  (s.aud.rt.filter (fun p => p.1 / 4096 == b)).map (fun p => (p.1 % 4096, p.2))

/-- The valid entries of a bank in one direction; an entry in an uncorrectable word is taken as not valid (R316). -/
def State.rtEntries (s : State) (b : Nat) (out : Bool) : List Nat :=
  let l := s.lostOf Tab.ROUTER
  ((s.rtBank b).filter (fun p => rtValid p.2 && rtOut p.2 == out && !l.contains (4096 * b + p.1))).map (·.2)

/-- The source of an IC slot in a bank, and what feeds a destination. -/
def State.icSrc (s : State) (b k : Nat) : Nat :=
  match (s.rtEntries b false).find? (fun e => rtSlot e == k) with
  | some e => rtSrc e
  | none => 0
def State.dstSrc (s : State) (b key : Nat) : Nat :=
  match (s.rtEntries b true).find? (fun e => rtKey e == key) with
  | some e => rtFeed e
  | none => 0

/-- While SP_CTL.EN = 1, IC1008 - IC1023 carry the voices (R61). -/
def State.spSlot (s : State) (k : Nat) : Bool := s.fb F.SP_CTL_EN 0 && decide (1008 ≤ k) && decide (k < 1024)

/-- Class of an IC slot (R6, R61, R62): 0 B, 1 P, 2 S. -/
def State.icClass (s : State) (k : Nat) : Nat :=
  if s.spSlot k then 2
  else match (s.rtEntries s.aud.rtAct false).find? (fun e => rtSlot e == k) with
    | some e => rtClass e
    | none => 0

/-! ### Validity (R61 - R63) -/

/-- Channels of the host ring of a TYPE (3 HIN, 4 HOUT) with a ring index. -/
def State.ringChans (s : State) (ty idx : Nat) : Nat :=
  match (s.ringsEn ty).find? (fun r => s.fg F.HIF_RING_AUD_INDEX r == idx) with
  | some r => s.fg F.HIF_RING_AUD_CHANNELS r
  | none => 0

/-- INST and CHAN lie within the range the source or destination is configured for (R62, R63). -/
def State.rtEndOk (s : State) (e : Nat) : Bool :=
  let i := rtInst e
  let c := rtChan e
  match rtType e with
  | 1 => decide (i < 256) && decide (c < (if rtOut e then s.txs i else s.rxs i).chans)
  | 2 => decide (i < 16) && decide (c < s.tdmSlots i) && !s.tdmRing i (b2n (rtOut e))
  | 3 => !rtOut e && decide (i < 8) && decide (c < 2)
  | 4 => decide (i < 16) && decide (c < s.ringChans (if rtOut e then 4 else 3) i)
  | 6 => !rtOut e && ((i / 256 == 2 && decide (i % 256 < 16) && decide (c < 32))
      || (i / 256 == 3 && decide (i % 256 < 8) && decide (c < 2)))
  | 7 => rtOut e && i == 0 && decide (c < 192)
  | _ => false

/-- The fields of a valid entry (R62). -/
def State.rtRangeOk (s : State) (e : Nat) : Bool :=
  bits e 59 58 == 0 && bits e 47 44 == 0 && bits e 7 1 == 0 && rtClass e != 3 && (!rtOut e || rtClass e == 0) && s.rtEndOk e

/-- IC slots one kind of source may feed (R61): a partner has at most 512 TDM and 16 PDM inputs. -/
def icLimit (ty : Nat) : Nat := if ty = 2 then 512 else if ty = 3 then 16 else if ty = 4 then 128 else if ty = 6 then 528 else 1024

/-- A Class S entry on a group that asks for ASRC (R60): the class of an output entry is its OC slot's. -/
def State.rtAsrcS (s : State) (e : Nat) : Bool :=
  ((s.convOf (grpKey (rtOut e) (rtType e) (rtInst e))).any (fun g => g.asrc))
    && (if rtOut e then bits (mget (0 : Word) s.aud.moWord (rtSlot e)).toNat 31 30 == 2 else rtClass e == 2)

/-- The first offending entry of a bank, entries in ascending order: `ics` and `dsts` are the slots and destinations named so
far, `tys` the types of the input entries so far. -/
def State.routeScan (s : State) : List (Nat × Nat) → List Nat → List Nat → List Nat → Chk
  | [], _, _, _ => Chk.ok
  | (i, e) :: t, ics, dsts, tys =>
    if !rtValid e then s.routeScan t ics dsts tys
    else if !s.rtRangeOk e then (Sts.ROUTE_RANGE, [i])
    else if rtOut e then
      if rtKey e ∈ dsts then (Sts.ROUTE_CONFLICT, [i])
      else if s.rtAsrcS e then (Sts.SRC_CLASS, [i])
      else s.routeScan t ics (rtKey e :: dsts) tys
    else if rtSlot e ∈ ics ∨ s.spSlot (rtSlot e) then (Sts.ROUTE_CONFLICT, [i])
    else if icLimit (rtType e) ≤ (tys.filter (· == rtType e)).length then (Sts.ROUTE_RANGE, [i])
    else if s.rtAsrcS e then (Sts.SRC_CLASS, [i])
    else s.routeScan t (rtSlot e :: ics) dsts (rtType e :: tys)

/-! ### Commands (R64, R65) -/

/-- The inactive bank is locked from the arming of a commit to the end of the copy. -/
def State.rtLocked (s : State) : Bool := s.aud.rtLock != 0 || s.armedAny Code.ROUTE_COMMIT

def chkRouteWrite (c : Cmd) (s : State) : Chk :=
  if !spanOk 4096 8 c then (Sts.CMD_RANGE, []) else if s.rtLocked then (Sts.ROUTE_BANK_LOCKED, []) else Chk.ok

def applyRouteWrite (e : Entry) (s : State) : State :=
  if s.rtLocked then s.finish e Sts.ROUTE_BANK_LOCKED [] false
  else
    let first := (1 - s.aud.rtAct) * 4096 + e.cmd.a
    let s := s.wroteTab Tab.ROUTER first e.cmd.b
    ({ s with aud := { s.aud with rt := writeEntries 0 8 first e.cmd.buf e.cmd.b s.aud.rt } } : State).finish e Sts.OK [] false

def execRouteWrite (c : Cmd) (s : State) : Host.Outcome State Fault Refusal :=
  .next (submit Code.ROUTE_WRITE chkRouteWrite c s)

def chkRouteRead (c : Cmd) (_ : State) : Chk := if spanOk 4096 8 c then Chk.ok else (Sts.CMD_RANGE, [])

def applyRouteRead (e : Entry) (s : State) : State :=
  (s.hostWrite e.cmd.addr (readEntries 0 8 (e.cmd.c * 4096 + e.cmd.a) e.cmd.b s.aud.rt)).finish e Sts.OK [] false

def execRouteRead (c : Cmd) (s : State) : Host.Outcome State Fault Refusal :=
  .next (submit Code.ROUTE_READ chkRouteRead c s)

def chkRouteCommit (_ : Cmd) (s : State) : Chk :=
  let b := 1 - s.aud.rtAct
  if s.rtLocked then (Sts.ROUTE_BANK_LOCKED, [])
  else s.lostChk Tab.ROUTER (4096 * b) 4096 Sts.ROUTE_RANGE (s.routeScan (s.rtBank b) [] [] [])

/-- Start the crossfades of the slots whose source changes (R74): `f` gives the source of a slot in a bank. -/
def startFades (m : AMap Fade) (keys : List Nat) (f : Nat → Nat → Nat) (old new now t ms shape : Nat) : AMap Fade :=
  keys.foldl (fun m k =>
    if f old k = f new k then m
    else mset false m k (startFade (runFade m k now) (f old k) (f new k) t ms shape)) m

/-- The banks exchange roles (R65): input entries act at this gather, output entries at the collection of the next tick
(R66). -/
def applyRouteCommit (e : Entry) (s : State) : State :=
  let old := s.aud.rtAct
  let new := 1 - old
  let t := s.time.tick
  let ins := nub ((s.rtEntries old false ++ s.rtEntries new false).map rtSlot)
  let outs := nub ((s.rtEntries old true ++ s.rtEntries new true).map rtKey)
  ({ s with aud := { s.aud with
      rtAct := new, rtLock := 2, rtGen := e.gen, rtOutTick := t + 1,
      icFade := startFades s.aud.icFade ins s.icSrc old new t t e.cmd.rampMs e.cmd.shape,
      dstFade := startFades s.aud.dstFade outs s.dstSrc old new (t + 1) (t + 1) e.cmd.rampMs e.cmd.shape } } : State).finish
    e Sts.OK [] true

def execRouteCommit (c : Cmd) (s : State) : Host.Outcome State Fault Refusal :=
  .next (submit Code.ROUTE_COMMIT chkRouteCommit c s)

def applyRouteStatus (e : Entry) (s : State) : State :=
  s.finish e Sts.OK [s.aud.rtAct + 2 * b2n s.rtLocked, s.aud.rtGen] false

def execRouteStatus (c : Cmd) (s : State) : Host.Outcome State Fault Refusal :=
  .next (submit Code.ROUTE_STATUS chkNone c s)

/-- The Router's bank copy (R65): once every crossfade has ended and the first block has been collected. -/
def State.routeCopied (s : State) : State :=
  let t := s.time.tick
  if s.aud.rtLock = 2 ∧ s.aud.rtOutTick < t ∧ s.aud.icFade.all (fun p => p.2.ramp.done t)
      ∧ s.aud.dstFade.all (fun p => p.2.ramp.done t) then
    let s := s.wroteTab Tab.ROUTER (4096 * (1 - s.aud.rtAct)) 4096
    { s with aud := { s.aud with rt := copyBank 4096 s.aud.rtAct s.aud.rt, rtLock := 0 } }
  else s

/-! ### Gather close (R55 - R57, R62) -/

/-- Whether all four samples of the block that ends at sample n − 1 are present. -/
def present (l : List (Nat × Int)) (n : Nat) : Bool :=
  [1, 2, 3, 4].all (fun i => l.any (fun p => p.1 + i == n))

/-- Whether any of the four samples is present (R83: a slot is absent in a tick when all four are absent). -/
def presentAny (l : List (Nat × Int)) (n : Nat) : Bool :=
  [1, 2, 3, 4].any (fun i => l.any (fun p => p.1 + i == n))

/-- A block with its polarity inverted where the entry asks for it. −1.0 has no negative: that sample is open (assumption 1). -/
def State.polarity (s : State) (inv : Bool) (b : Blk) : Blk × State := if inv then s.scaleBlk b (fun _ => -1) 1 else (b, s)

/-- The block a source gives at gather close of tick g (R57): absent samples are zero, the first block present after an
absence ramps in; a converter group ramps in and out, and is silent while it settles (R59). -/
def State.srcBlk (s : State) (src g : Nat) : Blk × State :=
  let key := src / 2
  let l := mget [] s.aud.inq key
  let raw := Blk.of (fun i => ((l.find? (fun p => p.1 + 4 == 4 * g + i)).map (·.2)).getD 0)
  let grp := s.convOf (grpKey false (key / 2 ^ 32) (key / 65536 % 65536))
  let now := s.time.tick
  let (b, s) := match grp with
    | some c =>
      if c.asrc ∧ c.fade = some now then (if c.out then s.fadeOut raw else s.fadeIn raw)
      else if c.asrc ∧ !c.settled then (Blk.zero, s)
      else (raw, s)
    | none => (raw, s)
  let (b, s) := if present l (4 * g) && !present l (4 * g - 4) then s.fadeIn b else (b, s)
  s.polarity (src % 2 == 1) b

/-- IC slots that an ASRC converter group feeds, ascending (R355). -/
def State.asrcSlots (s : State) : List Nat :=
  let l := (s.rtEntries s.aud.rtAct false).filter (fun e => (s.convOf (grpKey false (rtType e) (rtInst e))).any (fun g => g.asrc))
  (List.range 1024).filter (fun k => l.any (fun e => rtSlot e == k))

/-- The source of an IC slot: a STANDBY takes the ACTIVE's ASRC outputs in place of its own (R355). -/
def State.effSrc (s : State) (k : Nat) : Nat :=
  let src := s.icSrc s.aud.rtAct k
  if k ∈ s.tw.mirIc then 2 * endKey 15 0 k + src % 2 else src

/-- What the gather of block g has missed (R344, TW_CNT.MIRROR_LOST): absent blocks by class, mirror samples that did not
come; a STANDBY without the mirror of an ASRC group becomes SUSPECT (R346). -/
def State.noteAbsent (s : State) (g : Nat) : State :=
  let ents := s.rtEntries s.aud.rtAct false
  let miss := fun (key : Nat) =>
    let l := mget [] s.aud.inq key
    ([0, 1, 2, 3].filter (fun i => !l.any (fun p => p.1 + 4 == 4 * g + i))).length
  let gone := ents.filter (fun e => miss (s.effSrc (rtSlot e) / 2) != 0)
  let up := some s.time.up
  let lost := (nub ((ents.filter (fun e => rtType e == 6)).map rtKey) ++ s.tw.mirIc.map (fun k => endKey 15 0 k)).foldl
    (fun n k => n + miss k) 0
  let s := { s with tw := { s.tw with
    sAbs := if gone.any (fun e => rtClass e == 2) then up else s.tw.sAbs,
    pbAbs := if gone.any (fun e => rtClass e != 2) then up else s.tw.pbAbs } }
  let s := if lost = 0 then s else s.fadd F.TW_CNT_MIRROR_LOST 0 lost
  if s.tw.mirIc.any (fun k => miss (endKey 15 0 k) != 0) then s.standbySuspect else s

/-- The Router closes input block g (R55, R57, R74): every source once, then every slot. -/
def State.gather (s : State) (g : Nat) : State :=
  let t := s.time.tick
  let s := s.readTab Tab.ROUTER (4096 * s.aud.rtAct) 4096
  let ents := s.rtEntries s.aud.rtAct false
  let fades := s.aud.icFade.filter (fun p => !p.2.ramp.done t)
  let slots := nub (ents.map rtSlot ++ fades.map (·.1))
  let s := s.noteAbsent g
  let srcs := nub (slots.map s.effSrc ++ fades.flatMap (fun p => p.2.new :: p.2.old.map (·.1)))
  let (bs, s) := srcs.foldl (fun (q : AMap Blk × State) k =>
    if k = 0 then q
    else
      let (b, t) := q.2.srcBlk k g
      (mput Blk.zero q.1 k b, t)) (([] : AMap Blk), s)
  let (ic, s) := slots.foldl (fun (q : AMap Blk × State) k =>
    match runFade q.2.aud.icFade k t with
    | some f =>
      let (b, u) := q.2.fadeBlk f t (fun c => mget Blk.zero bs c)
      (mput Blk.zero q.1 k b, u)
    | none => (mput Blk.zero q.1 k (mget Blk.zero bs (q.2.effSrc k)), q.2)) (([] : AMap Blk), s)
  let watch := nub ((List.range 32).flatMap s.watched)
  let s := (nub (slots ++ watch)).foldl (fun s k =>
    let c := s.icSrc s.aud.rtAct k
    if s.standby then s.notePresence k false s.time.up
    else s.notePresence k (c != 0 && presentAny (mget [] s.aud.inq (c / 2)) (4 * g))
      (s.time.up - (tickStart g - tickStart (g - 1)))) s
  let inq := (s.aud.inq.map (fun p => (p.1, p.2.filter (fun q => decide (4 * g ≤ q.1 + 4))))).filter (fun p => p.2 != [])
  { s with aud := { s.aud with ic := ic, inq := inq } }

/-- The voices take their IC slots (R61). -/
def State.voiceSlots (s : State) : State :=
  if s.fb F.SP_CTL_EN 0 then
    { s with aud := { s.aud with
        ic := (List.range 16).foldl (fun m v => mput Blk.zero m (1008 + v) (mget Blk.zero s.sp.blk v)) s.aud.ic } }
  else s

/-! ### Collection (R55, R66, R69, R75) -/

/-- The block of an OC slot (R69): silent, the matrix output, or what an insert wrote. -/
def State.ocBlk (s : State) (k : Nat) : Blk :=
  match bits (mget (0 : Word) s.aud.moWord k).toNat 15 14 with
  | 1 => mget Blk.zero s.aud.mo k
  | 2 => mget Blk.zero s.aud.ocw k
  | _ => Blk.zero

/-- The Class S content of an OC slot: all of it where an insert writes it. -/
def State.ocBlkS (s : State) (k : Nat) : Blk :=
  match bits (mget (0 : Word) s.aud.moWord k).toNat 15 14 with
  | 1 => mget Blk.zero s.aud.moS k
  | 2 => mget Blk.zero s.aud.ocw k
  | _ => Blk.zero

/-- The bank the output entries of the collected block come from (R66). -/
def State.rtOutBank (s : State) : Nat := if s.aud.rtOutTick ≤ s.time.tick then s.aud.rtAct else 1 - s.aud.rtAct

/-- A destination's block from the blocks of the OC slots, under a crossfade of its feed (R74). -/
def State.feed (s : State) (key : Nat) (blk : Nat → Blk) : Blk × State :=
  let one := fun (s : State) (src : Nat) =>
    if src < 2 then (Blk.zero, s) else s.polarity (src % 2 == 1) (blk ((src - 2) / 2))
  let t := s.time.tick
  match runFade s.aud.dstFade key t with
  | some f =>
    if t < f.ramp.start then one s (s.dstSrc s.rtOutBank key)
    else
      let (bs, s) := (nub (f.new :: f.old.map (·.1))).foldl (fun (q : AMap Blk × State) c =>
        let (b, u) := one q.2 c
        (mput Blk.zero q.1 c b, u)) (([] : AMap Blk), s)
      s.fadeBlk f t (fun c => mget Blk.zero bs c)
  | none => one s (s.dstSrc s.rtOutBank key)

/-- The drive channel of a destination key, for TYPE 7. -/
def driveOf (key : Nat) : Option Nat := if key / 2 ^ 32 = 7 then some (key % 65536) else none

/-- What the HOUT rings collect while the outputs are muted (R20): the first block after the restart ramps to silence, then
nothing. -/
def State.muteHout (s : State) : State :=
  if !s.aud.muted then s
  else if s.aud.fadeTick = s.time.tick ∧ !s.aud.fadeZ then
    let (m, s) := s.aud.outNext.foldl (fun (q : AMap Blk × State) p =>
      let (b, u) := q.2.fadeOut p.2
      (mput Blk.zero q.1 p.1 b, u)) (([] : AMap Blk), s)
    { s with aud := { s.aud with outNext := m } }
  else { s with aud := { s.aud with outNext := [] } }

/-- The Router collects the OC block for the next tick (R55): Class S first; each stage then holds its block. -/
def State.collect (s : State) : State :=
  let keys := nub ((s.rtEntries s.rtOutBank true).map rtKey ++ (s.aud.dstFade.filter (fun p => !p.2.ramp.done s.time.tick)).map (·.1))
  let slots := nub ((s.aud.mo.map (·.1)).filter (fun k => decide (k < 1024)) ++ s.aud.ocw.map (·.1))
  let s := { s with aud := { s.aud with
      oc := slots.foldl (fun m k => mput Blk.zero m k (s.ocBlk k)) [], outNext := [], outNextS := [], outNextZ := [] } }
  let s := keys.foldl (fun s key =>
    let (b, s) := s.feed key s.ocBlk
    let s := { s with aud := { s.aud with outNext := mput Blk.zero s.aud.outNext key b } }
    match driveOf key with
    | none => s
    | some _ =>
      let (b, s) := s.feed key s.ocBlkS
      let s := { s with aud := { s.aud with outNextS := mput Blk.zero s.aud.outNextS key b } }
      if (s.dstSrc s.rtOutBank key - 2) / 2 < 192 ∧ s.aud.moZ ≠ [] then
        let (b, s) := s.feed key (fun k => mget Blk.zero s.aud.moZ k)
        { s with aud := { s.aud with outNextZ := mput Blk.zero s.aud.outNextZ key b } }
      else s) s
  let full := s.aud.outNext
  let s := s.muteHout
  let s := s.houtCollect (tickAt s.now + 1)
  { s with aud := { s.aud with outNext := full, collTick := s.time.tick + 1 } }

/-- D, the deadline of the units, in ns after the tick start (R140). -/
def State.deadlineNs (s : State) : Nat := s.fg F.UNIT_TICK_DEADLINE_D 0 * 100

/-- OUTPUT_COLLECTION (R55): from T + D, once a tick. -/
def execOutputCollection (dt : Nat) (s : State) : Host.Outcome State Fault Refusal :=
  let s := s.elapse dt
  .next (if s.aud.collTick = s.time.tick + 1 ∨ s.now < tickStart (tickAt s.now) + s.deadlineNs then s else s.collect)

/-! ### The output stage (R20, R21, R55, R214, R365, R380) -/

/-- Whether a gate lets a destination through: 1 closes the drive channels (QUIET), 2 leaves only those fed from OC0 - OC191
(STANDBY), 3 closes all. -/
def State.gateOpen (s : State) (gate key : Nat) : Bool :=
  if gate = 0 then true
  else if gate = 1 then (driveOf key).isNone
  else if gate = 2 then
    (driveOf key).isSome && (let f := s.dstSrc s.aud.rtAct key; decide (2 ≤ f) && decide ((f - 2) / 2 < 192))
  else false

/-- Change the gate at the present boundary: the outputs concerned ramp over this tick (R380). -/
def State.setGate (s : State) (g : Nat) : State :=
  if s.aud.gate = g then s
  else { s with aud := { s.aud with gate := g, gateOld := s.aud.gate, gateTick := s.time.tick } }

/-- Before the first release after power-up the zones alone reach the drive channels (R365). -/
def State.voiceOnly (s : State) : Bool := s.aud.muted && s.time.first && s.fb F.SP_STAT_READY 0

/-- A channel whose Class P and B content a sweep mutes (R214): S + (x − S)·g. -/
def State.sweepMuted (s : State) (key : Nat) (b : Blk) : Blk × State :=
  match (driveOf key).bind (mfind s.drv.mute) with
  | none => (b, s)
  | some r =>
    let c := mget Blk.zero s.aud.outNextS key
    s.blk (fun i s => s.q31 (c.at i * 1048576 + (b.at i - c.at i) * r.atTick s.time.tick i) 1048576)

/-- The output stages start on the block collected in the tick before. Drive channels take theirs into the delay line; their mute and
gate act behind it (R184). -/
def State.playBlock (s : State) : State :=
  let t := s.time.tick
  let a := s.aud
  let pass := fun (s : State) (key : Nat) (b : Blk) =>
    let was := s.gateOpen (if a.gateTick = t then a.gateOld else a.gate) key
    let is := s.gateOpen a.gate key
    if was && is then (b, s) else if was then s.fadeOut b else if is && a.gateTick == t then s.fadeIn b
    else if is then (b, s) else (Blk.zero, s)
  let src := if (s.voiceOnly && a.fadeTick != t) || (a.fadeTick == t && a.fadeZ) then a.outNextZ else a.outNext
  let (out, s) := src.foldl (fun (q : AMap Blk × State) p =>
    let (b, u) := q.2.sweepMuted p.1 p.2
    if s.level = 4 then q
    else if (driveOf p.1).isSome then (mput Blk.zero q.1 p.1 b, u)
    else if a.muted ∧ a.fadeTick ≠ t ∧ !s.voiceOnly then q
    else
      let (b, u) := pass u p.1 b
      let (b, u) := if a.muted ∧ a.fadeTick = t then u.fadeOut b else (b, u)
      (mput Blk.zero q.1 p.1 b, u)) (([] : AMap Blk), s)
  ({ s with aud := { s.aud with outq := out, outNext := [], outNextS := [], outNextZ := [] } } : State).tdmConvert

end Sys2Proof.Machine
end

