-- ==== Sys2Proof/Machine/Matrix.lean ====
section
/-! DEFINITION. The matrix (R66 - R76): input map, crosspoints and output words in two banks, ramps and crossfades, the group
processing of the tiles and the cutoff. A tile's group cycles are reckoned at 1 cycle per nanosecond. -/

namespace Sys2Proof.Machine

/-! ### Banks -/

/-- Keys of the input map, of crosspoints, of output words and of crosspoint ramps. -/
def mapKey (b mi : Nat) : Nat := b * 1024 + mi
def xpKey (b c i : Nat) : Nat := (b * 24 + c) * 49152 + i
def owKey (b m : Nat) : Nat := b * 1152 + m
def rampKey (c i : Nat) : Nat := c * 49152 + i

/-- Active bank of a tile (CL_MIX_STAT.ACTIVE). -/
def State.tileAct (s : State) (c : Nat) : Nat := s.fg F.CL_MIX_STAT_ACTIVE c

/-- The output word in force at a matrix output. -/
def State.owAct (s : State) (m : Nat) : Nat := (mget (0 : Word) s.aud.ow (owKey (s.tileAct (m / 48)) m)).toNat
def owClass (w : Nat) : Nat := bits w 31 30
def owZen (w : Nat) : Bool := w.testBit 29
def owZone (w : Nat) : Nat := bits w 28 24
def owSrc (w : Nat) : Nat := bits w 15 14

/-- GAIN of a crosspoint word (R68). -/
def xpGain (w : Word) : Int := sext 24 w.toNat

/-- The crosspoints of a bank of a tile listed in [lo, lo + n): (index, word). -/
def State.xpRange (s : State) (b c lo n : Nat) : List (Nat × Word) :=
  (s.aud.xp.filter (fun p => decide (xpKey b c lo ≤ p.1) && decide (p.1 < xpKey b c (lo + n)))).map
    (fun p => (p.1 - xpKey b c 0, p.2))

/-- The ramps of a tile that run at tick t among crosspoints [lo, lo + n). -/
def State.xpRamps (s : State) (c lo n t : Nat) : List Nat :=
  (s.aud.xpRamp.filter (fun p => decide (rampKey c lo ≤ p.1) && decide (p.1 < rampKey c (lo + n)) && !p.2.done t)).map
    (fun p => p.1 - rampKey c 0)

/-- The source a map entry names: KIND and, where it counts, INDEX (R67). -/
def mapSrc (e : Nat) : Nat :=
  match bits e 15 14 with
  | 0 => 0
  | 3 => 49152
  | k => k * 16384 + e % 1024

/-- The source of a matrix input in a bank; MI1008 - MI1023 are fixed while SP_CTL.EN = 1 (R67). An entry in an uncorrectable word
is silent (R316). -/
def State.miSrc (s : State) (b mi : Nat) : Nat :=
  if s.spSlot mi then 16384 + mi
  else if s.lost Tab.MAP (mapKey b mi) then 0
  else mapSrc (mget 0 s.aud.map (mapKey b mi))

/-- Programs that write a matrix input of KIND 3. -/
def State.miWriters (s : State) (mi : Nat) : List UProg :=
  s.eng.units.filterMap (fun p => p.2.prog.filter (fun x => x.binds.any (fun b => b.kind == 4 && b.index == mi)))

/-- Class of a matrix input (R67): that of its IC slot, aux bus or insert. -/
def State.miClass (s : State) (mi : Nat) : Nat :=
  let c := s.miSrc s.aud.mapAct mi
  if c = 0 then 0
  else if c = 49152 then (match s.miWriters mi with | x :: _ => x.cls | [] => 0)
  else if c / 16384 = 1 then s.icClass (c % 1024)
  else owClass (s.owAct (1024 + c % 1024))

/-! ### The budget of a tile (R70, R144) -/

/-- Ascending insertion. -/
def insertNat (k : Nat) : List Nat → List Nat
  | [] => [k]
  | h :: t => if k ≤ h then k :: h :: t else h :: insertNat k t

/-- The cycle, from T + 3.0 µs, at which a tile ends its groups: `skips` cycles first, then each group in the order in which
it becomes available. -/
def finishAt (skips : Nat) (avail : List Nat) : Nat :=
  (avail.foldl (fun l a => insertNat a l) []).foldl (fun t a => max t a + 768) skips

/-- Cycle at which a matrix input of bank b is available under the declared budgets; `extra` is a program about to be
loaded in place of a unit's. -/
def State.miReady (s : State) (b : Nat) (extra : Option (Nat × UProg)) (mi : Nat) : Nat :=
  if s.miSrc b mi ≠ 49152 then 0
  else
    let has := fun (x : UProg) => x.binds.any (fun y => y.kind == 4 && y.index == mi)
    let own := (s.eng.units.filter (fun p => !(extra.any (fun e => e.1 == p.1)))).filterMap (fun p => p.2.prog)
    (own ++ (extra.map (·.2)).toList).foldl (fun n x => if has x then max n x.local_ else n) 0

/-- Whether a group of a tile is to be skipped: its crosspoints are zero in both banks and none ramps (R70). -/
def State.grpIdle (s : State) (c q : Nat) : Bool :=
  (s.xpRange 0 c (1536 * q) 1536).isEmpty && (s.xpRange 1 c (1536 * q) 1536).isEmpty
    && (s.xpRamps c (1536 * q) 1536 s.time.tick).isEmpty

/-- The check of R70 at a commit, for every tile that mixes: `b` is the map bank and `ctl` the CL_MIX_CTL word of a tile. -/
def State.tilesFit (s : State) (b : Nat) (ctl : Nat → Nat) (extra : Option (Nat × UProg)) : Bool :=
  (List.range 24).all (fun c =>
    if !(ctl c).testBit 0 then true
    else
      let skip := fun q => (ctl c).testBit 1 && s.grpIdle c q
      let run := (List.range 32).filter (fun q => !skip q)
      let avail := run.map (fun q => (List.range 32).foldl (fun n i => max n (s.miReady b extra (32 * q + i))) 0)
      decide (finishAt (32 - run.length) avail + 1536 ≤ 38647))

/-! ### Commands -/

/-- Whether a matrix commit is armed, and whether the banks are locked (R64, R65, R73). -/
def State.mxArmed (s : State) : Bool := s.armedAny Code.XP_COMMIT
def State.mxLocked (s : State) : Bool := s.aud.mxLock != 0 || s.mxArmed

/-- Section and tile mask of XP_WRITE; items and bytes per item of a section (R286). -/
def xpSec (c : Cmd) : Nat := bits c.c 25 24
def secSize (sec : Nat) : Nat := if sec = 0 then 49152 else if sec = 1 then 48 else 1024
def secBytes (sec : Nat) : Nat := if sec = 2 then 2 else 4

/-- Tiles CL4 - CL23 in a mask. -/
def farTiles (m : Nat) : Bool := m % 2 ^ 24 / 16 != 0

def chkXpWrite (c : Cmd) (s : State) : Chk :=
  let sec := xpSec c
  if sec = 3 ∨ !spanOk (secSize sec) (secBytes sec) c then (Sts.CMD_RANGE, [])
  else if s.mxLocked then (Sts.XP_BANK_LOCKED, [])
  else s.pwrChk (sec != 2 && farTiles c.c) Chk.ok

/-- Write items of a section into the inactive banks. -/
def State.xpPut (s : State) (sec mask first n : Nat) (buf : List Byte) : State :=
  if sec = 2 then
    let s := s.wroteTab Tab.MAP (mapKey (1 - s.aud.mapAct) first) n
    { s with aud := { s.aud with map := writeEntries 0 2 (mapKey (1 - s.aud.mapAct) first) buf n s.aud.map } }
  else
    let word := fun i => BitVec.ofNat 32 (leAt buf (4 * i) 4)
    (bitList 24 mask).foldl (fun s c =>
      let b := 1 - s.tileAct c
      let s := if sec = 0 then s.wroteTab Tab.XP (xpKey b c first) n else s.wroteTab Tab.OUT (owKey b (48 * c + first)) n
      (List.range n).foldl (fun (s : State) i =>
        if sec = 0 then { s with aud := { s.aud with xp := mput 0 s.aud.xp (xpKey b c (first + i)) (word i) } }
        else { s with aud := { s.aud with ow := mput 0 s.aud.ow (owKey b (48 * c + first + i)) (word i) } }) s) s

def applyXpWrite (e : Entry) (s : State) : State :=
  let k := chkXpWrite e.cmd s
  if k.1 ≠ Sts.OK then s.finish e k.1 k.2 false
  else (s.xpPut (xpSec e.cmd) (e.cmd.c % 2 ^ 24) e.cmd.a e.cmd.b e.cmd.buf).finish e Sts.OK [] false

def execXpWrite (c : Cmd) (s : State) : Host.Outcome State Fault Refusal := .next (submit Code.XP_WRITE chkXpWrite c s)

def chkXpRead (c : Cmd) (s : State) : Chk :=
  let sec := xpSec c
  let t := c.c % 32
  if sec = 3 ∨ !spanOk (secSize sec) (secBytes sec) c ∨ (sec ≠ 2 ∧ 24 ≤ t) then (Sts.CMD_RANGE, [])
  else s.pwrChk (sec != 2 && decide (4 ≤ t)) Chk.ok

def applyXpRead (e : Entry) (s : State) : State :=
  let k := chkXpRead e.cmd s
  if k.1 ≠ Sts.OK then s.finish e k.1 k.2 false
  else
    let b := b2n (e.cmd.c.testBit 8)
    let t := e.cmd.c % 32
    let sec := xpSec e.cmd
    let out := if sec = 2 then readEntries 0 2 (mapKey b e.cmd.a) e.cmd.b s.aud.map
      else (List.range e.cmd.b).flatMap (fun i =>
        leBytes 4 (if sec = 0 then mget (0 : Word) s.aud.xp (xpKey b t (e.cmd.a + i))
          else mget (0 : Word) s.aud.ow (owKey b (48 * t + e.cmd.a + i))).toNat)
    (s.hostWrite e.cmd.addr out).finish e Sts.OK [] false

def execXpRead (c : Cmd) (s : State) : Host.Outcome State Fault Refusal := .next (submit Code.XP_READ chkXpRead c s)

/-- A map entry of R67 and an output word of R69. -/
def mapOk (e : Nat) : Bool := bits e 13 10 == 0 && (bits e 15 14 != 2 || decide (e % 1024 < 128))
def owOk (m w : Nat) : Bool :=
  owClass w != 3 && bits w 23 16 == 0 && bits w 13 0 == 0 && owSrc w != 3 && (decide (m < 1024) || owSrc w == 0)

/-- The first offending entry of the input map, then of each named tile (R277). -/
def State.mapScan (s : State) : Option Chk :=
  let b := 1 - s.aud.mapAct
  let bad := (s.aud.map.filter (fun p => p.1 / 1024 == b)).findSome? (fun p =>
    let mi := p.1 % 1024
    if !mapOk p.2 then some (Sts.XP_RANGE, [mi])
    else if s.spSlot mi then some (Sts.XP_CONFLICT, [mi])
    else none)
  let k := s.lostChk Tab.MAP (mapKey b 0) 1024 Sts.XP_RANGE (bad.getD Chk.ok)
  if k.1 = Sts.OK then none else some (k.1, k.2 ++ [2 * 2 ^ 24])

def State.tileScan (s : State) (c : Nat) : Option Chk :=
  let b := 1 - s.tileAct c
  let bad := fun (x : Option Nat) => match x with
    | some i => (Sts.XP_RANGE, [i])
    | none => Chk.ok
  let w := s.lostChk Tab.OUT (owKey b (48 * c)) 48 Sts.XP_RANGE
    (bad ((List.range 48).find? (fun o => !owOk (48 * c + o) (mget (0 : Word) s.aud.ow (owKey b (48 * c + o))).toNat)))
  let x := s.lostChk Tab.XP (xpKey b c 0) 49152 Sts.XP_RANGE
    (bad (((s.xpRange b c 0 49152).find? (fun p => p.2.toNat / 2 ^ 24 != 0)).map (·.1)))
  if w.1 ≠ Sts.OK then some (w.1, w.2 ++ [2 ^ 24 + c]) else if x.1 ≠ Sts.OK then some (x.1, x.2 ++ [c]) else none

/-- Matrix inputs whose source a commit of the inactive map changes (R74). -/
def State.miMoved (s : State) : List Nat :=
  (nub (s.aud.map.map (fun p => p.1 % 1024))).filter (fun mi => s.miSrc 0 mi != s.miSrc 1 mi)

/-- The CL_MIX_CTL word a tile has after a commit. -/
def State.mixCtlAfter (s : State) (c : Cmd) (t : Nat) : Nat :=
  if c.c.testBit 0 ∧ c.a.testBit t then c.i0 else (s.rr .CL_MIX_CTL t).toNat

def chkXpCommit (c : Cmd) (s : State) : Chk :=
  if s.mxLocked then (Sts.XP_BANK_LOCKED, [])
  else if c.c = 1 ∧ (!imgOk .CL_MIX_CTL c.i0 ∨ c.i0 / 4 ≠ 0) then (Sts.XP_RANGE, [])
  else s.pwrChk (farTiles c.a)
    (match s.mapScan with
    | some k => k
    | none =>
      match (bitList 24 c.a).findSome? s.tileScan with
      | some k => k
      | none =>
        if 64 < s.miMoved.length then (Sts.XP_XFADE_LIMIT, [])
        else if !s.tilesFit (1 - s.aud.mapAct) (s.mixCtlAfter c) none then (Sts.XP_BUDGET, [])
        else Chk.ok)

/-- The gain of a crosspoint last computed before tick t: where a new ramp starts (R72). -/
def State.xpLast (s : State) (c i : Nat) (w : Word) (t : Nat) : Int :=
  match mfind s.aud.xpRamp (rampKey c i) with
  | some r => r.last t
  | none => xpGain w

/-- Ramp a crosspoint to a new gain from tick t (R71, R72). -/
def State.xpRampTo (s : State) (c i : Nat) (w : Word) (g1 : Int) (t ms shape : Nat) : State :=
  { s with aud := { s.aud with
      xpRamp := mset false s.aud.xpRamp (rampKey c i) ⟨s.xpLast c i w t, g1, t, rampN ms, shape⟩ } }

/-- A tile swaps its banks (R65, R71): every crosspoint that changes ramps. -/
def State.tileSwap (s : State) (c ms shape : Nat) : State :=
  let old := s.tileAct c
  let new := 1 - old
  let t := s.time.tick
  let idx := nub ((s.xpRange old c 0 49152 ++ s.xpRange new c 0 49152).map (·.1))
  let s := idx.foldl (fun (s : State) i =>
    let w0 := mget 0 s.aud.xp (xpKey old c i)
    let w1 := mget 0 s.aud.xp (xpKey new c i)
    if w0 = w1 then s else s.xpRampTo c i w0 (xpGain w1) t ms shape) s
  s.fs F.CL_MIX_STAT_ACTIVE c new

/-- CL_MIX_STAT of every tile: ARMED, RAMPING, COPYING. -/
def State.showMix (s : State) : State :=
  let t := s.time.tick
  let armed := (s.sched ++ s.dueNext).foldl (fun m e => if e.code = Code.XP_COMMIT then m ||| e.cmd.a else m) 0
  let fading := s.aud.miFade.any (fun p => !p.2.ramp.done t)
  (List.range 24).foldl (fun s c =>
    let run := fading || !(s.xpRamps c 0 49152 t).isEmpty
    let copy := s.aud.mxLock == 2 && s.aud.mxMask.testBit c && !run && decide (s.aud.mxTick < t)
    let v := s.fg F.CL_MIX_STAT_ACTIVE c + 2 * b2n (armed.testBit c) + 4 * b2n run + 8 * b2n copy
    if (s.rr .CL_MIX_STAT c).toNat % 16 = v then s
    else ((s.fs F.CL_MIX_STAT_ARMED c (b2n (armed.testBit c))).fs F.CL_MIX_STAT_RAMPING c (b2n run)).fs F.CL_MIX_STAT_COPYING c
      (b2n copy)) s

/-- XP_COMMIT at its boundary (R65, R66, R71, R74). -/
def applyXpCommit (e : Entry) (s : State) : State :=
  let t := s.time.tick
  let moved := s.miMoved
  let old := s.aud.mapAct
  let s := (bitList 24 e.cmd.a).foldl (fun s c =>
    let s := s.tileSwap c e.cmd.rampMs e.cmd.shape
    if e.cmd.c = 1 then s.imgWrite .CL_MIX_CTL c e.cmd.i0 else s) s
  let s := { s with aud := { s.aud with
      miFade := startFades s.aud.miFade moved s.miSrc old (1 - old) t t e.cmd.rampMs e.cmd.shape,
      mapAct := 1 - old, mxLock := 2, mxMask := e.cmd.a, mxTick := t } }
  s.showMix.finish e Sts.OK [] true

def execXpCommit (c : Cmd) (s : State) : Host.Outcome State Fault Refusal :=
  .next (submit Code.XP_COMMIT chkXpCommit c s).showMix

/-- The entries of XP_SET (R286): index, crosspoint word, and whether the entry is in range. -/
def xpSetEntries (c : Cmd) : List (Nat × Word × Bool) :=
  (List.range (c.len / 8)).map (fun i =>
    let w := leAt c.buf (8 * i) 8
    (48 * (w % 65536) + bits w 23 16, BitVec.ofNat 32 (w / 2 ^ 32),
      decide (w % 65536 < 1024) && decide (bits w 23 16 < 48) && bits w 31 24 == 0 && w / 2 ^ 56 == 0))

def chkXpSet (c : Cmd) (s : State) : Chk :=
  if 24 ≤ c.a ∨ c.len = 0 ∨ c.len % 8 ≠ 0 ∨ 128 < c.len then (Sts.CMD_RANGE, [])
  else if !(xpSetEntries c).all (fun e => e.2.2) then (Sts.XP_RANGE, [])
  else if s.mxArmed then (Sts.XP_BANK_LOCKED, [])
  else s.pwrChk (decide (4 ≤ c.a)) Chk.ok

/-- Write the gains into both banks and ramp them from the present boundary (R73). -/
def State.xpSetNow (s : State) (e : Entry) : State :=
  let c := e.cmd.a
  let t := s.time.tick
  let s := (xpSetEntries e.cmd).foldl (fun (s : State) x =>
    let s := s.xpRampTo c x.1 (mget 0 s.aud.xp (xpKey (s.tileAct c) c x.1)) (xpGain x.2.1) t e.cmd.rampMs e.cmd.shape
    let s := (s.wroteTab Tab.XP (xpKey 0 c x.1) 1).wroteTab Tab.XP (xpKey 1 c x.1) 1
    { s with aud := { s.aud with
        xp := mput 0 (mput 0 s.aud.xp (xpKey 0 c x.1) x.2.1) (xpKey 1 c x.1) x.2.1 } }) s
  s.finish e Sts.OK [] true

/-- XP_SET at its boundary: held from the swap of a commit to the end of the copy (R73). -/
def applyXpSet (e : Entry) (s : State) : State :=
  let k := chkXpSet e.cmd s
  if k.1 ≠ Sts.OK then s.finish e k.1 k.2 false
  else if s.aud.mxLock ≠ 0 ∨ s.aud.held ≠ [] then { s with aud := { s.aud with held := s.aud.held ++ [e] } }
  else s.xpSetNow e

def execXpSet (c : Cmd) (s : State) : Host.Outcome State Fault Refusal := .next (submit Code.XP_SET chkXpSet c s)

/-- XP_SET_HELD_APPLY (R73): at the first tick boundary after the copy. -/
def execXpSetHeldApply (s : State) : Host.Outcome State Fault Refusal :=
  .next (if s.aud.mxLock ≠ 0 ∨ s.now ≠ tickStart (tickAt s.now) then s
    else s.aud.held.foldl State.xpSetNow { s with aud := { s.aud with held := [] } })

/-- The matrix bank copy (R65): once every ramp and crossfade has ended and block k has left the mix. -/
def State.matrixCopied (s : State) : State :=
  let t := s.time.tick
  if s.aud.mxLock = 2 ∧ s.aud.mxTick < t ∧ s.aud.miFade.all (fun p => p.2.ramp.done t)
      ∧ (bitList 24 s.aud.mxMask).all (fun c => (s.xpRamps c 0 49152 t).isEmpty) then
    let s := (bitList 24 s.aud.mxMask).foldl (fun (s : State) c =>
      let b := s.tileAct c
      let s := (s.wroteTab Tab.XP (xpKey (1 - b) c 0) 49152).wroteTab Tab.OUT (owKey (1 - b) (48 * c)) 48
      { s with aud := { s.aud with
          xp := copyRange (xpKey b c 0) (xpKey (1 - b) c 0) 49152 s.aud.xp,
          ow := copyRange (owKey b (48 * c)) (owKey (1 - b) (48 * c)) 48 s.aud.ow } }) s
    let s := s.wroteTab Tab.MAP (mapKey (1 - s.aud.mapAct) 0) 1024
    { s with aud := { s.aud with map := copyBank 1024 s.aud.mapAct s.aud.map, mxLock := 0 } }.showMix
  else s

/-! ### The mix (R67, R70, R74) -/

/-- The block a source gives a matrix input. -/
def State.miOf (s : State) (mi src : Nat) : Blk :=
  if s.standby then Blk.zero
  else if src = 0 then Blk.zero
  else if src = 49152 then mget Blk.zero s.aud.k3 mi
  else if src / 16384 = 1 then mget Blk.zero s.aud.ic (src % 1024)
  else mget Blk.zero s.aud.ab (src % 1024)

/-- Whether a matrix input takes a block of KIND 3, alone or in a crossfade. -/
def State.miIsK3 (s : State) (mi : Nat) : Bool :=
  s.miSrc s.aud.mapAct mi == 49152
    || (match runFade s.aud.miFade mi s.time.tick with
      | some f => f.new == 49152 || f.old.any (fun p => p.1 == 49152)
      | none => false)

/-- The tiles read their input map, output words and crosspoints for a block (R316). -/
def State.readTiles (s : State) : State :=
  if s.integ.errs = [] then s
  else (List.range 24).foldl (fun s c =>
    let b := s.tileAct c
    (s.readTab Tab.XP (xpKey b c 0) 49152).readTab Tab.OUT (owKey b (48 * c)) 48) (s.readTab Tab.MAP (mapKey s.aud.mapAct 0) 1024)

/-- Form the block of a matrix input (R74). -/
def State.formMi (s : State) (mi : Nat) : State :=
  let t := s.time.tick
  let (b, s) := match runFade s.aud.miFade mi t with
    | some f => s.fadeBlk f t (s.miOf mi)
    | none => (s.miOf mi (s.miSrc s.aud.mapAct mi), s)
  { s with aud := { s.aud with mi := mput Blk.zero s.aud.mi mi b } }

/-- The matrix-input block of the tick (R55): all inputs but those of KIND 3. -/
def State.formMis (s : State) : State :=
  let l := nub ((s.aud.map.map (fun p => p.1 % 1024)) ++ s.aud.miFade.map (·.1)
    ++ (if s.fb F.SP_CTL_EN 0 then (List.range 16).map (1008 + ·) else []))
  let s := s.readTiles
  (l.filter (fun mi => !s.miIsK3 mi)).foldl State.formMi { s with aud := { s.aud with mi := [], miK := [] } }

/-- Whether a matrix input has been delivered at T + 3.0 µs or since (R70). -/
def State.miAvail (s : State) (mi : Nat) : Bool :=
  !s.miIsK3 mi || mi ∈ s.aud.k3done || (s.miWriters mi).isEmpty

/-- Whether a tile mixes in the present tick (R69, R87, R92). -/
def State.tileMixes (s : State) (c : Nat) : Bool :=
  s.fb F.CL_MIX_CTL_EN c && !(s.standby && decide (4 ≤ c)) && s.pwr != 3
    && (s.fg F.CL_STAT_STATE c == 1
      || (match mfind s.eng.clRst c with
        | some x => x.loaded && decide (x.tick + 10 ≤ s.time.tick)
        | none => false))

/-- The groups a tile skips, at one cycle each. -/
def State.tileSkips (s : State) (c : Nat) : List Nat :=
  if s.fb F.CL_MIX_CTL_SKIP c then (List.range 32).filter (s.grpIdle c) else []

/-- The group a tile takes next: available, Class S first, then ascending. -/
def State.nextGroup (s : State) (c : Nat) : Option Nat :=
  let mask := mget 0 s.aud.grp c
  let skips := s.tileSkips c
  let l := (List.range 32).filter (fun q =>
    !mask.testBit q && !(q ∈ skips) && (List.range 32).all (fun i => s.miAvail (32 * q + i)))
  match l.find? (fun q => (List.range 32).any (fun i => s.miClass (32 * q + i) == 2)) with
  | some q => some q
  | none => l.head?

/-- Gain of crosspoint i of a tile for sample n of the present tick: 0 where its word is uncorrectable (R316). -/
def State.xpAt (s : State) (c i n : Nat) : Int :=
  if s.lost Tab.XP (xpKey (s.tileAct c) c i) then 0
  else match mfind s.aud.xpRamp (rampKey c i) with
  | some r => r.atTick s.time.tick n
  | none => xpGain (mget 0 s.aud.xp (xpKey (s.tileAct c) c i))

/-- Accumulate a group (R70): the Class S inputs into sums of their own (R84). -/
def State.mixGroup (s : State) (c q : Nat) : State :=
  let s := ((List.range 32).map (32 * q + ·)).foldl (fun (s : State) mi =>
    if s.miIsK3 mi && !(mi ∈ s.aud.miK) then
      let s := s.formMi mi
      { s with aud := { s.aud with miK := mi :: s.aud.miK } }
    else s) s
  let idx := nub ((s.xpRange (s.tileAct c) c (1536 * q) 1536).map (·.1) ++ s.xpRamps c (1536 * q) 1536 s.time.tick)
  let acc := idx.foldl (fun acc i =>
    let b := mget Blk.zero s.aud.mi (i / 48)
    let k := ((48 * c + i % 48) * 2 + b2n (s.miClass (i / 48) == 2)) * 4
    (List.range 4).foldl (fun acc n => mmod 0 acc (k + n) (· + s.xpAt c i n * b.at n)) acc) s.aud.acc
  { s with aud := { s.aud with acc := acc, grp := mmod 0 s.aud.grp c (fun m => setBit m q true) } }

/-- TILE_GROUP_PROCESS (R70): tile c takes its next group when its 768 cycles end before the cutoff. -/
def execTileGroupProcess (c dt : Nat) (s : State) : Host.Outcome State Fault Refusal :=
  let s := s.elapse dt
  let t0 := tickStart (tickAt s.now) + 3000
  .next (if 24 ≤ c ∨ !s.tileMixes c ∨ s.now < t0 then s
    else
      match s.nextGroup c with
      | none => s
      | some q =>
        let used := max (max (s.tileSkips c).length (mget 0 s.aud.cyc c)) (s.now - t0) + 768
        if s.time.next - t0 < used then s
        else
          let s := s.mixGroup c q
          { s with aud := { s.aud with cyc := mput 0 s.aud.cyc c used } })

/-! ### The tile cutoff (R55, R70, R84) -/

/-- The zones that act on the mix: they hold a voice, or one leaves, or their duck ramps. -/
def State.zonesOn (s : State) : List Nat :=
  (List.range 32).filter (fun z => let x := s.zone z; x.voice.isSome || x.vGain.isSome || x.duck.isSome)

/-- The last block of a matrix output from its sums, for tick t: Class P and B under the duck, Class S, the zone's voice. -/
def State.outBlk (s : State) (m t : Nat) : Blk × Blk × Blk × State :=
  let w := s.owAct m
  let zone := if owZen w then some (owZone w) else none
  let sum := fun (k i : Nat) => mget (0 : Int) s.aud.acc ((m * 2 + k) * 4 + i)
  let duck := fun i => match zone with
    | some z => s.duckAt z t i
    | none => 1048576
  let add := fun i => match zone with
    | some z => s.zoneAdd z t i
    | none => 0
  let (a, s) := s.blk (fun i s => s.q31 (sum 0 i * duck i + sum 1 i * 1048576 + add i) (2 ^ 40))
  let (b, s) := if (List.range 4).all (fun i => sum 0 i == 0) then (a, s)
    else s.blk (fun i s => s.q31 (sum 1 i * 1048576 + add i) (2 ^ 40))
  let (z, s) := if (List.range 4).all (fun i => add i == 0) then (Blk.zero, s)
    else s.blk (fun i s => s.q31 (add i) (2 ^ 40))
  (a, b, z, s)

/-- How a tile's outputs leave the cutoff: 0 silent, 1 as they are, 2 ramped in (R92). -/
def State.tileOut (s : State) (c : Nat) : Nat :=
  match mfind s.eng.clRst c with
  | some x => if s.time.tick < x.tick + 11 ∨ !x.loaded then 0 else if s.time.tick = x.tick + 11 then 2 else 1
  | none => if s.fg F.CL_STAT_STATE c = 1 then 1 else 0

/-- Count the groups of a tile cut off, and show its cycles (R70). -/
def State.cutTile (s : State) (c : Nat) : State :=
  let skips := s.tileSkips c
  let mask := mget 0 s.aud.grp c
  let done := ((bitList 32 mask).filter (fun q => !(q ∈ skips))).length
  let last := max skips.length (mget 0 s.aud.cyc c)
  let s := (s.fs F.CL_MIX_STAT_GROUPS c done).fs F.CL_MIX_CYC_LAST c (satU 16 last)
  let s := s.fs F.CL_MIX_CYC_PEAK c (max (satU 16 last) (s.fg F.CL_MIX_CYC_PEAK c))
  (List.range (32 - done - skips.length)).foldl (fun s _ => (s.fadd F.CL_MIX_MISS_MISS c 1).det 0x22 (c / 4) c 0 0) s

/-- The end of the mix (R55): the tiles that mixed, and their counts. -/
def State.cutTiles (s : State) : List Nat × State :=
  let l := (List.range 24).filter s.tileMixes
  (l, l.foldl State.cutTile s)

/-- The tile cutoff (R55): matrix outputs become final, aux busses become inputs; an output whose word is uncorrectable is silent
(R316). `mixed` are the tiles that mixed in the tick that ends; the count of ticks already names the new one. -/
def State.cutoff (s : State) (mixed : List Nat) : State :=
  let t := s.time.tick - 1
  let zoned := (s.aud.ow.filter (fun p => owZen p.2.toNat && s.zonesOn.contains (owZone p.2.toNat))).map (fun p => p.1 % 1152)
  let outs := nub ((s.aud.acc.map (fun p => p.1 / 8)) ++ zoned)
  let clear := { s with aud := { s.aud with mo := [], moS := [], moZ := [] } }
  let s := outs.foldl (fun s m =>
    let how := s.tileOut (m / 48)
    if how = 0 ∨ !(m / 48 ∈ mixed) ∨ s.lost Tab.OUT (owKey (s.tileAct (m / 48)) m) then s
    else
      let (a, b, z, s) := s.outBlk m t
      let (a, s) := if how = 2 then s.fadeIn a else (a, s)
      let (b, s) := if how = 2 then s.fadeIn b else (b, s)
      { s with aud := { s.aud with
          mo := mput Blk.zero s.aud.mo m a, moS := mput Blk.zero s.aud.moS m b,
          moZ := if m < 192 then mput Blk.zero s.aud.moZ m z else s.aud.moZ } }) clear
  let words := (s.aud.ow.filter (fun p => p.1 / 1152 == s.tileAct (p.1 % 1152 / 48) && !s.lost Tab.OUT p.1)).map
    (fun p => (p.1 % 1152, p.2))
  let words := words.foldl (fun m p => mput (0 : Word) m p.1 p.2) []
  { s with aud := { s.aud with
      moWord := words,
      ab := (s.aud.mo.filter (fun p => decide (1024 ≤ p.1))).map (fun p => (p.1 - 1024, p.2)),
      acc := [], grp := [], cyc := [], k3 := [], k3done := [], ocw := [] } }

end Sys2Proof.Machine
end

