-- ==== Sys2Proof/Machine/UnitExec.lean ====
section
/-! DEFINITION. What a Jalob instruction does when a unit issues it (R128 - R130, R134, R139, R147 - R166). -/

namespace Sys2Proof.Machine

/-! ### Arithmetic instructions -/

/-- Register-form ALU (R153): result seen by i + 1, flags set in EX. -/
def UCore.alu (c : UCore) (op : AluOp) (d a b : Nat) : UCore :=
  let r := aluRes op (c.dr a) (c.dr b)
  (if op = .cmp then c else c.wd d r.val 1).wfEx r.mask r.bits

/-- Immediate-form ALU (R154). -/
def UCore.alui (c : UCore) (op : ImmOp) (d a v : Nat) : UCore :=
  let r := immRes op (c.dr a) (c.dr d) v
  (if op = .cmpi then c else c.wd d r.val 1).wfEx r.mask r.bits

/-- The value an ALDH completes: the latest write of the register, seen or pending. -/
def UCore.crLate (c : UCore) (code : Nat) : Word :=
  match (c.cq.filter (fun e => e.reg == code)).getLast? with
  | some e => e.val
  | none => c.cr code

/-- Write an accumulator with its flags in WB (R122, R158): `was` tells a latch that was already set. -/
def UCore.accOut (c : UCore) (a : Nat) (r : AccRes) (was : Bool) : UCore :=
  (c.wacc a r.val r.sat 2).wfWb (sfZ + sfN + sfV + (if r.v ∧ !was then sfAGV else 0))
    (znAcc r.val + (if r.v then sfV else 0) + (if r.v ∧ !was then sfAGV else 0))

/-- An accumulating operation (R121, R122). -/
def UCore.accum (c : UCore) (a : Nat) (x : Int) : UCore :=
  let cur := c.ac a
  c.accOut a (accAdd cur.val cur.sat x) cur.sat

/-- A non-accumulating write of a value that fits (CLR, MPY, MPYN, MPYI): V = 0 and the latch clears. -/
def UCore.accSet (c : UCore) (a : Nat) (x : Int) : UCore := c.accOut a ⟨BitVec.ofInt 72 x, false, false⟩ false

/-- NEGA, ABSA, ASLA (R158, R159): a latched accumulator stays at its bound and V is set. The latch tested is the one that
goes with the value read (assumption 69). -/
def UCore.accMod (c : UCore) (a : Nat) (f : Int → Int) : UCore :=
  let (v, l) := c.accRead a
  if l then c.accOut a ⟨v, true, true⟩ true else c.accOut a (accSat (f v.toInt)) false

/-- A saturating read into a word (R123): V and SV are set in WB on saturation. -/
def UCore.accStore (c : UCore) (a : Nat) (w24 : Bool) (rnd : Nat) : Word × UCore :=
  let (v, l) := c.accRead a
  let (w, sat) := storeAcc v l w24 rnd
  (w, if sat then c.wfWb (sfV + sfSV) (sfV + sfSV) else c)

/-- The accumulator class (R158). ADDA and SUBA read A[b] as a non-accumulating read does (assumption 68). -/
def UCore.accu (c : UCore) (op : AccOp) (a b x y n rnd : Nat) : UCore :=
  match op with
  | .clr => c.accSet a 0
  | .mpy => c.accSet a (fracProd (c.dr x) (c.dr y))
  | .mpyn => c.accSet a (-(fracProd (c.dr x) (c.dr y)))
  | .mpyi => c.accSet a (intProd (c.dr x) (c.dr y))
  | .mac => c.accum a (fracProd (c.dr x) (c.dr y))
  | .msu => c.accum a (-(fracProd (c.dr x) (c.dr y)))
  | .maci => c.accum a (intProd (c.dr x) (c.dr y))
  | .msui => c.accum a (-(intProd (c.dr x) (c.dr y)))
  | .adda => c.accum a (c.accRead b).1.toInt
  | .suba => c.accum a (-(c.accRead b).1.toInt)
  | .accd => c.accum a ((c.dr x).toInt * 2 ^ 32)
  | .nega => c.accMod a (fun v => -v)
  | .absa => c.accMod a (fun v => if v < 0 then -v else v)
  | .asla => c.accMod a (fun v => v * 2 ^ n)
  | .asra =>
    let (v, l) := c.accRead a
    if l then c.accOut a ⟨v, true, true⟩ true
    else (c.wacc a (v.sshiftRight n) false 2).wfWb (sfZ + sfN) (znAcc (v.sshiftRight n))
  | .exp => c.wd x (BitVec.ofNat 32 (accExp (c.accRead a).1)) 2
  | .norm =>
    let (e, v) := accNorm (c.accRead a).1
    (c.wacc a v false 2).wd x (BitVec.ofInt 32 e) 2
  | .mva => let (w, c) := c.accStore a false rnd; c.wd x w 2
  | .mva24 => let (w, c) := c.accStore a true rnd; c.wd x w 2
  | .cmpa =>
    let dlt := (c.accRead a).1.toInt - (c.accRead b).1.toInt
    c.wfWb (sfZ + sfN + sfV) ((if dlt = 0 then sfZ else 0) + (if dlt < 0 then sfN else 0))

/-- The multiplication of SMAC (R160). -/
def UCore.smacOp (c : UCore) (op a x y : Nat) : UCore :=
  let p := fracProd (c.dr x) (c.dr y)
  match op with
  | 0 => c.accSet a p
  | 1 => c.accum a p
  | 2 => c.accum a (-p)
  | _ => c.accSet a (-p)

/-- The two lanes of DMAC (R161, R162): Z and N from lane 0, V when either saturated. -/
def UCore.dmacOp (c : UCore) (s0 s1 ap x0 y0 x1 y1 : Nat) : UCore :=
  let p0 := fracProd (c.dr x0) (c.dr (8 + y0))
  let p1 := fracProd (c.dr x1) (c.dr (8 + y1))
  let a0 := c.ac (2 * ap)
  let a1 := c.ac (2 * ap + 1)
  let r0 := accAdd a0.val a0.sat (if s0 = 1 then -p0 else p0)
  let r1 := accAdd a1.val a1.sat (if s1 = 1 then -p1 else p1)
  let agv := (r0.v && !a0.sat) || (r1.v && !a1.sat)
  ((c.wacc (2 * ap) r0.val r0.sat 2).wacc (2 * ap + 1) r1.val r1.sat 2).wfWb
    (sfZ + sfN + sfV + (if agv then sfAGV else 0))
    (znAcc r0.val + (if r0.v || r1.v then sfV else 0) + (if agv then sfAGV else 0))

/-! ### The end of a tick -/

/-- DONE (R139): LAST_DONE, cycles and sticky flags are recorded, and the written bindings taken. -/
def State.finishTick (s : State) (u stall : Nat) : State :=
  let c := (s.core u).drain
  let cyc := satU 16 (c.cyc + 1 + stall)
  let s := s.setCore u { c with cyc := c.cyc + 1 + stall }
  let s := (s.setUst u 4).fs F.UNIT_DONE_LAST_DONE u c.tick
  let s := (s.fs F.UNIT_CYC_LAST u cyc).fs F.UNIT_CYC_PEAK u (max cyc (s.fg F.UNIT_CYC_PEAK u))
  let s := ((s.fs F.UNIT_FLAGS_SV u (b2n (c.sf.testBit 8))).fs F.UNIT_FLAGS_AGV u (b2n (c.sf.testBit 9))).fs
    F.UNIT_FLAGS_CBE u (b2n (c.sf.testBit 10))
  let s := if c.sf &&& (sfSV + sfAGV + sfCBE) ≠ 0 then s.fadd F.UNIT_FLAGS_TICKS u 1 else s
  s.takeBinds (s.role u)

/-! ### Issue of one instruction -/

/-- A load into registers: `wr` writes the words read. -/
def State.runLoad (s : State) (u k size : Nat) (step : Word) (x : UPort) (wr : UCore → List Word → UCore) : State :=
  match s.uLoad u k size x with
  | (.inl cause, s) => s.trap u cause
  | (.inr (ws, stall), s) => s.coreDone u ((wr (s.core u) ws).stepPtr k step) stall

/-- A store of words. -/
def State.runStore (s : State) (u k size : Nat) (step : Word) (ws : List Word) (x : UPort) (pre : UCore → UCore) : State :=
  match s.uStore u k size ws x with
  | (some cause, s) => s.trap u cause
  | (none, t) =>
    if t.ust u = 5 then t else t.coreDone u ((pre (t.core u)).stepPtr k step) (if (s.core u).wbFull then x.stall else 0)

/-- The load and store class (R156). -/
def State.runMem (s : State) (u : Nat) (op : MemOp) (k j m r : Nat) (x : UPort) : State :=
  let c := s.core u
  let size := if op = .ldd ∨ op = .std then 8 else 4
  let step := c.modStep m j size
  match op with
  | .ld => s.runLoad u k 4 step x (fun c ws => c.wd r (ws.getD 0 0) 3)
  | .ldd => s.runLoad u k 8 step x (fun c ws => (c.wd r (ws.getD 0 0) 3).wd (r + 1) (ws.getD 1 0) 3)
  | .ldr => s.runLoad u k 4 step x (fun c ws => c.writeCode r (ws.getD 0 0) true)
  | .st => s.runStore u k 4 step [c.dr r] x id
  | .std => s.runStore u k 8 step [c.dr r, c.dr (r + 1)] x id
  | .str => s.runStore u k 4 step [c.readCode r] x id

/-- SMAC (R160): the load first may trap; then the multiplication and the load's write. -/
def State.runSmac (s : State) (u op a x y sp k lm dd : Nat) (p : UPort) : State :=
  let c := s.core u
  let f : UCore → UCore := fun c => c.smacOp op a x y
  if lm = 0 then s.coreDone u (f c) 0
  else
    let q := 4 * sp + k
    let step : Word := if lm = 2 then 4 else if lm = 3 then c.cr (0x18 + q) else 0
    s.runLoad u q 4 step p (fun c ws => (f c).wd dd (ws.getD 0 0) 3)

/-- DMAC (R161, R162): both loads first may trap. With SH the value D(XD) holds when the load writes it, every earlier
write done and the load not, moves to D(XD + 1). Two local conflicts of one cycle stall once. -/
def State.runDmac (s : State) (u sh s0 s1 ap x0 y0 x1 y1 xm xp xd ym yp yd : Nat) (p : UPort) : State :=
  let step (c : UCore) (m q : Nat) : Word := if m = 2 then 4 else if m = 3 then c.cr (0x18 + q) else 0
  let rx := if xm = 0 then (Sum.inr ([], 0), s) else s.uLoad u xp 4 p
  match rx with
  | (.inl cause, s) => s.trap u cause
  | (.inr (xs, st1), s) =>
    let ry := if ym = 0 then (Sum.inr ([], 0), s) else s.uLoad u (4 + yp) 4 { p with syn := p.syn2 }
    match ry with
    | (.inl cause, s) => s.trap u cause
    | (.inr (ys, st2), s) =>
      let held := mget 0 (s.core u).drain.d xd
      let c := (s.core u).dmacOp s0 s1 ap x0 y0 x1 y1
      let c := if xm = 0 then c
        else
          let c := if sh = 1 then c.wd ((xd + 1) % 8) held 3 else c
          (c.wd xd (xs.getD 0 0) 3).stepPtr xp (step c xm xp)
      let c := if ym = 0 then c else (c.wd (8 + yd) (ys.getD 0 0) 3).stepPtr (4 + yp) (step c ym (4 + yp))
      s.coreDone u c (max st1 st2)

/-- WAIT and WAITM (R130, R134, R166): complete when a line of the set is pending, else the unit waits. Where an interrupt can
be accepted it is taken first, and the pending bit stays. -/
def State.runWait (s : State) (u : Nat) (lines : List Nat) (dst : Option Nat) (x : UPort) : State :=
  let c := s.core u
  if s.intPending u ≠ 0 ∧ c.drain.sf &&& sfIE ≠ 0 then s.setUst u 3
  else
    match lines.find? (fun l => c.pend.testBit l) with
    | some l =>
      let c := { c with pend := setBit c.pend l false }
      let c := match dst with
        | some d => c.wd d (BitVec.ofNat 32 l) 2
        | none => c
      (s.setUst u 2).coreDone u c (if s.ust u = 3 then x.stall else 0)
    | none => s.setUst u 3

/-- Run a decoded instruction on a unit whose pending writes have settled. -/
def State.runInstr (s : State) (u : Nat) (i : JInstr) (x : UPort) : State :=
  let c := s.core u
  match i with
  | .nop => s.coreDone u c 0
  | .mov dst src => s.coreDone u (c.writeCode dst (c.readCode src) false) 0
  | .pmod k j => s.coreDone u (c.stepPtrWb k (c.cr (0x18 + j))) 0
  | .paddi k imm => s.coreDone u (c.stepPtrWb k (sext16 imm)) 0
  | .aldi r imm => s.coreDone u (c.wc r (sext16 imm)) 0
  | .aldh r imm => s.coreDone u (c.wc r (BitVec.ofNat 32 (imm * 65536 + (c.crLate r).toNat % 65536))) 0
  | .br cond t => let y := s.unit u; s.setUnit u { y with core := c.branch (condHolds cond c.sf) (4 * t), stepOk := false }
  | .call d t =>
    let y := s.unit u
    s.setUnit u { y with core := (c.wd d (BitVec.ofNat 32 (c.pc + 12)) 3).branch true (4 * t), stepOk := false }
  | .jr d => let y := s.unit u; s.setUnit u { y with core := c.branch true ((c.dr d).toNat % 65536 / 4 * 4), stepOk := false }
  | .reti =>
    let y := s.unit u
    let m := sfZ + sfN + sfC + sfV + sfSV + sfAGV + sfCBE + sfIE
    s.setUnit u { y with
      core := (c.wf m ((c.cr 0x3F).toNat &&& m) 3).branch true ((c.cr 0x3E).toNat % 65536 / 4 * 4), stepOk := false }
  | .rep n =>
    let c := c.advance 0
    let y := s.unit u
    s.setUnit u { y with core := if n = 0 then { c with pc := (c.pc + 4) % 65536 } else { c with rep := n }, stepOk := false }
  | .repl =>
    let n := (c.cr 0x3C).toNat % 4096
    let c := c.advance 0
    let y := s.unit u
    s.setUnit u { y with core := if n = 0 then { c with pc := (c.pc + 4) % 65536 } else { c with rep := n }, stepOk := false }
  | .dbnz t =>
    let lc := (c.cr 0x3C - 1) &&& 0xFFFF
    let y := s.unit u
    s.setUnit u { y with core := (c.wc 0x3C lc).branch (lc != 0) (4 * t), stepOk := false }
  | .wait l => s.runWait u [l] none x
  | .waitm g m d =>
    let mask := (c.dr m).toNat
    s.runWait u (((List.range 32).filter (fun i => mask.testBit i)).map (fun i => 32 * g + i)) (some d) x
  | .raise l =>
    if !s.ownsLine u l then s.trap u 4
    else
      let st := if c.wbFull then x.stall else 0
      let s := s.wbPush u ⟨some l, 0, [], 0, c.pc⟩
      if s.ust u = 5 then s else s.coreDone u (s.core u) st
  | .done =>
    let st := if c.wb = [] then 0 else x.stall
    let s := s.wbDrain u 8
    if s.ust u = 5 then s else s.finishTick u st
  | .alu op d a b => s.coreDone u (c.alu op d a b) 0
  | .alui op d a v => s.coreDone u (c.alui op d a v) 0
  | .mem op k j m r => s.runMem u op k j m r x
  | .sta k j m a w24 rnd =>
    s.runStore u k 4 (c.modStep m j 4) [(c.accStore a (w24 == 1) rnd).1] x (fun c => (c.accStore a (w24 == 1) rnd).2)
  | .accu op a b y z n rnd => s.coreDone u (c.accu op a b y z n rnd) 0
  | .smac op a y z sp k lm dd => s.runSmac u op a y z sp k lm dd x
  | .dmac sh s0 s1 ap x0 y0 x1 y1 xm xp xd ym yp yd => s.runDmac u sh s0 s1 ap x0 y0 x1 y1 xm xp xd ym yp yd x

/-! ### Performance events (R415) -/

/-- The pointers an instruction loads and stores through. -/
def JInstr.loadPtrs : JInstr → List Nat
  | .mem op k _ _ _ => if op = .st ∨ op = .std ∨ op = .str then [] else [k]
  | .smac _ _ _ _ sp k lm _ => if lm = 0 then [] else [4 * sp + k]
  | .dmac _ _ _ _ _ _ _ _ xm xp _ ym yp _ => (if xm = 0 then [] else [xp]) ++ (if ym = 0 then [] else [4 + yp])
  | _ => []

def JInstr.storePtrs : JInstr → List Nat
  | .mem op k _ _ _ => if op = .st ∨ op = .std ∨ op = .str then [k] else []
  | .sta k _ _ _ _ _ => [k]
  | _ => []

/-- Lanes of the multiply-accumulate class an instruction uses (R158 - R161). -/
def JInstr.lanes : JInstr → Nat
  | .accu op .. => if op ∈ [AccOp.mpy, .mpyn, .mpyi, .mac, .msu, .maci, .msui] then 1 else 0
  | .smac .. => 1
  | .dmac .. => 2
  | _ => 0

def JInstr.accumulates : JInstr → Bool
  | .accu .. | .smac .. | .dmac .. => true
  | _ => false

def JInstr.jumps : JInstr → UCore → Bool
  | .br cond _, c => condHolds cond c.sf
  | .call .., _ | .jr _, _ | .reti, _ => true
  | .dbnz _, c => (c.cr 0x3C - 1) &&& 0xFFFF != 0
  | _, _ => false

/-- Whether a pointer names the Cistern window. -/
def UCore.cisPtr (c : UCore) (k : Nat) : Bool := let a := (c.cr (0x10 + k)).toNat; k < 4 && 0x100000 ≤ a && a < 0x300000

/-- The events of one instruction: (code, count or cycles, rises), from the core before and after it. -/
def perfEvents (c d : UCore) (i : JInstr) (remote : Bool) : List (Nat × Nat × Nat) :=
  let cyc := d.cyc - c.cyc
  let stall := cyc - 1
  let st := b2n (0 < stall)
  let cisL := i.loadPtrs.any c.cisPtr
  let cisS := i.storePtrs.any c.cisPtr
  let sat := i.accumulates && (d.fq.drop c.fq.length).any (fun f => f.val &&& sfV != 0)
  let waits := match i with
    | .wait _ | .waitm .. => true
    | _ => false
  [(1, cyc, 0), (2, 1, 1), (3, i.lanes, b2n (i.lanes != 0))]
    ++ (if i.loadPtrs = [] then [] else if cisL then [(4, stall, st)] else [(6, stall, st)])
    ++ (if i.storePtrs = [] then [] else [(5, stall, st)])
    ++ (if waits then [(7, stall, st)] else [])
    ++ [(8, i.loadPtrs.length, b2n (i.loadPtrs != [])), (9, i.storePtrs.length, b2n (i.storePtrs != [])),
        (10, b2n (i.jumps c), b2n (i.jumps c)), (11, if 0 < c.rep then cyc else 0, b2n (c.rep = 0 && 0 < d.rep)),
        (13, b2n sat, b2n sat), (14, b2n (remote && (cisL || cisS)), b2n (remote && (cisL || cisS)))]

/-- Issue a decoded instruction (R127 - R129): the pending writes it sees settle; one that may not stand in its place
traps with SLOT. -/
def State.issueInstr (s : State) (u : Nat) (i : JInstr) (x : UPort) : State :=
  let c := s.core u
  let s := s.setCore u (c.settle c.idx)
  if (c.slots > 0 ∧ i.noSlot) ∨ (c.rep > 0 ∧ i.noRep) then s.trap u 2
  else
    let c := s.core u
    let t := s.runInstr u i x
    if (t.core u).cyc = c.cyc then t else t.perfs u (perfEvents c (t.core u) i (s.remote u))

/-- The fetch of the word at a unit's PC through its decoder (R316): 2 is an uncorrectable word. -/
def State.fetchEcc (s : State) (u fsyn : Nat) : Nat × State :=
  match wordOfDpa (dpaProg u + (s.core u).pc) with
  | some w => s.eccRead w fsyn 0
  | none => (0, s)

/-- A row of the instruction table happens on unit `u`: the word at its PC reads well and is an instruction of that row.
Otherwise the event is not this one and nothing changes. -/
def State.issue (s : State) (u : Nat) (row : JInstr → Bool) (x : UPort) : State :=
  if s.canIssue u then
    match jdecode (s.fetch u (s.core u).pc) with
    | some i =>
      if row i then
        let (e, t) := s.fetchEcc u x.fsyn
        if e = 2 then s else t.issueInstr u i x
      else s
    | none => s
  else s

/-- NOP_INSTRUCTION (R148), and the two ends of a fetch that yields no instruction: an uncorrectable word traps with
FETCH_ECC (R316), an undefined encoding with ILLEGAL (R147). -/
def State.issueNop (s : State) (u : Nat) (x : UPort) : State :=
  if s.canIssue u then
    let (e, t) := s.fetchEcc u x.fsyn
    if e = 2 then t.trap u 5
    else match jdecode (s.fetch u (s.core u).pc) with
      | some .nop => t.issueInstr u .nop x
      | some _ => s
      | none => t.trap u 1
  else s

end Sys2Proof.Machine
end

