-- ==== Sys2Proof/Machine/Units.lean ====
section
/-! DEFINITION. Units, region spares and insert parameters (R88 - R97, R120, R132, R138 - R146, R451): loading, waking, the
deadline, takeovers and restores, and the parameter banks. -/

namespace Sys2Proof.Machine

/-! ### Images (R141, R142) -/

/-- The lengths of an image: N_BIND, PROG_LEN, X_LEN, Y_LEN, PARAM_LEN and their body. -/
def imgBinds (b : List Byte) : Nat := leAt b 0xC 2
def imgProgLen (b : List Byte) : Nat := leAt b 0x10 4
def imgXLen (b : List Byte) : Nat := leAt b 0x14 4
def imgYLen (b : List Byte) : Nat := leAt b 0x18 4
def imgParLen (b : List Byte) : Nat := leAt b 0x1C 4
def imgBody (b : List Byte) : Nat := 8 * imgBinds b + imgProgLen b + imgXLen b + imgYLen b + imgParLen b

/-- The first check of R143: checksums, FORMAT, FLAGS, lengths and reserved fields. -/
def imgValid (b : List Byte) : Bool :=
  let fl := leAt b 6 2
  let par := fl.testBit 3
  decide (64 ≤ b.length) && leAt b 0 4 == 0x31424C4A && leAt b 4 2 == 1 && fl / 16 == 0 && bits fl 2 1 != 3
    && leAt b 8 2 % 4 == 0 && leAt b 0xA 2 % 4 == 0 && decide (imgBinds b ≤ 256) && leAt b 0xE 2 == 0
    && imgProgLen b % 4 == 0 && decide (imgProgLen b ≤ 65536) && decide (imgXLen b ≤ 65536)
    && decide (imgYLen b ≤ (if par then 57344 else 65536)) && decide (imgParLen b ≤ (if par then 4096 else 0))
    && leAt b 0x28 4 == imgBody b && ((b.drop 0x32).take 10).all (· == 0) && decide (64 + imgBody b ≤ b.length)
    && leAt b 0x3C 4 == crc32c (b.take 60) && leAt b 0x2C 4 == crc32c ((b.drop 64).take (imgBody b))

/-- The program an image holds. -/
def imgProg (b : List Byte) : UProg :=
  let fl := leAt b 6 2
  let o1 := 64 + 8 * imgBinds b
  let o2 := o1 + imgProgLen b
  let o3 := o2 + imgXLen b
  let o4 := o3 + imgYLen b
  { post := fl.testBit 0, cls := bits fl 2 1, param := fl.testBit 3, entry := leAt b 8 2, ivec := leAt b 0xA 2,
    binds := (List.range (imgBinds b)).map (fun i =>
      let w := leAt b (64 + 8 * i) 8
      ⟨bits w 63 60, bits w 58 48, w % 2 ^ 21⟩),
    prog := (b.drop o1).take (imgProgLen b), x := (b.drop o2).take (imgXLen b), y := (b.drop o3).take (imgYLen b),
    par := (b.drop o4).take (imgParLen b), local_ := leAt b 0x20 4, remote := leAt b 0x24 4, stateCh := leAt b 0x30 2,
    ready := none, damaged := false }

/-- The bytes of the image a UNIT_LOAD names: the buffer, or LPDDR. -/
def State.imgBytes (s : State) (c : Cmd) : List Byte :=
  if c.c = 0 then c.buf.take c.len
  else
    let h := s.dpaRead c.addr (min c.len 64)
    let n := 64 + leAt h 0x28 4
    if c.len < n ∨ 262144 < n then h else s.dpaRead c.addr n

/-- Whether a binding entry is valid with POINT (R142). -/
def bindOk (post : Bool) (w : Nat) : Bool :=
  let k := bits w 63 60
  let i := bits w 58 48
  bits w 59 59 == 0 && bits w 47 21 == 0 && w % 16 == 0
    && (if post then k == 3 || k == 5 else k == 1 || k == 2 || k == 4)
    && decide (i < (if k = 2 then 128 else if k = 3 then 1152 else 1024))

/-- The blocks written by the programs loaded or being loaded, but for unit u. -/
def State.written (s : State) (u : Nat) : List (Nat × Nat) :=
  s.eng.units.flatMap (fun p =>
    if p.1 = u then []
    else ((p.2.prog.toList ++ (p.2.load.map (·.prog)).toList).flatMap (fun x =>
      (x.binds.filter (fun b => decide (4 ≤ b.kind))).map (fun b => (b.kind, b.index)))))

/-- No block is written twice. -/
def noTwice : List (Nat × Nat) → List (Nat × Nat) → Bool
  | _, [] => true
  | seen, k :: t => !(k ∈ seen) && noTwice (k :: seen) t

/-- W of R144. -/
def State.budgetW (s : State) : Nat := (s.deadlineNs - 3000) * 10000 / 10005

/-- CLASS of channel h of the cluster Pump of cluster c. -/
def State.pumpClass (s : State) (c h : Nat) : Nat := s.fg F.PMP_CH_CTL_CLASS (16 * c + h)

/-- The CL_MIX_CTL words in force. -/
def State.mixCtl (s : State) (c : Nat) : Nat := (s.rr .CL_MIX_CTL c).toNat

/-- The checks of UNIT_LOAD in the order of R143. -/
def chkUnitLoad (c : Cmd) (s : State) : Chk :=
  let u := c.a
  if 192 ≤ u ∨ (c.c = 1 ∧ 0x1C0000000 < c.addr + c.len) then (Sts.CMD_RANGE, [])
  else s.pwrChk (decide (32 ≤ u))
    (let b := s.imgBytes c
     let p := imgProg b
     if !imgValid b then (Sts.UNIT_IMAGE, [])
     else if s.ust u = 6 then (Sts.UNIT_FAILED, [])
     else if (s.unit u).load.isSome ∨ (s.ust u ≠ 0 ∧ s.ust u ≠ 7) then (Sts.UNIT_BUSY, [])
     else if s.spareOf (u / 32) = some u then (Sts.SPARE_CONFLICT, [])
     else if !((List.range (imgBinds b)).all (fun i => bindOk p.post (leAt b (64 + 8 * i) 8)))
         ∨ !noTwice (s.written u) ((p.binds.filter (fun x => decide (4 ≤ x.kind))).map (fun x => (x.kind, x.index)))
         ∨ (p.cls = 2 ∧ (bitList 16 p.stateCh).any (fun h => s.pumpClass (u / 8) h != 2)) then (Sts.UNIT_BIND, [])
     else if s.budgetW < p.local_ then (Sts.UNIT_BUDGET, [])
     else if !s.tilesFit s.aud.mapAct s.mixCtl (some (u, p)) then (Sts.XP_BUDGET, [])
     else Chk.ok)

/-- UNIT_LOAD: from acceptance Windlass writes the image. -/
def execUnitLoad (c : Cmd) (s : State) : Host.Outcome State Fault Refusal :=
  let seq := s.hif.cmdSeq
  let t := submit Code.UNIT_LOAD chkUnitLoad c s
  .next (if (t.sched ++ t.dueNext).any (fun e => e.seq == seq) then
      t.setUnit c.a { t.unit c.a with load := some ⟨none, seq, imgProg (t.imgBytes c), false⟩ }
    else t)

/-- Write the three memories of a unit from a program (R143, R89). The fill word after the program is 0x00000000 (R147). -/
def State.writeUnit (s : State) (u : Nat) (p : UProg) : State :=
  let s := (s.fillRange (dpaProg u) 65536 p.prog).fillRange (dpaX u) 65536 p.x
  if p.param then
    let pad := p.par ++ zeros (4096 - p.par.length)
    s.fillRange (dpaY u) 65536 (p.y ++ zeros (57344 - p.y.length) ++ pad ++ pad)
  else s.fillRange (dpaY u) 65536 p.y

/-- NO_SPARE of a program (R95, R144, R321). -/
def State.noSpare (s : State) (p : UProg) : Bool := decide (s.budgetW < p.remote) || p.damaged

/-- Show NO_SPARE of the program of unit u. -/
def State.showNoSpare (s : State) (u : Nat) : State :=
  let b := (s.progOf u).any s.noSpare
  (s.fs F.UNIT_STAT_NO_SPARE u (b2n b)).fs F.CL_STAT_NO_SPARE (u / 8) (setBit (s.fg F.CL_STAT_NO_SPARE (u / 8)) (u % 8) b)

/-- UNIT_STAT of unit u with a program: CLASS, POINT, PARAM and bank A. -/
def State.showProg (s : State) (u : Nat) (p : Option UProg) : State :=
  (((s.fs F.UNIT_STAT_CLASS u ((p.map (·.cls)).getD 0)).fs F.UNIT_STAT_POINT u (b2n (p.any (·.post)))).fs F.UNIT_STAT_PARAM u
    (b2n (p.any (·.param)))).fs F.UNIT_STAT_PBANK u 0

/-- UNIT_LOAD_COMPLETE (R143): the memories are written and the unit is LOADED. -/
def execUnitLoadComplete (u : Nat) (s : State) : Host.Outcome State Fault Refusal :=
  .next (match (s.unit u).load with
    | none => s
    | some l =>
      if (s.unit u).prog.isSome ∨ 192 ≤ u then s
      else
        let s := s.writeUnit u l.prog
        let s := s.setUnit u { s.unit u with prog := some l.prog, last := [], silent := false, muted := false }
        let s := ((s.showProg u (some l.prog)).setUst u 1).showNoSpare u
        (s.fs F.UNIT_DONE_LAST_DONE u 0xFFFFFFFF).fs F.UNIT_TRAP_CAUSE u 0)

/-- The unit first runs at the present boundary (R143). -/
def State.firstRun (s : State) (u : Nat) (e : Entry) (late : Bool) : State :=
  let x := s.unit u
  (s.setUnit u { x with load := none, prog := x.prog.map (fun p => { p with ready := some s.time.tick }) }).finishAs e Sts.OK []
    true late

/-- UNIT_LOAD at its boundary: it runs when the load is complete, else at the first boundary after. -/
def applyUnitLoad (e : Entry) (s : State) : State :=
  let u := e.cmd.a
  let x := s.unit u
  match x.load with
  | none => s
  | some l =>
    if x.prog.isSome then s.firstRun u e e.late
    else s.setUnit u { x with load := some { l with entry := some e, fired := true } }

/-- The loads whose boundary has passed (R143): with a target, the completion carries LATE. A load whose event was cancelled
leaves the unit OFF. -/
def State.loadsTick (s : State) : State :=
  (s.eng.units.map (·.1)).foldl (fun s u =>
    let x := s.unit u
    match x.load with
    | none => s
    | some l =>
      match l.entry with
      | some e => if x.prog.isSome then s.firstRun u e (!e.imm) else s
      | none =>
        if (s.sched ++ s.dueNext).any (fun e => e.seq == l.seq) then s
        else if x.prog.isSome then ((s.setUnit u { x with load := none, prog := none }).setUst u 0).showProg u none
        else s.setUnit u { x with load := none }) s

/-! ### UNIT_UNLOAD, UNIT_SET -/

/-- The region's spare is idle again (R93). -/
def State.spareIdle (s : State) (g : Nat) : State :=
  let s := s.fs F.RG_SPARE_STAT_STATE g 0
  let s := { s with eng := { s.eng with redir := mput 0 s.eng.redir g 0, spAt := mput 0 s.eng.spAt g 0 } }
  match s.spareOf g with
  | some q => if s.ust q = 6 then s.fs F.RG_SPARE_STAT_STATE g 3 else (s.setUst q 7).showProg q none
  | none => s

/-- The refusals of UNIT_UNLOAD (R451). -/
def chkUnitUnload (c : Cmd) (s : State) : Chk :=
  if 192 ≤ c.a then (Sts.CMD_RANGE, [])
  else if (s.unit c.a).load.isSome then (Sts.UNIT_BUSY, [])
  else if (s.progOf c.a).isNone then (Sts.CMD_STATE, [])
  else Chk.ok

def applyUnitUnload (e : Entry) (s : State) : State :=
  let k := chkUnitUnload e.cmd s
  if k.1 ≠ Sts.OK then s.finish e k.1 k.2 false
  else
    let u := e.cmd.a
    let g := u / 32
    let served := s.runner u != u
    let s := s.setUnit u { s.unit u with prog := none, last := [], silent := false, swapAt := none, copyAt := none }
    let s := if s.ust u = 6 then s else s.setUst u 0
    let s := (s.showProg u none).showNoSpare u
    let s := if served ∨ (s.fg F.RG_SPARE_STAT_STATE g = 1 ∧ s.fg F.RG_SPARE_STAT_FOR_UNIT g = u) then s.spareIdle g else s
    s.finish e Sts.OK [] true

def execUnitUnload (c : Cmd) (s : State) : Host.Outcome State Fault Refusal :=
  .next (submit Code.UNIT_UNLOAD chkUnitUnload c s)

def chkUnitSet (c : Cmd) (_ : State) : Chk := if 192 ≤ c.a ∨ !imgOk .UNIT_CTL c.i0 then (Sts.CMD_RANGE, []) else Chk.ok

def wrUnitSet (c : Cmd) (s : State) : State := s.rwsWrite .UNIT_CTL c.a (c.i0 % 2 ^ 31 + 2 ^ 31)

/-- UNIT_SET at its boundary. Where ARM was withdrawn it completes without a transfer (assumption 74). -/
def applyUnitSet (e : Entry) (s : State) : State :=
  (s.rwsTransfer .UNIT_CTL e.cmd.a wrUnitSet e).finish e Sts.OK [] true

def execUnitSet (c : Cmd) (s : State) : Host.Outcome State Fault Refusal :=
  .next (submitRws Code.UNIT_SET chkUnitSet wrUnitSet c s)

/-! ### Insert parameters (R145, R146) -/

/-- Whether a unit has parameter banks. -/
def State.hasPar (s : State) (u : Nat) : Bool := decide (u < 192) && (s.progOf u).any (·.param)

/-- Whether the banks of a unit are locked: from the arming of a commit that names it to the end of the copy. -/
def State.parLocked (s : State) (u : Nat) : Bool :=
  (s.unit u).swapAt.isSome || (s.unit u).copyAt.isSome
    || (s.sched ++ s.dueNext).any (fun e => e.code == Code.INS_COMMIT && (cmdMask e.cmd).testBit u)

/-- PLOCK of every unit with banks. -/
def State.showPlock (s : State) : State :=
  (s.eng.units.map (·.1)).foldl (fun s u =>
    if s.hasPar u then
      let b := b2n (s.parLocked u)
      if s.fg F.UNIT_STAT_PLOCK u = b then s else (s.fs F.UNIT_STAT_PLOCK u b).fs F.UNIT_STAT_PLOCK (s.runner u) b
    else s) s

/-- Physical address of bank b (0 A, 1 B) of the memories that hold the banks of unit u. -/
def State.parBase (s : State) (u b : Nat) : Nat := dpaY (s.runner u) + 0xE000 + 0x1000 * b
def State.parAct (s : State) (u : Nat) : Nat := s.fg F.UNIT_STAT_PBANK (s.runner u)

def insRange (c : Cmd) (s : State) : Bool := s.hasPar c.a && decide (c.b + c.len ≤ 4096)

def chkInsWrite (c : Cmd) (s : State) : Chk :=
  if 192 ≤ c.a then (Sts.CMD_RANGE, [])
  else s.pwrChk (decide (32 ≤ c.a))
    (if !insRange c s then (Sts.INS_RANGE, []) else if s.parLocked c.a then (Sts.INS_BANK_LOCKED, []) else Chk.ok)

def applyInsWrite (e : Entry) (s : State) : State :=
  let k := chkInsWrite e.cmd s
  if k.1 ≠ Sts.OK then s.finish e k.1 k.2 false
  else
    let u := e.cmd.a
    (s.busWrite (s.parBase u (1 - s.parAct u) + e.cmd.b) (e.cmd.buf.take e.cmd.len) 0).2.finish e Sts.OK [] false

def execInsWrite (c : Cmd) (s : State) : Host.Outcome State Fault Refusal := .next (submit Code.INS_WRITE chkInsWrite c s)

def chkInsRead (c : Cmd) (s : State) : Chk :=
  if 192 ≤ c.a ∨ 1 < c.c then (Sts.CMD_RANGE, [])
  else s.pwrChk (decide (32 ≤ c.a)) (if !insRange c s then (Sts.INS_RANGE, []) else Chk.ok)

def applyInsRead (e : Entry) (s : State) : State :=
  let k := chkInsRead e.cmd s
  if k.1 ≠ Sts.OK then s.finish e k.1 k.2 false
  else (s.hostWrite e.cmd.addr (s.dpaRead (s.parBase e.cmd.a e.cmd.c + e.cmd.b) e.cmd.len)).finish e Sts.OK [] false

def execInsRead (c : Cmd) (s : State) : Host.Outcome State Fault Refusal := .next (submit Code.INS_READ chkInsRead c s)

def chkInsCommit (c : Cmd) (s : State) : Chk :=
  let l := bitList 192 (cmdMask c)
  if l = [] then (Sts.CMD_RANGE, [])
  else s.pwrChk (l.any (32 ≤ ·))
    (if !l.all s.hasPar then (Sts.INS_RANGE, []) else if l.any s.parLocked then (Sts.INS_BANK_LOCKED, []) else Chk.ok)

/-- Swap the banks of a unit. -/
def State.parSwap (s : State) (u : Nat) : State :=
  s.fs F.UNIT_STAT_PBANK (s.runner u) (1 - s.parAct u)

/-- INS_COMMIT at T_k (R146): pre-matrix units swap now, post-matrix units at T_{k+1}. A unit unloaded since has no banks. -/
def applyInsCommit (e : Entry) (s : State) : State :=
  let l := (bitList 192 (cmdMask e.cmd)).filter (fun u => (s.progOf u).isSome)
  let s := l.foldl (fun s u =>
    let x := s.unit u
    let new := s.dpaRead (s.parBase u (1 - s.parAct u)) 4096
    let q := x.prog.map (fun (p : UProg) => { p with par := new })
    let x : UnitSt := { x with prog := q }
    if x.prog.any (·.post) then s.setUnit u { x with swapAt := some (s.time.tick + 1, e), copyAt := some e.seq }
    else (s.setUnit u { x with copyAt := some e.seq }).parSwap u) s
  s.showPlock.finish e Sts.OK [] true

def execInsCommit (c : Cmd) (s : State) : Host.Outcome State Fault Refusal :=
  .next (submit Code.INS_COMMIT chkInsCommit c s).showPlock

/-- The post-matrix swaps that fall due at the present boundary. -/
def State.insTick (s : State) : State :=
  (s.eng.units.map (·.1)).foldl (fun s u =>
    let x := s.unit u
    match x.swapAt with
    | some (t, _) => if t ≤ s.time.tick then (s.setUnit u { x with swapAt := none }).parSwap u else s
    | none => s) s

/-- The copy of a commit (R146): once every swap of it is done, each active bank goes into the inactive one and into the
unit's image. -/
def State.insCopied (s : State) : State :=
  let us := s.eng.units.map (·.1)
  let open_ := us.filterMap (fun u => if (s.unit u).swapAt.isSome then (s.unit u).copyAt else none)
  (us.foldl (fun s u =>
    let x := s.unit u
    match x.copyAt with
    | none => s
    | some q =>
      if q ∈ open_ then s
      else
        let b := s.dpaRead (s.parBase u (s.parAct u)) 4096
        let s := s.fillRange (s.parBase u (1 - s.parAct u)) 4096 b
        s.setUnit u { x with copyAt := none, prog := x.prog.map (fun p => { p with par := b }) }) s).showPlock

/-! ### Spares (R93 - R97) -/

/-- Whether the region's spare can take a unit over. -/
def State.spareFree (s : State) (g : Nat) : Bool :=
  match s.spareOf g with
  | some q => s.fg F.RG_SPARE_STAT_STATE g == 0 && s.ust q != 6
  | none => false

/-- UNIT_STAT of the spares that RG_SPARE names: an idle one reads SPARE, a unit no longer named reads OFF (R93). -/
def State.showSpares (s : State) : State :=
  (List.range 6).foldl (fun s g =>
    let s := (List.range 32).foldl (fun s i =>
      let u := 32 * g + i
      if s.ust u = 7 ∧ s.spareOf g ≠ some u then s.setUst u 0 else s) s
    match s.spareOf g with
    | some q => if s.ust q = 0 ∧ s.fg F.RG_SPARE_STAT_STATE g = 0 then s.setUst q 7 else s
    | none => s) s

/-- What a fault of unit u taken at L2 calls for (R94 - R96): 0 nothing, 1 a takeover, 2 a reset of the cluster given. -/
def State.unitL2 (s : State) (u : Nat) : Nat × Nat :=
  let g := u / 32
  if 192 ≤ u ∨ s.ust u = 6 then (0, 0)
  else if s.spareOf g = some u then
    (if s.fg F.RG_SPARE_STAT_STATE g = 2 then (2, s.fg F.RG_SPARE_STAT_FOR_UNIT g / 8) else (0, 0))
  else match s.progOf u with
    | none => (0, 0)
    | some p => if s.noSpare p ∨ !s.spareFree g then (2, u / 8) else (1, u)

/-- A takeover begins (R94, R333). -/
def State.takeover (s : State) (u : Nat) : State :=
  let g := u / 32
  let s := ((s.setCore u (s.core u).drain).fadeBinds u).markFailed u
  let s := ((s.fs F.RG_SPARE_STAT_STATE g 1).fs F.RG_SPARE_STAT_FOR_UNIT g u).fadd F.RG_SPARE_STAT_TAKEOVERS g 1
  { s with eng := { s.eng with
      spAt := mput 0 s.eng.spAt g (s.time.tick + 1), redir := mput 0 s.eng.redir g 0, quU := mput 0 s.eng.quU u 1 } }

/-- A cluster reset is asked for: it begins in tick `t` (R92). -/
def State.clusterReq (s : State) (c t : Nat) (fault : Option Nat) : State :=
  if (mfind s.eng.clRst c).isSome ∨ (mfind s.eng.clReq c).isSome then s
  else { s with eng := { s.eng with clReq := mset false s.eng.clReq c (t, fault) } }

/-- The L2 action of a unit fault. -/
def State.unitL2Do (s : State) (u : Nat) (fault : Option Nat) : State :=
  match s.unitL2 u with
  | (1, _) => s.takeover u
  | (2, c) =>
    let g := u / 32
    let s := if s.spareOf g = some u then (s.markFailed u).fs F.RG_SPARE_STAT_STATE g 3 else s
    s.clusterReq c (s.time.tick + 1) fault
  | _ => s

def chkUnitSpare (c : Cmd) (s : State) : Chk :=
  if 192 ≤ c.a then (Sts.CMD_RANGE, [])
  else s.pwrChk (decide (32 ≤ c.a))
    (match s.progOf c.a with
    | none => (Sts.CMD_STATE, [])
    | some p =>
      if s.ust c.a = 6 then (Sts.UNIT_FAILED, [])
      else if s.noSpare p ∨ !s.spareFree (c.a / 32) then (Sts.UNIT_NO_SPARE, [])
      else Chk.ok)

def applyUnitSpare (e : Entry) (s : State) : State :=
  let k := chkUnitSpare e.cmd s
  if k.1 ≠ Sts.OK then s.finish e k.1 k.2 false else (s.takeover e.cmd.a).finish e Sts.OK [] false

def execUnitSpare (c : Cmd) (s : State) : Host.Outcome State Fault Refusal := .next (submit Code.UNIT_SPARE chkUnitSpare c s)

/-- SPARE_REDIRECT (R94 item 2): from T_{k+1} accesses to the failed unit's memories and event lines go to the spare. -/
def execSpareRedirect (g : Nat) (s : State) : Host.Outcome State Fault Refusal :=
  let t := mget 0 s.eng.spAt g
  .next (if g < 6 ∧ s.fg F.RG_SPARE_STAT_STATE g = 1 ∧ t ≠ 0 ∧ t ≤ s.time.tick then
      { s with eng := { s.eng with redir := mput 0 s.eng.redir g 1 } }
    else s)

/-- SPARE_IMAGE_LOADED (R94 item 2): the spare holds the failed unit's image and its LAST_DONE (R120). -/
def execSpareImageLoaded (g : Nat) (s : State) : Host.Outcome State Fault Refusal :=
  let p := s.fg F.RG_SPARE_STAT_FOR_UNIT g
  .next (match s.spareOf g, s.progOf p with
    | some q, some x =>
      if g < 6 ∧ s.fg F.RG_SPARE_STAT_STATE g = 1 ∧ mget 0 s.eng.redir g = 1 then
        let s := ((s.writeUnit q x).showProg q (some x)).setUst q 1
        (s.fs F.UNIT_DONE_LAST_DONE q (s.fg F.UNIT_DONE_LAST_DONE p)).fs F.RG_SPARE_STAT_STATE g 2
      else s
    | _, _ => s)

/-- UNIT_RESTORE (R97): `ok` of the command is the memory self-test of the released unit. -/
def chkUnitRestore (c : Cmd) (s : State) : Chk :=
  if 192 ≤ c.a then (Sts.CMD_RANGE, [])
  else s.pwrChk (decide (32 ≤ c.a))
    (if s.ust c.a ≠ 6 then (Sts.CMD_STATE, []) else if !c.ok then (Sts.UNIT_FAILED, []) else Chk.ok)

/-- At its boundary the command waits for the redirect to be removed there. -/
def applyUnitRestore (e : Entry) (s : State) : State :=
  let k := chkUnitRestore e.cmd s
  if k.1 ≠ Sts.OK then s.finish e k.1 k.2 false
  else { s with eng := { s.eng with restore := mset false s.eng.restore e.cmd.a e } }

def execUnitRestore (c : Cmd) (s : State) : Host.Outcome State Fault Refusal :=
  .next (submit Code.UNIT_RESTORE chkUnitRestore c s)

/-- RESTORE_REDIRECT_REMOVE (R96, R97): at the target's boundary the unit runs again and the spare returns to idle; a spare that
failed itself is idle again once it is restored. -/
def execRestoreRedirectRemove (u : Nat) (s : State) : Host.Outcome State Fault Refusal :=
  .next (match mfind s.eng.restore u with
    | none => s
    | some e =>
      let g := u / 32
      let q := s.runner u
      let st := s.fg F.RG_SPARE_STAT_STATE g
      let mine := (s.fg F.RG_SPARE_STAT_FOR_UNIT g == u && st != 0) || (s.spareOf g == some u && st == 3)
      let s := { s with eng := { s.eng with restore := mset true s.eng.restore u e } }
      let s := s.fs F.CL_STAT_FAILED (u / 8) (setBit (s.fg F.CL_STAT_FAILED (u / 8)) (u % 8) false)
      let s := match s.progOf u with
        | none => s.setUst u 0
        | some p =>
          let bank := s.parAct u
          let s := ((s.writeUnit u p).showProg u (some p)).setUst u 1
          let s := (s.fs F.UNIT_STAT_PBANK u bank).fs F.UNIT_DONE_LAST_DONE u (s.fg F.UNIT_DONE_LAST_DONE q)
          s.setUnit u { s.unit u with prog := some { p with ready := some s.time.tick } }
      let s := if mine then s.spareIdle g else s
      s.showSpares.finish e Sts.OK [] false)

/-! ### The tick of the units -/

/-- Whether a cluster lets its units run (R92). -/
def State.clusterRuns (s : State) (c : Nat) : Bool :=
  s.fg F.CL_STAT_STATE c == 1
    || (match mfind s.eng.clRst c with
      | some x => x.loaded && decide (x.tick + 10 ≤ s.time.tick)
      | none => false)

/-- Units of RG1 - RG5 wake no more from one tick after STANDBY begins, until they are reloaded after it (R380). -/
def State.regionAwake (s : State) (g : Nat) : Bool :=
  s.fb F.RG_PWR_ON g && !(s.standby && g != 0 && decide (s.ret.moveTick < s.time.tick)) && s.pwr != 3
    && !(g != 0 && s.fb F.RW_PWR_STAT_MOVING 0 && s.ret.moveFrom == 2)

/-- The tick before which a unit delivers its input blocks and wakes: the programs of a cluster that run. -/
def State.progsOf (s : State) (c : Nat) : List (Nat × UProg) :=
  (s.eng.units.filter (fun p => p.1 / 8 == c)).filterMap (fun p => p.2.prog.map (fun x => (p.1, x)))

/-- Write the blocks of a kind of read binding into a Cistern. -/
def State.deliverIn (s : State) (c : Nat) (kinds : List Nat) (blk : Nat → Nat → Blk) : State :=
  (s.progsOf c).foldl (fun s p =>
    (p.2.binds.filter (fun b => b.kind ∈ kinds)).foldl (fun s b =>
      (s.busWrite (dpaCistern c + b.off) (blkBytes (blk b.kind b.index)) 0).2) s) s

/-- INPUT_DELIVERY_COMPLETE (R55, R91): IC blocks and aux busses are in the Cistern of cluster c; line 33 pulses. -/
def execInputDeliveryComplete (c : Nat) (s : State) : Host.Outcome State Fault Refusal :=
  .next (if 24 ≤ c ∨ !s.clusterRuns c then s
    else
      (s.deliverIn c [1, 2] (fun k i => if k = 1 then mget Blk.zero s.aud.ic i else mget Blk.zero s.aud.ab i)).pulse c 33)

/-- OUTPUT_DELIVERY_COMPLETE (R55, R91): the matrix outputs of the last block are in the Cistern; line 34 pulses. -/
def execOutputDeliveryComplete (c : Nat) (s : State) : Host.Outcome State Fault Refusal :=
  .next (if 24 ≤ c ∨ !s.clusterRuns c then s
    else (s.deliverIn c [3] (fun _ i => mget Blk.zero s.aud.mo i)).pulse c 34)

/-- The deadline passes without DONE (R140): the unit stops, the detector reports, its outputs fade. -/
def State.overrun (s : State) (u : Nat) : State :=
  let tick := (s.core u).tick
  let s := (s.setCore u (s.core u).drain).wbDrain u 8
  let s := if s.ust u = 5 then s else s.fadeBinds (s.role u)
  (s.setUst u 5).det 0x20 (u / 32) u 0 (tick % 2 ^ 24)

/-- PRE_MATRIX_DEADLINE (R138, R140): from T + D every unit that runs has overrun; a matrix input whose program did not run
is available as silence. Post-matrix units have the same deadline within their tick. -/
def execPreMatrixDeadline (dt : Nat) (s : State) : Host.Outcome State Fault Refusal :=
  let s := s.elapse dt
  .next (if s.now < tickStart (tickAt s.now) + s.deadlineNs then s
    else
      let us := s.eng.units.map (·.1)
      let s := us.foldl (fun s u => if s.ust u = 2 ∨ s.ust u = 3 then s.overrun u else s) s
      us.foldl (fun s u =>
        match s.progOf u with
        | some p =>
          let late := p.binds.filter (fun b => b.kind == 4 && !(b.index ∈ s.aud.k3done))
          if late.isEmpty then s
          else if p.ready.isSome then s.fadeBinds u
          else late.foldl (fun s b => s.deliver 4 b.index Blk.zero) s
        | none => s) s)

/-- Whether a unit wakes in the present tick (R94, R138, R143). -/
def State.mayWake (s : State) (u : Nat) : Bool :=
  let p := s.role u
  let t := s.time.tick
  let st := s.ust u
  s.regionAwake (u / 32) && s.clusterRuns (u / 8) && !(s.unit u).halted && (s.core u).woke != t
    && (st == 1 || st == 2 || st == 3 || st == 4 || st == 5)
    && (match s.progOf p with
      | none => false
      | some x => if p = u then x.ready.any (fun r => decide (r ≤ t)) else decide (mget 0 s.eng.spAt (u / 32) + 1 ≤ t))

/-- The registers at a wake (R118, R120). -/
def State.wake (s : State) (u : Nat) : State :=
  let p := s.role u
  match s.progOf p with
  | none => s
  | some x =>
    let ctl := (s.rr .UNIT_CTL p).toNat
    let d := mput 0 (mput 0 (mput (0 : Word) [] 0 (BitVec.ofNat 32 s.tickno)) 1 (BitVec.ofNat 32 (s.fg F.UNIT_DONE_LAST_DONE u))) 2
      (BitVec.ofNat 32 p)
    let s := s.setCore u { UCore.reset with
      d := d, sf := sfIE, pc := x.entry, imask := F.UNIT_CTL_IEV_EN.get ctl + 2 * F.UNIT_CTL_PCOV_EN.get ctl,
      tick := s.tickno, woke := s.time.tick }
    let s := if mget 0 s.eng.quU p = 1 ∧ p ≠ u then
        { s with eng := { s.eng with quU := mput 0 s.eng.quU p (s.time.up + 2000 + 2) } }
      else s
    (s.setUst u 2).perf u 15 1 1

/-- The pulse of line 32 at the wake point (R91), once a tick, in every cluster that runs. -/
def State.wakeLine (s : State) : State :=
  if s.eng.woken = s.time.tick + 1 then s
  else
    let s := { s with eng := { s.eng with woken := s.time.tick + 1 } }
    ((List.range 24).filter (fun c => s.regionAwake (c / 4) && s.clusterRuns c)).foldl (fun s c => s.pulse c 32) s

/-- UNIT_WAKE (R55, R138): at T + 3.0 µs every unit with a program that may run wakes, and line 32 pulses. A unit that still
runs has missed its deadline (R140). The units clear their pending set first, so the pulse is pending after the wake
(assumption 66). -/
def execUnitWake (dt : Nat) (s : State) : Host.Outcome State Fault Refusal :=
  let s := s.elapse dt
  .next (if s.now < tickStart (tickAt s.now) + 3000 then s
    else
      let us := s.eng.units.map (·.1) ++ ((List.range 6).filterMap s.spareOf).filter (fun q => !(s.eng.units.any (fun p => p.1 == q)))
      let us := us.filter s.mayWake
      let s := us.foldl (fun s u => if s.ust u = 2 ∨ s.ust u = 3 then s.overrun u else s) s
      (us.foldl State.wake s).wakeLine)

/-! ### Interrupts (R131 - R133) -/

/-- INTERRUPT_ACCEPT (R132): outside delay slots and REP, with SF.IE = 1. Nothing issues for 6 cycles, so every earlier write
is seen by the handler's first instruction. -/
def execInterruptAccept (u : Nat) (s : State) : Host.Outcome State Fault Refusal :=
  let c := (s.core u).drain
  let k := s.intPending u
  .next (if !s.canIssue u ∨ c.slots ≠ 0 ∨ c.rep ≠ 0 ∨ k = 0 ∨ c.sf &&& sfIE = 0 then s
    else
      match s.progOf (s.role u) with
      | none => s
      | some x =>
        let regs := mput 0 (mput 0 c.c 0x3E (BitVec.ofNat 32 c.pc)) 0x3F c.sfWord
        let s := s.setCore u { c with
          c := regs, sf := c.sf - sfIE, pc := x.ivec, idx := c.idx + 6, cyc := c.cyc + 6, iev := c.iev && k != 1 }
        (s.setUst u 2).perf u 12 1 1)

/-! ### Windlass and the islands -/

/-- Windlass sets REMAP, from 0 to 1 only (R106). -/
def State.remap (s : State) (v : Nat) : State := if v % 2 = 1 then s.fs F.SEC_REMAP_REMAP 0 1 else s

/-- SEC_REMAP_WRITE (R106): only from 0 to 1. -/
def execSecRemapWrite (v : Nat) (s : State) : Host.Outcome State Fault Refusal := .next (s.remap v)

/-- WINDLASS_RESTORE (R321) of a word reported: `kind` names what it belongs to. 0: an active bank, `arg` the CODE of the commit
that last set it, at a tick boundary. 1: an inactive bank unchanged since its copy. 2: one edited since, not restored. 3: a unit
memory. 4: the LPDDR image of unit `arg`. 5: message `arg` of the Standpipe store. 6: the code area of the TCM. -/
def execWindlassRestore (w : WordId) (kind arg : Nat) (s : State) : Host.Outcome State Fault Refusal :=
  let drop := { s with integ := { s.integ with restore := s.integ.restore.filter (· != wkey w) } }
  .next (if !(wkey w ∈ s.integ.restore) then s
    else if kind = 0 ∨ kind = 1 then
      if s.now ≠ tickStart (tickAt s.now) then s
      else if kind = 1 then s.fullWrite w
      else
        let (g, s) := (s.fullWrite w).newGen
        (s.journal ⟨g, s.time.sec.toNat % 2 ^ 32, s.time.ns.toNat, arg, 3, 0, 0, 0, 255⟩).logRecord g arg 3 false
    else if kind = 3 then
      let u := w.inst
      if w.mem = 0 then
        (if s.now ≠ tickStart (tickAt s.now) then s
        else if (chkUnitSpare { a := u } s).1 = Sts.OK then drop.takeover u else drop)
      else if s.ust u = 2 ∨ s.ust u = 3 then s
      else
        match s.progOf (s.role u) with
        | none => drop
        | some p =>
          let o := 8 * w.word
          let src := if w.mem = 1 then p.x else p.y
          let bytes := if w.mem = 2 ∧ p.param ∧ 0xE000 ≤ o then padTo 8 ((p.par.drop (o % 0x1000)).take 8)
            else padTo 8 ((src.drop o).take 8)
          (s.busWrite ((if w.mem = 1 then dpaX u else dpaY u) + o) bytes 0).2
    else if kind = 4 then
      let x := drop.unit arg
      (drop.setUnit arg { x with prog := x.prog.map (fun p => { p with damaged := true }) }).showNoSpare arg
    else if kind = 5 then drop.fs F.SP_MSG_DDR_OK arg 0
    else if kind = 6 then s.fullWrite w
    else drop)

/-- Whether a word belongs to the memories of region g. -/
def inRegion (g : Nat) (k : Nat) : Bool := k / 2 ^ 32 / 256 / 8 == g

/-- What a region loses with its island (R322). -/
def State.regionLost (s : State) (g : Nat) : State :=
  let cell := fun (p : Host.Cell) => match wordOfDpa p.1 with
    | some w => w.log != g
    | none => true
  let s := { s with integ := { s.integ with
      mem := s.integ.mem.filter cell,
      errs := s.integ.errs.filter (fun p => !inRegion g p.1),
      wback := s.integ.wback.filter (fun k => !inRegion g k),
      restore := s.integ.restore.filter (fun k => !inRegion g k),
      merge := s.integ.merge.filter (fun p => p.1 / 2048 != g),
      dip := s.integ.dip.filter (fun p => p.1 != g) } }
  ((List.range 4).foldl (fun s i => s.fs F.DPR_CISWIN_VALID (4 * g + i) 0) s).setDipState g 0

/-- ISLAND_POWER_UP (R310, R322), once STANDBY has been left: the checkers of region g are tested, its tile SRAMs are written, its Dipper
starts anew. -/
def execIslandPowerUp (g : Nat) (fails : List WordId) (s : State) : Host.Outcome State Fault Refusal :=
  .next (if 6 ≤ g ∨ s.fb F.RG_PWR_ON g ∨ s.standby ∨ s.pwr = 3 then s
    else
      let s := s.regionLost g
      let s := s.fs F.RW_PWR_STAT_ISLANDS 0 (setBit (s.fg F.RW_PWR_STAT_ISLANDS 0) g true)
      (fails.filter (fun w => w.log == g)).foldl State.checkerFailed (s.fs F.RG_PWR_ON g 1))

end Sys2Proof.Machine
end

