-- ==== Sys2Proof/Machine/Pumps.lean ====
section
/-! DEFINITION. Pumps (R291 - R306): channels, triggers, bursts, completion and halts. A channel's instance is 16·Pump +
channel, the hub Pumps being 24 - 27. -/

namespace Sys2Proof.Machine

/-! ### Channels -/

/-- Channels reserved for the device (R292): HP0, HP1 and channels 14 and 15 of HP3. -/
def pmpReserved (n : Nat) : Bool := (384 ≤ n && n < 416) || 446 ≤ n

def State.pmpState (s : State) (n : Nat) : Nat := s.fg F.PMP_CH_STAT_STATE n

/-- PMP_SUM of the Pump of channel n. -/
def State.pmpSum (s : State) (n : Nat) : State :=
  let p := n / 16
  let s := s.fs F.PMP_SUM_BUSY p (setBit (s.fg F.PMP_SUM_BUSY p) (n % 16) (s.pmpState n == 2))
  s.fs F.PMP_SUM_INT p (setBit (s.fg F.PMP_SUM_INT p) (n % 16) (s.fb F.PMP_CH_STAT_INT n))

def State.setPmp (s : State) (n st : Nat) : State := (s.fs F.PMP_CH_STAT_STATE n st).pmpSum n

/-- Bytes a descriptor moves. -/
def dscLen (d : List Byte) : Nat := leAt d 0 3
def dscRows (d : List Byte) : Nat := leAt d 4 2
def dscFlag (d : List Byte) (i : Nat) : Bool := (leAt d 6 2).testBit i

/-- Bytes of the descriptor in progress not yet written (R303). -/
def State.pmpResidue (s : State) (n : Nat) : Nat :=
  let x := s.pch n
  if x.desc = [] then 0 else dscLen x.desc * dscRows x.desc - (dscLen x.desc * x.row + x.off)

/-- A descriptor that may not start (R294). -/
def dscBad (cluster classS : Bool) (d : List Byte) : Bool :=
  let src := leAt d 8 8
  let dst := leAt d 16 8
  let fill := dscFlag d 12
  let sh := dscFlag d 11
  let dh := dscFlag d 10
  dscLen d == 0 || dscLen d % 4 != 0 || dscRows d == 0
    || (!fill && src % 4 != 0) || dst % 4 != 0 || leAt d 0x18 4 % 4 != 0 || leAt d 0x1C 4 % 4 != 0
    || (!fill && !sh && decide (2 ^ 40 ≤ src)) || (!dh && decide (2 ^ 40 ≤ dst))
    || leAt d 6 2 % 1024 != 0 || (dscFlag d 14 && decide (leAt d 3 1 < 128))
    || ((sh || dh) && (cluster || classS)) || (fill && sh)

/-- Stop a channel with a status (R303): STATE `st`, residue, interrupt, ERR_LINE. RESIDUE has 32 bits: what it shows of a
longer residue is open (assumption 1). -/
def State.pmpStop (s : State) (n st status residue : Nat) : State :=
  let (r, s) := if residue < 2 ^ 32 then (BitVec.ofNat 32 residue, s) else s.freeWord
  let s := s.setPch n { PmpCh.reset with next := (s.pch n).next }
  let s := ((s.fs F.PMP_CH_STAT_STATUS n status).rw .PMP_CH_RES n r).fs F.PMP_CH_STAT_PENDING n 0
  let s := (s.fs F.PMP_CH_STAT_INT n 1).setPmp n st
  if s.fb F.PMP_CH_RING_CFG_ERR_EN n then s.pulse (s.pmpCl n) (s.fg F.PMP_CH_RING_CFG_ERR_LINE n) else s

/-- A halt by an error (R304): the bus-error detector reports, naming the cluster of the failing burst's target (R333). -/
def State.pmpFail (s : State) (n status tgt : Nat) : State :=
  let s := s.pmpStop n 3 status (s.pmpResidue n)
  if status = Sts.PMP_BUS_ERROR then
    { s with detq := s.detq ++ [⟨0x13, n / 16, n % 16, 0, Sts.PMP_BUS_ERROR, s.mts, false, false, tgt⟩] }
  else s

/-! ### Reaching memory (R104, R291, R425) -/

/-- What a Pump's address names. -/
inductive PmpTgt where
  | mem (a : Nat)
  | reg (u off : Nat)
  | bad (notice : Bool)
deriving DecidableEq, Repr

/-- The cluster an address lies in, + 1. -/
def dpaCluster (a : Nat) : Nat :=
  if 0x1000000000 ≤ a ∧ a < 0x1000000000 + 24 * 0x200000 then (a - 0x1000000000) / 0x200000 + 1
  else if 0x1100000000 ≤ a ∧ a < 0x1100000000 + 192 * 0x40000 then (a - 0x1100000000) / 0x40000 / 8 + 1
  else if 0x1200000000 ≤ a ∧ a < 0x1200000000 + 24 * 0x100000 then (a - 0x1200000000) / 0x100000 + 1
  else 0

/-- The unit an access aimed at unit u reaches (R94). -/
def State.redirected (s : State) (u : Nat) : Nat :=
  let g := u / 32
  if mget 0 s.eng.redir g = 1 ∧ s.fg F.RG_SPARE_STAT_FOR_UNIT g = u then (s.spareOf g).getD u else u

/-- The target of an access by channel n at DPA `a`. A hub Pump's access to a cluster held in reset has an error response
(R305). -/
def State.pmpTgt (s : State) (n a : Nat) : PmpTgt :=
  let p := n / 16
  let hub := decide (24 ≤ p)
  let c := dpaCluster a
  if c ≠ 0 ∧ hub ∧ s.fg F.CL_STAT_STATE (c - 1) = 2 then .bad false
  else if a < 0x1C0000000 then .mem a
  else if 0x1000000000 ≤ a ∧ a < 0x1000000000 + 24 * 0x200000 then
    (if hub ∨ (c - 1) / 12 = p / 12 then .mem a else .bad true)
  else if 0x1100000000 ≤ a ∧ a < 0x1100000000 + 192 * 0x40000 then
    let u := (a - 0x1100000000) / 0x40000
    let o := (a - 0x1100000000) % 0x40000
    if !hub ∧ u / 8 ≠ p then .bad true
    else if 0x30000 ≤ o then (if o < 0x30100 then .reg u (o - 0x30000) else .bad true)
    else
      let q := s.redirected u
      let st := s.ust q
      if o < 0x10000 ∧ (p ≠ 24 ∨ st = 2 ∨ st = 3 ∨ st = 4) then .bad true
      else .mem (dpaProg q + o)
  else .bad true

/-- The access-error Notice of a Pump (R104), under its master port number (R450). -/
def State.pmpNotice (s : State) (n : Nat) : State :=
  let p := n / 16
  if p < 24 then s.det 0x12 (p / 12) (96 + p % 12) 0 0 else s.det 0x12 2 (2 + p - 24) 0 0

/-- Read the words a range touches through their decoders: true when one is uncorrectable. -/
def State.eccRange (s : State) (a n : Nat) (syns : List Nat) : Bool × State :=
  ((wordsOf a n).zipIdx).foldl (fun (q : Bool × State) p =>
    match wordOfDpa (8 * p.1.1) with
    | some w =>
      let (e, t) := q.2.eccRead w (syns.getD p.2 0) 2
      (q.1 || e == 2, t)
    | none => q) (false, s)

/-- The words of a unit's register window, with the read effects of the map (R425). -/
def State.pmpRegRead (s : State) (u off : Nat) : Nat → List Byte × State
  | 0 => ([], s)
  | k + 1 =>
    let o := 0x440000 + 0x100 * u + off
    let (w, s) := match regAt o with
      | some (r, i) =>
        let w := (s.rr r i).toNat
        (w, if r = RegId.PC_CNT then s.rw .PC_MTS u (BitVec.ofNat 32 s.mts)
          else if accMask r (· == Acc.rcl) ≠ 0 then s.liveRead r i else s)
      | none => (0, s)
    let (t, s) := s.pmpRegRead u (off + 4) k
    (leBytes 4 w ++ t, s)

/-- Read `n` bytes at a device address for channel `ch`: 0 read, 1 uncorrectable word, 2 error response. -/
def State.pmpRead (s : State) (ch a n : Nat) (io : PmpIo) : Nat × List Byte × State :=
  match s.pmpTgt ch a with
  | .bad notice => (2, [], if notice then s.pmpNotice ch else s)
  | .reg u off =>
    if 0x100 < off + n then (2, [], s.pmpNotice ch)
    else
      let (b, s) := s.pmpRegRead u off (n / 4)
      (0, b, s)
  | .mem m =>
    if !io.ok then (2, [], s)
    else
      let (bad, s) := s.eccRange m n io.syns
      if bad then (1, [], s) else (0, s.dpaRead m n, s)

/-- A Pump's write to a unit's registers reaches only PC_OVF (R425). -/
def State.pmpRegWrite (s : State) (u off : Nat) (b : List Byte) : State :=
  if off ≤ 0x64 ∧ 0x68 ≤ off + b.length then
    let v := leAt b (0x64 - off) 4 % 16
    s.fs F.PC_OVF_OVF u ((List.range 4).foldl (fun w i => if v.testBit i then setBit w i false else w) (s.fg F.PC_OVF_OVF u))
  else s

/-- Write bytes at a device address for channel `ch`. -/
def State.pmpWrite (s : State) (ch a : Nat) (b : List Byte) (io : PmpIo) : Nat × State :=
  match s.pmpTgt ch a with
  | .bad notice => (2, if notice then s.pmpNotice ch else s)
  | .reg u off => if 0x100 < off + b.length then (2, s.pmpNotice ch) else (0, s.pmpRegWrite u off b)
  | .mem m =>
    if !io.ok then (2, s)
    else
      let (ok, s) := s.busWrite m b io.wsyn
      (if ok then 0 else 1, s)

/-! ### Descriptors -/

/-- Address of the descriptor at INDEX (R296). -/
def State.pmpDscAddr (s : State) (n : Nat) : Nat :=
  s.fg F.PMP_CH_RING_LO_BASE_LO n + 2 ^ 32 * s.fg F.PMP_CH_RING_HI_BASE_HI n
    + 32 * (s.fg F.PMP_CH_IDX_INDEX n % 2 ^ s.fg F.PMP_CH_RING_CFG_SIZE n)

/-- Whether two channels name one ring: the same base in the same memory. -/
def State.sameRing (s : State) (n m : Nat) : Bool :=
  s.rr .PMP_CH_RING_LO n == s.rr .PMP_CH_RING_LO m && s.rr .PMP_CH_RING_HI n == s.rr .PMP_CH_RING_HI m
    && s.fg F.PMP_CH_RING_CFG_HOST n == s.fg F.PMP_CH_RING_CFG_HOST m

/-- Whether a channel's ring breaks the rule of Class S (R306): a Class S ring is named by no other channel (assumption 76). -/
def State.ringShared (s : State) (n : Nat) : Bool :=
  s.pmpOn.any (fun m => m != n && s.sameRing n m && (s.fg F.PMP_CH_CTL_CLASS n == 2 || s.fg F.PMP_CH_CTL_CLASS m == 2))

/-- Whether the descriptor at `a` may be read there (R291, R306): the Cistern of its cluster or LPDDR, LPDDR alone for a hub
Pump, the Cistern alone for a Class S channel of a cluster Pump. -/
def State.pmpRingOk (s : State) (n a : Nat) : Bool :=
  !s.ringShared n
    && ((a < 0x1C0000000 - 31 && !(n < 384 && s.fg F.PMP_CH_CTL_CLASS n == 2))
      || (n < 384 && dpaCluster a == n / 16 + 1 && a < 0x1100000000 && s.pmpTgt n a == .mem a))

/-- Read the descriptor at INDEX (R295, R296): started when the Pump owns it, the channel else idle; a pending trigger is then
cleared and the descriptor is to be read once more. An error response is kept for BURST_ERROR. -/
def State.pmpFetch (s : State) (n : Nat) (io : PmpIo) : State :=
  let a := s.pmpDscAddr n
  let x := { PmpCh.reset with next := (s.pch n).next }
  let host := s.fb F.PMP_CH_RING_CFG_HOST n
  let r := if host ∧ s.fg F.PMP_CH_CTL_CLASS n ≠ 2 then (if io.ok then (0, padTo 32 (io.host.take 32), s) else (2, [], s))
    else if host ∨ !s.pmpRingOk n a then (2, [], s.pmpNotice n)
    else s.pmpRead n a 32 io
  match r with
  | (0, b, s) =>
    if !dscFlag b 15 then
      let again := s.fb F.PMP_CH_STAT_PENDING n
      ((s.setPch n { x with trig := again }).fs F.PMP_CH_STAT_PENDING n 0).setPmp n 1
    else
      let s := (s.setPch n { x with desc := b, at_ := a }).setPmp n 2
      if dscBad (decide (n < 384)) (s.fg F.PMP_CH_CTL_CLASS n == 2) b then s.pmpFail n Sts.PMP_BUS_ERROR 0 else s
  | (e, _, s) => (s.setPch n { x with at_ := a, err := e, retry := (s.pch n).retry, tgt := dpaCluster a }).setPmp n 2

/-- PUMP_TRIGGER (R296, R297): the trigger that reached an idle channel makes it read its descriptor. -/
def execPumpTrigger (n : Nat) (io : PmpIo) (s : State) : Host.Outcome State Fault Refusal :=
  let s := s.elapse io.dt
  .next (if s.pmpState n = 1 ∧ (s.pch n).trig then s.pmpFetch n io else s)

/-- KICK (R297). -/
def execKick (n : Nat) (s : State) : Host.Outcome State Fault Refusal :=
  .next (if 448 ≤ n ∨ pmpReserved n then s else s.pmpTrig n)

/-! ### Bursts -/

/-- Nominal rate of a memory in 10⁻³ bytes per ns (R300). -/
def pmpRate (host : Bool) (a : Nat) : Nat := if host then 7877 else if a < 0x1C0000000 then 51200 else 64000

/-- The QoS of a channel's bursts (R292, R299): HP0 0 - 3 at 7 while a takeover loads an image. -/
def State.pmpQos (s : State) (n : Nat) : Nat :=
  if 384 ≤ n ∧ n < 388 then (if (List.range 6).any (fun g => s.fg F.RG_SPARE_STAT_STATE g == 1) then 7 else 6)
  else if 388 ≤ n ∧ n < 400 then 6 else if 400 ≤ n ∧ n < 416 then 5 else if 446 ≤ n then 2
  else match s.fg F.PMP_CH_CTL_CLASS n with
    | 2 => 7
    | 1 => s.fg F.PMP_CH_CTL_QOS n
    | _ => 1

/-- The address of a row (R295). -/
def rowAddr (base stride row off : Nat) : Nat := wrap 64 ((base : Int) + sext 32 stride * row + off)

/-- Source, destination and length of a channel's next burst (R295, R298): as long as its row, the 1,024-byte boundaries of
source and destination and the 16 beats allow. -/
def PmpCh.burst (x : PmpCh) : Nat × Nat × Nat :=
  let d := x.desc
  let src := rowAddr (leAt d 8 8) (leAt d 0x18 4) x.row x.off
  let dst := rowAddr (leAt d 16 8) (leAt d 0x1C 4) x.row x.off
  (src, dst, min (dscLen d - x.off) (min (1024 - dst % 1024) (if dscFlag d 12 then 1024 else 1024 - src % 1024)))

/-- Whether a device address lies in X or Y data SRAM of a unit inside a REP, which keeps it from other masters (R117). -/
def State.inRepeat (s : State) (a : Nat) : Bool :=
  if 0x1100000000 ≤ a ∧ a < 0x1100000000 + 192 * 0x40000 then
    let q := s.redirected ((a - 0x1100000000) / 0x40000)
    let o := (a - 0x1100000000) % 0x40000
    decide (0x10000 ≤ o ∧ o < 0x30000) && decide (0 < (s.core q).rep) && s.ust q == 2
  else false

/-- Whether a channel's next burst waits for a unit (R298). -/
def State.pmpWaits (s : State) (n : Nat) : Bool :=
  let x := s.pch n
  let (src, dst, _) := x.burst
  (!dscFlag x.desc 12 && !dscFlag x.desc 11 && s.inRepeat src) || (!dscFlag x.desc 10 && s.inRepeat dst)

/-- Whether a channel has a burst to issue. -/
def State.pmpHas (s : State) (n : Nat) : Bool :=
  let x := s.pch n
  s.pmpState n == 2 && x.desc != [] && x.err == 0 && decide (x.row < dscRows x.desc)

/-- Whether a channel may issue its next burst now (R298 - R300). -/
def State.pmpEligible (s : State) (n : Nat) : Bool :=
  s.pmpHas n && decide ((s.pch n).next ≤ s.time.up) && !s.pmpWaits n

/-- Whether a burst slot is free for a channel (R299, R306): of four, one is kept for Class S. `io` says how many bursts of
Class S and of other channels are still under way. -/
def State.pmpSlot (s : State) (n : Nat) (io : PmpIo) : Bool :=
  decide (io.busyS + io.busy < 4) && (s.fg F.PMP_CH_CTL_CLASS n == 2 || decide (io.busy < 3))

/-- The channel a Pump serves next (R299): highest QoS, round-robin by channel number. -/
def State.pmpNext (s : State) (p : Nat) (io : PmpIo) : Option Nat :=
  let l := (List.range 16).filter (fun h => s.pmpEligible (16 * p + h) && s.pmpSlot (16 * p + h) io)
  let q := l.foldl (fun m h => max m (s.pmpQos (16 * p + h))) 0
  let l := l.filter (fun h => s.pmpQos (16 * p + h) == q)
  let last := mget 15 s.pmp.last p
  match l.find? (fun h => decide (last < h)) with
  | some h => some h
  | none => l.head?

/-- The bytes FILL writes at an address (R295). -/
def fillBytes (pat a n : Nat) : List Byte := (List.range n).map (fun i => BitVec.ofNat 8 (pat / 2 ^ (8 * ((a + i) % 8))))

/-- One burst of a channel (R295, R298, R300). It reads, then writes; an error response is kept for BURST_ERROR. -/
def State.pmpBurst (s : State) (n : Nat) (io : PmpIo) : State :=
  let x := s.pch n
  let d := x.desc
  let fill := dscFlag d 12
  let sh := dscFlag d 11
  let dh := dscFlag d 10
  let (src, dst, b) := x.burst
  let rate := if fill then pmpRate dh dst else min (pmpRate sh src) (pmpRate dh dst)
  let share := if s.fg F.PMP_CH_CTL_CLASS n = 2 then 64 else s.fg F.PMP_CH_CTL_SHARE n
  let gap := if share = 64 then 0 else (b * 64 * 1000 + share * rate - 1) / (share * rate)
  let s := if n < 384 then s.perfAgg (n / 64) 6 (some (n / 16)) 1 else s
  let x := { x with next := s.time.up + gap }
  let rd : Nat × List Byte × State := if fill then (0, fillBytes (leAt d 8 8) dst b, s)
    else if sh then (if io.ok then (0, padTo b (io.host.take b), s) else (2, [], s))
    else s.pmpRead n src b io
  match rd with
  | (0, bytes, s) =>
    let (e, s) := if dh then (0, s.hostWrite dst bytes) else s.pmpWrite n dst bytes io
    if e ≠ 0 then s.setPch n { x with err := e, tgt := if dh then 0 else dpaCluster dst }
    else
      let o := x.off + b
      s.setPch n (if dscLen d ≤ o then { x with row := x.row + 1, off := 0, retry := 0 } else { x with off := o, retry := 0 })
  | (e, _, s) => s.setPch n { x with err := e, tgt := if sh then 0 else dpaCluster src }

/-- PUMP_BURST_ISSUE (R299): Pump p issues the next burst of the channel it serves next. -/
def execPumpBurstIssue (p : Nat) (io : PmpIo) (s : State) : Host.Outcome State Fault Refusal :=
  let s := s.elapse io.dt
  .next (if 28 ≤ p then s
    else match s.pmpNext p io with
      | some h => ({ s with pmp := { s.pmp with last := mput 15 s.pmp.last p h } } : State).pmpBurst (16 * p + h) io
      | none => s)

/-- BURST_ERROR (R304): the failed burst, or descriptor read, is issued again up to RETRY_N times; then the channel halts. -/
def execBurstError (n : Nat) (io : PmpIo) (s : State) : Host.Outcome State Fault Refusal :=
  let s := s.elapse io.dt
  let x := s.pch n
  .next (if s.pmpState n ≠ 2 ∨ x.err = 0 then s
    else if x.retry < s.fg F.PMP_CH_CTL_RETRY_N n then
      let s := s.setPch n { x with err := 0, retry := x.retry + 1 }
      if x.desc = [] then s.pmpFetch n io else s
    else s.pmpFail n (if x.err = 1 then Sts.PMP_ECC else Sts.PMP_BUS_ERROR) x.tgt)

/-! ### Completion and stops -/

/-- The completion line of a channel (R301). -/
def State.pmpLine (s : State) (n : Nat) : Nat := if n < 384 then n % 16 else 16 + s.fg F.PMP_CH_RING_CFG_EVT_SEL n

/-- Whether every row of the descriptor in progress has been written. -/
def State.pmpMoved (s : State) (n : Nat) : Bool :=
  let x := s.pch n
  s.pmpState n == 2 && x.desc != [] && x.err == 0 && decide (dscRows x.desc ≤ x.row)

/-- A descriptor completes (R301): OWN returned, INDEX advanced, the lines pulsed. -/
def State.pmpDone (s : State) (n : Nat) (io : PmpIo) : State :=
  let x := s.pch n
  let q := leBytes 8 (setBit (leAt x.desc 0 8) 63 false)
  let s := if s.fb F.PMP_CH_RING_CFG_HOST n then s.hostWrite x.at_ q else (s.busWrite x.at_ q io.wsyn).2
  let s := (s.fs F.PMP_CH_IDX_INDEX n ((s.fg F.PMP_CH_IDX_INDEX n + 1) % 65536)).fadd F.PMP_CH_CNT_DESC n 1
  let s := s.setPch n { PmpCh.reset with next := x.next }
  let s := if dscFlag x.desc 13 then s else s.pulse (s.pmpCl n) (s.pmpLine n)
  if dscFlag x.desc 14 then s.pulse (s.pmpCl n) (leAt x.desc 3 1) else s

/-- DESCRIPTOR_COMPLETE (R296, R301): the channel then reads the next descriptor as for a trigger. -/
def execDescriptorComplete (n : Nat) (io : PmpIo) (s : State) : Host.Outcome State Fault Refusal :=
  let s := s.elapse io.dt
  .next (if 448 ≤ n ∨ !s.pmpMoved n then s
    else (s.pmpDone n io).pmpFetch n io)

/-- ABORT (R303, R305): a descriptor whose last write has been acknowledged completes first. -/
def State.pmpAbort (s : State) (n : Nat) : State :=
  let st := s.pmpState n
  if st = 2 then
    let s := if s.pmpMoved n then s.pmpDone n {} else s
    s.pmpStop n 3 Sts.PMP_ABORTED (s.pmpResidue n)
  else if st = 1 then s.pmpStop n 3 Sts.PMP_ABORTED 0
  else s

def execAbort (n : Nat) (s : State) : Host.Outcome State Fault Refusal :=
  .next (if 448 ≤ n ∨ pmpReserved n then s else s.pmpAbort n)

/-- Whether the Pump of a channel is held by a cluster reset, until its reload is complete, or by a failed one (R92, R305). -/
def State.pmpInReset (s : State) (n : Nat) : Bool :=
  decide (n < 384) && (s.fg F.CL_STAT_STATE (n / 16) == 4 || (mfind s.eng.clRst (n / 16)).any (fun x => !x.loaded))

/-- EN written (R296). A channel of a cluster in reset stays OFF until the reload is complete. -/
def State.pmpEnable (s : State) (n : Nat) (en : Bool) : State :=
  let st := s.pmpState n
  let s := s.fs F.PMP_CH_CTL_EN n (b2n en)
  if en then (if st = 0 ∧ !s.pmpInReset n then s.setPmp n 1 else s)
  else if st = 2 then
    let s := if s.pmpMoved n then s.pmpDone n {} else s
    s.pmpStop n 0 Sts.DISABLED (s.pmpResidue n)
  else ((s.setPch n { PmpCh.reset with next := (s.pch n).next }).fs F.PMP_CH_STAT_PENDING n 0).setPmp n 0

/-- PMP_CHANNEL_ENABLE (R296). -/
def execPmpChannelEnable (n : Nat) (en : Bool) (s : State) : Host.Outcome State Fault Refusal :=
  .next (if 448 ≤ n ∨ pmpReserved n then s else s.pmpEnable n en)

/-- INDEX written (R296): in OFF only. -/
def State.pmpIndex (s : State) (n v : Nat) : State :=
  if s.pmpState n = 0 then s.fs F.PMP_CH_IDX_INDEX n (v % 65536) else s.fs F.PMP_CH_STAT_IDX_ERR n 1

/-- PMP_INDEX_WRITE (R296). -/
def execPmpIndexWrite (n v : Nat) (s : State) : Host.Outcome State Fault Refusal :=
  .next (if 448 ≤ n ∨ pmpReserved n then s else s.pmpIndex n v)

/-- A write of PMP_CH_CTL whose fields are in force (R296, R303, R305): EN = 0 goes before ABORT, and ABORT before EN = 1.
EN = 0 with ABORT leaves an idle channel OFF with DISABLED. -/
def State.pmpCtl (s : State) (n w : Nat) : State :=
  if !w.testBit 0 then
    (if w.testBit 1 ∧ s.pmpState n = 1 then (s.fs F.PMP_CH_CTL_EN n 0).pmpStop n 0 Sts.DISABLED 0 else s.pmpEnable n false)
  else
    let s := if w.testBit 1 then s.pmpAbort n else s
    let s := s.pmpEnable n true
    if w.testBit 26 then s.pmpTrig n else s

/-- The triggers of a tick boundary (R297). -/
def State.pmpTick (s : State) : State :=
  (s.pmpOn.filter (fun n => s.fb F.PMP_CH_CTL_TRIG_TICK n)).foldl State.pmpTrig s

/-- A burst of a channel cut by a reset after `beats` beats of 64 bytes were written (R113): those beats alone take effect, and a
C1 Notice names the Pump. -/
def State.pmpCut (s : State) (n beats : Nat) : State :=
  if !s.pmpHas n then s
  else
    let x := s.pch n
    let (src, dst, b) := x.burst
    let k := if beats = 0 then 0 else min b (64 * beats - dst % 64)
    let bytes := if dscFlag x.desc 12 then fillBytes (leAt x.desc 8 8) dst k else s.dpaRead src k
    let s := match s.pmpTgt n dst with
      | .mem m => (s.busWrite m bytes 0).2
      | _ => s
    s.pmpNotice n

/-- A cluster reset stops every channel of its Pump without status or interrupt (R305); one that was BUSY is remembered, to
start its descriptor again. `cut` names the channels whose burst is under way, with the beats written (R113). -/
def State.pmpReset (s : State) (c : Nat) (cut : List (Nat × Nat)) : State :=
  let s := (cut.filter (fun p => decide (p.1 < 16))).foldl (fun s p => s.pmpCut (16 * c + p.1) p.2) s
  (List.range 16).foldl (fun s h =>
    let n := 16 * c + h
    let st := s.pmpState n
    if st = 0 then s
    else ((s.setPch n { PmpCh.reset with trig := st == 2 }).fs F.PMP_CH_STAT_PENDING n 0).setPmp n 0) s

/-- The Pump restarts at the end of a reload (R92, R305). -/
def State.pmpRestart (s : State) (c : Nat) : State :=
  (List.range 16).foldl (fun s h =>
    let n := 16 * c + h
    if s.fb F.PMP_CH_CTL_EN n ∧ s.pmpState n = 0 then s.setPmp n 1 else s) s

end Sys2Proof.Machine
end

