-- ==== Sys2Proof/Machine/Float.lean ====
section
/-! DEFINITION. The Float (R193 - R208): ceilings, stored energy and the capacitance measurement, released energy, trips and
the retry cycle, delivered energy and the window limiter; and the drive-channel and line banks it guards (R181, R208). -/

namespace Sys2Proof.Machine

/-! ### State access -/

def State.port (s : State) (n : Nat) : DrvPort := mget DrvPort.reset s.drv.ports n
def State.setPort (s : State) (n : Nat) (x : DrvPort) : State :=
  { s with drv := { s.drv with ports := mput DrvPort.reset s.drv.ports n x } }
def State.grp (s : State) (g : Nat) : BoostGrp := mget BoostGrp.reset s.drv.grps g
def State.setGrp (s : State) (g : Nat) (x : BoostGrp) : State :=
  { s with drv := { s.drv with grps := mput BoostGrp.reset s.drv.grps g x } }
def State.ch (s : State) (c : Nat) : DrvCh := mget DrvCh.reset s.drv.chs c
def State.setCh (s : State) (c : Nat) (x : DrvCh) : State :=
  { s with drv := { s.drv with chs := mput DrvCh.reset s.drv.chs c x } }

/-- Port, channel in the port and group of a drive channel (R5, R181). -/
abbrev chPort (c : Nat) : Nat := c / 8
abbrev chGrp (c : Nat) : Nat := c / 4

/-- The line entry of the factory (R208). -/
def lineFactory : Nat :=
  160 + 10 * 2 ^ 18 + 0xFFFF * 2 ^ 32 + 25 * 2 ^ 48 + 3 * 2 ^ 61 * 2 + 15 * 2 ^ 72 + 400 * 2 ^ 80 + 25 * 2 ^ 90
    + 3 * 2 ^ 98 + 40 * 2 ^ 102 + 50 * 2 ^ 108 + 20 * 2 ^ 114 + 250 * 2 ^ 119

/-- An entry of a drive-channel bank and of a line bank. -/
def State.dcAt (s : State) (bank c : Nat) : Nat := mget 0 s.drv.dc (192 * bank + c)
def State.lnAt (s : State) (bank c : Nat) : Nat := mget lineFactory s.drv.ln (192 * bank + c)
/-- The entries in force at the modulators. -/
def State.dcE (s : State) (c : Nat) : Nat := s.dcAt s.drv.use c
def State.lnE (s : State) (c : Nat) : Nat := s.lnAt s.drv.use c

/-! Fields of R181 and R208. -/
abbrev dcEn (e : Nat) : Bool := e.testBit 63
abbrev dcInv (e : Nat) : Bool := e.testBit 62
abbrev dcDelay (e : Nat) : Nat := bits e 59 48
abbrev dcTrim (e : Nat) : Int := sext 16 (bits e 47 32)
abbrev dcVfs (e : Nat) : Nat := bits e 31 16
abbrev lnTrip (e : Nat) : Nat := bits e 9 0
abbrev lnWin (e : Nat) : Nat := bits e 24 18
abbrev lnEWin (e : Nat) : Nat := bits e 47 32
abbrev lnRetry (e : Nat) : Nat := bits e 55 48
abbrev lnLf (e : Nat) : Bool := e.testBit 61
abbrev lnHf (e : Nat) : Bool := e.testBit 62
abbrev lnLw (e : Nat) : Bool := e.testBit 63
abbrev lnDrift (e : Nat) : Nat := bits e 79 72
abbrev lnOpen (e : Nat) : Nat := bits e 89 80
abbrev lnShort (e : Nat) : Nat := bits e 97 90
abbrev lnTint (e : Nat) : Nat := bits e 101 98
abbrev lnLfFreq (e : Nat) : Nat := bits e 118 114
abbrev lnHfFreq (e : Nat) : Nat := bits e 127 119

/-! ### Limits (R194, R195) -/

/-- A limit in force (R194): the setting, or the ceiling where it is 0xFFFF; never above the ceiling. -/
def effective (set ceil : Nat) : Nat := if set = 0xFFFF then ceil else min set ceil

def State.eStore (s : State) (g : Nat) : Nat := effective (s.fg F.FLT_GRP_E_STORE_MAX g) (s.fg F.FLT_FUSE0_E_STORE_CEIL 0)
def State.eWindow (s : State) (c : Nat) : Nat := effective (lnEWin (s.lnE c)) (s.fg F.FLT_FUSE1_E_WINDOW_CEIL 0)

/-- V_E in 1/256 V for a capacitance of num/den µF (R195). -/
def veOf (eStore num den : Nat) : Nat := if num = 0 then 0xFFFF else min 0xFFFF (isqrt (2000 * eStore * 65536 * den / num))

/-- C_used as a fraction: the greater of C_DECL and the measured value. -/
def capUsed (cDecl mNum mDen : Nat) : Nat × Nat := if cDecl * mDen ≥ mNum then (cDecl, 1) else (mNum, mDen)

/-- FLT_VE and USED_MEAS from the register values (R195). A failed group that has neither figure keeps the V_E of its rise
phase, an idle one shows none. -/
def State.showVe (s : State) (g : Nat) : State :=
  let d := s.fg F.FLT_GRP_C_DECL g
  let m := s.fg F.FLT_CAP_C_MEAS g
  let s := s.fs F.FLT_CAP_USED_MEAS g (b2n (decide (d < m)))
  if (s.fg F.FLT_CAP_MEAS g = 4 ∨ s.fg F.FLT_CAP_MEAS g = 0) ∧ max d m = 0 then s
  else s.fs F.FLT_VE_V_E g (veOf (s.eStore g) (max d m) 1)

/-- The same for every group that is not in RISE: after a change of a setting that V_E depends on. -/
def State.showVes (s : State) : State :=
  (List.range 48).foldl (fun s g =>
    if s.fg F.FLT_CAP_MEAS g = 2 ∨ (s.fg F.FLT_CAP_MEAS g = 0 ∧ s.fg F.FLT_GRP_C_DECL g = 0) then s else s.showVe g) s

/-! ### Released energy (R199, R200) -/

/-- Exact comparison of R199 for one channel, all figures given. -/
def releaseOk (railMax iTrip cellDelay eMax : Nat) : Bool :=
  decide (railMax * iTrip * (390625 + 100 * cellDelay) ≤ eMax * 1600000)

/-- The first enabled channel that fails R199, with the terms as functions. -/
def releaseFail (rail trip emax : Nat → Nat) (en : Nat → Bool) (delay : Nat) : Option Nat :=
  (List.range 192).find? (fun c => en c && !releaseOk (rail (chGrp c)) (trip c) delay (emax (chGrp c)))

/-- The terms as they stand. -/
def State.railMaxOf (s : State) (g : Nat) : Nat := s.fg F.BG_RAIL_RAIL_MAX g
def State.eRelOf (s : State) (g : Nat) : Nat := effective (s.fg F.FLT_REL_E_RELEASE_MAX g) (s.fg F.FLT_FUSE0_E_RELEASE_CEIL 0)
def State.tripOf (s : State) (c : Nat) : Nat := lnTrip (s.lnAt s.drv.act c)
def State.enOf (s : State) (c : Nat) : Bool := dcEn (s.dcAt s.drv.act c)

/-! ### Capacitance measurement (R197) -/

/-- A group starts (R197): SETTLE with the boost OFF, V_E from the figures at hand (R195). -/
def State.startMeas (s : State) (g : Nat) : State :=
  let x := s.grp g
  (((s.setGrp g { x with at_ := s.time.up, hist := [], q := 0, riseN := 0, acc := 0 }).fs F.FLT_CAP_MEAS g 1).fs
    F.FLT_CAP_CAUSE g 0).showVe g

/-- A measurement fails: C5 Warn, the boost stays OFF. -/
def State.failMeas (s : State) (g cause : Nat) : State :=
  ((s.fs F.FLT_CAP_MEAS g 4).fs F.FLT_CAP_CAUSE g cause).det 0x54 (g / 2) g 3 cause

/-- The change of the rail over the entries of a list. -/
def railSpan (h : List (Nat × Nat)) : Nat :=
  h.foldl (fun m p => max m p.2) 0 - h.foldl (fun m p => min m p.2) 65536

/-- SETTLE on a valid frame (R197). -/
def State.settleFrame (s : State) (g rail : Nat) (ready : Bool) : State :=
  let x := s.grp g
  let h := ((s.time.up, rail) :: x.hist)
  let full := h.any (fun p => decide (p.1 + 10 * msNs ≤ s.time.up))
  let h := h.filter (fun p => decide (s.time.up ≤ p.1 + 10 * msNs))
  let s := s.setGrp g { x with hist := h }
  if ready && full && decide (railSpan h < 128) then
    let d := s.fg F.FLT_GRP_C_DECL g
    let rise := s.fg F.FLT_CTL_MEAS_V 0 * 256
    let s := s.fs F.FLT_VE_V0 g rail
    if (d ≠ 0 ∧ veOf (s.eStore g) d 1 < rail + rise) ∨ (d = 0 ∧ s.eStore g = 0) then s.failMeas g 2
    else
      let s := s.setGrp g { s.grp g with at_ := s.time.up, hist := [], q := 0, riseN := 0, r6 := 6 * rail, acc := 0 }
      (s.fs F.FLT_VE_V_E g (if d = 0 then min 0xFFFF (rail + 128) else veOf (s.eStore g) d 1)).fs F.FLT_CAP_MEAS g 2
  else s

/-- RISE on a valid frame (R197). Q/ΔV in µF is 125·q/(384·ΔV) for the codes q and ΔV. -/
def State.riseFrame (s : State) (g rail : Nat) (ib : Int) : State :=
  let x := s.grp g
  let q := x.q + ib
  let v0 := s.fg F.FLT_VE_V0 g
  let dv := rail - v0
  let d := s.fg F.FLT_GRP_C_DECL g
  let n := if v0 + s.fg F.FLT_CTL_MEAS_V 0 * 256 ≤ rail then x.riseN + 1 else 0
  let s := s.setGrp g { x with q := q, riseN := n }
  let s := if 128 ≤ dv then
      let (a, b) := capUsed d (125 * q.toNat) (384 * dv)
      s.fs F.FLT_VE_V_E g (veOf (s.eStore g) a b)
    else s
  if n < 4 then s
  else if q ≤ 0 then s.failMeas g 4
  else
    let (m, s) := s.quot (125 * q.toNat) (384 * dv)
    ((s.fs F.FLT_CAP_C_MEAS g (min 0xFFFF m)).fs F.FLT_CAP_MEAS g 3).showVe g

/-- MEASUREMENT_TIMEOUT (R197). -/
def execMeasurementTimeout (g : Nat) (s : State) : Host.Outcome State Fault Refusal :=
  let m := s.fg F.FLT_CAP_MEAS g
  let t := (s.grp g).at_
  .next (if 48 ≤ g then s
    else if m = 1 ∧ t + 200 * msNs ≤ s.time.up then s.failMeas g 1
    else if m = 2 ∧ t + 20 * msNs ≤ s.time.up then s.failMeas g 3
    else s)

/-! ### The rail against V_E (R196) -/

/-- The checks of a valid frame. An idle group with neither figure has no V_E yet (assumption 41). -/
def State.railFrame (s : State) (g rail : Nat) : State :=
  let x := s.grp g
  let open_ := s.fg F.FLT_CAP_MEAS g = 0 ∧ s.fg F.FLT_GRP_C_DECL g = 0 ∧ s.fg F.FLT_CAP_C_MEAS g = 0
  let ve := if open_ then 0xFFFF else s.fg F.FLT_VE_V_E g
  let n := if ve + 512 < rail then min 4 (x.over2 + 1) else 0
  let s := s.setGrp g { x with
    over2 := n
    forced := x.forced || n == 4
    over5 := if 105 * ve < 100 * rail then some (x.over5.getD s.time.up) else none
    okAt := if rail ≤ ve then some (x.okAt.getD s.time.up) else none }
  if n = 4 ∧ x.over2 = 3 then s.det 0x54 (g / 2) g 1 0 else s

/-- RAIL_OVERVOLTAGE_TRIP (R196). -/
def execRailOvervoltageTrip (g : Nat) (s : State) : Host.Outcome State Fault Refusal :=
  let x := s.grp g
  .next (match x.over5 with
    | some t => if g < 48 ∧ t + msNs ≤ s.time.up ∧ !x.off then
        (s.setGrp g { x with off := true }).det 0x54 (g / 2) g 2 0 else s
    | none => s)

/-- A ramp-in of a channel's demand from tick t (R175, R196, R203). -/
def State.rampIn (s : State) (c t n shape : Nat) : State :=
  if (s.ch c).st = 0 then s else s.setCh c { s.ch c with dg := ⟨0, 1048576, t, n, shape⟩ }

/-- RAIL_RETURN (R196): the boost is free again, channels that were Hi-Z ramp in over the next tick. -/
def execRailReturn (g : Nat) (s : State) : Host.Outcome State Fault Refusal :=
  let x := s.grp g
  .next (match x.okAt with
    | some t =>
      if g < 48 ∧ (x.off ∨ x.forced) ∧ t + 10 * msNs ≤ s.time.up then
        let s := s.setGrp g { x with off := false, forced := false }
        if x.off then (List.range 4).foldl (fun s k => s.rampIn (4 * g + k) (s.time.tick + 1) 4 0) s else s
      else s
    | none => s)

/-! ### Trips (R201 - R204) -/

/-- FLT_TRIPPED shows the channels in TRIPPED or CHECK (R204). -/
def State.setSt (s : State) (c st : Nat) : State :=
  let s := s.setCh c { s.ch c with st := st }
  s.fs F.FLT_TRIPPED_CH (c / 32) (setBit (s.fg F.FLT_TRIPPED_CH (c / 32)) (c % 32) (st == 2 || st == 3))

/-- `up` at the first tick boundary at or after `d` ns from now (R8, R203). -/
def State.upTick (s : State) (d : Nat) : Nat := s.time.up + (roundTick (s.now + d) - s.now)

/-- Longest RETRY: 30 s in units of 10 ms. -/
abbrev retryMax : Nat := 3000

/-- A channel goes back to TRIPPED from CHECK with its RETRY doubled (R203). -/
def State.retrip (s : State) (c : Nat) : State :=
  let x := s.ch c
  let r := min (2 * x.retry) retryMax
  (s.setCh c { x with retry := r, timer := s.upTick (r * 10 * msNs) }).setSt c 2

/-- A channel trips (R202): Hi-Z follows from its state; counted, reported. A trip in CHECK is cause 4 (R203). -/
def State.tripCh (s : State) (c cause amp : Nat) : State :=
  let x := s.ch c
  let kind := if x.st = 3 then 4 else cause
  let s := s.setCh c { x with cause := kind, tripAt := s.mts, trips := x.trips + 1, ovr := false }
  let s := (s.fadd F.FLT_TRIPS_TRIPS 0 1).det 0x52 (chPort c) c cause amp
  if x.st = 3 then s.retrip c
  else (s.setCh c { s.ch c with timer := s.upTick (x.retry * 10 * msNs) }).setSt c 2

/-- The trip checks of a valid frame on one channel (R201): `i` in 1/512 A, I_TRIP in 1/16 A. -/
def State.tripFrame (s : State) (c : Nat) (i : Int) (hw : Bool) : State :=
  let x := s.ch c
  if (x.st ≠ 1 ∧ x.st ≠ 3) ∨ (s.grp (chGrp c)).off ∨ s.level = 4 then s
  else
    let t := 32 * lnTrip (s.lnE c)
    let a := i.natAbs
    if 3 * t < 2 * a then s.tripCh c 2 a
    else if t < a ∧ x.ovr then s.tripCh c 1 a
    else if hw then s.tripCh c 3 a
    else if t < a then s.setCh c { x with ovr := true }
    else if x.ovr ∧ a < t then s.setCh c { x with ovr := false } else s

/-- RETRY_EXPIRY (R203): TRIPPED to CHECK. The HF pilot's demodulation starts anew. -/
def State.toCheck (s : State) (c : Nat) : State :=
  let s := (s.setCh c { s.ch c with timer := s.upTick (100 * msNs), ovr := false }).setSt c 3
  let p := mget Pilot.reset s.drv.hf c
  let p := { p with acc := { Demod.zero with start := s.now, stop := s.now + 100 * msNs } }
  { s with drv := { s.drv with hf := mput Pilot.reset s.drv.hf c p } }

def execRetryExpiry (c : Nat) (s : State) : Host.Outcome State Fault Refusal :=
  .next (if c < 192 ∧ (s.ch c).st = 2 ∧ (s.ch c).timer ≤ s.time.up then s.toCheck c else s)

/-- TRIP_FREE_EXPIRY (R203): 30 s in NORMAL without a trip. -/
def execTripFreeExpiry (c : Nat) (s : State) : Host.Outcome State Fault Refusal :=
  let x := s.ch c
  .next (if c < 192 ∧ x.st = 1 ∧ x.normAt + 30 * secNs ≤ s.time.up then
      s.setCh c { x with retry := lnRetry (s.lnE c), normAt := s.time.up } else s)

/-- FLT_CLEAR (R203): the named TRIPPED channels go to CHECK. -/
def applyFltClear (e : Entry) (s : State) : State :=
  ((bitList 192 (cmdMask e.cmd)).foldl (fun s c => if (s.ch c).st = 2 then s.toCheck c else s) s).finish e Sts.OK [] false

def execFltClear (c : Cmd) (s : State) : Host.Outcome State Fault Refusal :=
  .next (submit Code.FLT_CLEAR chkNone c s)

/-! ### Delivered energy (R205, R206) -/

/-- A valid frame adds to the current bin (R205): one code product is 1/65,536 W over one drive frame. -/
def State.energyFrame (s : State) (c : Nat) (v i : Int) : State :=
  let p := (v * i).toNat
  if p = 0 then s else s.setCh c { s.ch c with cur := (s.ch c).cur + p, tickE := (s.ch c).tickE + p }

/-- Window sum S (R205). -/
def State.winSum (s : State) (c : Nat) : Nat :=
  let x := s.ch c
  x.cur + (x.bins.take (lnWin (s.lnE c) - 1)).foldl (· + ·) 0

/-- ENERGY_BIN_END (R205): every channel's bin ends once Media Time has left its 100 ms. -/
def execEnergyBinEnd (s : State) : Host.Outcome State Fault Refusal :=
  let b := s.now / (100 * msNs)
  .next (if b = s.drv.binNo then s
    else { s with drv := { s.drv with
      binNo := b
      chs := s.drv.chs.map (fun p =>
        (p.1, { p.2 with bins := (p.2.cur :: p.2.bins).take 99, cur := 0 })) |>.filter (fun p => p.2 ≠ DrvCh.reset) } })

/-- Code products per 0.1 J: 65,536 per watt, 1,536,000 frames per second. -/
abbrev prodPerDeciJ : Nat := 65536 * 153600

/-- The limiter's target gain in 2⁻³¹ (R206): exact at 1 and 0, between them the root is open within one step. -/
def State.limTarget (s : State) (c : Nat) : Nat × State :=
  let num := s.winSum c + 2 * (s.ch c).tickE
  let den := s.eWindow c * prodPerDeciJ
  let ls := s.fg F.FLT_CTL_LIM_START 0
  if 100 * num ≤ ls * den ∧ den ≠ 0 then (2147483648, s)
  else if den ≤ num then (0, s)
  else
    let r := isqrt (100 * (den - num) * 2 ^ 62 / ((100 - ls) * den))
    let (w, s) := s.freeWord
    (min 2147483648 (r + b2n (w.getLsbD 0)), s)

/-- The greatest gain one tick may reach from `g` (R206): 0.5 dB per 100 ms is a factor of 10^(0.025/2400) a tick. A gain of 0 has
no decibels; it rises by at most 2⁻¹⁵ (assumption 80). -/
def limRise (g : Nat) : Nat := if g = 0 then 65536 else g * 10000239855 / 10000000000

/-- WINDOW_LIMITER_EVALUATION at a tick boundary (R206): down to the target by a ramp over the tick that begins, up by no more than
0.5 dB per 100 ms; how much of that a tick takes is open. -/
def State.limiter (s : State) (c : Nat) : State :=
  let (t, s) := s.limTarget c
  let x := s.ch c
  let top := min t (limRise x.gain)
  let (w, s) := if x.gain < top then s.freeWord else (0, s)
  let g := if t ≤ x.gain then t else x.gain + w.toNat % (top - x.gain + 1)
  let s := s.setCh c { x with gain0 := x.gain, gain := g, lastE := x.tickE, tickE := 0 }
  s.fs F.FLT_LIMITING_CH (c / 32) (setBit (s.fg F.FLT_LIMITING_CH (c / 32)) (c % 32) (decide (g < 2147483648)))

/-- Channels that are not OFF are evaluated. -/
def State.limiterAll (s : State) : State :=
  (s.drv.chs.map (·.1)).foldl (fun s c => if (s.ch c).st = 0 then s else s.limiter c) s

/-! ### Settings (R194, R200) -/

/-- FLT_SET names group A, or 0xFF for FLT_CTL and LW_CTL alone (R286). -/
def chkFltSet (c : Cmd) (s : State) : Chk :=
  let all := c.a = 0xFF
  let delay := F.FLT_CTL_CELL_DELAY.get c.i0
  let rel := F.FLT_REL_E_RELEASE_MAX.get c.i2
  let cap := F.FLT_GRP_E_STORE_MAX.get c.i1
  if !(decide (c.a < 48) || decide all) then (Sts.CMD_RANGE, [])
  else if !imgOk .FLT_CTL c.i0 || !imgOk .LW_CTL c.i3 || (!decide all && (!imgOk .FLT_GRP c.i1 || !imgOk .FLT_REL c.i2)) then
    (Sts.CMD_RANGE, [])
  else if ¬all ∧ ((cap ≠ 0xFFFF ∧ s.fg F.FLT_FUSE0_E_STORE_CEIL 0 < cap)
      ∨ (rel ≠ 0xFFFF ∧ s.fg F.FLT_FUSE0_E_RELEASE_CEIL 0 < rel)) then (Sts.FLT_CEILING, [])
  else
    match releaseFail s.railMaxOf s.tripOf
        (fun g => if g = c.a then effective rel (s.fg F.FLT_FUSE0_E_RELEASE_CEIL 0) else s.eRelOf g) s.enOf delay with
    | some k => (Sts.FLT_RELEASE, [k])
    | none => Chk.ok

/-- Windlass writes the shadows and ARM of FLT and LW (R115). -/
def wrFltSet (c : Cmd) (s : State) : State :=
  let s := if c.a < 48 then (s.rwsWrite .FLT_GRP c.a c.i1).rwsWrite .FLT_REL c.a c.i2 else s
  (s.rwsWrite .FLT_CTL 0 (c.i0 % 2 ^ 31 + 2 ^ 31)).rwsWrite .LW_CTL 0 (c.i3 % 2 ^ 31 + 2 ^ 31)

def applyFltSet (e : Entry) (s : State) : State :=
  let k := chkFltSet e.cmd s
  if k.1 ≠ Sts.OK then ((s.setArm .FLT_CTL 0 false).setArm .LW_CTL 0 false).finish e k.1 k.2 false
  else
    let s := if e.wrote && !s.arm .FLT_CTL 0 then s else (s.rwsTransfer .FLT_CTL 0 wrFltSet e).handOver .LW_CTL 0
    s.showVes.finish e Sts.OK [] true

def execFltSet (c : Cmd) (s : State) : Host.Outcome State Fault Refusal :=
  .next (submitRws Code.FLT_SET chkFltSet wrFltSet c s)

/-- The groups FLT_REMEASURE names (R286): 0-31 in A, 32-47 in B. -/
def chkFltRemeasure (_ : Cmd) (_ : State) : Chk := Chk.ok

def applyFltRemeasure (e : Entry) (s : State) : State :=
  ((bitList 48 (e.cmd.a + e.cmd.b * 2 ^ 32)).foldl (fun s g =>
    if s.fg F.BG_CTL_OUT_MODE g ≠ 0 ∧ s.fg F.DP_STAT_STATE (g / 2) = 3 then s.startMeas g else s) s).finish e Sts.OK [] false

def execFltRemeasure (c : Cmd) (s : State) : Host.Outcome State Fault Refusal :=
  .next (submit Code.FLT_REMEASURE chkFltRemeasure c s)

/-- FLT_LINE_WRITE and FLT_LINE_READ (R208). -/
def chkFltLineWrite (c : Cmd) (s : State) : Chk :=
  if !spanOk 192 16 c then (Sts.CMD_RANGE, []) else if s.drv.lock ≠ 0 ∨ s.armedAny Code.DC_COMMIT then (Sts.DC_BANK_LOCKED, []) else Chk.ok

def applyFltLineWrite (e : Entry) (s : State) : State :=
  let k := chkFltLineWrite e.cmd s
  if k.1 ≠ Sts.OK then s.finish e k.1 k.2 false
  else
    let first := 192 * (1 - s.drv.act) + e.cmd.a
    let s := s.wroteTab Tab.LINE first e.cmd.b
    let s := { s with drv := { s.drv with ln := writeEntries lineFactory 16 first e.cmd.buf e.cmd.b s.drv.ln } }
    s.finish e Sts.OK [] true

def execFltLineWrite (c : Cmd) (s : State) : Host.Outcome State Fault Refusal :=
  .next (submit Code.FLT_LINE_WRITE chkFltLineWrite c s)

def chkFltLineRead (c : Cmd) (_ : State) : Chk :=
  if !spanOk 192 16 c ∨ 1 < c.c then (Sts.CMD_RANGE, []) else Chk.ok

def applyFltLineRead (e : Entry) (s : State) : State :=
  (s.hostWrite e.cmd.addr (readEntries lineFactory 16 (192 * e.cmd.c + e.cmd.a) e.cmd.b s.drv.ln)).finish e Sts.OK [] false

def execFltLineRead (c : Cmd) (s : State) : Host.Outcome State Fault Refusal :=
  .next (submit Code.FLT_LINE_READ chkFltLineRead c s)

/-- The 16 bytes FLT_READ returns for a channel. S/E_WINDOW in 0.1 % is open between two steps, and wholly for E_WINDOW 0. -/
def State.fltRow (s : State) (c : Nat) : List Byte × State :=
  let x := s.ch c
  let den := s.eWindow c * prodPerDeciJ
  let (r, s) := if den = 0 then
      let (w, s) := s.freeWord
      (w.toNat % 65536, s)
    else s.quot (1000 * s.winSum c) den
  let (g, s) := s.quot x.gain 65536
  (leBytes 1 x.st ++ leBytes 1 x.cause ++ leBytes 2 x.retry ++ leBytes 4 x.tripAt ++ leBytes 2 g
    ++ leBytes 2 (min 0xFFFF r) ++ leBytes 4 x.trips, s)

def chkFltRead (c : Cmd) (_ : State) : Chk := if spanOk 192 16 c then Chk.ok else (Sts.CMD_RANGE, [])

def applyFltRead (e : Entry) (s : State) : State :=
  let (b, s) := (List.range e.cmd.b).foldl (fun p i =>
    let (r, s) := p.2.fltRow (e.cmd.a + i)
    (p.1 ++ r, s)) (([] : List Byte), s)
  (s.hostWrite e.cmd.addr b).finish e Sts.OK [] false

def execFltRead (c : Cmd) (s : State) : Host.Outcome State Fault Refusal :=
  .next (submit Code.FLT_READ chkFltRead c s)

end Sys2Proof.Machine
end

