-- ==== Sys2Proof/Machine/LineWatch.lean ====
section
/-! DEFINITION. Line Watch (R209 - R215): synchronous demodulation, decisions against baselines, the Night Sweep. -/

namespace Sys2Proof.Machine

/-! ### Demodulation (R210) -/

/-- cos of p/q turns in units of 2⁻¹⁹². -/
def cosTurn (p q : Nat) : Int :=
  let r := p % q
  let r := if q < 2 * r then q - r else r
  let x : Int := (2 * piFx * r / q : Nat)
  cosTerms (x * x / fx) 48 0 fx

/-- sin of p/q turns: the cosine a quarter turn earlier. -/
def sinTurn (p q : Nat) : Int := cosTurn (4 * p + 3 * q) (4 * q)

/-- Add one frame to four sums. -/
def addSums (l : List Int) (v i cs sn : Int) : List Int :=
  [l.getD 0 0 + v * cs, l.getD 1 0 + v * sn, l.getD 2 0 + i * cs, l.getD 3 0 + i * sn]

/-- Whether the middle of drive frame `gf`, (2·gf + 1)/3,072,000 s on, lies in a window. -/
def Demod.covers (d : Demod) (gf : Nat) : Bool :=
  let t2 := (2 * gf + 1) * 1000000000
  decide (d.start * 3072000 ≤ t2) && decide (t2 < d.stop * 3072000)

/-- A valid frame enters a window: `gf` is the drive frame measured. -/
def Demod.frame (d : Demod) (freq gf : Nat) (v i : Int) (hiz : Bool) : Demod :=
  let p := freq * (2 * (gf % 1536000) + 1)
  let cs := cosTurn p 3072000
  let sn := sinTurn p 3072000
  let t := gf / 1536000 * 1000000000 + gf % 1536000 * 1000000000 / 1536000
  let d := { d with n := d.n + 1, hiz := d.hiz || hiz }
  if 2 * t < d.start + d.stop then { d with a := addSums d.a v i cs sn } else { d with b := addSums d.b v i cs sn }

/-- A frame of the window that was not valid. -/
def Demod.miss (d : Demod) (hiz : Bool) : Demod := { d with n := d.n + 1, bad := d.bad + 1, hiz := d.hiz || hiz }

/-- |Z| in 1/64 Ω of four sums: voltage codes are 1/128 V, current codes 1/512 A, so a ratio of codes is 4 Ω. -/
def zMag (l : List Int) : Nat :=
  let v := (l.getD 0 0 * l.getD 0 0 + l.getD 1 0 * l.getD 1 0).toNat
  let i := (l.getD 2 0 * l.getD 2 0 + l.getD 3 0 * l.getD 3 0).toNat
  if i = 0 then 0xFFFFFF else min 0xFFFFFF (isqrt (65536 * v / i))

/-- Greatest k in [0, 18000] whose direction is not past (re, im) for im ≥ 0, by halving. -/
def argSearch (re im : Int) : Nat → Nat → Nat
  | 0, k => k
  | n + 1, k =>
    let j := k + 2 ^ n
    if j ≤ 18000 ∧ cosTurn j 36000 * im - sinTurn j 36000 * re ≥ 0 then argSearch re im n j else argSearch re im n k

/-- arg of a complex number in steps of 0.01°, rounded toward the negative side, in [−180.00, 180.00]. -/
def argFloor (re im : Int) : Int :=
  if re = 0 ∧ im = 0 then 0
  else if im ≥ 0 then (argSearch re im 15 0 : Nat)
  else (argSearch (-re) (-im) 15 0 : Nat) - 18000

/-- The phase of Zc = (vc − j·vs)/(ic − j·is). -/
def zArg (l : List Int) : Int :=
  let vc := l.getD 0 0
  let vs := l.getD 1 0
  let ic := l.getD 2 0
  let is := l.getD 3 0
  argFloor (vc * ic + vs * is) (vc * is - vs * ic)

/-- Drive frames of a window. -/
def Demod.frames (d : Demod) : Nat := (d.stop - d.start) * 1536 / 1000000

/-- The result of a window: |Z|, phase, stability (R210): a frame of the window that never came was not valid. The last place of
both figures is open (assumption 1). -/
def State.demod (s : State) (d : Demod) : (Nat × Int × Bool) × State :=
  let l := (List.range 4).map (fun k => d.a.getD k 0 + d.b.getD k 0)
  let za := zMag d.a
  let zb := zMag d.b
  let (w, s) := s.freeWord
  let z := min 0xFFFFFF (zMag l + b2n (w.getLsbD 0))
  let p := zArg l + b2n (w.getLsbD 1)
  let p := if p > 18000 then p - 36000 else if p = -18000 then 18000 else p
  let diff := max za zb - min za zb
  let tot := max d.n d.frames
  ((z, p, !(d.hiz || decide (100 * (tot - (d.n - d.bad)) > tot) || decide (100 * diff > 5 * max za zb) || d.n == 0)), s)

/-! ### Pilots -/

def State.pil (s : State) (hf : Bool) (c : Nat) : Pilot := mget Pilot.reset (if hf then s.drv.hf else s.drv.lf) c
def State.setPil (s : State) (hf : Bool) (c : Nat) (p : Pilot) : State :=
  if hf then { s with drv := { s.drv with hf := mput Pilot.reset s.drv.hf c p } }
  else { s with drv := { s.drv with lf := mput Pilot.reset s.drv.lf c p } }

/-- Pilot frequency of a channel in Hz. -/
def State.pilFreq (s : State) (hf : Bool) (c : Nat) : Nat := if hf then 100 * lnHfFreq (s.lnE c) else lnLfFreq (s.lnE c)

/-- Whether a running sweep replaces the pilots of a channel (R213). -/
def State.swept (s : State) (c : Nat) : Bool :=
  match s.drv.sweep with
  | some w => w.run && w.mask.testBit c
  | none => false

/-- Whether the settings ask for a pilot (R209). -/
def State.pilSet (s : State) (hf : Bool) (c : Nat) : Bool :=
  let e := s.lnE c
  s.fb F.LW_CTL_EN 0 && lnLw e && (if hf then lnHf e else lnLf e)

/-- Whether a pilot runs (R209): in CHECK the HF pilot alone does (R203), a sweep replaces both (R213). -/
def State.pilOn (s : State) (hf : Bool) (c : Nat) : Bool :=
  if (s.ch c).st = 3 then hf else s.pilSet hf c && !s.swept c && s.pwr != 3

/-- Whether a port has met the condition of R175 for DOWN: its codes are Hi-Z at once (R176). -/
def State.portLost (s : State) (n : Nat) : Bool := decide (4 ≤ (s.port n).age) || decide (4 ≤ (s.port n).rttBad)

/-- Whether both legs of a channel are at the Hi-Z code (R175, R176, R184, R192, R196, R202, R203). A port that has entered UP
releases its channels at the next tick boundary. -/
def State.hiZ (s : State) (c : Nat) : Bool :=
  let x := s.ch c
  s.fg F.DP_STAT_STATE (chPort c) != 3 || s.portLost (chPort c) || decide (s.time.tick < (s.port (chPort c)).upTick)
    || s.level == 4 || s.pwr == 3 || x.st == 0 || x.st == 2
    || s.fg F.BG_CTL_OUT_MODE (chGrp c) == 0 || (s.grp (chGrp c)).off

/-- A window of `len` ns from `b` on for the demodulator of a channel, Hi-Z from the start where the channel is. -/
def State.newWin (s : State) (c b len : Nat) : Demod := { Demod.zero with start := b, stop := b + len, hiz := s.hiZ c }

/-- A running sweep's window at the present point: 10 ms of settling, then DWELL (R213). -/
def Sweep.from_ (w : Sweep) : Nat := w.ptAt + 10 * msNs
def Sweep.dwellNs (w : Sweep) : Nat := w.dwell * 250000000

/-- A measured drive frame reaches the demodulators of a channel: `vi` is none for one that was not valid. A pilot that a sweep
replaces misses the frame. -/
def State.lwFrame (s : State) (c gf : Nat) (vi : Option (Int × Int)) : State :=
  let hz := s.hiZ c
  let one := fun (d : Demod) (f : Nat) =>
    if !d.covers gf then d
    else
      match vi with
      | some (v, i) => d.frame f gf v i hz
      | none => d.miss hz
  let pilot := fun (s : State) (hf : Bool) =>
    let p := s.pil hf c
    if s.pilOn hf c then s.setPil hf c { p with acc := one p.acc (s.pilFreq hf c) }
    else if s.pilSet hf c ∧ p.acc.covers gf then s.setPil hf c { p with acc := p.acc.miss hz }
    else s
  let s := pilot (pilot s true) false
  match s.drv.sweep with
  | some w =>
    if w.run ∧ w.mask.testBit c then
      let a := mget Demod.zero s.drv.swAcc c
      let d := if a.stop = 0 then s.newWin c w.from_ w.dwellNs else a
      if d.covers gf then
        { s with drv := { s.drv with swAcc := mput Demod.zero s.drv.swAcc c (one d (w.pts.getD w.idx 1)) } }
      else s
    else s
  | none => s

/-- A port leaves service: the windows under way of its channels have a part at Hi-Z (R210). -/
def State.lwHiZ (s : State) (n : Nat) : State :=
  let pil := fun (p : Nat × Pilot) => if chPort p.1 = n then (p.1, { p.2 with acc := { p.2.acc with hiz := true } }) else p
  { s with drv := { s.drv with
    hf := s.drv.hf.map pil, lf := s.drv.lf.map pil
    swAcc := s.drv.swAcc.map (fun p => if chPort p.1 = n then (p.1, { p.2 with hiz := true }) else p) } }

/-! ### Decisions (R211, R212) -/

/-- Bytes of a point (R215). -/
def ptBytes (p : ZPoint) : List Byte := leBytes 2 p.freq ++ leBytes 1 p.flags ++ leBytes 3 p.z ++ leBytes 2 (wrap 16 p.ph)

/-- The decision on a result against a baseline: 1 SHORT, 2 OPEN, 4 DRIFT, 0 none. -/
def lwJudge (e z base : Nat) : Nat :=
  if 100 * z < lnShort e * base then 1
  else if lnOpen e * base < 100 * z then 2
  else if lnDrift e * base < 100 * (max z base - min z base) then 4
  else 0

/-- LW_DEV of a channel: the decisions in force at either pilot, NO_BASE when an enabled pilot has no baseline. -/
def State.showDev (s : State) (c : Nat) : State :=
  let e := s.lnE c
  let nb := lnLw e && ((lnHf e && (s.pil true c).base.isNone) || (lnLf e && (s.pil false c).base.isNone))
  let v := ((s.pil true c).dec ||| (s.pil false c).dec) + (if nb then 8 else 0)
  let w := (s.rr .LW_DEV (c / 8)).toNat
  let o := 2 ^ (4 * (c % 8))
  s.rw .LW_DEV (c / 8) (BitVec.ofNat 32 (w - w / o % 16 * o + v * o))

/-- Post an LW_DEVIATION record (R211). -/
def State.postDev (s : State) (hf : Bool) (c dec : Nat) (set : Bool) (pt : ZPoint) : State :=
  (s.post Evt.LW_DEVIATION c (leBytes 1 (b2n (!hf)) ++ leBytes 1 dec ++ leBytes 1 (b2n set) ++ List.replicate 5 0
    ++ ptBytes pt)).fadd F.LW_EVENTS_EVENTS 0 1

/-- A stable result is compared with the baseline (R211). -/
def State.lwDecide (s : State) (hf : Bool) (c : Nat) (pt : ZPoint) : State :=
  let p := s.pil hf c
  match p.base with
  | none => s
  | some b =>
    let d := lwJudge (s.lnE c) pt.z b.z
    let n := if p.candN > 0 ∧ p.cand = d then p.candN + 1 else 1
    let s := s.setPil hf c { p with cand := d, candN := n }
    if n < 2 then s
    else if d = 0 then
      let s := (bitList 3 p.dec).foldl (fun s i => s.postDev hf c (2 ^ i) false pt) s
      (s.setPil hf c { s.pil hf c with dec := 0 }).showDev c
    else if p.dec &&& d = d then s
    else
      let s := (s.setPil hf c { s.pil hf c with dec := p.dec ||| d }).postDev hf c d true pt
      (s.det 0x53 (c / 24) c (if d = 4 then 3 else d) pt.z).showDev c

/-- LW_BASELINE takes four consecutive stable results, within 16 windows (R212); their mean's last place is open. -/
def State.lwTake (s : State) (hf : Bool) (c : Nat) (pt : ZPoint) (stable : Bool) : State :=
  let p := s.pil hf c
  if p.left = 0 then s
  else
    let l := if stable then p.take ++ [pt] else []
    if l.length = 4 then
      let (z, s) := s.quot (l.foldl (fun n q => n + q.z) 0) 4
      let (ph, s) := s.quot (l.foldl (fun n q => n + (q.ph + 18000).toNat) 0) 4
      (s.setPil hf c { p with base := some ⟨pt.freq, 1, z, (ph : Int) - 18000⟩, take := [], left := 0, fail := false,
                              cand := 0, candN := 0 }).showDev c
    else s.setPil hf c { p with take := l, left := p.left - 1, fail := p.left == 1 }

/-- Time after the end of a drive frame by which its values have come (R169): they come in the RX frame that starts at most 400 ns
after it and lasts 651 ns (assumption 82). -/
abbrev rxLate : Nat := 1051

/-- The end of one pilot's window (R210), once its last frame has come. Windows lie at multiples of their length; one that Media
Time has jumped out of gives no result. In CHECK the HF demodulator serves the check. -/
def State.pilotEnd (s : State) (hf : Bool) (c : Nat) : State :=
  let p := s.pil hf c
  let len := (lnTint (s.lnE c) + 1) * 250000000
  let next := fun (s : State) => s.setPil hf c { s.pil hf c with acc := s.newWin c (s.now / len * len) len }
  if hf ∧ (s.ch c).st = 3 then s.lwTake hf c ZPoint.none false
  else if p.acc.stop = 0 ∨ s.now < p.acc.start ∨ p.acc.stop + len ≤ s.now then next s
  else if s.now < p.acc.stop + rxLate then s
  else if !s.pilSet hf c then next (s.lwTake hf c ZPoint.none false)
  else
    let ((z, ph, ok), s) := s.demod p.acc
    let pt : ZPoint := ⟨s.pilFreq hf c, if ok then 1 else 3, z, ph⟩
    let s := next (if p.acc.n = p.acc.bad then s else s.setPil hf c { p with last := pt })
    let s := if ok then s.lwDecide hf c pt else s
    s.lwTake hf c pt ok

/-- Complete the LW_BASELINE commands whose channels are all done (R212). -/
def State.blDone (s : State) : State :=
  let busy := fun (s : State) (e : Entry) =>
    (bitList 192 (cmdMask e.cmd)).any (fun c => (s.pil true c).left != 0 || (s.pil false c).left != 0)
  s.drv.blCmd.foldl (fun s e =>
    if busy s e then s
    else
      let bad := (bitList 192 (cmdMask e.cmd)).any (fun c => (s.pil true c).fail || (s.pil false c).fail)
      ({ s with drv := { s.drv with blCmd := s.drv.blCmd.filter (fun x => x.seq != e.seq) } } : State).finish e
        (if bad then Sts.LW_NO_BASELINE else Sts.OK) [] true) s

/-- LW_WINDOW_END: the pilot windows of a channel end. -/
def execLwWindowEnd (c : Nat) (s : State) : Host.Outcome State Fault Refusal :=
  .next (if 192 ≤ c then s else (((s.pilotEnd true c).pilotEnd false c).showDev c).blDone)

/-- The tick of a state change at the present instant: at its end, the one that is about to begin. -/
def State.tickHere (s : State) : Nat := if s.time.next ≤ s.now then s.time.tick + 1 else s.time.tick

/-- CHECK_END (R203): after 100 ms the stable |Z| decides. Z_SHORT is SHORT_PCT percent of the HF baseline, or 1.0 Ω. A channel
that returns to NORMAL ramps in over 20 ms. -/
def execCheckEnd (c : Nat) (s : State) : Host.Outcome State Fault Refusal :=
  .next (if 192 ≤ c ∨ (s.ch c).st ≠ 3 ∨ s.time.up < (s.ch c).timer then s
    else
      let p := s.pil true c
      let ((z, _, ok), s) := s.demod p.acc
      let zs := match p.base with
        | some b => lnShort (s.lnE c) * b.z
        | none => 6400
      let s := s.setPil true c { p with acc := Demod.zero }
      if ok ∧ zs ≤ 100 * z then
        let s := (s.setCh c { s.ch c with normAt := s.time.up, ovr := false }).setSt c 1
        s.rampIn c s.tickHere 1920 1
      else s.retrip c)

/-! ### Commands -/

/-- LW_BASELINE (R212): I0 is 0 PILOT or 1 SWEEP. -/
def chkLwBaseline (c : Cmd) (_ : State) : Chk := if 1 < c.i0 then (Sts.LW_RANGE, []) else Chk.ok

def applyLwBaseline (e : Entry) (s : State) : State :=
  let m := cmdMask e.cmd
  if e.cmd.i0 = 1 then
    { s with drv := { s.drv with swTake := s.drv.swTake ||| m, swCmd := s.drv.swCmd ++ [e] } }
  else
    let s := (bitList 192 m).foldl (fun s c =>
      let arm := fun (s : State) (hf : Bool) =>
        let on := lnLw (s.lnE c) && (if hf then lnHf (s.lnE c) else lnLf (s.lnE c))
        s.setPil hf c { s.pil hf c with take := [], left := if on then 16 else 0, fail := false }
      arm (arm s true) false) s
    ({ s with drv := { s.drv with blCmd := s.drv.blCmd ++ [e] } } : State).blDone

def execLwBaseline (c : Cmd) (s : State) : Host.Outcome State Fault Refusal :=
  .next (submit Code.LW_BASELINE chkLwBaseline c s)

/-- LW_READ (R215): 32 bytes a channel. -/
def chkLwRead (c : Cmd) (_ : State) : Chk := if spanOk 192 32 c then Chk.ok else (Sts.CMD_RANGE, [])

def applyLwRead (e : Entry) (s : State) : State :=
  let b := (List.range e.cmd.b).flatMap (fun i =>
    let h := s.pil true (e.cmd.a + i)
    let l := s.pil false (e.cmd.a + i)
    ptBytes h.last ++ ptBytes l.last ++ ptBytes (h.base.getD ZPoint.none) ++ ptBytes (l.base.getD ZPoint.none))
  (s.hostWrite e.cmd.addr b).finish e Sts.OK [] false

def execLwRead (c : Cmd) (s : State) : Host.Outcome State Fault Refusal :=
  .next (submit Code.LW_READ chkLwRead c s)

/-- Whether a sweep is armed or running (R213). -/
def State.sweepBusy (s : State) : Bool :=
  s.armedAny Code.LW_SWEEP || (match s.drv.sweep with
    | some w => w.run
    | none => false)

/-- LW_SWEEP (R213): the buffer holds the mask and A frequencies. -/
def chkLwSweep (c : Cmd) (s : State) : Chk :=
  let f := (List.range c.a).map (fun i => leAt c.buf (24 + 2 * i) 2)
  let level := bits c.b 7 0
  let dwell := bits c.b 12 8
  if 88 < c.len then (Sts.CMD_RANGE, [])
  else if c.a = 0 ∨ 32 < c.a ∨ c.len < 24 + 2 * c.a ∨ level < 40 ∨ 80 < level ∨ dwell = 0 ∨ 16 < dwell
      ∨ !f.all (fun x => decide (5 ≤ x) && decide (x ≤ 40000)) then (Sts.LW_RANGE, [])
  else if s.sweepBusy then (Sts.LW_SWEEP_BUSY, [])
  else Chk.ok

def State.setSweep (s : State) (w : Sweep) : State := { s with drv := { s.drv with sweep := some w } }

/-- Whether a drive channel's OC slot is written by a post-matrix insert (R214): the Router's output entry names it, its
output word has SRC 2. -/
def State.chInsert (s : State) (c : Nat) : Bool :=
  s.aud.rt.any (fun p =>
    p.1 / 4096 == s.aud.rtAct && p.2.testBit 63 && p.2.testBit 62 && bits p.2 43 40 == 7 && bits p.2 23 8 == c
      && bits ((mget (0 : Word) s.aud.moWord (bits p.2 57 48)).toNat) 15 14 == 2)

/-- The sweep starts (R213): the records of the last one go; a muted channel's Class P and B content ramps out in 20 ms,
except where an insert writes its OC slot (R214). -/
def applyLwSweep (e : Entry) (s : State) : State :=
  let n := (s.drv.swNum + 1) % 2 ^ 32
  let mask := leAt e.cmd.buf 0 24
  let w : Sweep := ⟨e, mask, (List.range e.cmd.a).map (fun i => leAt e.cmd.buf (24 + 2 * i) 2), bits e.cmd.b 7 0,
    bits e.cmd.b 12 8, e.cmd.b.testBit 16, e.cmd.b.testBit 17, n, 0, s.now, s.mts, 0,
    ((bitList 192 mask).filter s.chInsert).foldl (fun m c => m + 2 ^ c) 0, true⟩
  let s := (s.setSweep w).rw .LW_SWEEP_STAT 0 (BitVec.ofNat 32 (n % 65536 * 65536 + 2))
  let s := { s with drv := { s.drv with swRec := [], swAcc := [], swNum := n } }
  if w.mute then
    { s with drv := { s.drv with mute := (bitList 192 (mask - w.ins)).foldl (fun m c =>
        mput (Ramp.flat 1048576) m c ⟨1048576, 0, s.time.tick, 1920, 0⟩) s.drv.mute } }
  else s

/-- LW_SWEEP is armed, or starts at the next boundary: LW_SWEEP_STAT shows it. -/
def execLwSweep (c : Cmd) (s : State) : Host.Outcome State Fault Refusal :=
  let seq := s.hif.cmdSeq
  let t := submit Code.LW_SWEEP chkLwSweep c s
  .next (if (t.sched ++ t.dueNext).any (fun e => e.seq == seq) then t.fs F.LW_SWEEP_STAT_STATE 0 1 else t)

/-- The sweep baseline point of a channel at a frequency. -/
def State.swBaseAt (s : State) (c f : Nat) : Option ZPoint :=
  (mget [] s.drv.swBase c).find? (fun p => p.freq == f && p.flags % 4 == 1)

/-- Record a point for a channel. -/
def State.recPoint (s : State) (c : Nat) (p : ZPoint) : State :=
  { s with drv := { s.drv with swRec := mput [] s.drv.swRec c (mget [] s.drv.swRec c ++ [p]) } }

/-- End a sweep: pending points are SKIPPED, the record is posted, the completion written, muted content returns. -/
def State.sweepEnd (s : State) (w : Sweep) (status st ended : Nat) : State :=
  let s := (bitList 192 w.mask).foldl (fun s c =>
    (w.pts.drop (mget [] s.drv.swRec c).length).foldl (fun s f => s.recPoint c ⟨f, 64, 0, 0⟩) s) s
  let flagged := s.drv.swRec.foldl (fun n p => n + (p.2.filter (fun q => q.flags &&& 0x38 != 0)).length) 0
  let s := (s.setSweep { w with run := false, ended := ended }).fs F.LW_SWEEP_STAT_STATE 0 st
  let s := { s with drv := { s.drv with mute := s.drv.mute.map (fun (p : Nat × Ramp) =>
      (p.1, if w.mask.testBit p.1 then ⟨p.2.last s.time.tick, 1048576, s.time.tick, 1920, 0⟩ else p.2)) } }
  let s := s.post Evt.LW_SWEEP_DONE 0 (leBytes 4 w.num ++ leBytes 4 flagged)
  if st = 3 then
    let take := s.drv.swTake &&& w.mask
    let s := { s with drv := { s.drv with
      swBase := (bitList 192 take).foldl (fun m c => mput [] m c (mget [] s.drv.swRec c)) s.drv.swBase,
      swTake := s.drv.swTake - take } }
    let s := s.finish w.entry status [] false
    s.drv.swCmd.foldl (fun (s : State) (e : Entry) =>
      if cmdMask e.cmd &&& s.drv.swTake ≠ 0 then s
      else ({ s with drv := { s.drv with swCmd := s.drv.swCmd.filter (fun x => x.seq != e.seq) } } : State).finish e
        Sts.OK [] true) s
  else s.finish w.entry status [] false

/-- End a running sweep early (R214): EPOCH_RESTART and LW_SWEEP_ABORT. -/
def State.sweepAbort (s : State) : State :=
  match s.drv.sweep with
  | some w => if w.run then s.sweepEnd w Sts.MT_EVENT_CANCELLED 4 s.mts else s
  | none => s

/-- SWEEP_POINT_END (R213, R214): 10 ms of settling and DWELL have passed, and the last frame has come. The next point begins
where this one ended. -/
def execSweepPointEnd (s : State) : Host.Outcome State Fault Refusal :=
  .next (match s.drv.sweep with
    | none => s
    | some w =>
      let stop := w.from_ + w.dwellNs
      if !w.run ∨ s.now < stop + rxLate then s
      else
        let f := w.pts.getD w.idx 0
        let s := (bitList 192 w.mask).foldl (fun s c =>
          if (s.ch c).st = 2 ∨ (s.ch c).st = 3 then s.recPoint c ⟨f, 4 + 64, 0, 0⟩
          else
            let ((z, ph, ok), s) := s.demod (mget Demod.zero s.drv.swAcc c)
            let d := match s.swBaseAt c f with
              | some b => if w.comp ∧ ok then lwJudge (s.lnE c) z b.z else 0
              | none => 0
            s.recPoint c ⟨f, (if ok then 1 else 3) + 8 * d, z, ph⟩) s
        let s := { s with drv := { s.drv with swAcc := [] } }
        if w.idx + 1 < w.pts.length then
          (s.setSweep { w with idx := w.idx + 1, ptAt := stop }).fs F.LW_SWEEP_STAT_POINT 0 (w.idx + 1)
        else s.sweepEnd w Sts.OK 3 (mtsOf stop))

/-- LW_SWEEP_ABORT ends the sweep, armed or running. -/
def applyLwSweepAbort (e : Entry) (s : State) : State :=
  let gone := (s.sched ++ s.dueNext).filter (fun x => x.code == Code.LW_SWEEP)
  let s := { s with sched := s.sched.filter (fun x => x.code != Code.LW_SWEEP),
                    dueNext := s.dueNext.filter (fun x => x.code != Code.LW_SWEEP) }
  let s := s.cancelAll gone
  s.sweepAbort.finish e Sts.OK [] false

def execLwSweepAbort (c : Cmd) (s : State) : Host.Outcome State Fault Refusal :=
  .next (submit Code.LW_SWEEP_ABORT chkNone c s)

/-- A sweep record of a channel (R215). MUTE_IGNORED is set for channels whose OC slot an insert writes. While the sweep runs, the
points to come stand there without a flag (assumption 81). -/
def swRecBytes (w : Sweep) (c : Nat) (ignored : Bool) (l : List ZPoint) : List Byte :=
  leBytes 2 c ++ leBytes 1 w.pts.length ++ leBytes 1 (b2n (w.mute && !ignored) + 2 * b2n (w.mute && ignored) + 4 * b2n w.comp)
    ++ leBytes 4 w.start ++ leBytes 4 w.ended ++ leBytes 4 w.num ++ l.flatMap ptBytes
    ++ (w.pts.drop l.length).flatMap (fun f => ptBytes ⟨f, 0, 0, 0⟩)

def chkLwSweepRead (c : Cmd) (s : State) : Chk :=
  let n := match s.drv.sweep with
    | some w => w.pts.length
    | none => 0
  if spanOk 192 (16 + 8 * n) c then Chk.ok else (Sts.CMD_RANGE, [])

def applyLwSweepRead (e : Entry) (s : State) : State :=
  match s.drv.sweep with
  | none => s.finish e Sts.OK [] false
  | some w =>
    let b := (List.range e.cmd.b).flatMap (fun i =>
      let c := e.cmd.a + i
      if w.mask.testBit c then swRecBytes w c (w.ins.testBit c) (mget [] s.drv.swRec c)
      else List.replicate (16 + 8 * w.pts.length) 0)
    (s.hostWrite e.cmd.addr b).finish e Sts.OK [] false

def execLwSweepRead (c : Cmd) (s : State) : Host.Outcome State Fault Refusal :=
  .next (submit Code.LW_SWEEP_READ chkLwSweepRead c s)

end Sys2Proof.Machine
end

