-- ==== Sys2Proof/Machine/Drive.lean ====
section
/-! DEFINITION. Drive ports (R167 - R192): TX and RX frames, bring-up and loss, the mailbox, drive-channel settings, edge
codes and the envelope boost. The interpolator of R185 and the shaper of R187 are given by figures and not by coefficients: both are
open functions of what they filter (assumptions 1 and 79). -/

namespace Sys2Proof.Machine

/-! ### Pulse-width figures (R186, R187) -/

/-- M_MAX as a fraction over 10⁹: 1 − 2·MIN_PULSE/T_P with T_P = 10⁹/768,000 ns. -/
def mMaxNum (minPulse : Nat) : Nat := 1000000000 - 1536000 * minPulse

/-- The step of the code grid. -/
def codeStep (bits_ : Nat) : Nat := 2 ^ (16 - bits_)

/-- L of R187: ⌈MIN_PULSE/2/q⌉ rounded up to the grid. -/
def codeMin (minPulse step : Nat) : Nat :=
  let l := (minPulse * 1536000 * 65536 + 1999999999) / 2000000000
  (l + step - 1) / step * step

/-- The Hi-Z code. -/
abbrev hiZCode : Nat := 0xFFFF

/-- Half a code range, and the greatest modulation index, in 2⁻³¹ of the range of m (R186). -/
abbrev mUnit : Nat := 2147483648
def mMax (minPulse : Nat) : Nat := mMaxNum minPulse * mUnit / 1000000000

/-- Whether |u| exceeds M_MAX·V_rail, u in 1/65,536 V and the rail in 1/256 V. -/
def clips (u : Int) (rail minPulse : Nat) : Bool := decide (rail * 256 * mMaxNum minPulse < u.natAbs * 1000000000)

/-- A history of which only values other than 0 count. -/
def trimHist (n : Nat) (l : List Int) : List Int :=
  let l := l.take n
  if l.all (· == 0) then [] else l

/-- The demand of a switching period in 2⁻¹⁶ V (R185): of frame gf, in which its codes leave, and the samples so far. A channel whose
demand has been 0 stays there. -/
def interpOut (gf : Nat) (hist : List Int) : Int :=
  if hist = [] then 0 else (Config.interp (gf / 2 % 8) hist).toInt

/-- The modulation index of the period whose PHASE 0 codes leave in the frame pair of gf (R186), with the clip. A rail of 0 leaves the
index of a zero demand open. -/
def State.modStep (s : State) (n k gf : Nat) : State :=
  let c := 8 * n + k
  let x := s.ch c
  let q := gf / 2 + 1
  let rail := if k < 4 then (s.port n).vr.1 else (s.port n).vr.2
  let mp := s.fg F.DP_MOD_MIN_PULSE n
  let top := mMax mp
  let u := interpOut gf x.hist
  if x.mod.2 = q then s
  else if clips u rail mp then
    (s.setCh c { x with mod := (if u < 0 then -(top : Int) else top, q) }).fs F.DP_ERR_CLIP n
      (setBit (s.fg F.DP_ERR_CLIP n) k true)
  else if rail = 0 then
    let (w, s) := s.freeWord
    s.setCh c { x with mod := ((w.toNat % (2 * top + 1) : Nat) - (top : Int), q) }
  else s.setCh c { x with mod := (u * 8388608 / (rail : Int), q) }

/-- A leg's high time from the ideal one in 2⁻¹⁶ code steps (R187): what the shaper adds, the nearest multiple of the grid, the clamp;
and the leg's errors after it. -/
def shape (order step lo : Nat) (errs : List Int) (h : Int) : Nat × List Int :=
  let v := if errs = [] then h else h + (Config.shaper order errs).toInt
  let g : Int := step * 65536
  let q := (v + g / 2) / g * g
  ((clampI lo (65536 - lo) (q / 65536)).toNat, trimHist order ((q - v) :: errs))

/-- The code of a high time in a frame of either phase. -/
def codeOf (phase high : Nat) : Nat := if phase = 0 then 65536 - high else high

/-- The codes of the two legs of a channel (R171, R186, R187): both Hi-Z or neither. -/
def State.legCodes (s : State) (n k gf : Nat) : List Nat × State :=
  let c := 8 * n + k
  if s.hiZ c then ([hiZCode, hiZCode], s)
  else
    let s := s.modStep n k gf
    let x := s.ch c
    let step := codeStep (s.fg F.DP_CTL_CODE_BITS n)
    let lo := codeMin (s.fg F.DP_MOD_MIN_PULSE n) step
    let order := s.fg F.DP_MOD_NS_ORDER n
    let (a, ea) := shape order step lo x.errA (mUnit + x.mod.1)
    let (b, eb) := shape order step lo x.errB (mUnit - x.mod.1)
    ([codeOf (gf % 2) a, codeOf (gf % 2) b], s.setCh c { x with errA := ea, errB := eb })

/-! ### Envelope boost (R190); the rail target of R189 stands in Demand.lean -/

/-- VFS in 1/25,600 V: the entry's in DIRECT mode, the line peak in LINE mode (R191). -/
def lineVfs (lineV : Nat) : Nat := if lineV = 1 then 3620352 else 2534144
def State.vfsOf (s : State) (g entry : Nat) : Nat :=
  if s.fg F.BG_CTL_OUT_MODE g = 2 then lineVfs (s.fg F.BG_CTL_LINE_V g) else 100 * dcVfs entry

/-- The boost loop of a group for one frame (R190): reference, accumulator and command word (R172). Where the loop does not run because
the group is DISABLED or not yet measured, the DISCHARGE of R196 goes before OFF (assumption 70). -/
def State.boostStep (s : State) (g rail : Nat) (ib : Int) : Nat × State :=
  let x := s.grp g
  let n := g / 2
  let meas := s.fg F.FLT_CAP_MEAS g
  let idle := s.fg F.DP_STAT_STATE n ≠ 3 ∨ s.fg F.BG_CTL_OUT_MODE g = 0 ∨ (meas ≠ 2 ∧ meas ≠ 3) ∨ x.off ∨ s.level = 4
    ∨ s.pwr = 3 ∨ s.portLost n
  if idle then
    let mode := if x.forced ∧ s.fg F.DP_STAT_STATE n = 3 ∧ !x.off ∧ s.level ≠ 4 ∧ !s.portLost n then 2 else 0
    (65536 * mode, (s.setGrp g { x with on := 0 }).fs F.BG_STAT_CMD g mode)
  else
    let tgt := 6 * (if meas = 2 then s.fg F.FLT_VE_V0 g + 256 * s.fg F.FLT_CTL_MEAS_V 0 else s.fg F.BG_STAT_TARGET g)
    let up := if meas = 2 then min 2 (s.fg F.BG_RAIL_SLEW g) else s.fg F.BG_RAIL_SLEW g
    let r6 := if x.r6 < tgt then min tgt (x.r6 + up) else max tgt (x.r6 - s.fg F.BG_RAIL_DECAY g)
    let e : Int := (r6 / 6 : Nat) - (rail : Int)
    let top : Int := s.fg F.DP_BOOST_ON_MAX n * 256
    let acc := clampI 0 top ((x.acc : Int) + s.fg F.DP_BOOST_KI n * e / 256)
    let on := clampI 0 top (s.fg F.DP_BOOST_KP n * e / 16 + acc)
    let on := if ib > 128 * (s.fg F.DP_BOOST_ILIM n : Int) then 0 else on
    let above := r6 / 6 + 512 < rail
    let mode := if x.forced then 2 else if above then (if s.fb F.BG_CTL_BLEED g then 2 else 0) else 1
    let on := if mode = 1 then on.toNat else 0
    (65536 * mode + on, (s.setGrp g { x with r6 := r6, acc := acc.toNat, on := on }).fs F.BG_STAT_CMD g mode)

/-! ### TX frames (R170, R172, R180) -/

/-- CLAIM (R172, R347): alone, while UP and not at L4; in a pair, by role. -/
def State.claims (s : State) (n : Nat) : Bool :=
  let role := s.fg F.TW_STAT_ROLE 0
  s.fg F.DP_STAT_STATE n == 3 && s.level != 4
    && (role == 0 || (role == 2 && decide (s.tw.claimAt ≤ s.time.up)))

def State.claimWord (s : State) (n : Nat) : Nat :=
  b2n (s.claims n) + 2 * b2n (s.fg F.TW_STAT_ROLE 0 != 0) + 4 * s.fg F.TW_CTL_SIDE 0

/-- The mailbox chunk being sent; empty in TRAIN (R175). -/
def DrvPort.chunk (x : DrvPort) (train : Bool) : List Byte :=
  if train then List.replicate 16 0
  else match x.out with
  | [] => leBytes 1 0 ++ leBytes 1 x.inSeq ++ List.replicate 14 0
  | b :: t => leBytes 1 x.outSeq ++ leBytes 1 x.inSeq ++ leBytes 1 (b.length + (if t.isEmpty then 128 else 0))
      ++ (b ++ List.replicate 13 0).take 13

/-- Enter TRAIN (R175). The mailbox numbers of both sides are kept (assumption 72). -/
def State.toTrain (s : State) (n : Nat) : State :=
  (s.setPort n { s.port n with good := 0, rttBad := 0, cause := 1, raised := false, since := s.time.up, offLeft := 0 }).fs
    F.DP_STAT_STATE n 1

/-- Leave service: every channel is Hi-Z by the port's state; a measurement of its groups ends, and so do the counts of R196 over
frames that no longer come. -/
def State.leaveUp (s : State) (n : Nat) : State :=
  let s := [2 * n, 2 * n + 1].foldl (fun s g =>
    (s.setGrp g { s.grp g with over2 := 0, over5 := none, okAt := none }).fs F.FLT_CAP_MEAS g 0) s
  s.lwHiZ n

/-- Number of the TX frame last launched. -/
def DrvPort.lastGf (x : DrvPort) : Nat := (x.tx.map TxFrame.gf).getD 0

/-- Account for the RX frame that should have come since the last launch (R175, R176): the answer to the TX frame before the last one
comes after the last launch (R169), so the first launches of a lane await none. -/
def State.rxAccount (s : State) (n : Nat) : State :=
  let x := s.port n
  let st := s.fg F.DP_STAT_STATE n
  let s := if x.got = 0 ∧ 2 ≤ x.run then
      let s := s.fadd F.DP_ERR_MISSED n 1
      let s := if st = 3 then s.det 0x51 n 0 0 0 else s
      (List.range 8).foldl (fun s k => if st = 3 then s.lwFrame (8 * n + k) (x.lastGf - 2) none else s) s
    else s
  let x := s.port n
  s.setPort n { x with
    age := if x.got = 2 then 0 else min 4 (x.age + 1), got := 0,
    good := if x.got = 0 then 0 else x.good, cause := if x.got = 0 then 1 else x.cause }

/-- The 160 bytes of a TX frame (R170, R173). -/
def txBytes (gf mts : Nat) (codes : List Nat) (b0 b1 : Nat) (mbx : List Byte) (claim : Nat) : List Byte :=
  let b := leBytes 1 (16 + 8 * (gf % 2)) ++ leBytes 2 (gf % 65536) ++ leBytes 4 mts ++ codes.flatMap (leBytes 2) ++ leBytes 4 b0
    ++ leBytes 4 b1 ++ mbx ++ leBytes 4 claim ++ List.replicate 88 0
  0xBC :: b ++ leBytes 4 (crc32c b)

/-- The RX values a launch uses: the newest that came at least 150 ns before it (R169). -/
def State.rxUsed (s : State) (n : Nat) : RxVals :=
  let x := s.port n
  if x.rxAt + 150 ≤ s.time.up then x.rx else x.rxOld

/-- Launch a TX frame on a port. Both frames of a period use the rails of the first (R186). -/
def State.sendTx (s : State) (n gf : Nat) : State :=
  let phase := gf % 2
  let x := s.port n
  let rx := s.rxUsed n
  let vr := if phase = 1 ∧ x.run ≠ 0 then x.vr else (rx.rail0, rx.rail1)
  let s := s.setPort n { x with vr := vr, run := min 2 (x.run + 1) }
  let (codes, s) := (List.range 8).foldl (fun p k =>
    let (l, s) := p.2.legCodes n k gf
    (p.1 ++ l, s)) (([] : List Nat), s)
  let (b0, s) := s.boostStep (2 * n) rx.rail0 rx.ib0
  let (b1, s) := s.boostStep (2 * n + 1) rx.rail1 rx.ib1
  let mbx := x.chunk (s.fg F.DP_STAT_STATE n == 1)
  let f : TxFrame := ⟨gf, s.mts, phase, codes, b0, b1, mbx, s.claimWord n, txBytes gf s.mts codes b0 b1 mbx (s.claimWord n)⟩
  let s := if s.twRole = 0 then s
    else { s with tw := { s.tw with
      dp := mmod [] s.tw.dp n (· ++ codes.flatMap (leBytes 2) ++ leBytes 4 b0 ++ leBytes 4 b1) } }
  (s.setPort n { s.port n with tx := some f }).fs F.DP_STAT_CLAIM_TX n (b2n (s.claims n))

/-- A port at a drive-frame start (R175). -/
def State.launchPort (s : State) (gf n : Nat) : State :=
  let st := s.fg F.DP_STAT_STATE n
  let en := s.fb F.DP_CTL_EN n
  if st = 0 then
    if en then (s.toTrain n).sendTx n gf
    else
      let x := s.port n
      if x.offLeft = 0 then s.setPort n { x with tx := none, run := 0 }
      else (s.setPort n { x with offLeft := x.offLeft - 1 }).sendTx n gf
  else
    let s := s.rxAccount n
    if en then s.sendTx n gf
    else (((s.leaveUp n).fs F.DP_STAT_STATE n 0).setPort n { s.port n with offLeft := 3 }).sendTx n gf

/-- Hand over the DP blocks at a drive-frame start (R115) and complete the DP_SET commands whose transfer took place. -/
def State.dpHandOver (s : State) : State :=
  let s := (List.range 24).foldl (fun s n => if s.arm .DP_CTL n then s.handOverPoint .DP_CTL n 50 else s) s
  s.rwsWait.foldl (fun (s : State) (e : Entry) =>
    if e.code = Code.DP_SET ∧ !s.arm .DP_CTL e.cmd.a then
      ({ s with rwsWait := s.rwsWait.filter (fun x => x.seq != e.seq) } : State).finish e Sts.OK [] true
    else s) s

/-- Full count of drive frame `f` of the present tick (R27). -/
def State.frameStart (s : State) (f : Nat) : Nat :=
  let g := tickAt s.now
  g / 24000 * 1000000000 + (64 * (g % 24000) + f) * 1000000000 / 1536000

/-- DRIVE_FRAME_LAUNCH (R27, R170): the next drive frame of the tick starts on every port, frame 16·j once sample j is there
(R188). -/
def execDriveFrameLaunch (s : State) : Host.Outcome State Fault Refusal :=
  .next (if 64 ≤ s.time.frame ∨ s.time.sample ≤ s.time.frame / 16 then s
    else
      let f := s.time.frame
      let s := s.reach (s.frameStart f)
      let gf := tickAt s.now / 24000 * 1536000 + 64 * (tickAt s.now % 24000) + f
      let s := { s with time := { s.time with frame := f + 1 } }
      (List.range 24).foldl (fun s n => s.launchPort gf n) s.dpHandOver)

/-! ### RX frames (R173, R174) -/

/-- Whether a frame is valid (R173). -/
def rxValid (f : RxFrame) : Bool :=
  f.codesOk && f.bytes.length == 160 && leAt f.bytes 1 1 / 16 == 1
    && crc32c ((f.bytes.drop 1).take 155) == leAt f.bytes 0x9C 4

/-- Its values. -/
def rxVals (b : List Byte) : RxVals :=
  ⟨(List.range 8).map (fun k => sext 16 (leAt b (4 + 4 * k) 2)), (List.range 8).map (fun k => sext 16 (leAt b (6 + 4 * k) 2)),
    leAt b 0x24 2, leAt b 0x26 2, sext 16 (leAt b 0x28 2), sext 16 (leAt b 0x2A 2), leAt b 0x30 4⟩

/-- TEMP_MAX: the highest fitted byte, 0x80 when none is. -/
def tempMax (b : List Byte) : Nat :=
  wrap 8 ((List.range 4).foldl (fun m k => max m (sext 8 (leAt b (0x2C + k) 1))) (-128))

/-- The next mailbox chunk, or the end of the message, on an acknowledgement (R180). -/
def State.mbxAck (s : State) (n ack : Nat) : State :=
  let x := s.port n
  match x.out with
  | [] => s
  | _ :: t =>
    if ack ≠ x.outSeq then s
    else if t.isEmpty then
      let s := s.setPort n { x with out := [], entry := none }
      match x.entry with
      | some e => s.finish e Sts.OK [] false
      | none => s
    else s.setPort n { x with out := t, outSeq := x.outSeq % 255 + 1, outAt := s.time.up }

/-- A received message posts its parts in order (R180, R282). -/
def State.postMbx (s : State) (n : Nat) (m : List Byte) : State :=
  (List.range ((m.length + 45) / 46)).foldl (fun s i =>
    s.post Evt.DP_MBX_RX n (leBytes 1 m.length ++ leBytes 1 i ++ (m.drop (46 * i)).take 46)) s

/-- A chunk from the cell (R180). -/
def State.mbxIn (s : State) (n : Nat) (b : List Byte) : State :=
  let x := s.port n
  let q := leAt b 0 1
  if q = 0 ∨ q = x.inSeq then s
  else
    let h := leAt b 2 1
    let m := x.inBuf ++ (b.drop 3).take (min 13 (h % 16))
    let s := s.setPort n { x with inSeq := q, inBuf := if h.testBit 7 then [] else m }
    if h.testBit 7 then s.postMbx n m else s

/-- The sense values of a valid frame reach the Float and Line Watch. The frame comes after the launch of `gf`, answers the launch
before it and measured the drive frame before that (R169). -/
def State.senseFrame (s : State) (n gf : Nat) (r : RxVals) : State :=
  let s := (List.range 2).foldl (fun s j =>
    let g := 2 * n + j
    let rail := if j = 0 then r.rail0 else r.rail1
    let s := s.railFrame g rail
    let m := s.fg F.FLT_CAP_MEAS g
    if m = 1 then s.settleFrame g rail (r.status.testBit 0)
    else if m = 2 then s.riseFrame g rail (if j = 0 then r.ib0 else r.ib1)
    else s) s
  (List.range 8).foldl (fun s k =>
    let c := 8 * n + k
    let v := r.v.getD k 0
    let i := r.i.getD k 0
    ((s.tripFrame c i (r.status.testBit (8 + k))).energyFrame c v i).lwFrame c (gf - 2) (some (v, i))) s

/-- A valid frame in training (R175): 64 in a row with the expected SEQ and RTT reach READY. -/
def State.trainFrame (s : State) (n seq rtt gf : Nat) : State :=
  let x := s.port n
  if seq ≠ (gf + 65534) % 65536 then s.setPort n { x with good := 0, cause := 3 }
  else if 400 < rtt then s.setPort n { x with good := 0, cause := 4 }
  else
    let s := s.setPort n { x with good := x.good + 1 }
    if 64 ≤ x.good + 1 then s.fs F.DP_STAT_STATE n 2 else s

/-- Enter UP: the channels ramp in from the next tick boundary, the groups start (R175, R197). -/
def State.portUp (s : State) (n : Nat) : State :=
  let t := s.time.tick + 1
  let s := (s.fs F.DP_STAT_STATE n 3).setPort n { s.port n with age := 0, rttBad := 0, upTick := t }
  let s := (List.range 8).foldl (fun s k => s.rampIn (8 * n + k) t 4 0) s
  [2 * n, 2 * n + 1].foldl (fun s g => if s.fg F.BG_CTL_OUT_MODE g ≠ 0 then s.startMeas g else s) s

/-- A valid RX frame. READY shows CAUSE 5 while the cell is not ready (assumption 78); mailbox chunks and ACKs count in READY and UP
(assumption 72). -/
def State.rxGood (s : State) (n : Nat) (f : RxFrame) : State :=
  let r := rxVals f.bytes
  let x := s.port n
  let gf := x.lastGf
  let s := s.setPort n { x with
    rx := r, rxOld := x.rx, rxAt := s.time.up, got := 2, age := 0, rttBad := if 400 < f.rtt then x.rttBad + 1 else 0 }
  let s := ((s.fs F.DP_STAT_TEMP_MAX n (tempMax f.bytes)).fs F.DP_STAT_FOLLOWED n (b2n (r.status.testBit 1))).fs
    F.DP_STAT_CELL_READY n (b2n (r.status.testBit 0))
  let s := (s.fs F.DP_SENSE_RAIL0 n r.rail0).fs F.DP_SENSE_RAIL1 n r.rail1
  let st := s.fg F.DP_STAT_STATE n
  let s := if s.fg F.TW_STAT_SYNC_PHASE 0 = 3 ∧ s.twRole = 4 then
      { s with tw := { s.tw with recs := s.tw.recs ++ [(s.time.tick, n, gf, r)] } }
    else s
  let s := if st = 1 then s.trainFrame n (leAt f.bytes 2 2) f.rtt gf
    else if st = 2 then (if r.status.testBit 0 then s.portUp n else s.fs F.DP_STAT_CAUSE n 5)
    else if st = 3 then s.senseFrame n gf r
    else s
  if st = 2 ∨ st = 3 then (s.mbxAck n (leAt f.bytes 0x35 1)).mbxIn n ((f.bytes.drop 0x34).take 16) else s

/-- DRIVE_RX_FRAME (R174, R176). -/
def execDriveRxFrame (n : Nat) (f : RxFrame) (s : State) : Host.Outcome State Fault Refusal :=
  let s := s.elapse f.dt
  let st := s.fg F.DP_STAT_STATE n
  .next (if 24 ≤ n ∨ st = 0 then s
    else
      let s := s.fs F.DP_STAT_RTT n (satU 10 f.rtt)
      if rxValid f then s.rxGood n f
      else
        let x := s.port n
        let s := (s.setPort n { x with got := 1, good := 0, cause := if f.codesOk then 2 else 1 }).fadd F.DP_ERR_CRC n 1
        if st = 3 then (List.range 8).foldl (fun s k => s.lwFrame (8 * n + k) (x.lastGf - 2) none) (s.det 0x51 n 0 0 0) else s)

/-- TRAINING_TIMEOUT (R175): raised once; training goes on. -/
def execTrainingTimeout (n : Nat) (s : State) : Host.Outcome State Fault Refusal :=
  let x := s.port n
  .next (if n < 24 ∧ s.fg F.DP_STAT_STATE n = 1 ∧ !x.raised ∧ x.since + 10 * msNs ≤ s.time.up then
      ((s.setPort n { x with raised := true }).fs F.DP_STAT_CAUSE n x.cause).det 0x50 n 0 2 x.cause
    else s)

/-- DRIVE_LINK_DOWN (R175). -/
def execDriveLinkDown (n : Nat) (s : State) : Host.Outcome State Fault Refusal :=
  let x := s.port n
  .next (if n < 24 ∧ s.fg F.DP_STAT_STATE n = 3 ∧ s.portLost n then
      ((((s.leaveUp n).setPort n { x with since := s.time.up }).fs F.DP_STAT_STATE n 4)).det 0x50 n 0 1 0
    else s)

/-- DOWN_RETRAIN_EXPIRY (R175): 1 ms after the entry to DOWN. -/
def execDownRetrainExpiry (n : Nat) (s : State) : Host.Outcome State Fault Refusal :=
  .next (if n < 24 ∧ s.fg F.DP_STAT_STATE n = 4 ∧ (s.port n).since + msNs ≤ s.time.up then s.toTrain n else s)

/-! ### Settings in force at the modulators (R183) -/

/-- The gain of INVERT, TRIM and EN of an entry. -/
def dcGain (e : Nat) : Int := if !dcEn e then 0 else if dcInv e then -(dbQ20 (dcTrim e)) else dbQ20 (dcTrim e)

/-- The active bank comes into force on one channel (R183, R203): gain and VFS ramp, read positions are crossfaded (R74). -/
def State.dcTake (s : State) (old : Nat) (c : Nat) : State :=
  let e0 := s.dcAt old c
  let e := s.dcE c
  let x := s.ch c
  let t := s.time.tick
  let ramp := fun (r : Ramp) (g1 : Int) => if r.g1 = g1 then r else
    (⟨r.last t, g1, t, rampN s.drv.rampMs, s.drv.shape⟩ : Ramp)
  let x := { x with
    g := ramp x.g (dcGain e), v := ramp x.v (s.vfsOf (chGrp c) e)
    dfade := if dcDelay e0 = dcDelay e then x.dfade
      else some (startFade (x.dfade.filter (fun f => !f.ramp.done t)) (dcDelay e0) (dcDelay e) t s.drv.rampMs s.drv.shape) }
  let s := s.setCh c x
  if dcEn e ∧ x.st = 0 ∧ s.fg F.BG_CTL_OUT_MODE (chGrp c) ≠ 0 then
    (s.setCh c { x with retry := lnRetry (s.lnE c), normAt := s.time.up }).setSt c 1
  else if !dcEn e ∧ dcEn e0 ∧ (x.st = 2 ∨ x.st = 3) then s.setSt c 0
  else s

/-- Channels that hold anything in either bank or run. -/
def State.dcList (s : State) : List Nat :=
  (List.range 192).filter (fun c => s.dcAt 0 c != 0 || s.dcAt 1 c != 0 || (s.ch c).st != 0)

/-- At the tick from which a commit acts (R183): two ticks after it was applied. -/
def State.dcBoundary (s : State) : State :=
  let s := if s.drv.use ≠ s.drv.act ∧ s.drv.useAt ≤ s.time.tick then
      let old := s.drv.use
      let s := { s with drv := { s.drv with use := s.drv.act } }
      s.dcList.foldl (fun s c => s.dcTake old c) s
    else s
  (List.range 48).foldl (fun s g =>
    let m := s.fg F.BG_CTL_OUT_MODE g
    let x := s.grp g
    if x.mode = m then s
    else
      let s := s.setGrp g { x with mode := m }
      let s := if m = 0 then s.fs F.FLT_CAP_MEAS g 0
        else if x.mode = 0 ∧ s.fg F.DP_STAT_STATE (g / 2) = 3 then s.startMeas g else s
      (List.range 4).foldl (fun s k =>
        let c := 4 * g + k
        let s := s.setCh c { s.ch c with v := { (s.ch c).v with g1 := s.vfsOf g (s.dcE c) } }
        if m = 0 ∧ (s.ch c).st ≠ 0 then s.setSt c 0
        else if m ≠ 0 ∧ (s.ch c).st = 0 ∧ dcEn (s.dcE c) then
          (s.setCh c { s.ch c with retry := lnRetry (s.lnE c), normAt := s.time.up }).setSt c 1
        else s) s) s

/-- The end of drive-channel ramps (R183): a channel whose EN is 0 goes to OFF, which sends Hi-Z; one that has tripped on the way does
so at once (R203). -/
def State.dcRampEnd (s : State) : State :=
  let t := s.time.tick
  let s := (s.drv.chs.map (·.1)).foldl (fun s c =>
    let x := s.ch c
    let s := s.setCh c { x with
      dfade := x.dfade.filter (fun f => !f.ramp.done t)
      dg := if x.dg.done t ∧ x.dg.g1 = 1048576 then Ramp.flat 1048576 else x.dg }
    if x.st ≠ 0 ∧ !dcEn (s.dcE c) ∧ (x.st ≠ 1 ∨ (x.g.g1 = 0 ∧ x.g.done t)) then s.setSt c 0 else s) s
  { s with drv := { s.drv with mute := s.drv.mute.filter (fun p => !(p.2.g1 == 1048576 && p.2.done s.time.tick)) } }

/-- Whether a drive-channel ramp still runs, or a commit is not yet in force. -/
def State.dcRamping (s : State) : Bool :=
  s.drv.use != s.drv.act || s.drv.chs.any (fun p => !p.2.g.done s.time.tick || !p.2.v.done s.time.tick
    || p.2.dfade.any (fun f => !f.ramp.done s.time.tick))

/-- A sample enters a channel's delay line (R184 items 2 and 3). -/
def State.dcSample (s : State) (c : Nat) (x : Int) : State :=
  let d := s.ch c
  let (y, s) := s.q31 (x * d.g.atTick s.time.tick s.time.sample) 1048576
  s.setCh c { s.ch c with dl := (y :: d.dl).take 193 }

/-! ### Commands -/

/-- DP_SET (R114): images of DP_CTL and DP_MOD. -/
def chkDpSet (c : Cmd) (_ : State) : Chk :=
  if 24 ≤ c.a ∨ !imgOk .DP_CTL c.i0 ∨ !imgOk .DP_MOD c.i1 then (Sts.CMD_RANGE, []) else Chk.ok

/-- Windlass writes the shadows and ARM; the command waits for the hand-over. -/
def applyDpSet (e : Entry) (s : State) : State :=
  let s := (s.rwsWrite .DP_MOD e.cmd.a e.cmd.i1).rwsWrite .DP_CTL e.cmd.a (e.cmd.i0 % 2 ^ 31 + 2 ^ 31)
  { s with rwsWait := s.rwsWait ++ [e] }

/-- Commands whose hand-over point is not the tick boundary: Windlass acts at acceptance, or at the pair's apply boundary
(R356). -/
def submitWait (code : Nat) (chk : Cmd → State → Chk) (wr : Entry → State → State) (c : Cmd) (s : State) : State :=
  let seq := s.hif.cmdSeq
  let t := submit code chk c s
  match t.dueNext.find? (fun e => e.seq == seq) with
  | some e =>
    if t.paired ∧ mirrored code then t
    else wr e { t with dueNext := t.dueNext.filter (fun x => x.seq != seq) }
  | none => t

def execDpSet (c : Cmd) (s : State) : Host.Outcome State Fault Refusal :=
  .next (submitWait Code.DP_SET chkDpSet applyDpSet c s)

def chkPort24 (c : Cmd) (_ : State) : Chk := if c.a < 24 then Chk.ok else (Sts.CMD_RANGE, [])

def applyDpRetrain (e : Entry) (s : State) : State := ((s.leaveUp e.cmd.a).toTrain e.cmd.a).finish e Sts.OK [] false

def execDpRetrain (c : Cmd) (s : State) : Host.Outcome State Fault Refusal :=
  .next (submit Code.DP_RETRAIN chkPort24 c s)

/-- DP_MBX_SEND (R180): one message at a time. -/
def chkDpMbxSend (c : Cmd) (s : State) : Chk :=
  let st := s.fg F.DP_STAT_STATE c.a
  if 24 ≤ c.a ∨ c.len = 0 ∨ 208 < c.len then (Sts.CMD_RANGE, [])
  else if st ≠ 2 ∧ st ≠ 3 then (Sts.DP_DOWN, [])
  else if (s.port c.a).out ≠ [] then (Sts.CMD_STATE, [])
  else Chk.ok

/-- A message in chunks of 13 bytes. -/
def mbxChunks (b : List Byte) : List (List Byte) :=
  (List.range ((b.length + 12) / 13)).map (fun i => (b.drop (13 * i)).take 13)

def applyDpMbxSend (e : Entry) (s : State) : State :=
  let k := chkDpMbxSend e.cmd s
  if k.1 ≠ Sts.OK then s.finish e k.1 k.2 false
  else
    let x := s.port e.cmd.a
    s.setPort e.cmd.a { x with out := mbxChunks (e.cmd.buf.take e.cmd.len), outSeq := x.outSeq % 255 + 1,
                               outAt := s.time.up, entry := some e }

def execDpMbxSend (c : Cmd) (s : State) : Host.Outcome State Fault Refusal :=
  .next (submit Code.DP_MBX_SEND chkDpMbxSend c s)

/-- DP_MBX_TIMEOUT (R180): a chunk not acknowledged within 1 ms. -/
def execDpMbxTimeout (n : Nat) (s : State) : Host.Outcome State Fault Refusal :=
  let x := s.port n
  .next (if x.out = [] ∨ s.time.up < x.outAt + msNs then s
    else
      let s := s.setPort n { x with out := [], entry := none }
      match x.entry with
      | some e => s.finish e Sts.DP_MBX_TIMEOUT [] false
      | none => s)

/-- DC_WRITE, DC_READ (R182). -/
def chkDcWrite (c : Cmd) (s : State) : Chk :=
  if !spanOk 192 8 c then (Sts.CMD_RANGE, [])
  else if s.drv.lock ≠ 0 ∨ s.armedAny Code.DC_COMMIT then (Sts.DC_BANK_LOCKED, []) else Chk.ok

def applyDcWrite (e : Entry) (s : State) : State :=
  let k := chkDcWrite e.cmd s
  if k.1 ≠ Sts.OK then s.finish e k.1 k.2 false
  else
    let first := 192 * (1 - s.drv.act) + e.cmd.a
    let s := s.wroteTab Tab.DC first e.cmd.b
    ({ s with drv := { s.drv with dc := writeEntries 0 8 first e.cmd.buf e.cmd.b s.drv.dc } } : State).finish e Sts.OK [] true

def execDcWrite (c : Cmd) (s : State) : Host.Outcome State Fault Refusal := .next (submit Code.DC_WRITE chkDcWrite c s)

def chkDcRead (c : Cmd) (_ : State) : Chk := if spanOk 192 8 c ∧ c.c ≤ 1 then Chk.ok else (Sts.CMD_RANGE, [])

def applyDcRead (e : Entry) (s : State) : State :=
  (s.hostWrite e.cmd.addr (readEntries 0 8 (192 * e.cmd.c + e.cmd.a) e.cmd.b s.drv.dc)).finish e Sts.OK [] false

def execDcRead (c : Cmd) (s : State) : Host.Outcome State Fault Refusal := .next (submit Code.DC_READ chkDcRead c s)

/-- The ranges of a drive-channel entry (R181, R182): VFS only in DIRECT mode, and against RAIL_MAX only while the group is not
DISABLED (assumption 71). -/
def State.dcEntryChk (s : State) (c : Nat) (e : Nat) : Nat :=
  let g := chGrp c
  let mode := s.fg F.BG_CTL_OUT_MODE g
  let mm := mMaxNum (s.fg F.DP_MOD_MIN_PULSE (chPort c))
  if e ≥ 2 ^ 64 ∨ bits e 61 60 ≠ 0 ∨ bits e 15 0 ≠ 0 ∨ 192 < dcDelay e ∨ dcTrim e < -6000 ∨ 600 < dcTrim e
      ∨ (mode = 1 ∧ (dcVfs e < 256 ∨ 25600 < dcVfs e)) then Sts.DC_RANGE
  else if mode ≠ 0 ∧ s.railMaxOf g * 25600 * mm < s.vfsOf g e * 1000000000 then Sts.DC_RANGE
  else if dcEn e ∧ dcDelay e < s.fg F.BG_CTL_LOOKAHEAD g then Sts.DC_LOOKAHEAD
  else Sts.OK

/-- The ranges of a line entry (R208). -/
def lineEntryOk (e : Nat) : Bool :=
  decide (8 ≤ lnTrip e) && decide (lnTrip e ≤ 640) && bits e 17 10 == 0 && decide (1 ≤ lnWin e) && decide (lnWin e ≤ 100)
    && bits e 31 25 == 0 && lnEWin e != 0 && lnRetry e != 0 && bits e 60 56 == 0 && bits e 71 64 == 0
    && decide (1 ≤ lnDrift e) && decide (lnDrift e ≤ 99) && decide (101 ≤ lnOpen e) && decide (lnOpen e ≤ 1000)
    && decide (1 ≤ lnShort e) && decide (lnShort e ≤ 99) && decide (20 ≤ bits e 107 102) && decide (bits e 107 102 ≤ 60)
    && decide (20 ≤ bits e 113 108) && decide (bits e 113 108 ≤ 60) && decide (5 ≤ lnLfFreq e) && decide (lnLfFreq e ≤ 30)
    && decide (200 ≤ lnHfFreq e) && decide (lnHfFreq e ≤ 400)

/-- The verdict on channel c of the inactive banks (R182, R194, R200). -/
def State.dcChk (s : State) (c : Nat) : Nat :=
  let b := 1 - s.drv.act
  let e := s.dcAt b c
  let l := s.lnAt b c
  let k := s.dcEntryChk c e
  if s.lost Tab.DC (192 * b + c) || s.lost Tab.LINE (192 * b + c) then Sts.DC_RANGE
  else if k ≠ Sts.OK then k
  else if !lineEntryOk l then Sts.DC_RANGE
  else if lnEWin l ≠ 0xFFFF ∧ s.fg F.FLT_FUSE1_E_WINDOW_CEIL 0 < lnEWin l then Sts.FLT_CEILING
  else if dcEn e ∧ !releaseOk (s.railMaxOf (chGrp c)) (lnTrip l) (s.fg F.FLT_CTL_CELL_DELAY 0) (s.eRelOf (chGrp c)) then
    Sts.FLT_RELEASE
  else Sts.OK

def chkDcCommit (_ : Cmd) (s : State) : Chk :=
  if s.drv.lock ≠ 0 ∨ s.armedAny Code.DC_COMMIT then (Sts.DC_BANK_LOCKED, [])
  else
    match (List.range 192).find? (fun c => s.dcChk c != Sts.OK) with
    | some c => (s.dcChk c, [c])
    | none => Chk.ok

def applyDcCommit (e : Entry) (s : State) : State :=
  ({ s with drv := { s.drv with act := 1 - s.drv.act, useAt := s.time.tick + 2, lock := 2, rampMs := e.cmd.rampMs,
                                shape := e.cmd.shape } } : State).finish e Sts.OK [] true

def execDcCommit (c : Cmd) (s : State) : Host.Outcome State Fault Refusal := .next (submit Code.DC_COMMIT chkDcCommit c s)

/-- BG_SET (R191, R200). -/
def chkBgSet (c : Cmd) (s : State) : Chk :=
  let g := c.a
  let n := g / 2
  let mode := F.BG_CTL_OUT_MODE.get c.i0
  let rmax := F.BG_RAIL_RAIL_MAX.get c.i1
  let mm := mMaxNum (s.fg F.DP_MOD_MIN_PULSE n)
  if 48 ≤ g then (Sts.CMD_RANGE, [])
  else if !imgOk .BG_CTL c.i0 ∨ !imgOk .BG_RAIL c.i1 ∨ (mode = 1 ∧ 100 < rmax) ∨ rmax < F.BG_RAIL_RAIL_MIN.get c.i1
      ∨ (List.range 4).any (fun k => dcEn (s.dcAt s.drv.act (4 * g + k))
          && decide (dcDelay (s.dcAt s.drv.act (4 * g + k)) < F.BG_CTL_LOOKAHEAD.get c.i0))
      ∨ (mode = 2 ∧ rmax * 25600 * mm < lineVfs (F.BG_CTL_LINE_V.get c.i0) * 1000000000) then (Sts.BG_RANGE, [])
  else if mode = 2 ∧ s.fg F.DP_BOOST_KP n = 0 ∧ s.fg F.DP_BOOST_KI n = 0 then (Sts.BG_LOOP, [])
  else
    match releaseFail (fun h => if h = g then rmax else s.railMaxOf h) s.tripOf s.eRelOf s.enOf
        (s.fg F.FLT_CTL_CELL_DELAY 0) with
    | some k => (Sts.FLT_RELEASE, [k])
    | none => Chk.ok

def wrBgSet (c : Cmd) (s : State) : State :=
  (s.rwsWrite .BG_RAIL c.a c.i1).rwsWrite .BG_CTL c.a (c.i0 % 2 ^ 31 + 2 ^ 31)

/-- BG_SET at its boundary, judged again there (assumption 74). -/
def applyBgSet (e : Entry) (s : State) : State :=
  let k := chkBgSet e.cmd s
  if k.1 ≠ Sts.OK then (s.setArm .BG_CTL e.cmd.a false).finish e k.1 k.2 false
  else (s.rwsTransfer .BG_CTL e.cmd.a wrBgSet e).finish e Sts.OK [] true

def execBgSet (c : Cmd) (s : State) : Host.Outcome State Fault Refusal :=
  .next (submitRws Code.BG_SET chkBgSet wrBgSet c s)

end Sys2Proof.Machine
end

