-- ==== Sys2Proof/Machine/Twin.lean ====
section
/-! DEFINITION. The twin (R339 - R360): pairing, heartbeat and health, roles, taking over, lockstep and resynchronisation. -/

namespace Sys2Proof.Machine

/-- The signed difference of two short-form instants. -/
def mtsDiff (a b : Nat) : Int := sext 32 (a % 2 ^ 32 + 2 ^ 32 - b % 2 ^ 32)

def State.twPaired (s : State) : Bool := s.fb F.TW_STAT_PARTNER 0
def State.peerRole (s : State) : Nat := (s.tw.peer.map (·.role)).getD 0
def State.setRole (s : State) (r : Nat) : State := s.fs F.TW_STAT_ROLE 0 r
def State.syncPhase (s : State) : Nat := s.fg F.TW_STAT_SYNC_PHASE 0
def State.setPhase (s : State) (p : Nat) : State :=
  { s.fs F.TW_STAT_SYNC_PHASE 0 p with tw := { s.tw with phaseEnd := false } }

/-- Whether a message reaches this device: twin operation on, a valid frame of version 1 on an UP link whose partner has not
failed the checks of R339. -/
def State.twHears (s : State) (h : TwHdr) : Bool :=
  s.twRole != 0 && h.ok && h.version == 1 && decide (h.link < 2) && s.twUp h.link && mget 0 s.tw.bad h.link == 0

/-! ### Health (R344, R345) -/

/-- MT_ALIGNED: the Twin Time slot of an UP link lies within ±100 ns. -/
def State.mtAligned (s : State) : Bool :=
  [0, 1].any (fun l => s.twUp l && (s.slot (8 + l)).valid && decide ((s.slot (8 + l)).phase.natAbs ≤ 100))

/-- Whether something last happened within the last second. -/
def State.inLastSec (s : State) (t : Option Nat) : Bool := t.any (fun u => decide (s.time.up < u + secNs))

/-- A cluster that is FAILED, in RESET or in RELOAD. -/
def State.clBad (s : State) (c : Nat) : Bool := let x := s.fg F.CL_STAT_STATE c; x == 2 || x == 3 || x == 4
def State.spareBusy (s : State) (g : Nat) : Bool := let x := s.fg F.RG_SPARE_STAT_STATE g; x == 1 || x == 2
def State.dpDown (s : State) (n : Nat) : Bool := s.fb F.DP_CTL_EN n && s.fg F.DP_STAT_STATE n != 3

/-- How many of the first `n` satisfy `p`. -/
def countIf (n : Nat) (p : Nat → Bool) : Nat := ((List.range n).filter p).length

/-- Class episodes open at L2 (R327). -/
def State.l2Episodes (s : State) : Nat := countIf 8 (fun c => s.fb F.SMP_CLASS_STAT_UNACK c && s.fg F.SMP_CLASS_STAT_PEND c == 2)

def State.twPenalty (s : State) : Nat :=
  32 * countIf 24 s.clBad + (if s.mtAligned then 0 else 32) + (if s.inLastSec s.tw.sAbs then 24 else 0)
    + 16 * countIf 24 s.dpDown + (if s.fg F.WH_STATUS_LOOP 0 = 2 then 0 else 16) + (if s.fb F.SMP_STAT_CAPPED 0 then 16 else 0)
    + 16 * s.l2Episodes + 8 * countIf 6 s.spareBusy + (if s.inLastSec s.tw.pbAbs then 8 else 0)
    + (if s.inLastSec s.tw.ueAt then 8 else 0) + 4 * countIf 8 (fun p => s.fb F.NET_CTL_EN p && !s.netUp p)

/-- SCORE (R345). -/
def State.twScore (s : State) : Nat := 255 - s.twPenalty

/-- The Health Word (R344). -/
def State.twHealth (s : State) : Nat :=
  let mask := fun (n : Nat) (p : Nat → Bool) => (List.range n).foldl (fun v i => v + (if p i then 2 ^ i else 0)) 0
  s.twScore + s.fg F.SMP_STAT_PKG_LEVEL 0 * 2 ^ 8 + s.fg F.TW_STAT_LOCKSTEP 0 * 2 ^ 11 + s.twRole * 2 ^ 12
    + b2n s.mtAligned * 2 ^ 15 + s.fg F.WH_STATUS_LOOP 0 * 2 ^ 16 + s.fg F.SMP_STAT_CAPPED 0 * 2 ^ 19
    + mask 6 (fun g => (List.range 4).all (fun i => !s.clBad (4 * g + i))) * 2 ^ 20 + mask 6 s.spareBusy * 2 ^ 26
    + mask 8 s.netUp * 2 ^ 32 + countIf 24 s.dpDown * 2 ^ 40 + b2n (s.inLastSec s.tw.sAbs) * 2 ^ 45
    + b2n (s.inLastSec s.tw.pbAbs) * 2 ^ 46 + b2n (s.inLastSec s.tw.ueAt) * 2 ^ 47

/-- The score and the Health Word are recomputed at a tick start. -/
def State.showHealth (s : State) : State :=
  let w := s.twHealth
  { (s.fs F.TW_STAT_SCORE 0 s.twScore).rw .TW_HEALTH_LO 0 (BitVec.ofNat 32 w) with tw := { s.tw with health := w } }

/-! ### The heartbeat (R343) -/

/-- The digests of OC0 - OC511 and OC512 - OC1023 of the block last collected, m − 2 at T_m. -/
def State.ocDigest (s : State) (half : Nat) : Nat :=
  crc32c ((List.range 4).flatMap (fun i => (List.range 512).flatMap (fun k =>
    leBytes 4 (wrap 32 ((mget Blk.zero s.aud.oc (512 * half + k)).at i)))))

/-- The BEAT of the present tick. -/
def State.ownBeat (s : State) (link : Nat) : TwBeat :=
  let e := mget (0, 0) s.tw.rx link
  let sel := s.fg F.WH_STATUS_SELECTED 0
  { tickno := s.tickno, mts := s.mts, health := s.twHealth, dig0 := s.ocDigest 0, dig1 := s.ocDigest 1,
    digDp := crc32c (s.tw.dp.flatMap (·.2)), echoRx := e.1, echoTx := e.2, ql := s.qlOf sel, role := s.twRole,
    alarm := s.fg F.SP_STAT_ALARM 0, sec := s.time.sec.toNat }

/-- BEAT is sent at every tick start on both links; the ALARM state the partner showed in the tick before is taken over. -/
def State.beatSend (s : State) : State :=
  if s.twRole = 0 then s
  else
    let b := s.ownBeat 0
    let s := s.twSendEach 2 true (fun l => .beat (s.ownBeat l))
    let s := { s with sp := { s.sp with peer := (s.tw.peer.map TwBeat.alarm).getD 0 } }
    { s with tw := { s.tw with
      own := (b :: s.tw.own).take 4, dp := [],
      unaligned := if s.mtAligned then none else some (s.tw.unaligned.getD s.time.up) } }

/-! ### Taking control (R347 - R349) -/

/-- The frame that starts at or after an instant: its global number and its start (R27). -/
def frameFrom (full : Nat) : Nat := full / 1000000000 * 1536000 + (full % 1000000000 * 1536 + 999999) / 1000000
def frameFull (gf : Nat) : Nat := gf / 1536000 * 1000000000 + gf % 1536000 * 1000000000 / 1536000

/-- A device becomes ACTIVE: it claims from `up` = `at_`, and takes its own ASRC outputs again over 1 tick (R355). -/
def State.toActive (s : State) (at_ : Nat) : State :=
  let s := if s.twRole = 3 then ((s.fadd F.TW_CNT_TAKEOVERS 0 1).setRole 2).dbgFall else s.setRole 2
  let t := s.time.tick
  let fades := s.tw.mirIc.foldl (fun m k =>
    mset false m k ⟨[(s.effSrc k, 1)], 1, s.icSrc s.aud.rtAct k, ⟨0, 1048576, t + 1, 4, 0⟩⟩) s.aud.icFade
  { s with aud := { s.aud with icFade := fades },
           tw := { s.tw with
             claimAt := at_, tookTick := t, tcIn := 0, tcOut := 0, mirIc := [], hoOut := none, lowAt := none,
             asked := false } }

/-- A takeover by a trigger of R348 other than HANDOVER: the held packets are sent. -/
def State.takeOver (s : State) (after : Nat) : State :=
  if s.twRole = 3 then (s.toActive (s.time.up + after)).sendHeld else s

/-- A YIELDED device below L3 becomes SUSPECT while its partner is present (R346). -/
def State.twRejoin (s : State) : State :=
  if s.fg F.SMP_STAT_PKG_LEVEL 0 < 3 ∧ s.twRole = 5 ∧ s.twPaired then s.toSuspect else s

/-- The package level has changed (R346): as it reaches L3 an ACTIVE or STANDBY device yields, and YIELD leaves at the
decision. -/
def State.twLevel (s : State) (was : Nat) : State :=
  let l := s.fg F.SMP_STAT_PKG_LEVEL 0
  let r := s.twRole
  if was < 3 ∧ 3 ≤ l ∧ (r = 2 ∨ r = 3) then
    let s := (s.setRole 5).twSend 6 true (.yield s.mts)
    { s with tw := { s.tw with hoOut := none, tcOut := 0, mirIc := [] } }
  else s.twRejoin

/-- Start a voluntary handover (R349): HANDOVER names the first frame launched 5 µs or more on. -/
def State.hoStart (s : State) : State :=
  if s.twRole ≠ 2 ∨ s.tw.hoOut.isSome then s
  else
    let f := frameFrom (s.now + 5000)
    let s := s.twSend 7 true (.handover (f % 65536) false)
    { s with tw := { s.tw with hoOut := some (f, s.time.up + msNs) } }

/-- Whether the device is ACTIVE with a STANDBY partner. -/
def State.activePair (s : State) : Bool := s.twRole == 2 && s.twPaired && s.peerRole == 3

/-- The global number of a frame from its SEQ, nearest the present. -/
def State.frameOfSeq (s : State) (seq : Nat) : Nat :=
  let g := frameFrom s.now
  let d := sext 16 (seq + 65536 - g % 65536)
  ((g : Int) + d).toNat

/-- `time.tick` of the first tick boundary at or after the start of a frame. -/
def State.tickOfFrame (s : State) (gf : Nat) : Nat := s.time.tick + (tickAt (roundTick (frameFull gf)) - tickAt s.now)

/-- HANDOVER (R349): a STANDBY claims from frame F and answers; an ACTIVE asked by its STANDBY starts the handover (R360). -/
def execHandover (h : TwHdr) (seq : Nat) (request : Bool) (s : State) : Host.Outcome State Fault Refusal :=
  let s := s.elapse h.dt
  .next (if !s.twHears h then s
    else if request then (if s.activePair then s.hoStart else s)
    else if s.twRole = 3 then
      let f := s.frameOfSeq seq
      let s := (s.toActive (s.time.up + (frameFull f - s.now))).twSend 8 true (.handoverAck seq)
      { s with tw := { s.tw with tcIn := s.tickOfFrame f } }
    else s)

/-- YIELD (R348). -/
def execYield (h : TwHdr) (s : State) : Host.Outcome State Fault Refusal :=
  let s := s.elapse h.dt
  .next (if s.twHears h then s.takeOver 200 else s)

/-- PYIELD_ASSERT (R348): an edge at PYIELD, to the level given. -/
def execPyieldAssert (level : Bool) (dt : Nat) (s : State) : Host.Outcome State Fault Refusal :=
  let s := (s.elapse dt).fs F.TW_STAT_PYIELD 0 (b2n level)
  .next (if level then s.takeOver 200 else s)

/-- A YIELDED device whose partner is lost and whose PALIVE has stopped claims again (R346). -/
def State.yieldedAlone (s : State) : State :=
  if s.twRole = 5 ∧ !s.twPaired ∧ !s.fb F.TW_STAT_PALIVE_OK 0 then s.toActive s.time.up else s

/-- PALIVE_LOSS (R348): PALIVE has had no edge for 1.5 ms, or its edges are back. -/
def execPaliveLoss (lost : Bool) (dt : Nat) (s : State) : Host.Outcome State Fault Refusal :=
  let s := (s.elapse dt).fs F.TW_STAT_PALIVE_OK 0 (b2n !lost)
  .next (if lost then (s.takeOver 0).yieldedAlone else s)

/-! ### Resynchronisation: start and end (R357) -/

/-- A failed attempt: its cause, family 0x72, and 10 s until the next, unless the firmware differs. -/
def State.syncFail (s : State) (cause : Nat) : State :=
  let s := ((s.setPhase 0).fs F.TW_STAT_SYNC_CAUSE 0 cause).det 0x72 0 0 0 0
  { s with tw := { s.tw with retryAt := if cause = 2 then none else some (s.time.up + 10 * secNs) } }

/-- A SUSPECT with an ACTIVE partner starts to resynchronise. -/
def State.syncStart (s : State) : State :=
  if s.twRole ≠ 4 ∨ s.syncPhase ≠ 0 ∨ !s.twPaired ∨ s.peerRole ≠ 2 ∨ s.tw.retryAt.isSome then s
  else if s.tw.fwDiff then (if s.fg F.TW_STAT_SYNC_CAUSE 0 = 2 then s else s.syncFail 2)
  else
    let s := (s.setPhase 1).twSend 10 false (.syncAck [] 1 false)
    { s with tw := { s.tw with
      syncAt := s.time.up, ocOk := false, passOk := false, passOk2 := false, refused := [],
      pageAt := [], settings := none, recs := [], locked := 0 } }

/-- RESYNC_TIMEOUT (R357). -/
def execResyncTimeout (s : State) : Host.Outcome State Fault Refusal :=
  .next (if s.twRole = 4 ∧ s.syncPhase ≠ 0 ∧ s.tw.syncAt + s.fg F.TW_SYNC_RESYNC_MAX 0 * secNs < s.time.up then s.syncFail 1 else s)

/-- RESYNC_RETRY_EXPIRY (R357). -/
def execResyncRetryExpiry (s : State) : Host.Outcome State Fault Refusal :=
  .next (if s.due s.tw.retryAt then ({ s with tw := { s.tw with retryAt := none } } : State).syncStart else s)

/-- The partner is lost: three ticks without a BEAT on any link (R346, R348, R357). -/
def State.partnerLost (s : State) : State :=
  let s := ((s.fs F.TW_STAT_PARTNER 0 0).fs F.TW_STAT_LOCKSTEP 0 0).det 0x71 0 0 0 0
  let s := if s.twRole = 4 ∧ s.syncPhase ≠ 0 then s.syncFail 3 else if s.twRole = 2 then s.setPhase 0 else s
  (s.takeOver 0).yieldedAlone

/-! ### Pairing (R339, R346) -/

/-- Twin operation begins or ends (R346). -/
def State.twEnable (s : State) (was : Bool) : State :=
  let is := s.fb F.TW_CTL_EN 0
  if is && !was then
    let s := s.setRole 1
    { s with tw := { s.tw with heard := s.time.up, helloAt := s.time.up } }
  else if was && !is then
    let s := ((((s.setRole 0).setPhase 0).fs F.TW_STAT_PARTNER 0 0).fs F.TW_STAT_SPLIT 0 0).fs F.TW_STAT_LOCKSTEP 0 0
    { s with tw := { s.tw with
      peer := none, uid := [], bad := [], own := [], rx := [], got := [], miss := [], slow := [], hoOut := none, tcIn := 0,
      tcOut := 0, lowAt := none, asked := false, mirIc := [], retryAt := none, fwDiff := false, cmdOut := [], dp := [] } }
  else s

/-- What the device says of itself in HELLO. -/
def State.ownHello (s : State) : TwHello :=
  { uid := s.fg F.SEC_UID_ID 0 + 2 ^ 32 * s.fg F.SEC_UID_ID 1 + 2 ^ 64 * s.fg F.SEC_UID_ID 2, side := s.fg F.TW_CTL_SIDE 0,
    home := s.fb F.TW_CTL_HOME 0, role := s.twRole, digest := s.sec.runDigest, schema := s.fg F.RW_SCHEMA_SCHEMA 0 }

/-- HELLO_SEND (R342). -/
def execHelloSend (s : State) : Host.Outcome State Fault Refusal :=
  .next (if s.twRole = 1 ∧ s.tw.helloAt ≤ s.time.up then
      let s := s.twSend 1 true (.hello s.ownHello)
      { s with tw := { s.tw with helloAt := s.time.up + msNs } }
    else s)

/-- What a HELLO of a good partner does to the role (R346): two SEEKING devices choose, a SEEKING one that meets an ACTIVE
becomes SUSPECT. -/
def State.helloRole (s : State) (m : TwHello) : State :=
  let t := s.fs F.TW_STAT_PARTNER 0 1
  if s.twRole ≠ 1 then t
  else if m.role = 1 then
    let mine := s.fb F.TW_CTL_HOME 0
    if (mine && !m.home) || (mine == m.home && s.fg F.TW_CTL_SIDE 0 == 0) then t.toActive s.time.up else t.toSuspect
  else if m.role = 2 then t.toSuspect
  else s

/-- HELLO (R339, R342, R346). -/
def execHello (h : TwHdr) (m : TwHello) (s : State) : Host.Outcome State Fault Refusal :=
  let s := s.elapse h.dt
  let l := h.link
  .next (if s.twRole = 0 ∨ !h.ok ∨ h.version ≠ 1 ∨ 2 ≤ l ∨ !s.twUp l then s
    else
      let other := mget 0 s.tw.uid (1 - l)
      if m.side = s.fg F.TW_CTL_SIDE 0 ∨ (other ≠ 0 ∧ mget 0 s.tw.bad (1 - l) = 0 ∧ other ≠ m.uid) then
        ({ s with tw := { s.tw with bad := mput 0 s.tw.bad l 1 } } : State).det 0x73 l 0 0 0
      else
        let s := { s with tw := { s.tw with
          bad := mput 0 s.tw.bad l 0, uid := mput 0 s.tw.uid l m.uid, heard := s.time.up, peerHome := m.home,
          fwDiff := decide (m.digest ≠ s.sec.runDigest) } }
        let s := (List.range 3).foldl (fun s i => s.rw .TW_PARTNER_ID i (BitVec.ofNat 32 (m.uid / 2 ^ (32 * i)))) s
        s.helloRole m)

/-- PAIR_WAIT_EXPIRY (R346). -/
def execPairWaitExpiry (s : State) : Host.Outcome State Fault Refusal :=
  .next (if s.twRole = 1 ∧ s.tw.heard + s.fg F.TW_TIMERS_PAIR_WAIT 0 * msNs ≤ s.time.up then s.toActive s.time.up else s)

/-! ### SETTINGS (R357) -/

/-- The image of a loaded program in the layout of R141. -/
def progImage (p : UProg) : List Byte :=
  let body := p.binds.flatMap (fun b => leBytes 8 (b.kind * 2 ^ 60 + b.index * 2 ^ 48 + b.off)) ++ p.prog ++ p.x ++ p.y ++ p.par
  let head := leBytes 4 0x31424C4A ++ leBytes 2 1 ++ leBytes 2 (b2n p.post + 2 * p.cls + 8 * b2n p.param) ++ leBytes 2 p.entry
    ++ leBytes 2 p.ivec ++ leBytes 2 p.binds.length ++ leBytes 2 0 ++ leBytes 4 p.prog.length ++ leBytes 4 p.x.length
    ++ leBytes 4 p.y.length ++ leBytes 4 p.par.length ++ leBytes 4 p.local_ ++ leBytes 4 p.remote ++ leBytes 4 body.length
    ++ leBytes 4 (crc32c body) ++ leBytes 2 p.stateCh ++ List.replicate 10 0
  head ++ leBytes 4 (crc32c head) ++ body

/-- The register types whose fields a mirrored command sets, and TW_SYNC_RGN. -/
def twRegs : RegId → Bool
  | .SP_CTL | .SP_TIMING | .SP_ZONE | .SP_WATCH_A | .SP_WATCH_B | .UNIT_CTL | .DP_CTL | .DP_MOD | .DP_BOOST | .BG_CTL | .BG_RAIL
  | .FLT_CTL | .FLT_GRP | .FLT_REL | .LW_CTL | .CL_MIX_CTL | .WH_CLKOUT_PHASE | .TW_SYNC_RGN_BASE | .TW_SYNC_RGN_LEN => true
  | _ => false

/-- What the ACTIVE sends in SETTINGS. Register words are named by register key. -/
def State.twSettings (s : State) : TwSettings :=
  let bl := fun (m : AMap Pilot) => m.filterMap (fun p => p.2.base.map (fun z => (p.1, z.freq, z.flags, z.z, z.ph)))
  { rt := s.aud.rt, rtAct := s.aud.rtAct, map := s.aud.map, xp := s.aud.xp, ow := s.aud.ow, mapAct := s.aud.mapAct,
    tileAct := (List.range 24).map (s.fg F.CL_MIX_STAT_ACTIVE), dc := s.drv.dc,
    ln := s.drv.ln, dcAct := s.drv.act,
    regs := s.regs.filter (fun p => (allRegs.find? (fun (r : RegId) => r.ctorIdx == p.1 / 2048)).any twRegs),
    units := s.eng.units.filterMap (fun p => p.2.prog.map (fun x => (p.1, progImage x))),
    pars := (s.eng.units.filter (fun p => p.2.prog.any (·.param))).map (fun p =>
      (p.1, s.dpaRead (s.parBase p.1 (1 - s.parAct p.1)) 4096)),
    msgs := s.sp.msgs.map (fun p => (p.1, memRead p.2.inUse 0 (64 + msgBytes p.2.inUse))),
    rx := s.net.rx.map (fun p => (p.1, p.2.img)), tx := s.net.tx.map (fun p => (p.1, p.2.img)),
    voices := (s.sp.voices.filter (fun p => p.2.busy)).map (fun p =>
      (p.1, p.2.msg, s.now - p.2.pos * 1000000000 / 96000, (s.zonesOf p.1).foldl (fun m z => m + 2 ^ z) 0)),
    blHf := bl s.drv.hf, blLf := bl s.drv.lf,
    blSw := s.drv.swBase.map (fun p => (p.1, p.2.map (fun z => (z.freq, z.flags, z.z, z.ph)))) }

/-! ### BEAT (R343, R346, R351, R353, R354, R360) -/

/-- The link's delay and the Twin Time slot, from one copy of a BEAT (R36, R38, R343). -/
def State.beatLink (s : State) (l : Nat) (m : TwBeat) : State :=
  let t4 := s.mts
  let known := s.tw.own.any (fun b => b.mts == m.echoTx)
  let d := (mtsDiff t4 m.echoTx - mtsDiff m.mts m.echoRx) / 2
  let s := if known then
      let s := s.fs F.TW_LINK_DELAY l (satU 16 d.toNat)
      { s with tw := { s.tw with slow := mput 0 s.tw.slow l (if 2000 < d then mget 0 s.tw.slow l + 1 else 0) } }
    else s
  let s := { s with tw := { s.tw with
    rx := mset false s.tw.rx l (t4, m.mts), got := mput 0 s.tw.got l (m.tickno + 1),
    miss := mput 0 s.tw.miss l 0 } }
  let base := m.sec * 1000000000
  let full := base + (m.mts + 2 ^ 32 - base % 2 ^ 32) % 2 ^ 32
  let s : State := s.slotPhase (8 + l) (((full + s.fg F.TW_LINK_DELAY l : Nat) : Int) - (s.now : Int))
  let s : State := s.setSlot (8 + l) { s.slot (8 + l) with peerQl := m.ql, lastEdge := some (s.now : Int) }
  if s.sst (8 + l) ≠ 0 ∧ !(s.slot (8 + l)).valid then s.slotValid (8 + l) else s

/-- Both twins are ACTIVE (R351): the one whose ports follow it on fewer links becomes SUSPECT; on equal counts, SIDE 1. -/
def State.split (s : State) : State :=
  let s := s.fs F.TW_STAT_SPLIT 0 1
  let up := (List.range 24).filter (fun n => s.fg F.DP_STAT_STATE n == 3)
  let mine := (up.filter (fun n => s.fb F.DP_STAT_FOLLOWED n)).length
  if mine < up.length - mine ∨ (mine = up.length - mine ∧ s.fg F.TW_CTL_SIDE 0 = 1) then s.toSuspect else s

/-- The digests of tick m are compared (R353), and a mismatch arbitrated on the two scores (R354). -/
def State.compare (s : State) (m : TwBeat) : State :=
  match s.tw.own.find? (fun b => b.tickno == m.tickno) with
  | none => s
  | some b =>
    let oc := b.dig0 == m.dig0 && b.dig1 == m.dig1
    let same := oc && b.digDp == m.digDp
    let mine := b.health % 256
    let theirs := m.health % 256
    let s := { s with tw := { s.tw with ocOk := oc } }
    let live := fun r => r == 2 || r == 3
    if live b.role && live m.role then
      if same then s.fs F.TW_STAT_LOCKSTEP 0 1
      else
        let s := ((s.fs F.TW_STAT_LOCKSTEP 0 0).fadd F.TW_CNT_MISMATCHES 0 1).det 0x72 0 0 0 0
        if s.twRole = 2 then (if mine < theirs then s.hoStart else s)
        else if s.twRole = 3 ∧ mine ≤ theirs then s.toSuspect
        else s
    else if s.twRole = 4 ∧ s.syncPhase = 4 then
      if same then
        let n := s.tw.locked + 1
        { s with tw := { s.tw with locked := n, phaseEnd := decide (24 * s.fg F.TW_SYNC_LOCK_TICKS 0 ≤ n) } }
      else
        let s := (s.setPhase 2).twSend 10 false (.syncAck [] 2 false)
        { s with tw := { s.tw with locked := 0, passOk := false, passOk2 := false, refused := [] } }
    else s

/-- What the ACTIVE's score says to a HOME STANDBY (R360). -/
def State.watchScore (s : State) (m : TwBeat) : State :=
  if s.twRole = 3 ∧ m.role = 2 ∧ m.health % 256 < s.fg F.TW_CTL_HOME_THRESHOLD 0 then
    { s with tw := { s.tw with lowAt := some (s.tw.lowAt.getD s.time.up) } }
  else { s with tw := { s.tw with lowAt := none, asked := false } }

/-- A split, seen by an ACTIVE whose partner claims too (R351), outside the instants of a handover. -/
def State.splitCheck (s : State) (m : TwBeat) : State :=
  if s.twRole = 2 ∧ m.role = 2 ∧ s.tw.hoOut.isNone ∧ s.tw.tookTick + 1 < s.time.tick then s.split else s.fs F.TW_STAT_SPLIT 0 0

/-- The ACTIVE sends its settings (R357). -/
def State.syncSettings (s : State) : State :=
  if s.tw.fwDiff then s
  else
    let s := s.setPhase 1
    s.twSend 9 false (.sync (.settings s.twSettings))

/-- The ACTIVE's part in a resynchronisation begins when its partner is SUSPECT, and ends when it no longer is (R357). -/
def State.syncServe (s : State) (m : TwBeat) : State :=
  if s.twRole = 2 ∧ m.role = 4 ∧ s.syncPhase = 0 then s.syncSettings
  else if s.twRole = 2 ∧ m.role ≠ 4 ∧ s.syncPhase ≠ 0 then s.setPhase 0
  else s

/-- The first copy of a tick's BEAT. -/
def State.beatTake (s : State) (m : TwBeat) : State :=
  let s : State := { s with tw := { s.tw with got := mput 0 s.tw.got 2 (m.tickno + 1), peer := some m, heard := s.time.up } }
  let s : State := s.rw .TW_PEER_LO 0 (BitVec.ofNat 32 m.health)
  let s : State := s.fs F.TW_STAT_PEER_SCORE 0 (m.health % 256)
  if s.twRole = 1 then (if m.role = 2 then ((s.fs F.TW_STAT_PARTNER 0 1).toSuspect).syncStart else s)
  else (((((s.fs F.TW_STAT_PARTNER 0 1).splitCheck m).compare m).watchScore m).syncServe m).twRejoin.syncStart

/-- BEAT (R343): each link's copy measures that link; the first copy of a tick is taken. -/
def execBeat (h : TwHdr) (m : TwBeat) (s : State) : Host.Outcome State Fault Refusal :=
  let s := s.elapse h.dt
  .next (if !s.twHears h then s
    else
      let s : State := s.beatLink h.link m
      if mget 0 s.tw.got 2 = m.tickno + 1 then s else s.beatTake m)

/-- Whether BEATs of link l are waited for: paired, or one has come. -/
def State.twWatched (s : State) (l : Nat) : Bool := s.twRole != 0 && (s.twPaired || (mfind s.tw.rx l).isSome)

/-- BEAT_MISSED (R343): at T_m + 10 µs no BEAT of tick m has come on link l. Three ticks without one on both links lose the
partner; a slot of Twin Time is invalid after three (R36), also where twin operation has ended. -/
def execBeatMissed (l dt : Nat) (s : State) : Host.Outcome State Fault Refusal :=
  let s := s.elapse dt
  let watched := s.twWatched l
  .next (if 2 ≤ l ∨ (watched || (s.slot (8 + l)).valid) = false ∨ s.now < tickStart (tickAt s.now) + 10000
      ∨ mget 0 s.tw.got l = s.tickno + 1 ∨ mget 0 s.tw.judged l = s.time.tick then s
    else
      let n := mget 0 s.tw.miss l + 1
      let s := { s with tw := { s.tw with judged := mput 0 s.tw.judged l s.time.tick, miss := mput 0 s.tw.miss l n } }
      let s := s.fadd F.TW_LINK_MISSED l (b2n watched)
      let s := if n = 3 ∧ s.sst (8 + l) ≠ 0 then s.slotInvalid (8 + l) else s
      if s.twPaired ∧ 3 ≤ n ∧ 3 ≤ mget 0 s.tw.miss (1 - l) then s.partnerLost else s)

/-- HOME_HOLD_EXPIRY (R360). -/
def execHomeHoldExpiry (s : State) : Host.Outcome State Fault Refusal :=
  .next (match s.tw.lowAt with
    | some t =>
      if s.twRole = 3 ∧ s.fb F.TW_CTL_HOME 0 ∧ !s.tw.asked ∧ t + s.fg F.TW_TIMERS_HOME_HOLD 0 * secNs ≤ s.time.up
          ∧ s.fg F.TW_CTL_HOME_THRESHOLD 0 ≤ s.fg F.TW_STAT_SCORE 0 then
        let s := s.twSend 7 true (.handover (frameFrom (s.now + 5000) % 65536) true)
        { s with tw := { s.tw with asked := true } }
      else s
    | none => s)

/-- MT_ALIGNED_LOSS_EXPIRY (R352). -/
def execMtAlignedLossExpiry (s : State) : Host.Outcome State Fault Refusal :=
  .next (if s.tw.unaligned.any (fun t => decide (t + secNs ≤ s.time.up)) then s.standbySuspect else s)

/-! ### The links (R340) -/

/-- Show whether a link is UP. -/
def State.showLink (s : State) (l : Nat) (up : Bool) : State :=
  (s.fs F.TW_LINK_UP l (b2n up)).fs (if l = 0 then F.TW_STAT_T0_UP else F.TW_STAT_T1_UP) 0 (b2n up)

/-- TWIN_LINK_DOWN (R340): block lock lost, or the delay above 2.0 µs on 8 consecutive BEATs. -/
def execTwinLinkDown (l : Nat) (lost : Bool) (s : State) : Host.Outcome State Fault Refusal :=
  .next (if l < 2 ∧ s.twUp l ∧ (lost ∨ 8 ≤ mget 0 s.tw.slow l) then
      let s := ({ s with tw := { s.tw with slow := mput 0 s.tw.slow l 0 } } : State).showLink l false
      let s := if s.sst (8 + l) ≠ 0 then s.slotInvalid (8 + l) else s
      s.det 0x70 l 0 0 0
    else s)

/-- TWIN_LINK_UP (R340): block lock with a measured delay within 2.0 µs. -/
def execTwinLinkUp (l delay : Nat) (s : State) : Host.Outcome State Fault Refusal :=
  .next (if l < 2 ∧ delay ≤ 2000 then (s.showLink l true).fs F.TW_LINK_DELAY l delay else s)

/-! ### Validity of the reference slots (R36) -/

/-- Whether a slot meets its invalidity condition of R36. PTP: link down, no Announce in time or clockClass 255, or three Sync
intervals of the port without a Sync; Twin Time: link down or three BEATs missed; REFIN and PPSIN: no edge in time, or too many
off the period. -/
def State.slotBad (s : State) (n : Nat) : Bool :=
  let x := s.slot n
  if n < 8 then
    !s.netUp n || (s.np n).ptp.master == [] || x.cls == 255
      || (match s.edgeGap n with
          | some g => decide (g ≥ 3 * logNs (s.fgI F.NET_PTP_CFG_LOG_SYNC n))
          | none => true)
  else if isTwinSlot n then !s.twUp (n - 8) || decide (3 ≤ mget 0 s.tw.miss (n - 8)) || x.lastEdge.isNone
  else s.edgeLate n || decide ((if n = 14 then 1 else 8) ≤ x.badEdges)

/-- SLOT_INVALID (R36, R40): the slot meets its invalidity condition. -/
def execSlotInvalid (n : Nat) (s : State) : Host.Outcome State Fault Refusal :=
  .next (if n < 15 ∧ s.slotBad n then s.slotInvalid n else s)

/-- SLOT_VALID (R40): an enabled slot that is valid under R36. -/
def execSlotValid (n : Nat) (s : State) : Host.Outcome State Fault Refusal :=
  .next (if n < 15 ∧ s.sst n ≠ 0 ∧ !s.slotBad n then s.slotValid n else s)

/-- SYNC_TIMEOUT (R36): three Sync intervals of the port without a Sync invalidate a PTP slot. -/
def execSyncTimeout (n : Nat) (s : State) : Host.Outcome State Fault Refusal :=
  .next (match s.edgeGap n with
    | some g => if n < 8 ∧ g ≥ 3 * logNs (s.fgI F.NET_PTP_CFG_LOG_SYNC n) then s.slotInvalid n else s
    | none => s)

/-! ### MIRROR (R355) -/

/-- The TYPE 6 channels of the mirrored ports, in the order of a MIRROR: TDM ports and their RX-mask slots, then PDM ports. -/
def State.mirrorKeys (s : State) (ty2 ty3 : Nat → Nat → Nat) : List Nat :=
  ((bitList 16 (s.fg F.TW_MIRROR_TDM 0)).flatMap (fun p => (bitList 32 (s.fg F.TDM_MASK_RX_MASK p)).map (ty2 p)))
    ++ (bitList 8 (s.fg F.TW_MIRROR_PDM 0)).flatMap (fun p => [ty3 p 0, ty3 p 1])

/-- The keys of the local channels, and those under which the partner's arrive. -/
def State.mirLocal (s : State) : List Nat := s.mirrorKeys (fun p i => endKey 2 p i) (fun p m => endKey 3 p m)
def State.mirPeer (s : State) : List Nat := s.mirrorKeys (fun p i => endKey 6 (512 + p) i) (fun p m => endKey 6 (768 + p) m)

/-- The global number of the present sample instant. -/
def State.sampleNow (s : State) : Nat := sampleAtOrBefore s.now

/-- A sample as the Router has it. -/
def State.sampleOf (s : State) (key n : Nat) : Option Word :=
  ((mget [] s.aud.inq key).find? (fun p => p.1 == n)).map (fun p => BitVec.ofInt 32 p.2)

/-- MIRROR is sent at every sample instant while a partner is paired: local channels, and from the ACTIVE its ASRC outputs. -/
def State.mirrorSend (s : State) : State :=
  if s.twRole = 0 ∨ !s.twPaired then s
  else
    let n := s.sampleNow
    let loc := s.mirLocal.map (fun k => s.sampleOf k n)
    let asrc := if s.twRole = 2 then s.asrcSlots.map (fun k => s.sampleOf (s.icSrc s.aud.rtAct k / 2) n) else []
    s.twSend 3 true (.mirror { sample := s.mts, local_ := loc.take 1024, asrc := asrc.take (1024 - loc.length) })

/-- Put the samples of a MIRROR into the Router's queues. -/
def State.mirrorPut (s : State) (n : Nat) : List (Nat × Option Word) → State
  | [] => s
  | (k, v) :: t => (match v with
    | some w => s.pushIn k n w.toInt
    | none => s).mirrorPut n t

/-- MIRROR (R355). -/
def execMirror (h : TwHdr) (m : TwMirror) (s : State) : Host.Outcome State Fault Refusal :=
  let s := s.elapse h.dt
  .next (if !s.twHears h then s
    else
      let n := sampleAtOrAfter ((s.now : Int) + mtsDiff m.sample s.mts).toNat
      let s := s.mirrorPut n (s.mirPeer.zip m.local_)
      if s.twRole = 3 ∧ h.active then
        let ks := s.asrcSlots
        let s := s.mirrorPut n ((ks.map (fun k => endKey 15 0 k)).zip m.asrc)
        { s with tw := { s.tw with mirIc := ks } }
      else s)

/-! ### CMD_ACK (R356) -/

/-- Mirrored commands whose two outcomes differ make the STANDBY SUSPECT; those with both outcomes are done. -/
def State.twOutcomes (s : State) : State :=
  let both := s.tw.cmdOut.filter (fun x => x.own.isSome && x.peer.isSome)
  if both = [] then s
  else
    let s := { s with tw := { s.tw with cmdOut := s.tw.cmdOut.filter (fun x => !(x.own.isSome && x.peer.isSome)) } }
    if both.any (fun x => x.own != x.peer) then s.standbySuspect else s

/-- CMD_ACK (R356): the partner's status of a mirrored command. -/
def execCmdAck (h : TwHdr) (tag status : Nat) (s : State) : Host.Outcome State Fault Refusal :=
  let s := s.elapse h.dt
  .next (if !s.twHears h then s
    else
      match s.tw.cmdOut.find? (fun x => x.cmd.tag == tag && x.peer.isNone) with
      | some y => ({ s with tw := { s.tw with
          cmdOut := s.tw.cmdOut.map (fun x => if x.seq == y.seq then { x with peer := some status } else x) } } : State).twOutcomes
      | none => s)

/-! ### Applying SETTINGS -/

/-- Install baselines. -/
def putBase (m : AMap Pilot) (l : List (Nat × Nat × Nat × Nat × Int)) : AMap Pilot :=
  l.foldl (fun m p => mmod Pilot.reset m p.1 (fun x => { x with base := some ⟨p.2.1, p.2.2.1, p.2.2.2.1, p.2.2.2.2⟩ })) m

/-- A program takes the place of a unit's at the present boundary. -/
def State.putProg (s : State) (u : Nat) (p : UProg) : State :=
  let s := s.setUnit u { s.unit u with prog := some { p with ready := some s.time.tick }, load := none, last := [], silent := false }
  (((s.writeUnit u p).showProg u (some p)).setUst u 1).showNoSpare u

/-- The settings received are applied at one tick boundary, journaled with SOURCE 1 and CODE 0x0902. -/
def State.twApplySettings (s : State) : State :=
  match s.tw.settings with
  | none => s
  | some x =>
    let s := { s with
      aud := { s.aud with rt := x.rt, rtAct := x.rtAct, map := x.map, xp := x.xp, ow := x.ow, mapAct := x.mapAct,
                          rtOutTick := s.time.tick },
      drv := { s.drv with dc := x.dc, ln := x.ln, act := x.dcAct, use := x.dcAct, hf := putBase s.drv.hf x.blHf,
                          lf := putBase s.drv.lf x.blLf,
                          swBase := x.blSw.map (fun p => (p.1, p.2.map (fun z => ⟨z.1, z.2.1, z.2.2.1, z.2.2.2⟩))) } }
    let s := (List.range 24).foldl (fun s c => s.fs F.CL_MIX_STAT_ACTIVE c (x.tileAct.getD c 0)) s
    let s := [(Tab.ROUTER, 8192), (Tab.MAP, 2048), (Tab.XP, 48 * 49152), (Tab.OUT, 2304), (Tab.DC, 384), (Tab.LINE, 384)].foldl
      (fun (s : State) t => s.wroteTab t.1 0 t.2) s
    let s := { s with regs := s.regs.filter (fun p => !((allRegs.find? (fun (r : RegId) => r.ctorIdx == p.1 / 2048)).any twRegs)) }
    let s := x.regs.foldl (fun s p => { s with regs := mset false s.regs p.1 p.2 }) s
    let s := (s.eng.units.map (·.1)).foldl (fun s u =>
      if (s.progOf u).isSome ∧ !(x.units.any (fun p => p.1 == u)) then
        ((s.setUnit u { s.unit u with prog := none, load := none }).setUst u 0).showProg u none
      else s) s
    let s := x.units.foldl (fun s p => if p.1 < 192 then s.putProg p.1 (imgProg p.2) else s) s
    let s := x.pars.foldl (fun s p => if p.1 < 192 then s.fillRange (s.parBase p.1 (1 - s.parAct p.1)) 4096 p.2 else s) s
    let s := x.msgs.foldl (fun s p =>
      let m := memWrite [] 0 p.2
      (s.setMsg p.1 { Msg.empty with flash0 := m, ddr := m }).showMsg p.1 true) s
    let s := { s with net := { s.net with rx := [], tx := [] } }
    let s := x.rx.foldl (fun s p => (s.setRxs p.1 { Stream.none with img := p.2 }).convSet (grpKey false 1 p.1)
      (streamConv (!rxSync p.2) p.2) (!rxSync p.2)) s
    let s := x.tx.foldl (fun s p => (s.setTxs p.1 { Stream.none with img := p.2 }).convSet (grpKey true 1 p.1)
      (streamConv false p.2) false) s
    let s := x.voices.foldl (fun s v =>
      let s := s.startVoice v.1 v.2.1 false 0 0
      let s := s.setVoice v.1 { s.voice v.1 with pos := (s.now - v.2.2.1) * 96000 / 1000000000 }
      (bitList 32 v.2.2.2).foldl (fun s z => s.joinZone z v.1 false) s) s
    let (g, s) := s.newGen
    let s := (s.journal ⟨g, s.time.sec.toNat % 2 ^ 32, s.time.ns.toNat, 0x0902, 1, 0, 0, 0, 255⟩).logRecord g 0x0902 1 true
    { s with tw := { s.tw with settings := none, phaseEnd := true } }

/-! ### BULK and CUT (R357) -/

/-- Install the states of CUT as of frame F, then replay the recorded frames up to the present. -/
def State.cutInstall (s : State) (f : Nat) (chs : List TwCutCh) (grps : List TwCutGrp) (pil : List TwCutPilot) : State :=
  let up := s.time.up
  let s := chs.foldl (fun s x =>
    let y := s.ch x.c
    (s.setCh x.c { y with
      cause := x.cause, retry := x.retry, timer := up + x.left, gain0 := x.gain, gain := x.gain, bins := x.bins,
      cur := x.cur, tickE := x.tickE, lastE := x.lastE, errA := x.errA, errB := x.errB }).setSt x.c x.st) s
  let s := grps.foldl (fun s x =>
    let y := s.grp x.g
    ((s.setGrp x.g { y with r6 := x.r6, acc := x.acc, q := x.q, riseN := x.riseN, at_ := up - x.since }).fs F.FLT_CAP_MEAS x.g
      x.meas |>.fs F.FLT_VE_V0 x.g x.v0).fs F.FLT_VE_V_E x.g x.ve) s
  let s := pil.foldl (fun s x =>
    let d : Demod := ⟨x.start, x.stop, x.n, x.bad, x.hiz, x.a, x.b⟩
    if x.lf then { s with drv := { s.drv with lf := mmod Pilot.reset s.drv.lf x.c (fun p => { p with acc := d }) } }
    else { s with drv := { s.drv with hf := mmod Pilot.reset s.drv.hf x.c (fun p => { p with acc := d }) } }) s
  let old := s
  let l := s.tw.recs.filter (fun r => decide (f ≤ r.2.2.1))
  let (_, s) := l.foldl (fun (q : Nat × State) r =>
    let t := if q.1 = r.1 then q.2 else if q.1 = 0 then q.2 else q.2.limiterAll
    (r.1, if t.fg F.DP_STAT_STATE r.2.1 = 3 then t.senseFrame r.2.1 r.2.2.1 r.2.2.2 else t)) (0, s)
  { s with detq := old.detq, hif := old.hif, tw := { s.tw with recs := [], phaseEnd := true } }

/-- SYNC (R357): the SUSPECT takes settings, pages, the end of a pass and the states of CUT, each in its phase. -/
def execSync (h : TwHdr) (m : TwSync) (s : State) : Host.Outcome State Fault Refusal :=
  let s := s.elapse h.dt
  let ph := s.syncPhase
  .next (if !s.twHears h ∨ s.twRole ≠ 4 then s
    else match m with
      | .settings x => if ph = 1 then { s with tw := { s.tw with settings := some x } } else s
      | .page p cap data =>
        if ph ≠ 2 then s
        else
          let w := mget 0 s.tw.pageAt p
          if w ≠ 0 ∧ 0 < mtsDiff (mtsOf (w - 1)) cap then
            { s with tw := { s.tw with refused := s.tw.refused ++ [p] } }
          else
            let t := s.fillRange (4096 * p) 4096 data
            { t with tw := { t.tw with pageAt := s.tw.pageAt } }
      | .passEnd =>
        if ph ≠ 2 then s
        else
          let done := s.tw.passOk2 && s.tw.refused == []
          let t := s.twSend 10 false (.syncAck s.tw.refused 2 done)
          { t with tw := { t.tw with phaseEnd := done, passOk2 := s.tw.passOk, passOk := s.tw.ocOk, refused := [] } }
      | .cut f chs grps pil => if ph = 3 then s.cutInstall f chs grps pil else s)

/-- Valid Cistern windows as pages (R323). -/
def State.windowPages (s : State) : List Nat :=
  (List.range 24).flatMap (fun c =>
    if s.fb F.DPR_CISWIN_VALID c then
      (List.range (s.fg F.DPR_CISWIN_LEN c)).map (fun i => (dpaCistern c) / 4096 + s.fg F.DPR_CISWIN_BASE c + i)
    else [])

/-- Whether a page lies in a region of TW_SYNC_RGN. -/
def State.inSyncRgn (s : State) (p : Nat) : Bool :=
  (List.range 16).any (fun i =>
    let b := s.fg F.TW_SYNC_RGN_BASE_BASE i
    decide (b ≤ p) && decide (p < b + s.fg F.TW_SYNC_RGN_LEN_LEN i))

/-- The pages a pass copies: in the first the windows and the regions in full, later those of the regions written since the
previous pass started, and the pages refused in it. -/
def State.passPages (s : State) (refused : List Nat) : List Nat :=
  if s.tw.passNo = 0 then
    s.windowPages ++ (List.range 16).flatMap (fun i =>
      (List.range (s.fg F.TW_SYNC_RGN_LEN_LEN i)).map (· + s.fg F.TW_SYNC_RGN_BASE_BASE i))
  else
    nub ((s.tw.pageAt.filter (fun p => decide (s.tw.passAt < p.2) && s.inSyncRgn p.1)).map (·.1) ++ refused)

/-- The ACTIVE starts a pass. -/
def State.startPass (s : State) (refused : List Nat) : State :=
  let ps := s.passPages refused
  let s := { s with tw := { s.tw with sending := ps, passAt := s.now, passNo := s.tw.passNo + 1 } }
  let s := ps.foldl (fun s p => s.twSend 9 false (.sync (.page p s.mts (s.dpaRead (4096 * p) 4096)))) s
  s.twSend 9 false (.sync .passEnd)

/-- The states the ACTIVE captures at frame F. -/
def State.cutCapture (s : State) (f : Nat) : TwSync :=
  let up := s.time.up
  .cut f (s.drv.chs.map (fun p => ⟨p.1, p.2.st, p.2.cause, p.2.retry, p.2.timer - up, p.2.gain, p.2.bins, p.2.cur, p.2.tickE, p.2.lastE,
      p.2.errA, p.2.errB⟩))
    (s.drv.grps.map (fun p => ⟨p.1, p.2.r6, p.2.acc, s.fg F.FLT_CAP_MEAS p.1, s.fg F.FLT_VE_V0 p.1, s.fg F.FLT_VE_V_E p.1, p.2.q,
      p.2.riseN, up - p.2.at_⟩))
    (s.drv.hf.map (fun p => ⟨p.1, false, p.2.acc.start, p.2.acc.stop, p.2.acc.n, p.2.acc.bad, p.2.acc.hiz, p.2.acc.a, p.2.acc.b⟩)
      ++ s.drv.lf.map (fun p => ⟨p.1, true, p.2.acc.start, p.2.acc.stop, p.2.acc.n, p.2.acc.bad, p.2.acc.hiz, p.2.acc.a, p.2.acc.b⟩))

/-- BULK begins with its first pass. -/
def State.startBulk (s : State) : State := ({ s with tw := { s.tw with passNo := 0, pageAt := [] } } : State).startPass []

/-- SYNC_ACK (R357): the SUSPECT's report to the ACTIVE of its phase. An attempt that begins asks for the settings; in BULK a
pass that did not end the phase is followed by another; a mismatch in VERIFY brings BULK back. -/
def execSyncAck (h : TwHdr) (refused : List Nat) (phase : Nat) (done : Bool) (s : State) : Host.Outcome State Fault Refusal :=
  let s := s.elapse h.dt
  .next (if !s.twHears h ∨ s.twRole ≠ 2 then s
    else if done then (if phase = s.syncPhase ∧ phase ≠ 0 then { s with tw := { s.tw with phaseEnd := true } } else s)
    else if phase = 1 then s.syncSettings
    else if phase = 2 ∧ s.syncPhase = 2 then s.startPass refused
    else if phase = 2 ∧ s.syncPhase = 4 then (s.setPhase 2).startBulk
    else s)

/-- RESYNC_PHASE_COMPLETE (R357): the end condition of the present phase holds. -/
def execResyncPhaseComplete (s : State) : Host.Outcome State Fault Refusal :=
  let ph := s.syncPhase
  .next (if ph = 0 ∨ !s.tw.phaseEnd then s
    else if s.twRole = 4 then
      if ph = 4 then (((s.setPhase 0).setRole 3).fadd F.TW_CNT_RESYNCS 0 1)
      else
        let s := s.setPhase (ph + 1)
        let s := if ph = 2 then s else s.twSend 10 false (.syncAck [] ph true)
        { s with tw := { s.tw with recs := [], locked := 0 } }
    else if s.twRole = 2 then
      if ph = 4 then s
      else
        let s := s.setPhase (ph + 1)
        if ph = 1 then s.startBulk
        else if ph = 2 then
          let f := frameFrom (roundTick (s.now + 1))
          { s with tw := { s.tw with cutF := f } }
        else s
    else s)

/-- At a tick boundary: the ACTIVE sends the states of CUT once frame F has come, the SUSPECT applies the settings it has
received. -/
def State.syncTick (s : State) : State :=
  let s := if s.twRole = 4 then s.twApplySettings else s
  if s.twRole = 2 ∧ s.syncPhase = 3 ∧ s.tw.cutF ≠ 0 then
    let s := s.twSend 9 false (.sync (s.cutCapture s.tw.cutF))
    { s with tw := { s.tw with cutF := 0 } }
  else s

/-! ### Commands -/

/-- The register of word i of a TW_SET buffer. -/
def twReg (i : Nat) : RegId × Nat :=
  if i = 0 then (.TW_CTL, 0) else if i = 1 then (.TW_TIMERS, 0) else if i = 2 then (.TW_MIRROR, 0)
  else if (i - 3) % 2 = 0 then (.TW_SYNC_RGN_BASE, (i - 3) / 2) else (.TW_SYNC_RGN_LEN, (i - 3) / 2)

def chkTwSet (c : Cmd) (s : State) : Chk :=
  let w := fun i => leAt c.buf (4 * i) 4
  let en := (w 0).testBit 0
  if c.len ≠ 140 ∨ !(List.range 35).all (fun i => imgOk (twReg i).1 (w i))
      ∨ (List.range 16).any (fun i => decide (0x1C0000 < w (3 + 2 * i) + w (4 + 2 * i))) then (Sts.CMD_RANGE, [])
  else if (en && s.fg F.WH_CTL_CONFIG 0 != 1) || (!en && s.activePair) then (Sts.TW_ROLE, [])
  else Chk.ok

def applyTwSet (e : Entry) (s : State) : State :=
  let k := chkTwSet e.cmd s
  if k.1 ≠ Sts.OK then s.finish e k.1 k.2 false
  else
    let was := s.fb F.TW_CTL_EN 0
    let s := (List.range 35).foldl (fun s i => s.imgWrite (twReg i).1 (twReg i).2 (leAt e.cmd.buf (4 * i) 4)) s
    (s.twEnable was).finish e Sts.OK [] true

def execTwSet (c : Cmd) (s : State) : Host.Outcome State Fault Refusal := .next (submit Code.TW_SET chkTwSet c s)

def chkTwYield (_ : Cmd) (s : State) : Chk :=
  if !s.twPaired then (Sts.TW_NOT_PAIRED, []) else if !s.activePair then (Sts.TW_ROLE, []) else Chk.ok

def applyTwYield (e : Entry) (s : State) : State :=
  let k := chkTwYield e.cmd s
  if k.1 ≠ Sts.OK then s.finish e k.1 k.2 false else s.hoStart.finish e Sts.OK [] false

def execTwYield (c : Cmd) (s : State) : Host.Outcome State Fault Refusal := .next (submit Code.TW_YIELD chkTwYield c s)

def chkTwResync (_ : Cmd) (s : State) : Chk :=
  if !s.twPaired then (Sts.TW_NOT_PAIRED, [])
  else if s.twRole ≠ 4 then (Sts.TW_ROLE, [])
  else if s.syncPhase ≠ 0 then (Sts.TW_RESYNC_BUSY, [])
  else Chk.ok

def applyTwResync (e : Entry) (s : State) : State :=
  let k := chkTwResync e.cmd s
  if k.1 ≠ Sts.OK then s.finish e k.1 k.2 false
  else
    let s := { s with tw := { s.tw with retryAt := none } }
    ((if s.tw.fwDiff then s.fs F.TW_STAT_SYNC_CAUSE 0 0 else s).syncStart).finish e Sts.OK [] false

def execTwResync (c : Cmd) (s : State) : Host.Outcome State Fault Refusal := .next (submit Code.TW_RESYNC chkTwResync c s)

/-- Whether the HOME twin is the device itself and STANDBY, or its partner and STANDBY. -/
def State.homeHere (s : State) : Bool := s.fb F.TW_CTL_HOME 0 && s.twRole == 3
def State.homeThere (s : State) : Bool := s.tw.peerHome && s.activePair

def chkTwHome (_ : Cmd) (s : State) : Chk := if s.homeHere || s.homeThere then Chk.ok else (Sts.TW_ROLE, [])

def applyTwHome (e : Entry) (s : State) : State :=
  let k := chkTwHome e.cmd s
  if k.1 ≠ Sts.OK then s.finish e k.1 k.2 false
  else
    (if s.homeHere then s.twSend 7 true (.handover (frameFrom (s.now + 5000) % 65536) true) else s.hoStart).finish e Sts.OK [] false

def execTwHome (c : Cmd) (s : State) : Host.Outcome State Fault Refusal := .next (submit Code.TW_HOME chkTwHome c s)

end Sys2Proof.Machine
end

