-- ==== Sys2Proof/Machine/Sump.lean ====
section
/-! DEFINITION. The Sump (R324 - R337): taking faults, episodes, acknowledgement and escalation, quenching, the log, injection,
ALIVE and YIELD, the die sensors. -/

namespace Sys2Proof.Machine

def Det.id (d : Det) : Nat := 256 * d.fam + d.inst
def Det.cls (d : Det) : Nat := d.fam / 16

/-! ### What exists (R325, R450) -/

/-- Families whose faults name a subject. -/
def hasSubject (fam : Nat) : Bool := fam ∈ [0x00, 0x01, 0x12, 0x13, 0x20, 0x21, 0x22, 0x34, 0x52, 0x53, 0x54]

/-- Whether a subject exists in an instance of a family. -/
def subjOk (fam inst subj : Nat) : Bool :=
  if fam = 0x00 ∨ fam = 0x01 then
    (if inst < 6 then subj / 32 == inst || subj / 4 == inst else if inst = 6 then decide (subj < 8) else subj == 0)
  else if fam = 0x12 then decide (subj < (if inst < 2 then 124 else 15))
  else if fam = 0x13 then decide (subj < 16)
  else if fam = 0x20 ∨ fam = 0x21 then subj / 32 == inst
  else if fam = 0x22 ∨ fam = 0x34 then subj / 4 == inst
  else if fam = 0x52 then subj / 8 == inst
  else if fam = 0x53 then subj / 24 == inst
  else if fam = 0x54 then subj / 2 == inst
  else subj == 0

/-- Whether a detector and a subject exist. -/
def detOk (fam inst subj : Nat) : Bool :=
  (faultFamilies.any (fun f => f.1 == fam && decide (inst < f.2.1))) && decide (subj < 256) && subjOk fam inst subj

/-! ### Levels -/

/-- The level a report is taken at before escalation (R325). -/
def State.famLevel (s : State) (d : Det) : Nat :=
  let l := s.fg F.SMP_FAM_LEVEL d.fam
  if d.fam = 0x60 then (if d.kind = 3 then 4 else d.kind)
  else if d.fam = 0x53 ∧ d.kind = 3 then l - 1
  else if d.fam = 0x54 ∧ d.kind = 2 then min 4 (l + 1)
  else l

/-- Whether a quench window is open (R333). -/
def State.windowOpen (s : State) (v : Nat) : Bool := v == 1 || (decide (2 ≤ v) && decide (s.time.up < v - 2))
def State.clQuenched (s : State) (c : Nat) : Bool := s.windowOpen (mget 0 s.eng.quC c)
def State.unQuenched (s : State) (u : Nat) : Bool := s.windowOpen (mget 0 s.eng.quU u)

/-- Whether a report falls in a quench window (R333), or comes from a unit the debug port holds (R389). -/
def State.quenched (s : State) (d : Det) : Bool :=
  let f := d.fam
  if f = 0x20 ∨ f = 0x21 then s.unQuenched d.subj || s.clQuenched (d.subj / 8) || (s.unit d.subj).halted
  else if f = 0x22 then s.clQuenched d.subj
  else if f = 0x13 then (if d.inst < 24 then s.clQuenched d.inst else d.tgt != 0 && s.clQuenched (d.tgt - 1))
  else if f = 0x12 ∧ d.inst < 2 then
    let n := d.subj
    if n < 96 then s.unQuenched (96 * d.inst + n) || s.clQuenched ((96 * d.inst + n) / 8)
    else if n < 120 then s.clQuenched (12 * d.inst + (n - 96) % 12)
    else false
  else false

/-- The cluster that a fault's L2 action would reset (R325). -/
def State.resetBy (s : State) (d : Det) : Option Nat :=
  if d.fam = 0x13 then (if d.inst < 24 then some d.inst else none)
  else if d.fam = 0x20 ∨ d.fam = 0x21 then (match s.unitL2 d.subj with | (2, c) => some c | _ => none)
  else none

/-! ### Episodes (R327) -/

def State.smpCls (s : State) (c : Nat) (dry : Bool) : SmpCls := mget SmpCls.reset s.smp.cls (if dry then 8 + c else c)
def State.setSmpCls (s : State) (c : Nat) (dry : Bool) (x : SmpCls) : State :=
  { s with smp := { s.smp with cls := mput SmpCls.reset s.smp.cls (if dry then 8 + c else c) x } }

/-- The episode level and the lead fault. -/
def SmpCls.level (x : SmpCls) : Nat := x.un.foldl (fun m f => max m f.level) 0
def SmpCls.lead (x : SmpCls) : Option SmpFault := (x.un.filter (fun f => f.level == x.level)).getLast?

/-- UNACK and PEND of a class. -/
def State.showCls (s : State) (c : Nat) : State :=
  let x := s.smpCls c false
  (s.fs F.SMP_CLASS_STAT_UNACK c (b2n (x.un != []))).fs F.SMP_CLASS_STAT_PEND c x.level

/-- The package level (R326) with YIELD and what the twin does at it (R332, R346). -/
def State.showPkg (s : State) : State :=
  let was := s.fg F.SMP_STAT_PKG_LEVEL 0
  let held := (List.range 8).filter (fun c => s.fb F.SMP_CLASS_STAT_ACTIVE c)
  let l := held.foldl (fun m c => max m (s.fg F.SMP_CLASS_STAT_LEVEL c)) 0
  let s := (s.fs F.SMP_STAT_PKG_LEVEL 0 l).fs F.SMP_STAT_ACTIVE 0 (b2n (held != []))
  (s.fs F.SMP_STAT_YIELD 0 (b2n (decide (3 ≤ l)))).twLevel was

/-- TIMER of a class in ns. -/
def State.smpTimer (s : State) (c : Nat) : Nat := s.fg F.SMP_CLASS_CTL_TIMER c * 1000

/-! ### Records and the log (R334, R335) -/

/-- Write a log entry. -/
def State.smpLog (s : State) (d : Det) (level : Nat) (quenched esc : Bool) : State :=
  let w0 := 2 ^ 31 + b2n d.inj * 2 ^ 30 + b2n d.dry * 2 ^ 29 + b2n quenched * 2 ^ 28 + b2n esc * 2 ^ 27 + level % 8 * 2 ^ 24
    + d.subj % 256 * 2 ^ 16 + d.id % 2 ^ 16
  let w1 := d.kind % 256 * 2 ^ 24 + d.detail % 2 ^ 24
  let s := if s.smp.log.length = 64 then s.fadd F.SMP_LOGSTAT_OVERWRITTEN 0 1 else s
  let l := s.smp.log ++ [(w0, w1, d.mts)]
  let l := l.drop (l.length - 64)
  { s.fs F.SMP_LOGSTAT_COUNT 0 l.length with smp := { s.smp with log := l } }

/-- Post the SMP_FAULT record. -/
def State.smpRecord (s : State) (d : Det) (level cfg flags fseq episode : Nat) : State :=
  s.postAt d.mts Evt.SMP_FAULT d.id
    ([BitVec.ofNat 8 d.cls, BitVec.ofNat 8 level, BitVec.ofNat 8 cfg, BitVec.ofNat 8 flags, BitVec.ofNat 8 d.subj,
      BitVec.ofNat 8 d.kind, 0, 0] ++ leBytes 4 d.detail ++ leBytes 4 fseq ++ leBytes 4 episode)

/-! ### Taking a fault (R326 - R328) -/

/-- The L2 action of a fault (R325). -/
def State.l2Action (s : State) (f : SmpFault) : State :=
  let d := f.det
  let s := match s.resetBy d with
    | some c => { s with smp := { s.smp with clF := mset false s.smp.clF c f } }
    | none => s
  if d.fam = 0x13 ∧ d.inst < 24 then s.clusterReq d.inst (s.time.tick + 1) (some f.fseq)
  else if d.fam = 0x20 ∨ d.fam = 0x21 then s.unitL2Do d.subj (some f.fseq)
  else if d.fam = 0x60 then
    { s.fs F.SMP_STAT_CAPPED 0 1 with smp := { s.smp with capAt := s.time.up } }
  else s

/-- Whether the L2 action is a cluster reset that AUTO_RST does not allow. -/
def State.holdBy (s : State) (d : Det) : Bool := (s.resetBy d).any (fun c => !s.fb F.CL_CTL_AUTO_RST c)

/-- The class LEVEL takes a fault's level. -/
def State.classLevel (s : State) (c level : Nat) : State :=
  let l := if s.fb F.SMP_CLASS_STAT_ACTIVE c then max level (s.fg F.SMP_CLASS_STAT_LEVEL c) else level
  (s.fs F.SMP_CLASS_STAT_LEVEL c l).fs F.SMP_CLASS_STAT_ACTIVE c 1

/-- A fault numbered `fseq` joins its class at a level: log, record, counters, interrupt, episode. `old` is the taking it
replaces (R328). -/
def State.smpEnter (s : State) (f : SmpFault) (escS escT hold : Bool) (old : Option Nat) : State :=
  let d := f.det
  let c := d.cls
  let x := s.smpCls c d.dry
  let un := x.un.filter (fun g => old != some g.fseq)
  let y : SmpCls := if f.level = 0 then x else
    { un := un ++ [f], start := if x.un = [] then d.mts else x.start,
      timer := if f.level = 4 then none else if x.un = [] ∨ escT then some (s.time.up + s.smpTimer c) else x.timer }
  let s := s.setSmpCls c d.dry y
  let s := s.fadd F.SMP_CLASS_STAT_FAULTS c 1
  let s := if escS || escT then s.fadd F.SMP_CLASS_STAT_ESCALATIONS c 1 else s
  let s := if f.level = 0 then s else { s with smp := { s.smp with irqs := s.smp.irqs + 1 } }
  let s := s.smpLog d f.level false (escS || escT)
  s.smpRecord d f.level f.cfg (b2n d.inj + 2 * b2n d.dry + 4 * b2n escS + 8 * b2n escT + 16 * b2n hold) f.fseq
    (if y.un = [] then 0 else y.start)

/-- Take a report at a level: a real fault's action and the levels of its class and of the package follow. -/
def State.smpTakeAt (s : State) (d : Det) (cfg level fseq : Nat) (escS escT : Bool) (old : Option Nat) : State :=
  let hold := level == 2 && s.holdBy d
  let f : SmpFault := ⟨d, if hold then 3 else level, cfg, fseq, s.time.up⟩
  let s := s.smpEnter f escS escT hold old
  if d.dry then s
  else
    let s := if f.level = 2 then s.l2Action f else s
    ((s.classLevel d.cls f.level).showCls d.cls).showPkg

/-- Take a report (R326, R328, R333): quenched, at L4, or at its level, one higher as a second fault. -/
def State.smpTake (s : State) (d : Det) : State :=
  let fseq := (s.smp.fseq + 1) % 2 ^ 32
  let s := { s with smp := { s.smp with fseq := fseq } }
  let cfg := s.famLevel d
  if s.quenched d then (s.smpLog d cfg true false).fadd F.SMP_CLASS_STAT_QUENCHED d.cls 1
  else if s.level = 4 then
    ((s.smpLog d cfg false false).fadd F.SMP_CLASS_STAT_FAULTS d.cls 1).smpRecord d cfg cfg (b2n d.inj + 2 * b2n d.dry) fseq
      (let x := s.smpCls d.cls d.dry
       if x.un = [] then 0 else x.start)
  else
    let second := decide (1 ≤ cfg) && (s.smpCls d.cls d.dry).un != []
    s.smpTakeAt d cfg (if second then min 4 (cfg + 1) else cfg) fseq second false none

/-- Of the reports of one instant the least detector ID is taken first, and of those the least subject (R331). -/
def Det.before (a b : Det) : Bool := a.mts == b.mts && (decide (a.id < b.id) || (a.id == b.id && decide (a.subj < b.subj)))

/-- The report to take next, and the others. -/
def detNext : List Det → Option (Det × List Det)
  | [] => none
  | d :: t =>
    let best := t.foldl (fun b x => if x.before b then x else b) d
    some (best, (d :: t).erase best)

/-- Whether the debug port holds a Windlass pair. -/
def State.pairHalted (s : State) : Bool := s.fb F.DBG_RUNCTL_PAIR0_HALT 0 || s.fb F.DBG_RUNCTL_PAIR1_HALT 0

/-- Whether a reported condition is one a detector raises: it exists, and it is no Windlass fault of a pair that the debug port
holds (R389). -/
def State.reportOk (s : State) (x : Report) : Bool :=
  detOk x.fam x.inst x.subj
    && !(x.fam == 0x23 && (if x.inst = 0 then s.fb F.DBG_RUNCTL_PAIR0_HALT 0 else s.fb F.DBG_RUNCTL_PAIR1_HALT 0))
    && !(x.fam == 0x24 && s.pairHalted)

/-- SMP_FAULT (R326): the Sump takes the next report. `r` is a condition that its detector reports now. -/
def execSmpFault (r : Option Report) (s : State) : Host.Outcome State Fault Refusal :=
  let s := match r with
    | some x => if s.reportOk x then s.det x.fam x.inst x.subj x.kind x.detail else s
    | none => s
  .next (match detNext s.detq with
    | some (d, t) => ({ s with detq := t } : State).smpTake d
    | none => s)

/-- A fault is taken again one level higher (R92, R328): a new fault of this instant, with the next FSEQ. -/
def State.retake (s : State) (f : SmpFault) (escT : Bool) : State :=
  let fseq := (s.smp.fseq + 1) % 2 ^ 32
  let s := { s with smp := { s.smp with fseq := fseq } }
  s.smpTakeAt { f.det with mts := s.mts } f.cfg (min 4 (f.level + 1)) fseq false escT (some f.fseq)

/-- REACTION_TIMER_EXPIRY (R328). With the device at L4 nothing escalates (R326), and the timer stops. -/
def execReactionTimerExpiry (c : Nat) (dry : Bool) (s : State) : Host.Outcome State Fault Refusal :=
  let x := s.smpCls c dry
  .next (if c < 8 ∧ s.due x.timer then
      if s.level = 4 then s.setSmpCls c dry { x with timer := none }
      else match x.lead with
      | some f => s.retake f true
      | none => s
    else s)

/-! ### Acknowledgement (R329) -/

/-- Keep of an episode the faults that `keep` says; with none left it ends and the timer stops. -/
def State.ackCls (s : State) (c : Nat) (dry : Bool) (keep : SmpFault → Bool) : State :=
  let x := s.smpCls c dry
  let un := x.un.filter keep
  s.setSmpCls c dry (if un = [] then SmpCls.reset else { x with un := un })

/-- Acknowledge the faults before an instant: the timer stops, and those of that instant start a new episode (R329, R331). -/
def State.ackBefore (s : State) (c : Nat) (dry : Bool) (now : Nat) : State :=
  s.setSmpCls c dry (match (s.smpCls c dry).un.filter (fun f => decide (now ≤ f.upAt)) with
    | [] => SmpCls.reset
    | f :: t =>
      let y : SmpCls := { un := f :: t, start := f.det.mts, timer := none }
      if y.level = 4 then y else { y with timer := some (f.upAt + s.smpTimer c) })

/-- WINDLASS_ACK (R329): a failed heartbeat acknowledges nothing. -/
def execWindlassAck (c : Nat) (s : State) : Host.Outcome State Fault Refusal :=
  let m := s.fg F.SMP_CLASS_CTL_WACK_MAX c
  .next (if 8 ≤ c ∨ s.fb F.SMP_STAT_HB_MISS 0 then s
    else ((s.ackCls c false (fun f => decide (m < f.level))).ackCls c true (fun f => decide (m < f.level))).showCls c)

def chkSmpAck (c : Cmd) (s : State) : Chk :=
  if c.a.testBit 8 ∧ s.fb F.SMP_CLASS_STAT_ACTIVE (c.a % 8) ∧ s.fg F.SMP_CLASS_STAT_LEVEL (c.a % 8) = 4 then (Sts.CMD_STATE, [])
  else Chk.ok

/-- SMP_ACK at its boundary: it covers the faults before it. -/
def applySmpAck (e : Entry) (s : State) : State :=
  let k := chkSmpAck e.cmd s
  if k.1 ≠ Sts.OK then s.finish e k.1 k.2 false
  else
    let c := e.cmd.a % 8
    let now := s.time.up
    let s := ((s.ackBefore c false now).ackBefore c true now).showCls c
    let s := if e.cmd.a.testBit 8 then ((s.fs F.SMP_CLASS_STAT_LEVEL c 0).fs F.SMP_CLASS_STAT_ACTIVE c 0).showPkg else s
    s.finish e Sts.OK [] false

def execSmpAck (c : Cmd) (s : State) : Host.Outcome State Fault Refusal := .next (submit Code.SMP_ACK chkSmpAck c s)

/-! ### Heartbeat and ALIVE (R332, R389) -/

/-- ALIVE holds its level. -/
def State.aliveHeld (s : State) : Bool := decide (3 ≤ s.level) || s.fb F.SMP_STAT_HB_MISS 0 || s.smp.hbHold

/-- WINDLASS_HEARTBEAT (R330): Windlass runs. -/
def execWindlassHeartbeat (s : State) : Host.Outcome State Fault Refusal :=
  .next (if s.pairHalted then s
    else { s.fs F.SMP_STAT_HB_MISS 0 0 with smp := { s.smp with hbAt := some s.time.up, hbHold := false } })

/-- HEARTBEAT_MISS (R332): no fault is raised while the debug port holds a pair (R389). -/
def execHeartbeatMiss (s : State) : Host.Outcome State Fault Refusal :=
  .next (if !s.fb F.SMP_STAT_HB_MISS 0 ∧ s.smp.hbAt.any (fun t => decide (t + msNs ≤ s.time.up)) then
      let s := (s.fs F.SMP_STAT_HB_MISS 0 1).fs F.SMP_STAT_ALIVE_RUN 0 0
      if s.pairHalted then s else s.det 0x24 0 0 0 0
    else s)

/-- ALIVE_TOGGLE (R332): a half period of 0.5 ms has passed. Once held, ALIVE resumes at a period boundary. -/
def execAliveToggle (s : State) : Host.Outcome State Fault Refusal :=
  .next (match s.smp.aliveAt with
    | none => s
    | some t =>
      if s.time.up < t then s
      else
        let s := { s with smp := { s.smp with aliveAt := some (t + 500000), aliveN := s.smp.aliveN + 1 } }
        if s.aliveHeld then s.fs F.SMP_STAT_ALIVE_RUN 0 0
        else if s.fb F.SMP_STAT_ALIVE_RUN 0 ∨ s.smp.aliveN % 2 = 0 then
          { s.fs F.SMP_STAT_ALIVE_RUN 0 1 with smp := { s.smp with alive := !s.smp.alive } }
        else s)

/-! ### Die sensors, supplies and clocks (R325, R330, R434, R440) -/

/-- The thresholds of family 0x60 in 0.1 °C, in order of KIND. -/
def dieThresholds : List Int := [1200, 1250, 1300]

/-- DIE_TEMPERATURE_THRESHOLD (R325): sensor i reads t in 0.1 °C. Each threshold reached is raised unless it has not re-armed
3 °C below itself. Sensors report from the start of Windlass firmware (R437). -/
def execDieTemperatureThreshold (i : Nat) (t : Int) (s : State) : Host.Outcome State Fault Refusal :=
  .next (if 12 ≤ i then s
    else
      let s := { s with smp := { s.smp with
        temps := mput 0 s.smp.temps i t, hotAt := if 1220 ≤ t then s.time.up else s.smp.hotAt } }
      if s.ret.boot < 2 then s
      else
        dieThresholds.zipIdx.foldl (fun s p =>
          let m := mget 0 s.smp.hot i
          let put := fun (s : State) b => { s with smp := { s.smp with hot := mput 0 s.smp.hot i (setBit m p.2 b) } }
          if p.1 ≤ t ∧ !m.testBit p.2 then (put s true).det 0x60 i 0 (p.2 + 1) t.toNat
          else if t ≤ p.1 - 30 ∧ m.testBit p.2 then put s false
          else s) s)

/-- THERMAL_CAP_LIFT (R330). -/
def execThermalCapLift (s : State) : Host.Outcome State Fault Refusal :=
  .next (if s.fb F.SMP_STAT_CAPPED 0 ∧ (List.range 12).all (fun i => decide (mget 0 s.smp.temps i < 1220))
        ∧ max s.smp.capAt s.smp.hotAt + 10 * secNs ≤ s.time.up then
      s.fs F.SMP_STAT_CAPPED 0 0
    else s)

/-- SUPPLY_UNDERVOLTAGE (R434): a rail of family 0x61 has been low for 1 µs. -/
def execSupplyUndervoltage (rail : Nat) (s : State) : Host.Outcome State Fault Refusal :=
  .next (if rail < 9 then s.det 0x61 rail 0 0 0 else s)

/-- XO_LOSS (R440): clock monitor 0. -/
def execXoLoss (s : State) : Host.Outcome State Fault Refusal := .next (s.det 0x62 0 0 0 0)

/-- PLL_CLOCK_LOSS (R325): clock monitors 1 - 3. -/
def execPllClockLoss (i : Nat) (s : State) : Host.Outcome State Fault Refusal :=
  .next (if 1 ≤ i ∧ i < 4 then s.det 0x62 i 0 0 0 else s)

/-- QUENCH_WINDOW_END (R333): the window of a cluster or a unit has ended. -/
def execQuenchWindowEnd (cluster : Bool) (n : Nat) (s : State) : Host.Outcome State Fault Refusal :=
  let v := mget 0 (if cluster then s.eng.quC else s.eng.quU) n
  .next (if v < 2 ∨ s.windowOpen v then s
    else if cluster then { s with eng := { s.eng with quC := mput 0 s.eng.quC n 0 } }
    else { s with eng := { s.eng with quU := mput 0 s.eng.quU n 0 } })

/-! ### Injection (R336, R337) -/

/-- KIND and DETAIL of an injected fault. -/
def injKind (fam tick : Nat) : Nat × Nat :=
  if fam = 0x13 then (0, Sts.PMP_BUS_ERROR) else if fam = 0x20 then (0, tick % 2 ^ 24)
  else if fam = 0x50 ∨ fam = 0x52 ∨ fam = 0x53 ∨ fam = 0x54 then (1, 0)
  else if fam = 0x60 then (2, 1250)
  else (0, 0)

/-- The detector reports as if its condition had occurred. An injected heartbeat miss holds ALIVE until the next heartbeat. -/
def State.inject (s : State) (fam inst subj : Nat) (dry : Bool) : State :=
  let k := injKind fam s.tickno
  let s := { s with detq := s.detq ++ [⟨fam, inst, subj, k.1, k.2, s.mts, true, dry, 0⟩] }
  if fam = 0x24 ∧ !dry then { s.fs F.SMP_STAT_ALIVE_RUN 0 0 with smp := { s.smp with hbHold := true } } else s

def injCheck (en : Bool) (fam inst subj : Nat) : Nat :=
  if !en then Sts.SMP_INJ_DENIED else if !detOk fam inst subj then Sts.SMP_RANGE else Sts.OK

def chkSmpInject (c : Cmd) (s : State) : Chk :=
  (injCheck (s.fb F.SMP_CTL_INJ_EN 0) (bits c.a 15 8) (bits c.a 7 0) (bits c.a 23 16), [])

def applySmpInject (e : Entry) (s : State) : State :=
  let k := chkSmpInject e.cmd s
  if k.1 ≠ Sts.OK then s.finish e k.1 k.2 false
  else
    let a := e.cmd.a
    let f := bits a 15 8
    let s := (s.fs F.SMP_FAM_INJ_INST f (bits a 7 0)).fs F.SMP_FAM_INJ_SUBJ f (bits a 23 16)
    (s.inject f (bits a 7 0) (bits a 23 16) (a.testBit 24)).finish e Sts.OK [] false

def execSmpInject (c : Cmd) (s : State) : Host.Outcome State Fault Refusal := .next (submit Code.SMP_INJECT chkSmpInject c s)

/-- A register field as SETUP reads it: the staged word where one was written (R265). -/
def State.stagedField (s : State) (f : Fld) (i : Nat) : Nat := f.get (mget (s.rr f.reg i) s.hif.staged (regKey f.reg i)).toNat

/-- A 1 written to INJ in SETUP acts at once (R336). -/
def State.injWrite (s : State) (f : Nat) (dry : Bool) : State :=
  let i := s.stagedField F.SMP_FAM_INJ_INST f
  let j := s.stagedField F.SMP_FAM_INJ_SUBJ f
  if injCheck (s.stagedField F.SMP_CTL_INJ_EN 0 == 1) f i j = Sts.OK then s.inject f i j dry else s

/-- INJ: SMP_FAM[f].INJ written in SETUP. In RUN the register is written through commands. -/
def execInj (f : Nat) (dry : Bool) (s : State) : Host.Outcome State Fault Refusal :=
  .next (if s.fb F.HIF_STAT_STATE 0 then s else s.injWrite f dry)

/-- A read of SMP_LOG0 (R335): the oldest entry leaves the log, its other words are latched. -/
def State.smpLogRead (s : State) : State :=
  match s.smp.log with
  | [] => s.rw .SMP_LOG0 0 0
  | e :: t =>
    let s := { s with smp := { s.smp with log := t } }
    (((s.rw .SMP_LOG0 0 (BitVec.ofNat 32 e.1)).rw .SMP_LOG1 0 (BitVec.ofNat 32 e.2.1)).rw .SMP_LOG2 0
      (BitVec.ofNat 32 e.2.2)).fs F.SMP_LOGSTAT_COUNT 0 t.length

/-- The words of an SMP_SET buffer: families in ascending code, then the classes. -/
def smpWord (c : Cmd) (i : Nat) : Nat := leAt c.buf (4 * i) 4

def smpFams : List Nat := faultFamilies.map (·.1)

def chkSmpSet (c : Cmd) (s : State) : Chk :=
  if c.len ≠ 160 then (Sts.CMD_RANGE, [])
  else if smpFams.zipIdx.any (fun p =>
      let l := F.SMP_FAM_LEVEL.get (smpWord c p.2)
      p.1 != 0x60 && (decide (l < s.fg F.SMP_FAM_MIN p.1) || decide (4 < l)))
    ∨ (List.range 8).any (fun i =>
      let w := smpWord c (32 + i)
      let t := F.SMP_CLASS_CTL_TIMER.get w
      t == 0 || decide (1000000 < t) || F.SMP_CLASS_CTL_WACK_MAX.get w == 3) then (Sts.SMP_RANGE, [])
  else Chk.ok

def applySmpSet (e : Entry) (s : State) : State :=
  let s := smpFams.zipIdx.foldl (fun s p =>
    if p.1 = 0x60 then s else s.fs F.SMP_FAM_LEVEL p.1 (F.SMP_FAM_LEVEL.get (smpWord e.cmd p.2))) s
  let s := (List.range 8).foldl (fun s i => s.imgWrite .SMP_CLASS_CTL i (smpWord e.cmd (32 + i))) s
  s.finish e Sts.OK [] true

def execSmpSet (c : Cmd) (s : State) : Host.Outcome State Fault Refusal := .next (submit Code.SMP_SET chkSmpSet c s)

end Sys2Proof.Machine
end

