-- ==== Sys2Proof/Machine/Clusters.lean ====
section
/-! DEFINITION. Cluster resets (R92): the command, and the assertion, release, reload and return of a reset. -/

namespace Sys2Proof.Machine

def State.clState (s : State) (c : Nat) : Nat := s.fg F.CL_STAT_STATE c

/-- CL_RESET (R92): refused while the cluster is in RESET or RELOAD. -/
def chkClReset (c : Cmd) (s : State) : Chk :=
  if 24 ≤ c.a then (Sts.CMD_RANGE, [])
  else s.pwrChk (decide (4 ≤ c.a))
    (if s.clState c.a = 2 ∨ s.clState c.a = 3 then (Sts.UNIT_FAILED, []) else Chk.ok)

/-- The reset begins at the boundary at which the command applies. -/
def applyClReset (e : Entry) (s : State) : State :=
  let k := chkClReset e.cmd s
  if k.1 ≠ Sts.OK then s.finish e k.1 k.2 false
  else (s.clusterReq e.cmd.a s.time.tick none).finish e Sts.OK [] false

def execClReset (c : Cmd) (s : State) : Host.Outcome State Fault Refusal := .next (submit Code.CL_RESET chkClReset c s)

/-- The entries of a collection whose keys do not satisfy `p`. -/
def dropKeys {α : Type} (p : Nat → Bool) (m : AMap α) : AMap α := m.filter (fun x => !p x.1)

/-- The matrix and the tile of cluster c fall silent. -/
def State.tileSilent (s : State) (c : Nat) : State :=
  let mine := fun (m : Nat) => m / 48 == c
  { s with aud := { s.aud with
      mo := dropKeys mine s.aud.mo, moS := dropKeys mine s.aud.moS, moZ := dropKeys mine s.aud.moZ,
      ab := dropKeys (fun i => mine (1024 + i)) s.aud.ab, acc := dropKeys (fun k => mine (k / 8)) s.aud.acc,
      grp := dropKeys (· == c) s.aud.grp, cyc := dropKeys (· == c) s.aud.cyc,
      xpRamp := dropKeys (fun k => k / 49152 == c) s.aud.xpRamp } }

/-- A unit's registers are reset and what its program writes is silent; a FAILED one stays so. A spare's outputs are those of
the program it serves; a FAILED unit that a spare serves goes on through it. -/
def State.unitReset (s : State) (u : Nat) : State :=
  let p := s.role u
  let s := s.setCore u UCore.reset
  let s := if s.ust u = 6 ∨ s.ust u = 7 then s else s.setUst u (if (s.progOf p).isSome then 1 else 0)
  if s.runner u ≠ u then s
  else
    let out : List Bind := ((s.progOf p).map (fun x => x.binds.filter (fun b => decide (4 ≤ b.kind)))).getD []
    let s : State := out.foldl (fun s b => s.deliver b.kind b.index Blk.zero) s
    if (s.progOf p).isSome then s.setUnit p { s.unit p with last := [], silent := true } else s

/-- The open merge entries of the cluster's Cistern port are written back at assertion (R313). -/
def State.cisternBack (s : State) (c : Nat) : State :=
  s.integ.merge.foldl (fun s p =>
    if p.1 % 256 = c ∧ p.1 / 256 % 8 = 3 ∧ p.1 / 2048 < 6 then p.2.foldl (fun s e => s.mergeBack p.1 e.word) s else s) s

/-- The state of a cluster that leaves reset. -/
def State.clRunState (s : State) (c : Nat) : Nat := if s.fb F.CL_CTL_EN c then 1 else 0

/-- CLUSTER_RESET_ASSERT (R92, R113, R333): at T_j of a reset asked for. -/
def execClusterResetAssert (x : ClusterCut) (s : State) : Host.Outcome State Fault Refusal :=
  let c := x.cluster
  .next (match mfind s.eng.clReq c with
    | none => s
    | some (t, fault) =>
      if 24 ≤ c ∨ s.time.tick < t then s
      else
        let s := (s.fs F.CL_STAT_STATE c 2).fadd F.CL_STAT_RESETS c 1
        let s := { s with eng := { s.eng with
          clReq := dropKeys (· == c) s.eng.clReq, clRst := mset false s.eng.clRst c ⟨s.time.tick, false, fault⟩,
          quC := mput 0 s.eng.quC c 1 } }
        (((List.range 8).foldl (fun s i => s.unitReset (8 * c + i)) ((s.tileSilent c).pmpReset c x.cut)).cisternBack c))

/-- CLUSTER_RESET_RELEASE (R92): at T_j + 1 tick. -/
def execClusterResetRelease (c : Nat) (s : State) : Host.Outcome State Fault Refusal :=
  .next (match mfind s.eng.clRst c with
    | none => s
    | some x => if s.clState c = 2 ∧ x.tick + 1 ≤ s.time.tick then s.fs F.CL_STAT_STATE c 3 else s)

/-- Load the image a unit runs from LPDDR (R89). -/
def State.reloadUnit (s : State) (u : Nat) : State :=
  match s.progOf (s.role u) with
  | some p => if s.ust u = 6 then s else (s.writeUnit u p).showProg u (some p)
  | none => s

/-- CLUSTER_RELOAD_COMPLETE (R92): the Pump restarts; a reload that failed leaves the cluster FAILED and its fault is taken one
level higher. -/
def execClusterReloadComplete (c : Nat) (ok : Bool) (s : State) : Host.Outcome State Fault Refusal :=
  .next (match mfind s.eng.clRst c with
    | none => s
    | some x =>
      if s.clState c ≠ 3 ∨ x.loaded then s
      else if ok then
        let s := (List.range 8).foldl (fun s i => s.reloadUnit (8 * c + i)) s
        let s := { s with eng := { s.eng with clRst := mset false s.eng.clRst c { x with loaded := true } } }
        s.pmpRestart c
      else
        let s := s.fs F.CL_STAT_STATE c 4
        let f := mfind s.smp.clF c
        let s := { s with
          eng := { s.eng with clRst := dropKeys (· == c) s.eng.clRst, quC := mput 0 s.eng.quC c (s.time.up + 2000 + 2) },
          smp := { s.smp with clF := dropKeys (· == c) s.smp.clF } }
        match f, x.fault with
        | some g, some _ => if s.level = 4 then s else s.retake g false
        | _, _ => s)

/-- CLUSTER_RETURN (R92): at T_j + 11 ticks the outputs are present again. -/
def execClusterReturn (c : Nat) (s : State) : Host.Outcome State Fault Refusal :=
  .next (match mfind s.eng.clRst c with
    | none => s
    | some x =>
      if s.clState c ≠ 3 ∨ !x.loaded ∨ s.time.tick < x.tick + 11 then s
      else
        let s := s.fs F.CL_STAT_STATE c (s.clRunState c)
        { s with
          eng := { s.eng with clRst := dropKeys (· == c) s.eng.clRst, quC := mput 0 s.eng.quC c (s.time.up + 2000 + 2) },
          smp := { s.smp with clF := dropKeys (· == c) s.smp.clF } })

/-- CL_CTL.EN has been written: a cluster switched off is OFF, one switched on starts with a reset and reload. -/
def State.clEnable (s : State) (c : Nat) (was : Bool) : State :=
  let is := s.fb F.CL_CTL_EN c
  if was && !is then
    (if s.clState c = 1 then (((List.range 8).foldl (fun s i => s.unitReset (8 * c + i)) (s.tileSilent c)).pmpReset c []).fs
      F.CL_STAT_STATE c 0 else s)
  else if (!was && is) ∧ s.clState c = 0 then s.clusterReq c s.time.tick none
  else s

/-- CL_STAT of the clusters that start to run (R363). -/
def State.clStart (s : State) (l : List Nat) : State :=
  l.foldl (fun s c => if s.clState c = 0 ∧ s.fb F.CL_CTL_EN c then s.fs F.CL_STAT_STATE c 1 else s) s

end Sys2Proof.Machine
end

