-- ==== Sys2Proof/Machine/Crypto.lean ====
section
/-! DEFINITION. The digest and the signature check that images and debug sessions use (R396, R397, R391). The spec names SHA-384
and ECDSA on P-384 and leaves them to their standards (FIPS 180-4, FIPS 186-5): PRESUMED, assumption 31. -/

namespace Sys2Proof.Machine

/-! ### SHA-384 -/

/-- The largest root with `n` further binary places: `r` plus what of 2ⁿ⁻¹ … 1 keeps its power `e` within `x`. -/
def rootBits (e x : Nat) : Nat → Nat → Nat
  | 0, r => r
  | n + 1, r => rootBits e x n (if (r + 2 ^ n) ^ e ≤ x then r + 2 ^ n else r)

/-- The first 64 bits of the fraction of the `e`-th root of `p`. -/
def rootFrac (e p : Nat) : BitVec 64 := BitVec.ofNat 64 (rootBits e (p * 2 ^ (64 * e)) 70 0)

/-- The first 80 primes: every composite below 410 has a divisor from 2 to 20. -/
def shaPrimes : List Nat := (List.range 410).filter (fun n => (List.range 21).all (fun d => d == n || n % d != 0 || d == 1) && n != 1)

/-- The round constants: the cube roots of the first 80 primes. -/
def shaK : List (BitVec 64) := shaPrimes.map (rootFrac 3)

/-- The initial hash value: the square roots of the ninth to sixteenth primes. -/
def shaInit : List (BitVec 64) := ((shaPrimes.drop 8).take 8).map (rootFrac 2)

/-- A word mixed with itself: the exclusive or of its rotations. -/
def shaMix (rot : List Nat) (x : BitVec 64) : BitVec 64 := rot.foldl (fun t n => t ^^^ x.rotateRight n) 0

/-- Bit by bit, `f` where `e` is 1 and `g` where it is 0. -/
def shaPick (e f g : BitVec 64) : BitVec 64 := g ^^^ (e &&& (f ^^^ g))

/-- Bit by bit, what most of the three are. -/
def shaMost (a b c : BitVec 64) : BitVec 64 := (a &&& b) ||| (c &&& (a ||| b))

/-- The big-endian number that bytes spell. -/
def beVal (l : List Byte) : Nat := leVal l.reverse

/-- The padded message. -/
def shaPad (m : List Byte) : List Byte :=
  let z := (239 - m.length % 128) % 128
  m ++ [0x80] ++ List.replicate z 0 ++ (leBytes 16 (8 * m.length)).reverse

/-- The message schedule, newest word first: `n` further words. -/
def shaSched : Nat → List (BitVec 64) → List (BitVec 64)
  | 0, w => w
  | n + 1, w =>
    let x := fun i => w.getD i 0
    shaSched n ((x 15 + (shaMix [1, 8] (x 14) ^^^ x 14 >>> 7) + x 6 + (shaMix [19, 61] (x 1) ^^^ x 1 >>> 6)) :: w)

/-- One round on the eight working variables, for the sum of its constant and its word. -/
def shaRound (v : List (BitVec 64)) (kw : BitVec 64) : List (BitVec 64) :=
  let x := fun i => v.getD i 0
  let t := kw + x 7 + shaMix [14, 18, 41] (x 4) + shaPick (x 4) (x 5) (x 6)
  (t + shaMix [28, 34, 39] (x 0) + shaMost (x 0) (x 1) (x 2)) :: v.take 3 ++ (x 3 + t) :: (v.drop 4).take 3

/-- One block of 128 bytes. -/
def shaBlock (h : List (BitVec 64)) (b : List Byte) : List (BitVec 64) :=
  let w := (List.range 16).map (fun i => BitVec.ofNat 64 (beVal ((b.drop (8 * i)).take 8)))
  List.zipWith (· + ·) h ((List.zipWith (· + ·) shaK (shaSched 64 w.reverse).reverse).foldl shaRound h)

/-- The blocks of a padded message, `n` of them. -/
def shaBlocks : Nat → List (BitVec 64) → List Byte → List (BitVec 64)
  | 0, h, _ => h
  | n + 1, h, m => shaBlocks n (shaBlock h (m.take 128)) (m.drop 128)

/-- The SHA-384 digest of a byte string, its first byte the most significant. -/
def sha384 (m : List Byte) : BitVec 384 :=
  let p := shaPad m
  let h := (shaBlocks (p.length / 128) shaInit p).take 6
  BitVec.ofNat 384 (h.foldl (fun a w => a * 2 ^ 64 + w.toNat) 0)

/-! ### ECDSA on P-384 -/

def p384 : Nat := 2 ^ 384 - 2 ^ 128 - 2 ^ 96 + 2 ^ 32 - 1
def p384b : Nat :=
  0xb3312fa7e23ee7e4988e056be3f82d19181d9c6efe8141120314088f5013875ac656398d8a2ed19d2a85c8edd3ec2aef
def p384n : Nat :=
  0xffffffffffffffffffffffffffffffffffffffffffffffffc7634d81f4372ddf581a0db248b0a77aecec196accc52973
def p384G : Nat × Nat :=
  (0xaa87ca22be8b05378eb1c71ef320ad746e1d3b628ba79b9859f741e082542a385502f25dbf55296c3a545e3872760ab7,
   0x3617de4a96262c6f5d9e98bf9292dc29f8f41dbd289a147ce9da3113b5f0b8c00a60b1ce1d7e819d7a431d7c90ea0e5f)

/-- a to the power of the low `n` bits of k, modulo m. -/
def powMod (m : Nat) : Nat → Nat → Nat → Nat
  | 0, _, _ => 1 % m
  | n + 1, a, k => (if k % 2 = 1 then a else 1) * powMod m n (a * a % m) (k / 2) % m

/-- The inverse modulo a prime below 2³⁸⁴. -/
def invMod (m a : Nat) : Nat := powMod m 384 (a % m) (m - 2)

/-- The sum of two points of the curve; none is the point at infinity. -/
def ecAdd (a b : Option (Nat × Nat)) : Option (Nat × Nat) :=
  match a, b with
  | none, q => q
  | q, none => q
  | some (x1, y1), some (x2, y2) =>
    if x1 = x2 ∧ (y1 + y2) % p384 = 0 then none
    else
      let l := if x1 = x2 then (3 * x1 * x1 + (p384 - 3)) * invMod p384 (2 * y1) % p384
        else (y2 + (p384 - y1)) * invMod p384 (x2 + (p384 - x1)) % p384
      let x := (l * l + (p384 - x1) + (p384 - x2)) % p384
      some (x, (l * (x1 + (p384 - x)) + (p384 - y1)) % p384)

/-- A multiple of a point by the low `n` bits of k. -/
def ecMul : Nat → Nat → Option (Nat × Nat) → Option (Nat × Nat)
  | 0, _, _ => none
  | n + 1, k, q =>
    let r := ecMul n (k / 2) (ecAdd q q)
    if k % 2 = 1 then ecAdd q r else r

/-- Whether a point lies on the curve. -/
def onCurve (x y : Nat) : Bool :=
  decide (x < p384) && decide (y < p384) && y * y % p384 == (x * x % p384 * x + (p384 - 3) * x + p384b) % p384

/-- Whether a signature r ‖ s over a digest verifies under a key x ‖ y, each number of 48 bytes, most significant first. -/
def ecdsaP384 (key : List Byte) (digest : BitVec 384) (sig : List Byte) : Bool :=
  let x := beVal (key.take 48)
  let y := beVal ((key.drop 48).take 48)
  let r := beVal (sig.take 48)
  let s := beVal ((sig.drop 48).take 48)
  if r = 0 ∨ p384n ≤ r ∨ s = 0 ∨ p384n ≤ s ∨ !onCurve x y then false
  else
    let w := invMod p384n s
    match ecAdd (ecMul 384 (digest.toNat * w % p384n) (some p384G)) (ecMul 384 (r * w % p384n) (some (x, y))) with
    | some (v, _) => v % p384n == r
    | none => false

end Sys2Proof.Machine
end

