-- ==== Sys2Proof/Machine/Firmware.lean ====
section
/-! DEFINITION. Firmware images and banks (R396 - R403, R405): their verification, the commands that load and choose them, and
the recovery window. -/

namespace Sys2Proof.Machine

/-! ### Banks and the bank select record (R398) -/

def State.fwBank (s : State) (b : Nat) : AMap Byte := if b = 0 then s.sec.bankA else s.sec.bankB
def State.setFwBank (s : State) (b : Nat) (m : AMap Byte) : State :=
  if b = 0 then { s with sec := { s.sec with bankA := m } } else { s with sec := { s.sec with bankB := m } }

/-- `n` bytes of a bank from offset `o`; erased NOR reads 0xFF. -/
def State.fwRead (s : State) (b o n : Nat) : List Byte :=
  let m := s.fwBank b
  (List.range n).map (fun i => mget (255 : Byte) m (o + i))

/-- Bank states: 0 EMPTY, 1 LOADING, 2 VERIFIED, 3 COMMITTED, 4 VALID, 5 REJECTED, 6 REJECTED-SETTINGS. -/
def State.fwState (s : State) (b : Nat) : Nat := if b = 0 then s.fg F.SEC_FW_STAT_STATE_A 0 else s.fg F.SEC_FW_STAT_STATE_B 0

/-- A record of the bank select block is written (R398). -/
def State.bankRecord (s : State) (c : SecSt) : State := { s with sec := { c with recOk := true, recSeq := c.recSeq + 1 } }

def State.setFwState (s : State) (b st : Nat) : State :=
  let s := s.bankRecord s.sec
  if b = 0 then s.fs F.SEC_FW_STAT_STATE_A 0 st else s.fs F.SEC_FW_STAT_STATE_B 0 st

/-- VERSION of the image in a bank: 0 when EMPTY or LOADING. -/
def State.showFwVer (s : State) (b : Nat) : State :=
  s.fs F.SEC_FW_VER_VERSION b (if s.fwState b ≤ 1 then 0 else leVal (s.fwRead b 0x10 4))

def State.fwMode (s : State) : Nat := s.fg F.SEC_FW_STAT_MODE 0
def State.fwRunning (s : State) : Nat := s.fg F.SEC_FW_STAT_RUNNING 0

/-- Whether a bank holds the image that runs. -/
def State.fwRuns (s : State) (b : Nat) : Bool := decide (1 ≤ s.ret.boot) && s.fwMode != 3 && s.fwRunning == b

/-! ### Verification (R397) -/

/-- The 384-bit digest as bytes. -/
def digestBytes (d : BitVec 384) : List Byte := (List.range 48).map (fun i => BitVec.ofNat 8 (d.toNat / 2 ^ (8 * (47 - i))))

/-- The 48 bytes of a key-hash fuse group (R384). -/
def State.keyHash (s : State) (group : Nat) : List Byte :=
  (List.range 12).flatMap (fun i => leBytes 4 (mget 0 s.sec.fuse (16 * group + i)))

def allZero (l : List Byte) : Bool := l.all (· == 0)

/-- MAGIC, FORMAT, reserved fields and lengths of a header. -/
def fwHeadOk (h : List Byte) (keyed : Bool) : Bool :=
  let part := fun o n => (h.drop o).take n
  let body := leAt h 0x30 4
  h.take 4 == [0x4E, 0x5A, 0x46, 0x57] && leAt h 4 2 == 1 && decide (leAt h 6 2 < 4) && allZero (part 0x15 3)
    && allZero (part 0x24 12) && allZero (part 0x3C 4) && allZero (part 0x70 144) && allZero (part 0x1C0 64)
    && decide (leAt h 0x14 1 ≤ 64) && ((leAt h 6 2).testBit 0 || allZero (part 0x18 12))
    && decide (body ≤ 8388096) && decide (leAt h 0x34 4 ≤ 262144) && decide (leAt h 0x38 4 ≤ 262144)
    && decide (leAt h 0x34 4 + leAt h 0x38 4 ≤ body) && (keyed || (allZero (part 0x100 96) && allZero (part 0x160 96)))

/-- The digest of an image's body as computed. -/
def State.fwDigest (s : State) (b : Nat) : Nat := (sha384 (s.fwRead b 512 (leVal (s.fwRead b 0x30 4)))).toNat

/-- R397 over bank b: the status of the first check that fails, OK with none. -/
def State.fwVerify (s : State) (b : Nat) : Nat :=
  let h := s.fwRead b 0 512
  let keyed := s.fb F.SEC_STATE_FW_KEY 0
  let pub := (h.drop 0x160).take 96
  if !fwHeadOk h keyed then Sts.FW_SIGNATURE
  else if leAt h 8 4 ≠ s.fg F.SEC_HWTYPE_HWTYPE 0 ∨ ((leAt h 6 2).testBit 0 ∧ (h.drop 0x18).take 12 ≠ s.uidBytes)
      ∨ leAt h 0x14 1 < s.fg F.SEC_STATE_SVN 0 then Sts.FW_BINDING
  else if keyed ∧ (digestBytes (sha384 pub) ≠ s.keyHash 0
      ∨ !ecdsaP384 pub (sha384 (h.take 256)) ((h.drop 0x100).take 96)) then Sts.FW_SIGNATURE
  else if s.fwDigest b ≠ beAt h 0x40 48 then Sts.FW_SIGNATURE
  else Sts.OK

/-- SCHEMA and IMPORT_MIN of the image in a bank. -/
def State.fwSchema (s : State) (b : Nat) : Nat := leVal (s.fwRead b 0xC 2)
def State.fwImport (s : State) (b : Nat) : Nat := leVal (s.fwRead b 0xE 2)

/-! ### FW_BLOCK (R399) -/

/-- A bank whose contents may not change. -/
def State.fwLocked (s : State) (b : Nat) : Bool :=
  s.fwRuns b || s.fwState b == 3 || (s.sec.nxtMode != 0 && s.sec.nxt == b)
    || s.sec.work.any (fun e => (e.code == Code.FW_VERIFY || e.code == Code.FW_ACTIVATE) && e.cmd.a == b)

/-- The refusals of a block. -/
def State.blockChk (s : State) (b o crc : Nat) (data : List Byte) : Nat :=
  if crc32c data ≠ crc then Sts.FW_CRC
  else if o % 4096 ≠ 0 ∨ 0x800000 < o + data.length then Sts.FW_OFFSET
  else if s.fwLocked b then Sts.FW_STATE
  else Sts.OK

/-- Erase and program a block; a read-back failure leaves QSPI_ERR. -/
def State.blockWrite (s : State) (b o : Nat) (data : List Byte) (ok : Bool) : Nat × State :=
  if !ok then (Sts.FW_CRC, s.fs F.RW_STAT_QSPI_ERR 0 1)
  else
    let s := if s.fwState b = 1 then s else s.setFwState b 1
    let m := (s.fwBank b).filter (fun p => !(decide (o ≤ p.1) && decide (p.1 < o + 4096)))
    let m := data.zipIdx.foldl (fun m p => mput (255 : Byte) m (o + p.2) p.1) m
    (Sts.OK, (s.setFwBank b m).showFwVer b)

def chkFwBlock (c : Cmd) (s : State) : Chk :=
  if 1 < c.a ∨ c.len = 0 ∨ 4096 < c.len then (Sts.CMD_RANGE, []) else (s.blockChk c.a c.b c.i0 (c.buf.take c.len), [])

/-- `ok` of the command is the read-back of the block. -/
def applyFwBlock (e : Entry) (s : State) : State :=
  let k := chkFwBlock e.cmd s
  if k.1 ≠ Sts.OK then s.finish e k.1 k.2 false
  else
    let r := s.blockWrite e.cmd.a e.cmd.b (e.cmd.buf.take e.cmd.len) e.cmd.ok
    r.2.finish e r.1 [] false

def execFwBlock (c : Cmd) (s : State) : Host.Outcome State Fault Refusal := .next (submit Code.FW_BLOCK chkFwBlock c s)

/-! ### FW_VERIFY, FW_ACTIVATE (R400, R401) -/

/-- A command whose work begins at its boundary. -/
def State.fwStart (s : State) (e : Entry) : State := { s with sec := { s.sec with work := s.sec.work ++ [e] } }

/-- The work of a code on a bank that is under way, taken off the list. -/
def State.fwTake (s : State) (code b : Nat) : Option Entry × State :=
  match s.sec.work.find? (fun e => e.code == code && e.cmd.a == b) with
  | some e => (some e, { s with sec := { s.sec with work := s.sec.work.erase e } })
  | none => (none, s)

def chkFwVerify (c : Cmd) (_ : State) : Chk := if 1 < c.a then (Sts.CMD_RANGE, []) else Chk.ok

def applyFwVerify (e : Entry) (s : State) : State := s.fwStart e

def execFwVerify (c : Cmd) (s : State) : Host.Outcome State Fault Refusal := .next (submit Code.FW_VERIFY chkFwVerify c s)

/-- The settings copy in force (R372). -/
def State.curCopy (s : State) : Copy := if s.fg F.RW_STAT_COPY 0 = 0 then s.ret.copy0 else s.ret.copy1

/-- The verdict of FW_VERIFY; `schema` says whether the settings schema is checked. -/
def State.fwJudge (s : State) (b : Nat) (schema : Bool) : Nat :=
  let k := s.fwVerify b
  if k ≠ Sts.OK then k
  else if schema ∧ s.curCopy.valid ∧ (s.curCopy.schema < s.fwImport b ∨ s.fwSchema b < s.curCopy.schema) then Sts.FW_SCHEMA
  else Sts.OK

/-- A bank that has passed: LOADING, REJECTED and REJECTED-SETTINGS become VERIFIED. -/
def State.fwPassed (s : State) (b : Nat) : State :=
  let st := s.fwState b
  if st = 1 ∨ st = 5 ∨ st = 6 then (s.setFwState b 2).showFwVer b else s

/-- FW_VERIFY_COMPLETE (R400). -/
def execFwVerifyComplete (b : Nat) (s : State) : Host.Outcome State Fault Refusal :=
  .next (match s.fwTake Code.FW_VERIFY b with
    | (some e, s) =>
      let k := s.fwJudge b true
      (if k = Sts.OK then s.fwPassed b else s).finish e k [] false
    | (none, s) => s)

/-- The states FW_ACTIVATE accepts: VERIFIED or VALID, and the running committed bank, which clears NEXT. -/
def State.activateChk (s : State) (b : Nat) : Nat :=
  if s.fwMode = 1 then Sts.FW_STATE
  else if s.fwState b = 2 ∨ s.fwState b = 4 ∨ (s.fwState b = 3 ∧ s.fwRuns b) then Sts.OK
  else Sts.FW_STATE

def chkFwActivate (c : Cmd) (s : State) : Chk :=
  if 1 < c.a then (Sts.CMD_RANGE, []) else (s.activateChk c.a, [])

def applyFwActivate (e : Entry) (s : State) : State :=
  let k := chkFwActivate e.cmd s
  if k.1 ≠ Sts.OK then s.finish e k.1 k.2 false else s.fwStart e

def execFwActivate (c : Cmd) (s : State) : Host.Outcome State Fault Refusal := .next (submit Code.FW_ACTIVATE chkFwActivate c s)

/-- Write NEXT after the second verification. -/
def State.activate (s : State) (b : Nat) (trial : Bool) : Nat × State :=
  if s.fwState b = 3 then (Sts.OK, s.bankRecord { s.sec with nxtMode := 0 })
  else
    let k := s.fwVerify b
    if k ≠ Sts.OK then (k, s)
    else (Sts.OK, s.bankRecord { s.sec with nxt := b, nxtMode := if trial then 1 else 2 })

/-- FW_ACTIVATE_COMPLETE (R401). -/
def execFwActivateComplete (b : Nat) (s : State) : Host.Outcome State Fault Refusal :=
  .next (match s.fwTake Code.FW_ACTIVATE b with
    | (some e, s) =>
      let r := s.activate b (e.cmd.c.testBit 0)
      r.2.finish e r.1 [] false
    | (none, s) => s)

/-! ### Compaction and FW_COMMIT (R372, R374, R403) -/

/-- The pending record that the log takes next: records reach QSPI in ascending GEN without a gap (R371). -/
def State.nextRecord (s : State) : Option LogRec := s.ret.pend.find? (fun r => r.gen == nextGen (s.fg F.RW_DURABLE_GEN 0))

/-- Bytes of a copy's log, and RW_LOG.USED. -/
def Copy.used (c : Copy) : Nat := (c.log.map LogRec.padded).foldl (· + ·) 0
def logBytes : Nat := 6225920
def State.showLog (s : State) : State := s.fs F.RW_LOG_USED 0 (min 100 (s.curCopy.used * 100 / logBytes))

def State.setCopy (s : State) (n : Nat) (c : Copy) : State :=
  if n = 0 then { s with ret := { s.ret with copy0 := c } } else { s with ret := { s.ret with copy1 := c } }

/-- The state a copy describes. -/
def Copy.state (c : Copy) : Retained := c.log.foldl (fun m r => retApply m r.items) c.snap

/-- A record is durable: it leaves the pending records. -/
def State.tookRecord (s : State) (r : LogRec) : State :=
  ({ s.fs F.RW_DURABLE_GEN 0 r.gen with ret := { s.ret with
      pend := s.ret.pend.filter (fun x => x.gen != r.gen), ring := s.ret.ring.filter (fun g => g != r.gen),
      lastDur := s.time.up, sramDur := r.gen } } : State).showPending

/-- The pending records that follow the durable ones without a gap. -/
def State.takeRun (s : State) : Nat → List LogRec → List LogRec × State
  | 0, l => (l, s)
  | n + 1, l =>
    match s.nextRecord with
    | some r => (s.tookRecord r).takeRun n (l ++ [r])
    | none => (l, s)

/-- Make the other copy, with a snapshot, the current one (R372). -/
def State.newCopy (s : State) (schema gen : Nat) (snap : Retained) (log : List LogRec) : State :=
  let n := s.fg F.RW_STAT_COPY 0
  let c : Copy := ⟨true, schema, (s.curCopy.seq + 1) % 2 ^ 32, gen, snap, log⟩
  let s := ((s.setCopy (1 - n) c).setCopy n Copy.empty).fs F.RW_STAT_COPY 0 (1 - n)
  (s.fs F.RW_SCHEMA_SCHEMA 0 schema).showLog

/-- The schema the running image writes. -/
def State.runSchema (s : State) : Nat := s.fwSchema s.fwRunning

/-- FW_COMMIT (R403): the running bank in trial. -/
def chkFwCommit (c : Cmd) (s : State) : Chk :=
  if 1 < c.a then (Sts.CMD_RANGE, [])
  else if s.fwMode ≠ 1 ∨ !s.fwRuns c.a ∨ s.sec.work.any (fun e => e.code == Code.FW_COMMIT) then (Sts.FW_STATE, [])
  else Chk.ok

def applyFwCommit (e : Entry) (s : State) : State :=
  let k := chkFwCommit e.cmd s
  if k.1 ≠ Sts.OK then s.finish e k.1 k.2 false else s.fwStart e

def execFwCommit (c : Cmd) (s : State) : Host.Outcome State Fault Refusal := .next (submit Code.FW_COMMIT chkFwCommit c s)

/-- The commit: a snapshot in the new schema, the bank record, and the SVN fuses where the image asks for them. Records that were
pending when the trial started have been replayed, and go into the snapshot first. -/
def State.commitBank (s : State) (b : Nat) : State :=
  let pre := s.ret.pend.filter (fun r => s.ret.preTrial.contains r.gen)
  let old := pre.foldl (fun m r => retApply m r.items) s.curCopy.state
  let s := { s with ret := { s.ret with
    pend := s.ret.pend.filter (fun r => !s.ret.preTrial.contains r.gen), preTrial := [] } }
  let (l, s) := s.takeRun s.ret.pend.length []
  let s := s.newCopy s.runSchema (s.fg F.RW_DURABLE_GEN 0) (l.foldl (fun m r => retApply m r.items) old) []
  let s := if s.fwState (1 - b) = 3 then s.setFwState (1 - b) 4 else s
  let s := (s.setFwState b 3).fs F.SEC_FW_STAT_MODE 0 0
  let s := s.bankRecord { s.sec with boot := b }
  let svn := leVal (s.fwRead b 0x14 1)
  if (leVal (s.fwRead b 6 2)).testBit 1 ∧ s.fg F.SEC_STATE_SVN 0 < svn then s.fs F.SEC_STATE_SVN 0 svn else s

/-- FW_COMMIT_COMPLETE (R403): snapshot and record are durable. -/
def execFwCommitComplete (s : State) : Host.Outcome State Fault Refusal :=
  .next (match s.sec.work.find? (fun e => e.code == Code.FW_COMMIT) with
    | some e =>
      let s := { s with sec := { s.sec with work := s.sec.work.erase e } }
      (s.commitBank s.fwRunning).finish e Sts.OK [] false
    | none => s)

/-! ### The recovery window (R405) -/

/-- A RECOVERY operation starts: the other fields of the word take their values, BUSY reads 1. -/
def State.rcvGo (s : State) (w op : Nat) : State :=
  if s.fwMode ≠ 3 ∨ s.fb F.SEC_RCV_STAT_BUSY 0 ∨ F.SEC_RCV_CTL_OP.get w ≠ op then s
  else
    let s := s.imgWrite .SEC_RCV_CTL 0 w
    if w.testBit 31 then { s.fs F.SEC_RCV_STAT_BUSY 0 1 with sec := { s.sec with rcv := op } } else s

/-- RECOVERY_BLOCK: SEC_RCV_CTL written with `w`, OP 1. -/
def execRecoveryBlock (w : Nat) (s : State) : Host.Outcome State Fault Refusal := .next (s.rcvGo w 1)

/-- RECOVERY_VERIFY: OP 2. -/
def execRecoveryVerify (w : Nat) (s : State) : Host.Outcome State Fault Refusal := .next (s.rcvGo w 2)

/-- RECOVERY_ACTIVATE: OP 3. -/
def execRecoveryActivate (w : Nat) (s : State) : Host.Outcome State Fault Refusal := .next (s.rcvGo w 3)

/-- RECOVERY_OP_COMPLETE (R405): the operation ends with the status of the matching command. `ok` is a block's read-back. -/
def execRecoveryOpComplete (ok : Bool) (s : State) : Host.Outcome State Fault Refusal :=
  .next (if !s.fb F.SEC_RCV_STAT_BUSY 0 then s
    else
      let b := s.fg F.SEC_RCV_CTL_BANK 0
      let n := s.fg F.SEC_RCV_CTL_LEN 0 + 1
      let o := 4096 * s.fg F.SEC_RCV_CTL_PAGE 0
      let data := ((List.range ((n + 3) / 4)).flatMap (fun i => leBytes 4 (s.fg F.SEC_RCV_BUF_DATA i))).take n
      let (k, s) := match s.sec.rcv with
        | 1 =>
          let k := s.blockChk b o (s.fg F.SEC_RCV_CRC_CRC 0) data
          if k ≠ Sts.OK then (k, s) else s.blockWrite b o data ok
        | 2 =>
          let k := s.fwJudge b false
          (k, if k = Sts.OK then s.fwPassed b else s)
        | _ =>
          let k := s.activateChk b
          if k ≠ Sts.OK then (k, s) else s.activate b false
      let s := (s.fs F.SEC_RCV_STAT_BUSY 0 0).fs F.SEC_RCV_STAT_STATUS 0 k
      { s with sec := { s.sec with rcv := 0 } })

end Sys2Proof.Machine
end

