-- ==== Sys2Proof/Machine/Regs.lean ====
section
/-! DEFINITION. Register accesses (R9, R264 - R267, R421 - R426, R449): writes from the host, from Windlass and from REG_SET,
the staging image and GO, and the reads that change state. -/

namespace Sys2Proof.Machine

/-! ### A write that takes effect -/

/-- The mask of the RW and RWS fields whose value in `w` lies in its range. -/
def okMask (r : RegId) (w : Nat) : Nat :=
  (regFields r).foldl (fun m d => if (d.acc == .rw || d.acc == .rws) && fieldOk d w then m ||| (d.fld.put 0 (2 ^ 32 - 1)) else m) 0

/-- What a read of a register returns for its RW and RWS fields (R9): the shadow for RWS. -/
def State.inForce (s : State) (r : RegId) (i : Nat) : Word := maskPut (s.rr r i) (s.shw r i) (rwsMask r)

/-- `w` with every field out of range replaced by its present value. -/
def State.merged (s : State) (r : RegId) (i w : Nat) : Nat :=
  (maskPut (s.inForce r i) (BitVec.ofNat 32 w) (okMask r w)).toNat

/-- Whether a register is of the Wellhead or Media Time (their out-of-range writes set WH_STATUS.CFG_ERR). -/
def whReg (r : RegId) : Bool :=
  r ∈ [RegId.MT_CTL, .MT_SLEW_MAX, .WH_CTL, .WH_BW, .WH_LOCK, .WH_TIMERS, .WH_DRIFT, .WH_SLOT_CFG, .WH_QL_MAP, .WH_CLKOUT]

/-- W and the tile check with another deadline (R144, R70). -/
def State.deadlineOk (s : State) (w : Nat) : Bool :=
  let t := s.rw .UNIT_TICK_DEADLINE 0 (BitVec.ofNat 32 w)
  s.eng.units.all (fun p => (p.2.prog.toList ++ (p.2.load.map (·.prog)).toList).all (fun x => decide (x.local_ ≤ t.budgetW)))
    && t.tilesFit t.aud.mapAct t.mixCtl none

/-- Whether another hub channel already holds the completion line (R302). -/
def State.lineTaken (s : State) (n cl sel : Nat) : Bool :=
  cl != 31 && (List.range 64).any (fun k =>
    k + 384 != n && s.fg F.PMP_CH_RING_CFG_EVT_CL (k + 384) == cl && s.fg F.PMP_CH_RING_CFG_EVT_SEL (k + 384) == sel)

/-- Whether a loaded Class S image names channel n (R306). -/
def State.classSNamed (s : State) (n : Nat) : Bool :=
  decide (n < 384) && s.eng.units.any (fun p =>
    p.1 / 8 == n / 16 && p.2.prog.any (fun x => x.cls == 2 && x.stateCh.testBit (n % 16)))

/-- Whether a RING_CFG word names a completion line a channel may not take (R302): that of another hub channel, or no
cluster's. -/
def State.lineBad (s : State) (n w : Nat) : Bool :=
  let cl := F.PMP_CH_RING_CFG_EVT_CL.get w
  decide (384 ≤ n) && ((decide (24 ≤ cl) && cl != 31) || s.lineTaken n cl (F.PMP_CH_RING_CFG_EVT_SEL.get w))

/-- Whether a RING_CFG word puts a ring into host memory that may not lie there (R291, R306). -/
def State.hostBad (s : State) (n w : Nat) : Bool :=
  F.PMP_CH_RING_CFG_HOST.get w == 1 && (decide (n < 384) || s.fg F.PMP_CH_CTL_CLASS n == 2)

/-- The rules of a register beyond the ranges of its fields, for the word it would hold (R286): the status a REG_SET is refused
with. -/
def State.regRule (s : State) (r : RegId) (i w : Nat) : Nat :=
  match r with
  | .WH_DRIFT => if 10 * F.WH_DRIFT_HARD.get w ≤ F.WH_DRIFT_SOFT.get w then Sts.CMD_RANGE else Sts.OK
  | .RG_SPARE =>
    let st := s.fg F.RG_SPARE_STAT_STATE i
    let moved := decide (w % 2 ^ 32 ≠ (s.rr .RG_SPARE i).toNat)
    if moved ∧ (st = 1 ∨ st = 2) then Sts.SPARE_CONFLICT
    else if F.RG_SPARE_EN.get w = 1 ∧ (let x := s.unit (32 * i + F.RG_SPARE_SPARE_SEL.get w); x.prog.isSome ∨ x.load.isSome) then
      Sts.SPARE_CONFLICT
    else Sts.OK
  | .UNIT_TICK_DEADLINE => if s.deadlineOk w then Sts.OK else Sts.UNIT_BUDGET
  | .PMP_CH_CTL =>
    if F.PMP_CH_CTL_CLASS.get w ≠ 2 ∧ s.classSNamed i then Sts.UNIT_BIND
    else if F.PMP_CH_CTL_CLASS.get w = 2 ∧ s.fb F.PMP_CH_RING_CFG_HOST i then Sts.CMD_RANGE
    else Sts.OK
  | .PMP_CH_RING_LO => if w % 32 = 0 then Sts.OK else Sts.CMD_RANGE
  | .PMP_CH_RING_HI => if 256 ≤ w ∧ !s.fb F.PMP_CH_RING_CFG_HOST i then Sts.CMD_RANGE else Sts.OK
  | .PMP_CH_RING_CFG => if s.lineBad i w ∨ s.hostBad i w then Sts.CMD_RANGE else Sts.OK
  | .DPR_CISWIN => if 512 < F.DPR_CISWIN_BASE.get w + F.DPR_CISWIN_LEN.get w then Sts.CMD_RANGE else Sts.OK
  | .SP_ZONE => if spZonesOk (fun z => if z = i then w else (s.rr .SP_ZONE z).toNat) then Sts.OK else Sts.SP_CONFLICT
  | .SMP_FAM => if F.SMP_FAM_LEVEL.get w < s.fg F.SMP_FAM_MIN i then Sts.CMD_RANGE else Sts.OK
  | .FLT_GRP =>
    let v := F.FLT_GRP_E_STORE_MAX.get w
    if v ≠ 0xFFFF ∧ s.fg F.FLT_FUSE0_E_STORE_CEIL 0 < v then Sts.FLT_CEILING else Sts.OK
  | .FLT_REL =>
    let v := F.FLT_REL_E_RELEASE_MAX.get w
    if v ≠ 0xFFFF ∧ s.fg F.FLT_FUSE0_E_RELEASE_CEIL 0 < v then Sts.FLT_CEILING else Sts.OK
  | _ => Sts.OK

/-- The error bit a write sets that breaks its register's rule or leaves a field out of range. -/
def State.regErr (s : State) (r : RegId) : State :=
  if whReg r then s.fs F.WH_STATUS_CFG_ERR 0 1
  else if r = .UNIT_TICK_DEADLINE then s.fs F.UNIT_TICK_DEADLINE_ERR 0 1
  else s

/-- What follows a write of fields; `old` is the state before it, `w` the word written. -/
def State.afterPut (old : State) (r : RegId) (i w : Nat) (s : State) : State :=
  match r with
  | .WH_SLOT_CFG => s.slotEnable i (old.fg F.WH_SLOT_CFG_EN i)
  | .CL_CTL => if s.standby ∧ 4 ≤ i then s else s.clEnable i (old.fb F.CL_CTL_EN i)
  | .RG_SPARE => s.showSpares
  | .UNIT_TICK_DEADLINE => (s.eng.units.map (·.1)).foldl State.showNoSpare s
  | .PMP_CH_CTL => s.pmpCtl i w
  | .DPR_CISWIN => s.fs F.DPR_CISWIN_VALID i 1
  | .DPR_CTL => if s.fb F.DPR_CTL_EN i then s else s.setDipState i 0
  | .DPR_HUB_CTL => if s.fb F.DPR_HUB_CTL_EN 0 then s else (s.setDipState 6 0).setDipState 7 0
  | .NET_CTL => s.netCtlDone i (old.rr .NET_CTL i)
  | .TW_CTL => s.twEnable (old.fb F.TW_CTL_EN 0)
  | .CL_MIX_CTL => s.showMix
  | .TDM_PACK | .TDM_RING_CFG => s.showRec i
  | _ => s

/-- The fields that keep their value where the register's rule is broken by word `w`: all of them, but for a register whose
rule concerns some fields alone (R302, R306, R325). -/
def State.ruleMask (s : State) (r : RegId) (i w : Nat) : Nat :=
  match r with
  | .PMP_CH_RING_CFG =>
    (if s.lineBad i w then F.PMP_CH_RING_CFG_EVT_SEL.put 0 15 ||| F.PMP_CH_RING_CFG_EVT_CL.put 0 31 else 0)
      ||| (if s.hostBad i w then F.PMP_CH_RING_CFG_HOST.put 0 1 else 0)
  | .PMP_CH_CTL => if s.regRule r i w = Sts.CMD_RANGE then F.PMP_CH_CTL_CLASS.put 0 3 else 2 ^ 32 - 1
  | .SMP_FAM => F.SMP_FAM_LEVEL.put 0 7
  | _ => 2 ^ 32 - 1

/-- A word with the fields that break the register's rule kept as `old` has them. -/
def State.ruled (s : State) (r : RegId) (i : Nat) (old : Word) (v : Nat) : Nat :=
  if s.regRule r i v = Sts.OK then v else (maskPut (BitVec.ofNat 32 v) old (s.ruleMask r i v)).toNat

/-- Write the RW and RWS fields of a register: fields out of range, by themselves or by the register's rule, keep their value. -/
def State.putFields (s : State) (r : RegId) (i w : Nat) : State :=
  let v := s.ruled r i (s.inForce r i) (s.merged r i w)
  let bad := (okMask r w) != (accMask r (fun a => a == .rw || a == .rws))
  let s := if bad && whReg r then s.regErr r else s
  if s.regRule r i (s.merged r i w) ≠ Sts.OK ∧ s.ruleMask r i (s.merged r i w) = 2 ^ 32 - 1 then s.regErr r
  else
    let t := if r = .NET_SHAPER then s.creditRun (i / 3) else s
    let t := if (blockOf r).isSome then t.rwsWrite r i v else t.imgWrite r i v
    s.afterPut r i (v ||| (w &&& (accMask r (· == .wo)))) t

/-- Clear the W1C bits written 1. -/
def State.clearBits (s : State) (r : RegId) (i w : Nat) : State :=
  let m := accMask r (· == .w1c) &&& w
  if m = 0 then s
  else
    let s := s.rw r i (s.rr r i &&& ~~~(BitVec.ofNat 32 m))
    if r = .PMP_CH_STAT then s.pmpSum i else s

/-- A write of a register that takes effect at once, as its map states (R9, R424). -/
def State.putReg (s : State) (r : RegId) (i w : Nat) : State :=
  match r with
  | .PMP_CH_IDX => s.pmpIndex i w
  | .TDM_RING_IDX => s.tdmRingIdx i (BitVec.ofNat 32 w)
  | .HIF_CTL => if w.testBit 0 then s.goWrite else s
  | .SMP_FAM =>
    let s := s.putFields r i w
    if F.SMP_FAM_INJ.get w = 1 then s.injWrite i (F.SMP_FAM_DRY.get w == 1) else s
  | _ => (s.clearBits r i w).putFields r i w

/-! ### The staging image and GO (R265) -/

/-- The register of a key. -/
def regOfKey (k : Nat) : Option RegId := allRegs.find? (fun r => r.ctorIdx == k / 2048)

/-- The value a staged register reads. -/
def State.stagedWord (s : State) (r : RegId) (i : Nat) : Word := (mfind s.hif.staged (regKey r i)).getD (s.inForce r i)

/-- The registers as they will read at GO: the staging image over what is in force. -/
def State.preview (s : State) : State :=
  s.hif.staged.foldl (fun (s : State) p => match regOfKey p.1 with
    | some r => s.rw r (p.1 % 2048) p.2
    | none => s) s

/-- Stage a write: fields out of range keep their value, a completion line held by another channel among them (R302). -/
def State.stage (s : State) (r : RegId) (i w : Nat) : State :=
  let old := s.stagedWord r i
  let v := maskPut old (BitVec.ofNat 32 w) (okMask r w)
  let v := if r = .PMP_CH_RING_CFG then BitVec.ofNat 32 (s.preview.ruled r i old v.toNat) else v
  let bad := (okMask r w) != (accMask r (fun a => a == .rw || a == .rws))
  let s := if bad && whReg r then s.regErr r else s
  if accMask r (fun a => a == .rw || a == .rws) = 0 then s
  else { s with hif := { s.hif with staged := mset false s.hif.staged (regKey r i) v } }

/-- What GO does beside the words to a block of RWS registers. -/
def State.afterGo (s : State) (r : RegId) (i : Nat) : State :=
  match blockOf r with
  | some .FLT_CTL => s.showVes
  | some .TDM_CTL => (((s.tdmStop i 0).tdmConv i).showRec i).agShow
  | _ => s

/-- One staged word comes into force: RWS values reach shadow and active register together, ARM reads 0 (R114). INDEX has its
own rule. -/
def State.goPut (s : State) (r : RegId) (i : Nat) (w : Word) : State :=
  match blockOf r with
  | none =>
    if r = .PMP_CH_IDX then s
    else
      let s := if r = .NET_SHAPER then s.creditRun (i / 3) else s
      s.imgWrite r i w.toNat
  | some a =>
    let s := s.setShw r i (maskPut (s.shw r i) w (rwsMask r))
    let m := (rwsMask r ||| accMask r (· == .rw)) % 2 ^ (if r = a then 31 else 32)
    (s.rw r i (maskPut (s.rr r i) w m)).setArm a (armInst a i) false

/-- A word that breaks its register's rule over the whole image goes back, in the fields concerned, to what stood. -/
def State.goJudge (old s : State) (r : RegId) (i : Nat) : State :=
  let v := (s.inForce r i).toNat
  if s.regRule r i v = Sts.OK then s
  else (s.goPut r i (BitVec.ofNat 32 (s.ruled r i (old.inForce r i) v))).regErr r

/-- The staging image with its registers. -/
def stagedRegs (img : AMap Word) : List (RegId × Nat × Word) :=
  img.filterMap (fun p => (regOfKey p.1).map (fun r => (r, p.1 % 2048, p.2)))

/-- The staging image applied in one step (R265): every word, then the rules over the whole, then what follows from the
registers; INDEX is written before its channel is enabled (R296). -/
def State.goImage (old : State) (img : AMap Word) : State :=
  let l := stagedRegs img
  let s := l.foldl (fun s x => s.goPut x.1 x.2.1 x.2.2) old
  let s := l.foldl (fun s x => old.goJudge s x.1 x.2.1) s
  let s := l.foldl (fun s x => if x.1 = .PMP_CH_IDX then s.pmpIndex x.2.1 x.2.2.toNat else s) s
  l.foldl (fun s x =>
    if x.1 = .PMP_CH_IDX then s
    else if (blockOf x.1).isSome then s.afterGo x.1 x.2.1
    else old.afterPut x.1 x.2.1 (s.rr x.1 x.2.1).toNat s) s

/-- GO at its boundary (R265), unless a Function Level Reset has dropped it since (R266): the staging image is applied and has one
generation (R289), the block enters RUN and its rings start. With no settings copy this GO makes the settings valid (R375). -/
def applyGo (_ : Entry) (s : State) : State :=
  if !s.hif.goArmed then s
  else
    let img := s.hif.staged
    let s := ({ s with hif := { s.hif with staged := [], goArmed := false } } : State).goImage img
    let s := (s.fs F.HIF_STAT_STATE 0 1).ringsStart
    let s := if s.fg F.RW_STAT_STAGE 0 = 3 then { s with time := { s.time with settings := true } } else s
    if img = [] then s
    else
      let (g, s) := s.newGen
      s.noteChange g Code.GO 0 true

/-! ### Host and Windlass writes -/

/-- Word number of a BAR0 offset in the MSI-X table and the pending bit array (R422). -/
def msixWord (off : Nat) : Option Nat := if 0x8000 ≤ off ∧ off < 0x8400 then some ((off - 0x8000) / 4) else none

/-- A write of an MSI-X table word; a vector unmasked with its pending bit set sends its message. -/
def State.msixWrite (s : State) (k : Nat) (w : Word) : State :=
  let s := { s with hif := { s.hif with msix := mset false s.hif.msix k w } }
  if k % 4 = 3 ∧ w.toNat % 2 = 0 ∧ mget 0 s.hif.pba (k / 4) = 1 then
    ({ s with hif := { s.hif with pba := mput 0 s.hif.pba (k / 4) 0 } } : State).msi (k / 4)
  else s

/-- A write to a setup-class register in RUN is ignored and flagged (R267). -/
def State.ignored (s : State) (off : Nat) : State :=
  ((s.fs F.HIF_STAT_IGNORED 0 1).rw .HIF_IGN_ADDR 0 (BitVec.ofNat 32 off)).post Evt.HIF_IGNORED 0 (leBytes 4 off)

def secRcv (r : RegId) : Bool := r == .SEC_RCV_CTL || r == .SEC_RCV_CRC || r == .SEC_RCV_BUF
/-- The SEC registers, which alone answer the host in RECOVERY (R405). -/
def secReg (r : RegId) : Bool :=
  secRcv r || r ∈ [RegId.SEC_STATE, .SEC_UID, .SEC_HWTYPE, .SEC_FW_STAT, .SEC_FW_VER, .SEC_RCV_STAT]
def hifReg (r : RegId) : Bool :=
  r ∈ [RegId.HIF_CTL, .HIF_STAT, .HIF_RING_BASE_LO, .HIF_RING_BASE_HI, .HIF_RING_CFG, .HIF_RING_AUD, .HIF_RING_IDX, .HIF_RING_STAT]
def pmpReg (r : RegId) : Bool :=
  r ∈ [RegId.PMP_CH_CTL, .PMP_CH_RING_LO, .PMP_CH_RING_HI, .PMP_CH_RING_CFG, .PMP_CH_IDX, .PMP_CH_STAT, .PMP_CH_RES, .PMP_CH_CNT]
def dbgReg (r : RegId) : Bool := r == .DBG_RUNCTL || r == .DBG_FUSE_CTL || r == .DBG_FUSE_DATA

/-- Do `f` with a register as it reads in SETUP. -/
def State.asStaged (s : State) (r : RegId) (i : Nat) (f : State → State) : State :=
  (f (s.rw r i (s.stagedWord r i))).rw r i (s.rr r i)

/-- WO triggers of a setup-class register written in SETUP act at once, on the fields as they then read (R265). -/
def State.setupTrigger (s : State) (r : RegId) (i w : Nat) : State :=
  match r with
  | .PMP_CH_CTL =>
    let s := if F.PMP_CH_CTL_ABORT.get w = 1 then s.asStaged .PMP_CH_RING_CFG i (fun s => s.pmpAbort i) else s
    if F.PMP_CH_CTL_KICK.get w = 1 then s.pmpTrig i else s
  | .SMP_FAM => if F.SMP_FAM_INJ.get w = 1 then s.injWrite i (F.SMP_FAM_DRY.get w == 1) else s
  | _ => s

/-- A write of a recovery register (R405): GO of SEC_RCV_CTL starts the operation. -/
def State.rcvWrite (s : State) (r : RegId) (i w : Nat) : State :=
  if s.fwMode ≠ 3 then s
  else if r = .SEC_RCV_CTL then
    (if w.testBit 31 then s.rcvGo w (F.SEC_RCV_CTL_OP.get w)
     else if s.fb F.SEC_RCV_STAT_BUSY 0 then s else s.imgWrite r i w)
  else s.imgWrite r i w

/-- A host write of register r. -/
def State.hostReg (s : State) (off : Nat) (r : RegId) (i w : Nat) : State :=
  if secRcv r then s.rcvWrite r i w
  else if s.fwMode = 3 ∨ dbgReg r ∨ r = .SEC_REMAP then s
  else
    let one := decide (accMask r (· == .w1c) &&& w ≠ 0)
    if !setupClass r then s.putReg r i w
    else if s.hifRun then (if one && !(pmpReg r && pmpReserved i) then s.clearBits r i w else s.ignored off)
    else if pmpReg r && pmpReserved i then s
    else if hifReg r then s.putReg r i w
    else
      let s := (s.clearBits r i w).stage r i w
      s.setupTrigger r i w

/-- REGISTER_WRITE: an aligned 32-bit write at a BAR0 offset, by the host (0) or by Windlass (1). With who = 2 Windlass raises a
software line of a cluster (R91), an access whose address the spec does not give (assumption 55). -/
def execRegisterWrite (who off : Nat) (v : BusWord) (dt : Nat) (s : State) : Host.Outcome State Fault Refusal :=
  .next (if s.dead then s
    else
      let s := s.elapse dt
      let w := v.val % 2 ^ 32
      if who = 2 then (if off / 256 < 24 ∧ 128 ≤ off % 256 then s.pulse (off / 256) (off % 256) else s)
      else if v.size = 8 ∧ off % 8 = 0 ∧ who = 0 ∧ s.fwMode ≠ 3 then
        match msixWord off with
        | some k => (s.msixWrite k (BitVec.ofNat 32 w)).msixWrite (k + 1) (BitVec.ofNat 32 (v.val / 2 ^ 32))
        | none => s
      else if v.size ≠ 4 ∨ off % 4 ≠ 0 then s
      else if who = 0 then
        match msixWord off with
        | some k => if s.fwMode = 3 then s else s.msixWrite k (BitVec.ofNat 32 w)
        | none => match regAt off with
          | some (r, i) => s.hostReg off r i w
          | none => s
      else match regAt off with
        | some (r, i) => if dbgReg r || secRcv r then s else if r = .SEC_REMAP then s.remap w else s.putReg r i w
        | none => s)

/-! ### Reads that change state -/

/-- A read of NET_CNT_LO (R262): the counter is cleared and its halves are latched; the census set is marked (R408). -/
def State.netCntRead (s : State) (k : Nat) : State :=
  let v := mget 0 s.net.cnt k
  let s := (s.rw .NET_CNT_LO k (BitVec.ofNat 32 v)).rw .NET_CNT_HI k (BitVec.ofNat 32 (v / 2 ^ 32))
  let s := { s with net := { s.net with cnt := mput 0 s.net.cnt k 0 } }
  s.fs F.CEN_STAT_LIVE 0 (setBit (s.fg F.CEN_STAT_LIVE 0) 0 true)

/-- A read of WH_ABSORB_LO latches WH_ABSORB_HI. -/
def State.absorbRead (s : State) : State :=
  let v := wrap 64 (s.wh.absorb / 2 ^ 32)
  (s.rw .WH_ABSORB_LO 0 (BitVec.ofNat 32 v)).rw .WH_ABSORB_HI 0 (BitVec.ofNat 32 (v / 2 ^ 32))

/-- A read of TW_HEALTH_LO or of TW_PEER_LO latches the other half of the Health Word. -/
def State.healthRead (s : State) (hi : RegId) (word : Nat) : State := s.rw hi 0 (BitVec.ofNat 32 (word / 2 ^ 32))

/-- What a read of a register by the host or by Windlass changes (R9, R408). -/
def State.readReg (s : State) (r : RegId) (i : Nat) : State :=
  match r with
  | .NET_CNT_LO => s.netCntRead i
  | .WH_ABSORB_LO => s.absorbRead
  | .TW_HEALTH_LO => s.healthRead .TW_HEALTH_HI s.tw.health
  | .TW_PEER_LO => s.healthRead .TW_PEER_HI ((s.tw.peer.map TwBeat.health).getD 0)
  | .DPR_LOG0 => s.dprLogRead i
  | .SMP_LOG0 => s.smpLogRead
  | .MT_NS => s.mtRead
  | .PC_CNT => s.pcRead false i
  | .PC_AGG_CNT => s.pcRead true i
  | _ => if accMask r (· == .rcl) = 0 then s else s.liveRead r i

/-- Registers whose read forms what it gives: halves, captures and log entries. -/
def latchReg (r : RegId) : Bool :=
  r ∈ [RegId.NET_CNT_LO, .WH_ABSORB_LO, .TW_HEALTH_LO, .TW_PEER_LO, .DPR_LOG0, .SMP_LOG0, .MT_NS, .PC_AGG_CNT]

/-- What a read gives (R9, R265): the staged value in SETUP, the value in force elsewhere, 0 for WO fields. -/
def State.hostWord (s : State) (r : RegId) (i : Nat) : Nat :=
  (s.stagedWord r i &&& ~~~(BitVec.ofNat 32 (accMask r (· == .wo)))).toNat

/-- A read has given `v`. -/
def State.gave (s : State) (v : Nat) : State := { s with hif := { s.hif with rdata := v } }

/-- An aligned 32-bit read at a BAR0 offset; in RECOVERY the SEC registers alone answer (R405), and none of them changes by a read.
An offset without a register gives 0 (R264). -/
def State.readAt (s : State) (off : Nat) : State :=
  if s.dead then s
  else match (if off % 4 = 0 then regAt off else none) with
    | some (r, i) =>
      if s.fwMode = 3 then s.gave (if secReg r then s.hostWord r i else 0)
      else
        let t := s.readReg r i
        t.gave (if latchReg r then (t.rr r i).toNat else s.hostWord r i)
    | none => s.gave 0

/-- A word of the MSI-X structures (R422): the table at 0x8000, the pending bits at 0x9000. -/
def State.msixRead (s : State) (off : Nat) : Nat :=
  match msixWord off with
  | some k => (mget (0 : Word) s.hif.msix k).toNat
  | none =>
    if 0x9000 ≤ off ∧ off < 0x9008 then
      (List.range 32).foldl (fun n i => n + 2 ^ i * b2n (mget 0 s.hif.pba ((off - 0x9000) / 4 * 32 + i) == 1)) 0
    else 0

/-- Whether an offset lies in the MSI-X structures. -/
def msixAt (off : Nat) : Bool := (msixWord off).isSome || (decide (0x9000 ≤ off) && decide (off < 0x9008))

/-- RCL_READ (R264, R408): a live read. The host reads 0 from BAR2 and by any access that is not aligned and of 32 bits; the MSI-X
structures also take 64 bits (R422) and read 0 for Windlass. -/
def execRclRead (x : BusRead) (s : State) : Host.Outcome State Fault Refusal :=
  .next (if s.dead then s
    else if x.bar = 0 ∧ msixAt x.off then
      s.gave (if x.who ≠ 0 ∨ s.fwMode = 3 then 0
        else if x.size = 4 ∧ x.off % 4 = 0 then s.msixRead x.off
        else if x.size = 8 ∧ x.off % 8 = 0 then s.msixRead x.off + 2 ^ 32 * s.msixRead (x.off + 4)
        else 0)
    else if x.bar ≠ 0 ∨ x.size ≠ 4 then s.gave 0
    else s.readAt x.off)

/-- LATCHING_LO_READ (R262): a read of the LO half of a split register. -/
def execLatchingLoRead (off : Nat) (s : State) : Host.Outcome State Fault Refusal :=
  .next (match regAt off with
    | some (.NET_CNT_LO, _) => s.readAt off
    | some (.WH_ABSORB_LO, _) => s.readAt off
    | some (.TW_HEALTH_LO, _) => s.readAt off
    | some (.TW_PEER_LO, _) => s.readAt off
    | _ => s)

/-- LOG_ENTRY_READ (R317, R335): a read of DPR_LOG0 or SMP_LOG0. -/
def execLogEntryRead (off : Nat) (s : State) : Host.Outcome State Fault Refusal :=
  .next (match regAt off with
    | some (.DPR_LOG0, _) => s.readAt off
    | some (.SMP_LOG0, _) => s.readAt off
    | _ => s)

/-- ARM_WRITE (R114): Windlass writes ARM of the block whose control register lies at an offset. -/
def execArmWrite (off : Nat) (set : Bool) (dt : Nat) (s : State) : Host.Outcome State Fault Refusal :=
  let s := s.elapse dt
  .next (match regAt off with
    | some (r, i) => if armRegs.contains r then s.setArm r i set else s
    | none => s)

/-! ### NOP, CFG_JOURNAL_READ, REG_SET (R286, R290) -/

def chkNop (_ : Cmd) (_ : State) : Chk := Chk.ok

def applyNop (e : Entry) (s : State) : State := s.finish e Sts.OK [] false

def execNop (c : Cmd) (s : State) : Host.Outcome State Fault Refusal := .next (submit Code.NOP chkNop c s)

/-- A journal entry as CFG_JOURNAL_READ writes it (R290). -/
def jBytes (e : JEntry) : List Byte :=
  leBytes 4 e.gen ++ leBytes 4 e.sec ++ leBytes 4 e.ns ++ leBytes 2 e.code ++ leBytes 1 e.source ++ leBytes 1 e.outcome
    ++ leBytes 4 e.tag ++ leBytes 2 e.status ++ leBytes 1 e.ring ++ zeros 9

/-- Insert a journal entry by its distance from generation a. -/
def jInsert (a : Nat) (e : JEntry) : List JEntry → List JEntry
  | [] => [e]
  | x :: t => if (e.gen + 2 ^ 32 - a) % 2 ^ 32 < (x.gen + 2 ^ 32 - a) % 2 ^ 32 then e :: x :: t else x :: jInsert a e t

/-- The entries held from generation a on, ascending. -/
def State.jFrom (s : State) (a : Nat) : List JEntry :=
  (s.hif.journal.filter (fun e => decide ((e.gen + 2 ^ 32 - a) % 2 ^ 32 < 2 ^ 31))).foldl (fun l e => jInsert a e l) []

def chkCfgJournalRead (c : Cmd) (_ : State) : Chk := if 1 ≤ c.b ∧ c.b ≤ 256 ∧ c.len ≤ 8192 then Chk.ok else (Sts.CMD_RANGE, [])

def applyCfgJournalRead (e : Entry) (s : State) : State :=
  let l := (s.jFrom e.cmd.a).take (min e.cmd.b (e.cmd.len / 32))
  (s.hostWrite e.cmd.addr (l.flatMap jBytes)).finish e Sts.OK [l.length] false

def execCfgJournalRead (c : Cmd) (s : State) : Host.Outcome State Fault Refusal :=
  .next (submit Code.CFG_JOURNAL_READ chkCfgJournalRead c s)

/-- The registers REG_SET accepts (R286). -/
def regSetRegs : List RegId :=
  [.MT_CTL, .MT_SLEW_MAX, .WH_CTL, .WH_BW, .WH_LOCK, .WH_TIMERS, .WH_DRIFT, .WH_SLOT_CFG, .WH_QL_MAP, .WH_CLKOUT, .CL_CTL,
    .RG_SPARE, .UNIT_TICK_DEADLINE, .DP_BOOST, .PMP_CH_CTL, .PMP_CH_RING_LO, .PMP_CH_RING_HI, .PMP_CH_RING_CFG, .PMP_CH_IDX,
    .DPR_CTL, .DPR_CISWIN, .DPR_HUB_CTL, .SMP_CTL, .TW_SYNC, .RW_CTL]

/-- The pairs of a REG_SET buffer. -/
def regPairs (b : List Byte) (n : Nat) : List (Nat × Nat) := (List.range n).map (fun k => (leAt b (8 * k) 4, leAt b (8 * k + 4) 4))

/-- Write the pairs from number k on in order, each judged with those before it in force: the verdict, and the state with all of
them written. -/
def State.regSetRun (s : State) (k : Nat) : List (Nat × Nat) → Chk × State
  | [] => (Chk.ok, s)
  | (off, w) :: t =>
    match regAt off with
    | some (r, i) =>
      if !(regSetRegs.contains r) ∨ (pmpReg r ∧ pmpReserved i) then ((Sts.CMD_REG, [k]), s)
      else if !imgOk r w then ((Sts.CMD_RANGE, [k]), s)
      else if s.regRule r i w ≠ Sts.OK then ((s.regRule r i w, [k]), s)
      else (s.putReg r i w).regSetRun (k + 1) t
    | none => ((Sts.CMD_REG, [k]), s)

/-- EN = 0 and ABORT of one channel in one REG_SET (R305): the ABORT goes with the EN = 0. -/
def joinAborts (l : List (Nat × Nat)) : List (Nat × Nat) :=
  let mine := fun (off : Nat) (f : Nat → Bool) => l.any (fun p => p.1 == off && f p.2)
  l.map (fun p =>
    match regAt p.1 with
    | some (.PMP_CH_CTL, _) =>
      if mine p.1 (fun w => !w.testBit 0) && mine p.1 (·.testBit 1) then (p.1, setBit p.2 1 (!p.2.testBit 0)) else p
    | _ => p)

def chkRegSet (c : Cmd) (s : State) : Chk :=
  if c.len = 0 ∨ 512 < c.len ∨ c.len % 8 ≠ 0 then (Sts.CMD_RANGE, [])
  else (s.regSetRun 0 (joinAborts (regPairs c.buf (c.len / 8)))).1

/-- REG_SET at its boundary: checked again, and written whole or not at all. -/
def applyRegSet (e : Entry) (s : State) : State :=
  let r := s.regSetRun 0 (joinAborts (regPairs e.cmd.buf (e.cmd.len / 8)))
  if r.1.1 ≠ Sts.OK then s.finish e r.1.1 r.1.2 false else r.2.finish e Sts.OK [] true

def execRegSet (c : Cmd) (s : State) : Host.Outcome State Fault Refusal := .next (submit Code.REG_SET chkRegSet c s)

end Sys2Proof.Machine
end

