-- ==== Sys2Proof/Machine/Debug.lean ====
section
/-! DEFINITION. Debug and security commands (R383 - R395): the seal, debug sessions, debug accesses, run control and fuses, and
the boundary-scan TAP. -/

namespace Sys2Proof.Machine

/-! ### SEC_SEAL (R385) -/

def chkSecSeal (_ : Cmd) (s : State) : Chk :=
  if s.fb F.SEC_STATE_SEALED 0 ∨ !s.fb F.SEC_STATE_FW_KEY 0 ∨ !s.fb F.SEC_STATE_DBG_KEY 0 ∨ !s.fb F.SEC_STATE_CEIL_LOCK 0 then
    (Sts.SEC_STATE, [])
  else Chk.ok

def applySecSeal (e : Entry) (s : State) : State :=
  let k := chkSecSeal e.cmd s
  if k.1 ≠ Sts.OK then s.finish e k.1 k.2 false else ((s.fs F.SEC_STATE_SEALED 0 1).dbgEnd).finish e Sts.OK [] false

def execSecSeal (c : Cmd) (s : State) : Host.Outcome State Fault Refusal := .next (submit Code.SEC_SEAL chkSecSeal c s)

/-! ### Sessions (R390 - R393) -/

/-- Twelve fresh words of the device's random source: 48 bytes. -/
def State.randomBytes (s : State) : Nat → List Byte × State
  | 0 => ([], s)
  | n + 1 =>
    let (w, s) := s.freeWord
    let (t, s) := s.randomBytes n
    (leBytes 4 w.toNat ++ t, s)

def State.lockedOut (s : State) : Bool := s.fb F.DBG_STAT_LOCKOUT 0

def chkDbgChallenge (c : Cmd) (s : State) : Chk :=
  if c.len < 64 then (Sts.CMD_RANGE, []) else if s.lockedOut then (Sts.DBG_DENIED, []) else Chk.ok

/-- DBG_CHALLENGE at its boundary: the unique ID and a fresh nonce, which replaces any other. -/
def applyDbgChallenge (e : Entry) (s : State) : State :=
  let k := chkDbgChallenge e.cmd s
  if k.1 ≠ Sts.OK then s.finish e k.1 k.2 false
  else
    let (n, s) := s.randomBytes 12
    let s := { s with sec := { s.sec with nonce := n, nonceAt := s.time.up + 60 * secNs } }
    (s.hostWrite e.cmd.addr (s.uidBytes ++ zeros 4 ++ n)).finish e Sts.OK [] false

def execDbgChallenge (c : Cmd) (s : State) : Host.Outcome State Fault Refusal :=
  .next (submit Code.DBG_CHALLENGE chkDbgChallenge c s)

def recLevel (b : List Byte) : Nat := leAt b 0 1
def recMinutes (b : List Byte) : Nat := leAt b 2 2

/-- The conditions of R391 on a response record. -/
def State.dbgAuth (s : State) (b : List Byte) : Bool :=
  let pub := (b.drop 0xA0).take 96
  digestBytes (sha384 pub) == s.keyHash 1 && ecdsaP384 pub (sha384 (b.take 64)) ((b.drop 0x40).take 96)
    && (b.drop 4).take 12 == s.uidBytes && s.sec.nonce != [] && decide (s.time.up < s.sec.nonceAt) && (b.drop 0x10).take 48 == s.sec.nonce
    && decide (1 ≤ recLevel b) && decide (recLevel b ≤ 3) && decide (1 ≤ recMinutes b) && decide (recMinutes b ≤ 480)

def chkDbgOpen (c : Cmd) (s : State) : Chk :=
  if c.len ≠ 256 ∨ (!s.fb F.SEC_STATE_SEALED 0 ∧ (recLevel c.buf = 0 ∨ 3 < recLevel c.buf)) then (Sts.CMD_RANGE, [])
  else if s.lockedOut ∨ s.sec.waiting.isSome then (Sts.DBG_DENIED, [])
  else Chk.ok

/-- A grant (R391): it replaces a session that holds. -/
def State.dbgGrant (s : State) (b : List Byte) : State :=
  let ends := if s.fb F.SEC_STATE_SEALED 0 then some (s.time.up + recMinutes b * 60 * secNs) else none
  let s := ((s.fs F.DBG_STAT_SESSION 0 1).fs F.DBG_STAT_MAX 0 (recLevel b)).fs F.DBG_STAT_FAILS 0 0
  ({ s with sec := { s.sec with sessEnd := ends, fell := false, waiting := none } } : State).dbgRelevel

/-- An authentication failure (R391): the third in a row starts the lockout. -/
def State.dbgFail (s : State) : State :=
  let s := s.fadd F.DBG_STAT_FAILS 0 1
  if s.fg F.DBG_STAT_FAILS 0 < 3 then s
  else { s.fs F.DBG_STAT_LOCKOUT 0 1 with sec := { s.sec with lockEnd := some (s.time.up + 60 * secNs) } }

/-- The level the table of R393 would allow under a session. -/
def State.dbgAllows (s : State) : Nat := (s.fs F.DBG_STAT_SESSION 0 1).dbgTable

/-- DBG_OPEN at its boundary (R391, R393). -/
def applyDbgOpen (e : Entry) (s : State) : State :=
  let b := e.cmd.buf
  let sealed := s.fb F.SEC_STATE_SEALED 0
  let auth := !sealed || s.dbgAuth b
  let s := if sealed then { s with sec := { s.sec with nonce := [] } } else s
  if s.lockedOut then s.finish e Sts.DBG_DENIED [] false
  else if !auth then s.dbgFail.finish e Sts.DBG_AUTH [] false
  else if recLevel b ≤ s.dbgAllows then (s.dbgGrant b).finish e Sts.OK [] false
  else if s.pwr = 0 ∧ s.activePair then ({ s with sec := { s.sec with waiting := some e } } : State).hoStart
  else s.finish e Sts.DBG_DENIED [] false

def execDbgOpen (c : Cmd) (s : State) : Host.Outcome State Fault Refusal := .next (submit Code.DBG_OPEN chkDbgOpen c s)

/-- A DBG_OPEN that waited for a voluntary handover: granted when it completes, refused when it is abandoned (R393). -/
def State.dbgWaited (s : State) (done : Bool) : State :=
  match s.sec.waiting with
  | none => s
  | some e =>
    let s := { s with sec := { s.sec with waiting := none } }
    if done ∧ recLevel e.cmd.buf ≤ s.dbgAllows then (s.dbgGrant e.cmd.buf).finish e Sts.OK [] false
    else s.finish e Sts.DBG_DENIED [] false

def chkDbgClose (_ : Cmd) (_ : State) : Chk := Chk.ok

def applyDbgClose (e : Entry) (s : State) : State := s.dbgEnd.finish e Sts.OK [] false

def execDbgClose (c : Cmd) (s : State) : Host.Outcome State Fault Refusal := .next (submit Code.DBG_CLOSE chkDbgClose c s)

/-- SESSION_EXPIRY (R392). -/
def execSessionExpiry (s : State) : Host.Outcome State Fault Refusal := .next (if s.due s.sec.sessEnd then s.dbgEnd else s)

/-- NONCE_EXPIRY (R390). -/
def execNonceExpiry (s : State) : Host.Outcome State Fault Refusal :=
  .next (if s.sec.nonceAt ≤ s.time.up then { s with sec := { s.sec with nonce := [] } } else s)

/-- LOCKOUT_EXPIRY (R391). -/
def execLockoutExpiry (s : State) : Host.Outcome State Fault Refusal :=
  .next (if s.due s.sec.lockEnd then { s.fs F.DBG_STAT_LOCKOUT 0 0 with sec := { s.sec with lockEnd := none } } else s)

/-! ### Run control (R389) -/

abbrev State.dbgAt (s : State) : Nat := s.fg F.DBG_STAT_LEVEL 0

/-- A unit halts; a REP ends early, with the instruction after the repeated one next. -/
def State.dbgHalt (s : State) (u : Nat) : State :=
  if 192 ≤ u then s
  else
    let x := s.unit u
    let c := x.core
    (s.setUnit u { x with halted := true, core := if c.rep = 0 then c else { c with rep := 0, pc := (c.pc + 4) % 65536 } }).showHalted

def State.dbgResume (s : State) (u : Nat) : State :=
  if 192 ≤ u then s else (s.setUnit u { s.unit u with halted := false }).showHalted

/-- One instruction of a halted unit. -/
def State.dbgStep (s : State) (u : Nat) (x : UPort) : State :=
  if 192 ≤ u ∨ !(s.unit u).halted then s
  else
    let s := s.setUnit u { s.unit u with stepOk := true }
    let t := match jdecode (s.fetch u (s.core u).pc) with
      | some .nop => s.issueNop u x
      | some _ => if (s.fetchEcc u x.fsyn).1 = 2 then s.issueNop u x else s.issue u (fun _ => true) x
      | none => s.issueNop u x
    t.setUnit u { t.unit u with stepOk := false }

/-- A Windlass pair stops or goes on. -/
def State.dbgPair (s : State) (pair : Nat) (halt : Bool) : State :=
  (if pair = 0 then s.fs F.DBG_RUNCTL_PAIR0_HALT 0 (b2n halt) else s.fs F.DBG_RUNCTL_PAIR1_HALT 0 (b2n halt)).showHalted

/-- A debug register write receives its own generation and is journaled (R388). -/
def State.dbgNote (s : State) : State :=
  let (g, s) := s.newGen
  s.noteChange g Code.DEBUG_WRITE 2 true

/-- A debug write that needs level HALT. -/
def State.dbgDo (s : State) (f : State → State) : State := if s.dbgAt < 2 then s.dbgDenied else (f s).dbgNote

/-- HALT: DBG_RUNCTL.HALT of unit u. -/
def execHalt (u : Nat) (s : State) : Host.Outcome State Fault Refusal :=
  .next (s.dbgDo (fun s => (s.fs F.DBG_RUNCTL_UNIT 0 u).dbgHalt u))

/-- RESUME: DBG_RUNCTL.RESUME of unit u. -/
def execResume (u : Nat) (s : State) : Host.Outcome State Fault Refusal :=
  .next (s.dbgDo (fun s => (s.fs F.DBG_RUNCTL_UNIT 0 u).dbgResume u))

/-- STEP: DBG_RUNCTL.STEP of unit u. -/
def execStep (u : Nat) (x : UPort) (s : State) : Host.Outcome State Fault Refusal :=
  .next (s.dbgDo (fun s => (s.fs F.DBG_RUNCTL_UNIT 0 u).dbgStep u x))

/-- PAIR0_HALT: DBG_RUNCTL.PAIR0_HALT written. -/
def execPair0Halt (halt : Bool) (s : State) : Host.Outcome State Fault Refusal := .next (s.dbgDo (fun s => s.dbgPair 0 halt))

/-- PAIR1_HALT: DBG_RUNCTL.PAIR1_HALT written. -/
def execPair1Halt (halt : Bool) (s : State) : Host.Outcome State Fault Refusal := .next (s.dbgDo (fun s => s.dbgPair 1 halt))

/-- A write of DBG_RUNCTL: the pairs, then HALT, RESUME and STEP of UNIT. -/
def State.runCtl (s : State) (w : Nat) (x : UPort) : State :=
  let u := F.DBG_RUNCTL_UNIT.get w
  let s := (s.dbgPair 0 (w.testBit 30)).dbgPair 1 (w.testBit 31)
  let s := if u < 192 then s.fs F.DBG_RUNCTL_UNIT 0 u else s
  let u := s.fg F.DBG_RUNCTL_UNIT 0
  let s := if w.testBit 9 then s.dbgHalt u else s
  let s := if w.testBit 10 then s.dbgResume u else s
  if w.testBit 11 then s.dbgStep u x else s

/-! ### Fuses (R384) -/

/-- Whether a group's lock fuse is programmed. -/
def State.fuseLock (s : State) (g : Nat) : Bool :=
  if g = 0 then s.fb F.SEC_STATE_FW_KEY 0 else if g = 1 then s.fb F.SEC_STATE_DBG_KEY 0 else s.fb F.SEC_STATE_CEIL_LOCK 0
def State.setFuseLock (s : State) (g : Nat) : State :=
  if g = 0 then s.fs F.SEC_STATE_FW_KEY 0 1 else if g = 1 then s.fs F.SEC_STATE_DBG_KEY 0 1 else s.fs F.SEC_STATE_CEIL_LOCK 0 1

def groupWords (g : Nat) : Nat := if g = 2 then 2 else 12

/-- Words of a group whose read-back differed: open. -/
def State.fuseFree (s : State) (g : Nat) : State :=
  (List.range (groupWords g)).foldl (fun (s : State) i =>
    let (w, s) := s.freeWord
    { s with sec := { s.sec with fuse := mput 0 s.sec.fuse (16 * g + i) w.toNat } }) s

/-- A write of DBG_FUSE_CTL with GO: STAGE or BURN of the fields as they then read. `ok` is the read-back. -/
def State.fuseGo (s : State) (w : Nat) (ok : Bool) : State :=
  let s := s.imgWrite .DBG_FUSE_CTL 0 (maskPut (s.rr .DBG_FUSE_CTL 0) (BitVec.ofNat 32 w) (okMask .DBG_FUSE_CTL w)).toNat
  let result := fun (s : State) (n : Nat) => s.fs F.DBG_FUSE_CTL_RESULT 0 n
  if !w.testBit 31 then s
  else
    let g := s.fg F.DBG_FUSE_CTL_GROUP 0
    let op := s.fg F.DBG_FUSE_CTL_OP 0
    if s.dbgAt < 3 then result s 4
    else if s.fb F.SEC_STATE_SEALED 0 ∨ (op = 2 ∧ s.fuseLock g) then result s 2
    else if op = 1 then
      result { s with sec := { s.sec with
        staged := mput 0 s.sec.staged (16 * g + s.fg F.DBG_FUSE_CTL_WORD 0) (s.fg F.DBG_FUSE_DATA_DATA 0) } } 1
    else if op = 2 then
      if ok then
        let mine := fun (p : Nat × Nat) => p.1 / 16 == g
        let fuse := (s.sec.staged.filter mine).foldl (fun m p => mput 0 m p.1 p.2) s.sec.fuse
        result (({ s with sec := { s.sec with fuse := fuse, staged := s.sec.staged.filter (fun p => !mine p) } } : State).setFuseLock g) 1
      else result (s.fuseFree g) 3
    else s

/-- A write of DBG_FUSE_CTL under the level in force (R386, R384). -/
def State.fuseWrite (s : State) (w : Nat) (ok : Bool) : State := s.dbgDo (fun s => s.fuseGo w ok)

/-- STAGE: DBG_FUSE_CTL written with `w`, OP STAGE. -/
def execStage (w : Nat) (s : State) : Host.Outcome State Fault Refusal :=
  .next (if F.DBG_FUSE_CTL_OP.get w = 1 then s.fuseWrite w true else s)

/-- BURN: DBG_FUSE_CTL written with `w`, OP BURN; `ok` is the read-back. -/
def execBurn (w : Nat) (ok : Bool) (s : State) : Host.Outcome State Fault Refusal :=
  .next (if F.DBG_FUSE_CTL_OP.get w = 2 then s.fuseWrite w ok else s)

/-! ### Debug accesses (R386 - R388) -/

/-- What a debug access reaches (R104, R105). -/
inductive DbgTgt where
  | tcm (off : Nat)
  | rom
  | reg (off : Nat)
  | mem (a : Nat)
  | tile
  | bad
deriving DecidableEq, Repr

/-- The target of a device address. -/
def State.dpaTgt (s : State) (d : Nat) : DbgTgt :=
  if d < 0x1C0000000 then .mem d
  else if 0x1000000000 ≤ d ∧ d < 0x1003000000 then .mem d
  else if 0x1100000000 ≤ d ∧ d < 0x1103000000 then
    let u := (d - 0x1100000000) / 0x40000
    let o := d % 0x40000
    let q := s.redirected u
    if o < 0x10000 ∧ (s.ust q = 2 ∨ s.ust q = 3 ∨ s.ust q = 4) then .bad
    else if o < 0x30000 then .mem (dpaProg q + o) else if o < 0x30100 then .reg (0x440000 + 0x100 * u + (o - 0x30000)) else .bad
  else if 0x1200000000 ≤ d ∧ d < 0x1201800000 then .tile
  else if 0x2000000000 ≤ d ∧ d < 0x2002000000 then .reg (d - 0x2000000000)
  else if 0x3000000000 ≤ d ∧ d < 0x3000040000 then .tcm (d - 0x3000000000)
  else .bad

/-- The Windlass map (R105). -/
def State.dbgTgt (s : State) (a : DbgAcc) : DbgTgt :=
  let x := a.addr % 2 ^ 32
  let remap := s.fb F.SEC_REMAP_REMAP 0
  let low := fun (o : Nat) (tcm : Bool) => if tcm then DbgTgt.tcm o else if o < 0x10000 then .rom else .bad
  if x % 4 ≠ 0 then .bad
  else if x < 0x40000 then low x remap
  else if 0x10000000 ≤ x ∧ x < 0x10040000 then low (x - 0x10000000) (!remap)
  else if 0x1FF00000 ≤ x ∧ x < 0x1FF10000 then .rom
  else if 0x20000000 ≤ x ∧ x < 0x22000000 then .reg (x - 0x20000000)
  else if 0x40000000 ≤ x ∧ x < 0x80000000 then s.dpaTgt (a.base * 2 ^ 30 + (x - 0x40000000))
  else .bad

/-- Whether a target lies on an engine die. -/
def DbgTgt.engine : DbgTgt → Bool
  | .mem a => decide (0x1000000000 ≤ a)
  | .tile => true
  | .reg o => decide (0x400000 ≤ o) && decide (o < 0x44C000)
  | _ => false

/-- The value a debug read of a register returns: nothing is cleared, removed or latched (R387). -/
def State.peek (s : State) (off : Nat) : Word :=
  match regAt off with
  | some (.MT_NS, _) => s.time.ns
  | some (.DPR_LOG0, i) => BitVec.ofNat 32 (((mget [] s.integ.logs i).head?.map (·.w0)).getD 0)
  | some (.SMP_LOG0, _) => BitVec.ofNat 32 ((s.smp.log.head?.map (·.1)).getD 0)
  | some (.NET_CNT_LO, k) => BitVec.ofNat 32 (mget 0 s.net.cnt k)
  | some (.WH_ABSORB_LO, _) => BitVec.ofNat 32 (wrap 64 (s.wh.absorb / 2 ^ 32))
  | some (r, i) => s.inForce r i &&& ~~~(BitVec.ofNat 32 (accMask r (· == .wo)))
  | none => 0

/-- A debug write of a register (R388): an RWS register follows R114, a setup-class register takes the value at the next tick
boundary, any other at once. -/
def State.dbgWriteReg (s : State) (off w : Nat) (x : UPort) : State :=
  match regAt off with
  | none => s
  | some (r, i) =>
    if r = .DBG_STAT then (s.clearBits r i w).dbgNote
    else if r = .DBG_FUSE_CTL then s.fuseWrite w true
    else if s.dbgAt < 2 then s.dbgDenied
    else if r = .DBG_RUNCTL then (s.runCtl w x).dbgNote
    else if r = .DBG_FUSE_DATA then (s.imgWrite r i w).dbgNote
    else if secRcv r ∨ r = .SEC_REMAP then s
    else if (blockOf r).isSome then (s.putFields r i w).dbgNote
    else if setupClass r then
      let (g, s) := s.newGen
      let e : Entry := ⟨Code.DEBUG_WRITE, { src := 2, ring := 255, a := off, b := w }, g,
        s.hif.cmdSeq, s.time.next, s.time.next, false, false, true, false⟩
      { s with dueNext := s.dueNext ++ [e], hif := { s.hif with cmdSeq := s.hif.cmdSeq + 1 } }
    else (s.putReg r i w).dbgNote

/-- A debug write of a setup-class register at its boundary. -/
def applyDebugWrite (e : Entry) (s : State) : State :=
  match regAt e.cmd.a with
  | some (r, i) => (s.putReg r i e.cmd.b).noteChange e.gen Code.DEBUG_WRITE 2 true
  | none => s

/-- DEBUG_WRITE: a register write at a BAR0 offset through the debug port. -/
def execDebugWrite (off v dt : Nat) (s : State) : Host.Outcome State Fault Refusal :=
  .next (if s.dead then s
    else
      let s := s.elapse dt
      if off % 4 ≠ 0 then s else s.dbgWriteReg off (v % 2 ^ 32) {})

/-- The TCM of a pair. -/
def State.tcm (s : State) (pair : Nat) : Mem := if pair = 0 then s.sec.tcm0 else s.sec.tcm1
def State.setTcm (s : State) (pair : Nat) (m : Mem) : State :=
  if pair = 0 then { s with sec := { s.sec with tcm0 := m } } else { s with sec := { s.sec with tcm1 := m } }

/-- The data of the last debug access. -/
def State.dbgData (s : State) (w : Word) : State := { s with sec := { s.sec with data := w } }

/-- An access the level in force does not allow reads 0 and sets DENIED. -/
def State.dbgRefuse (s : State) : State := (s.dbgData 0).dbgDenied

/-- A debug read. The contents of the boot ROM, and the layout of a tile's SRAM, are open. -/
def State.dbgRead (s : State) (a : DbgAcc) : State :=
  let t := s.dbgTgt a
  let stat := t == .reg 0x142000
  if !stat && s.dbgAt == 0 then s.dbgRefuse
  else if s.standby && t.engine then s.dbgRefuse
  else match t with
    | .tcm o => s.dbgData (BitVec.ofNat 32 (memWord (s.tcm a.pair) o 4))
    | .reg o => s.dbgData (s.peek o)
    | .mem m => s.dbgData (BitVec.ofNat 32 (s.dpaWord m 4))
    | .bad => s.dbgData 0
    | _ =>
      let (w, s) := s.freeWord
      s.dbgData w

/-- A debug write. -/
def State.dbgWrite (s : State) (a : DbgAcc) : State :=
  match s.dbgTgt a with
  | .reg o => s.dbgWriteReg o (a.data % 2 ^ 32) {}
  | .bad => s
  | t =>
    if s.dbgAt < 3 then s.dbgRefuse
    else match t with
      | .tcm o => s.setTcm a.pair (memWrite (s.tcm a.pair) o (leBytes 4 a.data))
      | .mem m => (s.busWrite m (leBytes 4 a.data) 0).2
      | _ => s

/-- DBG_ACCESS (R386): an aligned 32-bit access into the Windlass map. In OFF the TAP offers none (R393). -/
def execDbgAccess (a : DbgAcc) (s : State) : Host.Outcome State Fault Refusal :=
  .next (if s.dead then s
    else
      let s := s.elapse a.dt
      if a.write then s.dbgWrite a else s.dbgRead a)

/-! ### The TAP (R395) -/

/-- IDCODE (R395). -/
def idcode : Word := 0x1#4 ++ 0x0192#16 ++ Config.manufacturer ++ 1#1

/-- BOUNDARY_SCAN_INSTRUCTION: 0 BYPASS, 1 IDCODE, 2 SAMPLE/PRELOAD, 3 EXTEST, 4 HIGHZ, 5 CLAMP, 6 DBG_ACCESS. -/
def execBoundaryScanInstruction (i : Nat) (s : State) : Host.Outcome State Fault Refusal :=
  let off := s.fg F.RW_PWR_STAT_STATE 0 == 3
  let ok := decide (i ≤ 1) || (!off && (i == 2 || i == 6
    || (s.ret.porLow && (i == 4 || ((i == 3 || i == 5) && !s.fb F.SEC_STATE_SEALED 0)))))
  .next (if ok then { s with sec := { s.sec with tap := i, data := if i = 1 then idcode else s.sec.data } }
    else if i ≤ 6 then { s.dbgDenied with sec := { s.sec with tap := 0 } }
    else { s with sec := { s.sec with tap := 0 } })

end Sys2Proof.Machine
end

