-- ==== Sys2Proof/Machine/Power.lean ====
section
/-! DEFINITION. Power states (R378 - R382) and what the Retention Well writes to QSPI NOR (R371, R372, R374). -/

namespace Sys2Proof.Machine

/-! ### The log in QSPI (R371, R372) -/

/-- Durable records join the current copy's log. -/
def State.appendLog (s : State) (l : List LogRec) : State :=
  let n := s.fg F.RW_STAT_COPY 0
  (s.setCopy n { s.curCopy with log := s.curCopy.log ++ l }).showLog

/-- Whether the Retention Well writes to QSPI: not while an image runs that has not committed (R374), nor before a settings copy exists. -/
def State.logging (s : State) : Bool := s.fwMode == 0 && s.curCopy.valid

/-- LOG_RECORD_DURABLE (R371): the oldest record not yet durable reaches the log; one that does not fit waits. -/
def execLogRecordDurable (s : State) : Host.Outcome State Fault Refusal :=
  .next (match s.nextRecord with
    | none => s
    | some r =>
      if !s.logging ∨ logBytes < s.curCopy.used + r.padded then s else (s.tookRecord r).appendLog [r])

/-- COMPACTION_START (R372): the log is more than COMPACT_PCT percent full, or the next record does not fit; deferred while OFF is being
entered (R382). -/
def execCompactionStart (s : State) : Host.Outcome State Fault Refusal :=
  .next (if s.logging ∧ !s.fb F.RW_STAT_COMPACTING 0 ∧ s.pwr ≠ 3
      ∧ !(s.fb F.RW_PWR_STAT_MOVING 0 && s.fg F.RW_PWR_STAT_TARGET 0 == 3)
      ∧ (s.fg F.RW_CTL_COMPACT_PCT 0 * logBytes < s.curCopy.used * 100
        ∨ s.nextRecord.any (fun r => decide (logBytes < s.curCopy.used + r.padded))) then s.fs F.RW_STAT_COMPACTING 0 1 else s)

/-- COMPACTION_COMPLETE (R372): the new copy's snapshot stands at the highest durable generation. -/
def execCompactionComplete (s : State) : Host.Outcome State Fault Refusal :=
  .next (if !s.fb F.RW_STAT_COMPACTING 0 then s
    else
      let s := s.newCopy s.curCopy.schema (s.fg F.RW_DURABLE_GEN 0) s.curCopy.state []
      (s.fs F.RW_STAT_COMPACTING 0 0).fadd F.RW_LOG_COMPACTIONS 0 1)

/-- Every pending record that follows the durable ones is written. -/
def State.flushLog (s : State) : State :=
  if !s.logging then s
  else
    let r := s.takeRun s.ret.pend.length []
    r.2.appendLog r.1

/-! ### PWR_SET (R379) -/

/-- RW_PWR_STAT.ARMED and TARGET. -/
def State.showPwr (s : State) : State :=
  let l := (s.ret.pwr.toList ++ s.sched ++ s.dueNext).filter (fun e => e.code == Code.PWR_SET)
  match l with
  | e :: _ => (s.fs F.RW_PWR_STAT_ARMED 0 (b2n !s.fb F.RW_PWR_STAT_MOVING 0)).fs F.RW_PWR_STAT_TARGET 0 e.cmd.a
  | [] => s.fs F.RW_PWR_STAT_ARMED 0 0

/-- RUN named on a device that holds HALT or FULL and does not meet the Twin entry (R394). -/
def State.pwrDebug (s : State) (a : Nat) : Bool :=
  let r := s.twRole
  a == 0 && decide (2 ≤ s.fg F.DBG_STAT_LEVEL 0) && s.level != 4 && !(r == 3 || r == 4 || r == 5)

/-- The refusals that also hold at the boundary. -/
def State.pwrLate (s : State) (a : Nat) : Bool := (s.level == 4 && a != 3) || s.pwrDebug a

def chkPwrSet (c : Cmd) (s : State) : Chk :=
  if 3 < c.a then (Sts.CMD_RANGE, [])
  else if s.armedAny Code.PWR_SET ∨ s.ret.pwr.isSome ∨ s.fb F.RW_PWR_STAT_MOVING 0 ∨ s.fg F.RW_STAT_STAGE 0 ≠ 3
      ∨ s.pwrLate c.a then (Sts.PWR_STATE, [])
  else Chk.ok

/-- At its boundary: the state in force already is OK without effect; leaving RUN an ACTIVE twin makes a voluntary handover
first, and a STANDBY becomes SUSPECT. The transition starts at POWER_TRANSITION_START. -/
def applyPwrSet (e : Entry) (s : State) : State :=
  if s.pwrLate e.cmd.a then (s.finish e Sts.PWR_STATE [] false).showPwr
  else if s.pwr = e.cmd.a then (s.finish e Sts.OK [] false).showPwr
  else
    let leave := s.pwr == 0
    let ho := leave && s.activePair
    let s := { s with ret := { s.ret with pwr := some e, pwrHo := ho } }
    let s := if ho then s.hoStart else if leave then s.standbySuspect else s
    s.showPwr

def execPwrSet (c : Cmd) (s : State) : Host.Outcome State Fault Refusal :=
  .next (submit Code.PWR_SET chkPwrSet c s).showPwr

/-! ### Transitions (R380) -/

/-- The gate of the outputs in a power state (R378). -/
def pwrGate (a : Nat) : Nat := min a 3

/-- The transition that starts at the present boundary, where no handover is awaited. -/
def State.pwrReady (s : State) : Option Entry :=
  if s.ret.pwrHo ∨ s.fb F.RW_PWR_STAT_MOVING 0 then none else s.ret.pwr

/-- At the boundary T the outputs concerned begin to ramp; leaving STANDBY they wait for the reload. -/
def State.pwrRamp (s : State) : State :=
  match s.pwrReady with
  | some e => if s.standby ∧ e.cmd.a < 2 then s else s.setGate (pwrGate e.cmd.a)
  | none => s

/-- POWER_TRANSITION_START (R380), at a tick boundary. STATE shows the new state from T; OFF from T + 1 tick. The command ends
here, but for OFF. -/
def execPowerTransitionStart (s : State) : Host.Outcome State Fault Refusal :=
  .next (match s.pwrReady with
    | none => s
    | some e =>
      if s.now ≠ tickStart (tickAt s.now) then s
      else
        let a := e.cmd.a
        let s := s.pwrRamp
        let s := { s with ret := { s.ret with
          pwr := if a = 3 then some e else none, moveFrom := s.pwr, moveTick := s.time.tick } }
        let s := ((s.fs F.RW_PWR_STAT_MOVING 0 1).fs F.RW_PWR_STAT_TARGET 0 a).fs F.RW_PWR_STAT_ARMED 0 0
        let s := if a = 3 then s else (s.fs F.RW_PWR_STAT_STATE 0 a).finish e Sts.OK [] false
        s.dbgRelevel)

/-- At each tick start: a transition between RUN and QUIET ends after its tick, and OFF is in force from T + 1 tick. -/
def State.pwrTick (s : State) : State :=
  if !s.fb F.RW_PWR_STAT_MOVING 0 ∨ s.time.tick ≤ s.ret.moveTick then s
  else
    let a := s.fg F.RW_PWR_STAT_TARGET 0
    if a = 3 then s.fs F.RW_PWR_STAT_STATE 0 3
    else if a < 2 ∧ s.ret.moveFrom < 2 then s.fs F.RW_PWR_STAT_MOVING 0 0
    else s

/-- ISLANDS_OFF (R380): the islands of RG1 - RG5 lose their memories and the hub clocks drop. -/
def execIslandsOff (s : State) : Host.Outcome State Fault Refusal :=
  .next (if !s.fb F.RW_PWR_STAT_MOVING 0 ∨ s.fg F.RW_PWR_STAT_TARGET 0 ≠ 2 ∨ s.time.tick ≤ s.ret.moveTick then s
    else
      let s := ((List.range 20).map (· + 4)).foldl (fun (s : State) c =>
        let s := (s.tileSilent c).pmpReset c []
        if s.clState c = 1 then s.fs F.CL_STAT_STATE c 0 else s) s
      let s := ((List.range 5).map (· + 1)).foldl (fun (s : State) g => (s.regionLost g).fs F.RG_PWR_ON g 0) s
      let s := (s.fs F.RW_PWR_STAT_ISLANDS 0 1).fs F.RW_PWR_STAT_MOVING 0 0
      { s with ret := { s.ret with islOff := true } })

/-- A unit of RG1 - RG5 after STANDBY: reloaded, it cold-starts (R120). -/
def State.coldReload (s : State) (u : Nat) : State :=
  (((s.unitReset u).reloadUnit u).fs F.UNIT_DONE_LAST_DONE u 0xFFFFFFFF)

/-- STANDBY_EXIT_RELOAD_COMPLETE (R380): units and tiles run again; the outputs ramp in over the next tick. -/
def execStandbyExitReloadComplete (s : State) : Host.Outcome State Fault Refusal :=
  .next (if !s.fb F.RW_PWR_STAT_MOVING 0 ∨ s.ret.moveFrom ≠ 2 ∨ 2 ≤ s.pwr ∨ s.fg F.RW_PWR_STAT_ISLANDS 0 ≠ 0x3F then s
    else
      let s := ((List.range 160).map (· + 32)).foldl (fun (s : State) u =>
        if (s.unit u).prog.isSome ∨ s.role u ≠ u then s.coldReload u else s) s
      let cs := (List.range 20).map (· + 4)
      let s : State := cs.foldl (fun (s : State) c => s.pmpRestart c) (s.clStart cs)
      let s := (s.setGate (pwrGate s.pwr)).fs F.RW_PWR_STAT_MOVING 0 0
      { s with aud := { s.aud with gateTick := s.time.tick + 1 }, ret := { s.ret with islOff := false } })

/-- OFF_ENTRY_COMPLETE (R380): every pending record is durable, the command ends, and ALIVE stops at its level. -/
def execOffEntryComplete (s : State) : Host.Outcome State Fault Refusal :=
  .next (match s.ret.pwr with
    | none => s
    | some e =>
      if s.pwr ≠ 3 ∨ !s.fb F.RW_PWR_STAT_MOVING 0 then s
      else
        let s := (s.finish e Sts.OK [] false).flushLog
        let s := (s.fs F.SMP_STAT_ALIVE_RUN 0 0).fs F.RW_PWR_STAT_MOVING 0 0
        { s with smp := { s.smp with aliveAt := none, hbAt := none }, ret := { s.ret with pwr := none } })

end Sys2Proof.Machine
end

