-- ==== Sys2Proof/Machine/Start.lean ====
section
/-! DEFINITION. POR_N and start-up (R362 - R366, R373 - R377, R402, R404, R437): what a reset leaves, the choice of the image and
of the settings copy, and the two stages of the restore. -/

namespace Sys2Proof.Machine

/-! ### POR_N (R362, R377, R442) -/

/-- Registers that fuses or the bank select block hold: they read the same after every reset. -/
def porKeeps : RegId → Bool
  | .SEC_STATE | .SEC_UID | .SEC_HWTYPE | .SEC_FW_VER => true
  | _ => false

/-- The pending records a reset leaves: those of the pending ring, and after a trial or auto image that has not committed only
those older than it (R371, R374). -/
def State.porPend (s : State) : List LogRec :=
  s.ret.pend.filter (fun r => s.ret.ring.contains r.gen
    && (!(s.fwMode == 1 || s.fwMode == 2) || s.ret.preTrial.contains r.gen))

/-- The device after a reset (R362): the always-on SRAM, QSPI NOR and the fuses keep their contents, and so do host memory and
the die's temperature; all else starts afresh. -/
def State.afterPor (s : State) (low : Bool) : State :=
  let p := s.porPend
  let t : State := { State.reset with
    regs := s.regs.filter (fun x => (regOfKey x.1).any porKeeps), free := s.free, pending := s.pending,
    ret := { RwSt.reset with
      aonValid := s.ret.aonValid, copy0 := s.ret.copy0, copy1 := s.ret.copy1, pend := p, ring := p.map (·.gen),
      sramGen := s.ret.sramGen, sramDur := s.ret.sramDur, sramCnt := s.ret.sramCnt, sramJrn := s.ret.sramJrn,
      recLevel := s.ret.recLevel, recOff := s.ret.recOff, porLow := low },
    sec := { SecSt.reset with
      bankA := s.sec.bankA, bankB := s.sec.bankB, recOk := s.sec.recOk, recSeq := s.sec.recSeq, boot := s.sec.boot,
      nxt := s.sec.nxt, nxtMode := s.sec.nxtMode, fuse := s.sec.fuse },
    sp := { SpSt.reset with
      msgs := s.sp.msgs.map (fun x => (x.1, { Msg.empty with slot := x.2.slot, flash0 := x.2.flash0, flash1 := x.2.flash1 })) },
    hif := { HifSt.reset with hostMem := s.hif.hostMem },
    smp := { SmpSt.reset with temps := s.smp.temps } }
  (t.fs F.SEC_FW_STAT_STATE_A 0 (s.fwState 0)).fs F.SEC_FW_STAT_STATE_B 0 (s.fwState 1)

/-- The falling edge of a reset: the reset record latches the package level and whether the device was in OFF (R368). -/
def State.porFall (s : State) : State :=
  let off := s.pwr == 3
  let l := s.level
  ({ s with ret := { s.ret with recLevel := l, recOff := off } } : State).afterPor true

/-- POR_N_ASSERT (R442): POR_N low for `low` ns. Between 1 µs and 10 µs the device may or may not be reset (assumption 1). -/
def execPorNAssert (low : Nat) (s : State) : Host.Outcome State Fault Refusal :=
  .next (if low < 1000 then s
    else if low < 10000 then
      let (w, s) := s.freeWord
      if w.getLsbD 0 then s.porFall else s
    else s.porFall)

/-- A word of an integrator's fuse group (R384). -/
def State.fuseWord (s : State) (group w : Nat) : Word := BitVec.ofNat 32 (mget 0 s.sec.fuse (16 * group + w))

/-- POR_N_RELEASE (R363): the straps are sampled, Media Time starts at 0, the fuses are sampled, and the cause of the reset is
shown (R377). With TEST_EN = 1 the device does not start (R430): it stays as POR_N left it. -/
def execPorNRelease (straps : Nat) (s : State) : Host.Outcome State Fault Refusal :=
  .next (if !s.ret.porLow then s
    else if straps.testBit 1 then { s with ret := { s.ret with straps := straps } }
    else
      let warm := s.ret.aonValid
      let n := if warm then s.ret.sramCnt + 1 else 0
      let cause := if !warm then 0 else if s.ret.recOff then 2 else if s.ret.recLevel = 4 then 3 else 1
      let l := if warm then s.ret.recLevel else 0
      let s := s.afterPor false
      let s := { s with ret := { s.ret with sramCnt := n, straps := straps } }
      let s := ((s.fs F.RW_CAUSE_CAUSE 0 cause).fs F.RW_CAUSE_LEVEL 0 l).fs F.RW_CAUSE_RESETS 0 (satU 16 n)
      let s := s.fs F.RW_STAT_WARM 0 (b2n warm)
      (s.rw .FLT_FUSE0 0 (s.fuseWord 2 0)).rw .FLT_FUSE1 0 (s.fuseWord 2 1))

/-- AON_VALID_CLEAR (R362). -/
def execAonValidClear (s : State) : Host.Outcome State Fault Refusal :=
  .next { s with ret := { s.ret with aonValid := false } }

/-! ### The boot ROM (R364, R402, R437) -/

/-- Start-up goes on: POR_N is high, no thermal hold, no failed hub or LPDDR checker (R310), no RECOVERY. -/
def State.booting (s : State) : Bool :=
  !s.ret.porLow && !s.ret.hold && !s.fb F.DPR_BIST_HUB_FAIL 0 && s.fwMode != 3

/-- THERMAL_HOLD (R437): a die sensor reads 130 °C or more. -/
def execThermalHold (s : State) : Host.Outcome State Fault Refusal :=
  .next (if s.ret.boot = 0 ∧ !s.ret.porLow ∧ s.fwMode ≠ 3 ∧ s.smp.temps.any (fun p => decide (1300 ≤ p.2)) then
    { s with ret := { s.ret with hold := true } } else s)

/-- THERMAL_HOLD_END (R437): every sensor reads below 127 °C. -/
def execThermalHoldEnd (s : State) : Host.Outcome State Fault Refusal :=
  .next (if s.smp.temps.all (fun p => decide (p.2 < 1270)) then { s with ret := { s.ret with hold := false } } else s)

/-- RECOVERY (R405): ALIVE is held low. -/
def State.toRecovery (s : State) : State :=
  let s := (s.fs F.SEC_FW_STAT_MODE 0 3).fs F.SMP_STAT_ALIVE_RUN 0 0
  { s with sec := { s.sec with order := [] }, smp := { s.smp with hbAt := none, aliveAt := none, alive := false } }

/-- A bank has failed R397 at boot. -/
def State.rejectBank (s : State) (b : Nat) : State :=
  ((s.setFwState b 5).fs F.SEC_FW_STAT_REJ_CAUSE 0 1).fs F.SEC_FW_STAT_REJ_BANK 0 b

/-- The banks of the order that have not been tried (R402): the first that verifies is selected; none, RECOVERY. -/
def State.tryBanks (s : State) : List (Nat × Nat) → State
  | [] => s.toRecovery
  | (b, m) :: t =>
    let st := s.fwState b
    if st = 0 ∨ st = 1 ∨ st = 5 ∨ st = 6 then s.tryBanks t
    else if s.fwVerify b = Sts.OK then
      let s := (s.fs F.SEC_FW_STAT_RUNNING 0 b).fs F.SEC_FW_STAT_MODE 0 m
      { s with sec := { s.sec with order := t }, ret := { s.ret with boot := 1 } }
    else (s.rejectBank b).tryBanks t

/-- The order of R402, each bank once and with the mode it would run in. -/
def State.bootOrder (s : State) : List (Nat × Nat) :=
  let b := if s.sec.recOk then s.sec.boot else 0
  let m := if s.sec.recOk then s.sec.nxtMode else 0
  let l := (if m = 0 then [] else [(s.sec.nxt, m)]) ++ [(b, 0), (1 - b, 1)]
  l.foldl (fun a x => if a.any (fun y => y.1 == x.1) then a else a ++ [x]) []

/-- FIRMWARE_BANK_SELECT (R402): NEXT is consumed, then the banks are tried in order. -/
def execFirmwareBankSelect (s : State) : Host.Outcome State Fault Refusal :=
  .next (if !s.booting ∨ s.ret.boot ≠ 0 then s
    else
      let l := s.bootOrder
      (if s.sec.nxtMode = 0 then s else s.bankRecord { s.sec with nxtMode := 0 }).tryBanks l)

/-- TCM_LOAD_AND_REMAP (R364): the TCMs are written from a second read, whose digest agrees when `ok`; REMAP is set, and the
firmware, its heartbeat and ALIVE start. A digest that differs is a failed verification. -/
def execTcmLoadAndRemap (ok : Bool) (s : State) : Host.Outcome State Fault Refusal :=
  .next (if !s.booting ∨ s.ret.boot ≠ 1 ∨ !s.fb F.DPR_BIST_DONE 0 then s
    else
      let b := s.fwRunning
      if !ok then
        (({ s with ret := { s.ret with boot := 0 } } : State).rejectBank b).tryBanks s.sec.order
      else
        let h := s.fwRead b 0 512
        let n0 := leAt h 0x34 4
        let s := { s with
          sec := { s.sec with
            tcm0 := memWrite [] 0 (s.fwRead b 512 n0), tcm1 := memWrite [] 0 (s.fwRead b (512 + n0) (leAt h 0x38 4)),
            runDigest := beAt h 0x40 48 },
          smp := { s.smp with hbAt := some s.time.up, aliveAt := some (s.smp.aliveAt.getD s.time.up) },
          ret := { s.ret with boot := 2 } }
        (s.remap 1).fs F.SMP_STAT_ALIVE_RUN 0 1)

/-! ### The settings copy (R373, R375, R377) -/

/-- The newer of two copies (R369). -/
def Copy.newer (a b : Copy) : Bool := decide (0 < sext 32 (a.seq + 2 ^ 32 - b.seq))

/-- Whether the running image can import a copy. -/
def State.imports (s : State) (c : Copy) : Bool :=
  let b := s.fwRunning
  c.valid && decide (s.fwImport b ≤ c.schema) && decide (c.schema ≤ s.fwSchema b)

/-- The number of the copy that start-up takes. -/
def State.pickCopy (s : State) : Option Nat :=
  let a := s.imports s.ret.copy0
  let b := s.imports s.ret.copy1
  if a && b then some (if s.ret.copy1.newer s.ret.copy0 then 1 else 0)
  else if a then some 0 else if b then some 1 else none

/-- A valid copy exists, but none that can be imported (R404). -/
def State.importFails (s : State) : Bool := (s.ret.copy0.valid || s.ret.copy1.valid) && s.pickCopy.isNone

/-- The records that follow generation `g` without a gap. -/
def runFrom (g : Nat) : List LogRec → List LogRec
  | [] => []
  | r :: t => if r.gen = nextGen g then r :: runFrom r.gen t else []

/-- The last generation of a run that follows `g`. -/
def lastGen (g : Nat) (l : List LogRec) : Nat := (l.getLast?.map (·.gen)).getD g

/-- The next `n` generations after `g`. -/
def gensAfter (g : Nat) : Nat → List Nat
  | 0 => []
  | n + 1 => nextGen g :: gensAfter (nextGen g) n

/-- The SRAM's contents are discarded (R368). -/
def State.dropSram (s : State) : State :=
  { s with ret := { s.ret with pend := [], ring := [], sramGen := 0, sramDur := 0, sramJrn := [] } }

/-- Markers for generations assigned but not replayed, so that the log runs on without a gap (R371). -/
def State.gapRec (s : State) (g : Nat) : LogRec :=
  match s.ret.sramJrn.find? (fun e => e.gen == g) with
  | some e => ⟨g, e.code, e.source, e.sec, e.ns, false, s.time.up, []⟩
  | none => ⟨g, 0, 0, 0, 0, false, s.time.up, []⟩

/-- The journal entry of a log record (R377). -/
def LogRec.jEntry (r : LogRec) : JEntry := ⟨r.gen, r.sec, r.ns, r.code, r.source, 0, 0, 0, 255⟩

/-- The settings to restore, from copy `n` (R373): snapshot, log and after a warm reset the pending ring, each as far as the
generations run without a gap. -/
def State.takeCopy (s : State) (n : Nat) (warm : Bool) : State :=
  let c := if n = 0 then s.ret.copy0 else s.ret.copy1
  let log := runFrom c.baseGen c.log
  let d := lastGen c.baseGen log
  let pend := runFrom d s.ret.pend
  let g := lastGen d pend
  let top := if warm then s.ret.sramGen else g
  let gap := gensAfter g (if warm then (top + (2 ^ 32 - 1) - g) % (2 ^ 32 - 1) else 0)
  let replayed := pend.foldl (fun m r => retApply m r.items) (log.foldl (fun m r => retApply m r.items) c.snap)
  let trial := s.fwMode != 0
  let c := { c with log := if trial then log else log ++ pend }
  let journal := if warm then s.ret.sramJrn.map (fun e => if gap.contains e.gen then { e with outcome := 1 } else e)
    else (log.drop (log.length - 256)).map LogRec.jEntry
  let kept := (if trial then pend else []) ++ gap.map s.gapRec
  let s := s.setCopy n c
  let s := { s with
    hif := { s.hif with journal := journal },
    ret := { s.ret with
      replay := replayed, last := replayed, pend := kept, ring := kept.map LogRec.gen, sramGen := top, sramDur := g,
      sramJrn := journal, preTrial := if trial then kept.map LogRec.gen else [] } }
  let s := (((s.fs F.RW_STAT_COPY 0 n).fs F.RW_SCHEMA_SCHEMA 0 c.schema).fs F.RW_DURABLE_GEN 0 g).fs F.HIF_CFG_GEN_GEN 0 top
  s.showLog.showPending

/-- The factory MAC addresses, which come from the unique ID by a function the spec does not give (log entry 73). -/
def State.factoryMacs (s : State) : State :=
  (List.range 8).foldl (fun t p =>
    let m := Config.factoryMac (leVal s.uidBytes) p
    (t.rw .NET_MAC_LO p (m.setWidth 32)).rw .NET_MAC_HI p ((m >>> 32).setWidth 32)) s

/-- Start-up without a settings copy (R10, R375): factory values; generations go on from the highest assigned. -/
def State.factoryStart (s : State) : State :=
  let g := s.ret.sramGen
  let s := { s.factoryMacs with
    hif := { s.hif with journal := s.ret.sramJrn },
    ret := { s.ret with replay := [], last := [], pend := [], ring := [], sramDur := g } }
  ((s.fs F.RW_STAT_FACTORY 0 1).fs F.RW_DURABLE_GEN 0 g).fs F.HIF_CFG_GEN_GEN 0 g

/-- LPDDR_TRAINING (R363, R368, R373, R445): where a memory that is not supported does not train, start-up stops as for a failed
LPDDR checker (assumption 77). The SRAM is checked, its header's CRC holding when `ok`, and the settings copy is chosen. Where no
valid copy can be imported start-up waits for SETTINGS_IMPORT_FAILURE. -/
def execLpddrTraining (x : LpddrTrain) (s : State) : Host.Outcome State Fault Refusal :=
  .next (if !s.booting ∨ s.ret.boot ≠ 2 then s
    else if !x.trains then s.fs F.DPR_BIST_HUB_FAIL 0 1
    else
      let warm := s.fb F.RW_STAT_WARM 0 && x.ok
      let s := if warm then s else s.dropSram
      let s := { s with ret := { s.ret with aonValid := true } }
      if s.importFails then s
      else
        let s := match s.pickCopy with
          | some n => s.takeCopy n warm
          | none => s.factoryStart
        { s with ret := { s.ret with boot := 3 } })

/-- SETTINGS_IMPORT_FAILURE (R404): the bank is REJECTED-SETTINGS, pair 1 is halted, and the boot ROM goes on with the next bank
of the order. -/
def execSettingsImportFailure (s : State) : Host.Outcome State Fault Refusal :=
  .next (if !s.booting ∨ s.ret.boot ≠ 2 ∨ !s.importFails then s
    else
      let b := s.fwRunning
      let s := (((s.setFwState b 6).fs F.SEC_FW_STAT_REJ_CAUSE 0 2).fs F.SEC_FW_STAT_REJ_BANK 0 b).fs
        F.SEC_FW_STAT_RESTARTED 0 1
      ({ s with ret := { s.ret with boot := 0 } } : State).tryBanks s.sec.order)

/-! ### The restore (R363) -/

/-- The fields of a Kept register that are restored: its RW and RWS fields but ARM and the targets of an injection. -/
def keptMask (r : RegId) : Nat :=
  let m := accMask r (fun a => a == .rw || a == .rws)
  if r = .WH_CLKOUT_PHASE then 2 ^ 32 - 1
  else if r = .SMP_FAM then m &&& (2 ^ 32 - 1 - F.SMP_FAM_INJ_SUBJ.put 0 (2 ^ 32 - 1) - F.SMP_FAM_INJ_INST.put 0 (2 ^ 32 - 1))
  else if armRegs.contains r then m % 2 ^ 31 else m

/-- Put back a Kept register word, shadow and active register together. -/
def State.restoreReg (s : State) (r : RegId) (i w : Nat) : State :=
  let v := BitVec.ofNat 32 w
  let m := keptMask r
  let t := (s.rw r i (maskPut (s.rr r i) v m)).setShw r i (maskPut (s.shw r i) v (rwsMask r &&& m))
  let t := if r = .DPR_CISWIN ∨ r = .CL_CTL then t else s.afterPut r i w t
  if r = .TDM_CTL ∨ r = .TDM_FRAME then t.afterGo r i else t

/-- Write an entry into both banks of a table of `n` entries. -/
def putBoth {α : Type} [DecidableEq α] (d : α) (n : Nat) (m : AMap α) (i : Nat) (v : α) : AMap α := mput d (mput d m i v) (n + i) v

/-- Put back an item that is a number. -/
def State.restoreNum (s : State) (c i v : Nat) : State :=
  match c with
  | 0 => match regOfKey i with
    | some r => s.restoreReg r (i % 2048) v
    | none => s
  | 1 => { s with aud := { s.aud with rt := putBoth 0 4096 s.aud.rt i v } }
  | 2 => { s with aud := { s.aud with map := putBoth 0 1024 s.aud.map i v } }
  | 3 => { s with aud := { s.aud with xp := putBoth 0 (24 * 49152) s.aud.xp i (BitVec.ofNat 32 v) } }
  | 4 => { s with aud := { s.aud with ow := putBoth 0 1152 s.aud.ow i (BitVec.ofNat 32 v) } }
  | 5 => { s with drv := { s.drv with dc := putBoth 0 192 s.drv.dc i v } }
  | 6 => { s with drv := { s.drv with ln := putBoth lineFactory 192 s.drv.ln i v } }
  | 7 => { s with net := { s.net with fwd := putBoth 0 4096 s.net.fwd i v } }
  | 14 => s.setMsg i { s.msg i with slot := v }
  | _ => s

/-- Put back a stream record (R287). -/
def State.restoreStream (s : State) (tx : Bool) (n : Nat) (b : List Byte) : State :=
  if tx then (s.setTxs n { Stream.none with img := b }).convSet (grpKey true 1 n) (streamConv false b) false
  else (s.setRxs n { Stream.none with img := b }).convSet (grpKey false 1 n) (streamConv (!rxSync b) b) (!rxSync b)

/-- Put back a Line Watch baseline (R212). -/
def State.restoreBase (s : State) (c i : Nat) (l : List ZPoint) : State :=
  let f := fun (p : Pilot) => { p with base := l.head? }
  if c = 11 then { s with drv := { s.drv with hf := mmod Pilot.reset s.drv.hf i f } }
  else if c = 12 then { s with drv := { s.drv with lf := mmod Pilot.reset s.drv.lf i f } }
  else { s with drv := { s.drv with swBase := mset false s.drv.swBase i l } }

/-- Put back one item of the retained state. -/
def State.restoreItem (s : State) (k : Nat) (x : RetItem) : State :=
  let c := k / 2 ^ 40
  let i := k % 2 ^ 40
  match x with
  | .num v => s.restoreNum c i v
  | .prog p => s.putProg i p
  | .bytes b => s.restoreStream (c == 10) i b
  | .pts l => s.restoreBase c i l

/-- The registers of stage 1: twin, Standpipe, drive ports and Float, and the clusters of RG0 (R363). -/
def stage1Reg (r : RegId) (i : Nat) : Bool :=
  match r with
  | .TW_CTL | .TW_TIMERS | .SP_CTL | .SP_TIMING | .SP_ZONE | .SP_WATCH_A | .SP_WATCH_B | .DP_CTL | .DP_MOD | .DP_BOOST | .BG_CTL
  | .BG_RAIL | .FLT_CTL | .FLT_GRP | .FLT_REL => true
  | .CL_CTL | .CL_MIX_CTL => decide (i < 4)
  | .UNIT_CTL => decide (i < 32)
  | _ => false

/-- Whether an item belongs to stage 1. -/
def stage1Item (k : Nat) (x : RetItem) : Bool :=
  let i := k % 2 ^ 40
  match k / 2 ^ 40, x with
  | 0, _ => (regOfKey i).any (fun r => stage1Reg r (i % 2048))
  | 1, .num v => rtOut v && rtType v == 7
  | 3, _ => decide (i / 49152 < 4)
  | 4, _ => decide (i / 48 < 4)
  | 8, _ => decide (i < 32)
  | c, _ => c == 2 || c == 5 || c == 6 || c == 14

/-- Put back the items of a stage, in the order of their classes. -/
def State.restoreAll (s : State) (p : Nat → RetItem → Bool) : State :=
  (s.ret.replay.filter (fun x => p x.1 x.2)).foldl (fun s x => s.restoreItem x.1 x.2) s

/-- R376 at one group: a stored-energy limit above its ceiling takes the ceiling. -/
def State.clampGrp (s : State) (g : Nat) : State :=
  let c := s.fg F.FLT_FUSE0_E_STORE_CEIL 0
  let v := s.fg F.FLT_GRP_E_STORE_MAX g
  if v ≠ 0xFFFF ∧ c < v then
    let s := s.fs F.FLT_GRP_E_STORE_MAX g c
    (s.setShw .FLT_GRP g (s.rr .FLT_GRP g)).fs F.RW_STAT_CLAMPED 0 1
  else s

/-- R376 at one channel: an enabled channel that fails R200 is restored with EN = 0. -/
def State.clampCh (s : State) (c : Nat) : State :=
  let e := s.dcAt s.drv.act c
  let lim := min (s.eRelOf (chGrp c)) (s.fg F.FLT_FUSE0_E_RELEASE_CEIL 0)
  if dcEn e ∧ !releaseOk (s.railMaxOf (chGrp c)) (lnTrip (s.lnAt s.drv.act c)) (s.fg F.FLT_CTL_CELL_DELAY 0) lim then
    ({ s with drv := { s.drv with dc := mput 0 s.drv.dc (192 * s.drv.act + c) (e % 2 ^ 63) } } : State).fs F.RW_STAT_CLAMPED 0 1
  else s

/-- The drive channels take the gains and voltages of the restored banks. -/
def State.startCh (s : State) (c : Nat) : State :=
  let e := s.dcE c
  s.setCh c { s.ch c with g := Ramp.flat (dcGain e), v := Ramp.flat (s.vfsOf (chGrp c) e) }

/-- The messages whose slot in use holds a valid copy are present; `ddr` copies them to LPDDR (R365). -/
def State.startMsgs (s : State) (ddr : Bool) : State :=
  (s.sp.msgs.map (·.1)).foldl (fun s m =>
    let d := (s.msg m).inUse
    if msgOk m d then (if ddr then s.setMsg m { s.msg m with ddr := d } else s).showMsg m ddr else s) s

/-- HUB_SRAM_INIT (R311, R363). -/
def execHubSramInit (s : State) : Host.Outcome State Fault Refusal :=
  .next (if !s.booting ∨ s.ret.boot ≠ 3 then s
    else ({ s with ret := { s.ret with boot := 4 } } : State).clStart [0, 1, 2, 3])

/-- LPDDR_ZERO_FILL_COMPLETE (R311): stage 1 follows. -/
def execLpddrZeroFillComplete (s : State) : Host.Outcome State Fault Refusal :=
  .next (if !s.booting ∨ s.ret.boot ≠ 4 then s
    else ({ s with ret := { s.ret with boot := 5 } } : State).fs F.RW_STAT_STAGE 0 1)

/-- STAGE_1_COMPLETE (R363): the items of stage 1 are in force, within the fuse ceilings (R376). -/
def execStage1Complete (s : State) : Host.Outcome State Fault Refusal :=
  .next (if !s.booting ∨ s.ret.boot ≠ 5 then s
    else
      let was := (List.range 4).filter (fun c => s.fb F.CL_CTL_EN c)
      let s := (s.restoreAll stage1Item).startMsgs false
      let s := (List.range 192).foldl State.clampCh ((List.range 48).foldl State.clampGrp s)
      let s := s.dcList.foldl State.startCh s
      let s := ((List.range 4).foldl (fun (s : State) c => s.clEnable c (was.contains c)) s).clStart [0, 1, 2, 3]
      ({ s with ret := { s.ret with boot := 6 } } : State).fs F.RW_STAT_STAGE 0 2)

/-- STANDPIPE_READY (R365). -/
def execStandpipeReady (s : State) : Host.Outcome State Fault Refusal :=
  .next (if !s.booting ∨ s.ret.boot ≠ 6 then s
    else (({ s with ret := { s.ret with boot := 7 } } : State).fs F.SP_STAT_READY 0 1).fs
      F.RW_TIMES_READY_MS 0 (satU 16 (s.time.up / msNs)))

/-- The first settings copy of a device without one, and the commit of an image in auto mode (R372, R375, R403). -/
def State.settleCopies (s : State) : State :=
  let s := if s.fwMode = 0 ∧ !s.ret.copy0.valid ∧ !s.ret.copy1.valid then
      ((s.setCopy 0 ⟨true, s.runSchema, 0, s.fg F.RW_DURABLE_GEN 0, [], []⟩).fs F.RW_STAT_COPY 0 0).fs
        F.RW_SCHEMA_SCHEMA 0 s.runSchema
    else s
  if s.fwMode = 2 then
    let s := s.commitBank s.fwRunning
    let (g, s) := s.newGen
    s.noteChange g Code.FW_COMMIT 3 false
  else s

/-- STAGE_2_COMPLETE (R363): every other item is in force, and the settings are valid for release, but on a device that has
none and no accepted GO (R375). -/
def execStage2Complete (s : State) : Host.Outcome State Fault Refusal :=
  .next (if !s.booting ∨ s.ret.boot ≠ 7 then s
    else
      let s := (s.restoreAll (fun k x => !stage1Item k x)).startMsgs true
      let s := (s.clStart (List.range 24)).showSpares
      let s := { s with
        ret := { s.ret with boot := 8 }, time := { s.time with settings := !s.fb F.RW_STAT_FACTORY 0 || s.hifRun } }
      let s := (s.fs F.RW_STAT_STAGE 0 3).fs F.RW_TIMES_RESTORE_MS 0 (satU 16 (s.time.up / msNs))
      s.showVes.settleCopies)

end Sys2Proof.Machine
end

