-- ==== Sys2Proof/Machine/Apply.lean ====
section
/-! DEFINITION. The command catalogue as the machine uses it (R286): the effect of each command at its instant, and the arrival
of a command whose code a descriptor or a twin-link message gives. -/

namespace Sys2Proof.Machine

/-! ### Effects, by chapter -/

def effects1 : List (Nat × (Entry → State → State)) :=
  [(Code.NOP, applyNop), (Code.CFG_JOURNAL_READ, applyCfgJournalRead), (Code.REG_SET, applyRegSet)]

def effects2 : List (Nat × (Entry → State → State)) :=
  [(Code.MT_STEP, applyMtStep), (Code.MT_RATE_SET, applyMtRateSet), (Code.WH_ACQUIRE, applyWhAcquire),
   (Code.WH_LOOP_OPEN, applyWhLoopOpen), (Code.WH_LOOP_CLOSE, applyWhLoopClose), (Code.WH_PHASE_STEP, applyWhPhaseStep)]

def effects3 : List (Nat × (Entry → State → State)) :=
  [(Code.ROUTE_WRITE, applyRouteWrite), (Code.ROUTE_READ, applyRouteRead), (Code.ROUTE_COMMIT, applyRouteCommit),
   (Code.ROUTE_STATUS, applyRouteStatus), (Code.XP_WRITE, applyXpWrite), (Code.XP_READ, applyXpRead),
   (Code.XP_COMMIT, applyXpCommit), (Code.XP_SET, applyXpSet), (Code.SP_CONFIG, applySpConfig),
   (Code.SP_PLAY, applySpPlay), (Code.SP_STOP, applySpStop), (Code.SP_MSG_BLOCK, applySpMsgBlock),
   (Code.SP_MSG_COMMIT, applySpMsgCommit)]

def effects4 : List (Nat × (Entry → State → State)) :=
  [(Code.CL_RESET, applyClReset), (Code.UNIT_SPARE, applyUnitSpare), (Code.UNIT_RESTORE, applyUnitRestore),
   (Code.UNIT_LOAD, applyUnitLoad), (Code.UNIT_UNLOAD, applyUnitUnload), (Code.UNIT_SET, applyUnitSet),
   (Code.INS_WRITE, applyInsWrite), (Code.INS_READ, applyInsRead), (Code.INS_COMMIT, applyInsCommit)]

def effects5 : List (Nat × (Entry → State → State)) :=
  [(Code.DP_SET, applyDpSet), (Code.DP_RETRAIN, applyDpRetrain), (Code.DP_MBX_SEND, applyDpMbxSend),
   (Code.DC_WRITE, applyDcWrite), (Code.DC_READ, applyDcRead), (Code.DC_COMMIT, applyDcCommit),
   (Code.BG_SET, applyBgSet), (Code.FLT_SET, applyFltSet), (Code.FLT_LINE_WRITE, applyFltLineWrite),
   (Code.FLT_LINE_READ, applyFltLineRead), (Code.FLT_REMEASURE, applyFltRemeasure), (Code.FLT_CLEAR, applyFltClear),
   (Code.FLT_READ, applyFltRead), (Code.LW_BASELINE, applyLwBaseline), (Code.LW_READ, applyLwRead),
   (Code.LW_SWEEP, applyLwSweep), (Code.LW_SWEEP_ABORT, applyLwSweepAbort), (Code.LW_SWEEP_READ, applyLwSweepRead)]

def effects6 : List (Nat × (Entry → State → State)) :=
  [(Code.TDM_SET, applyTdmSet), (Code.TDM_RING_SET, applyTdmRingSet), (Code.TDM_AG_START, applyTdmAgStart),
   (Code.TDM_AG_STOP, applyTdmAgStop), (Code.PDM_SET, applyPdmSet)]

def effects7 : List (Nat × (Entry → State → State)) :=
  [(Code.NET_SET, applyNetSet), (Code.NET_PTP_DS, applyNetPtpDs), (Code.FWD_WRITE, applyFwdWrite),
   (Code.FWD_READ, applyFwdRead), (Code.FWD_COMMIT, applyFwdCommit), (Code.NET_STREAM_RX, applyNetStreamRx),
   (Code.NET_STREAM_TX, applyNetStreamTx), (Code.NET_STREAM_DEL, applyNetStreamDel),
   (Code.NET_STREAM_READ, applyNetStreamRead), (Code.NET_FRAME_TX, applyNetFrameTx),
   (Code.NET_FRAME_READ, applyNetFrameRead)]

def effects9 : List (Nat × (Entry → State → State)) :=
  [(Code.TW_SET, applyTwSet), (Code.TW_YIELD, applyTwYield), (Code.TW_RESYNC, applyTwResync), (Code.TW_HOME, applyTwHome)]

def effectsA : List (Nat × (Entry → State → State)) :=
  [(Code.FW_BLOCK, applyFwBlock), (Code.FW_VERIFY, applyFwVerify), (Code.FW_ACTIVATE, applyFwActivate),
   (Code.FW_COMMIT, applyFwCommit), (Code.SEC_SEAL, applySecSeal), (Code.DBG_CHALLENGE, applyDbgChallenge),
   (Code.DBG_OPEN, applyDbgOpen), (Code.DBG_CLOSE, applyDbgClose)]

def effectsB : List (Nat × (Entry → State → State)) :=
  [(Code.CENSUS_AT, applyCensusAt), (Code.PC_SET, applyPcSet), (Code.SMP_ACK, applySmpAck),
   (Code.SMP_INJECT, applySmpInject), (Code.SMP_SET, applySmpSet), (Code.PWR_SET, applyPwrSet)]

/-- What each command does at its instant, by code. -/
def effectsAll : List (Nat × (Entry → State → State)) :=
  [(Code.GO, applyGo), (Code.DEBUG_WRITE, applyDebugWrite)] ++ effects1 ++ effects2 ++ effects3 ++ effects4 ++ effects5
    ++ effects6 ++ effects7 ++ effects9 ++ effectsA ++ effectsB

/-- The effect of an entry at the present instant. -/
def applyEntry (e : Entry) (s : State) : State :=
  match effectsAll.find? (fun p => p.1 == e.code) with
  | some p => p.2 e s
  | none => s.finish e Sts.OK [] false

/-! ### Arrivals, by chapter -/

def arrivals1 : List (Nat × (Cmd → State → Host.Outcome State Fault Refusal)) :=
  [(Code.NOP, execNop), (Code.CFG_JOURNAL_READ, execCfgJournalRead), (Code.REG_SET, execRegSet)]

def arrivals2 : List (Nat × (Cmd → State → Host.Outcome State Fault Refusal)) :=
  [(Code.MT_STEP, execMtStep), (Code.EPOCH_RESTART, execEpochRestart), (Code.MT_RATE_SET, execMtRateSet),
   (Code.WH_ACQUIRE, execWhAcquire), (Code.WH_LOOP_OPEN, execWhLoopOpen), (Code.WH_LOOP_CLOSE, execWhLoopClose),
   (Code.WH_PHASE_STEP, execWhPhaseStep)]

def arrivals3 : List (Nat × (Cmd → State → Host.Outcome State Fault Refusal)) :=
  [(Code.ROUTE_WRITE, execRouteWrite), (Code.ROUTE_READ, execRouteRead), (Code.ROUTE_COMMIT, execRouteCommit),
   (Code.ROUTE_STATUS, execRouteStatus), (Code.XP_WRITE, execXpWrite), (Code.XP_READ, execXpRead),
   (Code.XP_COMMIT, execXpCommit), (Code.XP_SET, execXpSet), (Code.SP_CONFIG, execSpConfig), (Code.SP_PLAY, execSpPlay),
   (Code.SP_STOP, execSpStop), (Code.SP_MSG_BLOCK, execSpMsgBlock), (Code.SP_MSG_COMMIT, execSpMsgCommit)]

def arrivals4 : List (Nat × (Cmd → State → Host.Outcome State Fault Refusal)) :=
  [(Code.CL_RESET, execClReset), (Code.UNIT_SPARE, execUnitSpare), (Code.UNIT_RESTORE, execUnitRestore),
   (Code.UNIT_LOAD, execUnitLoad), (Code.UNIT_UNLOAD, execUnitUnload), (Code.UNIT_SET, execUnitSet),
   (Code.INS_WRITE, execInsWrite), (Code.INS_READ, execInsRead), (Code.INS_COMMIT, execInsCommit)]

def arrivals5 : List (Nat × (Cmd → State → Host.Outcome State Fault Refusal)) :=
  [(Code.DP_SET, execDpSet), (Code.DP_RETRAIN, execDpRetrain), (Code.DP_MBX_SEND, execDpMbxSend),
   (Code.DC_WRITE, execDcWrite), (Code.DC_READ, execDcRead), (Code.DC_COMMIT, execDcCommit), (Code.BG_SET, execBgSet),
   (Code.FLT_SET, execFltSet), (Code.FLT_LINE_WRITE, execFltLineWrite), (Code.FLT_LINE_READ, execFltLineRead),
   (Code.FLT_REMEASURE, execFltRemeasure), (Code.FLT_CLEAR, execFltClear), (Code.FLT_READ, execFltRead),
   (Code.LW_BASELINE, execLwBaseline), (Code.LW_READ, execLwRead), (Code.LW_SWEEP, execLwSweep),
   (Code.LW_SWEEP_ABORT, execLwSweepAbort), (Code.LW_SWEEP_READ, execLwSweepRead)]

def arrivals6 : List (Nat × (Cmd → State → Host.Outcome State Fault Refusal)) :=
  [(Code.TDM_SET, execTdmSet), (Code.TDM_RING_SET, execTdmRingSet), (Code.TDM_AG_START, execTdmAgStart),
   (Code.TDM_AG_STOP, execTdmAgStop), (Code.PDM_SET, execPdmSet)]

def arrivals7 : List (Nat × (Cmd → State → Host.Outcome State Fault Refusal)) :=
  [(Code.NET_SET, execNetSet), (Code.NET_PTP_DS, execNetPtpDs), (Code.FWD_WRITE, execFwdWrite),
   (Code.FWD_READ, execFwdRead), (Code.FWD_COMMIT, execFwdCommit), (Code.NET_STREAM_RX, execNetStreamRx),
   (Code.NET_STREAM_TX, execNetStreamTx), (Code.NET_STREAM_DEL, execNetStreamDel),
   (Code.NET_STREAM_READ, execNetStreamRead), (Code.NET_FRAME_TX, execNetFrameTx),
   (Code.NET_FRAME_READ, execNetFrameRead)]

def arrivals9 : List (Nat × (Cmd → State → Host.Outcome State Fault Refusal)) :=
  [(Code.TW_SET, execTwSet), (Code.TW_YIELD, execTwYield), (Code.TW_RESYNC, execTwResync), (Code.TW_HOME, execTwHome)]

def arrivalsA : List (Nat × (Cmd → State → Host.Outcome State Fault Refusal)) :=
  [(Code.FW_BLOCK, execFwBlock), (Code.FW_VERIFY, execFwVerify), (Code.FW_ACTIVATE, execFwActivate),
   (Code.FW_COMMIT, execFwCommit), (Code.SEC_SEAL, execSecSeal), (Code.DBG_CHALLENGE, execDbgChallenge),
   (Code.DBG_OPEN, execDbgOpen), (Code.DBG_CLOSE, execDbgClose)]

def arrivalsB : List (Nat × (Cmd → State → Host.Outcome State Fault Refusal)) :=
  [(Code.CENSUS_AT, execCensusAt), (Code.PC_SET, execPcSet), (Code.SMP_ACK, execSmpAck),
   (Code.SMP_INJECT, execSmpInject), (Code.SMP_SET, execSmpSet), (Code.PWR_SET, execPwrSet)]

/-- The arrival of each command, by code. -/
def arrivalsAll : List (Nat × (Cmd → State → Host.Outcome State Fault Refusal)) :=
  arrivals1 ++ arrivals2 ++ arrivals3 ++ arrivals4 ++ arrivals5 ++ arrivals6 ++ arrivals7 ++ arrivals9 ++ arrivalsA ++ arrivalsB

/-- A command of a given code arrives; an unknown code is refused with CMD_UNKNOWN. -/
def State.give (s : State) (code : Nat) (c : Cmd) : State :=
  match arrivalsAll.find? (fun p => p.1 == code) with
  | some p => (match p.2 c s with
    | .next t => t
    | _ => s)
  | none => submit code chkNone c s

end Sys2Proof.Machine
end

