-- ==== Sys2Proof/Machine/Demand.lean ====
section
/-! DEFINITION. The demand of a drive channel (R184, R185, R192, R206, R209, R213): what leaves its delay line under the limiter's gain,
VFS and the gates, and the pilots or the sweep tone added to it; and the rail target that follows from it (R189). Demands are held
in 2⁻⁶⁴ V, rounded down (assumption 79). -/

namespace Sys2Proof.Machine

/-- The weight of a channel's demand at sample i of the tick, in sixteenths (R20, R184, R380): the gate of the power state and the
mute of an epoch restart, each with its ramp of one tick. -/
def State.gateNum (s : State) (c i : Nat) : Nat :=
  let key := endKey 7 0 c
  let a := s.aud
  let t := s.time.tick
  let was := s.gateOpen (if a.gateTick = t then a.gateOld else a.gate) key
  let is := s.gateOpen a.gate key
  let g := if was && is then 4 else if was then 3 - i else if is then i + 1 else 0
  let m := if !a.muted then 4 else if a.fadeTick = t then 3 - i else if s.voiceOnly then 4 else 0
  g * m

/-- What leaves the delay line (R183, R184): one read position, or the crossfade of two, as a quotient. -/
def State.lineOut (s : State) (c i : Nat) : Int × Nat :=
  let x := s.ch c
  match x.dfade.filter (fun f => !f.ramp.done s.time.tick) with
  | some f => f.sample (f.ramp.held s.time.tick i).toNat (fun d => x.dl.getD d 0)
  | none => (x.dl.getD (dcDelay (s.dcE c)) 0, 1)

/-- A tone at `centi` hundredths of a decibel of full scale at sample n of the second, in 2⁻⁶⁴ V (R209). -/
def toneAt (vfs : Int) (centi : Int) (freq n : Nat) : Int :=
  vfs * dbQ20 centi * sinTurn (freq * (n % 96000)) 96000 / (25600 * 2 ^ 148)

/-- Level of a pilot in hundredths of a decibel: that of the line entry, −60 dB in CHECK (R203, R208). -/
def State.pilLevel (s : State) (hf : Bool) (c : Nat) : Int :=
  let e := s.lnE c
  if (s.ch c).st = 3 then -6000 else -100 * (if hf then bits e 113 108 else bits e 107 102 : Nat)

/-- The pilots of a channel at sample n, or the tone of a sweep that replaces them (R209, R213). -/
def State.pilots (s : State) (c i n : Nat) : Int :=
  let vfs := (s.ch c).v.held s.time.tick i
  let one := fun (hf : Bool) =>
    if s.pilOn hf c then toneAt vfs (s.pilLevel hf c) (s.pilFreq hf c) n else 0
  match s.drv.sweep with
  | some w =>
    if s.swept c ∧ (s.ch c).st ≠ 3 then toneAt vfs (-100 * (w.level : Int)) (w.pts.getD w.idx 0) n
    else one true + one false
  | none => one true + one false

/-- The programme of a channel at sample i in 2⁻⁶⁴ V (R184 steps 4 to 6): the delay line's output under the limiter's gain, VFS, the
ramp-in and the gates. A channel that is not NORMAL has none (R203). -/
def State.programme (s : State) (c i : Nat) : Int :=
  let x := s.ch c
  if x.st ≠ 1 then 0
  else
    let (num, den) := s.lineOut c i
    let lim : Int := 4 * (x.gain0 : Int) + ((x.gain : Int) - x.gain0) * (i + 1)
    num * lim * x.v.held s.time.tick i * x.dg.held s.time.tick i * (s.gateNum c i : Int) / ((den * (25600 * 2 ^ 24) : Nat) : Int)

/-- The demand of sample n, sample i of the tick, joins the interpolator's history (R184 step 8). -/
def State.dcDemand (s : State) (c i n : Nat) : State :=
  let x := s.ch c
  let p := if x.st = 1 ∨ x.st = 3 then s.pilots c i n else 0
  s.setCh c { x with hist := trimHist 32 ((s.programme c i + p) :: x.hist) }

/-- Sample n, sample i of the tick, at a drive channel (R184): it enters the delay line, the demand leaves it. A sample whose word
is uncorrectable is taken as zero (R316). -/
def State.dcStep (s : State) (i n c : Nat) : State :=
  (s.dcSample c (if s.lost Tab.MOD c then 0 else (mget Blk.zero s.aud.outq (endKey 7 0 c)).at i)).dcDemand c i n

/-! ### Envelope boost (R189) -/

/-- The rail target of a group for the present sample (R189), in 1/256 V. A channel at zero demand asks for nothing: in EPOCH_RESTART,
QUIET and CHECK targets fall to floor (R192). -/
def State.railTarget (s : State) (g : Nat) : State :=
  let la := s.fg F.BG_CTL_LOOKAHEAD g
  let hr := s.fg F.BG_CTL_HEADROOM g
  let rmax := s.fg F.BG_RAIL_RAIL_MAX g
  let rmin := s.fg F.BG_RAIL_RAIL_MIN g
  let mm := mMaxNum (s.fg F.DP_MOD_MIN_PULSE (g / 2))
  let t := s.time.tick
  let i := s.time.sample
  let need := (List.range 4).foldl (fun m k =>
    let c := 4 * g + k
    if !dcEn (s.dcE c) || s.hiZ c || (s.ch c).st == 3 || s.gateNum c 0 == 0 then m
    else
      let x := s.ch c
      let d := dcDelay (s.dcE c)
      let peak := ((x.dl.drop (d - la)).take (la + 1)).foldl (fun m v => max m v.natAbs) 0
      max m ((x.v.held t i).toNat * peak)) 0
  let nNum := need * (100 + hr) * 1000000000
  let nDen := 2147483648 * 100 * 100 * mm
  let fNum := max (768 * rmin) (768 * rmax - 8 * s.fg F.BG_RAIL_SLEW g * la)
  let (want, s) := if fNum * nDen < nNum * 3 then s.quot nNum nDen else s.quot fNum 3
  let capped := s.fb F.SMP_STAT_CAPPED 0
  let (top, s) := if capped then s.quot (rmax * 896) 5 else (256 * rmax, s)
  let cap := min top (s.fg F.FLT_VE_V_E g)
  (s.fs F.BG_STAT_TARGET g (min 0xFFFF (min want cap))).fs F.BG_STAT_CAPPED g
    (b2n (decide (cap < want) || capped || (decide (0 < i) && s.fb F.BG_STAT_CAPPED g)))

end Sys2Proof.Machine
end

