-- ==== Sys2Proof/Machine/Tick.lean ====
section
/-! DEFINITION. The tick boundary (R32, R55) and the other instants of the grids: what falls due there, in its order; and the
commands that arrive over rings and over the twin link. -/

namespace Sys2Proof.Machine

/-! ### What is due (R24, R29, R32) -/

/-- Events that start at position 5 of R32; every other command applies at position 4. -/
def startsEvent (code : Nat) : Bool :=
  code ∈ [Code.SP_PLAY, Code.SP_STOP, Code.LW_SWEEP, Code.TDM_AG_START, Code.TDM_AG_STOP, Code.CENSUS_AT]

/-- Entries that apply before the commits: the restart, the step and the rate change. -/
def beforeCommits (code : Nat) : Bool := code ∈ [Code.EPOCH_RESTART, Code.MT_STEP, Code.MT_RATE_SET]

/-- Whether entry `a` applies before entry `b`: the earlier target, then the earlier generation. Generations ascend with the
command numbers, which also order entries without one. -/
def Entry.lt (a b : Entry) : Bool := decide (a.target < b.target) || (a.target == b.target && decide (a.seq < b.seq))

/-- The first entry of a list. -/
def firstEntry : List Entry → Option Entry
  | [] => none
  | e :: t => match firstEntry t with
    | none => some e
    | some x => if x.lt e then some x else some e

/-- The next entry of a kind whose placement instant has come. -/
def State.nextDue (s : State) (p : Nat → Bool) : Option Entry :=
  firstEntry ((s.sched ++ s.dueNext).filter (fun e => p e.code && decide (e.place ≤ s.now)))

/-- Take an entry off the lists. -/
def State.dropEntry (s : State) (e : Entry) : State :=
  { s with sched := s.sched.filter (fun x => x.seq != e.seq), dueNext := s.dueNext.filter (fun x => x.seq != e.seq) }

/-- Apply every due entry of a kind, each in full before the next. -/
def State.runDue (f : Entry → State → State) (p : Nat → Bool) : Nat → State → State
  | 0, s => s
  | n + 1, s =>
    match s.nextDue p with
    | none => s
    | some e => State.runDue f p n (f e (s.dropEntry e))

/-- The same over all entries that are listed. -/
def State.runKind (s : State) (f : Entry → State → State) (p : Nat → Bool) : State :=
  State.runDue f p (s.sched.length + s.dueNext.length) s

/-! ### EPOCH_RESTART (R20) -/

/-- The restart at its boundary: outputs ramp to silence, scheduled and late events are cancelled, a new epoch begins and the
Wellhead acquires again (R42). A twin
that restarts leaves lockstep (R22, R346); an ACTIVE one starts a voluntary handover (R349). -/
def applyEpochRestart (e : Entry) (s : State) : State :=
  let gone := s.sched ++ s.dueNext.filter (fun x => !x.imm)
  let s := { s with
    sched := [], dueNext := s.dueNext.filter (fun x => x.imm),
    aud := { s.aud with fadeTick := if s.aud.muted && !s.voiceOnly then s.aud.fadeTick else s.time.tick
                        fadeZ := if s.aud.muted && !s.voiceOnly then s.aud.fadeZ else s.voiceOnly
                        muted := true },
    time := { s.time with
      epochMt := (s.now : Int), eligMt := (s.now : Int) + 41666, freeWait := false, first := false } }
  let s := (s.cancelAll gone).sweepAbort
  let n := s.fg F.MT_EPOCH_EPOCH 0
  let s := (((s.fs F.MT_EPOCH_EPOCH 0 (n + 1)).fs F.MT_EPOCH_WINDOW 0 1).fs F.MT_EPOCH_STEPPED 0 0).fs F.MT_EPOCH_RELEASED 0 0
  let s := ((s.setMode 0).finish e Sts.OK [] false).showPwr
  if s.activePair then s.hoStart else s.standbySuspect

/-! ### Release (R21) -/

/-- The outputs are released, and the step window closes (R17). -/
def State.release (s : State) : State :=
  if !s.releaseCond then s
  else
    let s := (s.fs F.MT_EPOCH_RELEASED 0 1).fs F.MT_EPOCH_WINDOW 0 0
    { s with aud := { s.aud with muted := false } }

/-! ### TICK_START -/

/-- Time passes to the next tick start (R8, R14). The interval between a step and the first tick start of the new count belongs to
the tick of the step. -/
def State.tickAdvance (s : State) : State :=
  let t := s.arrive s.time.next
  { t with time := { t.time with
      tick := if s.time.gap then t.time.tick else t.time.tick + 1
      gap := false, sample := 0, frame := 0, next := nextTick t.now } }

/-- The end of the tick before (R55, R70): the block is collected if it has not been, the tiles' outputs become final. The interval
that a step leaves before the first tick start of the new count has no block (R18). -/
def State.tickEnd (s : State) : State :=
  if s.time.gap then s.tickAdvance
  else
    let s := if s.aud.collTick = s.time.tick + 1 then s else s.collect
    let (mixed, s) := s.cutTiles
    s.tickAdvance.cutoff mixed

/-- Positions 1 and 2 of R32: the restart, then a step by command or by alignment, with the entry into LOCKED that brings it; an
alignment due at a restart is dropped (R20, R47). A step made cuts the TDM frames under way (R233). -/
def State.tickSteps (s : State) : State :=
  let n := s.fg F.MT_EPOCH_EPOCH 0
  let s := s.handLong.runKind applyEpochRestart (· == Code.EPOCH_RESTART)
  let restarted := s.fg F.MT_EPOCH_EPOCH 0 != n
  let was := s.fb F.MT_EPOCH_STEPPED 0
  let s := s.runKind applyMtStep (· == Code.MT_STEP)
  let s := s.lockEntry restarted
  if !was && s.fb F.MT_EPOCH_STEPPED 0 then s.tdmStepped else s

/-- Positions 3 to 5 of R32: the rate, commits and immediate commands, event starts and the release. -/
def State.tickEvents (s : State) : State :=
  let s := s.runKind applyMtRateSet (· == Code.MT_RATE_SET)
  let s := s.runKind applyEntry (fun c => !startsEvent c && !beforeCommits c)
  let s := s.runKind applyEntry startsEvent
  s.release.showPwr

/-- The commands that transfer shadows at a tick boundary, and what Windlass writes for each (R115). -/
def rwsWriters : List (Nat × (Cmd → State → State)) :=
  [(Code.UNIT_SET, wrUnitSet), (Code.BG_SET, wrBgSet), (Code.FLT_SET, wrFltSet)]

/-- Windlass writes the shadows and ARM of such commands in the tick before their boundary. -/
def State.rwsPrepare (s : State) : State :=
  (s.sched ++ s.dueNext).foldl (fun s e =>
    match rwsWriters.find? (fun p => p.1 == e.code) with
    | some p => if e.place = s.time.next ∧ !e.wrote then (p.2 e.cmd s).markWritten e.seq false else s
    | none => s) s

/-- Per-tick work of units, banks and ports, in front of the audio. -/
def State.tickUnits (s : State) : State :=
  s.loadsTick.insTick.tickHandOver.dcBoundary.tdmBoundary.whTick.rwsPrepare

/-- The audio of a tick (R55): gather close of the block that has ended, the Standpipe, the matrix inputs. -/
def State.tickAudio (s : State) (g : Nat) : State :=
  let s := (s.streamGather g).gather g
  let s := s.spEvaluate
  let s := (List.range 16).foldl State.voiceBlock s
  let s := s.voiceSlots
  let s := { s with sp := { s.sp with prev := s.fg F.SP_STAT_ALARM 0 } }
  s.formMis

/-- Per-tick evaluations of limiters, debug level, twin and network, and the blocks the output stages play. -/
def State.tickRest (s : State) (g : Nat) : State :=
  let s := s.limiterAll.dbgRelevel.showHealth
  let s := s.beatSend.syncTick.twOutcomes
  let s := s.mgmtTick.pwrRamp.playBlock
  let s := ((s.streamTick g).pmpTick).pwrTick
  let conv := s.aud.conv.map (fun (x : ConvGrp) => if x.fade = some s.time.tick then { x with fade := none } else x)
  let s := { s with aud := { s.aud with conv := conv } }
  s.showFwd.agShow.showCen.showMix.showPlock

/-- TICK_START (R32, R55): a tick boundary. After a step that leaves the grid the boundary's remaining work falls to the first
tick start of the new count (R18). While the device is held in reset or is in OFF only time passes. -/
def execTickStart (s : State) : Host.Outcome State Fault Refusal :=
  .next (if s.dead then s.tickAdvance
    else
      let s := s.tickEnd.tickSteps
      if s.time.gap then s
      else
        let s := { s with time := { s.time with next := nextTick s.now } }
        let g := tickAt s.now
        ((s.tickEvents.tickUnits.tickAudio g).tickRest g))

/-! ### Sample instants (R7, R189) -/

/-- The instant of global sample number `n`. -/
def sampleAt (n : Nat) : Nat := n / 96000 * 1000000000 + n % 96000 * 1000000000 / 96000

/-- SAMPLE_INSTANT: the next sample instant of the tick. The drive channels take their samples, the input ports convert, the
rail targets are recomputed (R189), and the twin's MIRROR leaves (R355). -/
def execSampleInstant (s : State) : Host.Outcome State Fault Refusal :=
  .next (if s.dead ∨ 4 ≤ s.time.sample then s
    else
      let i := s.time.sample
      let n := 4 * tickAt s.now + i
      let s := s.reach (sampleAt n)
      let s := s.dcList.foldl (fun (s : State) c => s.dcStep i n c) s
      let s := ((s.tdmAsrc n).pdmSample n).netAsrc n
      let s := (List.range 48).foldl State.railTarget s
      let s := s.mirrorSend
      { s with time := { s.time with sample := i + 1 } })

/-! ### Armed events off the tick grid (R29) -/

/-- ARMED_EVENT_EXECUTE (R24): the counter reaches the placement instant of the next armed event that lies before the next tick
start; the event executes and ends. Events on a tick start execute there. -/
def execArmedEventExecute (s : State) : Host.Outcome State Fault Refusal :=
  .next (match firstEntry ((s.sched.filter (fun e => !e.held && decide (e.place < s.time.next) && !beforeCommits e.code)).map
      (fun e => { e with target := e.place })) with
    | none => s
    | some x =>
      match s.sched.find? (fun e => e.seq == x.seq) with
      | none => s
      | some e => let s := s.reach e.place
        (applyEntry e (s.dropEntry e)).showPwr)

/-! ### The end of copies and ramps -/

/-- The drive-channel and line banks' copy (R182): once the swap is in force and its ramps have ended. -/
def State.dcCopied (s : State) : State :=
  if s.drv.lock = 2 ∧ !s.dcRamping then
    let b := 192 * (1 - s.drv.act)
    let s := (s.wroteTab Tab.DC b 192).wroteTab Tab.LINE b 192
    { s with drv := { s.drv with
      dc := copyBank 192 s.drv.act s.drv.dc, ln := copyBank 192 s.drv.act s.drv.ln, lock := 0 } }
  else s

/-- BANK_COPY_COMPLETE (R65): 0 Router, 1 matrix, 2 drive channels and lines, 3 Forwarding Table, 4 insert parameters. -/
def execBankCopyComplete (which : Nat) (s : State) : Host.Outcome State Fault Refusal :=
  .next (if which = 0 then s.routeCopied
    else if which = 1 then s.matrixCopied
    else if which = 2 then s.dcCopied
    else if which = 3 then s.fwdCopied
    else s.insCopied)

/-- RAMP_END (R71, R84, R183): ramps and crossfades that have ended are dropped, and channels disabled by the commit send Hi-Z. -/
def execRampEnd (s : State) : Host.Outcome State Fault Refusal :=
  let t := s.time.tick
  let open_ := fun (m : AMap Fade) => m.filter (fun (p : Nat × Fade) => !p.2.ramp.done t)
  .next (({ s with aud := { s.aud with icFade := open_ s.aud.icFade, dstFade := open_ s.aud.dstFade } } : State).dcRampEnd.zoneRampEnd.showMix)

/-! ### Rings (R272, R275, R278, R280, R284, R285) -/

/-- A descriptor that reads OWN = 0 (R272). -/
def State.ownMiss (s : State) (r : Nat) : State :=
  ({ s.fs F.HIF_RING_STAT_OWN_MISS r 1 with hif := { s.hif with retry := mput 0 s.hif.retry r 1 } } : State).ringErr r 2

/-- Whether a descriptor is handed over. -/
def descOwn (d : Desc) : Bool := (leAt d.bytes 6 2).testBit 15

/-- The descriptor with OWN = 0. -/
def descReturned (d : Desc) : List Byte :=
  d.bytes.take 6 ++ leBytes 2 (leAt d.bytes 6 2 % 2 ^ 15) ++ d.bytes.drop 8

/-- Take a command descriptor: it is returned, a CPL slot is reserved for each completion owed, and the command arrives. -/
def State.takeCmdDesc (s : State) (r : Nat) (d : Desc) : State :=
  let p := s.fg F.HIF_RING_CFG_PAIR r
  let k := s.fg F.HIF_RING_CFG_CLASS r
  let (db, s) := s.takeStamp r (s.fg F.HIF_RING_IDX_DEV_IDX r)
  let s := s.ringReturn r (descReturned d)
  let s := { s with hif := { s.hif with
    lastCls := mset false s.hif.lastCls k r, resv := mmod 0 s.hif.resv p (· + 1) } }
  let seq := s.hif.cmdSeq
  let s := s.give (leAt d.bytes 4 2) (cmdOf r d.bytes d.bufOk d.buf db d.ok)
  if s.sched.any (fun e => e.seq == seq) then { s with hif := { s.hif with resv := mmod 0 s.hif.resv p (· + 1) } } else s

/-- Take an audio descriptor: at most 4 ahead on a HIN ring; a HOUT ring fills one at a time. -/
def State.takeAudDesc (s : State) (r i : Nat) (d : Desc) : State :=
  let (db, s) := s.takeStamp r i
  let words := (List.range (d.buf.length / 4)).map (fun j => BitVec.ofNat 32 (leAt d.buf (4 * j) 4))
  let hin := s.ringTy r == 3
  let x : AudDesc := ⟨r, i, if hin then s.nearMts (leAt d.bytes 0 4) else 0, leAt d.bytes 4 2, leAt d.bytes 8 8,
    if hin then words else [], 0, 0, false, false, false, db⟩
  if hin then s.hinTake x
  else if s.framesOk r x.frames then { s with hif := { s.hif with taken := s.hif.taken ++ [x] } }
  else s.audReturn { x with bad := true, absent := x.frames }

/-- DESCRIPTOR_TAKE (R272): the device reads the next descriptor of ring r. CMD rings are served in the order of R280, and not
while pair 0 is halted (R361). -/
def execDescriptorTake (r : Nat) (d : Desc) (s : State) : Host.Outcome State Fault Refusal :=
  let s := if s.noCmds then s else s.elapse d.dt
  let held := (s.hif.taken.filter (fun x => x.ring == r)).length
  let i := (s.fg F.HIF_RING_IDX_DEV_IDX r + held) % 65536
  let ty := s.ringTy r
  let ready : Bool := !s.noCmds && decide (r < 32) && s.ringRuns r && mget 0 s.hif.retry r == 0 && decide (held < s.devOwned r)
    && (if ty = 0 then s.nextRing == some r && !s.fb F.DBG_RUNCTL_PAIR0_HALT 0
        else if ty = 3 then decide (held < 4) else ty == 4 && held == 0)
  .next (if !ready then s
    else if !d.readOk then s.ringHalt r
    else if !descOwn d then s.ownMiss r
    else if ty = 0 then s.takeCmdDesc r d
    else if ty = 3 ∧ !d.bufOk then s.ringHalt r
    else s.takeAudDesc r i d)

/-! ### Mirrored commands and handovers (R349, R356) -/

/-- A mirrored command placed at its apply tick; one that comes after it is due at the next boundary, LATE, and makes a STANDBY
SUSPECT (R346). -/
def State.placeMirrored (s : State) (seq tick : Nat) : State :=
  let late := decide (tickStart tick ≤ s.now)
  let at_ := if late then s.time.next else tickStart tick
  let s := { s with dueNext := s.dueNext.map (fun e =>
    if e.seq == seq ∧ e.imm then { e with place := at_, target := tickStart tick, late := late } else e) }
  if late then s.standbySuspect else s

/-- CMD (R356): a mirrored command of the partner. -/
def execCmd (h : TwHdr) (tick code : Nat) (c : Cmd) (s : State) : Host.Outcome State Fault Refusal :=
  let s := s.elapse h.dt
  .next (if !s.twHears h then s
    else
      let seq := s.hif.cmdSeq
      (s.give code { c with src := 1, dt := 0 }).placeMirrored seq tick)

/-- HANDOVER_ACK (R349): the old ACTIVE drops CLAIM and becomes SUSPECT; what waited for the handover goes on. -/
def execHandoverAck (h : TwHdr) (seq : Nat) (s : State) : Host.Outcome State Fault Refusal :=
  let s := s.elapse h.dt
  .next (match s.tw.hoOut with
    | none => s
    | some (f, _) =>
      if !s.twHears h ∨ s.twRole ≠ 2 ∨ f % 65536 ≠ seq % 65536 then s
      else
        let t := s.tickOfFrame f
        let s := s.toSuspect
        let s := { s with tw := { s.tw with tcOut := t }, ret := { s.ret with pwrHo := false } }
        (s.dbgWaited true).syncStart)

/-- What waited for a handover that has been abandoned: a PWR_SET ends with TW_ROLE (R379), a DBG_OPEN is denied (R393). -/
def State.handoverLost (s : State) : State :=
  let s := match s.ret.pwr with
    | some e => if s.ret.pwrHo then
        (({ s with ret := { s.ret with pwr := none, pwrHo := false } } : State).finish e Sts.TW_ROLE [] false).showPwr else s
    | none => s
  s.dbgWaited false

/-- HANDOVER_TIMEOUT (R349): no acknowledgement within 1 ms. -/
def execHandoverTimeout (s : State) : Host.Outcome State Fault Refusal :=
  .next (match s.tw.hoOut with
    | some (_, t) => if t ≤ s.time.up then ({ s with tw := { s.tw with hoOut := none } } : State).handoverLost else s
    | none => s.handoverLost)

end Sys2Proof.Machine
end

