-- ==== Sys2Proof/Machine/UnitIsa.lean ====
section
/-! DEFINITION. The rows of the instruction table (R147 - R166): unit `u` issues the instruction at its PC, with what the
memories answer in `x`. The predicate is<Row> says which decoded words a row covers. -/

namespace Sys2Proof.Machine

/-- NOP, or the trap of a word that is no instruction (R147, R148). -/
def execNopInstruction (u : Nat) (x : UPort) (s : State) : Host.Outcome State Fault Refusal := .next (s.issueNop u x)

/-- Words of MOV. -/
def isMov (i : JInstr) : Bool := match i with | .mov .. => true | _ => false

/-- MOV (R152). -/
def execMov (u : Nat) (x : UPort) (s : State) : Host.Outcome State Fault Refusal := .next (s.issue u isMov x)

/-- Words of ADD. -/
def isAdd (i : JInstr) : Bool := match i with | .alu .add .. => true | _ => false

/-- ADD (R153). -/
def execAdd (u : Nat) (x : UPort) (s : State) : Host.Outcome State Fault Refusal := .next (s.issue u isAdd x)

/-- Words of ADDS. -/
def isAdds (i : JInstr) : Bool := match i with | .alu .adds .. => true | _ => false

/-- ADDS (R153). -/
def execAdds (u : Nat) (x : UPort) (s : State) : Host.Outcome State Fault Refusal := .next (s.issue u isAdds x)

/-- Words of SUB. -/
def isSub (i : JInstr) : Bool := match i with | .alu .sub .. => true | _ => false

/-- SUB (R153). -/
def execSub (u : Nat) (x : UPort) (s : State) : Host.Outcome State Fault Refusal := .next (s.issue u isSub x)

/-- Words of SUBS. -/
def isSubs (i : JInstr) : Bool := match i with | .alu .subs .. => true | _ => false

/-- SUBS (R153). -/
def execSubs (u : Nat) (x : UPort) (s : State) : Host.Outcome State Fault Refusal := .next (s.issue u isSubs x)

/-- Words of AND. -/
def isAnd (i : JInstr) : Bool := match i with | .alu .and .. => true | _ => false

/-- AND (R153). -/
def execAnd (u : Nat) (x : UPort) (s : State) : Host.Outcome State Fault Refusal := .next (s.issue u isAnd x)

/-- Words of OR. -/
def isOr (i : JInstr) : Bool := match i with | .alu .or .. => true | _ => false

/-- OR (R153). -/
def execOr (u : Nat) (x : UPort) (s : State) : Host.Outcome State Fault Refusal := .next (s.issue u isOr x)

/-- Words of XOR. -/
def isXor (i : JInstr) : Bool := match i with | .alu .xor .. => true | _ => false

/-- XOR (R153). -/
def execXor (u : Nat) (x : UPort) (s : State) : Host.Outcome State Fault Refusal := .next (s.issue u isXor x)

/-- Words of NEG. -/
def isNeg (i : JInstr) : Bool := match i with | .alu .neg .. => true | _ => false

/-- NEG (R153). -/
def execNeg (u : Nat) (x : UPort) (s : State) : Host.Outcome State Fault Refusal := .next (s.issue u isNeg x)

/-- Words of ABS. -/
def isAbs (i : JInstr) : Bool := match i with | .alu .abs .. => true | _ => false

/-- ABS (R153). -/
def execAbs (u : Nat) (x : UPort) (s : State) : Host.Outcome State Fault Refusal := .next (s.issue u isAbs x)

/-- Words of MIN. -/
def isMin (i : JInstr) : Bool := match i with | .alu .min .. => true | _ => false

/-- MIN (R153). -/
def execMin (u : Nat) (x : UPort) (s : State) : Host.Outcome State Fault Refusal := .next (s.issue u isMin x)

/-- Words of MAX. -/
def isMax (i : JInstr) : Bool := match i with | .alu .max .. => true | _ => false

/-- MAX (R153). -/
def execMax (u : Nat) (x : UPort) (s : State) : Host.Outcome State Fault Refusal := .next (s.issue u isMax x)

/-- Words of CMP. -/
def isCmp (i : JInstr) : Bool := match i with | .alu .cmp .. => true | _ => false

/-- CMP (R153). -/
def execCmp (u : Nat) (x : UPort) (s : State) : Host.Outcome State Fault Refusal := .next (s.issue u isCmp x)

/-- Words of LSL. -/
def isLsl (i : JInstr) : Bool := match i with | .alu .lsl .. => true | _ => false

/-- LSL (R153). -/
def execLsl (u : Nat) (x : UPort) (s : State) : Host.Outcome State Fault Refusal := .next (s.issue u isLsl x)

/-- Words of LSR. -/
def isLsr (i : JInstr) : Bool := match i with | .alu .lsr .. => true | _ => false

/-- LSR (R153). -/
def execLsr (u : Nat) (x : UPort) (s : State) : Host.Outcome State Fault Refusal := .next (s.issue u isLsr x)

/-- Words of ASR. -/
def isAsr (i : JInstr) : Bool := match i with | .alu .asr .. => true | _ => false

/-- ASR (R153). -/
def execAsr (u : Nat) (x : UPort) (s : State) : Host.Outcome State Fault Refusal := .next (s.issue u isAsr x)

/-- Words of MUL. -/
def isMul (i : JInstr) : Bool := match i with | .alu .mul .. => true | _ => false

/-- MUL (R153). -/
def execMul (u : Nat) (x : UPort) (s : State) : Host.Outcome State Fault Refusal := .next (s.issue u isMul x)

/-- Words of MULF. -/
def isMulf (i : JInstr) : Bool := match i with | .alu .mulf .. => true | _ => false

/-- MULF (R153). -/
def execMulf (u : Nat) (x : UPort) (s : State) : Host.Outcome State Fault Refusal := .next (s.issue u isMulf x)

/-- Words of ADDI. -/
def isAddi (i : JInstr) : Bool := match i with | .alui .addi .. => true | _ => false

/-- ADDI (R154). -/
def execAddi (u : Nat) (x : UPort) (s : State) : Host.Outcome State Fault Refusal := .next (s.issue u isAddi x)

/-- Words of ANDI. -/
def isAndi (i : JInstr) : Bool := match i with | .alui .andi .. => true | _ => false

/-- ANDI (R154). -/
def execAndi (u : Nat) (x : UPort) (s : State) : Host.Outcome State Fault Refusal := .next (s.issue u isAndi x)

/-- Words of ORI. -/
def isOri (i : JInstr) : Bool := match i with | .alui .ori .. => true | _ => false

/-- ORI (R154). -/
def execOri (u : Nat) (x : UPort) (s : State) : Host.Outcome State Fault Refusal := .next (s.issue u isOri x)

/-- Words of XORI. -/
def isXori (i : JInstr) : Bool := match i with | .alui .xori .. => true | _ => false

/-- XORI (R154). -/
def execXori (u : Nat) (x : UPort) (s : State) : Host.Outcome State Fault Refusal := .next (s.issue u isXori x)

/-- Words of CMPI. -/
def isCmpi (i : JInstr) : Bool := match i with | .alui .cmpi .. => true | _ => false

/-- CMPI (R154). -/
def execCmpi (u : Nat) (x : UPort) (s : State) : Host.Outcome State Fault Refusal := .next (s.issue u isCmpi x)

/-- Words of LSLI. -/
def isLsli (i : JInstr) : Bool := match i with | .alui .lsli .. => true | _ => false

/-- LSLI (R154). -/
def execLsli (u : Nat) (x : UPort) (s : State) : Host.Outcome State Fault Refusal := .next (s.issue u isLsli x)

/-- Words of LSRI. -/
def isLsri (i : JInstr) : Bool := match i with | .alui .lsri .. => true | _ => false

/-- LSRI (R154). -/
def execLsri (u : Nat) (x : UPort) (s : State) : Host.Outcome State Fault Refusal := .next (s.issue u isLsri x)

/-- Words of ASRI. -/
def isAsri (i : JInstr) : Bool := match i with | .alui .asri .. => true | _ => false

/-- ASRI (R154). -/
def execAsri (u : Nat) (x : UPort) (s : State) : Host.Outcome State Fault Refusal := .next (s.issue u isAsri x)

/-- Words of MOVI. -/
def isMovi (i : JInstr) : Bool := match i with | .alui .movi .. => true | _ => false

/-- MOVI (R154). -/
def execMovi (u : Nat) (x : UPort) (s : State) : Host.Outcome State Fault Refusal := .next (s.issue u isMovi x)

/-- Words of MOVHI. -/
def isMovhi (i : JInstr) : Bool := match i with | .alui .movhi .. => true | _ => false

/-- MOVHI (R154). -/
def execMovhi (u : Nat) (x : UPort) (s : State) : Host.Outcome State Fault Refusal := .next (s.issue u isMovhi x)

/-- Words of PMOD. -/
def isPmod (i : JInstr) : Bool := match i with | .pmod .. => true | _ => false

/-- PMOD (R155). -/
def execPmod (u : Nat) (x : UPort) (s : State) : Host.Outcome State Fault Refusal := .next (s.issue u isPmod x)

/-- Words of PADDI. -/
def isPaddi (i : JInstr) : Bool := match i with | .paddi .. => true | _ => false

/-- PADDI (R155). -/
def execPaddi (u : Nat) (x : UPort) (s : State) : Host.Outcome State Fault Refusal := .next (s.issue u isPaddi x)

/-- Words of ALDI. -/
def isAldi (i : JInstr) : Bool := match i with | .aldi .. => true | _ => false

/-- ALDI (R155). -/
def execAldi (u : Nat) (x : UPort) (s : State) : Host.Outcome State Fault Refusal := .next (s.issue u isAldi x)

/-- Words of ALDH. -/
def isAldh (i : JInstr) : Bool := match i with | .aldh .. => true | _ => false

/-- ALDH (R155). -/
def execAldh (u : Nat) (x : UPort) (s : State) : Host.Outcome State Fault Refusal := .next (s.issue u isAldh x)

/-- Words of LD. -/
def isLd (i : JInstr) : Bool := match i with | .mem .ld .. => true | _ => false

/-- LD (R156). -/
def execLd (u : Nat) (x : UPort) (s : State) : Host.Outcome State Fault Refusal := .next (s.issue u isLd x)

/-- Words of LDD. -/
def isLdd (i : JInstr) : Bool := match i with | .mem .ldd .. => true | _ => false

/-- LDD (R156). -/
def execLdd (u : Nat) (x : UPort) (s : State) : Host.Outcome State Fault Refusal := .next (s.issue u isLdd x)

/-- Words of ST. -/
def isSt (i : JInstr) : Bool := match i with | .mem .st .. => true | _ => false

/-- ST (R156). -/
def execSt (u : Nat) (x : UPort) (s : State) : Host.Outcome State Fault Refusal := .next (s.issue u isSt x)

/-- Words of STD. -/
def isStd (i : JInstr) : Bool := match i with | .mem .std .. => true | _ => false

/-- STD (R156). -/
def execStd (u : Nat) (x : UPort) (s : State) : Host.Outcome State Fault Refusal := .next (s.issue u isStd x)

/-- Words of LDR. -/
def isLdr (i : JInstr) : Bool := match i with | .mem .ldr .. => true | _ => false

/-- LDR (R156). -/
def execLdr (u : Nat) (x : UPort) (s : State) : Host.Outcome State Fault Refusal := .next (s.issue u isLdr x)

/-- Words of STR. -/
def isStr (i : JInstr) : Bool := match i with | .mem .str .. => true | _ => false

/-- STR (R156). -/
def execStr (u : Nat) (x : UPort) (s : State) : Host.Outcome State Fault Refusal := .next (s.issue u isStr x)

/-- Words of STA. -/
def isSta (i : JInstr) : Bool := match i with | .sta .. => true | _ => false

/-- STA (R157). -/
def execSta (u : Nat) (x : UPort) (s : State) : Host.Outcome State Fault Refusal := .next (s.issue u isSta x)

/-- Words of CLR. -/
def isClr (i : JInstr) : Bool := match i with | .accu .clr .. => true | _ => false

/-- CLR (R158). -/
def execClr (u : Nat) (x : UPort) (s : State) : Host.Outcome State Fault Refusal := .next (s.issue u isClr x)

/-- Words of MPY. -/
def isMpy (i : JInstr) : Bool := match i with | .accu .mpy .. => true | _ => false

/-- MPY (R158). -/
def execMpy (u : Nat) (x : UPort) (s : State) : Host.Outcome State Fault Refusal := .next (s.issue u isMpy x)

/-- Words of MPYN. -/
def isMpyn (i : JInstr) : Bool := match i with | .accu .mpyn .. => true | _ => false

/-- MPYN (R158). -/
def execMpyn (u : Nat) (x : UPort) (s : State) : Host.Outcome State Fault Refusal := .next (s.issue u isMpyn x)

/-- Words of MPYI. -/
def isMpyi (i : JInstr) : Bool := match i with | .accu .mpyi .. => true | _ => false

/-- MPYI (R158). -/
def execMpyi (u : Nat) (x : UPort) (s : State) : Host.Outcome State Fault Refusal := .next (s.issue u isMpyi x)

/-- Words of MAC. -/
def isMac (i : JInstr) : Bool := match i with | .accu .mac .. => true | _ => false

/-- MAC (R158). -/
def execMac (u : Nat) (x : UPort) (s : State) : Host.Outcome State Fault Refusal := .next (s.issue u isMac x)

/-- Words of MSU. -/
def isMsu (i : JInstr) : Bool := match i with | .accu .msu .. => true | _ => false

/-- MSU (R158). -/
def execMsu (u : Nat) (x : UPort) (s : State) : Host.Outcome State Fault Refusal := .next (s.issue u isMsu x)

/-- Words of MACI. -/
def isMaci (i : JInstr) : Bool := match i with | .accu .maci .. => true | _ => false

/-- MACI (R158). -/
def execMaci (u : Nat) (x : UPort) (s : State) : Host.Outcome State Fault Refusal := .next (s.issue u isMaci x)

/-- Words of MSUI. -/
def isMsui (i : JInstr) : Bool := match i with | .accu .msui .. => true | _ => false

/-- MSUI (R158). -/
def execMsui (u : Nat) (x : UPort) (s : State) : Host.Outcome State Fault Refusal := .next (s.issue u isMsui x)

/-- Words of ADDA. -/
def isAdda (i : JInstr) : Bool := match i with | .accu .adda .. => true | _ => false

/-- ADDA (R158). -/
def execAdda (u : Nat) (x : UPort) (s : State) : Host.Outcome State Fault Refusal := .next (s.issue u isAdda x)

/-- Words of SUBA. -/
def isSuba (i : JInstr) : Bool := match i with | .accu .suba .. => true | _ => false

/-- SUBA (R158). -/
def execSuba (u : Nat) (x : UPort) (s : State) : Host.Outcome State Fault Refusal := .next (s.issue u isSuba x)

/-- Words of ACCD. -/
def isAccd (i : JInstr) : Bool := match i with | .accu .accd .. => true | _ => false

/-- ACCD (R158). -/
def execAccd (u : Nat) (x : UPort) (s : State) : Host.Outcome State Fault Refusal := .next (s.issue u isAccd x)

/-- Words of NEGA. -/
def isNega (i : JInstr) : Bool := match i with | .accu .nega .. => true | _ => false

/-- NEGA (R158). -/
def execNega (u : Nat) (x : UPort) (s : State) : Host.Outcome State Fault Refusal := .next (s.issue u isNega x)

/-- Words of ABSA. -/
def isAbsa (i : JInstr) : Bool := match i with | .accu .absa .. => true | _ => false

/-- ABSA (R158). -/
def execAbsa (u : Nat) (x : UPort) (s : State) : Host.Outcome State Fault Refusal := .next (s.issue u isAbsa x)

/-- Words of ASLA. -/
def isAsla (i : JInstr) : Bool := match i with | .accu .asla .. => true | _ => false

/-- ASLA (R158). -/
def execAsla (u : Nat) (x : UPort) (s : State) : Host.Outcome State Fault Refusal := .next (s.issue u isAsla x)

/-- Words of ASRA. -/
def isAsra (i : JInstr) : Bool := match i with | .accu .asra .. => true | _ => false

/-- ASRA (R158). -/
def execAsra (u : Nat) (x : UPort) (s : State) : Host.Outcome State Fault Refusal := .next (s.issue u isAsra x)

/-- Words of EXP. -/
def isExp (i : JInstr) : Bool := match i with | .accu .exp .. => true | _ => false

/-- EXP (R124). -/
def execExp (u : Nat) (x : UPort) (s : State) : Host.Outcome State Fault Refusal := .next (s.issue u isExp x)

/-- Words of NORM. -/
def isNorm (i : JInstr) : Bool := match i with | .accu .norm .. => true | _ => false

/-- NORM (R124). -/
def execNorm (u : Nat) (x : UPort) (s : State) : Host.Outcome State Fault Refusal := .next (s.issue u isNorm x)

/-- Words of MVA. -/
def isMva (i : JInstr) : Bool := match i with | .accu .mva .. => true | _ => false

/-- MVA (R158). -/
def execMva (u : Nat) (x : UPort) (s : State) : Host.Outcome State Fault Refusal := .next (s.issue u isMva x)

/-- Words of MVA24. -/
def isMva24 (i : JInstr) : Bool := match i with | .accu .mva24 .. => true | _ => false

/-- MVA24 (R158). -/
def execMva24 (u : Nat) (x : UPort) (s : State) : Host.Outcome State Fault Refusal := .next (s.issue u isMva24 x)

/-- Words of CMPA. -/
def isCmpa (i : JInstr) : Bool := match i with | .accu .cmpa .. => true | _ => false

/-- CMPA (R158). -/
def execCmpa (u : Nat) (x : UPort) (s : State) : Host.Outcome State Fault Refusal := .next (s.issue u isCmpa x)

/-- Words of SMAC. -/
def isSmac (i : JInstr) : Bool := match i with | .smac .. => true | _ => false

/-- SMAC (R160). -/
def execSmac (u : Nat) (x : UPort) (s : State) : Host.Outcome State Fault Refusal := .next (s.issue u isSmac x)

/-- Words of DMAC. -/
def isDmac (i : JInstr) : Bool := match i with | .dmac .. => true | _ => false

/-- DMAC (R161). -/
def execDmac (u : Nat) (x : UPort) (s : State) : Host.Outcome State Fault Refusal := .next (s.issue u isDmac x)

/-- Words of BR. -/
def isBr (i : JInstr) : Bool := match i with | .br .. => true | _ => false

/-- BR (R163). -/
def execBr (u : Nat) (x : UPort) (s : State) : Host.Outcome State Fault Refusal := .next (s.issue u isBr x)

/-- Words of CALL. -/
def isCall (i : JInstr) : Bool := match i with | .call .. => true | _ => false

/-- CALL (R163). -/
def execCall (u : Nat) (x : UPort) (s : State) : Host.Outcome State Fault Refusal := .next (s.issue u isCall x)

/-- Words of JR. -/
def isJr (i : JInstr) : Bool := match i with | .jr .. => true | _ => false

/-- JR (R163). -/
def execJr (u : Nat) (x : UPort) (s : State) : Host.Outcome State Fault Refusal := .next (s.issue u isJr x)

/-- Words of RETI. -/
def isReti (i : JInstr) : Bool := match i with | .reti => true | _ => false

/-- RETI (R132, R163). -/
def execReti (u : Nat) (x : UPort) (s : State) : Host.Outcome State Fault Refusal := .next (s.issue u isReti x)

/-- Words of REP. -/
def isRep (i : JInstr) : Bool := match i with | .rep .. => true | _ => false

/-- REP (R129). -/
def execRep (u : Nat) (x : UPort) (s : State) : Host.Outcome State Fault Refusal := .next (s.issue u isRep x)

/-- Words of REPL. -/
def isRepl (i : JInstr) : Bool := match i with | .repl => true | _ => false

/-- REPL (R163). -/
def execRepl (u : Nat) (x : UPort) (s : State) : Host.Outcome State Fault Refusal := .next (s.issue u isRepl x)

/-- Words of DBNZ. -/
def isDbnz (i : JInstr) : Bool := match i with | .dbnz .. => true | _ => false

/-- DBNZ (R163). -/
def execDbnz (u : Nat) (x : UPort) (s : State) : Host.Outcome State Fault Refusal := .next (s.issue u isDbnz x)

/-- Words of WAIT. -/
def isWait (i : JInstr) : Bool := match i with | .wait .. => true | _ => false

/-- WAIT (R166). -/
def execWait (u : Nat) (x : UPort) (s : State) : Host.Outcome State Fault Refusal := .next (s.issue u isWait x)

/-- Words of WAITM. -/
def isWaitm (i : JInstr) : Bool := match i with | .waitm .. => true | _ => false

/-- WAITM (R166). -/
def execWaitm (u : Nat) (x : UPort) (s : State) : Host.Outcome State Fault Refusal := .next (s.issue u isWaitm x)

/-- Words of RAISE. -/
def isRaise (i : JInstr) : Bool := match i with | .raise .. => true | _ => false

/-- RAISE (R166). -/
def execRaise (u : Nat) (x : UPort) (s : State) : Host.Outcome State Fault Refusal := .next (s.issue u isRaise x)

/-- Words of DONE. -/
def isDone (i : JInstr) : Bool := match i with | .done => true | _ => false

/-- DONE (R139). -/
def execDone (u : Nat) (x : UPort) (s : State) : Host.Outcome State Fault Refusal := .next (s.issue u isDone x)

end Sys2Proof.Machine
end

