-- ==== Sys2Proof/Machine/Dispatch.lean ====
section
/-! DEFINITION. The dispatch of commands to their meanings: one arm per constructor. -/

namespace Sys2Proof.Machine

def exec (i : Instr) (s : State) : Host.Outcome State Fault Refusal :=
  match i with
  | .porNAssert low => Sys2Proof.Machine.execPorNAssert low s
  | .porNRelease straps => Sys2Proof.Machine.execPorNRelease straps s
  | .aonValidClear => Sys2Proof.Machine.execAonValidClear s
  | .supplyUndervoltage rail => Sys2Proof.Machine.execSupplyUndervoltage rail s
  | .xoLoss => Sys2Proof.Machine.execXoLoss s
  | .pllClockLoss k => Sys2Proof.Machine.execPllClockLoss k s
  | .thermalHold => Sys2Proof.Machine.execThermalHold s
  | .thermalHoldEnd => Sys2Proof.Machine.execThermalHoldEnd s
  | .dieTemperatureThreshold k t => Sys2Proof.Machine.execDieTemperatureThreshold k t s
  | .firmwareBankSelect => Sys2Proof.Machine.execFirmwareBankSelect s
  | .checkerSelfTest fails => Sys2Proof.Machine.execCheckerSelfTest fails s
  | .tcmLoadAndRemap ok => Sys2Proof.Machine.execTcmLoadAndRemap ok s
  | .lpddrTraining x => Sys2Proof.Machine.execLpddrTraining x s
  | .settingsImportFailure => Sys2Proof.Machine.execSettingsImportFailure s
  | .hubSramInit => Sys2Proof.Machine.execHubSramInit s
  | .lpddrZeroFillComplete => Sys2Proof.Machine.execLpddrZeroFillComplete s
  | .stage1Complete => Sys2Proof.Machine.execStage1Complete s
  | .standpipeReady => Sys2Proof.Machine.execStandpipeReady s
  | .stage2Complete => Sys2Proof.Machine.execStage2Complete s
  | .functionLevelReset => Sys2Proof.Machine.execFunctionLevelReset s
  | .perstNAssert => Sys2Proof.Machine.execPerstNAssert s
  | .tickStart => Sys2Proof.Machine.execTickStart s
  | .inputDeliveryComplete c => Sys2Proof.Machine.execInputDeliveryComplete c s
  | .unitWake dt => Sys2Proof.Machine.execUnitWake dt s
  | .preMatrixDeadline dt => Sys2Proof.Machine.execPreMatrixDeadline dt s
  | .outputDeliveryComplete c => Sys2Proof.Machine.execOutputDeliveryComplete c s
  | .outputCollection dt => Sys2Proof.Machine.execOutputCollection dt s
  | .tileGroupProcess c dt => Sys2Proof.Machine.execTileGroupProcess c dt s
  | .sampleInstant => Sys2Proof.Machine.execSampleInstant s
  | .armedEventExecute => Sys2Proof.Machine.execArmedEventExecute s
  | .longFormHandover => Sys2Proof.Machine.execLongFormHandover s
  | .skewCalibration d delay skew8 => Sys2Proof.Machine.execSkewCalibration d delay skew8 s
  | .mediaTimeIntegrityFault cond => Sys2Proof.Machine.execMediaTimeIntegrityFault cond s
  | .slotMeasurementUpdate dt => Sys2Proof.Machine.execSlotMeasurementUpdate dt s
  | .slotInvalid n => Sys2Proof.Machine.execSlotInvalid n s
  | .slotValid n => Sys2Proof.Machine.execSlotValid n s
  | .wtrExpiry n => Sys2Proof.Machine.execWtrExpiry n s
  | .driftHoldExpiry n => Sys2Proof.Machine.execDriftHoldExpiry n s
  | .whLock => Sys2Proof.Machine.execWhLock s
  | .whUnlock => Sys2Proof.Machine.execWhUnlock s
  | .switchDeltaFix => Sys2Proof.Machine.execSwitchDeltaFix s
  | .whSwitch => Sys2Proof.Machine.execWhSwitch s
  | .acqHoldExpiry => Sys2Proof.Machine.execAcqHoldExpiry s
  | .reacqExpiry => Sys2Proof.Machine.execReacqExpiry s
  | .freeWaitExpiry => Sys2Proof.Machine.execFreeWaitExpiry s
  | .ppsinEdge dt => Sys2Proof.Machine.execPpsinEdge dt s
  | .refinEdge k dt => Sys2Proof.Machine.execRefinEdge k dt s
  | .nop c => Sys2Proof.Machine.execNop c s
  | .cfgJournalRead c => Sys2Proof.Machine.execCfgJournalRead c s
  | .regSet c => Sys2Proof.Machine.execRegSet c s
  | .mtStep c => Sys2Proof.Machine.execMtStep c s
  | .epochRestart c => Sys2Proof.Machine.execEpochRestart c s
  | .mtRateSet c => Sys2Proof.Machine.execMtRateSet c s
  | .whAcquire c => Sys2Proof.Machine.execWhAcquire c s
  | .whLoopOpen c => Sys2Proof.Machine.execWhLoopOpen c s
  | .whLoopClose c => Sys2Proof.Machine.execWhLoopClose c s
  | .whPhaseStep c => Sys2Proof.Machine.execWhPhaseStep c s
  | .routeWrite c => Sys2Proof.Machine.execRouteWrite c s
  | .routeRead c => Sys2Proof.Machine.execRouteRead c s
  | .routeCommit c => Sys2Proof.Machine.execRouteCommit c s
  | .routeStatus c => Sys2Proof.Machine.execRouteStatus c s
  | .bankCopyComplete which => Sys2Proof.Machine.execBankCopyComplete which s
  | .xpWrite c => Sys2Proof.Machine.execXpWrite c s
  | .xpRead c => Sys2Proof.Machine.execXpRead c s
  | .xpCommit c => Sys2Proof.Machine.execXpCommit c s
  | .xpSet c => Sys2Proof.Machine.execXpSet c s
  | .xpSetHeldApply => Sys2Proof.Machine.execXpSetHeldApply s
  | .rampEnd => Sys2Proof.Machine.execRampEnd s
  | .spConfig c => Sys2Proof.Machine.execSpConfig c s
  | .spPlay c => Sys2Proof.Machine.execSpPlay c s
  | .spStop c => Sys2Proof.Machine.execSpStop c s
  | .spMsgBlock c => Sys2Proof.Machine.execSpMsgBlock c s
  | .spMsgCommit c => Sys2Proof.Machine.execSpMsgCommit c s
  | .spMsgStoreComplete m ok => Sys2Proof.Machine.execSpMsgStoreComplete m ok s
  | .alarmInputChange n active dt => Sys2Proof.Machine.execAlarmInputChange n active dt s
  | .debounceExpiry n => Sys2Proof.Machine.execDebounceExpiry n s
  | .watchLossExpiry z => Sys2Proof.Machine.execWatchLossExpiry z s
  | .watchReturnExpiry z => Sys2Proof.Machine.execWatchReturnExpiry z s
  | .repetitionEnd v => Sys2Proof.Machine.execRepetitionEnd v s
  | .voiceFlashFallback x => Sys2Proof.Machine.execVoiceFlashFallback x s
  | .asrcSettled key => Sys2Proof.Machine.execAsrcSettled key s
  | .asrcRateLoss key => Sys2Proof.Machine.execAsrcRateLoss key s
  | .clReset c => Sys2Proof.Machine.execClReset c s
  | .clusterResetAssert x => Sys2Proof.Machine.execClusterResetAssert x s
  | .clusterResetRelease c => Sys2Proof.Machine.execClusterResetRelease c s
  | .clusterReloadComplete c ok => Sys2Proof.Machine.execClusterReloadComplete c ok s
  | .clusterReturn c => Sys2Proof.Machine.execClusterReturn c s
  | .unitSpare c => Sys2Proof.Machine.execUnitSpare c s
  | .spareRedirect g => Sys2Proof.Machine.execSpareRedirect g s
  | .spareImageLoaded g => Sys2Proof.Machine.execSpareImageLoaded g s
  | .unitRestore c => Sys2Proof.Machine.execUnitRestore c s
  | .restoreRedirectRemove u => Sys2Proof.Machine.execRestoreRedirectRemove u s
  | .unitLoad c => Sys2Proof.Machine.execUnitLoad c s
  | .unitLoadComplete u => Sys2Proof.Machine.execUnitLoadComplete u s
  | .unitUnload c => Sys2Proof.Machine.execUnitUnload c s
  | .unitSet c => Sys2Proof.Machine.execUnitSet c s
  | .insWrite c => Sys2Proof.Machine.execInsWrite c s
  | .insRead c => Sys2Proof.Machine.execInsRead c s
  | .insCommit c => Sys2Proof.Machine.execInsCommit c s
  | .dpSet c => Sys2Proof.Machine.execDpSet c s
  | .dpRetrain c => Sys2Proof.Machine.execDpRetrain c s
  | .dpMbxSend c => Sys2Proof.Machine.execDpMbxSend c s
  | .dpMbxTimeout n => Sys2Proof.Machine.execDpMbxTimeout n s
  | .dcWrite c => Sys2Proof.Machine.execDcWrite c s
  | .dcRead c => Sys2Proof.Machine.execDcRead c s
  | .dcCommit c => Sys2Proof.Machine.execDcCommit c s
  | .bgSet c => Sys2Proof.Machine.execBgSet c s
  | .driveFrameLaunch => Sys2Proof.Machine.execDriveFrameLaunch s
  | .driveRxFrame n f => Sys2Proof.Machine.execDriveRxFrame n f s
  | .trainingTimeout n => Sys2Proof.Machine.execTrainingTimeout n s
  | .driveLinkDown n => Sys2Proof.Machine.execDriveLinkDown n s
  | .downRetrainExpiry n => Sys2Proof.Machine.execDownRetrainExpiry n s
  | .retryExpiry c => Sys2Proof.Machine.execRetryExpiry c s
  | .checkEnd c => Sys2Proof.Machine.execCheckEnd c s
  | .tripFreeExpiry c => Sys2Proof.Machine.execTripFreeExpiry c s
  | .railOvervoltageTrip g => Sys2Proof.Machine.execRailOvervoltageTrip g s
  | .railReturn g => Sys2Proof.Machine.execRailReturn g s
  | .measurementTimeout g => Sys2Proof.Machine.execMeasurementTimeout g s
  | .energyBinEnd => Sys2Proof.Machine.execEnergyBinEnd s
  | .fltSet c => Sys2Proof.Machine.execFltSet c s
  | .fltLineWrite c => Sys2Proof.Machine.execFltLineWrite c s
  | .fltLineRead c => Sys2Proof.Machine.execFltLineRead c s
  | .fltRemeasure c => Sys2Proof.Machine.execFltRemeasure c s
  | .fltClear c => Sys2Proof.Machine.execFltClear c s
  | .fltRead c => Sys2Proof.Machine.execFltRead c s
  | .lwWindowEnd c => Sys2Proof.Machine.execLwWindowEnd c s
  | .lwBaseline c => Sys2Proof.Machine.execLwBaseline c s
  | .lwRead c => Sys2Proof.Machine.execLwRead c s
  | .lwSweep c => Sys2Proof.Machine.execLwSweep c s
  | .sweepPointEnd => Sys2Proof.Machine.execSweepPointEnd s
  | .lwSweepAbort c => Sys2Proof.Machine.execLwSweepAbort c s
  | .lwSweepRead c => Sys2Proof.Machine.execLwSweepRead c s
  | .tdmSet c => Sys2Proof.Machine.execTdmSet c s
  | .tdmRingSet c => Sys2Proof.Machine.execTdmRingSet c s
  | .tdmAgStart c => Sys2Proof.Machine.execTdmAgStart c s
  | .tdmAgStop c => Sys2Proof.Machine.execTdmAgStop c s
  | .tdmFrameSync p f => Sys2Proof.Machine.execTdmFrameSync p f s
  | .tdmFrameSyncTimeout p => Sys2Proof.Machine.execTdmFrameSyncTimeout p s
  | .tdmRingIdxWrite p v => Sys2Proof.Machine.execTdmRingIdxWrite p v s
  | .pdmSet c => Sys2Proof.Machine.execPdmSet c s
  | .pdmStuck p mic stuck => Sys2Proof.Machine.execPdmStuck p mic stuck s
  | .netSet c => Sys2Proof.Machine.execNetSet c s
  | .netPtpDs c => Sys2Proof.Machine.execNetPtpDs c s
  | .fwdWrite c => Sys2Proof.Machine.execFwdWrite c s
  | .fwdRead c => Sys2Proof.Machine.execFwdRead c s
  | .fwdCommit c => Sys2Proof.Machine.execFwdCommit c s
  | .netStreamRx c => Sys2Proof.Machine.execNetStreamRx c s
  | .netStreamTx c => Sys2Proof.Machine.execNetStreamTx c s
  | .netStreamDel c => Sys2Proof.Machine.execNetStreamDel c s
  | .netStreamRead c => Sys2Proof.Machine.execNetStreamRead c s
  | .netFrameTx c => Sys2Proof.Machine.execNetFrameTx c s
  | .netFrameRead c => Sys2Proof.Machine.execNetFrameRead c s
  | .networkLinkUp p partner => Sys2Proof.Machine.execNetworkLinkUp p partner s
  | .networkLinkDown p loc rem los => Sys2Proof.Machine.execNetworkLinkDown p loc rem los s
  | .modulePresenceChange p absent => Sys2Proof.Machine.execModulePresenceChange p absent s
  | .frameReceive p f => Sys2Proof.Machine.execFrameReceive p f s
  | .pause p f => Sys2Proof.Machine.execPause p f s
  | .pauseExpiry p => Sys2Proof.Machine.execPauseExpiry p s
  | .frameTransmit p x => Sys2Proof.Machine.execFrameTransmit p x s
  | .ptpSyncSend p => Sys2Proof.Machine.execPtpSyncSend p s
  | .ptpAnnounceSend p => Sys2Proof.Machine.execPtpAnnounceSend p s
  | .pdelayReqSend p => Sys2Proof.Machine.execPdelayReqSend p s
  | .announceTimeout p => Sys2Proof.Machine.execAnnounceTimeout p s
  | .syncTimeout n => Sys2Proof.Machine.execSyncTimeout n s
  | .doorbell off v dt => Sys2Proof.Machine.execDoorbell off v dt s
  | .descriptorTake r d => Sys2Proof.Machine.execDescriptorTake r d s
  | .interruptCoalesceTimeout r => Sys2Proof.Machine.execInterruptCoalesceTimeout r s
  | .hinReturn r => Sys2Proof.Machine.execHinReturn r s
  | .go => Sys2Proof.Machine.execGo s
  | .registerWrite who off v dt => Sys2Proof.Machine.execRegisterWrite who off v dt s
  | .rclRead x => Sys2Proof.Machine.execRclRead x s
  | .mtNsRead dt => Sys2Proof.Machine.execMtNsRead dt s
  | .latchingLoRead off => Sys2Proof.Machine.execLatchingLoRead off s
  | .logEntryRead off => Sys2Proof.Machine.execLogEntryRead off s
  | .pcCntRead agg n j dt => Sys2Proof.Machine.execPcCntRead agg n j dt s
  | .secRemapWrite v => Sys2Proof.Machine.execSecRemapWrite v s
  | .armWrite off set dt => Sys2Proof.Machine.execArmWrite off set dt s
  | .kick n => Sys2Proof.Machine.execKick n s
  | .abort n => Sys2Proof.Machine.execAbort n s
  | .pmpChannelEnable n en => Sys2Proof.Machine.execPmpChannelEnable n en s
  | .pmpIndexWrite n v => Sys2Proof.Machine.execPmpIndexWrite n v s
  | .pumpTrigger n io => Sys2Proof.Machine.execPumpTrigger n io s
  | .pumpBurstIssue p io => Sys2Proof.Machine.execPumpBurstIssue p io s
  | .descriptorComplete n io => Sys2Proof.Machine.execDescriptorComplete n io s
  | .burstError n io => Sys2Proof.Machine.execBurstError n io s
  | .nopInstruction u x => Sys2Proof.Machine.execNopInstruction u x s
  | .mov u x => Sys2Proof.Machine.execMov u x s
  | .add u x => Sys2Proof.Machine.execAdd u x s
  | .adds u x => Sys2Proof.Machine.execAdds u x s
  | .sub u x => Sys2Proof.Machine.execSub u x s
  | .subs u x => Sys2Proof.Machine.execSubs u x s
  | .and u x => Sys2Proof.Machine.execAnd u x s
  | .or u x => Sys2Proof.Machine.execOr u x s
  | .xor u x => Sys2Proof.Machine.execXor u x s
  | .neg u x => Sys2Proof.Machine.execNeg u x s
  | .abs u x => Sys2Proof.Machine.execAbs u x s
  | .min u x => Sys2Proof.Machine.execMin u x s
  | .max u x => Sys2Proof.Machine.execMax u x s
  | .cmp u x => Sys2Proof.Machine.execCmp u x s
  | .lsl u x => Sys2Proof.Machine.execLsl u x s
  | .lsr u x => Sys2Proof.Machine.execLsr u x s
  | .asr u x => Sys2Proof.Machine.execAsr u x s
  | .mul u x => Sys2Proof.Machine.execMul u x s
  | .mulf u x => Sys2Proof.Machine.execMulf u x s
  | .addi u x => Sys2Proof.Machine.execAddi u x s
  | .andi u x => Sys2Proof.Machine.execAndi u x s
  | .ori u x => Sys2Proof.Machine.execOri u x s
  | .xori u x => Sys2Proof.Machine.execXori u x s
  | .cmpi u x => Sys2Proof.Machine.execCmpi u x s
  | .lsli u x => Sys2Proof.Machine.execLsli u x s
  | .lsri u x => Sys2Proof.Machine.execLsri u x s
  | .asri u x => Sys2Proof.Machine.execAsri u x s
  | .movi u x => Sys2Proof.Machine.execMovi u x s
  | .movhi u x => Sys2Proof.Machine.execMovhi u x s
  | .pmod u x => Sys2Proof.Machine.execPmod u x s
  | .paddi u x => Sys2Proof.Machine.execPaddi u x s
  | .aldi u x => Sys2Proof.Machine.execAldi u x s
  | .aldh u x => Sys2Proof.Machine.execAldh u x s
  | .ld u x => Sys2Proof.Machine.execLd u x s
  | .ldd u x => Sys2Proof.Machine.execLdd u x s
  | .st u x => Sys2Proof.Machine.execSt u x s
  | .std u x => Sys2Proof.Machine.execStd u x s
  | .ldr u x => Sys2Proof.Machine.execLdr u x s
  | .str u x => Sys2Proof.Machine.execStr u x s
  | .sta u x => Sys2Proof.Machine.execSta u x s
  | .clr u x => Sys2Proof.Machine.execClr u x s
  | .mpy u x => Sys2Proof.Machine.execMpy u x s
  | .mpyn u x => Sys2Proof.Machine.execMpyn u x s
  | .mpyi u x => Sys2Proof.Machine.execMpyi u x s
  | .mac u x => Sys2Proof.Machine.execMac u x s
  | .msu u x => Sys2Proof.Machine.execMsu u x s
  | .maci u x => Sys2Proof.Machine.execMaci u x s
  | .msui u x => Sys2Proof.Machine.execMsui u x s
  | .adda u x => Sys2Proof.Machine.execAdda u x s
  | .suba u x => Sys2Proof.Machine.execSuba u x s
  | .accd u x => Sys2Proof.Machine.execAccd u x s
  | .nega u x => Sys2Proof.Machine.execNega u x s
  | .absa u x => Sys2Proof.Machine.execAbsa u x s
  | .asla u x => Sys2Proof.Machine.execAsla u x s
  | .asra u x => Sys2Proof.Machine.execAsra u x s
  | .exp u x => Sys2Proof.Machine.execExp u x s
  | .norm u x => Sys2Proof.Machine.execNorm u x s
  | .mva u x => Sys2Proof.Machine.execMva u x s
  | .mva24 u x => Sys2Proof.Machine.execMva24 u x s
  | .cmpa u x => Sys2Proof.Machine.execCmpa u x s
  | .smac u x => Sys2Proof.Machine.execSmac u x s
  | .dmac u x => Sys2Proof.Machine.execDmac u x s
  | .br u x => Sys2Proof.Machine.execBr u x s
  | .call u x => Sys2Proof.Machine.execCall u x s
  | .jr u x => Sys2Proof.Machine.execJr u x s
  | .reti u x => Sys2Proof.Machine.execReti u x s
  | .rep u x => Sys2Proof.Machine.execRep u x s
  | .repl u x => Sys2Proof.Machine.execRepl u x s
  | .dbnz u x => Sys2Proof.Machine.execDbnz u x s
  | .wait u x => Sys2Proof.Machine.execWait u x s
  | .waitm u x => Sys2Proof.Machine.execWaitm u x s
  | .raise u x => Sys2Proof.Machine.execRaise u x s
  | .done u x => Sys2Proof.Machine.execDone u x s
  | .writeBufferEntryLeave u => Sys2Proof.Machine.execWriteBufferEntryLeave u s
  | .interruptAccept u => Sys2Proof.Machine.execInterruptAccept u s
  | .performanceCounterOverflow agg n j => Sys2Proof.Machine.execPerformanceCounterOverflow agg n j s
  | .correctedWriteBack w => Sys2Proof.Machine.execCorrectedWriteBack w s
  | .mergeWriteBack w => Sys2Proof.Machine.execMergeWriteBack w s
  | .dipperPassStart d => Sys2Proof.Machine.execDipperPassStart d s
  | .dipperRead d w syn last => Sys2Proof.Machine.execDipperRead d w syn last s
  | .windlassRestore w kind arg => Sys2Proof.Machine.execWindlassRestore w kind arg s
  | .islandPowerUp g fails => Sys2Proof.Machine.execIslandPowerUp g fails s
  | .smpFault r => Sys2Proof.Machine.execSmpFault r s
  | .reactionTimerExpiry c dry => Sys2Proof.Machine.execReactionTimerExpiry c dry s
  | .windlassAck c => Sys2Proof.Machine.execWindlassAck c s
  | .heartbeatMiss => Sys2Proof.Machine.execHeartbeatMiss s
  | .aliveToggle => Sys2Proof.Machine.execAliveToggle s
  | .thermalCapLift => Sys2Proof.Machine.execThermalCapLift s
  | .quenchWindowEnd cluster n => Sys2Proof.Machine.execQuenchWindowEnd cluster n s
  | .smpAck c => Sys2Proof.Machine.execSmpAck c s
  | .smpInject c => Sys2Proof.Machine.execSmpInject c s
  | .inj f dry => Sys2Proof.Machine.execInj f dry s
  | .smpSet c => Sys2Proof.Machine.execSmpSet c s
  | .hello h m => Sys2Proof.Machine.execHello h m s
  | .helloSend => Sys2Proof.Machine.execHelloSend s
  | .beat h m => Sys2Proof.Machine.execBeat h m s
  | .beatMissed l dt => Sys2Proof.Machine.execBeatMissed l dt s
  | .mirror h m => Sys2Proof.Machine.execMirror h m s
  | .cmd h tick code c => Sys2Proof.Machine.execCmd h tick code c s
  | .cmdAck h tag status => Sys2Proof.Machine.execCmdAck h tag status s
  | .yield h => Sys2Proof.Machine.execYield h s
  | .pyieldAssert level dt => Sys2Proof.Machine.execPyieldAssert level dt s
  | .paliveLoss lost dt => Sys2Proof.Machine.execPaliveLoss lost dt s
  | .handover h seq request => Sys2Proof.Machine.execHandover h seq request s
  | .handoverAck h seq => Sys2Proof.Machine.execHandoverAck h seq s
  | .handoverTimeout => Sys2Proof.Machine.execHandoverTimeout s
  | .pairWaitExpiry => Sys2Proof.Machine.execPairWaitExpiry s
  | .twinLinkDown l lost => Sys2Proof.Machine.execTwinLinkDown l lost s
  | .sync h m => Sys2Proof.Machine.execSync h m s
  | .syncAck h refused phase done => Sys2Proof.Machine.execSyncAck h refused phase done s
  | .resyncPhaseComplete => Sys2Proof.Machine.execResyncPhaseComplete s
  | .resyncTimeout => Sys2Proof.Machine.execResyncTimeout s
  | .resyncRetryExpiry => Sys2Proof.Machine.execResyncRetryExpiry s
  | .homeHoldExpiry => Sys2Proof.Machine.execHomeHoldExpiry s
  | .mtAlignedLossExpiry => Sys2Proof.Machine.execMtAlignedLossExpiry s
  | .twSet c => Sys2Proof.Machine.execTwSet c s
  | .twYield c => Sys2Proof.Machine.execTwYield c s
  | .twResync c => Sys2Proof.Machine.execTwResync c s
  | .twHome c => Sys2Proof.Machine.execTwHome c s
  | .logRecordDurable => Sys2Proof.Machine.execLogRecordDurable s
  | .compactionStart => Sys2Proof.Machine.execCompactionStart s
  | .compactionComplete => Sys2Proof.Machine.execCompactionComplete s
  | .pwrSet c => Sys2Proof.Machine.execPwrSet c s
  | .powerTransitionStart => Sys2Proof.Machine.execPowerTransitionStart s
  | .islandsOff => Sys2Proof.Machine.execIslandsOff s
  | .standbyExitReloadComplete => Sys2Proof.Machine.execStandbyExitReloadComplete s
  | .offEntryComplete => Sys2Proof.Machine.execOffEntryComplete s
  | .fwBlock c => Sys2Proof.Machine.execFwBlock c s
  | .fwVerify c => Sys2Proof.Machine.execFwVerify c s
  | .fwActivate c => Sys2Proof.Machine.execFwActivate c s
  | .fwCommit c => Sys2Proof.Machine.execFwCommit c s
  | .secSeal c => Sys2Proof.Machine.execSecSeal c s
  | .dbgChallenge c => Sys2Proof.Machine.execDbgChallenge c s
  | .dbgOpen c => Sys2Proof.Machine.execDbgOpen c s
  | .dbgClose c => Sys2Proof.Machine.execDbgClose c s
  | .sessionExpiry => Sys2Proof.Machine.execSessionExpiry s
  | .nonceExpiry => Sys2Proof.Machine.execNonceExpiry s
  | .lockoutExpiry => Sys2Proof.Machine.execLockoutExpiry s
  | .dbgAccess a => Sys2Proof.Machine.execDbgAccess a s
  | .debugWrite off v dt => Sys2Proof.Machine.execDebugWrite off v dt s
  | .boundaryScanInstruction k => Sys2Proof.Machine.execBoundaryScanInstruction k s
  | .halt u => Sys2Proof.Machine.execHalt u s
  | .resume u => Sys2Proof.Machine.execResume u s
  | .step u x => Sys2Proof.Machine.execStep u x s
  | .pair0Halt halt => Sys2Proof.Machine.execPair0Halt halt s
  | .pair1Halt halt => Sys2Proof.Machine.execPair1Halt halt s
  | .stage w => Sys2Proof.Machine.execStage w s
  | .burn w ok => Sys2Proof.Machine.execBurn w ok s
  | .recoveryBlock w => Sys2Proof.Machine.execRecoveryBlock w s
  | .recoveryVerify w => Sys2Proof.Machine.execRecoveryVerify w s
  | .recoveryActivate w => Sys2Proof.Machine.execRecoveryActivate w s
  | .censusAt c => Sys2Proof.Machine.execCensusAt c s
  | .censusSnapshot dt => Sys2Proof.Machine.execCensusSnapshot dt s
  | .censusCopyComplete status => Sys2Proof.Machine.execCensusCopyComplete status s
  | .pcSet c => Sys2Proof.Machine.execPcSet c s
  | .twinLinkUp l delay => Sys2Proof.Machine.execTwinLinkUp l delay s
  | .windlassHeartbeat => Sys2Proof.Machine.execWindlassHeartbeat s
  | .delayReqSend p => Sys2Proof.Machine.execDelayReqSend p s
  | .fwVerifyComplete b => Sys2Proof.Machine.execFwVerifyComplete b s
  | .fwActivateComplete b => Sys2Proof.Machine.execFwActivateComplete b s
  | .fwCommitComplete => Sys2Proof.Machine.execFwCommitComplete s
  | .recoveryOpComplete ok => Sys2Proof.Machine.execRecoveryOpComplete ok s

end Sys2Proof.Machine
end

