-- ==== Sys2Proof/Safety.lean ====
section
/-! DEFINITION. The terms in which claims about the block are stated: completion of a command or event, acceptance and placement
of a command, and the invariant every step keeps. -/

namespace Sys2Proof.Machine

/-- A command or event runs to a next state with a property. -/
def Completes (i : Instr) (s : State) (p : State → Prop) : Prop := ∃ t, exec i s = .next t ∧ p t

/-- Registers of the types named may differ; all others read as before. -/
def RegsKept (l : List RegId) (s t : State) : Prop := ∀ r i, r ∉ l → i < 2048 → t.rr r i = s.rr r i

/-- The state in which a command's own checks are made: at its instant, the command numbered (R276, R278). -/
def State.taken (s : State) (c : Cmd) : State := ((s.elapse c.dt).takeCmd c).2

/-- A command without a target that the block serves and that passes the common checks and its own (R276). -/
structure Accepts (code : Nat) (chk : Cmd → State → Chk) (c : Cmd) (s : State) : Prop where
  served : s.noCmds = false
  common : preCheck code c (s.taken c) = Sts.OK
  own    : (chk c (s.taken c)).1 = Sts.OK
  now    : c.tgt = false

/-- The command stands at the end of the list for the boundary of R29, under its number, and its counter has moved on. -/
def PlacedNext (code : Nat) (c : Cmd) (s t : State) : Prop :=
  t.hif.cmdSeq = s.hif.cmdSeq + 1 ∧
    ∃ e : Entry, t.dueNext = s.dueNext ++ [e] ∧ e.code = code ∧ e.cmd = c ∧ e.seq = s.hif.cmdSeq ∧ e.imm = true
      ∧ e.place = (s.taken c).immPlace code

/-- An accepted command is placed at its boundary, and its effect there has a property. -/
def TakenThen (mk : Cmd → Instr) (code : Nat) (chk : Cmd → State → Chk) (p : Entry → State → State → Prop) : Prop :=
  (∀ c s, Accepts code chk c s → Completes (mk c) s (PlacedNext code c s))
    ∧ ∀ e s, e.code = code → p e s (applyEntry e s)

/-- A command ends with a status and RESULT words on the state its effect leaves. -/
def Ends (e : Entry) (status : Nat) (result : List Nat) (v t : State) : Prop := ∃ full, t = v.finish e status result full

/-- A command whose check is made again at its boundary (R276): where it fails the command ends with that status and has no
effect, else it ends OK on a state its effect leaves. -/
def Rechecked (chk : Cmd → State → Chk) (e : Entry) (s t : State) (p : State → Prop) : Prop :=
  ((chk e.cmd s).1 ≠ Sts.OK → Ends e (chk e.cmd s).1 (chk e.cmd s).2 s t)
    ∧ ((chk e.cmd s).1 = Sts.OK → ∃ v, Ends e Sts.OK [] v t ∧ p v)

/-- An accepted command of a block of shadow registers stands in the list for its boundary, or for the one after it where it came
inside the guard (R114, R115). -/
def TakenRws (mk : Cmd → Instr) (code : Nat) (chk : Cmd → State → Chk) (p : Entry → State → State → Prop) : Prop :=
  (∀ c s, Accepts code chk c s → Completes (mk c) s (fun t => t.hif.cmdSeq = s.hif.cmdSeq + 1
      ∧ ∃ e ∈ t.dueNext, e.code = code ∧ e.cmd = c ∧ e.seq = s.hif.cmdSeq
        ∧ (e.place = (s.taken c).immPlace code ∨ e.place = nextTick ((s.taken c).immPlace code))))
    ∧ ∀ e s, e.code = code → p e s (applyEntry e s)

/-- The fields of class RWS of a register hold those of an image. -/
def State.holds (s : State) (r : RegId) (i img : Nat) : Prop :=
  ∀ k, k < 32 → (rwsMask r).testBit k = true → (s.rr r i).getLsbD k = img.testBit k

/-- A command gives the host bytes at an address of host memory, and changes nothing else. -/
def HostGets (a : Nat) (b : List Byte) (s v : State) : Prop :=
  v = { s with hif := { s.hif with hostMem := v.hif.hostMem } }
    ∧ ∀ x, memByte v.hif.hostMem x = if a ≤ x ∧ x < a + b.length then b.getD (x - a) 0 else memByte s.hif.hostMem x

/-- An accepted command of a block whose hand-over point is not the tick boundary: its shadows and ARM are written at once, and it
waits for the transfer (R114, R115). -/
def TakenWait (mk : Cmd → Instr) (code : Nat) (chk : Cmd → State → Chk) (a : RegId) (p : Cmd → State → State → Prop) : Prop :=
  ∀ c s, Accepts code chk c s → s.paired = false ∨ mirrored code = false → (∀ x ∈ s.dueNext, x.seq < s.hif.cmdSeq) →
    Completes (mk c) s (fun t => t.hif.cmdSeq = s.hif.cmdSeq + 1 ∧ t.dueNext = s.dueNext ∧ t.arm a c.a = true
      ∧ (∃ e, t.rwsWait = s.rwsWait ++ [e] ∧ e.code = code ∧ e.cmd = c ∧ e.seq = s.hif.cmdSeq) ∧ p c s t)

/-- The shadow of a register holds the fields of class RWS of an image. -/
def State.shadows (s : State) (r : RegId) (i img : Nat) : Prop :=
  ∀ k, k < 32 → (rwsMask r).testBit k = true → (s.shw r i).getLsbD k = img.testBit k

/-- What every state keeps: memories are canonical, the stores hold no more than the spec gives them (R26, R290, R312, R317, R335), and
the samples and drive frames of a tick are counted (R7, R27). -/
structure BlockInv (s : State) : Prop where
  mem     : Memory.wf s.integ.mem = true
  host    : Memory.wf s.hif.hostMem = true
  tcm     : Memory.wf s.sec.tcm0 = true ∧ Memory.wf s.sec.tcm1 = true
  sched   : s.sched.length ≤ 1024
  journal : s.hif.journal.length ≤ 256 ∧ s.ret.sramJrn.length ≤ 256
  merge   : ∀ p ∈ s.integ.merge, p.2.length ≤ 4
  logs    : ∀ p ∈ s.integ.logs, p.2.length ≤ logCap p.1
  faults  : s.smp.log.length ≤ 64
  grid    : s.time.sample ≤ 4 ∧ s.time.frame ≤ 64

/-! ### The instructions of a unit -/

/-- The row of the instruction table that an operation belongs to. -/
def AluOp.Row (op : AluOp) (row : Nat → UPort → Instr) : Prop :=
  match op with
  | .add => row = .add | .adds => row = .adds | .sub => row = .sub | .subs => row = .subs | .and => row = .and
  | .or => row = .or | .xor => row = .xor | .neg => row = .neg | .abs => row = .abs | .min => row = .min | .max => row = .max
  | .cmp => row = .cmp | .lsl => row = .lsl | .lsr => row = .lsr | .asr => row = .asr | .mul => row = .mul
  | .mulf => row = .mulf

def ImmOp.Row (op : ImmOp) (row : Nat → UPort → Instr) : Prop :=
  match op with
  | .addi => row = .addi | .andi => row = .andi | .ori => row = .ori | .xori => row = .xori | .cmpi => row = .cmpi
  | .lsli => row = .lsli | .lsri => row = .lsri | .asri => row = .asri | .movi => row = .movi | .movhi => row = .movhi

def AccOp.Row (op : AccOp) (row : Nat → UPort → Instr) : Prop :=
  match op with
  | .clr => row = .clr | .mpy => row = .mpy | .mpyn => row = .mpyn | .mpyi => row = .mpyi | .mac => row = .mac
  | .msu => row = .msu | .maci => row = .maci | .msui => row = .msui | .adda => row = .adda | .suba => row = .suba
  | .accd => row = .accd | .nega => row = .nega | .absa => row = .absa | .asla => row = .asla | .asra => row = .asra
  | .exp => row = .exp | .norm => row = .norm | .mva => row = .mva | .mva24 => row = .mva24 | .cmpa => row = .cmpa

/-- The core of unit u as the instruction at its PC sees it: the writes it sees have settled (R127). -/
def State.seen (s : State) (u : Nat) : UCore := (s.core u).settle (s.core u).idx

/-- Unit u issues instruction i next: it may issue, the word at its PC reads well and is that instruction, and it may stand
where it stands (R128, R129, R137, R316). -/
structure Issues (u : Nat) (x : UPort) (i : JInstr) (s : State) : Prop where
  may     : s.canIssue u = true
  word    : jdecode (s.fetch u (s.core u).pc) = some i
  fetched : (s.fetchEcc u x.fsyn).1 = 0
  place   : ¬ (((s.core u).slots > 0 ∧ i.noSlot = true) ∨ ((s.core u).rep > 0 ∧ i.noRep = true))

/-- An instruction of unit u leaves everything but the unit, the performance counters and the registers named. -/
def IssueFrame (l : List RegId) (u : Nat) (s t : State) : Prop :=
  t = { s with regs := t.regs, eng := { s.eng with units := t.eng.units } } ∧ (∀ v, v ≠ u → t.unit v = s.unit v)
    ∧ RegsKept ([.PC_CNT, .PC_OVF, .PC_AGG_CNT, .PC_AGG_OVF] ++ l) s t

/-- The unit's core becomes `c`, and nothing outside the unit but performance counters changes. -/
def CoreOnly (u : Nat) (c : UCore) (s t : State) : Prop :=
  IssueFrame [] u s t ∧ t.unit u = { s.unit u with core := c, stepOk := false }

/-- An instruction whose effect is on the core alone. -/
def RunsOnCore (row : Nat → UPort → Instr) (i : JInstr) (f : UPort → UCore → UCore) : Prop :=
  ∀ u x s, Issues u x i s → Completes (row u x) s (CoreOnly u (f x (s.seen u)) s)

/-- An access through pointer k reaches memory at device address a without a trap, through the Cistern window or in local memory
(R103, R125, R137). -/
def Reaches (u k size : Nat) (store : Bool) (x : UPort) (s : State) (a : Nat) (cis : Bool) : Prop :=
  s.uAddr u k ((s.seen u).cr (0x10 + k)).toNat size store = .mem a cis
    ∧ (cis = true → (s.core u).rep = 0 ∧ x.bus = false)
    ∧ (store = false → ∀ w, wordOfDpa a = some w → (s.eccRead w x.syn 1).1 = 0)

/-- The words a load of a size takes from a device address. -/
def State.loaded (s : State) (u a size : Nat) : List Word := s.uWord u a :: (if size = 8 then [s.uWord u (a + 4)] else [])

/-- A load through pointer k: `f` writes what was read, then the pointer steps. -/
def RunsLoad (row : Nat → UPort → Instr) (i : JInstr) (k size : Nat) (step : UCore → Word) (f : UCore → List Word → UCore) : Prop :=
  ∀ u x s a cis, Issues u x i s → Reaches u k size false x s a cis →
    let p := (s.seen u).loadStall k cis (s.remote u) x
    Completes (row u x) s (CoreOnly u (((f p.2 (s.loaded u a size)).stepPtr k (step (s.seen u))).advance p.1) s)

/-- A store through pointer k: its bytes enter the write buffer, then the pointer steps. -/
def RunsStore (row : Nat → UPort → Instr) (i : JInstr) (k size : Nat) (step : UCore → Word) (f : UCore → List Word)
    (g : UCore → UCore) : Prop :=
  ∀ u x s a cis, Issues u x i s → Reaches u k size true x s a cis → (s.core u).wb.length < 8 →
    Completes (row u x) s (CoreOnly u (((g { s.seen u with
      wb := (s.core u).wb ++ [⟨none, a, (f (s.seen u)).flatMap (fun w => leBytes 4 w.toNat), x.syn, (s.core u).pc⟩] }).stepPtr k
        (step (s.seen u))).advance 0) s)

end Sys2Proof.Machine
end

