-- ==== Sys2Proof/Certificates/Slice0/Obligations.lean ====
section
/-! DEFINITION. The statements about the block, for the provers: what each command and event does, the invariant every step keeps,
and the machine's queue. -/

open Sys2Proof Sys2Proof.Machine

/-- The queue: a step with command `c` in front is `exec c` on the state with the rest of the queue. -/
def Obligations.StepTakesTheFrontCommand : Prop :=
  ∀ c l (s : State), step { s with pending := c :: l } = exec c { s with pending := l }

/-- R29, R276, R286: every command and event of the table runs to a next state, in every state; with no command waiting the
block idles (the model's choice, assumption 6). Each command of the catalogue that is accepted and has no target takes the next
number and stands in the list of its boundary (or waits for the hand-over point of its block), where its effect is that
command's own. -/
def Obligations.EveryCommandIsServed : Prop :=
  let placed (c : Cmd) (code : Nat) (f : Entry → State → State) (s t : State) (l : List Entry) :=
    t.hif.cmdSeq = s.hif.cmdSeq + 1
      ∧ ∃ e ∈ l, e.code = code ∧ e.cmd = c ∧ e.seq = s.hif.cmdSeq ∧ ∀ v, applyEntry e v = f e v
  let due (c : Cmd) (code : Nat) (f : Entry → State → State) (s t : State) := placed c code f s t t.dueNext
  let waits (c : Cmd) (code : Nat) (f : Entry → State → State) (s t : State) := placed c code f s t (t.rwsWait ++ t.dueNext)
  let fresh (s : State) := ∀ x ∈ s.dueNext, x.seq < s.hif.cmdSeq
  (∀ c s, ∃ t, exec c s = .next t)
  ∧ (∀ s, s.pending = [] → step s = .next s)
  ∧ (∀ c s, Accepts Code.NOP chkNop c s → ∃ t, exec (.nop c) s = .next t ∧ due c Code.NOP applyNop s t)
  ∧ (∀ c s, Accepts Code.CFG_JOURNAL_READ chkCfgJournalRead c s →
      ∃ t, exec (.cfgJournalRead c) s = .next t ∧ due c Code.CFG_JOURNAL_READ applyCfgJournalRead s t)
  ∧ (∀ c s, Accepts Code.REG_SET chkRegSet c s → ∃ t, exec (.regSet c) s = .next t ∧ due c Code.REG_SET applyRegSet s t)
  ∧ (∀ c s, Accepts Code.MT_STEP chkMtStep c s → ∃ t, exec (.mtStep c) s = .next t ∧ due c Code.MT_STEP applyMtStep s t)
  ∧ (∀ c s, Accepts Code.EPOCH_RESTART chkNone c s → ∃ t, exec (.epochRestart c) s = .next t ∧ PlacedNext Code.EPOCH_RESTART c s t)
  ∧ (∀ c s, Accepts Code.MT_RATE_SET chkMtRateSet c s →
      ∃ t, exec (.mtRateSet c) s = .next t ∧ due c Code.MT_RATE_SET applyMtRateSet s t)
  ∧ (∀ c s, Accepts Code.WH_ACQUIRE chkWhAcquire c s →
      ∃ t, exec (.whAcquire c) s = .next t ∧ due c Code.WH_ACQUIRE applyWhAcquire s t)
  ∧ (∀ c s, Accepts Code.WH_LOOP_OPEN chkWhLoop c s →
      ∃ t, exec (.whLoopOpen c) s = .next t ∧ due c Code.WH_LOOP_OPEN applyWhLoopOpen s t)
  ∧ (∀ c s, Accepts Code.WH_LOOP_CLOSE chkWhLoop c s →
      ∃ t, exec (.whLoopClose c) s = .next t ∧ due c Code.WH_LOOP_CLOSE applyWhLoopClose s t)
  ∧ (∀ c s, Accepts Code.WH_PHASE_STEP chkWhPhaseStep c s →
      ∃ t, exec (.whPhaseStep c) s = .next t ∧ due c Code.WH_PHASE_STEP applyWhPhaseStep s t)
  ∧ (∀ c s, Accepts Code.ROUTE_WRITE chkRouteWrite c s →
      ∃ t, exec (.routeWrite c) s = .next t ∧ due c Code.ROUTE_WRITE applyRouteWrite s t)
  ∧ (∀ c s, Accepts Code.ROUTE_READ chkRouteRead c s →
      ∃ t, exec (.routeRead c) s = .next t ∧ due c Code.ROUTE_READ applyRouteRead s t)
  ∧ (∀ c s, Accepts Code.ROUTE_COMMIT chkRouteCommit c s →
      ∃ t, exec (.routeCommit c) s = .next t ∧ due c Code.ROUTE_COMMIT applyRouteCommit s t)
  ∧ (∀ c s, Accepts Code.ROUTE_STATUS chkNone c s →
      ∃ t, exec (.routeStatus c) s = .next t ∧ due c Code.ROUTE_STATUS applyRouteStatus s t)
  ∧ (∀ c s, Accepts Code.XP_WRITE chkXpWrite c s → ∃ t, exec (.xpWrite c) s = .next t ∧ due c Code.XP_WRITE applyXpWrite s t)
  ∧ (∀ c s, Accepts Code.XP_READ chkXpRead c s → ∃ t, exec (.xpRead c) s = .next t ∧ due c Code.XP_READ applyXpRead s t)
  ∧ (∀ c s, Accepts Code.XP_COMMIT chkXpCommit c s → ∃ t, exec (.xpCommit c) s = .next t ∧ due c Code.XP_COMMIT applyXpCommit s t)
  ∧ (∀ c s, Accepts Code.XP_SET chkXpSet c s → ∃ t, exec (.xpSet c) s = .next t ∧ due c Code.XP_SET applyXpSet s t)
  ∧ (∀ c s, Accepts Code.SP_CONFIG chkSpConfig c s → ∃ t, exec (.spConfig c) s = .next t ∧ due c Code.SP_CONFIG applySpConfig s t)
  ∧ (∀ c s, Accepts Code.SP_PLAY chkSpPlay c s → ∃ t, exec (.spPlay c) s = .next t ∧ due c Code.SP_PLAY applySpPlay s t)
  ∧ (∀ c s, Accepts Code.SP_STOP chkSpStop c s → ∃ t, exec (.spStop c) s = .next t ∧ due c Code.SP_STOP applySpStop s t)
  ∧ (∀ c s, Accepts Code.SP_MSG_BLOCK chkSpMsgBlock c s →
      ∃ t, exec (.spMsgBlock c) s = .next t ∧ due c Code.SP_MSG_BLOCK applySpMsgBlock s t)
  ∧ (∀ c s, Accepts Code.SP_MSG_COMMIT chkSpMsgCommit c s →
      ∃ t, exec (.spMsgCommit c) s = .next t ∧ due c Code.SP_MSG_COMMIT applySpMsgCommit s t)
  ∧ (∀ c s, Accepts Code.CL_RESET chkClReset c s → ∃ t, exec (.clReset c) s = .next t ∧ due c Code.CL_RESET applyClReset s t)
  ∧ (∀ c s, Accepts Code.UNIT_SPARE chkUnitSpare c s →
      ∃ t, exec (.unitSpare c) s = .next t ∧ due c Code.UNIT_SPARE applyUnitSpare s t)
  ∧ (∀ c s, Accepts Code.UNIT_RESTORE chkUnitRestore c s →
      ∃ t, exec (.unitRestore c) s = .next t ∧ due c Code.UNIT_RESTORE applyUnitRestore s t)
  ∧ (∀ c s, Accepts Code.UNIT_LOAD chkUnitLoad c s → ∃ t, exec (.unitLoad c) s = .next t ∧ due c Code.UNIT_LOAD applyUnitLoad s t)
  ∧ (∀ c s, Accepts Code.UNIT_UNLOAD chkUnitUnload c s →
      ∃ t, exec (.unitUnload c) s = .next t ∧ due c Code.UNIT_UNLOAD applyUnitUnload s t)
  ∧ (∀ c s, Accepts Code.UNIT_SET chkUnitSet c s → ∃ t, exec (.unitSet c) s = .next t ∧ due c Code.UNIT_SET applyUnitSet s t)
  ∧ (∀ c s, Accepts Code.INS_WRITE chkInsWrite c s → ∃ t, exec (.insWrite c) s = .next t ∧ due c Code.INS_WRITE applyInsWrite s t)
  ∧ (∀ c s, Accepts Code.INS_READ chkInsRead c s → ∃ t, exec (.insRead c) s = .next t ∧ due c Code.INS_READ applyInsRead s t)
  ∧ (∀ c s, Accepts Code.INS_COMMIT chkInsCommit c s →
      ∃ t, exec (.insCommit c) s = .next t ∧ due c Code.INS_COMMIT applyInsCommit s t)
  ∧ (∀ c s, Accepts Code.DP_SET chkDpSet c s → fresh s →
      ∃ t, exec (.dpSet c) s = .next t ∧ waits c Code.DP_SET applyDpSet s t)
  ∧ (∀ c s, Accepts Code.DP_RETRAIN chkPort24 c s → ∃ t, exec (.dpRetrain c) s = .next t ∧ due c Code.DP_RETRAIN applyDpRetrain s t)
  ∧ (∀ c s, Accepts Code.DP_MBX_SEND chkDpMbxSend c s →
      ∃ t, exec (.dpMbxSend c) s = .next t ∧ due c Code.DP_MBX_SEND applyDpMbxSend s t)
  ∧ (∀ c s, Accepts Code.DC_WRITE chkDcWrite c s → ∃ t, exec (.dcWrite c) s = .next t ∧ due c Code.DC_WRITE applyDcWrite s t)
  ∧ (∀ c s, Accepts Code.DC_READ chkDcRead c s → ∃ t, exec (.dcRead c) s = .next t ∧ due c Code.DC_READ applyDcRead s t)
  ∧ (∀ c s, Accepts Code.DC_COMMIT chkDcCommit c s → ∃ t, exec (.dcCommit c) s = .next t ∧ due c Code.DC_COMMIT applyDcCommit s t)
  ∧ (∀ c s, Accepts Code.BG_SET chkBgSet c s → ∃ t, exec (.bgSet c) s = .next t ∧ due c Code.BG_SET applyBgSet s t)
  ∧ (∀ c s, Accepts Code.FLT_SET chkFltSet c s → ∃ t, exec (.fltSet c) s = .next t ∧ due c Code.FLT_SET applyFltSet s t)
  ∧ (∀ c s, Accepts Code.FLT_LINE_WRITE chkFltLineWrite c s →
      ∃ t, exec (.fltLineWrite c) s = .next t ∧ due c Code.FLT_LINE_WRITE applyFltLineWrite s t)
  ∧ (∀ c s, Accepts Code.FLT_LINE_READ chkFltLineRead c s →
      ∃ t, exec (.fltLineRead c) s = .next t ∧ due c Code.FLT_LINE_READ applyFltLineRead s t)
  ∧ (∀ c s, Accepts Code.FLT_REMEASURE chkFltRemeasure c s →
      ∃ t, exec (.fltRemeasure c) s = .next t ∧ due c Code.FLT_REMEASURE applyFltRemeasure s t)
  ∧ (∀ c s, Accepts Code.FLT_CLEAR chkNone c s → ∃ t, exec (.fltClear c) s = .next t ∧ due c Code.FLT_CLEAR applyFltClear s t)
  ∧ (∀ c s, Accepts Code.FLT_READ chkFltRead c s → ∃ t, exec (.fltRead c) s = .next t ∧ due c Code.FLT_READ applyFltRead s t)
  ∧ (∀ c s, Accepts Code.LW_BASELINE chkLwBaseline c s →
      ∃ t, exec (.lwBaseline c) s = .next t ∧ due c Code.LW_BASELINE applyLwBaseline s t)
  ∧ (∀ c s, Accepts Code.LW_READ chkLwRead c s → ∃ t, exec (.lwRead c) s = .next t ∧ due c Code.LW_READ applyLwRead s t)
  ∧ (∀ c s, Accepts Code.LW_SWEEP chkLwSweep c s → ∃ t, exec (.lwSweep c) s = .next t ∧ due c Code.LW_SWEEP applyLwSweep s t)
  ∧ (∀ c s, Accepts Code.LW_SWEEP_ABORT chkNone c s →
      ∃ t, exec (.lwSweepAbort c) s = .next t ∧ due c Code.LW_SWEEP_ABORT applyLwSweepAbort s t)
  ∧ (∀ c s, Accepts Code.LW_SWEEP_READ chkLwSweepRead c s →
      ∃ t, exec (.lwSweepRead c) s = .next t ∧ due c Code.LW_SWEEP_READ applyLwSweepRead s t)
  ∧ (∀ c s, Accepts Code.TDM_SET chkTdmSet c s → fresh s →
      ∃ t, exec (.tdmSet c) s = .next t ∧ waits c Code.TDM_SET applyTdmSet s t)
  ∧ (∀ c s, Accepts Code.TDM_RING_SET chkTdmRingSet c s →
      ∃ t, exec (.tdmRingSet c) s = .next t ∧ due c Code.TDM_RING_SET applyTdmRingSet s t)
  ∧ (∀ c s, Accepts Code.TDM_AG_START chkTdmAgStart c s →
      ∃ t, exec (.tdmAgStart c) s = .next t ∧ due c Code.TDM_AG_START applyTdmAgStart s t)
  ∧ (∀ c s, Accepts Code.TDM_AG_STOP chkTdmAgStop c s →
      ∃ t, exec (.tdmAgStop c) s = .next t ∧ due c Code.TDM_AG_STOP applyTdmAgStop s t)
  ∧ (∀ c s, Accepts Code.PDM_SET chkPdmSet c s → fresh s →
      ∃ t, exec (.pdmSet c) s = .next t ∧ waits c Code.PDM_SET applyPdmSet s t)
  ∧ (∀ c s, Accepts Code.NET_SET chkNetSet c s → ∃ t, exec (.netSet c) s = .next t ∧ due c Code.NET_SET applyNetSet s t)
  ∧ (∀ c s, Accepts Code.NET_PTP_DS chkNetPtpDs c s → ∃ t, exec (.netPtpDs c) s = .next t ∧ due c Code.NET_PTP_DS applyNetPtpDs s t)
  ∧ (∀ c s, Accepts Code.FWD_WRITE chkFwdWrite c s → ∃ t, exec (.fwdWrite c) s = .next t ∧ due c Code.FWD_WRITE applyFwdWrite s t)
  ∧ (∀ c s, Accepts Code.FWD_READ chkFwdRead c s → ∃ t, exec (.fwdRead c) s = .next t ∧ due c Code.FWD_READ applyFwdRead s t)
  ∧ (∀ c s, Accepts Code.FWD_COMMIT chkFwdCommit c s →
      ∃ t, exec (.fwdCommit c) s = .next t ∧ due c Code.FWD_COMMIT applyFwdCommit s t)
  ∧ (∀ c s, Accepts Code.NET_STREAM_RX chkNetStreamRx c s →
      ∃ t, exec (.netStreamRx c) s = .next t ∧ due c Code.NET_STREAM_RX applyNetStreamRx s t)
  ∧ (∀ c s, Accepts Code.NET_STREAM_TX chkNetStreamTx c s →
      ∃ t, exec (.netStreamTx c) s = .next t ∧ due c Code.NET_STREAM_TX applyNetStreamTx s t)
  ∧ (∀ c s, Accepts Code.NET_STREAM_DEL chkNetStreamDel c s →
      ∃ t, exec (.netStreamDel c) s = .next t ∧ due c Code.NET_STREAM_DEL applyNetStreamDel s t)
  ∧ (∀ c s, Accepts Code.NET_STREAM_READ chkNetStreamRead c s →
      ∃ t, exec (.netStreamRead c) s = .next t ∧ due c Code.NET_STREAM_READ applyNetStreamRead s t)
  ∧ (∀ c s, Accepts Code.NET_FRAME_TX chkNetFrameTx c s →
      ∃ t, exec (.netFrameTx c) s = .next t ∧ due c Code.NET_FRAME_TX applyNetFrameTx s t)
  ∧ (∀ c s, Accepts Code.NET_FRAME_READ chkNetFrameRead c s →
      ∃ t, exec (.netFrameRead c) s = .next t ∧ due c Code.NET_FRAME_READ applyNetFrameRead s t)
  ∧ (∀ c s, Accepts Code.SMP_ACK chkSmpAck c s → ∃ t, exec (.smpAck c) s = .next t ∧ due c Code.SMP_ACK applySmpAck s t)
  ∧ (∀ c s, Accepts Code.SMP_INJECT chkSmpInject c s →
      ∃ t, exec (.smpInject c) s = .next t ∧ due c Code.SMP_INJECT applySmpInject s t)
  ∧ (∀ c s, Accepts Code.SMP_SET chkSmpSet c s → ∃ t, exec (.smpSet c) s = .next t ∧ due c Code.SMP_SET applySmpSet s t)
  ∧ (∀ c s, Accepts Code.TW_SET chkTwSet c s → ∃ t, exec (.twSet c) s = .next t ∧ due c Code.TW_SET applyTwSet s t)
  ∧ (∀ c s, Accepts Code.TW_YIELD chkTwYield c s → ∃ t, exec (.twYield c) s = .next t ∧ due c Code.TW_YIELD applyTwYield s t)
  ∧ (∀ c s, Accepts Code.TW_RESYNC chkTwResync c s → ∃ t, exec (.twResync c) s = .next t ∧ due c Code.TW_RESYNC applyTwResync s t)
  ∧ (∀ c s, Accepts Code.TW_HOME chkTwHome c s → ∃ t, exec (.twHome c) s = .next t ∧ due c Code.TW_HOME applyTwHome s t)
  ∧ (∀ c s, Accepts Code.PWR_SET chkPwrSet c s → ∃ t, exec (.pwrSet c) s = .next t ∧ due c Code.PWR_SET applyPwrSet s t)
  ∧ (∀ c s, Accepts Code.FW_BLOCK chkFwBlock c s → ∃ t, exec (.fwBlock c) s = .next t ∧ due c Code.FW_BLOCK applyFwBlock s t)
  ∧ (∀ c s, Accepts Code.FW_VERIFY chkFwVerify c s → ∃ t, exec (.fwVerify c) s = .next t ∧ due c Code.FW_VERIFY applyFwVerify s t)
  ∧ (∀ c s, Accepts Code.FW_ACTIVATE chkFwActivate c s →
      ∃ t, exec (.fwActivate c) s = .next t ∧ due c Code.FW_ACTIVATE applyFwActivate s t)
  ∧ (∀ c s, Accepts Code.FW_COMMIT chkFwCommit c s → ∃ t, exec (.fwCommit c) s = .next t ∧ due c Code.FW_COMMIT applyFwCommit s t)
  ∧ (∀ c s, Accepts Code.SEC_SEAL chkSecSeal c s → ∃ t, exec (.secSeal c) s = .next t ∧ due c Code.SEC_SEAL applySecSeal s t)
  ∧ (∀ c s, Accepts Code.DBG_CHALLENGE chkDbgChallenge c s →
      ∃ t, exec (.dbgChallenge c) s = .next t ∧ due c Code.DBG_CHALLENGE applyDbgChallenge s t)
  ∧ (∀ c s, Accepts Code.DBG_OPEN chkDbgOpen c s → ∃ t, exec (.dbgOpen c) s = .next t ∧ due c Code.DBG_OPEN applyDbgOpen s t)
  ∧ (∀ c s, Accepts Code.DBG_CLOSE chkDbgClose c s → ∃ t, exec (.dbgClose c) s = .next t ∧ due c Code.DBG_CLOSE applyDbgClose s t)
  ∧ (∀ c s, Accepts Code.CENSUS_AT chkCensusAt c s → ∃ t, exec (.censusAt c) s = .next t ∧ due c Code.CENSUS_AT applyCensusAt s t)
  ∧ (∀ c s, Accepts Code.PC_SET chkPcSet c s → ∃ t, exec (.pcSet c) s = .next t ∧ due c Code.PC_SET applyPcSet s t)

/-- R7, R26, R27, R290, R312, R317, R335: a step keeps the memories canonical and every store of the block within what the spec
gives it, and takes one command from the queue. -/
def Obligations.StepKeepsTheInvariant : Prop :=
  ∀ s t, BlockInv s → step s = .next t → BlockInv t ∧ t.pending = s.pending.tail

/-- The state after reset meets the invariant, with no command waiting and every register at its value after power-up. Where the
spec gives a register no reset value, 0 is the model's choice (assumption 7). -/
def Obligations.ResetMeetsTheInvariant : Prop :=
  BlockInv State.reset ∧ State.reset.pending = [] ∧ ∀ r i, State.reset.rr r i = BitVec.ofNat 32 (resetWord r i)

/-- R147, R148: every well-formed instruction of a unit is read back from its word, and every word that decodes is the word of
exactly the instruction it decodes to. -/
def Obligations.JalobWordsRoundTrip : Prop :=
  (∀ i : JInstr, i.wf = true → jdecode (jencode i) = some i)
    ∧ ∀ w i, jdecode w = some i → i.wf = true ∧ jencode i = w

/-- R24, R26, R28, R276, R278, R289, R290: a refused command has one completion, with the status of its refusal and no
generation, and no other effect on the commands placed. A command with a target waits in the scheduler under its placement
instant, armed, and is refused when 1,024 are armed. A command that ends leaves its journal entry where it has a generation, and
generations skip 0. -/
def Obligations.CommandsAreRefusedPlacedAndJournaled : Prop :=
  (∀ code chk c s, s.noCmds = false → s.hif.await = [] → s.hif.finals = [] →
      (preCheck code c (s.taken c) ≠ Sts.OK ∨ (chk c (s.taken c)).1 ≠ Sts.OK) →
      (submit code chk c s).hif.cmdSeq = s.hif.cmdSeq + 1 ∧ (submit code chk c s).sched = s.sched
        ∧ (submit code chk c s).dueNext = s.dueNext
        ∧ ∃ x, (submit code chk c s).hif.lastCpl = some x ∧ x.tag = c.tag ∧ x.code = code ∧ x.gen = 0 ∧ x.armed = false
          ∧ x.status = if preCheck code c (s.taken c) ≠ Sts.OK then preCheck code c (s.taken c) else (chk c (s.taken c)).1)
  ∧ (∀ code chk c s, s.noCmds = false → preCheck code c (s.taken c) = Sts.OK → (chk c (s.taken c)).1 = Sts.OK → c.tgt = true →
      s.hif.await = [] → s.hif.finals = [] → ((s.taken c).now : Int) ≤ (s.taken c).extTarget c →
      (s.taken c).now < placeOf code ((s.taken c).extTarget c).toNat →
      (s.sched.length < 1024 →
        ∃ e x, (submit code chk c s).sched = s.sched ++ [e] ∧ e.cmd = c ∧ e.code = code
          ∧ e.place = placeOf code ((s.taken c).extTarget c).toNat ∧ e.gen = ((s.taken c).genFor code c).1 ∧ e.late = false
          ∧ (submit code chk c s).dueNext = s.dueNext
          ∧ (submit code chk c s).hif.lastCpl = some x ∧ x.armed = true ∧ x.status = Sts.OK ∧ x.gen = e.gen
          ∧ x.mts = mtsOf e.place)
      ∧ (1024 ≤ s.sched.length →
        (submit code chk c s).sched = s.sched
          ∧ ∃ x, (submit code chk c s).hif.lastCpl = some x ∧ x.status = Sts.MT_SCHED_FULL ∧ x.gen = 0))
  ∧ (∀ (e : Entry) (s : State) status result full, e.gen ≠ 0 →
      ∃ x, (s.finish e status result full).hif.journal.getLast? = some x ∧ x.gen = e.gen ∧ x.code = e.code ∧ x.status = status
        ∧ x.source = e.cmd.src ∧ x.tag = e.cmd.tag)
  ∧ (∀ (e : Entry) (s : State) status result full, e.gen = 0 → (s.finish e status result full).hif.journal = s.hif.journal)
  ∧ ∀ n, nextGen n ≠ 0 ∧ nextGen n < 2 ^ 32

/-- R16: an epoch starts at power-up, with the count at 0, and when EPOCH_RESTART is executed, which counts one up modulo 2¹⁶.
-/
def Obligations.EpochsAreCounted : Prop :=
  State.reset.fg F.MT_EPOCH_EPOCH 0 = 0 ∧ State.reset.time.first = true ∧ State.reset.time.epochMt = 0
  ∧ (∀ c s, Accepts Code.EPOCH_RESTART chkNone c s → Completes (.epochRestart c) s (PlacedNext Code.EPOCH_RESTART c s))
  ∧ ∀ e s, (applyEpochRestart e s).fg F.MT_EPOCH_EPOCH 0 = (s.fg F.MT_EPOCH_EPOCH 0 + 1) % 65536
    ∧ (applyEpochRestart e s).time.first = false ∧ (applyEpochRestart e s).time.epochMt = s.now
    ∧ (applyEpochRestart e s).sched = []
    ∧ (applyEpochRestart e s).aud.muted = true ∧ (applyEpochRestart e s).time.freeWait = false ∧ (applyEpochRestart e s).now = s.now

/-- R320, R316: the Dipper's handling of an uncorrectable word, and the list of 4 that keeps it from reporting a word again; a
requester reports it whatever the list holds, until a full write replaces the word. -/
def Obligations.DippersReportAnUncorrectableWordOnce : Prop :=
  (∀ d w syn last s, d < 8 → s.dipState d = 1 → s.dipCovers d w = true → s.hasEntry w = false → eccDecide (s.effSyn w syn) = 2 →
    wkey w ∉ (s.dipOf (min d 6)).known →
    Completes (.dipperRead d w syn last) s (fun t =>
      t.detq = s.detq ++ [⟨0x01, w.log, w.inst, 3, s.effSyn w syn, s.mts, false, false, 0⟩]
        ∧ (∀ x ∈ t.detq, x.fam = 0x01 → x.cls = 0)
        ∧ (∃ e, (mget [] t.integ.logs w.log).getLast? = some e ∧ e.w1 = w.word % 2 ^ 32 ∧ e.w0.testBit 30 = true ∧ e.mts = s.mts)
        ∧ t.integ.mem = s.integ.mem
        ∧ (∀ syn' req, (t.eccRead w syn' req).1 = 2)
        ∧ (t.dipOf (min d 6)).known
          = let k := (s.dipOf (min d 6)).known ++ [wkey w]
            k.drop (k.length - 4)))
  ∧ (∀ d w syn last s, d < 8 → s.dipState d = 1 → eccDecide (s.effSyn w syn) = 2 → wkey w ∈ (s.dipOf (min d 6)).known →
      Completes (.dipperRead d w syn last) s (fun t => t.detq = s.detq ∧ t.integ.logs = s.integ.logs ∧ t.integ.mem = s.integ.mem
        ∧ (t.dipOf (min d 6)).known = (s.dipOf (min d 6)).known))
  ∧ (∀ w syn req (s : State), eccDecide (s.effSyn w syn) = 2 →
      (s.eccRead w syn req).1 = 2 ∧ (s.eccRead w syn req).2.detq
        = s.detq ++ [⟨0x01, w.log, w.inst, req, s.effSyn w syn, s.mts, false, false, 0⟩])
  ∧ ∀ w (s : State), (∀ d, wkey w ∉ ((s.fullWrite w).dipOf d).known) ∧ ∀ req, ((s.fullWrite w).eccRead w 0 req).1 = 0

/-- R385: SEC_SEAL is refused with SEC_STATE on a sealed device and while a group of 0-2 is not locked; else SEALED reads 1 from
its completion on, through every reset, and the level falls to NONE as at the end of a session, with the halted cores resuming.
-/
def Obligations.SealingEndsTheOpenState : Prop :=
  let refused (s : State) := s.fb F.SEC_STATE_SEALED 0 = true ∨ s.fb F.SEC_STATE_FW_KEY 0 = false
    ∨ s.fb F.SEC_STATE_DBG_KEY 0 = false ∨ s.fb F.SEC_STATE_CEIL_LOCK 0 = false
  (∀ c s, s.noCmds = false → s.hif.await = [] → s.hif.finals = [] → preCheck Code.SEC_SEAL c (s.taken c) = Sts.OK → refused (s.taken c) →
    Completes (.secSeal c) s (fun t => t.rr .SEC_STATE 0 = s.rr .SEC_STATE 0 ∧ t.dueNext = s.dueNext ∧ t.sched = s.sched
      ∧ ∃ x, t.hif.lastCpl = some x ∧ x.tag = c.tag ∧ x.status = Sts.SEC_STATE))
  ∧ TakenThen .secSeal Code.SEC_SEAL chkSecSeal (fun e s t =>
      (refused s → Ends e Sts.SEC_STATE [] s t)
      ∧ (¬ refused s → ∃ v, Ends e Sts.OK [] v t ∧ t.fb F.SEC_STATE_SEALED 0 = true ∧ v.fb F.SEC_STATE_SEALED 0 = true
        ∧ v.fb F.DBG_STAT_SESSION 0 = false ∧ v.fg F.DBG_STAT_LEVEL 0 = 0 ∧ v.fg F.DBG_STAT_MAX 0 = 0
        ∧ v.sec.sessEnd = none ∧ (∀ u, (v.unit u).halted = false) ∧ v.pairHalted = false))
  ∧ ∀ low s, 10000 ≤ low → Completes (.porNAssert low) s (fun t => t.rr .SEC_STATE 0 = s.rr .SEC_STATE 0)

/-- R400: FW_VERIFY reports the first failure of R397, then FW_SCHEMA where the settings copy in force has a schema outside the
image's range; a bank that passes becomes VERIFIED, and a failure leaves it as it is. -/
def Obligations.VerificationJudgesABank : Prop :=
  TakenThen .fwVerify Code.FW_VERIFY chkFwVerify (fun e s t => t = { s with sec := { s.sec with work := s.sec.work ++ [e] } })
  ∧ ∀ b e s, b < 2 → s.sec.work = [e] → e.code = Code.FW_VERIFY → e.cmd.a = b → Completes (.fwVerifyComplete b) s (fun t =>
      ∃ v k, Ends e k [] v t ∧ v.sec.work = []
        ∧ (s.fwVerify b ≠ Sts.OK → k = s.fwVerify b)
        ∧ (s.fwVerify b = Sts.OK →
            k = if s.curCopy.valid = true ∧ ¬ (s.fwImport b ≤ s.curCopy.schema ∧ s.curCopy.schema ≤ s.fwSchema b)
              then Sts.FW_SCHEMA else Sts.OK)
        ∧ (k = Sts.OK → (s.fwState b = 1 ∨ s.fwState b = 5 ∨ s.fwState b = 6) → v.fwState b = 2)
        ∧ (k ≠ Sts.OK → v.fwState b = s.fwState b))

/-- R415, R419: PC_SET names a unit or an aggregator with four selections; at its boundary it writes them and clears the
counters and their OVF bits. An unknown code or an index out of range refuses it whole. The selections are not retained and read
0 at power-up. -/
def Obligations.PcSetSelectsAndClears : Prop :=
  let sel (c : Cmd) (j : Nat) := [c.i0, c.i1, c.i2, c.i3].getD j 0
  let unitSel (w : Nat) := w % 64 ≤ 15 ∧ w < 128
  let aggSel (w : Nat) := w % 64 ≤ 7 ∧ w / 256 % 64 ≤ 15 ∧ w < 2 ^ 20 ∧ w / 2 ^ 7 % 2 = 0 ∧ w / 2 ^ 14 % 4 = 0
  (∀ c s, c.i0 < 2 ^ 32 → c.i1 < 2 ^ 32 → c.i2 < 2 ^ 32 → c.i3 < 2 ^ 32 → (chkPcSet c s).1
    = if (c.a < 192 ∧ ∀ j, j < 4 → unitSel (sel c j)) ∨ (0x100 ≤ c.a ∧ c.a < 0x106 ∧ ∀ j, j < 4 → aggSel (sel c j)) then Sts.OK
      else Sts.CMD_RANGE)
  ∧ TakenThen .pcSet Code.PC_SET chkPcSet (fun e s t =>
      (e.cmd.a < 192 → ∃ v, Ends e Sts.OK [] v t ∧ v.rr .PC_OVF e.cmd.a = 0 ∧ RegsKept [.PC_CNT, .PC_SEL, .PC_OVF] s v
        ∧ ∀ j, j < 4 → v.rr .PC_CNT (4 * e.cmd.a + j) = 0 ∧ v.rr .PC_SEL (4 * e.cmd.a + j) = BitVec.ofNat 32 (sel e.cmd j))
      ∧ ∀ g, g < 6 → e.cmd.a = 0x100 + g → ∃ v, Ends e Sts.OK [] v t ∧ v.rr .PC_AGG_OVF g = 0
        ∧ RegsKept [.PC_AGG_CNT, .PC_AGG_SEL, .PC_AGG_OVF] s v
        ∧ ∀ j, j < 4 → v.rr .PC_AGG_CNT (4 * g + j) = 0 ∧ v.rr .PC_AGG_SEL (4 * g + j) = BitVec.ofNat 32 (sel e.cmd j))
  ∧ keptRegs .PC_SEL = false ∧ keptRegs .PC_AGG_SEL = false
  ∧ ∀ i, State.reset.rr .PC_SEL i = 0 ∧ State.reset.rr .PC_AGG_SEL i = 0

/-- R362, R442, R266: POR_N low for 10 µs or more resets the device at the falling edge. The always-on SRAM, QSPI NOR and the
fuses keep their contents, the reset record latches the package level, and every other register reads its value after power-up.
A low level of POR_N shorter than 1 µs is ignored. A Function Level Reset and PERST_N reset the host interface alone: it
re-enters SETUP with its ring registers at their values after power-up, its staging image, rings and MSI-X table cleared, and
every debug session ends. The audio path, the drive channels, the matrix, the network and the armed events go on. -/
def Obligations.ResetsLeaveWhatTheyKeep : Prop :=
  (
  ∀ low s, 10000 ≤ low → Completes (.porNAssert low) s (fun t =>
    t.ret.porLow = true ∧ t.ret.recLevel = s.level ∧ t.ret.recOff = (s.pwr == 3)
      ∧ t.ret.aonValid = s.ret.aonValid ∧ t.ret.copy0 = s.ret.copy0 ∧ t.ret.copy1 = s.ret.copy1
      ∧ t.ret.sramJrn = s.ret.sramJrn ∧ t.sec.bankA = s.sec.bankA ∧ t.sec.bankB = s.sec.bankB ∧ t.sec.fuse = s.sec.fuse
      ∧ t.time = TimeSt.reset ∧ t.sched = [] ∧ t.dueNext = [] ∧ t.detq = [] ∧ t.aud = AudioSt.reset ∧ t.drv = DrvSt.reset
      ∧ t.eng = EngSt.reset ∧ t.net = NetSt.reset ∧ t.integ = IntegSt.reset ∧ t.pending = s.pending
      ∧ ∀ r i, porKeeps r = false → r ≠ .SEC_FW_STAT → i < 2048 → t.rr r i = BitVec.ofNat 32 (resetWord r i)))
  ∧ (
  ∀ low s, low < 1000 → exec (.porNAssert low) s = .next s)
  ∧ (
  ∀ i s, i = Instr.functionLevelReset ∨ i = Instr.perstNAssert → Completes i s (fun t =>
    t.fg F.HIF_STAT_STATE 0 = 0
      ∧ (∀ r, r < 32 → t.rr .HIF_RING_CFG r = BitVec.ofNat 32 (resetWord .HIF_RING_CFG r)
          ∧ t.rr .HIF_RING_IDX r = BitVec.ofNat 32 (resetWord .HIF_RING_IDX r) ∧ t.rr .HIF_RING_STAT r = BitVec.ofNat 32 (resetWord .HIF_RING_STAT r))
      ∧ t.hif.staged = [] ∧ t.hif.goArmed = false ∧ t.hif.await = [] ∧ t.hif.finals = [] ∧ t.hif.msix = [] ∧ t.hif.taken = []
      ∧ t.hif.pci = PciCfg.reset ∧ (∀ k, k / 2 ^ 32 = 4 → mget [] t.aud.inq k = [])
      ∧ t.hif.journal = s.hif.journal ∧ t.fg F.DBG_STAT_SESSION 0 = 0
      ∧ t.sched = s.sched ∧ t.dueNext = s.dueNext ∧ t.drv = s.drv ∧ t.sp = s.sp ∧ t.net = s.net ∧ t.time = s.time ∧ t.ret = s.ret
      ∧ t.aud.rt = s.aud.rt ∧ t.aud.xp = s.aud.xp))

/-- R363, R377, R437: At POR_N release Media Time starts at 0, the cause of the reset is classed by AON_VALID and shown, and the
fuse words of Float are sampled; with TEST_EN = 1 the device does not start (R430). Clearing AON_VALID changes nothing else
(R362). A thermal hold begins at start-up while a die sensor reads 130 °C or more, and ends when all read below 127 °C; nothing
else changes. -/
def Obligations.ReleaseClassesTheResetAndHeatHoldsIt : Prop :=
  (
  (∀ k s, k.testBit 1 = false → s.ret.porLow = true → Completes (.porNRelease k) s (fun t =>
    t.ret.porLow = false ∧ t.ret.straps = k ∧ t.time = TimeSt.reset ∧ t.ret.boot = 0
      ∧ t.fg F.RW_STAT_WARM 0 = b2n s.ret.aonValid
      ∧ t.fg F.RW_CAUSE_CAUSE 0
        = (if s.ret.aonValid = false then 0 else if s.ret.recOff = true then 2 else if s.ret.recLevel = 4 then 3 else 1)
      ∧ t.fg F.RW_CAUSE_RESETS 0 = (if s.ret.aonValid = true then min (s.ret.sramCnt + 1) 65535 else 0)
      ∧ t.rr .FLT_FUSE0 0 = s.fuseWord 2 0 ∧ t.rr .FLT_FUSE1 0 = s.fuseWord 2 1))
  ∧ (∀ k s, k.testBit 1 = true → s.ret.porLow = true → Completes (.porNRelease k) s (fun t => t.ret.porLow = true ∧ t.regs = s.regs))
  ∧ ∀ s, exec .aonValidClear s = .next { s with ret := { s.ret with aonValid := false } })
  ∧ (
  (∀ s, s.ret.boot = 0 → s.ret.porLow = false → s.fwMode ≠ 3 → (∃ p ∈ s.smp.temps, 1300 ≤ p.2) →
    exec .thermalHold s = .next { s with ret := { s.ret with hold := true } })
  ∧ ∀ s, (∀ p ∈ s.smp.temps, p.2 < 1270) → exec .thermalHoldEnd s = .next { s with ret := { s.ret with hold := false } })

/-- R402, R397, R10, R310, R373, R375, R404, R445, R311, R363, R364, R365: The boot ROM selects the first bank of its order when
that bank verifies, and runs it in the mode the order gives; when no bank is left in a state that may run, the device enters
RECOVERY. An LPDDR that does not train stops start-up, shown as HUB_FAIL (assumption 77). With no settings copy start-up takes
the factory values, the MAC addresses among them as a function of the unique ID (assumption 73), and says so; where a valid copy
exists and none can be imported, the bank is REJECTED-SETTINGS and the restart is shown. The steps of start-up from the
checkers' self-test to READY, each with what it sets. -/
def Obligations.StartUpChoosesBankAndSettings : Prop :=
  (
  (∀ s b m l, s.booting = true → s.ret.boot = 0 → s.bootOrder = (b, m) :: l → b < 2 → m < 3 →
    s.fwState b ∉ [0, 1, 5, 6] → s.fwVerify b = Sts.OK →
    Completes .firmwareBankSelect s (fun t =>
      t.fwRunning = b ∧ t.fwMode = m ∧ t.ret.boot = 1 ∧ t.sec.order = l ∧ t.sec.nxtMode = 0))
  ∧ ∀ s, s.booting = true → s.ret.boot = 0 → (∀ x ∈ s.bootOrder, s.fwState x.1 ∈ [0, 1, 5, 6]) →
    Completes .firmwareBankSelect s (fun t => t.fwMode = 3 ∧ t.ret.boot = 0 ∧ t.sec.order = []))
  ∧ (
  (∀ ok s, s.booting = true → s.ret.boot = 2 → s.ret.copy0.valid = false → s.ret.copy1.valid = false →
    Completes (.lpddrTraining ⟨true, ok⟩) s (fun t =>
      t.ret.boot = 3 ∧ t.ret.aonValid = true ∧ t.fg F.RW_STAT_FACTORY 0 = 1 ∧ t.ret.replay = [] ∧ t.ret.pend = []
      ∧ ∀ p, p < 8 → t.fg F.NET_MAC_HI_MAC_HI p * 2 ^ 32 + t.fg F.NET_MAC_LO_MAC_LO p
          = (Config.factoryMac (leVal s.uidBytes) p).toNat))
  ∧ (∀ ok s, s.booting = true → s.ret.boot = 2 → exec (.lpddrTraining ⟨false, ok⟩) s = .next (s.fs F.DPR_BIST_HUB_FAIL 0 1))
  ∧ (∀ ok s n, s.booting = true → s.ret.boot = 2 → s.pickCopy = some n → n < 2 →
    Completes (.lpddrTraining ⟨true, ok⟩) s (fun t => t.ret.boot = 3 ∧ t.ret.aonValid = true ∧ t.fg F.RW_STAT_COPY 0 = n
      ∧ t.fg F.RW_SCHEMA_SCHEMA 0 = (if n = 0 then s.ret.copy0 else s.ret.copy1).schema % 65536))
  ∧ (∀ s, s.booting = true → s.ret.boot = 2 → s.importFails = true → s.sec.order = [] →
    Completes .settingsImportFailure s (fun t =>
      t.fwState s.fwRunning = 6 ∧ t.fg F.SEC_FW_STAT_REJ_CAUSE 0 = 2 ∧ t.fg F.SEC_FW_STAT_REJ_BANK 0 = s.fwRunning
        ∧ t.fg F.SEC_FW_STAT_RESTARTED 0 = 1 ∧ t.fwMode = 3 ∧ t.ret.boot = 0)))
  ∧ (
  (∀ fails s, Completes (.checkerSelfTest fails) s (fun t => t.fg F.DPR_BIST_DONE 0 = 1))
  ∧ (∀ s, s.booting = true → s.ret.boot = 1 → s.fb F.DPR_BIST_DONE 0 = true → Completes (.tcmLoadAndRemap true) s (fun t =>
      t.ret.boot = 2 ∧ t.fg F.SEC_REMAP_REMAP 0 = 1 ∧ t.fg F.SMP_STAT_ALIVE_RUN 0 = 1 ∧ t.smp.hbAt = some s.time.up
        ∧ ∀ a, a < leAt (s.fwRead s.fwRunning 0 512) 0x34 4 →
          memByte t.sec.tcm0 a = (s.fwRead s.fwRunning 512 (leAt (s.fwRead s.fwRunning 0 512) 0x34 4)).getD a 0))
  ∧ (∀ s, s.booting = true → s.ret.boot = 3 → Completes .hubSramInit s (fun t =>
      t.ret.boot = 4 ∧ ∀ c, c < 4 → t.fg F.CL_STAT_STATE c = if s.fg F.CL_STAT_STATE c = 0 ∧ s.fb F.CL_CTL_EN c then 1
        else s.fg F.CL_STAT_STATE c))
  ∧ (∀ s, s.booting = true → s.ret.boot = 4 → Completes .lpddrZeroFillComplete s (fun t =>
      t.ret.boot = 5 ∧ t.fg F.RW_STAT_STAGE 0 = 1))
  ∧ (∀ s, s.booting = true → s.ret.boot = 5 → Completes .stage1Complete s (fun t =>
      t.ret.boot = 6 ∧ t.fg F.RW_STAT_STAGE 0 = 2))
  ∧ (∀ s, s.booting = true → s.ret.boot = 6 → Completes .standpipeReady s (fun t =>
      t.ret.boot = 7 ∧ t.fg F.SP_STAT_READY 0 = 1 ∧ t.fg F.RW_TIMES_READY_MS 0 = min (s.time.up / msNs) 65535))
  ∧ (∀ s, s.booting = true → s.ret.boot = 7 → s.fwMode = 0 → s.ret.copy0.valid = true → s.ret.replay = [] → s.sp.msgs = [] →
      Completes .stage2Complete s (fun t =>
        t.ret.boot = 8 ∧ t.fg F.RW_STAT_STAGE 0 = 3 ∧ (s.fb F.RW_STAT_FACTORY 0 = false → t.time.settings = true))))

/-- R8, R18, R32, R55, R7, R189, R24, R29, R25: A tick start takes one tick (the one that ends the interval after a step takes
none), and at a device that is held in reset or is OFF time alone passes, to the tick start that was next. The queue of commands
is left to the step. The next sample instant of a tick is taken, at most four in a tick. An armed event whose placement instant
lies before the next tick start executes at that instant and leaves the scheduler. A long-form event is handed to the scheduler
once its target is 1 s away or less, and stays with Windlass before; nothing else changes. Tick starts are the instants
k·1,000,000,000/24,000 ns of each second, rounded down; the tick that holds an instant starts at or before it, and the next tick
start lies after it by at most 41,667 ns. -/
def Obligations.TickEventsHappenAtTheirInstants : Prop :=
  (
  (∀ s, Completes .tickStart s (fun t => t.time.tick = s.time.tick + (if s.time.gap then 0 else 1) ∧ t.pending = s.pending))
  ∧ ∀ s, s.dead = true → s.time.next < 2 ^ 48 * 1000000000 → Completes .tickStart s (fun t =>
      t.now = s.time.next ∧ t.time.sample = 0 ∧ t.time.frame = 0 ∧ t.time.next = nextTick s.time.next
        ∧ t.regs = s.regs ∧ t.aud = s.aud ∧ t.drv = s.drv ∧ t.ret = s.ret ∧ t.smp = s.smp))
  ∧ (
  (∀ s, s.dead = false → s.time.sample < 4 → Completes .sampleInstant s (fun t => t.time.sample = s.time.sample + 1))
  ∧ ∀ s, 4 ≤ s.time.sample → exec .sampleInstant s = .next s)
  ∧ (
  ∀ s e, s.sched = [e] → e.held = false → e.place < s.time.next → beforeCommits e.code = false →
    exec .armedEventExecute s = .next (applyEntry e ((s.reach e.place).dropEntry e)).showPwr
      ∧ (s.now ≤ e.place → e.place < 2 ^ 48 * 1000000000 →
          ((s.reach e.place).dropEntry e).now = e.place ∧ ((s.reach e.place).dropEntry e).sched = []))
  ∧ (
  ∀ s, Completes .longFormHandover s (fun t => t = { s with sched := t.sched } ∧ t.sched.length = s.sched.length
    ∧ ∀ e ∈ s.sched, (if e.held = true ∧ e.target ≤ s.now + secNs then { e with held := false } else e) ∈ t.sched))
  ∧ (
  ∀ n, tickStart (tickAt n) ≤ n ∧ n < nextTick n ∧ nextTick n ≤ tickStart (tickAt n) + 41667
    ∧ ∀ g, tickAt (tickStart g) = g)

/-- R34, R100, R13, R21: The calibration of an engine die shows its delay, corrected by at most 0.25 ns once it is calibrated
(the first is whole, assumption 61), and a skew above 8 ns, nanoseconds at or above 10⁹ and a movement backwards are reported to
the Sump. A read of MT_NS captures the whole counter and TICKNO in one instant. When FREE_WAIT of the epoch has passed, release
no longer waits for lock; nothing else changes. -/
def Obligations.MediaTimeIsWatchedAndRead : Prop :=
  (
  (∀ d delay k s, d < 2 → Completes (.skewCalibration d delay k) s (fun t =>
      (s.fg F.MT_SKEW_CAL d = 0 → t.fg F.MT_SKEW_DELAY d = min delay 65535)
        ∧ (s.fg F.MT_SKEW_CAL d = 1 → t.fg F.MT_SKEW_DELAY d
            = max (s.fg F.MT_SKEW_DELAY d - 2) (min (s.fg F.MT_SKEW_DELAY d + 2) (min delay 65535)))
        ∧ t.fg F.MT_SKEW_CAL d = 1
        ∧ t.detq = if 64 < k then s.detq ++ [⟨0x32, d, 0, 0, 0, s.mts, false, false, 0⟩] else s.detq))
  ∧ (∀ s, exec (.mediaTimeIntegrityFault 0) s = .next (s.det 0x31 0 0 0 0)
      ∧ exec (.mediaTimeIntegrityFault 1) s = .next (s.det 0x31 1 0 0 0)
      ∧ exec (.mediaTimeIntegrityFault 2) s = .next (s.det 0x32 0 0 0 0)
      ∧ exec (.mediaTimeIntegrityFault 3) s = .next (s.det 0x32 1 0 0 0)))
  ∧ (
  ∀ dt s, Completes (.mtNsRead dt) s (fun t =>
    t.time = (s.elapse dt).time ∧ t.hif.rdata = t.time.ns.toNat ∧ t.rr .MT_NS 0 = t.time.ns
      ∧ (t.rr .MT_SEC_LO 0).toNat + 2 ^ 32 * (t.rr .MT_SEC_HI 0).toNat = t.time.sec.toNat
      ∧ t.rr .MT_FRAC 0 = t.time.frac ∧ t.rr .MT_TICKNO 0 = BitVec.ofNat 32 (s.elapse dt).tickno
      ∧ RegsKept [.MT_NS, .MT_SEC_LO, .MT_SEC_HI, .MT_FRAC, .MT_TICKNO] s t))
  ∧ (
  ∀ s, s.freeWaitDue = true → exec .freeWaitExpiry s = .next { s with time := { s.time with freeWait := true } })

/-- R15, R18, R19: MT_STEP and MT_RATE_SET are placed at the next boundary. There a step within its window and range moves the
count by the offset, sets STEPPED, closes the window and cancels every scheduled event; outside the window it is refused; a rate
is taken without a jump. -/
def Obligations.MediaTimeCommandsActAtTheBoundary : Prop :=
  TakenThen .mtStep Code.MT_STEP chkMtStep (fun e s t =>
      (s.fb F.MT_EPOCH_WINDOW 0 = false → Ends e Sts.MT_STEP_REFUSED [] s t)
      ∧ (stepChk (stepOffset e.cmd) s.now s = Sts.OK → e.cmd.i2 < 2 ^ 32 → (s.now : Int) + stepOffset e.cmd + 1 < 2 ^ 48 * 1000000000 →
          (t.now : Int) * 2 ^ 32 + t.time.frac.toNat = (s.now + stepOffset e.cmd) * 2 ^ 32 + s.time.frac.toNat + e.cmd.i2
            ∧ t.sched = [] ∧ t.time.tick = s.time.tick
            ∧ (t.time.gap = false ↔ t.time.frac = 0 ∧ tickStart (tickAt t.now) = t.now)
            ∧ (t.time.gap = true → t.time.next = nextTick t.now)))
  ∧ TakenThen .mtRateSet Code.MT_RATE_SET chkMtRateSet (fun e s t =>
      ∃ v, Ends e Sts.OK [] v t ∧ v.wh.rateSet = some (argI e.cmd.a) ∧ v.time = s.time
        ∧ (s.fg F.WH_STATUS_LOOP 0 = 5 → v.fgI F.MT_RATE_RATE 0 = argI e.cmd.a))

/-- R37, R36, R40, R41, R42: The update gives every valid slot its frequency, the fractional offset from the local oscillator of
the reference's own time between the last measurement and the oldest that the last second reaches back to; a slot measured once
has the rate in force (assumption 12). An edge of PPSIN or REFIN is stamped and its phase folded; the first edge of a slot
neither breaks a rule nor makes the slot valid. The states of a reference slot. A slot that becomes invalid leaves WTR,
QUALIFIED or DRIFTING for INVALID, the last two with a report of family 0x30; one that becomes valid starts WTR in SERVICE and
is QUALIFIED in ACQUIRE; the end of WTR qualifies it, and the end of DRIFT_HOLD disqualifies a DRIFTING slot and takes a
DISQUALIFIED one back. -/
def Obligations.SlotsAreMeasuredAndTheirStatesFollow : Prop :=
  (
  ∀ dt s n, n < 15 → (s.slot n).valid = true → Completes (.slotMeasurementUpdate dt) s (fun t =>
    let x := s.slot n
    (∀ m t0 r0, x.at_ = some m → x.hist.head? ≠ some m → (lastSecond m.1 (m :: x.hist)).getLast? = some (t0, r0) → t0 < m.1 →
      t.fgI F.WH_SLOT_FREQ_FREQ n = satS 32 ((m.2 - r0 - x.hz * (m.1 - t0 : Nat)) * 2 ^ 40 / (x.hz * (m.1 - t0) : Nat)))
    ∧ (∀ m, x.at_ = some m → x.hist = [] → t.fgI F.WH_SLOT_FREQ_FREQ n = satS 32 (s.elapse dt).rateNow)))
  ∧ (
  (∀ dt s, Completes (.ppsinEdge dt) s (fun t => (t.slot 14).phase = foldPhase 1 (s.elapse dt).time.ns.toNat
    ∧ ((s.slot 14).lastEdge = none → (t.slot 14).lastEdge = some (s.elapse dt).now ∧ t.sst 14 = s.sst 14)))
  ∧ ∀ i dt s, i < 4 → Completes (.refinEdge i dt) s (fun t =>
    (t.slot (10 + i)).phase = foldPhase (s.slotHz (10 + i)) (s.elapse dt).time.ns.toNat
    ∧ ((s.slot (10 + i)).lastEdge = none → (t.slot (10 + i)).lastEdge = some (s.elapse dt).now ∧ t.sst (10 + i) = s.sst (10 + i))))
  ∧ (
  (∀ n s, n < 15 → s.slotBad n = true → Completes (.slotInvalid n) s (fun t => (t.slot n).valid = false
      ∧ (s.sst n = 2 → t.sst n = 1 ∧ t.fg F.WH_SLOT_STAT_WTR_LEFT n = 0 ∧ t.detq = s.detq)
      ∧ (s.sst n = 3 ∨ s.sst n = 4 → t.sst n = 1 ∧ t.detq = s.detq ++ [⟨0x30, n, 0, 0, 0, s.mts, false, false, 0⟩])
      ∧ (s.sst n = 0 ∨ s.sst n = 1 ∨ s.sst n = 5 → t.sst n = s.sst n ∧ t.detq = s.detq)))
  ∧ (∀ n (s : State), s.slotBad n = false → exec (.slotInvalid n) s = .next s)
  ∧ (∀ n s (g : Int), n < 8 → s.edgeGap n = some g → 3 * logNs (s.fgI F.NET_PTP_CFG_LOG_SYNC n) ≤ g
    → Completes (.syncTimeout n) s (fun t => (t.slot n).valid = false
      ∧ (s.sst n = 3 ∨ s.sst n = 4 → t.sst n = 1 ∧ t.detq = s.detq ++ [⟨0x30, n, 0, 0, 0, s.mts, false, false, 0⟩])))
  ∧ (∀ n s, n < 15 → s.sst n = 1 → s.slotBad n = false → Completes (.slotValid n) s (fun t => (t.slot n).valid = true
      ∧ t.sst n = (if s.service = true then 2 else 3)
      ∧ (s.service = true → t.fg F.WH_SLOT_STAT_WTR_LEFT n = s.fg F.WH_SLOT_CFG_WTR n
          ∧ (s.wh.switch = none → (t.slot n).timer = some (s.time.up + s.fg F.WH_SLOT_CFG_WTR n * secNs)))))
  ∧ (∀ n s, n < 15 → s.sst n = 2 → s.due (s.slot n).timer = true → Completes (.wtrExpiry n) s (fun t =>
      t.sst n = 3 ∧ (t.slot n).timer = none ∧ t.fg F.WH_SLOT_STAT_WTR_LEFT n = 0 ∧ RegsKept [.WH_SLOT_STAT] s t))
  ∧ ∀ n s, n < 15 → s.due (s.slot n).timer = true →
      (s.sst n = 4 → Completes (.driftHoldExpiry n) s (fun t => t.sst n = 5 ∧ (t.slot n).timer = none
        ∧ t.detq = s.detq ++ [⟨0x30, n, 0, 1, 0, s.mts, false, false, 0⟩]))
      ∧ (s.sst n = 5 → Completes (.driftHoldExpiry n) s (fun t => t.sst n = if s.service = true then 2 else 3)))

/-- R42, R45, R47, R48: The states of the loop and the mode. LOCKED, whose criteria WH_LOCK finds met, is entered at the tick
boundary that follows, with the alignment step that then is due. Δ is fixed one tick after a switch begins, as the new phase
less the old, each averaged over the tick; two ticks after it WH_ABSORB grows by Δ, the new slot is SELECTED and the count of
switches moves on, so that the counter itself takes no jump. -/
def Obligations.LoopAndSwitchesFollowTheirTables : Prop :=
  (
  (∀ s, s.loop = 1 → s.within 1 = true → s.due (s.wh.critSince.map (· + s.fg F.WH_LOCK_LOCK_TIME 0 * 100000000)) = true →
    exec .whLock s = .next { s with wh := { s.wh with lockDue := true } })
  ∧ (∀ s : State, s.loop = 1 → s.within 1 = true → s.wh.lockDue = true → ∀ r,
      (s.lockEntry r).loop = 2 ∧ (s.lockEntry r).fg F.WH_STATUS_LOCK 0 = 1 ∧ (s.lockEntry r).wh.lockDue = false
        ∧ (s.fb F.MT_CTL_ALIGN 0 = false ∨ r = true → (s.lockEntry r).time = s.time ∧ (s.lockEntry r).wh.lockSince = some s.time.up)
        ∧ (s.fb F.MT_CTL_ALIGN 0 = true → s.fb F.MT_EPOCH_WINDOW 0 = true → s.fg F.WH_STATUS_SELECTED 0 ≠ 15 → r = false →
            0 ≤ (s.now : Int) + (s.slot (s.fg F.WH_STATUS_SELECTED 0)).phase →
            (s.now : Int) + (s.slot (s.fg F.WH_STATUS_SELECTED 0)).phase + 1 < 2 ^ 48 * 1000000000 →
            ((s.lockEntry r).now : Int) = s.now + (s.slot (s.fg F.WH_STATUS_SELECTED 0)).phase ∧ (s.lockEntry r).wh.absorb = 0
              ∧ (s.lockEntry r).fb F.MT_EPOCH_STEPPED 0 = true))
  ∧ (∀ s, s.loop = 2 → s.within 4 = false → Completes .whUnlock s (fun t =>
      t.loop = 1 ∧ t.fg F.WH_STATUS_LOCK 0 = 0 ∧ t.wh.lockSince = none ∧ t.time = s.time))
  ∧ (∀ s, s.service = false → s.loop = 2 → s.due (s.wh.lockSince.map (· + s.fg F.WH_TIMERS_ACQ_HOLD 0 * secNs)) = true →
    Completes .acqHoldExpiry s (fun t => t.service = true ∧ t.loop = 2 ∧ RegsKept [.WH_STATUS] s t))
  ∧ ∀ s, s.service = true → s.loop = 4 → s.fg F.WH_TIMERS_REACQ 0 ≠ 0 →
    s.due (s.wh.hoSince.map (· + s.fg F.WH_TIMERS_REACQ 0 * secNs)) = true →
    Completes .reacqExpiry s (fun t => t.service = false ∧ t.loop = 4 ∧ ∀ n, n < 15 → t.sst n = if s.sst n = 2 then 3 else s.sst n))
  ∧ (
  (∀ s w, s.wh.switch = some w → w.delta = none → w.start + 1 ≤ s.time.tick → Completes .switchDeltaFix s (fun t =>
    t = { s with wh := { s.wh with switch := some { w with delta := some (s.meanPhase w.new w.newSum w.newN -
      (if w.oldInv = true ∨ (s.slot w.old).valid = false then s.wh.absorb / 2 ^ 32 else s.meanPhase w.old w.oldSum w.oldN)) } } }))
  ∧ (∀ (s : State) slot p, (s.slot slot).hz = 1 → (s.slot slot).turns = 0 → s.meanPhase slot p 1 = p)
  ∧ ∀ s w d, s.wh.switch = some w → w.delta = some d → w.start + 2 ≤ s.time.tick → w.new < 16 → s.wh.openReq = false →
    Completes .whSwitch s (fun t => t.wh.absorb = s.wh.absorb + d * 2 ^ 32 ∧ t.wh.switch = none
      ∧ t.fg F.WH_STATUS_SELECTED 0 = w.new ∧ t.loop = (if w.before = 2 then 2 else 1)
      ∧ t.fg F.WH_STATUS_SWITCH_COUNT 0 = (s.fg F.WH_STATUS_SWITCH_COUNT 0 + 1) % 65536
      ∧ t.time = s.time ∧ t.wh.follow = s.wh.follow ∧ t.wh.bleed = s.wh.bleed))

/-- R42, R45, R52, R53, R54: the Wellhead's commands, placed at the next boundary, and what each does there. -/
def Obligations.WellheadCommandsSteerTheLoop : Prop :=
  TakenThen .whAcquire Code.WH_ACQUIRE chkWhAcquire (fun e s t => ∃ v, Ends e Sts.OK [] v t ∧ v.service = false
      ∧ v.time = s.time ∧ ∀ n, n < 15 → v.sst n = if s.sst n = 2 then 3 else s.sst n)
  ∧ TakenThen .whLoopOpen Code.WH_LOOP_OPEN chkWhLoop (fun e s t => ∃ v, Ends e Sts.OK [] v t
      ∧ (s.loop ≠ 5 → s.wh.switch = none → v.loop = 5 ∧ v.wh.rateSet = s.wh.rateSet
        ∧ (∀ r, s.wh.rateSet = some r → v.rateNow = r) ∧ v.wh.absorb = s.wh.absorb)
      ∧ (s.loop ≠ 5 → s.wh.switch ≠ none → v.loop = s.loop ∧ v.wh.openReq = true))
  ∧ TakenThen .whLoopClose Code.WH_LOOP_CLOSE chkWhLoop (fun e s t => ∃ v, Ends e Sts.OK [] v t
      ∧ (s.loop ≠ 5 → v = { s with wh := { s.wh with openReq := false } })
      ∧ (s.loop = 5 → (∀ r, s.wh.rateSet = some r → v.wh.follow = r * 24000) ∧ v.wh.bleed = 0
          ∧ (s.fg F.WH_STATUS_SELECTED 0 = 15 → v.loop = if s.fb F.WH_HO_VALID_VALID 0 = true then 4 else 0)
          ∧ (s.fg F.WH_STATUS_SELECTED 0 ≠ 15 → v.loop = 3
              ∧ v.wh.switch = some ⟨s.fg F.WH_STATUS_SELECTED 0, s.fg F.WH_STATUS_SELECTED 0, s.time.tick, 5, true, none, 0, 0, 0, 0⟩)))
  ∧ TakenThen .whPhaseStep Code.WH_PHASE_STEP chkWhPhaseStep (fun e s t =>
      ((chkWhPhaseStep e.cmd s).1 ≠ Sts.OK → Ends e (chkWhPhaseStep e.cmd s).1 [] s t)
      ∧ ((chkWhPhaseStep e.cmd s).1 = Sts.OK → ∃ v, Ends e Sts.OK [] v t ∧ v.time = s.time ∧ RegsKept [.WH_CLKOUT_PHASE] s v
          ∧ ∀ n, n < 6 → v.fgI F.WH_CLKOUT_PHASE_PHASE n
            = s.fgI F.WH_CLKOUT_PHASE_PHASE n + if e.cmd.a.testBit n then argI e.cmd.b else 0))

/-- R62, R64, R65, R66: ROUTE_WRITE and ROUTE_READ. A write goes to the inactive bank alone, is refused while a commit holds it,
and leaves every other entry and the active bank as they were; a read gives the host the entries of the bank it names.
ROUTE_COMMIT exchanges the banks at the boundary, output entries one tick later; ROUTE_STATUS tells the active bank, the lock
and the last generation; once the fades have ended the copy makes the banks equal and frees them. -/
def Obligations.RouterBanksAreWrittenAndSwapped : Prop :=
  (
  TakenThen .routeWrite Code.ROUTE_WRITE chkRouteWrite (fun e s t =>
      (s.rtLocked = true → Ends e Sts.ROUTE_BANK_LOCKED [] s t)
      ∧ (s.rtLocked = false → ∃ v, Ends e Sts.OK [] v t ∧ v.aud.rtAct = s.aud.rtAct
          ∧ (∀ k, k < e.cmd.b → mget 0 v.aud.rt ((1 - s.aud.rtAct) * 4096 + e.cmd.a + k) = leAt e.cmd.buf (8 * k) 8)
          ∧ ∀ j, j < (1 - s.aud.rtAct) * 4096 + e.cmd.a ∨ (1 - s.aud.rtAct) * 4096 + e.cmd.a + e.cmd.b ≤ j →
              mget 0 v.aud.rt j = mget 0 s.aud.rt j))
  ∧ TakenThen .routeRead Code.ROUTE_READ chkRouteRead (fun e s t => ∃ v, Ends e Sts.OK [] v t ∧ v.aud = s.aud
      ∧ (∀ k j, k < e.cmd.b → j < 8 → (memByte v.hif.hostMem (e.cmd.addr + 8 * k + j)).toNat
          = mget 0 s.aud.rt (e.cmd.c * 4096 + e.cmd.a + k) / 256 ^ j % 256)
      ∧ ∀ a, a < e.cmd.addr ∨ e.cmd.addr + 8 * e.cmd.b ≤ a → memByte v.hif.hostMem a = memByte s.hif.hostMem a))
  ∧ (
  TakenThen .routeCommit Code.ROUTE_COMMIT chkRouteCommit (fun e s t => ∃ v, Ends e Sts.OK [] v t
      ∧ v.aud.rtAct = 1 - s.aud.rtAct ∧ v.aud.rtLock = 2 ∧ v.aud.rtGen = e.gen ∧ v.aud.rtOutTick = s.time.tick + 1
      ∧ v.aud.rt = s.aud.rt)
  ∧ TakenThen .routeStatus Code.ROUTE_STATUS chkNone (fun e s t =>
      Ends e Sts.OK [s.aud.rtAct + 2 * b2n s.rtLocked, s.aud.rtGen] s t)
  ∧ (∀ s, s.aud.rtLock = 2 → s.aud.rtOutTick < s.time.tick → s.aud.icFade = [] → s.aud.dstFade = [] →
      Completes (.bankCopyComplete 0) s (fun t => t.aud.rtLock = 0 ∧ t.aud.rtAct = s.aud.rtAct
        ∧ ∀ i, i < 4096 → mget 0 t.aud.rt i = mget 0 s.aud.rt (4096 * s.aud.rtAct + i)
          ∧ mget 0 t.aud.rt (4096 + i) = mget 0 s.aud.rt (4096 * s.aud.rtAct + i)))
  ∧ ∀ s, s.drv.lock = 2 → s.dcRamping = false → Completes (.bankCopyComplete 2) s (fun t => t.drv.lock = 0
      ∧ (∀ i, i < 192 → mget 0 t.drv.dc (192 + i) = mget 0 s.drv.dc (192 * s.drv.act + i)
          ∧ mget 0 t.drv.ln (192 + i) = mget 0 s.drv.ln (192 * s.drv.act + i)) ∧ t.aud = s.aud))

/-- R66, R67, R68, R71, R73: XP_WRITE puts its words into the inactive bank of each tile it names (or into the inactive
matrix-input map); XP_READ gives them back; neither touches the bank in use. XP_COMMIT swaps the map at its boundary and names
its tiles; XP_SET that meets a bank copy is held and applied after it, in order; the ramps and crossfades that have ended are
dropped at RAMP_END. -/
def Obligations.CrosspointBanksAreWrittenAndSwapped : Prop :=
  (
  TakenThen .xpWrite Code.XP_WRITE chkXpWrite (fun e s t =>
      ((chkXpWrite e.cmd s).1 ≠ Sts.OK → Ends e (chkXpWrite e.cmd s).1 (chkXpWrite e.cmd s).2 s t)
      ∧ ((chkXpWrite e.cmd s).1 = Sts.OK → ∃ v, Ends e Sts.OK [] v t ∧ v.aud.mapAct = s.aud.mapAct ∧ v.regs = s.regs
          ∧ (xpSec e.cmd = 0 → v.aud.ow = s.aud.ow ∧ v.aud.map = s.aud.map ∧ ∀ c k, c < 24 → k < 49152 →
              mget 0 v.aud.xp (xpKey (s.tileAct c) c k) = mget 0 s.aud.xp (xpKey (s.tileAct c) c k)
              ∧ mget 0 v.aud.xp (xpKey (1 - s.tileAct c) c k)
                = if e.cmd.c.testBit c ∧ e.cmd.a ≤ k ∧ k < e.cmd.a + e.cmd.b
                  then BitVec.ofNat 32 (leAt e.cmd.buf (4 * (k - e.cmd.a)) 4)
                  else mget 0 s.aud.xp (xpKey (1 - s.tileAct c) c k))
          ∧ (xpSec e.cmd = 2 → v.aud.xp = s.aud.xp ∧ v.aud.ow = s.aud.ow ∧ ∀ k, k < e.cmd.b →
              mget 0 v.aud.map (mapKey (1 - s.aud.mapAct) e.cmd.a + k) = leAt e.cmd.buf (2 * k) 2)))
  ∧ TakenThen .xpRead Code.XP_READ chkXpRead (fun e s t => (chkXpRead e.cmd s).1 = Sts.OK → ∃ v, Ends e Sts.OK [] v t
      ∧ v.aud = s.aud ∧ (xpSec e.cmd = 0 → ∀ k j, k < e.cmd.b → j < 4 →
          (memByte v.hif.hostMem (e.cmd.addr + 4 * k + j)).toNat
            = (mget 0 s.aud.xp (xpKey (b2n (e.cmd.c.testBit 8)) (e.cmd.c % 32) (e.cmd.a + k))).toNat / 256 ^ j % 256)))
  ∧ (
  TakenThen .xpCommit Code.XP_COMMIT chkXpCommit (fun e s t => ∃ v, Ends e Sts.OK [] v t
      ∧ v.aud.mapAct = 1 - s.aud.mapAct ∧ v.aud.mxLock = 2 ∧ v.aud.mxMask = e.cmd.a ∧ v.aud.mxTick = s.time.tick
      ∧ v.aud.map = s.aud.map ∧ v.aud.xp = s.aud.xp)
  ∧ TakenThen .xpSet Code.XP_SET chkXpSet (fun e s t =>
      ((chkXpSet e.cmd s).1 ≠ Sts.OK → Ends e (chkXpSet e.cmd s).1 (chkXpSet e.cmd s).2 s t)
      ∧ ((chkXpSet e.cmd s).1 = Sts.OK → s.aud.mxLock ≠ 0 ∨ s.aud.held ≠ [] →
          t = { s with aud := { s.aud with held := s.aud.held ++ [e] } })
      ∧ ((chkXpSet e.cmd s).1 = Sts.OK → s.aud.mxLock = 0 → s.aud.held = [] → ∃ v, Ends e Sts.OK [] v t
          ∧ ∀ x b, xpSetEntries e.cmd = [x] → b < 2 →
              mget 0 v.aud.xp (xpKey b e.cmd.a x.1) = x.2.1))
  ∧ (∀ s e, s.aud.mxLock = 0 → s.now = tickStart (tickAt s.now) → s.aud.held = [e] →
      exec .xpSetHeldApply s = .next (({ s with aud := { s.aud with held := [] } } : State).xpSetNow e))
  ∧ ∀ s, Completes .rampEnd s (fun t => t.aud = { s.aud with
      icFade := s.aud.icFade.filter (fun p => !p.2.ramp.done s.time.tick)
      dstFade := s.aud.dstFade.filter (fun p => !p.2.ramp.done s.time.tick) } ∧ t.time = s.time))

/-- R70, R55, R59: A tile processes the group that is due, within its cycles; the group is then done for the block and its
cycles are used. From T + D the Router collects the OC block of the tick, once. A settled ASRC group ramps in over the next
tick; one whose rate is lost ramps out, settles again and is reported by family 0x34. Other groups go on. -/
def Obligations.MatrixAsrcAndOutputsRunOnceATick : Prop :=
  (
  ∀ c dt s q, c < 24 → (s.elapse dt).tileMixes c = true → tickStart (tickAt (s.elapse dt).now) + 3000 ≤ (s.elapse dt).now →
    (s.elapse dt).nextGroup c = some q →
    let u := s.elapse dt
    let t0 := tickStart (tickAt u.now) + 3000
    let used := max (max (u.tileSkips c).length (mget 0 s.aud.cyc c)) (u.now - t0) + 768
    used ≤ u.time.next - t0 →
    Completes (.tileGroupProcess c dt) s (fun t => (mget 0 t.aud.grp c).testBit q = true ∧ mget 0 t.aud.cyc c = used
      ∧ t.time = u.time ∧ t.aud.mo = s.aud.mo ∧ t.aud.xp = s.aud.xp))
  ∧ (
  (∀ dt s, s.aud.collTick ≠ s.time.tick + 1 → tickStart (tickAt (s.elapse dt).now) + s.deadlineNs ≤ (s.elapse dt).now →
    Completes (.outputCollection dt) s (fun t => t.aud.collTick = s.time.tick + 1 ∧ t.time = (s.elapse dt).time))
  ∧ ∀ dt s, s.aud.collTick = s.time.tick + 1 → exec (.outputCollection dt) s = .next (s.elapse dt))
  ∧ (
  (∀ key s, Completes (.asrcSettled key) s (fun t => t = { s with aud := { s.aud with conv := t.aud.conv } }
    ∧ t.aud.conv.length = s.aud.conv.length ∧ ∀ (i : Nat) (g : ConvGrp), s.aud.conv[i]? = some g →
      t.aud.conv[i]? = some (if g.key = key ∧ g.asrc = true ∧ g.settled = false
        then { g with settled := true, fade := some (s.time.tick + 1), out := false } else g)))
  ∧ ∀ key s g, s.convOf key = some g → g.asrc = true → Completes (.asrcRateLoss key) s (fun t =>
    t.detq = s.detq ++ [⟨0x34, s.convIndex key / 4, s.convIndex key, 0, 0, s.mts, false, false, 0⟩]
    ∧ ∀ (i : Nat) (x : ConvGrp), s.aud.conv[i]? = some x → t.aud.conv[i]? = some (if x.key = key
        then { x with settled := false, fade := if x.settled then some (s.time.tick + 1) else none, out := true } else x)))

/-- R82, R84, R85, R86, R79, R80, R83, R441, R81, R316: SP_CONFIG writes the Standpipe's registers and no others; SP_PLAY on a
free voice and a free zone starts the message there under the zone's duck ramp, and ends a play that it replaces on its voice
with SP_PREEMPTED; SP_STOP takes the voice out of the zone over RAMP. SP_MSG_BLOCK stages bytes of a message; SP_MSG_COMMIT
starts the store of a message whose staged bytes pass the checks, in the flash slot that is not in use; when the store completes
the message is in the other flash slot and in LPDDR and is shown present, and a copy that does not verify leaves the one in use
where it was. An ALARM input that changes must hold its level for DEBOUNCE; only then does SP_STAT.ALARM show it. The timers of
a zone and of a voice; an uncorrectable word under a voice is reported, and the play goes on from flash. -/
def Obligations.StandpipePlaysStoresAndTimes : Prop :=
  (
  TakenThen .spConfig Code.SP_CONFIG chkSpConfig (fun e s t => ∃ v, Ends e Sts.OK [] v t ∧ v.sp = s.sp
      ∧ RegsKept [.SP_CTL, .SP_TIMING, .SP_ZONE, .SP_WATCH_A, .SP_WATCH_B] s v
      ∧ ∀ i, i < 98 → v.rr (spReg i).1 (spReg i).2
        = maskPut (s.rr (spReg i).1 (spReg i).2) (BitVec.ofNat 32 (spWord e.cmd i)) (accMask (spReg i).1 (· == .rw)))
  ∧ TakenThen .spPlay Code.SP_PLAY chkSpPlay (fun e s t =>
      ((chkSpPlay e.cmd s).1 ≠ Sts.OK → Ends e (chkSpPlay e.cmd s).1 (chkSpPlay e.cmd s).2 s t)
      ∧ (∀ z, (chkSpPlay e.cmd s).1 = Sts.OK → z < 32 → e.cmd.b = 2 ^ z → (s.zone z).voice = none →
          (s.voice (e.cmd.a % 16)).busy = false → ∃ v, Ends e Sts.OK [0] v t
            ∧ (v.zone z).voice = some (e.cmd.a % 16) ∧ (v.zone z).auto = false
            ∧ (v.zone z).duck = some ⟨s.duckNow z, s.duckTarget z, s.time.tick, s.spRamp, 0⟩
            ∧ (v.voice (e.cmd.a % 16)).busy = true ∧ (v.voice (e.cmd.a % 16)).msg = bits e.cmd.a 11 8
            ∧ (v.voice (e.cmd.a % 16)).left = bits e.cmd.a 23 16 ∧ (v.voice (e.cmd.a % 16)).pos = 0)
      ∧ ∀ z, (chkSpPlay e.cmd s).1 = Sts.OK → z < 32 → e.cmd.b = 2 ^ z → (s.zone z).voice = none → (s.voice (e.cmd.a % 16)).busy = true →
          ∃ v r, Ends e Sts.OK r v t ∧ mget (0, 0) v.sp.ends (e.cmd.a % 16) = ((s.voice (e.cmd.a % 16)).seq, Sts.SP_PREEMPTED))
  ∧ TakenThen .spStop Code.SP_STOP chkSpStop (fun e s t =>
      ((chkSpStop e.cmd s).1 ≠ Sts.OK → Ends e (chkSpStop e.cmd s).1 (chkSpStop e.cmd s).2 s t)
      ∧ ∀ z w, (chkSpStop e.cmd s).1 = Sts.OK → z < 32 → e.cmd.b = 2 ^ z → (s.zone z).voice = some w → ∃ v, Ends e Sts.OK [] v t
            ∧ (v.zone z).voice = none ∧ (v.zone z).oldV = some w
            ∧ (v.zone z).vGain = some ⟨1048576, 0, s.time.tick, s.spRamp, 0⟩
            ∧ (v.zone z).duck = some ⟨s.duckNow z, 1048576, s.time.tick, s.spRamp, 0⟩
            ∧ ∀ y, y ≠ z → v.zone y = s.zone y))
  ∧ (
  TakenThen .spMsgBlock Code.SP_MSG_BLOCK chkSpMsgBlock (fun e s t => ∃ v, Ends e Sts.OK [] v t
      ∧ (v.msg e.cmd.a).staged = memWrite (s.msg e.cmd.a).staged e.cmd.b (e.cmd.buf.take e.cmd.len)
      ∧ (v.msg e.cmd.a).inUse = (s.msg e.cmd.a).inUse ∧ (∀ m, m ≠ e.cmd.a → v.msg m = s.msg m) ∧ v.regs = s.regs)
  ∧ TakenThen .spMsgCommit Code.SP_MSG_COMMIT chkSpMsgCommit (fun e s t =>
      (s.msg e.cmd.a).store = none →
        (msgOk e.cmd.a (s.msg e.cmd.a).staged = false → Ends e Sts.SP_MSG_CRC [] s t)
        ∧ (msgOk e.cmd.a (s.msg e.cmd.a).staged = true →
            s.storeUsed e.cmd.a + 64 + msgBytes (s.msg e.cmd.a).staged ≤ 0x4000000 →
            t = s.setMsg e.cmd.a ((s.msg e.cmd.a).storing e) ∧ (t.msg e.cmd.a).store = some e
              ∧ (t.msg e.cmd.a).inUse = (s.msg e.cmd.a).inUse
              ∧ ∀ k, k < 64 + msgBytes (s.msg e.cmd.a).staged →
                memByte (t.msg e.cmd.a).other k = memByte (s.msg e.cmd.a).staged k))
  ∧ (∀ m s e, m < 16 → (s.msg m).store = some e → Completes (.spMsgStoreComplete m true) s (fun t =>
      ∃ v, Ends e Sts.OK [] v t ∧ v.fg F.SP_MSG_PRESENT m = 1 ∧ v.fg F.SP_MSG_DDR_OK m = 1 ∧ (v.msg m).store = none
        ∧ (v.msg m).slot = 1 - (s.msg m).slot
        ∧ (v.msg m).inUse = (s.msg m).other ∧ (v.msg m).ddr = (s.msg m).other ∧ (v.msg m).other = (s.msg m).inUse))
  ∧ ∀ m s e, m < 16 → (s.msg m).store = some e → Completes (.spMsgStoreComplete m false) s (fun t =>
      ∃ v, Ends e Sts.SP_MSG_CRC [] v t ∧ v.regs = s.regs ∧ (v.msg m).store = none ∧ (v.msg m).inUse = (s.msg m).inUse))
  ∧ (
  (∀ n active dt s, n < 8 → s.sp.raw.testBit n ≠ active → (s.fg F.SP_STAT_ALARM 0).testBit n ≠ active →
    Completes (.alarmInputChange n active dt) s (fun t =>
      t.sp.raw.testBit n = active ∧ mget 0 t.sp.deb n = (s.elapse dt).time.up + s.fg F.SP_CTL_DEBOUNCE 0 * msNs + 1
        ∧ t.regs = s.regs ∧ t.sp.zones = s.sp.zones))
  ∧ ∀ n s, n < 8 → mget 0 s.sp.deb n ≠ 0 → mget 0 s.sp.deb n ≤ s.time.up + 1 → Completes (.debounceExpiry n) s (fun t =>
      (t.fg F.SP_STAT_ALARM 0).testBit n = s.sp.raw.testBit n ∧ mget 0 t.sp.deb n = 0 ∧ mget 0 t.sp.since n = s.time.up
        ∧ (∀ m, m < 8 → m ≠ n → (t.fg F.SP_STAT_ALARM 0).testBit m = (s.fg F.SP_STAT_ALARM 0).testBit m)
        ∧ RegsKept [.SP_STAT] s t))
  ∧ (
  (∀ z s, z < 32 → s.lossDue z = true → exec (.watchLossExpiry z) s = .next (s.setZone z { s.zone z with lost := true }))
  ∧ (∀ z v s, z < 32 → (s.zone z).auto = true → s.returnDue z = true → (s.zone z).voice = some v →
      Completes (.watchReturnExpiry z) s (fun t => (t.zone z).voice = none ∧ (t.zone z).oldV = some v ∧ (t.zone z).auto = false
        ∧ ∀ y, y ≠ z → t.zone y = s.zone y))
  ∧ (∀ v s, v < 16 → (s.voice v).busy = true → (s.voice v).again = false → msgLen (s.voiceCopy (s.voice v)) ≤ (s.voice v).pos →
      (s.voice v).left = 1 → (s.voice v).auto = false → Completes (.repetitionEnd v) s (fun t =>
        (t.voice v).busy = false ∧ ∀ z, z < 32 → (t.zone z).voice ≠ some v))
  ∧ ∀ v w syn s, v < 16 → (s.voice v).busy = true → (s.voice v).msg < 16 → w.log = 7 → eccDecide (s.effSyn w syn) = 2 →
    Completes (.voiceFlashFallback ⟨v, w, syn⟩) s (fun t =>
      t.detq = s.detq ++ [⟨0x01, w.log, w.inst, 5, s.effSyn w syn, s.mts, false, false, 0⟩] ∧ (t.voice v).flash = true
        ∧ (t.voice v).pos = (s.voice v).pos ∧ t.fg F.SP_STAT_FLASH_ONLY 0 = 1
        ∧ t.fg F.SP_MSG_DDR_OK (s.voice v).msg = 0))

/-- R127, R128, R148, R152, R153, R154, R155, R122, R158, R160, R161: An instruction that moves or computes in registers puts
its result and its flags into the pending writes of its unit and passes on; it leaves memory, every other unit and every
register but performance counters as it was. The accumulator class, SMAC and DMAC without loads run on the core alone; with a
load they multiply first and the loaded word reaches its register three instructions later; a multiply-accumulate adds the exact
product within the bounds. -/
def Obligations.RegisterAndAccumulatorInstructions : Prop :=
  (
  (∀ op row d a b, AluOp.Row op row → RunsOnCore row (.alu op d a b) (fun _ c => (c.alu op d a b).advance 0))
  ∧ (∀ op row d a v, ImmOp.Row op row → RunsOnCore row (.alui op d a v) (fun _ c => (c.alui op d a v).advance 0))
  ∧ (∀ d r, RunsOnCore .mov (.mov d r) (fun _ c => (c.writeCode d (c.readCode r) false).advance 0))
  ∧ (∀ k j, RunsOnCore .pmod (.pmod k j) (fun _ c => (c.stepPtrWb k (c.cr (0x18 + j))).advance 0))
  ∧ (∀ k v, RunsOnCore .paddi (.paddi k v) (fun _ c => (c.stepPtrWb k (sext16 v)).advance 0))
  ∧ (∀ r v, RunsOnCore .aldi (.aldi r v) (fun _ c => (c.wc r (sext16 v)).advance 0))
  ∧ (∀ r v, RunsOnCore .aldh (.aldh r v)
      (fun _ c => (c.wc r (BitVec.ofNat 32 (v * 65536 + (c.crLate r).toNat % 65536))).advance 0))
  ∧ RunsOnCore .nopInstruction .nop (fun _ c => c.advance 0))
  ∧ (
  (∀ op row a b y z n r, AccOp.Row op row → RunsOnCore row (.accu op a b y z n r) (fun _ c => (c.accu op a b y z n r).advance 0))
  ∧ (∀ op a y z sp k d, RunsOnCore .smac (.smac op a y z sp k 0 d) (fun _ c => (c.smacOp op a y z).advance 0))
  ∧ (∀ op a y z sp k m d, m = 1 ∨ m = 2 ∨ m = 3 → RunsLoad .smac (.smac op a y z sp k m d) (4 * sp + k) 4
      (fun c => if m = 2 then 4 else if m = 3 then c.cr (0x18 + (4 * sp + k)) else 0)
      (fun c w => (c.smacOp op a y z).wd d (w.getD 0 0) 3))
  ∧ (∀ sh s0 s1 ap x0 y0 x1 y1 xp xd yp yd, RunsOnCore .dmac (.dmac sh s0 s1 ap x0 y0 x1 y1 0 xp xd 0 yp yd)
      (fun _ c => (c.dmacOp s0 s1 ap x0 y0 x1 y1).advance 0))
  ∧ (∀ s0 s1 ap x0 y0 x1 y1 xp xd yp yd, RunsLoad .dmac (.dmac 0 s0 s1 ap x0 y0 x1 y1 2 xp xd 0 yp yd) xp 4 (fun _ => 4)
      (fun c w => (c.dmacOp s0 s1 ap x0 y0 x1 y1).wd xd (w.getD 0 0) 3))
  ∧ ∀ op (c : UCore) a b y z n r, op ∈ [AccOp.mac, .msu, .maci, .msui] → ∀ v, v = (accAdd (c.ac a).val (c.ac a).sat
      (if op = .mac then fracProd (c.dr y) (c.dr z) else if op = .msu then -(fracProd (c.dr y) (c.dr z))
        else if op = .maci then intProd (c.dr y) (c.dr z) else -(intProd (c.dr y) (c.dr z)))) →
      ((c.accu op a b y z n r).ac a).val = v.val ∧ ((c.accu op a b y z n r).ac a).sat = v.sat
        ∧ (∀ a', a' ≠ a → (c.accu op a b y z n r).ac a' = c.ac a') ∧ (c.accu op a b y z n r).dq = c.dq)

/-- R117, R125, R130, R135, R136, R156, R157, R166: loads read memory under the unit's own buffered stores and step their
pointer; they stall 4 or 12 cycles and the wait for grant at the Cistern, and 1 cycle where another master has waited 3 for the
local memory, never in a REP; stores and RAISE put an entry into the write buffer and leave memory as it is; an entry that
leaves writes its bytes there and no others. -/
def Obligations.LoadsAndStoresGoThroughTheWriteBuffer : Prop :=
  (∀ k j m r, RunsLoad .ld (.mem .ld k j m r) k 4 (·.modStep m j 4) (fun c w => c.wd r (w.getD 0 0) 3))
  ∧ (∀ k j m r, RunsLoad .ldd (.mem .ldd k j m r) k 8 (·.modStep m j 8)
      (fun c w => (c.wd r (w.getD 0 0) 3).wd (r + 1) (w.getD 1 0) 3))
  ∧ (∀ k j m r, RunsLoad .ldr (.mem .ldr k j m r) k 4 (·.modStep m j 4) (fun c w => c.writeCode r (w.getD 0 0) true))
  ∧ (∀ k j m r, RunsStore .st (.mem .st k j m r) k 4 (·.modStep m j 4) (fun c => [c.dr r]) id)
  ∧ (∀ k j m r, RunsStore .std (.mem .std k j m r) k 8 (·.modStep m j 8) (fun c => [c.dr r, c.dr (r + 1)]) id)
  ∧ (∀ k j m r, RunsStore .str (.mem .str k j m r) k 4 (·.modStep m j 4) (fun c => [c.readCode r]) id)
  ∧ (∀ k j m a w r, RunsStore .sta (.sta k j m a w r) k 4 (·.modStep m j 4)
      (fun c => [(c.accStore a (w == 1) r).1]) (fun c => (c.accStore a (w == 1) r).2))
  ∧ (∀ (c : UCore) n t, c.contend (n, t) false = (0, (0, 0))
      ∧ ((c.contend (c.cyc, t) true).1 = if t < 3 ∨ 0 < c.rep then 0 else 1)
      ∧ (t < 3 → (c.contend (c.cyc, t) true).2 = (c.cyc + 1, t + 1)) ∧ (n ≠ c.cyc → c.contend (n, t) true = (0, (c.cyc + 1, 1))))
  ∧ (∀ u x s l, Issues u x (.raise l) s → s.ownsLine u l = true → (s.core u).wb.length < 8 → Completes (.raise u x) s
      (CoreOnly u (({ s.seen u with wb := (s.core u).wb ++ [⟨some l, 0, [], 0, (s.core u).pc⟩] } : UCore).advance 0) s))
  ∧ ∀ u s e rest, u < 192 → (s.core u).wb = e :: rest → e.line = none →
      ((wordsOf e.a e.bs.length).all (fun p => !s.refusesPartial p e.syn)) = true →
      Completes (.writeBufferEntryLeave u) s (fun t => (t.core u).wb = rest ∧ (t.core u).pc = (s.core u).pc
        ∧ ∀ a, memByte t.integ.mem a
          = if e.a ≤ a ∧ a < e.a + e.bs.length then e.bs.getD (a - e.a) 0 else memByte s.integ.mem a)

/-- R128, R129, R132, R163: branches run two delay slots and go on at their target; a repeat holds the next instruction; RETI
restores the flags and the PC an interrupt saved. -/
def Obligations.ControlInstructionsMoveThePc : Prop :=
  let go (c : UCore) (t : Nat) : UCore :=
    { c with idx := c.idx + 1, cyc := c.cyc + 1, pc := (c.pc + 4) % 65536, slots := 2, target := t }
  (∀ cond t, RunsOnCore .br (.br cond t)
      (fun _ c => go c (if condHolds cond c.sf then 4 * t % 65536 else (c.pc + 12) % 65536)))
  ∧ (∀ d t, RunsOnCore .call (.call d t) (fun _ c => go (c.wd d (BitVec.ofNat 32 (c.pc + 12)) 3) (4 * t % 65536)))
  ∧ (∀ d, RunsOnCore .jr (.jr d) (fun _ c => go c ((c.dr d).toNat % 65536 / 4 * 4)))
  ∧ RunsOnCore .reti .reti (fun _ c =>
      go (c.wf 0x1070F ((c.cr 0x3F).toNat &&& 0x1070F) 3) ((c.cr 0x3E).toNat % 65536 / 4 * 4))
  ∧ (∀ t, RunsOnCore .dbnz (.dbnz t) (fun _ c => go (c.wc 0x3C ((c.cr 0x3C - 1) &&& 0xFFFF))
      (if (c.cr 0x3C - 1) &&& 0xFFFF ≠ 0 then 4 * t % 65536 else (c.pc + 12) % 65536)))
  ∧ (∀ n, RunsOnCore .rep (.rep n) (fun _ c => { c with
      idx := c.idx + 1, cyc := c.cyc + 1, rep := n, pc := (c.pc + if n = 0 then 8 else 4) % 65536 }))
  ∧ RunsOnCore .repl .repl (fun _ c =>
      let n := (c.cr 0x3C).toNat % 4096
      { c with idx := c.idx + 1, cyc := c.cyc + 1, rep := n, pc := (c.pc + if n = 0 then 8 else 4) % 65536 })
  ∧ ∀ u s p, s.canIssue u = true → (s.core u).drain.slots = 0 → (s.core u).drain.rep = 0 → s.intPending u ≠ 0 →
      (s.core u).drain.sf &&& sfIE ≠ 0 → s.progOf (s.role u) = some p → Completes (.interruptAccept u) s (fun t =>
        (t.core u).pc = p.ivec ∧ (t.core u).sf = (s.core u).drain.sf - sfIE ∧ t.ust u = 2
          ∧ (t.core u).cr 0x3E = BitVec.ofNat 32 (s.core u).pc ∧ (t.core u).cr 0x3F = (s.core u).drain.sfWord
          ∧ IssueFrame [.UNIT_STAT] u s t)

/-- R134, R139, R147, R166: WAIT and WAITM take a pending line of their set, or leave the unit waiting at the same instruction;
DONE ends the unit's tick; a word that is no instruction stops the unit with ILLEGAL. -/
def Obligations.WaitDoneAndTrapsEndOrHoldTheTick : Prop :=
  (∀ u x s l, Issues u x (.wait l) s → (s.core u).pend.testBit l = true →
      s.intPending u = 0 ∨ (s.seen u).drain.sf &&& sfIE = 0 → Completes (.wait u x) s (fun t =>
      t.core u = ({ s.seen u with pend := setBit (s.core u).pend l false } : UCore).advance (if s.ust u = 3 then x.stall else 0)
        ∧ t.ust u = 2
        ∧ IssueFrame [.UNIT_STAT] u s t))
  ∧ (∀ u x s l, Issues u x (.wait l) s → (s.core u).pend.testBit l = false →
      Completes (.wait u x) s (fun t => t.core u = s.seen u ∧ t.ust u = 3 ∧ IssueFrame [.UNIT_STAT] u s t))
  ∧ (∀ u x s l, Issues u x (.wait l) s → s.intPending u ≠ 0 → (s.seen u).drain.sf &&& sfIE ≠ 0 →
      Completes (.wait u x) s (fun t => t.core u = s.seen u ∧ t.ust u = 3 ∧ IssueFrame [.UNIT_STAT] u s t))
  ∧ (∀ u x s g m d l, Issues u x (.waitm g m d) s →
      ((((List.range 32).filter (fun i => ((s.seen u).dr m).toNat.testBit i)).map (fun i => 32 * g + i)).find?
        (fun l => (s.core u).pend.testBit l)) = some l →
      s.intPending u = 0 ∨ (s.seen u).drain.sf &&& sfIE = 0 → Completes (.waitm u x) s (fun t =>
      t.core u = (({ s.seen u with pend := setBit (s.core u).pend l false } : UCore).wd d (BitVec.ofNat 32 l) 2).advance
          (if s.ust u = 3 then x.stall else 0)
        ∧ t.ust u = 2 ∧ IssueFrame [.UNIT_STAT] u s t))
  ∧ (∀ u x s, Issues u x .done s → (s.core u).wb = [] → Completes (.done u x) s (fun t => t.ust u = 4
      ∧ t.fg F.UNIT_DONE_LAST_DONE u = (s.core u).tick % 2 ^ 32
      ∧ t.fg F.UNIT_CYC_LAST u = min 65535 ((s.core u).cyc + 1) ∧ t.integ = s.integ ∧ t.time = s.time))
  ∧ ∀ u x s, s.canIssue u = true → (s.fetchEcc u x.fsyn).1 = 0 → jdecode (s.fetch u (s.core u).pc) = none →
      Completes (.nopInstruction u x) s (fun t => t.ust u = 5 ∧ t.fg F.UNIT_TRAP_CAUSE u = 1
        ∧ t.fg F.UNIT_TRAP_PC u = (s.core u).pc % 65536)

/-- R127, R150, R119, R153: A register written with a latency reads its old value until then and its new one from then on; of
two writes seen at once the later in program order counts, but a sticky bit that a write of a cycle sets stands. Results and
flags of the arithmetic of the data registers, over all operand values. -/
def Obligations.PendingWritesAndResultsAreExact : Prop :=
  (
  (∀ (c : UCore) r v lat n, c.idx + lat ≤ n → ((c.wd r v lat).settle n).dr r = v)
  ∧ (∀ (c : UCore) r q v lat n, n < c.idx + lat ∨ q ≠ r → ((c.wd r v lat).settle n).dr q = (c.settle n).dr q)
  ∧ (∀ (c : UCore) r v lat n, c.idx + lat ≤ n → ∀ e ∈ ((c.wd r v lat).settle n).dq, e.reg ≠ r)
  ∧ (∀ (c : UCore) m v lat n, m ≠ 0 → m &&& (sfSV + sfAGV + sfCBE) = 0 → c.idx + lat ≤ n → ((c.wf m v lat).settle n).sf &&& m = v &&& m)
  ∧ (∀ (c : UCore) m v lat n b, m ≠ 0 → b = 8 ∨ b = 9 ∨ b = 10 → c.idx + lat ≤ n →
      (v.testBit b = true ∧ m.testBit b = true) ∨ (∃ e ∈ c.fq, e.vis = c.idx + lat ∧ e.val.testBit b = true ∧ e.mask.testBit b = true) →
      ((c.wf m v lat).settle n).sf.testBit b = true)
  ∧ ∀ (c : UCore) code v n, c.idx + 3 ≤ n → code ≠ 0x3C → code ≠ 0x3E → ((c.wc code v).settle n).cr code = v)
  ∧ (
  ∀ a b : Word,
    (let r := aluRes .add a b
     r.val = a + b ∧ r.mask = 0xF ∧ (r.bits.testBit 0 = true ↔ a + b = 0) ∧ r.bits.testBit 1 = (a + b).msb
       ∧ (r.bits.testBit 2 = true ↔ 2 ^ 32 ≤ a.toNat + b.toNat) ∧ (r.bits.testBit 3 = true ↔ (a + b).toInt ≠ a.toInt + b.toInt))
    ∧ (let r := aluRes .sub a b
       r.val = a - b ∧ r.mask = 0xF ∧ (r.bits.testBit 0 = true ↔ a = b) ∧ r.bits.testBit 1 = (a - b).msb
         ∧ (r.bits.testBit 2 = true ↔ a.toNat < b.toNat) ∧ (r.bits.testBit 3 = true ↔ (a - b).toInt ≠ a.toInt - b.toInt))
    ∧ (aluRes .cmp a b).bits = (aluRes .sub a b).bits ∧ (aluRes .cmp a b).mask = (aluRes .sub a b).mask
    ∧ (aluRes .adds a b).val.toInt = max (-2147483648) (min 2147483647 (a.toInt + b.toInt))
    ∧ (aluRes .subs a b).val.toInt = max (-2147483648) (min 2147483647 (a.toInt - b.toInt))
    ∧ (aluRes .abs a b).val.toInt = min 2147483647 |a.toInt| ∧ (aluRes .neg a b).val = -a
    ∧ (aluRes .min a b).val.toInt = min a.toInt b.toInt ∧ (aluRes .max a b).val.toInt = max a.toInt b.toInt
    ∧ (aluRes .mulf a b).val.toInt = max (-2147483648) (min 2147483647 ((a.toInt * b.toInt + 2 ^ 30) / 2 ^ 31))
    ∧ (32 ≤ b.toNat % 64 → (aluRes .lsl a b).val = 0 ∧ (aluRes .lsr a b).val = 0
        ∧ (aluRes .asr a b).val = if a.msb then 0xFFFFFFFF else 0))

/-- R89, R143, R451, R145, R146: UNIT_LOAD is staged at acceptance, its image is in the unit's memories when the load completes,
and the unit runs from the boundary; UNIT_UNLOAD takes the program out; UNIT_SET puts the unit's control fields in force, unless
ARM was withdrawn after they were written (R114; the model's reading, assumption 74). INS_WRITE writes the inactive parameter
bank, INS_READ gives the host the bank it names, INS_COMMIT swaps the banks of a pre-matrix unit at its boundary and of a
post-matrix unit one tick later. -/
def Obligations.UnitsAreLoadedAndParametersSwapped : Prop :=
  (
  TakenThen .unitLoad Code.UNIT_LOAD chkUnitLoad (fun e s t =>
      (∀ l, (s.unit e.cmd.a).load = some l → (s.unit e.cmd.a).prog = none →
        t = s.setUnit e.cmd.a { s.unit e.cmd.a with load := some { l with entry := some e, fired := true } })
      ∧ ∀ l p, (s.unit e.cmd.a).load = some l → (s.unit e.cmd.a).prog = some p → ∃ (v : State) (full : Bool), t = v.finishAs e Sts.OK [] full e.late
        ∧ (v.unit e.cmd.a).prog = some { p with ready := some s.time.tick } ∧ (v.unit e.cmd.a).load = none ∧ v.regs = s.regs)
  ∧ (∀ c s, Accepts Code.UNIT_LOAD chkUnitLoad c s → Completes (.unitLoad c) s (fun t => (t.unit c.a).load.isSome = true))
  ∧ (∀ u s l, u < 192 → (s.unit u).load = some l → (s.unit u).prog = none → Completes (.unitLoadComplete u) s (fun t =>
      t.ust u = 1 ∧ (t.unit u).prog = some l.prog ∧ t.fg F.UNIT_DONE_LAST_DONE u = 0xFFFFFFFF
        ∧ (∀ v, v ≠ u → t.unit v = s.unit v) ∧ ∀ a, a < 65536 → memByte t.integ.mem (dpaProg u + a) = l.prog.prog.getD a 0
          ∧ memByte t.integ.mem (dpaX u + a) = l.prog.x.getD a 0))
  ∧ TakenThen .unitUnload Code.UNIT_UNLOAD chkUnitUnload (fun e s t => Rechecked chkUnitUnload e s t (fun v =>
      (v.unit e.cmd.a).prog = none ∧ (s.ust e.cmd.a ≠ 6 → s.spareOf (e.cmd.a / 32) ≠ some e.cmd.a → v.ust e.cmd.a = 0)
        ∧ (s.ust e.cmd.a = 6 → v.ust e.cmd.a = 6) ∧ ∀ w, w ≠ e.cmd.a → v.unit w = s.unit w))
  ∧ TakenRws .unitSet Code.UNIT_SET chkUnitSet (fun e s t => e.cmd.a < 192 →
      (e.wrote = true → s.arm .UNIT_CTL e.cmd.a = false → Ends e Sts.OK [] s t)
      ∧ (e.wrote = false ∨ s.arm .UNIT_CTL e.cmd.a = true →
          (∀ x ∈ s.sched ++ s.dueNext, x.code = Code.UNIT_SET → x.cmd.a ≠ e.cmd.a) → ∃ v, Ends e Sts.OK [] v t
        ∧ v.holds .UNIT_CTL e.cmd.a e.cmd.i0 ∧ v.arm .UNIT_CTL e.cmd.a = false ∧ v.eng = s.eng
        ∧ ∀ r i, r ≠ .UNIT_CTL → i < 2048 → v.rr r i = s.rr r i)))
  ∧ (
  TakenThen .insWrite Code.INS_WRITE chkInsWrite (fun e s t => Rechecked chkInsWrite e s t (fun v =>
      let a := s.parBase e.cmd.a (1 - s.parAct e.cmd.a) + e.cmd.b
      let b := e.cmd.buf.take e.cmd.len
      (wordsOf a b.length).all (fun p => !s.refusesPartial p 0) = true → ∀ x, memByte v.integ.mem x
        = if a ≤ x ∧ x < a + b.length then b.getD (x - a) 0 else memByte s.integ.mem x))
  ∧ TakenThen .insRead Code.INS_READ chkInsRead (fun e s t => Rechecked chkInsRead e s t (fun v => v.integ = s.integ
      ∧ ∀ x, memByte v.hif.hostMem x = if e.cmd.addr ≤ x ∧ x < e.cmd.addr + e.cmd.len
          then memByte s.integ.mem (s.parBase e.cmd.a e.cmd.c + e.cmd.b + (x - e.cmd.addr)) else memByte s.hif.hostMem x))
  ∧ TakenThen .insCommit Code.INS_COMMIT chkInsCommit (fun e s t => ∀ u p, bitList 192 (cmdMask e.cmd) = [u] →
      s.progOf u = some p → ∃ v, Ends e Sts.OK [] v t ∧ (v.unit u).copyAt = some e.seq ∧ v.integ = s.integ
        ∧ (p.post = false → v.parAct u = 1 - s.parAct u)
        ∧ (p.post = true → v.parAct u = s.parAct u ∧ (v.unit u).swapAt = some (s.time.tick + 1, e))))

/-- R94, R97: UNIT_SPARE starts a takeover; the redirect is in force from the next tick and the spare serves once it holds the
image; UNIT_RESTORE waits at its target, where the unit runs again. -/
def Obligations.SparesTakeOverAndReturn : Prop :=
  TakenThen .unitSpare Code.UNIT_SPARE chkUnitSpare (fun e s t => Rechecked chkUnitSpare e s t (fun v =>
      v.ust e.cmd.a = 6 ∧ v.fg F.RG_SPARE_STAT_STATE (e.cmd.a / 32) = 1 ∧ v.fg F.RG_SPARE_STAT_FOR_UNIT (e.cmd.a / 32) = e.cmd.a
        ∧ mget 0 v.eng.spAt (e.cmd.a / 32) = s.time.tick + 1 ∧ mget 0 v.eng.redir (e.cmd.a / 32) = 0))
  ∧ (∀ g s, g < 6 → s.fg F.RG_SPARE_STAT_STATE g = 1 → mget 0 s.eng.spAt g ≠ 0 → mget 0 s.eng.spAt g ≤ s.time.tick →
      Completes (.spareRedirect g) s (fun t => mget 0 t.eng.redir g = 1 ∧ t.regs = s.regs ∧ t.eng.units = s.eng.units))
  ∧ (∀ g s q p, g < 6 → s.spareOf g = some q → s.progOf (s.fg F.RG_SPARE_STAT_FOR_UNIT g) = some p →
      s.fg F.RG_SPARE_STAT_STATE g = 1 → mget 0 s.eng.redir g = 1 → Completes (.spareImageLoaded g) s (fun t =>
        t.fg F.RG_SPARE_STAT_STATE g = 2 ∧ t.ust q = 1
          ∧ t.fg F.UNIT_DONE_LAST_DONE q = s.fg F.UNIT_DONE_LAST_DONE (s.fg F.RG_SPARE_STAT_FOR_UNIT g)
          ∧ ∀ a, a < 65536 → memByte t.integ.mem (dpaProg q + a) = p.prog.getD a 0))
  ∧ TakenThen .unitRestore Code.UNIT_RESTORE chkUnitRestore (fun e s t =>
      ((chkUnitRestore e.cmd s).1 ≠ Sts.OK → Ends e (chkUnitRestore e.cmd s).1 (chkUnitRestore e.cmd s).2 s t)
      ∧ ((chkUnitRestore e.cmd s).1 = Sts.OK →
          t = { s with eng := { s.eng with restore := mset false s.eng.restore e.cmd.a e } }))
  ∧ ∀ u s e p, u < 192 → mfind s.eng.restore u = some e → s.progOf u = some p → s.spareOf (u / 32) ≠ some u →
      Completes (.restoreRedirectRemove u) s (fun t => ∃ v, Ends e Sts.OK [] v t ∧ v.ust u = 1 ∧ mfind v.eng.restore u = none
        ∧ (v.fg F.CL_STAT_FAILED (u / 8)).testBit (u % 8) = false ∧ (v.unit u).prog = some { p with ready := some s.time.tick })

/-- R92, R113: CL_RESET asks for a reset; it is asserted at the tick asked for, a burst of the cluster's Pumps that it cuts
leaves a C1 Notice, the reset is released a tick later, reloaded, and the cluster's outputs return at T + 11 ticks; a reload
that fails leaves the cluster FAILED. -/
def Obligations.ClusterResetRunsItsCourse : Prop :=
  TakenThen .clReset Code.CL_RESET chkClReset (fun e s t => Rechecked chkClReset e s t (fun v =>
      (mfind s.eng.clRst e.cmd.a = none → mfind s.eng.clReq e.cmd.a = none →
        v = { s with eng := { s.eng with clReq := mset false s.eng.clReq e.cmd.a (s.time.tick, none) } })
      ∧ v.regs = s.regs ∧ v.eng.units = s.eng.units))
  ∧ (∀ c cut s t fault, c < 24 → mfind s.eng.clReq c = some (t, fault) → t ≤ s.time.tick →
      Completes (.clusterResetAssert ⟨c, cut⟩) s (fun v => v.clState c = 2 ∧ mfind v.eng.clReq c = none
        ∧ mfind v.eng.clRst c = some ⟨s.time.tick, false, fault⟩ ∧ (∀ i, i < 8 → v.core (8 * c + i) = UCore.reset)
        ∧ (∀ u, u / 8 ≠ c → v.core u = s.core u)
        ∧ ∀ p ∈ cut, p.1 < 16 → s.pmpHas (16 * c + p.1) = true → ∃ d ∈ v.detq, d.fam = 0x12))
  ∧ (∀ c s x, c < 24 → mfind s.eng.clRst c = some x → s.clState c = 2 → x.tick + 1 ≤ s.time.tick →
      Completes (.clusterResetRelease c) s (fun v => v.clState c = 3 ∧ RegsKept [.CL_STAT] s v ∧ v.eng = s.eng))
  ∧ (∀ c s x, c < 24 → mfind s.eng.clRst c = some x → s.clState c = 3 → x.loaded = false →
      Completes (.clusterReloadComplete c true) s (fun v => mfind v.eng.clRst c = some { x with loaded := true } ∧ v.clState c = 3)
      ∧ (mfind s.smp.clF c = none →
        Completes (.clusterReloadComplete c false) s (fun v => v.clState c = 4 ∧ mfind v.eng.clRst c = none)))
  ∧ ∀ c s x, c < 24 → mfind s.eng.clRst c = some x → s.clState c = 3 → x.loaded = true → x.tick + 11 ≤ s.time.tick →
      Completes (.clusterReturn c) s (fun v => v.clState c = b2n (s.fb F.CL_CTL_EN c) ∧ mfind v.eng.clRst c = none
        ∧ RegsKept [.CL_STAT] s v)

/-- R55, R91, R138, R140: input blocks are in the Cisterns before the units wake and outputs after the matrix, with their lines
pulsed; a unit wakes at its entry with the tick's number and line 32; one that has not done by the deadline stops with its
overrun reported. -/
def Obligations.UnitsWakeAndMeetTheDeadline : Prop :=
  (∀ c s u p i off, c < 24 → s.clusterRuns c = true → s.progsOf c = [(u, p)] → p.binds = [⟨1, i, off⟩] → off % 16 = 0 →
      off < 0x200000 → Completes (.inputDeliveryComplete c) s (fun t =>
        (∀ k, k < 16 → memByte t.integ.mem (dpaCistern c + off + k) = (blkBytes (mget Blk.zero s.aud.ic i)).getD k 0)
        ∧ ∀ k, k < 8 → s.role (8 * c + k) = 8 * c + k → (t.core (s.runner (8 * c + k))).pend.testBit 33 = true))
  ∧ (∀ c s u p i off, c < 24 → s.clusterRuns c = true → s.progsOf c = [(u, p)] → p.binds = [⟨3, i, off⟩] → off % 16 = 0 →
      off < 0x200000 → Completes (.outputDeliveryComplete c) s (fun t =>
        (∀ k, k < 16 → memByte t.integ.mem (dpaCistern c + off + k) = (blkBytes (mget Blk.zero s.aud.mo i)).getD k 0)
        ∧ ∀ k, k < 8 → s.role (8 * c + k) = 8 * c + k → (t.core (s.runner (8 * c + k))).pend.testBit 34 = true))
  ∧ (∀ dt s u p, tickStart (tickAt (s.elapse dt).now) + 3000 ≤ (s.elapse dt).now → s.eng.units.map (·.1) = [u] → u < 192 →
      (∀ g, g < 6 → s.spareOf g = none) → (s.elapse dt).mayWake u = true → s.ust u = 4 → s.eng.woken ≠ s.time.tick + 1 → s.progOf u = some p →
      Completes (.unitWake dt) s (fun t => t.ust u = 2 ∧ (t.core u).pc = p.entry ∧ (t.core u).pend.testBit 32 = true
        ∧ (t.core u).tick = (s.elapse dt).tickno ∧ (t.core u).dr 2 = BitVec.ofNat 32 u ∧ (t.core u).sf = sfIE))
  ∧ ∀ dt s, tickStart (tickAt (s.elapse dt).now) + s.deadlineNs ≤ (s.elapse dt).now → (∀ p ∈ s.eng.units, p.1 < 192) →
      Completes (.preMatrixDeadline dt) s (fun t => ∀ p ∈ s.eng.units, s.ust p.1 = 2 ∨ s.ust p.1 = 3 →
        t.ust p.1 = 5 ∧ ∃ d ∈ t.detq, d.fam = 0x20 ∧ d.subj = p.1)

/-- R106, R310, R321, R322: REMAP is set once and never cleared; an island that powers up has its memories cleared and its
region on; a reported word is restored by what it belongs to. -/
def Obligations.WindlassRestoresWhatItCan : Prop :=
  (∀ v s, Completes (.secRemapWrite v) s (fun t => t.fg F.SEC_REMAP_REMAP 0
      = (if v % 2 = 1 then 1 else s.fg F.SEC_REMAP_REMAP 0) ∧ RegsKept [.SEC_REMAP] s t))
  ∧ (∀ g s, g < 6 → s.fb F.RG_PWR_ON g = false → s.standby = false → s.pwr ≠ 3 → Completes (.islandPowerUp g []) s (fun t =>
      t.fb F.RG_PWR_ON g = true ∧ (t.fg F.RW_PWR_STAT_ISLANDS 0).testBit g = true
        ∧ ∀ a w, wordOfDpa a = some w → w.log = g → memByte t.integ.mem a = 0))
  ∧ (∀ w s n, wkey w ∈ s.integ.restore → n < 16 → Completes (.windlassRestore w 5 n) s (fun t =>
      t.fg F.SP_MSG_DDR_OK n = 0 ∧ wkey w ∉ t.integ.restore ∧ t.integ.mem = s.integ.mem))
  ∧ ∀ w s, wkey w ∈ s.integ.restore → Completes (.windlassRestore w 6 0) s (fun t =>
      wkey w ∉ t.integ.restore ∧ mget 0 t.integ.errs (wkey w) = 0 ∧ t.integ.mem = s.integ.mem ∧ t.regs = s.regs)

/-- R114, R175, R180, R191: DP_SET writes the port's shadows and ARM at acceptance and waits for the hand-over; DP_RETRAIN takes
the port to TRAIN with its groups' measurements ended; DP_MBX_SEND queues a message in chunks of 13 bytes; BG_SET puts a group's
fields in force, unless ARM was withdrawn after they were written (the model's reading, assumption 74). -/
def Obligations.DrivePortCommandsSetAndRetrain : Prop :=
  TakenWait .dpSet Code.DP_SET chkDpSet .DP_CTL (fun c _ t => t.shadows .DP_CTL c.a c.i0 ∧ t.shadows .DP_MOD c.a c.i1)
  ∧ TakenThen .dpRetrain Code.DP_RETRAIN chkPort24 (fun e s t => e.cmd.a < 24 → ∃ v, Ends e Sts.OK [] v t
      ∧ v.fg F.DP_STAT_STATE e.cmd.a = 1 ∧ v.fg F.FLT_CAP_MEAS (2 * e.cmd.a) = 0 ∧ v.fg F.FLT_CAP_MEAS (2 * e.cmd.a + 1) = 0
      ∧ (v.port e.cmd.a).good = 0 ∧ (v.port e.cmd.a).since = s.time.up ∧ (∀ n, n ≠ e.cmd.a → v.port n = s.port n)
      ∧ RegsKept [.DP_STAT, .FLT_CAP] s v)
  ∧ TakenThen .dpMbxSend Code.DP_MBX_SEND chkDpMbxSend (fun e s t =>
      ((chkDpMbxSend e.cmd s).1 ≠ Sts.OK → Ends e (chkDpMbxSend e.cmd s).1 (chkDpMbxSend e.cmd s).2 s t)
      ∧ ((chkDpMbxSend e.cmd s).1 = Sts.OK → t.regs = s.regs ∧ (t.port e.cmd.a).entry = some e
          ∧ (t.port e.cmd.a).out.flatten = e.cmd.buf.take e.cmd.len ∧ (∀ b ∈ (t.port e.cmd.a).out, b.length ≤ 13)
          ∧ (∀ n, n ≠ e.cmd.a → t.port n = s.port n)))
  ∧ TakenRws .bgSet Code.BG_SET chkBgSet (fun e s t =>
      ((chkBgSet e.cmd s).1 ≠ Sts.OK → ∃ v, Ends e (chkBgSet e.cmd s).1 (chkBgSet e.cmd s).2 v t ∧ v.drv = s.drv
        ∧ (e.cmd.a < 48 → v.arm .BG_CTL e.cmd.a = false ∧ RegsKept [.BG_CTL] s v))
      ∧ ((chkBgSet e.cmd s).1 = Sts.OK → ∃ v, Ends e Sts.OK [] v t
          ∧ (e.wrote = true → s.arm .BG_CTL e.cmd.a = false → v = s)
          ∧ (e.wrote = false ∨ s.arm .BG_CTL e.cmd.a = true →
              (∀ x ∈ s.sched ++ s.dueNext, x.code = Code.BG_SET → x.cmd.a ≠ e.cmd.a) → v.holds .BG_CTL e.cmd.a e.cmd.i0
              ∧ v.holds .BG_RAIL e.cmd.a e.cmd.i1 ∧ v.arm .BG_CTL e.cmd.a = false ∧ RegsKept [.BG_CTL, .BG_RAIL] s v)))

/-- R182, R183, R208: writes of drive-channel and line entries go to the inactive bank and are refused while a commit holds it;
reads give the bank named; a commit makes the other bank active and acts two ticks later. -/
def Obligations.DriveChannelsAreWrittenInactive : Prop :=
  TakenThen .dcWrite Code.DC_WRITE chkDcWrite (fun e s t => Rechecked chkDcWrite e s t (fun v =>
      v = { s with drv := { s.drv with dc := v.drv.dc } } ∧ ∀ j, mget 0 v.drv.dc j
        = if 192 * (1 - s.drv.act) + e.cmd.a ≤ j ∧ j < 192 * (1 - s.drv.act) + e.cmd.a + e.cmd.b
          then leAt e.cmd.buf (8 * (j - (192 * (1 - s.drv.act) + e.cmd.a))) 8 else mget 0 s.drv.dc j))
  ∧ TakenThen .dcRead Code.DC_READ chkDcRead (fun e s t => ∃ v, Ends e Sts.OK [] v t
      ∧ HostGets e.cmd.addr (readEntries 0 8 (192 * e.cmd.c + e.cmd.a) e.cmd.b s.drv.dc) s v)
  ∧ TakenThen .dcCommit Code.DC_COMMIT chkDcCommit (fun e s t => ∃ v, Ends e Sts.OK [] v t ∧ v.regs = s.regs
      ∧ v.drv.act = 1 - s.drv.act ∧ v.drv.use = s.drv.use ∧ v.drv.useAt = s.time.tick + 2 ∧ v.drv.lock = 2
      ∧ v.drv.dc = s.drv.dc ∧ v.drv.ln = s.drv.ln ∧ v.drv.rampMs = e.cmd.rampMs ∧ v.drv.shape = e.cmd.shape)
  ∧ TakenThen .fltLineWrite Code.FLT_LINE_WRITE chkFltLineWrite (fun e s t => Rechecked chkFltLineWrite e s t (fun v =>
      v = { s with drv := { s.drv with ln := v.drv.ln } } ∧ ∀ j, mget lineFactory v.drv.ln j
        = if 192 * (1 - s.drv.act) + e.cmd.a ≤ j ∧ j < 192 * (1 - s.drv.act) + e.cmd.a + e.cmd.b
          then leAt e.cmd.buf (16 * (j - (192 * (1 - s.drv.act) + e.cmd.a))) 16 else mget lineFactory s.drv.ln j))
  ∧ TakenThen .fltLineRead Code.FLT_LINE_READ chkFltLineRead (fun e s t => ∃ v, Ends e Sts.OK [] v t
      ∧ HostGets e.cmd.addr (readEntries lineFactory 16 (192 * e.cmd.c + e.cmd.a) e.cmd.b s.drv.ln) s v)

/-- R27, R169, R170, R171, R173, R174, R175, R187: a drive frame starts on every port in turn of the tick's 64, frame 16·j once
sample j is there, and carries its number and its check word. A channel in Hi-Z sends 0xFFFF on both legs; the other codes are
those of high times within the clamp of R187. 64 frames that answer the TX frame before the last bring a port to READY, where
CAUSE reads 5 until the cell is ready (assumption 78) and the port comes UP; an invalid one is counted; training that takes 10
ms is reported once; a port without valid frames goes DOWN and trains again. -/
def Obligations.DriveLinksComeUpAndGoDown : Prop :=
  (∀ s n, s.time.frame < 64 → s.time.frame / 16 < s.time.sample → n < 24 → s.arm .DP_CTL n = false →
    let u := s.reach (s.frameStart s.time.frame)
    Completes .driveFrameLaunch s (fun t => t.time = { u.time with frame := s.time.frame + 1 }
      ∧ (s.fg F.DP_STAT_STATE n ≠ 0 → s.fb F.DP_CTL_EN n = true → ∃ f, (t.port n).tx = some f
          ∧ f.gf = tickAt u.now / 24000 * 1536000 + 64 * (tickAt u.now % 24000) + s.time.frame
          ∧ f.bytes.length = 160 ∧ leAt f.bytes 2 2 = f.gf % 65536 ∧ leAt f.bytes 0x9C 4 = crc32c ((f.bytes.drop 1).take 155))
      ∧ (s.fg F.DP_STAT_STATE n = 0 → s.fb F.DP_CTL_EN n = true → t.fg F.DP_STAT_STATE n = 1)
      ∧ (s.fg F.DP_STAT_STATE n = 0 → s.fb F.DP_CTL_EN n = false → (s.port n).offLeft = 0 → (t.port n).tx = none)))
  ∧ (∀ s, s.time.sample ≤ s.time.frame / 16 → exec .driveFrameLaunch s = .next s)
  ∧ (∀ (s : State) n k gf, s.hiZ (8 * n + k) = true → s.legCodes n k gf = ([0xFFFF, 0xFFFF], s))
  ∧ (∀ (s : State) n k gf, let lo := codeMin (s.fg F.DP_MOD_MIN_PULSE n) (codeStep (s.fg F.DP_CTL_CODE_BITS n))
      s.hiZ (8 * n + k) = false → lo ≤ 32768 → ∃ a b, (s.legCodes n k gf).1 = [codeOf (gf % 2) a, codeOf (gf % 2) b]
        ∧ lo ≤ a ∧ a ≤ 65536 - lo ∧ lo ≤ b ∧ b ≤ 65536 - lo)
  ∧ (∀ h, h ≤ 65536 → codeOf 0 h + codeOf 1 h = 65536)
  ∧ (∀ n f s x, n < 24 → s.fg F.DP_STAT_STATE n = 1 → rxValid f = true → (s.port n).tx = some x →
      leAt f.bytes 2 2 = (x.gf + 65534) % 65536 → f.rtt ≤ 400 → Completes (.driveRxFrame n f) s (fun t =>
        t.fg F.DP_STAT_STATE n = (if 63 ≤ (s.port n).good then 2 else 1) ∧ (t.port n).good = (s.port n).good + 1
          ∧ (t.port n).got = 2 ∧ (t.port n).rx = rxVals f.bytes ∧ ∀ m, m ≠ n → t.port m = s.port m))
  ∧ (∀ n f s, n < 24 → s.fg F.DP_STAT_STATE n = 2 → rxValid f = true → Completes (.driveRxFrame n f) s (fun t =>
      ((leAt f.bytes 0x30 4).testBit 0 = true → t.fg F.DP_STAT_STATE n = 3 ∧ (t.port n).upTick = s.time.tick + 1
        ∧ ∀ k, k < 8 → t.hiZ (8 * n + k) = true)
      ∧ ((leAt f.bytes 0x30 4).testBit 0 = false → t.fg F.DP_STAT_STATE n = 2 ∧ t.fg F.DP_STAT_CAUSE n = 5)))
  ∧ (∀ n f s, n < 24 → s.fg F.DP_STAT_STATE n = 1 → rxValid f = false → Completes (.driveRxFrame n f) s (fun t =>
      t.fg F.DP_STAT_STATE n = 1 ∧ (t.port n).good = 0 ∧ (t.port n).got = 1
        ∧ t.fg F.DP_ERR_CRC n = min (2 ^ (F.DP_ERR_CRC.hi + 1 - F.DP_ERR_CRC.lo) - 1) (s.fg F.DP_ERR_CRC n + 1)))
  ∧ (∀ n s, n < 24 → s.fg F.DP_STAT_STATE n = 1 → (s.port n).raised = false → (s.port n).since + 10 * msNs ≤ s.time.up →
      Completes (.trainingTimeout n) s (fun t => (t.port n).raised = true ∧ t.fg F.DP_STAT_STATE n = 1
        ∧ t.detq = s.detq ++ [⟨0x50, n, 0, 2, (s.port n).cause, s.mts, false, false, 0⟩] ∧ RegsKept [.DP_STAT] s t))
  ∧ (∀ n s, n < 24 → s.fg F.DP_STAT_STATE n = 3 → 4 ≤ (s.port n).age ∨ 4 ≤ (s.port n).rttBad →
      Completes (.driveLinkDown n) s (fun t => t.fg F.DP_STAT_STATE n = 4 ∧ (t.port n).since = s.time.up
        ∧ t.fg F.FLT_CAP_MEAS (2 * n) = 0 ∧ t.fg F.FLT_CAP_MEAS (2 * n + 1) = 0
        ∧ t.detq = s.detq ++ [⟨0x50, n, 0, 1, 0, s.mts, false, false, 0⟩]))
  ∧ (∀ n s, n < 24 → s.fg F.DP_STAT_STATE n = 4 → (s.port n).since + msNs ≤ s.time.up →
      Completes (.downRetrainExpiry n) s (fun t => t.fg F.DP_STAT_STATE n = 1 ∧ (t.port n).good = 0 ∧ RegsKept [.DP_STAT] s t))
  ∧ ∀ n s e, (s.port n).out ≠ [] → (s.port n).outAt + msNs ≤ s.time.up → (s.port n).entry = some e →
      Completes (.dpMbxTimeout n) s (fun t => ∃ v, Ends e Sts.DP_MBX_TIMEOUT [] v t ∧ (v.port n).out = [] ∧ (v.port n).entry = none)

/-- R20, R193, R194, R196, R197, R200, R203, R205, R206: settings of the Float take effect as one; a measurement can be asked
for and times out; FLT_CLEAR and the expiry of RETRY take a TRIPPED channel to CHECK, whose end decides between NORMAL, with a
ramp-in of 20 ms, and a doubled RETRY; a group that returns from OFF ramps its channels in; energy bins of 100 ms end together;
a channel whose limiter gain is 0, or which an epoch restart mutes, has no programme. -/
def Obligations.FloatGuardsItsChannels : Prop :=
  TakenRws .fltSet Code.FLT_SET chkFltSet (fun e s t => (chkFltSet e.cmd s).1 = Sts.OK →
      e.wrote = false ∨ s.arm .FLT_CTL 0 = true → (∀ x ∈ s.sched ++ s.dueNext, x.code ≠ Code.FLT_SET) → ∃ v, Ends e Sts.OK [] v t
      ∧ v.holds .FLT_CTL 0 e.cmd.i0 ∧ v.holds .LW_CTL 0 e.cmd.i3
      ∧ (e.cmd.a < 48 → v.holds .FLT_GRP e.cmd.a e.cmd.i1 ∧ v.holds .FLT_REL e.cmd.a e.cmd.i2)
      ∧ v.arm .FLT_CTL 0 = false ∧ v.arm .LW_CTL 0 = false ∧ v.drv = s.drv)
  ∧ TakenThen .fltRemeasure Code.FLT_REMEASURE chkFltRemeasure (fun e s t => ∃ v, Ends e Sts.OK [] v t ∧ ∀ g, g < 48 →
      v.fg F.FLT_CAP_MEAS g = if (e.cmd.a + e.cmd.b * 2 ^ 32).testBit g ∧ s.fg F.BG_CTL_OUT_MODE g ≠ 0
        ∧ s.fg F.DP_STAT_STATE (g / 2) = 3 then 1 else s.fg F.FLT_CAP_MEAS g)
  ∧ TakenThen .fltClear Code.FLT_CLEAR chkNone (fun e s t => ∃ v, Ends e Sts.OK [] v t ∧ ∀ c, c < 192 →
      (v.ch c).st = if (cmdMask e.cmd).testBit c ∧ (s.ch c).st = 2 then 3 else (s.ch c).st)
  ∧ TakenThen .fltRead Code.FLT_READ chkFltRead (fun e s t => e.cmd.b = 1 → ∃ (v u : State) (b : List Byte), Ends e Sts.OK [] v t
      ∧ HostGets e.cmd.addr b u v ∧ u.regs = s.regs ∧ u.drv = s.drv ∧ b.length = 16
      ∧ b.take 2 = [BitVec.ofNat 8 (s.ch e.cmd.a).st, BitVec.ofNat 8 (s.ch e.cmd.a).cause])
  ∧ (∀ g s, g < 48 → s.fg F.FLT_CAP_MEAS g = 1 → (s.grp g).at_ + 200 * msNs ≤ s.time.up → Completes (.measurementTimeout g) s
      (fun t => t.fg F.FLT_CAP_MEAS g = 4 ∧ t.fg F.FLT_CAP_CAUSE g = 1 ∧ t.drv = s.drv ∧ RegsKept [.FLT_CAP] s t))
  ∧ (∀ g s x, g < 48 → (s.grp g).over5 = some x → x + msNs ≤ s.time.up → (s.grp g).off = false →
      Completes (.railOvervoltageTrip g) s (fun t => (t.grp g).off = true ∧ t.regs = s.regs
        ∧ t.detq = s.detq ++ [⟨0x54, g / 2, g, 2, 0, s.mts, false, false, 0⟩]))
  ∧ (∀ g s x, g < 48 → (s.grp g).okAt = some x → x + 10 * msNs ≤ s.time.up → (s.grp g).off = true →
      Completes (.railReturn g) s (fun t => (t.grp g).off = false ∧ (t.grp g).forced = false ∧ t.regs = s.regs
        ∧ (∀ h, h ≠ g → t.grp h = s.grp h)
        ∧ ∀ k, k < 4 → (s.ch (4 * g + k)).st ≠ 0 → (t.ch (4 * g + k)).dg = ⟨0, 1048576, s.time.tick + 1, 4, 0⟩))
  ∧ (∀ c s, c < 192 → (s.ch c).st = 2 → (s.ch c).timer ≤ s.time.up → Completes (.retryExpiry c) s (fun t =>
      (t.ch c).st = 3 ∧ (t.ch c).timer = s.upTick (100 * msNs) ∧ (∀ d, d ≠ c → t.ch d = s.ch d) ∧ RegsKept [.FLT_TRIPPED] s t))
  ∧ (∀ c s, c < 192 → (s.ch c).st = 1 → (s.ch c).normAt + 30 * secNs ≤ s.time.up → Completes (.tripFreeExpiry c) s (fun t =>
      (t.ch c).retry = lnRetry (s.lnE c) ∧ (t.ch c).st = 1 ∧ t.regs = s.regs))
  ∧ (∀ c s, c < 192 → (s.ch c).st = 3 → (s.ch c).timer ≤ s.time.up → Completes (.checkEnd c) s (fun t =>
      ((t.ch c).st = 1 ∧ (t.ch c).normAt = s.time.up ∧ (t.ch c).dg = ⟨0, 1048576, s.tickHere, 1920, 1⟩)
        ∨ ((t.ch c).st = 2 ∧ (t.ch c).retry = min (2 * (s.ch c).retry) 3000
            ∧ (t.ch c).timer = s.upTick (min (2 * (s.ch c).retry) 3000 * 10 * msNs))))
  ∧ (∀ (s : State) c i, (s.ch c).gain0 = 0 → (s.ch c).gain = 0 → s.programme c i = 0)
  ∧ (∀ (s : State) c, s.eWindow c = 0 → (s.limTarget c).1 = 0)
  ∧ (∀ (s : State) c, s.aud.muted = true → s.aud.fadeTick ≠ s.time.tick → s.voiceOnly = false → ∀ i, s.programme c i = 0)
  ∧ (∀ s, s.now / (100 * msNs) = s.drv.binNo → exec .energyBinEnd s = .next s)
  ∧ ∀ s, s.now / (100 * msNs) ≠ s.drv.binNo → Completes .energyBinEnd s (fun t => (∀ c, (∀ p ∈ s.drv.chs, p.1 = c → p.2 = s.ch c)
    → c ∈ s.drv.chs.map (·.1) →
      (t.ch c).cur = 0 ∧ (t.ch c).bins = ((s.ch c).cur :: (s.ch c).bins).take 99) ∧ t.drv.binNo = s.now / (100 * msNs) ∧ t.regs = s.regs)

/-- R210, R212, R213, R214, R215: a window gives its result once its last frame has come, 1,051 ns after its end (the model's
reading of R169, assumption 82), and none before; baselines are taken over up to 16 windows; a sweep runs its points in order
and its end is posted; an abort cancels it; reads give the host the records. -/
def Obligations.LineWatchSweepsAndReads : Prop :=
  TakenThen .lwBaseline Code.LW_BASELINE chkLwBaseline (fun e s t =>
      (e.cmd.i0 = 1 → t = { s with drv := { s.drv with swTake := s.drv.swTake ||| cmdMask e.cmd, swCmd := s.drv.swCmd ++ [e] } })
      ∧ (e.cmd.i0 ≠ 1 → ∀ c, c < 192 → (cmdMask e.cmd).testBit c = true → lnLw (s.lnE c) = true → lnHf (s.lnE c) = true →
          (t.pil true c).left = 16 ∧ (t.pil true c).take = []))
  ∧ TakenThen .lwRead Code.LW_READ chkLwRead (fun e s t => ∃ v, Ends e Sts.OK [] v t
      ∧ HostGets e.cmd.addr ((List.range e.cmd.b).flatMap (fun i => ptBytes (s.pil true (e.cmd.a + i)).last
          ++ ptBytes (s.pil false (e.cmd.a + i)).last ++ ptBytes ((s.pil true (e.cmd.a + i)).base.getD ZPoint.none)
          ++ ptBytes ((s.pil false (e.cmd.a + i)).base.getD ZPoint.none))) s v)
  ∧ TakenThen .lwSweep Code.LW_SWEEP chkLwSweep (fun e s t => ∃ w, t.drv.sweep = some w ∧ w.run = true ∧ w.idx = 0 ∧ w.entry = e
      ∧ w.mask = leAt e.cmd.buf 0 24 ∧ w.pts.length = e.cmd.a ∧ w.num = (s.drv.swNum + 1) % 2 ^ 32
      ∧ t.fg F.LW_SWEEP_STAT_STATE 0 = 2 ∧ t.fg F.LW_SWEEP_STAT_SWEEP 0 = w.num % 65536 ∧ t.drv.swRec = [] ∧ RegsKept [.LW_SWEEP_STAT] s t)
  ∧ TakenThen .lwSweepAbort Code.LW_SWEEP_ABORT chkNone (fun e s t => s.drv.sweep = none →
      (∀ x ∈ s.sched ++ s.dueNext, x.code ≠ Code.LW_SWEEP) → Ends e Sts.OK [] s t)
  ∧ TakenThen .lwSweepRead Code.LW_SWEEP_READ chkLwSweepRead (fun e s t => ∀ w, s.drv.sweep = some w → ∃ v, Ends e Sts.OK [] v t
      ∧ HostGets e.cmd.addr ((List.range e.cmd.b).flatMap (fun i =>
          if w.mask.testBit (e.cmd.a + i) then swRecBytes w (e.cmd.a + i) (w.ins.testBit (e.cmd.a + i)) (mget [] s.drv.swRec (e.cmd.a + i))
          else List.replicate (16 + 8 * w.pts.length) 0)) s v)
  ∧ (∀ s w, s.drv.sweep = some w → w.run = true → w.mask % 2 ^ 192 = 0 → w.ptAt + 10 * msNs + w.dwell * 250000000 + 1051 ≤ s.now →
      w.idx + 1 < w.pts.length → Completes .sweepPointEnd s (fun t =>
        t.drv.sweep = some { w with idx := w.idx + 1, ptAt := w.ptAt + 10 * msNs + w.dwell * 250000000 } ∧ t.drv.swRec = s.drv.swRec
          ∧ RegsKept [.LW_SWEEP_STAT] s t))
  ∧ (∀ s w, s.drv.sweep = some w → w.run = true → w.ptAt + 10 * msNs + w.dwell * 250000000 + 1051 ≤ s.now → w.pts.length ≤ w.idx + 1 →
      Completes .sweepPointEnd s (fun t => ∃ x, t.drv.sweep = some x ∧ x.run = false ∧ x.num = w.num))
  ∧ (∀ c s, let p := s.pil true c
      let len := (lnTint (s.lnE c) + 1) * 250000000
      c < 192 → s.pilSet true c = true → (s.ch c).st = 1 → 0 < p.acc.stop → p.acc.start ≤ s.now → p.acc.stop + 1051 ≤ s.now →
      s.now < p.acc.stop + len → p.acc.n ≠ p.acc.bad → p.left = 0 → s.drv.blCmd = [] →
      Completes (.lwWindowEnd c) s (fun t => (t.pil true c).last.freq = s.pilFreq true c ∧ ∀ d, d ≠ c → t.pil true d = s.pil true d))
  ∧ ∀ c s, c < 192 → (s.ch c).st = 1 → s.drv.blCmd = [] →
      (∀ hf, 0 < (s.pil hf c).acc.stop ∧ (s.pil hf c).acc.start ≤ s.now ∧ s.now < (s.pil hf c).acc.stop + 1051
        ∧ s.now < (s.pil hf c).acc.stop + (lnTint (s.lnE c) + 1) * 250000000) →
      Completes (.lwWindowEnd c) s (fun t => t.drv.hf = s.drv.hf ∧ t.drv.lf = s.drv.lf)

/-- R218, R219, R224, R227, R231, R235, R220, R221, R236: TDM_SET and PDM_SET write shadows and ARM and wait for the hand-over;
TDM_RING_SET gives a stopped port its ring; TDM_AG_START runs the waiting members of a group together and TDM_AG_STOP returns
them to WAIT. A running master sends its frame sync at each instant of its grid; a slave locks after 16 frames of the right
length and is LOST without them, with zeros in its slots; software writes the ring index it owns unless that would overfill the
ring; a PDM line without transitions is reported. -/
def Obligations.AudioPortsConfigureLockAndReport : Prop :=
  (
  TakenWait .tdmSet Code.TDM_SET chkTdmSet .TDM_CTL (fun c _ t => t.shadows .TDM_CTL c.a c.i0 ∧ t.shadows .TDM_FRAME c.a c.i1
    ∧ t.shadows .TDM_MASK_RX c.a c.i2 ∧ t.shadows .TDM_MASK_TX c.a c.i3)
  ∧ TakenWait .pdmSet Code.PDM_SET chkPdmSet .PDM_CTL (fun c _ t => t.shadows .PDM_CTL c.a c.i0 ∧ t.shadows .PDM_GAIN c.a c.i1)
  ∧ TakenThen .tdmRingSet Code.TDM_RING_SET chkTdmRingSet (fun e s t => Rechecked chkTdmRingSet e s t (fun v =>
      v.fg F.TDM_RING_CFG_SIZE e.cmd.a = F.TDM_RING_CFG_SIZE.get e.cmd.i2 ∧ v.fg F.TDM_RING_BASE_BASE e.cmd.a
        = F.TDM_RING_BASE_BASE.get e.cmd.i1 ∧ v.fg F.TDM_PACK_PACK e.cmd.a = F.TDM_PACK_PACK.get e.cmd.i0
        ∧ v.ap = s.ap ∧ RegsKept [.TDM_PACK, .TDM_RING_BASE, .TDM_RING_CFG] s v))
  ∧ TakenThen .tdmAgStart Code.TDM_AG_START chkTdmAgStart (fun e s t => e.cmd.a < 4 → ∃ v, Ends e Sts.OK [] v t
      ∧ v.ap.agRun.testBit e.cmd.a = true ∧ mget 0 v.ap.agAt e.cmd.a = s.now + 1 ∧ v.fg F.TDM_AG_STAT_STATE e.cmd.a = 2
      ∧ ∀ p, p < 16 → s.fg F.TDM_CTL_AG p = e.cmd.a → s.fg F.TDM_STAT_STATE p = 1 → s.tdmOn p = true → (s.tdm p).moved ≠ s.time.tick + 1 →
          s.fb F.TDM_CTL_MASTER p = true → s.standby = false → s.pwr ≠ 3 → s.level ≠ 4 → v.fg F.TDM_STAT_STATE p = 3)
  ∧ TakenThen .tdmAgStop Code.TDM_AG_STOP chkTdmAgStop (fun e s t => e.cmd.a < 4 → ∃ v, Ends e Sts.OK [] v t
      ∧ v.ap.agRun.testBit e.cmd.a = false ∧ ∀ p, p < 16 → s.fg F.TDM_CTL_AG p = e.cmd.a →
          v.fg F.TDM_STAT_STATE p = if s.fg F.TDM_STAT_STATE p = 3 then 1 else s.fg F.TDM_STAT_STATE p))
  ∧ (
  (∀ p f s, p < 16 → s.fg F.TDM_STAT_STATE p = 3 → s.fb F.TDM_CTL_MASTER p = true → s.arm .TDM_CTL p = false →
      (frameNo (s.tdmFs p) (s.elapse f.dt).now).isSome = true → Completes (.tdmFrameSync p f) s (fun t =>
        (t.tdm p).last = some (s.elapse f.dt).time.up ∧ t.fg F.TDM_STAT_STATE p = 3))
  ∧ (∀ p f s, p < 16 → s.fg F.TDM_STAT_STATE p = 2 → s.fb F.TDM_CTL_MASTER p = false → s.fb F.TDM_CTL_SYNC p = false →
      s.arm .TDM_CTL p = false →
      (f.bclks = s.tdmSlots p * s.tdmBitsOf p → 15 ≤ (s.tdm p).lockN → Completes (.tdmFrameSync p f) s (fun t =>
        t.fg F.TDM_STAT_STATE p = 3))
      ∧ (f.bclks ≠ s.tdmSlots p * s.tdmBitsOf p → Completes (.tdmFrameSync p f) s (fun t =>
        t.fg F.TDM_STAT_STATE p = 2 ∧ (t.tdm p).lockN = 0 ∧ t.regs = s.regs)))
  ∧ (∀ p s x, p < 16 → (s.tdm p).last = some x → s.fg F.TDM_STAT_STATE p = 3 → s.fb F.TDM_CTL_MASTER p = false →
      x + 2 * 1000000000 / s.tdmFs p ≤ s.time.up → Completes (.tdmFrameSyncTimeout p) s (fun t =>
        t.fg F.TDM_STAT_STATE p = 2 ∧ (t.tdm p).lockN = 0 ∧ (∃ d ∈ t.detq, d.fam = 0x35 ∧ d.inst = p)
          ∧ ∀ x ∈ (t.tdm p).out, x.2 = 0))
  ∧ (∀ p v s, p < 16 → s.fg F.TDM_CTL_RING_DIR p = 0 →
      let d := (s.fg F.TDM_RING_IDX_PI p + 65536 - v.toNat % 65536) % 65536
      Completes (.tdmRingIdxWrite p v) s (fun t => t.ap = s.ap ∧ t.fg F.TDM_RING_IDX_PI p = s.fg F.TDM_RING_IDX_PI p
        ∧ (d ≤ 2 ^ s.fg F.TDM_RING_CFG_SIZE p → t.fg F.TDM_RING_IDX_CI p = v.toNat % 65536)
        ∧ (2 ^ s.fg F.TDM_RING_CFG_SIZE p < d → t.fg F.TDM_RING_IDX_CI p = s.fg F.TDM_RING_IDX_CI p
            ∧ t.fg F.TDM_STAT_IDX_ERR p = 1)))
  ∧ ∀ p s, p < 8 → s.micEn p 0 = true → s.micStuck p 0 = false → Completes (.pdmStuck p 0 true) s (fun t =>
      t.micStuck p 0 = true ∧ t.micStuck p 1 = s.micStuck p 1 ∧ ∃ x, t.hif.lastEvt = some x ∧ x.typ = Evt.PDM_STUCK ∧ x.source = p))

/-- R238, R251, R254, R256, R258, R261: the network's commands: port settings, PTP data, the Forwarding Table's inactive bank
and its commit, streams made and taken away, management frames sent and read. -/
def Obligations.NetworkCommandsSetPortsStreamsAndTables : Prop :=
  TakenThen .netSet Code.NET_SET chkNetSet (fun e s t => Rechecked chkNetSet e s t (fun v => ∀ i k, i < 11 → k < 32 →
      (accMask (netReg e.cmd.a i).1 (· == .rw)).testBit k = true →
        (v.rr (netReg e.cmd.a i).1 (netReg e.cmd.a i).2).getLsbD k = (leAt e.cmd.buf (4 * i) 4).testBit k))
  ∧ TakenThen .netPtpDs Code.NET_PTP_DS chkNetPtpDs (fun e s t => ∃ v, Ends e Sts.OK [] v t ∧ v.regs = s.regs
      ∧ (v.np e.cmd.a).ptp.ds = e.cmd.buf.take 20 ∧ ∀ p, p ≠ e.cmd.a → v.np p = s.np p)
  ∧ TakenThen .fwdWrite Code.FWD_WRITE chkFwdWrite (fun e s t => Rechecked chkFwdWrite e s t (fun v => v.regs = s.regs ∧ ∀ j,
      mget 0 v.net.fwd j = if 4096 * (1 - s.fwdAct) + e.cmd.a ≤ j ∧ j < 4096 * (1 - s.fwdAct) + e.cmd.a + e.cmd.b
        then leAt e.cmd.buf (16 * (j - (4096 * (1 - s.fwdAct) + e.cmd.a))) 16 else mget 0 s.net.fwd j))
  ∧ TakenThen .fwdRead Code.FWD_READ chkFwdRead (fun e s t => ∃ v, Ends e Sts.OK [] v t
      ∧ HostGets e.cmd.addr (readEntries 0 16 (4096 * e.cmd.c + e.cmd.a) e.cmd.b s.net.fwd) s v)
  ∧ TakenThen .fwdCommit Code.FWD_COMMIT chkFwdCommit (fun e s t => ∃ v, Ends e Sts.OK [] v t ∧ v.fwdAct = 1 - s.fwdAct
      ∧ v.net.lock = 2 ∧ v.net.fwd = s.net.fwd ∧ RegsKept [.NET_FWD_STAT] s v)
  ∧ TakenThen .netStreamRx Code.NET_STREAM_RX chkNetStreamRx (fun e s t => Rechecked chkNetStreamRx e s t (fun v =>
      v.rxs e.cmd.a = { Stream.none with img := e.cmd.buf.take 32 } ∧ (∀ n, n ≠ e.cmd.a → v.rxs n = s.rxs n) ∧ v.regs = s.regs))
  ∧ TakenThen .netStreamTx Code.NET_STREAM_TX chkNetStreamTx (fun e s t => Rechecked chkNetStreamTx e s t (fun v =>
      v.txs e.cmd.a = { Stream.none with img := e.cmd.buf.take 64 } ∧ (∀ n, n ≠ e.cmd.a → v.txs n = s.txs n) ∧ v.regs = s.regs))
  ∧ TakenThen .netStreamDel Code.NET_STREAM_DEL chkNetStreamDel (fun e s t => ∃ v, Ends e Sts.OK [] v t ∧ v.regs = s.regs
      ∧ (e.cmd.a.testBit 8 = true → v.txs (e.cmd.a % 256) = Stream.none ∧ v.net.rx = s.net.rx)
      ∧ (e.cmd.a.testBit 8 = false → v.rxs (e.cmd.a % 256) = Stream.none ∧ v.net.tx = s.net.tx))
  ∧ TakenThen .netStreamRead Code.NET_STREAM_READ chkNetStreamRead (fun e s t => e.cmd.b = 1 → e.cmd.c = 0 → ∃ v, Ends e Sts.OK [] v t
      ∧ v.net = s.net ∧ v.regs = s.regs ∧ memRead v.hif.hostMem (e.cmd.addr + 16) 16 = leBytes 4 (s.rxs e.cmd.a).pkts
        ++ leBytes 4 (s.rxs e.cmd.a).late ++ leBytes 4 (s.rxs e.cmd.a).dups ++ leBytes 4 (s.rxs e.cmd.a).lost)
  ∧ TakenThen .netFrameTx Code.NET_FRAME_TX chkNetFrameTx (fun e s t => ∀ p, p < 8 → e.cmd.a = 2 ^ p → s.net.waitTx = [] →
      (s.np p).mgmtAt ≤ s.time.up → s.level ≠ 4 → s.netUp p = true → s.txFits p 0 ((e.cmd.buf.take e.cmd.len).length + 4) = true →
        (t.np p).queue 0 = (s.np p).queue 0 ++ [⟨e.cmd.buf.take e.cmd.len, none, 3, some e, false⟩] ∧ t.net.waitTx = []
          ∧ (t.np p).mgmtAt = s.time.up + 500000 ∧ ∀ q, q ≠ p → t.np q = s.np q)
  ∧ TakenThen .netFrameRead Code.NET_FRAME_READ chkNetFrameRead (fun e s t => ∀ f l, s.net.mgmt = f :: l →
      f.bytes.length ≤ e.cmd.len → ∃ v, Ends e Sts.OK [f.port, f.bytes.length, f.mts] v t ∧ v.net.mgmt = l
        ∧ RegsKept [.NET_MGMT_STAT] s v ∧ ∀ x, x < f.bytes.length → memByte v.hif.hostMem (e.cmd.addr + x) = f.bytes.getD x 0)

/-- R239, R240, R243, R244, R247, R250, R261: links go up and down with their module and condition; a received frame is counted,
queued on the ports its entry names or held for the host; a PAUSE holds the transmitter until it expires; the selected frame
leaves. -/
def Obligations.NetworkPortsReceiveForwardAndSend : Prop :=
  let good (s : State) (p : Nat) (f : NetRx) := s.netUp p = true ∧ 64 ≤ f.bytes.length + 4 ∧ f.fcsOk = true ∧ f.codeOk = true
    ∧ f.bytes.length + 4 ≤ s.fg F.NET_CTL_MAX_FRAME p + (if (ethHdr f.bytes).tagged then 4 else 0)
    ∧ s.rxStore p (s.rxClass p f.bytes) (f.bytes.length + 4) f.left7 f.left ≠ none ∧ eccDecide (s.effSyn ⟨6, 1, p, f.word⟩ f.syn) = 0
  (∀ p r s, p < 8 → s.fb F.NET_CTL_EN p = true → s.fb F.NET_STAT_MOD_ABS p = false → s.netUp p = false →
      Completes (.networkLinkUp p r) s (fun t => t.netUp p = true ∧ t.fg F.NET_STAT_LOS p = 0 ∧ t.fg F.NET_STAT_LOCAL_FAULT p = 0
        ∧ t.fg F.NET_STAT_PAUSE_RES p = (if s.fg F.NET_CTL_MODE p = 2 ∧ s.fb F.NET_CTL_AN_EN p = true
          then pauseRes (s.fb F.NET_CTL_PAUSE_OBEY p) r else 0)
        ∧ (t.np p).txFree = s.time.up ∧ (t.np p).q = (s.np p).q ∧ RegsKept [.NET_STAT] s t))
  ∧ (∀ p l r o s, p < 8 → s.netUp p = true → Completes (.networkLinkDown p l r o) s (fun t => t.netUp p = false ∧ (t.np p).q = []
      ∧ t.fg F.NET_STAT_LOS p = b2n o ∧ ∃ d ∈ t.detq, d.fam = 0x40 ∧ d.inst = p))
  ∧ (∀ p a s, p < 8 → Completes (.modulePresenceChange p a) s (fun t => t.fg F.NET_STAT_MOD_ABS p = b2n a
      ∧ (t.np p).txDis = (!s.fb F.NET_CTL_EN p || a) ∧ (a = true → t.netUp p = false)))
  ∧ (∀ p f s, p < 8 → s.netUp p = true → f.bytes.length + 4 < 64 → Completes (.frameReceive p f) s (fun t =>
      t = { s.elapse f.dt with net := t.net } ∧ t.net = { s.net with cnt := t.net.cnt }
        ∧ mget 0 t.net.cnt (40 * p + 6) = min (2 ^ 64 - 1) (mget 0 s.net.cnt (40 * p + 6) + 1)))
  ∧ (∀ p f s, p < 8 → good s p f → (ethHdr f.bytes).etype ∉ [0x0800, 0x8808, 0x88B5, 0x88F7] →
      (s.fwdLookup p f.bytes = none → frameDa f.bytes = beAt (s.netMac p) 0 6 → s.net.mgmt.length < 256 →
        Completes (.frameReceive p f) s (fun t =>
          t.net.mgmt = s.net.mgmt ++ [⟨p, f.bytes, mtsOf ((s.elapse f.dt).now - f.sfd)⟩] ∧ ∀ q, (t.np q).q = (s.np q).q))
      ∧ ∀ e q, s.fwdLookup p f.bytes = some e → bitList 8 (fwdPorts e) = [q] → q ≠ p → s.netUp q = true → fwdLocal e = false →
        s.txFits q (s.fwdClass p e f.bytes) (f.bytes.length + 4) = true → Completes (.frameReceive p f) s (fun t =>
          (t.np q).queue (s.fwdClass p e f.bytes) = (s.np q).queue (s.fwdClass p e f.bytes)
            ++ [⟨f.bytes, some (p, (s.elapse f.dt).now - f.sfd), 0, none, false⟩] ∧ t.net.mgmt = s.net.mgmt))
  ∧ (∀ p f s, p < 8 → good s p f → (ethHdr f.bytes).etype = 0x8808 → beAt f.bytes (ethHdr f.bytes).off 2 = 1 →
      beAt f.bytes ((ethHdr f.bytes).off + 2) 2 ≠ 0 → s.fb F.NET_CTL_PAUSE_OBEY p = true → Completes (.pause p f) s (fun t =>
        t.fb F.NET_STAT_PAUSED p = true ∧ (t.np p).pauseEnd = some (max (s.elapse f.dt).time.up (s.np p).txFree
          + s.bitsNs p (512 * beAt f.bytes ((ethHdr f.bytes).off + 2) 2))))
  ∧ (∀ p s d, p < 8 → (s.np p).pauseEnd = some d → d ≤ s.time.up → Completes (.pauseExpiry p) s (fun t =>
      t.fb F.NET_STAT_PAUSED p = false ∧ (t.np p).pauseEnd = none ∧ (t.np p).q = (s.np p).q))
  ∧ ∀ p dt w y s k f l, p < 8 → s.netUp p = true → (s.np p).txFree ≤ (s.elapse dt).time.up → (s.np p).pauseEnd = none →
      ((s.elapse dt).creditRun p).pickQueue p = some k → (s.np p).queue k = f :: l → f.kind = 3 → f.entry = none →
      60 ≤ f.bytes.length → eccDecide (s.effSyn ⟨6, 1, p, w⟩ y) = 0 → Completes (.frameTransmit p ⟨dt, w, y⟩) s (fun t => (t.np p).queue k = l
        ∧ (t.np p).txFree = (s.elapse dt).time.up + s.bitsNs p (8 * (f.bytes.length + 24))
        ∧ (t.np p).sent = f.bytes ++ fcsOf f.bytes f.bad ∧ (t.np p).sentAt = (s.elapse dt).mts
        ∧ mget 0 t.net.cnt (40 * p + 23) = min (2 ^ 64 - 1) (mget 0 s.net.cnt (40 * p + 23) + 1))

/-- R36, R253, R254: a MASTER port sends Sync and Announce and a peer-to-peer port Pdelay_Req once their interval has passed,
and an end-to-end SLAVE that follows a master Delay_Req, each with the next sequence number through queue 7; the loss of the
master's Announce is reported and ends the slot. -/
def Obligations.PtpPortsSendTheirMessages : Prop :=
  let room (s : State) (p : Nat) := s.netUp p = true ∧ s.level ≠ 4 ∧ (s.np p).queued [7] + 200 ≤ 65536
  let sent (s t : State) (p : Nat) := ∃ f : NetTx, (t.np p).queue 7 = (s.np p).queue 7 ++ [f] ∧ f.kind = 1 ∧ f.entry = none
  (∀ p s, p < 8 → s.ptpRole p = 2 → s.fg F.NET_PTP_CFG_TRANSPORT p = 0 → (s.np p).ptp.syncDue ≤ s.time.up → room s p →
      Completes (.ptpSyncSend p) s (fun t =>
      sent s t p ∧ (t.np p).ptp = { (s.np p).ptp with
          seq := ((s.np p).ptp.seq + 1) % 65536, syncDue := s.time.up + logNs (s.fgI F.NET_PTP_CFG_LOG_SYNC p) } ∧ t.regs = s.regs))
  ∧ (∀ p s, p < 8 → s.ptpRole p = 2 → s.fg F.NET_PTP_CFG_TRANSPORT p = 0 → (s.np p).ptp.ds.length ≤ 20 →
      (s.np p).ptp.annDue ≤ s.time.up → room s p →
      Completes (.ptpAnnounceSend p) s (fun t => sent s t p
        ∧ (t.np p).ptp = { (s.np p).ptp with
          annSeq := ((s.np p).ptp.annSeq + 1) % 65536, annDue := s.time.up + logNs (s.fgI F.NET_PTP_CFG_LOG_ANNOUNCE p) } ∧ t.regs = s.regs))
  ∧ (∀ p s, p < 8 → s.ptpRole p ≠ 0 → s.ptpP2p p = true → s.fg F.NET_PTP_CFG_TRANSPORT p = 0 → (s.np p).ptp.pdDue ≤ s.time.up → room s p →
      Completes (.pdelayReqSend p) s (fun t => sent s t p ∧ (t.np p).ptp = { (s.np p).ptp with
        pdSeq := ((s.np p).ptp.pdSeq + 1) % 65536, pdReq := none, pdReqU := none, pdResp := none, pdRespU := none
        pdDue := s.time.up + logNs (s.fgI F.NET_PTP_CFG_LOG_PDELAY p) } ∧ t.regs = s.regs))
  ∧ (∀ p s, p < 8 → s.ptpRole p = 1 → s.ptpP2p p = false → (s.np p).ptp.master ≠ [] → (s.np p).ptp.udp = false → room s p →
      Completes (.delayReqSend p) s (fun t => sent s t p
        ∧ (t.np p).ptp = { (s.np p).ptp with reqSeq := ((s.np p).ptp.reqSeq + 1) % 65536, req := none } ∧ t.regs = s.regs))
  ∧ ∀ p s, p < 8 → s.ptpRole p = 1 → (s.np p).ptp.master ≠ [] → (s.np p).ptp.annAt + s.fg F.NET_PTP_CFG_ANN_TIMEOUT p
      * logNs (s.fgI F.NET_PTP_CFG_LOG_ANNOUNCE p) ≤ s.time.up → Completes (.announceTimeout p) s (fun t =>
        (t.np p).ptp.master = [] ∧ (t.slot p).valid = false ∧ ∃ d ∈ t.detq, d.fam = 0x41 ∧ d.inst = p)

/-- R270, R271, R272, R275, R278, R279, R280, R284, R285: a doorbell moves HOST_IDX within the ring or sets IDX_ERR; the command
ring whose turn it is has its next descriptor taken, returned with OWN = 0 and its command given to the block; a read error
halts the ring, a descriptor not handed over sets OWN_MISS; audio descriptors are taken and returned; a coalesced message leaves
after 50 µs. -/
def Obligations.HostRingsTakeDescriptorsAndSignal : Prop :=
  let dev (s : State) (r : Nat) := s.fg F.HIF_RING_IDX_DEV_IDX r
  let host (s : State) (r : Nat) := s.fg F.HIF_RING_IDX_HOST_IDX r
  let fits (s : State) (r v : Nat) := v < 65536 ∧ (v + 65536 - dev s r) % 65536 < 2 ^ s.fg F.HIF_RING_CFG_SIZE r
    ∧ (host s r + 65536 - dev s r) % 65536 ≤ (v + 65536 - dev s r) % 65536 ∧ s.ringEn r = true
  let serves (s : State) (r : Nat) (d : Desc) := s.noCmds = false ∧ r < 32 ∧ s.ringRuns r = true ∧ mget 0 s.hif.retry r = 0
    ∧ s.devOwned r ≠ 0 ∧ (∀ x ∈ s.hif.taken, x.ring ≠ r)
    ∧ ((s.ringTy r = 0 ∧ (s.elapse d.dt).nextRing = some r ∧ s.fb F.DBG_RUNCTL_PAIR0_HALT 0 = false) ∨ s.ringTy r = 4)
  (∀ r v dt s, r < 32 → s.hifRun = true →
      (fits s r v → Completes (.doorbell (256 * r) ⟨v, 4⟩ dt) s (fun t => host t r = v ∧ dev t r = dev s r ∧ mget 0 t.hif.retry r = 0
        ∧ RegsKept [.HIF_RING_IDX] s t ∧ ∀ q, q < 32 → q ≠ r → host t q = host s q ∧ dev t q = dev s q))
      ∧ (∀ n, n ≠ 4 → exec (.doorbell (256 * r) ⟨v, n⟩ dt) s = .next (s.elapse dt))
      ∧ (¬ fits s r v → Completes (.doorbell (256 * r) ⟨v, 4⟩ dt) s (fun t => t.fb F.HIF_RING_STAT_IDX_ERR r = true ∧ host t r = host s r)))
  ∧ (∀ r d s, serves s r d → d.readOk = false → Completes (.descriptorTake r d) s (fun t => t.fg F.HIF_RING_STAT_STATE r = 2
      ∧ dev t r = dev s r))
  ∧ (∀ r d s, serves s r d → d.readOk = true → descOwn d = false → Completes (.descriptorTake r d) s (fun t =>
      t.fb F.HIF_RING_STAT_OWN_MISS r = true ∧ mget 0 t.hif.retry r = 1 ∧ dev t r = dev s r))
  ∧ (∀ r d s, serves s r d → s.ringTy r = 0 → d.readOk = true → descOwn d = true → d.bytes.length = 64 →
      Completes (.descriptorTake r d) s (fun t => ∃ (v : State) (db : Option Nat),
        t = { v.give (leAt d.bytes 4 2) (cmdOf r d.bytes d.bufOk d.buf db d.ok) with
          hif := { (v.give (leAt d.bytes 4 2) (cmdOf r d.bytes d.bufOk d.buf db d.ok)).hif with resv := t.hif.resv } }
        ∧ v.now = (s.elapse d.dt).now ∧ dev v r = (dev s r + 1) % 65536 ∧ v.hif.cmdSeq = s.hif.cmdSeq
        ∧ memRead v.hif.hostMem (s.descAddr r (dev s r)) 64 = d.bytes.take 6 ++ leBytes 2 (leAt d.bytes 6 2 % 2 ^ 15) ++ d.bytes.drop 8
        ∧ mget 0 v.hif.resv (s.fg F.HIF_RING_CFG_PAIR r) = mget 0 s.hif.resv (s.fg F.HIF_RING_CFG_PAIR r) + 1
        ∧ RegsKept [.HIF_RING_IDX] s v))
  ∧ (∀ r d s, serves s r d → s.ringTy r = 4 → d.readOk = true → descOwn d = true → s.framesOk r (leAt d.bytes 4 2) = true →
      Completes (.descriptorTake r d) s (fun t => ∃ x, t.hif.taken = s.hif.taken ++ [x] ∧ x.ring = r ∧ x.index = dev s r
        ∧ x.frames = leAt d.bytes 4 2 ∧ x.addr = leAt d.bytes 8 8 ∧ x.filled = 0 ∧ t.regs = s.regs))
  ∧ (∀ r s d, r < 32 → s.hif.taken.find? (fun x => x.ring == r) = some d → s.ringTy r = 3 → s.hinDone d = true →
      Completes (.hinReturn r) s (fun t => dev t r = (dev s r + 1) % 65536
        ∧ t.hif.taken = s.hif.taken.filter (fun x => !(x.ring == r && x.index == d.index))
        ∧ memRead t.hif.hostMem (s.descAddr r (dev s r)) 64 = audBytes d ∧ RegsKept [.HIF_RING_IDX, .HIF_RING_STAT] s t))
  ∧ ∀ r s, r < 32 → (mget (0, 0) s.hif.coal r).1 ≠ 0 → (mget (0, 0) s.hif.coal r).2 + 50000 ≤ s.time.up →
      Completes (.interruptCoalesceTimeout r) s (fun t => mget (0, 0) t.hif.coal r = (0, 0) ∧ t.regs = s.regs
        ∧ let k := s.fg F.HIF_RING_CFG_VECTOR r
          if (mget (1 : Word) s.hif.msix (4 * k + 3)).toNat % 2 = 1 then mget 0 t.hif.pba k = 1 ∧ t.hif.msiSent = s.hif.msiSent
          else mget 0 t.hif.msiSent k = mget 0 s.hif.msiSent k + 1 ∧ t.hif.pba = s.hif.pba)

/-- R9, R91, R114, R265, R266, R267, R269, R422: a write of a setup-class register is staged in SETUP and ignored and flagged in
RUN; GO checks the rings and places one commit, at which the staged words are in force and the block enters RUN; an access of
another width than 32 bits is ignored, but for a pair of MSI-X words; Windlass writes registers at once, and ARM, and raises the
software lines of a cluster. -/
def Obligations.RegisterWritesStageApplyOrAreIgnored : Prop :=
  let plain (r : RegId) := r ∈ [RegId.MT_SLEW_MAX, .WH_BW, .WH_LOCK, .WH_TIMERS, .WH_QL_MAP, .TW_SYNC, .RW_CTL]
  let full (r : RegId) (w : Nat) := okMask r w = accMask r (fun a => a == .rw || a == .rws)
  let awake (s : State) (off : Nat) := s.dead = false ∧ s.fwMode ≠ 3 ∧ off % 4 = 0
  (∀ off v dt s r i, awake s off → msixWord off = none → regAt off = some (r, i) → setupClass r = true → s.hifRun = true →
      secRcv r = false → dbgReg r = false → r ≠ .SEC_REMAP → accMask r (· == .w1c) &&& (v % 2 ^ 32) = 0 →
      Completes (.registerWrite 0 off ⟨v, 4⟩ dt) s (fun t => t.fb F.HIF_STAT_IGNORED 0 = true
        ∧ t.rr .HIF_IGN_ADDR 0 = BitVec.ofNat 32 off ∧ t.hif.staged = s.hif.staged
        ∧ RegsKept [.HIF_STAT, .HIF_IGN_ADDR, .HIF_RING_IDX] s t))
  ∧ (∀ off v dt s r i, awake s off → msixWord off = none → regAt off = some (r, i) → plain r → s.hifRun = false → v < 2 ^ 32 → full r v →
      Completes (.registerWrite 0 off ⟨v, 4⟩ dt) s (fun t => t.regs = s.regs
        ∧ t.stagedWord r i = maskPut (s.stagedWord r i) (BitVec.ofNat 32 v) (okMask r v)))
  ∧ (∀ off v dt s k, awake s off → msixWord off = some k → k % 4 ≠ 3 → Completes (.registerWrite 0 off ⟨v, 4⟩ dt) s (fun t =>
      mget (1 : Word) t.hif.msix k = BitVec.ofNat 32 (v % 2 ^ 32) ∧ t.regs = s.regs))
  ∧ (∀ off v dt s r i, awake s off → regAt off = some (r, i) → plain r → v < 2 ^ 32 → full r v →
      Completes (.registerWrite 1 off ⟨v, 4⟩ dt) s (fun t => RegsKept [r] s t ∧ t.hif.staged = s.hif.staged
        ∧ ∀ k, k < 32 → (accMask r (· == .rw)).testBit k = true → (t.rr r i).getLsbD k = v.testBit k))
  ∧ (∀ off v dt s n, s.dead = false → n ≠ 4 → (n ≠ 8 ∨ msixWord off = none) →
      exec (.registerWrite 0 off ⟨v, n⟩ dt) s = .next (s.elapse dt))
  ∧ (∀ off v dt s k, s.dead = false → s.fwMode ≠ 3 → off % 8 = 0 → msixWord off = some k → k % 4 = 0 →
      Completes (.registerWrite 0 off ⟨v, 8⟩ dt) s (fun t => t.regs = s.regs ∧ mget (1 : Word) t.hif.msix k = BitVec.ofNat 32 (v % 2 ^ 32)
        ∧ mget (1 : Word) t.hif.msix (k + 1) = BitVec.ofNat 32 (v / 2 ^ 32)))
  ∧ (∀ c l v dt s, s.dead = false → c < 24 → 128 ≤ l → l < 256 →
      exec (.registerWrite 2 (256 * c + l) v dt) s = .next ((s.elapse dt).pulse c l))
  ∧ (∀ off set dt s r i, regAt off = some (r, i) → armRegs.contains r = true → Completes (.armWrite off set dt) s (fun t =>
      t.arm r i = set ∧ RegsKept [r] s t))
  ∧ (∀ s, s.noCmds = false → s.hifRun = false → s.hif.goArmed = false →
      (s.goCause ≠ 0 → Completes .go s (fun t => t.fg F.HIF_STAT_GO_ERR 0 = s.goCause ∧ t.dueNext = s.dueNext
        ∧ t.hif = s.hif ∧ RegsKept [.HIF_STAT] s t))
      ∧ (s.goCause = 0 → Completes .go s (fun t => t.fg F.HIF_STAT_GO_ERR 0 = 0 ∧ t.hif.goArmed = true
        ∧ ∃ e, t.dueNext = s.dueNext ++ [e] ∧ e.code = Code.GO ∧ e.place = s.time.next)))
  ∧ ∀ e s, e.code = Code.GO → s.hif.goArmed = true → (applyEntry e s).hifRun = true ∧ (applyEntry e s).hif.staged = []
      ∧ (applyEntry e s).fg F.HIF_CFG_GEN_GEN 0
          = (if s.hif.staged = [] then s.fg F.HIF_CFG_GEN_GEN 0 else nextGen (s.fg F.HIF_CFG_GEN_GEN 0))
      ∧ ∀ r i w, i < 2048 → s.hif.staged = [(regKey r i, w)] → plain r → full r w.toNat →
        ∀ k, k < 32 → (accMask r (· == .rw)).testBit k = true → ((applyEntry e s).rr r i).getLsbD k = w.getLsbD k

/-- R262, R264, R317, R335, R408, R417, R418: an access of another width, or to no register, reads 0; a live read clears the RCL
fields of its register and marks its census set; a read of the low half of a counter latches the high half; a read of a log
takes its oldest entry; a read of a performance counter latches the MTS, and a counter that overflows wraps to 0 and sets its
OVF bit. -/
def Obligations.ReadsThatChangeState : Prop :=
  let awake (s : State) (off : Nat) := s.dead = false ∧ s.fwMode ≠ 3 ∧ off % 4 = 0
  (∀ off s r i, awake s off → regAt off = some (r, i) → accMask r (· == .rcl) ≠ 0 → i < 2048 →
      r ∉ [RegId.NET_CNT_LO, .WH_ABSORB_LO, .DPR_LOG0, .SMP_LOG0] → msixAt off = false → Completes (.rclRead ⟨0, 0, off, 4⟩) s (fun t =>
        t.hif.rdata = s.hostWord r i ∧
        t.rr r i = maskPut (s.rr r i) 0 (accMask r (· == .rcl)) ∧ RegsKept [r, .CEN_STAT] s t
        ∧ (∀ j, j < 2048 → j ≠ i → t.rr r j = s.rr r j) ∧ ∀ k, setOf r = some k → (t.fg F.CEN_STAT_LIVE 0).testBit k = true))
  ∧ (∀ who bar off n s, s.dead = false → (bar = 0 → msixAt off = false) → bar ≠ 0 ∨ n ≠ 4 ∨ off % 4 ≠ 0 ∨ regAt off = none →
      exec (.rclRead ⟨who, bar, off, n⟩) s = .next (s.gave 0))
  ∧ (∀ off s k, awake s off → regAt off = some (.NET_CNT_LO, k) → mget 0 s.net.cnt k < 2 ^ 64 → Completes (.latchingLoRead off) s (fun t =>
      (t.rr .NET_CNT_LO k).toNat + 2 ^ 32 * (t.rr .NET_CNT_HI k).toNat = mget 0 s.net.cnt k ∧ mget 0 t.net.cnt k = 0
        ∧ (t.fg F.CEN_STAT_LIVE 0).testBit 0 = true ∧ RegsKept [.NET_CNT_LO, .NET_CNT_HI, .CEN_STAT] s t))
  ∧ (∀ off s, awake s off → regAt off = some (.WH_ABSORB_LO, 0) → Completes (.latchingLoRead off) s (fun t =>
      (t.rr .WH_ABSORB_LO 0).toNat + 2 ^ 32 * (t.rr .WH_ABSORB_HI 0).toNat = wrap 64 (s.wh.absorb / 2 ^ 32)
        ∧ t.wh = s.wh ∧ RegsKept [.WH_ABSORB_LO, .WH_ABSORB_HI] s t))
  ∧ (∀ off s i e l, awake s off → i < 8 → regAt off = some (.DPR_LOG0, i) → mget [] s.integ.logs i = e :: l → l.length < 32 →
      Completes (.logEntryRead off) s (fun t => t.rr .DPR_LOG0 i = BitVec.ofNat 32 e.w0 ∧ t.rr .DPR_LOG1 i = BitVec.ofNat 32 e.w1
        ∧ t.rr .DPR_LOG2 i = BitVec.ofNat 32 e.mts ∧ mget [] t.integ.logs i = l ∧ t.fg F.DPR_LOGSTAT_COUNT i = l.length))
  ∧ (∀ off s e l, awake s off → regAt off = some (.SMP_LOG0, 0) → s.smp.log = e :: l → l.length < 64 →
      Completes (.logEntryRead off) s (fun t => t.rr .SMP_LOG0 0 = BitVec.ofNat 32 e.1 ∧ t.rr .SMP_LOG1 0 = BitVec.ofNat 32 e.2.1
        ∧ t.rr .SMP_LOG2 0 = BitVec.ofNat 32 e.2.2 ∧ t.smp.log = l ∧ t.fg F.SMP_LOGSTAT_COUNT 0 = l.length))
  ∧ (∀ n j dt s, n < 192 → j < 4 → Completes (.pcCntRead false n j dt) s (fun t => t.rr .PC_MTS n = BitVec.ofNat 32 (s.elapse dt).mts
      ∧ t.hif.rdata = (s.rr .PC_CNT (4 * n + j)).toNat
      ∧ RegsKept [.PC_MTS] s t))
  ∧ (∀ n j dt s, n < 6 → j < 4 → openAgg (s.fg F.PC_AGG_SEL_EVENT (4 * n + j)) = false → Completes (.pcCntRead true n j dt) s (fun t =>
      t.rr .PC_AGG_MTS n = BitVec.ofNat 32 (s.elapse dt).mts ∧ t.hif.rdata = (s.rr .PC_AGG_CNT (4 * n + j)).toNat
        ∧ RegsKept [.PC_AGG_MTS] s t))
  ∧ (∀ n j s, n < 192 → j < 4 → s.fg F.PC_SEL_EVENT (4 * n + j) ≠ 0 → s.rr .PC_CNT (4 * n + j) = 0xFFFFFFFF →
      Completes (.performanceCounterOverflow false n j) s (fun t =>
      t.rr .PC_CNT (4 * n + j) = 0 ∧ (t.fg F.PC_OVF_OVF n).testBit j = true ∧ RegsKept [.PC_CNT, .PC_OVF] s t))
  ∧ ∀ n j s, n < 6 → j < 4 → s.fg F.PC_AGG_SEL_EVENT (4 * n + j) ≠ 0 → s.rr .PC_AGG_CNT (4 * n + j) = 0xFFFFFFFF →
      Completes (.performanceCounterOverflow true n j) s (fun t =>
      t.rr .PC_AGG_CNT (4 * n + j) = 0 ∧ (t.fg F.PC_AGG_OVF_OVF n).testBit j = true ∧ RegsKept [.PC_AGG_CNT, .PC_AGG_OVF] s t)

/-- R286, R290, R411, R412, R413: REG_SET writes its registers whole or not at all; CFG_JOURNAL_READ gives the journal from a
generation on, ascending; a census copies and clears the counters of its sets at its instant, and its copy ends with the header
and a completion. -/
def Obligations.HostCommandsReadAndSetBlocks : Prop :=
  TakenThen .regSet Code.REG_SET chkRegSet (fun e s t => 0 < e.cmd.len → e.cmd.len ≤ 512 → e.cmd.len % 8 = 0 →
    Rechecked chkRegSet e s t (fun v => ∀ r i, regAt (leAt e.cmd.buf 0 4) = some (r, i) → e.cmd.len = 8 →
      r ∈ [RegId.MT_SLEW_MAX, .WH_BW, .WH_LOCK, .WH_TIMERS, .WH_QL_MAP, .TW_SYNC, .RW_CTL] → RegsKept [r] s v
        ∧ ∀ k, k < 32 → (accMask r (· == .rw)).testBit k = true → (v.rr r i).getLsbD k = (leAt e.cmd.buf 4 4).testBit k))
  ∧ TakenThen .cfgJournalRead Code.CFG_JOURNAL_READ chkCfgJournalRead (fun e s t =>
      let l := (s.jFrom e.cmd.a).take (min e.cmd.b (e.cmd.len / 32))
      ∃ v, Ends e Sts.OK [l.length] v t ∧ HostGets e.cmd.addr (l.flatMap jBytes) s v)
  ∧ (∀ (a : Nat) (s : State), (∀ x, x ∈ s.jFrom a ↔ x ∈ s.hif.journal ∧ (x.gen + 2 ^ 32 - a) % 2 ^ 32 < 2 ^ 31)
      ∧ (s.jFrom a).Pairwise (fun x y => (x.gen + 2 ^ 32 - a) % 2 ^ 32 ≤ (y.gen + 2 ^ 32 - a) % 2 ^ 32))
  ∧ (∀ c s, Accepts Code.CENSUS_AT chkCensusAt c s → Completes (.censusAt c) s (fun t =>
      PlacedNext Code.CENSUS_AT c s t ∧ t.cen = { s.cen with count := s.cen.count + 1 } ∧ t.fg F.CEN_STAT_STATE 0 = 1))
  ∧ (∀ e s, e.code = Code.CENSUS_AT → ∃ c, (applyEntry e s).cen.copy = some c ∧ c.entry = e ∧ c.mts = s.mts ∧ c.seq = s.cen.count
      ∧ c.image = (bitList 5 (e.cmd.a % 32)).flatMap (fun k => s.setImage k) ∧ (applyEntry e s).fg F.CEN_STAT_STATE 0 = 2
      ∧ (e.cmd.a.testBit 0 = true → (applyEntry e s).net.cnt = [])
      ∧ ∀ k, k < 5 → e.cmd.a.testBit k = true → ∀ x ∈ setRegs k, (applyEntry e s).rr x.1 x.2
          = maskPut (s.rr x.1 x.2) 0 (accMask x.1 (· == .rcl)))
  ∧ (∀ dt s e, s.sched = [e] → e.code = Code.CENSUS_AT → e.held = false → e.place ≤ (s.elapse dt).now →
      exec (.censusSnapshot dt) s = .next (applyCensusAt e { s.elapse dt with sched := [] }))
  ∧ (∀ st s c, s.cen.copy = some c → s.cen.wait = [] → st ≠ Sts.PMP_ECC → st ≠ Sts.PMP_BUS_ERROR →
      Completes (.censusCopyComplete st) s (fun t => t.cen.copy = none ∧ t.rr .CEN_SEQ 0 = BitVec.ofNat 32 c.seq
        ∧ t.rr .CEN_MTS 0 = BitVec.ofNat 32 c.mts ∧ t.cen.count = s.cen.count))
  ∧ (∀ s c, s.cen.copy = some c → s.cen.wait = [] → Completes (.censusCopyComplete Sts.PMP_BUS_ERROR) s (fun t => t.cen.copy = none
      ∧ t.rr .CEN_SEQ 0 = s.rr .CEN_SEQ 0 ∧ t.integ = s.integ))

/-- R294, R296, R297, R303, R305: software controls an enabled channel of a Pump: KICK triggers it, INDEX is written in OFF
only, EN takes it to IDLE or to OFF, ABORT halts it with the residue of its descriptor. -/
def Obligations.PumpChannelsAreControlled : Prop :=
  let mine (n : Nat) := n < 448 ∧ pmpReserved n = false
  let stopped (s t : State) (n st status res : Nat) := t.pmpState n = st ∧ t.fg F.PMP_CH_STAT_STATUS n = status
    ∧ t.fb F.PMP_CH_STAT_INT n = true ∧ t.fb F.PMP_CH_STAT_PENDING n = false ∧ t.rr .PMP_CH_RES n = BitVec.ofNat 32 res
    ∧ t.pch n = { PmpCh.reset with next := (s.pch n).next }
  (∀ n s, mine n → s.pmpState n = 1 → Completes (.kick n) s (fun t => (t.pch n).trig = true ∧ (t.pch n).desc = (s.pch n).desc
      ∧ t.regs = s.regs ∧ ∀ m, m ≠ n → t.pch m = s.pch m))
  ∧ (∀ n s, mine n → s.pmpState n = 2 → Completes (.kick n) s (fun t => t.fb F.PMP_CH_STAT_PENDING n = true ∧ t.pmp = s.pmp
      ∧ RegsKept [.PMP_CH_STAT] s t))
  ∧ (∀ n s, mine n → s.pmpState n ≠ 1 → s.pmpState n ≠ 2 → exec (.kick n) s = .next s)
  ∧ (∀ n v s, mine n → (s.pmpState n = 0 → Completes (.pmpIndexWrite n v) s (fun t => t.fg F.PMP_CH_IDX_INDEX n = v % 65536
      ∧ RegsKept [.PMP_CH_IDX] s t))
      ∧ (s.pmpState n ≠ 0 → Completes (.pmpIndexWrite n v) s (fun t => t.fb F.PMP_CH_STAT_IDX_ERR n = true ∧ RegsKept [.PMP_CH_STAT] s t)))
  ∧ (∀ n s, mine n → s.pmpState n = 0 → s.pmpInReset n = false → Completes (.pmpChannelEnable n true) s (fun t => t.fb F.PMP_CH_CTL_EN n = true
      ∧ t.pmpState n = 1 ∧ t.pmp = s.pmp ∧ RegsKept [.PMP_CH_CTL, .PMP_CH_STAT, .PMP_SUM] s t))
  ∧ (∀ n s, mine n → s.pmpState n = 1 → Completes (.pmpChannelEnable n false) s (fun t => t.fb F.PMP_CH_CTL_EN n = false
      ∧ t.pmpState n = 0 ∧ t.pch n = { PmpCh.reset with next := (s.pch n).next } ∧ RegsKept [.PMP_CH_CTL, .PMP_CH_STAT, .PMP_SUM] s t))
  ∧ (∀ n s, mine n → s.pmpState n = 2 → s.pmpMoved n = false → s.pmpResidue n < 2 ^ 32 → Completes (.pmpChannelEnable n false) s (fun t =>
      t.fb F.PMP_CH_CTL_EN n = false ∧ stopped s t n 0 Sts.DISABLED (s.pmpResidue n)))
  ∧ (∀ n s, mine n → s.pmpState n = 2 → s.pmpMoved n = false → s.pmpResidue n < 2 ^ 32 → Completes (.abort n) s (fun t =>
      stopped s t n 3 Sts.PMP_ABORTED (s.pmpResidue n)))
  ∧ (∀ n s, mine n → s.pmpState n = 1 → Completes (.abort n) s (fun t => stopped s t n 3 Sts.PMP_ABORTED 0))
  ∧ ∀ n s, mine n → s.pmpState n ≠ 1 → s.pmpState n ≠ 2 → exec (.abort n) s = .next s

/-- R295, R296, R298, R299, R301, R304: a triggered channel reads its descriptor; a burst moves or fills the bytes its
descriptor names and leaves all other memory alone; a descriptor that has been moved advances INDEX and is handed back; an error
response is retried RETRY_N times, and then halts the channel and is reported. -/
def Obligations.PumpsMoveWhatDescriptorsName : Prop :=
  let reads (s : State) (n : Nat) (io : PmpIo) (b : List Byte) := io.ok = true ∧
    ((s.fb F.PMP_CH_RING_CFG_HOST n = true ∧ s.fg F.PMP_CH_CTL_CLASS n ≠ 2 ∧ io.host.length = 32 ∧ b = io.host)
      ∨ (s.fb F.PMP_CH_RING_CFG_HOST n = false ∧ io.syns = [] ∧ s.integ.errs = [] ∧ s.pmpDscAddr n < 0x1C0000000 - 31
        ∧ s.pmpRingOk n (s.pmpDscAddr n) = true
        ∧ b = s.dpaRead (s.pmpDscAddr n) 32))
  let bad (s : State) (n : Nat) (b : List Byte) := dscBad (decide (n < 384)) (s.fg F.PMP_CH_CTL_CLASS n == 2) b
  (∀ n io s b, n < 448 → s.pmpState n = 1 → (s.pch n).trig = true → reads s n io b → dscFlag b 15 = false →
      Completes (.pumpTrigger n io) s (fun t => t.pmpState n = 1 ∧ (t.pch n).trig = s.fb F.PMP_CH_STAT_PENDING n
        ∧ t.fb F.PMP_CH_STAT_PENDING n = false ∧ (t.pch n).desc = []))
  ∧ (∀ n io s b, n < 448 → s.pmpState n = 1 → (s.pch n).trig = true → reads s n io b → dscFlag b 15 = true → bad s n b = false →
      Completes (.pumpTrigger n io) s (fun t => t.pmpState n = 2
        ∧ t.pch n = { PmpCh.reset with desc := b, at_ := s.pmpDscAddr n, next := (s.pch n).next }
        ∧ RegsKept [.PMP_CH_STAT, .PMP_SUM] s t))
  ∧ (∀ n io s b, n < 448 → s.pmpState n = 1 → (s.pch n).trig = true → reads s n io b → dscFlag b 15 = true → bad s n b = true →
      Completes (.pumpTrigger n io) s (fun t => t.pmpState n = 3 ∧ t.fg F.PMP_CH_STAT_STATUS n = Sts.PMP_BUS_ERROR))
  ∧ (∀ p h io s, p < 28 → (s.elapse io.dt).pmpNext p io = some h → io.ok = true → io.syns = [] → io.wsyn = 0 → s.integ.errs = [] →
      let n := 16 * p + h
      let x := s.pch n
      let fill := dscFlag x.desc 12
      let src := rowAddr (leAt x.desc 8 8) (leAt x.desc 0x18 4) x.row x.off
      let dst := rowAddr (leAt x.desc 16 8) (leAt x.desc 0x1C 4) x.row x.off
      let b := min (dscLen x.desc - x.off) (min (1024 - dst % 1024) (if fill then 1024 else 1024 - src % 1024))
      dscFlag x.desc 10 = false → dscFlag x.desc 11 = false → x.off < dscLen x.desc → dst + b ≤ 0x1C0000000 → (fill = true ∨ src + b ≤ 0x1C0000000) →
      Completes (.pumpBurstIssue p io) s (fun t =>
        (∀ a, memByte t.integ.mem a = if dst ≤ a ∧ a < dst + b
          then (if fill then BitVec.ofNat 8 (leAt x.desc 8 8 / 2 ^ (8 * (a % 8))) else memByte s.integ.mem (src + (a - dst)))
          else memByte s.integ.mem a)
        ∧ (t.pch n).desc = x.desc ∧ mget 15 t.pmp.last p = h
        ∧ ((t.pch n).row, (t.pch n).off) = (if dscLen x.desc ≤ x.off + b then (x.row + 1, 0) else (x.row, x.off + b))
        ∧ (t.pch n).retry = 0 ∧ RegsKept [.PC_AGG_CNT, .PC_AGG_OVF] s t))
  ∧ (∀ n io s, n < 448 → s.pmpMoved n = true → Completes (.descriptorComplete n io) s (fun t =>
      t.fg F.PMP_CH_IDX_INDEX n = (s.fg F.PMP_CH_IDX_INDEX n + 1) % 65536 ∧ t.fg F.PMP_CH_CNT_DESC n = min (2 ^ 32 - 1)
        (s.fg F.PMP_CH_CNT_DESC n + 1) ∧ (s.fb F.PMP_CH_RING_CFG_HOST n = true →
        memRead t.hif.hostMem (s.pch n).at_ 8 = leBytes 8 (setBit (leAt (s.pch n).desc 0 8) 63 false))))
  ∧ (∀ n io s, n < 448 → s.pmpState n = 2 → (s.pch n).err ≠ 0 → (s.pch n).retry < s.fg F.PMP_CH_CTL_RETRY_N n → (s.pch n).desc ≠ [] →
      Completes (.burstError n io) s (fun t => t.pch n = { s.pch n with err := 0, retry := (s.pch n).retry + 1 } ∧ t.regs = s.regs))
  ∧ ∀ n io s, n < 448 → s.pmpState n = 2 → (s.pch n).err ≠ 0 → s.fg F.PMP_CH_CTL_RETRY_N n ≤ (s.pch n).retry →
      Completes (.burstError n io) s (fun t => t.pmpState n = 3 ∧ t.fb F.PMP_CH_STAT_INT n = true
        ∧ t.fg F.PMP_CH_STAT_STATUS n = (if (s.pch n).err = 1 then Sts.PMP_ECC else Sts.PMP_BUS_ERROR)
        ∧ ((s.pch n).err ≠ 1 → ∃ d ∈ t.detq, d.fam = 0x13 ∧ d.inst = n / 16 ∧ d.subj = n % 16))

/-- R308, R313, R315, R318, R319: a corrected word is written back; a merge entry is written back as one word; a Dipper starts a
pass after its period, reads the words of its coverage, has what it can correct corrected, and counts the pass. -/
def Obligations.IntegrityEventsMendAndReport : Prop :=
  (∀ w s, wkey w ∈ s.integ.wback → Completes (.correctedWriteBack w) s (fun t => mget 0 t.integ.errs (wkey w) = 0
      ∧ wkey w ∉ t.integ.wback ∧ t.integ.mem = s.integ.mem ∧ t.regs = s.regs))
  ∧ (∀ w s, s.hasEntry w = true → Completes (.mergeWriteBack w) s (fun t => t.hasEntry w = false ∧ mget 0 t.integ.errs (wkey w) = 0
      ∧ t.integ.mem = s.integ.mem ∧ t.regs = s.regs))
  ∧ (∀ d s, d < 8 → s.dipEn d = false → Completes (.dipperPassStart d) s (fun t => t.dipState d = 0 ∧ t.integ = s.integ))
  ∧ (∀ d s, d < 8 → s.dipEn d = true → (s.dipState d = 0 ∨ (s.dipState d = 2 ∧ (s.dipOf d).start + s.dipPeriod d ≤ s.time.up)) →
      Completes (.dipperPassStart d) s (fun t => t.dipState d = 1 ∧ (t.dipOf d) = { s.dipOf d with start := s.time.up }
        ∧ (d < 6 → t.fg F.DPR_STAT_LATE d = if s.dipState d = 2 ∧ (s.dipOf d).start + s.dipPeriod d < (s.dipOf d).stop
          then min 255 (s.fg F.DPR_STAT_LATE d + 1) else s.fg F.DPR_STAT_LATE d)))
  ∧ (∀ d w syn s, d < 8 → s.dipState d = 1 → (s.dipCovers d w = false ∨ s.hasEntry w = true ∨ eccDecide (s.effSyn w syn) = 0) →
      Completes (.dipperRead d w syn false) s (fun t => t.integ = s.integ ∧ t.detq = s.detq ∧ RegsKept [.PC_AGG_CNT, .PC_AGG_OVF] s t))
  ∧ (∀ d w syn s, d < 8 → s.dipState d = 1 → s.dipCovers d w = true → s.hasEntry w = false → eccDecide (s.effSyn w syn) = 1 →
      Completes (.dipperRead d w syn false) s (fun t => wkey w ∈ t.integ.wback ∧ mget 0 t.integ.errs (wkey w) = s.effSyn w syn
        ∧ t.integ.mem = s.integ.mem ∧ t.detq = s.detq ++ [⟨0x00, w.log, w.inst, 3, s.effSyn w syn, s.mts, false, false, 0⟩]))
  ∧ ∀ d w syn s, d < 6 → s.dipState d = 1 → eccDecide (s.effSyn w syn) = 0 → Completes (.dipperRead d w syn true) s (fun t =>
      t.dipState d = 2 ∧ t.dipOf d = { s.dipOf d with stop := s.time.up }
        ∧ t.fg F.DPR_STAT_PASSES d = min 65535 (s.fg F.DPR_STAT_PASSES d + 1))

/-- R325, R326, R327, R328, R333: the Sump takes a report at its family's level: every fault is numbered and logged, one at L1
or above raises an interrupt and joins its class's episode, a second one is taken one level higher, a cluster reset that
AUTO_RST forbids holds at L3, and a quenched report or one at L4 has no action. -/
def Obligations.SumpTakesFaultsAtTheirLevel : Prop :=
  let new (s : State) (d : Det) := s.detq = [d] ∧ d.fam < 0x80 ∧ d.dry = false ∧ s.quenched d = false ∧ s.level ≠ 4 ∧ s.famLevel d ≤ 4
  let held (s : State) (d : Det) (l : Nat) := if l = 2 ∧ s.holdBy d = true then 3 else l
  (∀ s d, new s d → (s.smpCls d.cls false).un = [] → Completes (.smpFault none) s (fun t =>
      t.smp.fseq = (s.smp.fseq + 1) % 2 ^ 32 ∧ (∃ a b, t.smp.log.getLast? = some (a, b, d.mts))
        ∧ t.fb F.SMP_CLASS_STAT_ACTIVE d.cls = true ∧ held s d (s.famLevel d) ≤ t.fg F.SMP_CLASS_STAT_LEVEL d.cls
        ∧ t.fg F.SMP_CLASS_STAT_LEVEL d.cls ≤ t.level ∧ t.fb F.SMP_STAT_YIELD 0 = decide (3 ≤ t.level)
        ∧ (s.famLevel d = 0 → t.smp.irqs = s.smp.irqs ∧ (t.smpCls d.cls false).un = [])
        ∧ (s.famLevel d ≠ 0 → t.smp.irqs = s.smp.irqs + 1 ∧ t.fb F.SMP_CLASS_STAT_UNACK d.cls = true
          ∧ t.fg F.SMP_CLASS_STAT_PEND d.cls = held s d (s.famLevel d)
          ∧ (t.smpCls d.cls false).un = [⟨d, held s d (s.famLevel d), s.famLevel d, (s.smp.fseq + 1) % 2 ^ 32, s.time.up⟩]
          ∧ (t.smpCls d.cls false).start = d.mts ∧ (held s d (s.famLevel d) ≠ 4 →
            (t.smpCls d.cls false).timer = some (s.time.up + s.fg F.SMP_CLASS_CTL_TIMER d.cls * 1000)))))
  ∧ (∀ s d, new s d → (s.smpCls d.cls false).un ≠ [] → s.famLevel d = 1 ∨ s.famLevel d = 2 → Completes (.smpFault none) s (fun t =>
      (t.smpCls d.cls false).un = (s.smpCls d.cls false).un
          ++ [⟨d, held s d (s.famLevel d + 1), s.famLevel d, (s.smp.fseq + 1) % 2 ^ 32, s.time.up⟩]
        ∧ (t.smpCls d.cls false).timer = (s.smpCls d.cls false).timer
        ∧ t.fg F.SMP_CLASS_STAT_ESCALATIONS d.cls = min 255 (s.fg F.SMP_CLASS_STAT_ESCALATIONS d.cls + 1)))
  ∧ (∀ s d, s.detq = [d] → d.fam < 0x80 → s.quenched d = true → Completes (.smpFault none) s (fun t => t.detq = []
      ∧ t.smp.cls = s.smp.cls ∧ t.smp.irqs = s.smp.irqs ∧ t.smp.fseq = (s.smp.fseq + 1) % 2 ^ 32 ∧ t.level = s.level
      ∧ t.fg F.SMP_CLASS_STAT_QUENCHED d.cls = min 255 (s.fg F.SMP_CLASS_STAT_QUENCHED d.cls + 1)))
  ∧ (∀ s d, s.detq = [d] → d.fam < 0x80 → s.quenched d = false → s.level = 4 → Completes (.smpFault none) s (fun t => t.detq = []
      ∧ t.smp.cls = s.smp.cls ∧ t.smp.irqs = s.smp.irqs ∧ t.level = 4
      ∧ t.fg F.SMP_CLASS_STAT_FAULTS d.cls = min 255 (s.fg F.SMP_CLASS_STAT_FAULTS d.cls + 1)))
  ∧ (∀ s r, s.detq = [] → s.reportOk r = true → Completes (.smpFault (some r)) s (fun t =>
      t.smp.fseq = (s.smp.fseq + 1) % 2 ^ 32 ∧ ∃ a b, t.smp.log.getLast? = some (a, b, s.mts)))
  ∧ ∀ c f s, c < 8 → s.due (s.smpCls c false).timer = true → s.level ≠ 4 → (s.smpCls c false).lead = some f → f.det.cls = c →
      f.det.dry = false → f.level ≤ 3 → Completes (.reactionTimerExpiry c false) s (fun t =>
        (t.smpCls c false).un = (s.smpCls c false).un.filter (fun g => some f.fseq != some g.fseq)
            ++ [⟨{ f.det with mts := s.mts }, held s f.det (f.level + 1), f.cfg, (s.smp.fseq + 1) % 2 ^ 32, s.time.up⟩]
          ∧ t.fg F.SMP_CLASS_STAT_ESCALATIONS c = min 255 (s.fg F.SMP_CLASS_STAT_ESCALATIONS c + 1)
          ∧ (t.smpCls c false).timer = (if f.level = 3 then none
            else some (s.time.up + s.fg F.SMP_CLASS_CTL_TIMER c * 1000)))

/-- R325, R329, R335, R336, R337: faults are acknowledged by Windlass up to WACK_MAX and by SMP_ACK, which also clears a class;
SMP_SET gives families and classes their settings; an injection makes the detector report. -/
def Obligations.SumpIsAcknowledgedSetAndInjected : Prop :=
  (∀ c s, c < 8 → s.fb F.SMP_STAT_HB_MISS 0 = false → Completes (.windlassAck c) s (fun t =>
      (t.smpCls c false).un = (s.smpCls c false).un.filter (fun f => decide (s.fg F.SMP_CLASS_CTL_WACK_MAX c < f.level))
        ∧ t.fb F.SMP_CLASS_STAT_UNACK c = (t.smpCls c false).un.any (fun _ => true) ∧ RegsKept [.SMP_CLASS_STAT] s t))
  ∧ (∀ c s, s.fb F.SMP_STAT_HB_MISS 0 = true → exec (.windlassAck c) s = .next s)
  ∧ TakenThen .smpAck Code.SMP_ACK chkSmpAck (fun e s t => Rechecked chkSmpAck e s t (fun v =>
      (v.smpCls (e.cmd.a % 8) false).un = (s.smpCls (e.cmd.a % 8) false).un.filter (fun f => decide (s.time.up ≤ f.upAt))
        ∧ ((v.smpCls (e.cmd.a % 8) false).un = [] → (v.smpCls (e.cmd.a % 8) false).timer = none)
        ∧ (e.cmd.a.testBit 8 = true → v.fb F.SMP_CLASS_STAT_ACTIVE (e.cmd.a % 8) = false
          ∧ v.fg F.SMP_CLASS_STAT_LEVEL (e.cmd.a % 8) = 0)))
  ∧ TakenThen .smpSet Code.SMP_SET chkSmpSet (fun e s t => ∃ v, Ends e Sts.OK [] v t ∧ RegsKept [.SMP_FAM, .SMP_CLASS_CTL] s v
      ∧ (∀ k f, smpFams[k]? = some f → f ≠ 0x60 → v.fg F.SMP_FAM_LEVEL f = F.SMP_FAM_LEVEL.get (leAt e.cmd.buf (4 * k) 4))
      ∧ v.fg F.SMP_FAM_LEVEL 0x60 = s.fg F.SMP_FAM_LEVEL 0x60
      ∧ ∀ c, c < 8 → v.fg F.SMP_CLASS_CTL_TIMER c = F.SMP_CLASS_CTL_TIMER.get (leAt e.cmd.buf (4 * (32 + c)) 4)
        ∧ v.fg F.SMP_CLASS_CTL_WACK_MAX c = F.SMP_CLASS_CTL_WACK_MAX.get (leAt e.cmd.buf (4 * (32 + c)) 4))
  ∧ TakenThen .smpInject Code.SMP_INJECT chkSmpInject (fun e s t => Rechecked chkSmpInject e s t (fun v => ∃ d,
      v.detq = s.detq ++ [d] ∧ d.fam = bits e.cmd.a 15 8 ∧ d.inst = bits e.cmd.a 7 0 ∧ d.subj = bits e.cmd.a 23 16 ∧ d.inj = true
        ∧ d.dry = e.cmd.a.testBit 24 ∧ v.integ = s.integ))
  ∧ (∀ f dry s, s.fb F.HIF_STAT_STATE 0 = false →
      injCheck (s.stagedField F.SMP_CTL_INJ_EN 0 == 1) f (s.stagedField F.SMP_FAM_INJ_INST f) (s.stagedField F.SMP_FAM_INJ_SUBJ f) = Sts.OK →
      Completes (.inj f dry) s (fun t => ∃ d, t.detq = s.detq ++ [d] ∧ d.fam = f ∧ d.inst = s.stagedField F.SMP_FAM_INJ_INST f
        ∧ d.subj = s.stagedField F.SMP_FAM_INJ_SUBJ f ∧ d.inj = true ∧ d.dry = dry))
  ∧ ∀ f dry s, s.fb F.HIF_STAT_STATE 0 = true → exec (.inj f dry) s = .next s

/-- R325, R330, R332, R333, R389, R434, R440: a missed heartbeat stops ALIVE and is reported, and ALIVE toggles otherwise; a die
sensor raises each threshold once until it re-arms; the thermal cap lifts after 10 s; supply and clock monitors report; a quench
window ends. -/
def Obligations.SumpWatchesHeartbeatHeatAndSupplies : Prop :=
  (∀ s, s.pairHalted = false → Completes .windlassHeartbeat s (fun t => t.fb F.SMP_STAT_HB_MISS 0 = false
      ∧ t.smp = { s.smp with hbAt := some s.time.up, hbHold := false } ∧ RegsKept [.SMP_STAT] s t))
  ∧ (∀ s a, s.fb F.SMP_STAT_HB_MISS 0 = false → s.smp.hbAt = some a → a + 1000000 ≤ s.time.up → Completes .heartbeatMiss s (fun t =>
      t.fb F.SMP_STAT_HB_MISS 0 = true ∧ t.fb F.SMP_STAT_ALIVE_RUN 0 = false ∧ RegsKept [.SMP_STAT] s t
        ∧ t.detq = if s.pairHalted then s.detq else s.detq ++ [⟨0x24, 0, 0, 0, 0, s.mts, false, false, 0⟩]))
  ∧ (∀ s a, s.smp.aliveAt = some a → a ≤ s.time.up → Completes .aliveToggle s (fun t => t.smp.aliveAt = some (a + 500000)
      ∧ (s.aliveHeld = true → t.fb F.SMP_STAT_ALIVE_RUN 0 = false ∧ t.smp.alive = s.smp.alive)
      ∧ (s.aliveHeld = false → s.fb F.SMP_STAT_ALIVE_RUN 0 = true → t.fb F.SMP_STAT_ALIVE_RUN 0 = true ∧ t.smp.alive = !s.smp.alive)))
  ∧ (∀ i x s, i < 12 → 2 ≤ s.ret.boot → mget 0 s.smp.hot i = 0 → Completes (.dieTemperatureThreshold i x) s (fun t =>
      mget 0 t.smp.temps i = x ∧ t.regs = s.regs ∧ (x < 1200 → t.detq = s.detq)
        ∧ (1250 ≤ x → x < 1300 → t.detq = s.detq ++ [⟨0x60, i, 0, 1, x.toNat, s.mts, false, false, 0⟩,
          ⟨0x60, i, 0, 2, x.toNat, s.mts, false, false, 0⟩] ∧ mget 0 t.smp.hot i = 3)))
  ∧ (∀ i x s, i < 12 → 2 ≤ s.ret.boot → mget 0 s.smp.hot i = 1 → 1170 < x → x < 1250 → Completes (.dieTemperatureThreshold i x) s (fun t =>
      t.detq = s.detq ∧ mget 0 t.smp.hot i = 1))
  ∧ (∀ s, s.fb F.SMP_STAT_CAPPED 0 = true → (∀ i, i < 12 → mget 0 s.smp.temps i < 1220) →
      max s.smp.capAt s.smp.hotAt + 10000000000 ≤ s.time.up → Completes .thermalCapLift s (fun t => t.fb F.SMP_STAT_CAPPED 0 = false
        ∧ RegsKept [.SMP_STAT] s t ∧ t.smp = s.smp))
  ∧ (∀ k s, k < 9 → exec (.supplyUndervoltage k) s = .next { s with detq := s.detq ++ [⟨0x61, k, 0, 0, 0, s.mts, false, false, 0⟩] })
  ∧ (∀ s, exec .xoLoss s = .next { s with detq := s.detq ++ [⟨0x62, 0, 0, 0, 0, s.mts, false, false, 0⟩] })
  ∧ (∀ i s, 1 ≤ i → i < 4 → exec (.pllClockLoss i) s = .next { s with detq := s.detq ++ [⟨0x62, i, 0, 0, 0, s.mts, false, false, 0⟩] })
  ∧ (∀ c s, 2 ≤ mget 0 s.eng.quC c → mget 0 s.eng.quC c ≤ s.time.up + 2 → Completes (.quenchWindowEnd true c) s (fun t =>
      t.clQuenched c = false ∧ t.eng.quU = s.eng.quU ∧ t.regs = s.regs))
  ∧ (∀ u s, 2 ≤ mget 0 s.eng.quU u → mget 0 s.eng.quU u ≤ s.time.up + 2 → Completes (.quenchWindowEnd false u) s (fun t =>
      t.unQuenched u = false ∧ t.eng.quC = s.eng.quC ∧ t.regs = s.regs))

/-- R339, R340, R342, R343, R346, R348, R353, R354: twins find each other, take their roles and compare digests: HELLO is sent
and heard, a device that hears nobody becomes ACTIVE, twin links go up and down, a BEAT shows the partner and settles lockstep,
and three missed BEATs lose the partner. -/
def Obligations.TwinsPairCompareAndLose : Prop :=
  let sends (s t : State) (ty : Nat) (m : TwMsg) := ∃ x, mfind t.tw.sent ty = some x ∧ x.msg = m ∧ x.links = [0, 1].filter s.twUp
    ∧ x.frames.length = x.links.length
    ∧ ∀ f ∈ x.frames, f.take 6 = [0x01, 0x80, 0xC2, 0, 0, 0x0E] ∧ (f.drop 12).take 4 = [0x88, 0xB6, 1, BitVec.ofNat 8 ty]
  (∀ s, s.twRole = 1 → s.tw.helloAt ≤ s.time.up → s.twUp 0 = true ∨ s.twUp 1 = true → Completes .helloSend s (fun t =>
      sends s t 1 (.hello s.ownHello) ∧ t.tw.helloAt = s.time.up + 1000000 ∧ t.regs = s.regs))
  ∧ (∀ (h : TwHdr) (m : TwHello) s, s.twRole = 1 → h.ok = true → h.version = 1 → h.link < 2 → s.twUp h.link = true →
      m.side ≠ s.fg F.TW_CTL_SIDE 0 → mget 0 s.tw.uid (1 - h.link) = 0 → m.role = 1 → Completes (.hello h m) s (fun t =>
        t.twRole = (if (s.fb F.TW_CTL_HOME 0 = true ∧ m.home = false) ∨ (s.fb F.TW_CTL_HOME 0 = m.home ∧ s.fg F.TW_CTL_SIDE 0 = 0)
          then 2 else 4) ∧ t.twPaired = true ∧ mget 0 t.tw.uid h.link = m.uid
        ∧ ∀ i, i < 3 → t.rr .TW_PARTNER_ID i = BitVec.ofNat 32 (m.uid / 2 ^ (32 * i))))
  ∧ (∀ (h : TwHdr) (m : TwHello) s, s.twRole ≠ 0 → h.ok = true → h.version = 1 → h.link < 2 → s.twUp h.link = true →
      m.side = s.fg F.TW_CTL_SIDE 0 → mget 0 s.tw.bad h.link = 0 → Completes (.hello h m) s (fun t => mget 0 t.tw.bad h.link = 1
        ∧ t.regs = s.regs ∧ t.detq = s.detq ++ [⟨0x73, h.link, 0, 0, 0, (s.elapse h.dt).mts, false, false, 0⟩]))
  ∧ (∀ s, s.twRole = 1 → s.tw.heard + s.fg F.TW_TIMERS_PAIR_WAIT 0 * 1000000 ≤ s.time.up → Completes .pairWaitExpiry s (fun t =>
      t.twRole = 2 ∧ t.tw.claimAt = s.time.up ∧ RegsKept [.TW_STAT] s t))
  ∧ (∀ l d s, l < 2 → d ≤ 2000 → Completes (.twinLinkUp l d) s (fun t => t.twUp l = true ∧ t.fg F.TW_LINK_DELAY l = d
      ∧ RegsKept [.TW_LINK, .TW_STAT] s t))
  ∧ (∀ l s, l < 2 → s.twUp l = true → Completes (.twinLinkDown l true) s (fun t => t.twUp l = false
      ∧ ∃ d ∈ t.detq, d.fam = 0x70 ∧ d.inst = l))
  ∧ (∀ (h : TwHdr) (m : TwBeat) s, s.twHears h = true → s.twRole ≠ 1 → mget 0 s.tw.got 2 ≠ m.tickno + 1 → Completes (.beat h m) s (fun t =>
      t.tw.peer = some m ∧ t.twPaired = true ∧ mget 0 t.tw.got h.link = m.tickno + 1 ∧ mget 0 t.tw.miss h.link = 0
        ∧ t.fg F.TW_STAT_PEER_SCORE 0 = m.health % 256 ∧ t.rr .TW_PEER_LO 0 = BitVec.ofNat 32 m.health))
  ∧ (∀ (h : TwHdr) (m : TwBeat) s b, s.twHears h = true → s.twRole = 3 → mget 0 s.tw.got 2 ≠ m.tickno + 1 → m.role = 2 →
      s.tw.own.find? (fun x => x.tickno == m.tickno) = some b → b.role = 3 →
      (b.dig0 = m.dig0 ∧ b.dig1 = m.dig1 ∧ b.digDp = m.digDp → Completes (.beat h m) s (fun t => t.fb F.TW_STAT_LOCKSTEP 0 = true))
      ∧ (¬ (b.dig0 = m.dig0 ∧ b.dig1 = m.dig1 ∧ b.digDp = m.digDp) → b.health % 256 ≤ m.health % 256 → Completes (.beat h m) s (fun t =>
        t.fb F.TW_STAT_LOCKSTEP 0 = false ∧ t.twRole = 4 ∧ ∃ d ∈ t.detq, d.fam = 0x72)))
  ∧ ∀ l dt s, l < 2 → s.twRole = 3 → tickStart (tickAt (s.elapse dt).now) + 10000 ≤ (s.elapse dt).now →
      mget 0 s.tw.got l ≠ (s.elapse dt).tickno + 1 → mget 0 s.tw.judged l ≠ s.time.tick → s.twPaired = true →
      2 ≤ mget 0 s.tw.miss l → 3 ≤ mget 0 s.tw.miss (1 - l) → Completes (.beatMissed l dt) s (fun t =>
        t.twPaired = false ∧ t.twRole = 2 ∧ mget 0 t.tw.miss l = mget 0 s.tw.miss l + 1 ∧ ∃ d ∈ t.detq, d.fam = 0x71)

/-- R346, R348, R349, R352, R360: a STANDBY takes control on YIELD, on PYIELD, on the loss of PALIVE and on HANDOVER, which the
old ACTIVE gives up when it is acknowledged; TW_YIELD and TW_HOME start a voluntary handover, HOME is asked for after HOME_HOLD,
and a STANDBY out of alignment for 1 s is SUSPECT. -/
def Obligations.TwinControlChangesHands : Prop :=
  let takes (s t : State) (at_ : Nat) := t.twRole = 2 ∧ t.tw.claimAt = at_ ∧ t.tw.hoOut = none ∧ t.now = s.now
  (∀ h s, s.twHears h = true → s.twRole = 3 → Completes (.yield h) s (fun t => takes (s.elapse h.dt) t ((s.elapse h.dt).time.up + 200)))
  ∧ (∀ dt s, s.twRole = 3 → Completes (.pyieldAssert true dt) s (fun t => takes (s.elapse dt) t ((s.elapse dt).time.up + 200)
      ∧ t.fb F.TW_STAT_PYIELD 0 = true))
  ∧ (∀ dt s, Completes (.pyieldAssert false dt) s (fun t => t.fb F.TW_STAT_PYIELD 0 = false ∧ t.tw = s.tw ∧ RegsKept [.TW_STAT] s t
      ∧ t.twRole = s.twRole))
  ∧ (∀ dt s, s.twRole = 3 → Completes (.paliveLoss true dt) s (fun t => takes (s.elapse dt) t (s.elapse dt).time.up
      ∧ t.fb F.TW_STAT_PALIVE_OK 0 = false))
  ∧ (∀ dt s, Completes (.paliveLoss false dt) s (fun t => t.fb F.TW_STAT_PALIVE_OK 0 = true ∧ t.tw = s.tw ∧ t.twRole = s.twRole))
  ∧ (∀ h q s, s.twHears h = true → s.twRole = 3 → Completes (.handover h q false) s (fun t => t.twRole = 2
      ∧ ∃ x, mfind t.tw.sent 8 = some x ∧ x.msg = .handoverAck q))
  ∧ (∀ h q s, s.twHears h = true → s.activePair = true → Completes (.handover h q true) s (fun t => t.tw.hoOut.isSome = true
      ∧ t.twRole = 2 ∧ t.regs = s.regs))
  ∧ (∀ h q s f, s.twHears h = true → s.twRole = 2 → s.tw.hoOut = some f → f.1 % 65536 = q % 65536 → Completes (.handoverAck h q) s (fun t =>
      t.twRole = 4 ∧ t.tw.hoOut = none ∧ t.ret.pwrHo = false ∧ t.sec.waiting = none))
  ∧ (∀ s f, s.tw.hoOut = some f → f.2 ≤ s.time.up → Completes .handoverTimeout s (fun t => t.tw.hoOut = none ∧ t.twRole = s.twRole
      ∧ t.sec.waiting = none))
  ∧ (∀ s a, s.tw.lowAt = some a → s.twRole = 3 → s.fb F.TW_CTL_HOME 0 = true → s.tw.asked = false →
      a + s.fg F.TW_TIMERS_HOME_HOLD 0 * 1000000000 ≤ s.time.up → s.fg F.TW_CTL_HOME_THRESHOLD 0 ≤ s.fg F.TW_STAT_SCORE 0 →
      s.twUp 0 = true → Completes .homeHoldExpiry s (fun t => t.tw.asked = true ∧ t.regs = s.regs
        ∧ ∃ x q, mfind t.tw.sent 7 = some x ∧ x.msg = .handover q true))
  ∧ (∀ s a, s.tw.unaligned = some a → a + 1000000000 ≤ s.time.up → s.twRole = 3 → Completes .mtAlignedLossExpiry s (fun t =>
      t.twRole = 4 ∧ RegsKept [.TW_STAT] s t))
  ∧ TakenThen .twYield Code.TW_YIELD chkTwYield (fun e s t => Rechecked chkTwYield e s t (fun v => v.tw.hoOut.isSome = true
      ∧ v.regs = s.regs))
  ∧ TakenThen .twHome Code.TW_HOME chkTwHome (fun e s t => Rechecked chkTwHome e s t (fun v => v.regs = s.regs
      ∧ (s.homeHere = false → v.tw.hoOut.isSome = true) ∧ (s.homeHere = true → s.twUp 0 = true →
        ∃ x q, mfind v.tw.sent 7 = some x ∧ x.msg = .handover q true)))

/-- R346, R355, R356, R357: the partner's samples and commands are taken, a command at its apply tick and its outcome compared;
a SUSPECT takes settings, pages and states phase by phase while the ACTIVE serves it, becomes STANDBY after the last, and tries
again after a failure; TW_SET and TW_RESYNC act at the boundary. -/
def Obligations.TwinsMirrorAndResynchronise : Prop :=
  let own (c : Cmd) : Cmd := { c with src := 1, dt := 0 }
  (∀ h m s, s.twHears h = true → s.twRole = 3 → h.active = true → Completes (.mirror h m) s (fun t => t.tw.mirIc = s.asrcSlots
      ∧ t.regs = s.regs))
  ∧ (∀ h m s, s.twHears h = true → s.twRole ≠ 3 → Completes (.mirror h m) s (fun t => t.tw = s.tw ∧ t.regs = s.regs))
  ∧ (∀ h k c s, s.twHears h = true → Accepts Code.ROUTE_COMMIT chkRouteCommit (own c) (s.elapse h.dt) →
      Completes (.cmd h k Code.ROUTE_COMMIT c) s (fun t => t.hif.cmdSeq = s.hif.cmdSeq + 1 ∧ ∃ e ∈ t.dueNext, e.code = Code.ROUTE_COMMIT
        ∧ e.cmd = own c ∧ e.seq = s.hif.cmdSeq ∧ e.late = decide (tickStart k ≤ (s.elapse h.dt).now)
        ∧ e.place = if tickStart k ≤ (s.elapse h.dt).now then s.time.next else tickStart k))
  ∧ (∀ h g st s y o, s.twHears h = true → s.twRole = 3 → s.tw.cmdOut = [y] → y.cmd.tag = g → y.peer = none → y.own = some o →
      Completes (.cmdAck h g st) s (fun t => t.tw.cmdOut = [] ∧ t.twRole = if o = st then 3 else 4))
  ∧ (∀ h x s, s.twHears h = true → s.twRole = 4 → s.syncPhase = 1 → Completes (.sync h (.settings x)) s (fun t =>
      t.tw = { s.tw with settings := some x } ∧ t.regs = s.regs))
  ∧ (∀ h p cap b s, s.twHears h = true → s.twRole = 4 → s.syncPhase = 2 → mget 0 s.tw.pageAt p = 0 → b.length = 4096 →
      Completes (.sync h (.page p cap b)) s (fun t => t.regs = s.regs ∧ ∀ a, memByte t.integ.mem a =
        if 4096 * p ≤ a ∧ a < 4096 * p + 4096 then b.getD (a - 4096 * p) 0 else memByte s.integ.mem a))
  ∧ (∀ h s, s.twHears h = true → s.twRole = 4 → s.syncPhase = 2 → Completes (.sync h .passEnd) s (fun t => t.regs = s.regs
      ∧ t.tw.phaseEnd = (s.tw.passOk2 && s.tw.refused == []) ∧ ∃ x, mfind t.tw.sent 10 = some x
        ∧ x.msg = .syncAck s.tw.refused 2 (s.tw.passOk2 && s.tw.refused == [])))
  ∧ (∀ h f cs gs ps s, s.twHears h = true → s.twRole = 4 → s.syncPhase = 3 → Completes (.sync h (.cut f cs gs ps)) s (fun t =>
      t.tw.phaseEnd = true ∧ t.tw.recs = [] ∧ t.detq = s.detq ∧ t.hif = s.hif))
  ∧ (∀ h r s, s.twHears h = true → s.twRole = 2 → s.syncPhase ≠ 0 → Completes (.syncAck h r s.syncPhase true) s (fun t => t.tw.phaseEnd = true
      ∧ t.regs = s.regs))
  ∧ (∀ h r s, s.twHears h = true → s.twRole = 2 → s.syncPhase = 2 → Completes (.syncAck h r 2 false) s (fun t =>
      t.tw.passNo = s.tw.passNo + 1 ∧ t.regs = s.regs))
  ∧ (∀ s, s.twRole = 4 → s.tw.phaseEnd = true → s.syncPhase = 4 → Completes .resyncPhaseComplete s (fun t => t.twRole = 3
      ∧ t.syncPhase = 0 ∧ RegsKept [.TW_STAT, .TW_CNT] s t))
  ∧ (∀ s, s.twRole = 4 → s.tw.phaseEnd = true → 1 ≤ s.syncPhase → s.syncPhase ≤ 3 → Completes .resyncPhaseComplete s (fun t => t.twRole = 4
      ∧ t.syncPhase = s.syncPhase + 1 ∧ t.tw.phaseEnd = false))
  ∧ (∀ s, s.twRole = 2 → s.tw.phaseEnd = true → s.syncPhase = 1 → Completes .resyncPhaseComplete s (fun t => t.syncPhase = 2
      ∧ t.tw.passNo = 1 ∧ t.twRole = 2))
  ∧ (∀ s, s.twRole = 4 → s.syncPhase ≠ 0 → s.tw.syncAt + s.fg F.TW_SYNC_RESYNC_MAX 0 * 1000000000 < s.time.up →
      Completes .resyncTimeout s (fun t => t.syncPhase = 0 ∧ t.twRole = 4 ∧ t.fg F.TW_STAT_SYNC_CAUSE 0 = 1
        ∧ t.tw.retryAt = some (s.time.up + 10000000000) ∧ t.detq = s.detq ++ [⟨0x72, 0, 0, 0, 0, s.mts, false, false, 0⟩]))
  ∧ (∀ s a, s.tw.retryAt = some a → a ≤ s.time.up → s.twRole = 4 → s.syncPhase = 0 → s.twPaired = true → s.peerRole = 2 →
      s.tw.fwDiff = false → Completes .resyncRetryExpiry s (fun t => t.syncPhase = 1 ∧ t.tw.syncAt = s.time.up ∧ t.tw.retryAt = none))
  ∧ TakenThen .twSet Code.TW_SET chkTwSet (fun e s t => Rechecked chkTwSet e s t (fun v =>
      (∀ i k, i < 35 → k < 32 → (accMask (twReg i).1 (· == .rw)).testBit k = true →
        (v.rr (twReg i).1 (twReg i).2).getLsbD k = (leAt e.cmd.buf (4 * i) 4).testBit k)
      ∧ (s.fb F.TW_CTL_EN 0 = false → v.fb F.TW_CTL_EN 0 = true → v.twRole = 1 ∧ v.tw.helloAt = s.time.up)
      ∧ (s.fb F.TW_CTL_EN 0 = true → v.fb F.TW_CTL_EN 0 = false → v.twRole = 0 ∧ v.twPaired = false ∧ v.tw.peer = none)))
  ∧ TakenThen .twResync Code.TW_RESYNC chkTwResync (fun e s t => Rechecked chkTwResync e s t (fun v => s.peerRole = 2 →
      s.tw.fwDiff = false → v.syncPhase = 1 ∧ v.twRole = 4 ∧ v.tw.syncAt = s.time.up))

/-- R371, R372, R378, R379, R380: a PWR_SET is armed, starts its transition at its boundary and ends it as the state it names
asks: the islands drop for STANDBY and are reloaded after it, and OFF is entered once everything is durable; pending records
reach the log in order of their generation, and a compaction makes the other copy current. -/
def Obligations.PowerTransitionsAndLogAreKept : Prop :=
  let moving (s : State) := s.fb F.RW_PWR_STAT_MOVING 0
  (∀ c s, Accepts Code.PWR_SET chkPwrSet c s → Completes (.pwrSet c) s (fun t => PlacedNext Code.PWR_SET c s t
      ∧ t.fb F.RW_PWR_STAT_ARMED 0 = true ∧ t.fg F.RW_PWR_STAT_TARGET 0 = c.a))
  ∧ (∀ e s, e.code = Code.PWR_SET → s.pwrLate e.cmd.a = false → s.pwr ≠ e.cmd.a → (applyEntry e s).ret.pwr = some e
      ∧ (applyEntry e s).ret.pwrHo = (s.pwr == 0 && s.activePair) ∧ (applyEntry e s).pwr = s.pwr)
  ∧ (∀ e s, e.code = Code.PWR_SET → s.pwrLate e.cmd.a = true ∨ s.pwr = e.cmd.a → (applyEntry e s).ret.pwr = s.ret.pwr
      ∧ (applyEntry e s).pwr = s.pwr)
  ∧ (∀ s e, s.ret.pwr = some e → s.ret.pwrHo = false → moving s = false → s.now = tickStart (tickAt s.now) → e.cmd.a ≤ 2 →
      Completes .powerTransitionStart s (fun t => t.pwr = e.cmd.a ∧ moving t = true ∧ t.fg F.RW_PWR_STAT_TARGET 0 = e.cmd.a
        ∧ t.fb F.RW_PWR_STAT_ARMED 0 = false ∧ t.ret.pwr = none ∧ t.ret.moveTick = s.time.tick
        ∧ (s.standby = false ∨ e.cmd.a = 2 → t.aud.gate = e.cmd.a)))
  ∧ (∀ s e, s.ret.pwr = some e → s.ret.pwrHo = false → moving s = false → s.now = tickStart (tickAt s.now) → e.cmd.a = 3 →
      Completes .powerTransitionStart s (fun t => t.pwr = s.pwr ∧ moving t = true ∧ t.fg F.RW_PWR_STAT_TARGET 0 = 3
        ∧ t.ret.pwr = some e ∧ t.aud.gate = 3))
  ∧ (∀ s, moving s = true → s.fg F.RW_PWR_STAT_TARGET 0 = 2 → s.ret.moveTick < s.time.tick → Completes .islandsOff s (fun t =>
      moving t = false ∧ t.fg F.RW_PWR_STAT_ISLANDS 0 = 1 ∧ t.ret.islOff = true
        ∧ (∀ g, 1 ≤ g → g < 6 → t.fb F.RG_PWR_ON g = false) ∧ ∀ c, 4 ≤ c → c < 24 → t.clState c ≠ 1))
  ∧ (∀ s, moving s = true → s.ret.moveFrom = 2 → s.pwr < 2 → s.fg F.RW_PWR_STAT_ISLANDS 0 = 0x3F →
      Completes .standbyExitReloadComplete s (fun t => moving t = false ∧ t.pwr = s.pwr ∧ t.aud.gate = s.pwr ∧ t.ret.islOff = false
        ∧ t.aud.gateTick = s.time.tick + 1))
  ∧ (∀ s e, s.ret.pwr = some e → s.pwr = 3 → moving s = true → Completes .offEntryComplete s (fun t => moving t = false ∧ t.pwr = 3
      ∧ t.ret.pwr = none ∧ t.smp.aliveAt = none ∧ t.fb F.SMP_STAT_ALIVE_RUN 0 = false))
  ∧ (∀ s r, s.logging = true → s.nextRecord = some r → s.curCopy.used + r.padded ≤ logBytes → Completes .logRecordDurable s (fun t =>
      t.fg F.RW_DURABLE_GEN 0 = nextGen (s.fg F.RW_DURABLE_GEN 0) ∧ t.curCopy.log = s.curCopy.log ++ [r]
        ∧ t.ret.pend = s.ret.pend.filter (fun x => x.gen != r.gen) ∧ RegsKept [.RW_DURABLE, .RW_PENDING, .RW_LOG] s t))
  ∧ (∀ s, s.logging = true → s.fb F.RW_STAT_COMPACTING 0 = false → s.pwr ≠ 3 → moving s = false →
      s.fg F.RW_CTL_COMPACT_PCT 0 * logBytes < s.curCopy.used * 100 → Completes .compactionStart s (fun t =>
        t.fb F.RW_STAT_COMPACTING 0 = true ∧ RegsKept [.RW_STAT] s t ∧ t.ret = s.ret))
  ∧ ∀ s, s.fb F.RW_STAT_COMPACTING 0 = true → Completes .compactionComplete s (fun t => t.fb F.RW_STAT_COMPACTING 0 = false
      ∧ t.fg F.RW_STAT_COPY 0 = 1 - s.fg F.RW_STAT_COPY 0 ∧ t.curCopy.valid = true ∧ t.curCopy.snap = s.curCopy.state
      ∧ t.curCopy.log = [] ∧ t.curCopy.baseGen = s.fg F.RW_DURABLE_GEN 0 ∧ t.curCopy.schema = s.curCopy.schema
      ∧ t.ret.pend = s.ret.pend)

/-- R397, R399, R401, R403, R405: FW_BLOCK programs a block of a bank that may change; FW_ACTIVATE names it for the next start
and FW_COMMIT commits the image that runs in trial, each when its work is complete; the recovery window does the same. -/
def Obligations.FirmwareIsLoadedAndCommitted : Prop :=
  let work (mk : Cmd → Instr) (code : Nat) (chk : Cmd → State → Chk) := TakenThen mk code chk (fun e s t =>
    ((chk e.cmd s).1 ≠ Sts.OK → Ends e (chk e.cmd s).1 (chk e.cmd s).2 s t)
      ∧ ((chk e.cmd s).1 = Sts.OK → t = { s with sec := { s.sec with work := s.sec.work ++ [e] } }))
  let page (s v : State) (b o : Nat) (d : List Byte) := ∀ x, mget (255 : Byte) (v.fwBank b) x
    = if o ≤ x ∧ x < o + 4096 then d.getD (x - o) 255 else mget (255 : Byte) (s.fwBank b) x
  TakenThen .fwBlock Code.FW_BLOCK chkFwBlock (fun e s t => ((chkFwBlock e.cmd s).1 ≠ Sts.OK →
      Ends e (chkFwBlock e.cmd s).1 (chkFwBlock e.cmd s).2 s t)
    ∧ ((chkFwBlock e.cmd s).1 = Sts.OK → e.cmd.ok = true → ∃ v, Ends e Sts.OK [] v t ∧ v.fwState e.cmd.a = 1
      ∧ page s v e.cmd.a e.cmd.b (e.cmd.buf.take e.cmd.len) ∧ RegsKept [.SEC_FW_STAT, .SEC_FW_VER] s v)
    ∧ ((chkFwBlock e.cmd s).1 = Sts.OK → e.cmd.ok = false → ∃ v, Ends e Sts.FW_CRC [] v t ∧ v.fb F.RW_STAT_QSPI_ERR 0 = true
      ∧ v.sec = s.sec))
  ∧ work .fwActivate Code.FW_ACTIVATE chkFwActivate
  ∧ work .fwCommit Code.FW_COMMIT chkFwCommit
  ∧ (∀ b e s, b < 2 → s.sec.work = [e] → e.code = Code.FW_ACTIVATE → e.cmd.a = b → s.fwState b ≠ 3 → Completes (.fwActivateComplete b) s
      (fun t => ∃ v, Ends e (s.fwVerify b) [] v t ∧ v.sec.work = [] ∧ v.regs = s.regs
        ∧ (s.fwVerify b = Sts.OK → v.sec.nxt = b ∧ v.sec.nxtMode = if e.cmd.c = 1 then 1 else 2)
        ∧ (s.fwVerify b ≠ Sts.OK → v.sec.nxt = s.sec.nxt ∧ v.sec.nxtMode = s.sec.nxtMode)))
  ∧ (∀ e s, s.sec.work = [e] → e.code = Code.FW_COMMIT → Completes .fwCommitComplete s (fun t => ∃ v, Ends e Sts.OK [] v t
      ∧ v.sec.work = [] ∧ v.fwState s.fwRunning = 3 ∧ v.fwMode = 0 ∧ v.sec.boot = s.fwRunning ∧ v.curCopy.valid = true
      ∧ v.curCopy.schema = s.runSchema ∧ v.curCopy.log = []
      ∧ v.fwState (1 - s.fwRunning) = if s.fwState (1 - s.fwRunning) = 3 then 4 else s.fwState (1 - s.fwRunning)))
  ∧ (∀ w s, w < 2 ^ 32 → s.fwMode = 3 → s.fb F.SEC_RCV_STAT_BUSY 0 = false → w.testBit 31 = true →
      let starts := fun (t : State) (op : Nat) => t.fb F.SEC_RCV_STAT_BUSY 0 = true ∧ t.sec.rcv = op
        ∧ t.fg F.SEC_RCV_CTL_BANK 0 = F.SEC_RCV_CTL_BANK.get w ∧ RegsKept [.SEC_RCV_CTL, .SEC_RCV_STAT] s t
      (F.SEC_RCV_CTL_OP.get w = 1 → Completes (.recoveryBlock w) s (fun t => starts t 1))
      ∧ (F.SEC_RCV_CTL_OP.get w = 2 → Completes (.recoveryVerify w) s (fun t => starts t 2))
      ∧ (F.SEC_RCV_CTL_OP.get w = 3 → Completes (.recoveryActivate w) s (fun t => starts t 3)))
  ∧ ∀ ok s, s.fb F.SEC_RCV_STAT_BUSY 0 = true →
      let b := s.fg F.SEC_RCV_CTL_BANK 0
      (s.sec.rcv = 2 → Completes (.recoveryOpComplete ok) s (fun t => t.fb F.SEC_RCV_STAT_BUSY 0 = false ∧ t.sec.rcv = 0
        ∧ t.fg F.SEC_RCV_STAT_STATUS 0 = s.fwJudge b false))
      ∧ (s.sec.rcv = 3 → s.activateChk b = Sts.OK → s.fwState b ≠ 3 → s.fwVerify b = Sts.OK → Completes (.recoveryOpComplete ok) s (fun t =>
        t.fb F.SEC_RCV_STAT_BUSY 0 = false ∧ t.fg F.SEC_RCV_STAT_STATUS 0 = Sts.OK ∧ t.sec.nxt = b ∧ t.sec.nxtMode = 2))
      ∧ (s.sec.rcv = 1 → s.fwLocked b = true → Completes (.recoveryOpComplete ok) s (fun t => t.fb F.SEC_RCV_STAT_BUSY 0 = false
        ∧ t.fg F.SEC_RCV_STAT_STATUS 0 ≠ Sts.OK ∧ t.sec.bankA = s.sec.bankA ∧ t.sec.bankB = s.sec.bankB))

/-- R390, R391, R392, R393: DBG_CHALLENGE gives a fresh nonce; DBG_OPEN grants a level the table allows, a failed authentication
counts, and the third locks debug out; DBG_CLOSE and the timers end what they end. -/
def Obligations.DebugSessionsAreGrantedAndEnd : Prop :=
  let ended (t : State) := t.fb F.DBG_STAT_SESSION 0 = false ∧ t.fg F.DBG_STAT_LEVEL 0 = 0 ∧ t.fg F.DBG_STAT_MAX 0 = 0
    ∧ t.sec.sessEnd = none ∧ (∀ u, (t.unit u).halted = false) ∧ t.pairHalted = false
  let granted (e : Entry) (v : State) := v.fb F.DBG_STAT_SESSION 0 = true ∧ v.fg F.DBG_STAT_MAX 0 = recLevel e.cmd.buf
    ∧ v.fg F.DBG_STAT_LEVEL 0 = recLevel e.cmd.buf ∧ v.fg F.DBG_STAT_FAILS 0 = 0
  TakenThen .dbgChallenge Code.DBG_CHALLENGE chkDbgChallenge (fun e s t => Rechecked chkDbgChallenge e s t (fun v =>
      v.sec.nonce.length = 48 ∧ v.sec.nonceAt = s.time.up + 60000000000 ∧ v.regs = s.regs
        ∧ memRead v.hif.hostMem e.cmd.addr 64 = s.uidBytes ++ [0, 0, 0, 0] ++ v.sec.nonce))
  ∧ TakenThen .dbgOpen Code.DBG_OPEN chkDbgOpen (fun e s t =>
      (s.lockedOut = true → ∃ v, Ends e Sts.DBG_DENIED [] v t ∧ v.regs = s.regs)
      ∧ (s.lockedOut = false → s.fb F.SEC_STATE_SEALED 0 = false → 1 ≤ recLevel e.cmd.buf → recLevel e.cmd.buf ≤ 3 →
        recLevel e.cmd.buf ≤ s.dbgAllows → ∃ v, Ends e Sts.OK [] v t ∧ granted e v ∧ v.sec.sessEnd = none)
      ∧ (s.lockedOut = false → s.fb F.SEC_STATE_SEALED 0 = true → s.dbgAuth e.cmd.buf = true → recLevel e.cmd.buf ≤ s.dbgAllows →
        ∃ v, Ends e Sts.OK [] v t ∧ granted e v ∧ v.sec.nonce = []
          ∧ v.sec.sessEnd = some (s.time.up + recMinutes e.cmd.buf * 60 * 1000000000))
      ∧ (s.lockedOut = false → s.fb F.SEC_STATE_SEALED 0 = true → s.dbgAuth e.cmd.buf = false → ∃ v, Ends e Sts.DBG_AUTH [] v t
        ∧ v.sec.nonce = [] ∧ v.fg F.DBG_STAT_FAILS 0 = min 255 (s.fg F.DBG_STAT_FAILS 0 + 1)
        ∧ (v.lockedOut = true ↔ 2 ≤ s.fg F.DBG_STAT_FAILS 0) ∧ RegsKept [.DBG_STAT] s v))
  ∧ TakenThen .dbgClose Code.DBG_CLOSE chkDbgClose (fun e _ t => ∃ v, Ends e Sts.OK [] v t ∧ ended v)
  ∧ (∀ s a, s.sec.sessEnd = some a → a ≤ s.time.up → Completes .sessionExpiry s ended)
  ∧ (∀ s, s.sec.nonceAt ≤ s.time.up → Completes .nonceExpiry s (fun t => t = { s with sec := { s.sec with nonce := [] } }))
  ∧ ∀ s a, s.sec.lockEnd = some a → a ≤ s.time.up → Completes .lockoutExpiry s (fun t => t.lockedOut = false ∧ t.sec.lockEnd = none
      ∧ RegsKept [.DBG_STAT] s t)

/-- R384, R386, R387, R388, R389, R393, R395: at its level the debug port halts, resumes and steps a unit, holds a pair, stages
and burns fuses, reads and writes memory and registers, each register write under a generation of its own; below it, it reads 0
and is denied. The TAP takes the instructions its state allows. -/
def Obligations.DebugPortActsAtItsLevel : Prop :=
  let plain (r : RegId) := r ∈ [RegId.MT_SLEW_MAX, .WH_BW, .WH_LOCK, .WH_TIMERS, .WH_QL_MAP, .TW_SYNC, .RW_CTL]
  let full (r : RegId) (w : Nat) := okMask r w = accMask r (fun a => a == .rw || a == .rws)
  let noted (s t : State) (l : List RegId) := t.fg F.HIF_CFG_GEN_GEN 0 = nextGen (s.fg F.HIF_CFG_GEN_GEN 0)
    ∧ RegsKept ([.HIF_CFG_GEN, .RW_PENDING] ++ l) s t
  let denied (s t : State) := t.fb F.DBG_STAT_DENIED 0 = true ∧ t.eng = s.eng ∧ t.sec = s.sec ∧ RegsKept [.DBG_STAT] s t
  (∀ u s, u < 192 → 2 ≤ s.dbgAt →
      Completes (.halt u) s (fun t => (t.unit u).halted = true ∧ (t.core u).rep = 0 ∧ t.fb F.DBG_STAT_HALTED 0 = true
        ∧ (∀ v, v ≠ u → t.unit v = s.unit v) ∧ noted s t [.DBG_RUNCTL, .DBG_STAT])
      ∧ Completes (.resume u) s (fun t => t.unit u = { s.unit u with halted := false } ∧ (∀ v, v ≠ u → t.unit v = s.unit v)
        ∧ noted s t [.DBG_RUNCTL, .DBG_STAT]))
  ∧ (∀ u x s, u < 192 → 2 ≤ s.dbgAt → (s.unit u).halted = true → s.ust u = 3 → jdecode (s.fetch u (s.core u).pc) = some .nop →
      (s.fetchEcc u x.fsyn).1 = 0 → (s.core u).slots = 0 → (s.core u).rep = 0 → Completes (.step u x) s (fun t =>
        t.core u = (s.seen u).advance 0 ∧ (t.unit u).halted = true ∧ (t.unit u).stepOk = false))
  ∧ (∀ b s, 2 ≤ s.dbgAt → Completes (.pair0Halt b) s (fun t => t.fb F.DBG_RUNCTL_PAIR0_HALT 0 = b ∧ t.eng = s.eng
        ∧ t.fb F.DBG_RUNCTL_PAIR1_HALT 0 = s.fb F.DBG_RUNCTL_PAIR1_HALT 0 ∧ noted s t [.DBG_RUNCTL, .DBG_STAT])
      ∧ Completes (.pair1Halt b) s (fun t => t.fb F.DBG_RUNCTL_PAIR1_HALT 0 = b ∧ t.eng = s.eng
        ∧ t.fb F.DBG_RUNCTL_PAIR0_HALT 0 = s.fb F.DBG_RUNCTL_PAIR0_HALT 0 ∧ noted s t [.DBG_RUNCTL, .DBG_STAT]))
  ∧ (∀ u x b s, s.dbgAt < 2 → Completes (.halt u) s (denied s) ∧ Completes (.resume u) s (denied s) ∧ Completes (.step u x) s (denied s)
      ∧ Completes (.pair0Halt b) s (denied s) ∧ Completes (.pair1Halt b) s (denied s))
  ∧ (∀ w s, w < 2 ^ 32 → s.dbgAt = 3 → s.fb F.SEC_STATE_SEALED 0 = false → w.testBit 31 = true → full .DBG_FUSE_CTL w →
      let g := F.DBG_FUSE_CTL_GROUP.get w
      let k := 16 * g + F.DBG_FUSE_CTL_WORD.get w
      (F.DBG_FUSE_CTL_OP.get w = 1 → Completes (.stage w) s (fun t => mget 0 t.sec.staged k = s.fg F.DBG_FUSE_DATA_DATA 0
        ∧ t.sec.fuse = s.sec.fuse ∧ t.fg F.DBG_FUSE_CTL_RESULT 0 = 1 ∧ noted s t [.DBG_FUSE_CTL]))
      ∧ (∀ d, F.DBG_FUSE_CTL_OP.get w = 2 → s.fuseLock g = false → s.sec.staged = [(k, d)] → Completes (.burn w true) s (fun t =>
        mget 0 t.sec.fuse k = d ∧ t.sec.staged = [] ∧ t.fuseLock g = true ∧ t.fg F.DBG_FUSE_CTL_RESULT 0 = 1
          ∧ (∀ q, q ≠ k → mget 0 t.sec.fuse q = mget 0 s.sec.fuse q) ∧ noted s t [.DBG_FUSE_CTL, .SEC_STATE]))
      ∧ (F.DBG_FUSE_CTL_OP.get w = 2 → s.fuseLock g = true → ∀ ok, Completes (.burn w ok) s (fun t => t.sec = s.sec
        ∧ t.fg F.DBG_FUSE_CTL_RESULT 0 = 2)))
  ∧ (∀ a s o, s.dead = false → a.write = false → a.addr = 0x10000000 + o → o % 4 = 0 → o < 0x40000 → s.fb F.SEC_REMAP_REMAP 0 = false →
      (s.dbgAt ≠ 0 → Completes (.dbgAccess a) s (fun t => t.sec.data = BitVec.ofNat 32 (memWord (s.tcm a.pair) o 4) ∧ t.regs = s.regs))
      ∧ (s.dbgAt = 0 → Completes (.dbgAccess a) s (fun t => t.sec.data = 0 ∧ t.fb F.DBG_STAT_DENIED 0 = true)))
  ∧ (∀ a s o, s.dead = false → a.write = true → a.addr = 0x40000000 + o → o % 4 = 0 → o < 0x40000000 →
      a.base * 2 ^ 30 + o < 0x1C0000000 → s.integ.errs = [] →
      (s.dbgAt = 3 → Completes (.dbgAccess a) s (fun t => t.regs = s.regs ∧ ∀ x, memByte t.integ.mem x =
        if a.base * 2 ^ 30 + o ≤ x ∧ x < a.base * 2 ^ 30 + o + 4 then (leBytes 4 a.data).getD (x - (a.base * 2 ^ 30 + o)) 0
        else memByte s.integ.mem x))
      ∧ (s.dbgAt < 3 → Completes (.dbgAccess a) s (fun t => t.integ = s.integ ∧ t.fb F.DBG_STAT_DENIED 0 = true)))
  ∧ (∀ off v dt s r i, s.dead = false → off % 4 = 0 → regAt off = some (r, i) → plain r → v < 2 ^ 32 →
      (2 ≤ s.dbgAt → Completes (.debugWrite off v dt) s (fun t => ∃ e, t.dueNext = s.dueNext ++ [e] ∧ e.code = Code.DEBUG_WRITE
        ∧ e.cmd.a = off ∧ e.cmd.b = v ∧ e.place = s.time.next ∧ e.gen = nextGen (s.fg F.HIF_CFG_GEN_GEN 0)
        ∧ RegsKept [.HIF_CFG_GEN] s t))
      ∧ (s.dbgAt < 2 → Completes (.debugWrite off v dt) s (fun t => t.dueNext = s.dueNext ∧ t.fb F.DBG_STAT_DENIED 0 = true)))
  ∧ (∀ e s r i, e.code = Code.DEBUG_WRITE → regAt e.cmd.a = some (r, i) → plain r → full r e.cmd.b → e.cmd.b < 2 ^ 32 →
      RegsKept [r, .RW_PENDING] s (applyEntry e s) ∧ ∀ k, k < 32 → (accMask r (· == .rw)).testBit k = true →
        ((applyEntry e s).rr r i).getLsbD k = e.cmd.b.testBit k)
  ∧ ∀ i s, let off := s.pwr = 3
      (i ≤ 1 ∨ (¬ off ∧ (i = 2 ∨ i = 6 ∨ (s.ret.porLow = true ∧ (i = 4 ∨ ((i = 3 ∨ i = 5) ∧ s.fb F.SEC_STATE_SEALED 0 = false))))) →
        Completes (.boundaryScanInstruction i) s (fun t => t = { s with sec := { s.sec with tap := i, data := if i = 1 then idcode else s.sec.data } }))
      ∧ (i ≤ 6 → ¬ (i ≤ 1 ∨ (¬ off ∧ (i = 2 ∨ i = 6 ∨ (s.ret.porLow = true ∧ (i = 4 ∨ ((i = 3 ∨ i = 5)
          ∧ s.fb F.SEC_STATE_SEALED 0 = false)))))) → Completes (.boundaryScanInstruction i) s (fun t => t.sec.tap = 0
        ∧ t.fb F.DBG_STAT_DENIED 0 = true ∧ RegsKept [.DBG_STAT] s t))
      ∧ (6 < i → Completes (.boundaryScanInstruction i) s (fun t => t = { s with sec := { s.sec with tap := 0 } }))
end

