-- ==== Sys2Proof/Laws/State.lean ====
section
/-! SUPPORT. The laws of sparse collections, memories, register fields and the register file, and one lemma per field per
update of the state. -/

namespace Sys2Proof.Machine

/-! ### Sparse collections -/

theorem mget_mdel_same {α : Type} (d : α) (m : AMap α) (q : Nat) : mget d (mdel m q) q = d := by
  induction m with
  | nil => rfl
  | cons p t ih =>
    obtain ⟨k, w⟩ := p
    by_cases h : q = k
    · simp [mdel, h]; simpa [h] using ih
    · simp [mdel, mget, h, ih]

theorem mget_mdel_ne {α : Type} (d : α) (m : AMap α) {q r : Nat} (h : r ≠ q) : mget d (mdel m q) r = mget d m r := by
  induction m with
  | nil => rfl
  | cons p t ih =>
    obtain ⟨k, w⟩ := p
    by_cases hk : q = k
    · subst hk; simp [mdel, mget, h, ih]
    · simp [mdel, mget, hk, ih]

theorem mget_mins_same {α : Type} (d : α) (m : AMap α) (q : Nat) (v : α) : mget d (mins m q v) q = v := by
  induction m with
  | nil => simp [mins, mget]
  | cons p t ih =>
    obtain ⟨k, w⟩ := p
    by_cases h1 : q < k
    · simp [mins, mget, h1]
    · by_cases h2 : q = k
      · simp [mins, mget, h2]
      · simp [mins, mget, h1, h2, ih]

theorem mget_mins_ne {α : Type} (d : α) (m : AMap α) {q r : Nat} (v : α) (h : r ≠ q) :
    mget d (mins m q v) r = mget d m r := by
  induction m with
  | nil => simp [mins, mget, h]
  | cons p t ih =>
    obtain ⟨k, w⟩ := p
    by_cases h1 : q < k
    · simp [mins, mget, h1, h]
    · by_cases h2 : q = k
      · subst h2; simp [mins, mget, h]
      · simp [mins, mget, h1, h2, ih]

/-- Reading an entry gives what was last written there. -/
@[simp] theorem mget_mput_same {α : Type} [DecidableEq α] (d : α) (m : AMap α) (q : Nat) (v : α) :
    mget d (mput d m q v) q = v := by
  unfold mput mset
  by_cases h : v = d
  · simp [h, mget_mdel_same]
  · simp [h, mget_mins_same]

/-- Writing an entry leaves every other one, whatever the default it is read with. -/
theorem mget_mput_ne {α : Type} [DecidableEq α] (d' d : α) (m : AMap α) {q r : Nat} (v : α) (h : r ≠ q) :
    mget d' (mput d m q v) r = mget d' m r := by
  unfold mput mset
  by_cases hv : v = d
  · simp [hv, mget_mdel_ne d' m h]
  · simp [hv, mget_mins_ne d' m v h]

theorem mget_mput {α : Type} [DecidableEq α] (d : α) (m : AMap α) (q r : Nat) (v : α) :
    mget d (mput d m q v) r = if r = q then v else mget d m r := by
  by_cases h : r = q
  · simp [h]
  · simp [h, mget_mput_ne]

@[simp] theorem mget_mset_false {α : Type} (d : α) (m : AMap α) (q : Nat) (v : α) :
    mget d (mset false m q v) q = v := by simp [mset, mget_mins_same]

theorem mget_mset_false_ne {α : Type} (d : α) (m : AMap α) {q r : Nat} (v : α) (h : r ≠ q) :
    mget d (mset false m q v) r = mget d m r := by simp [mset, mget_mins_ne d m v h]

/-- The tail of a canonical collection is canonical. -/
theorem mwf_tail {α : Type} [DecidableEq α] {d : Nat → α} {p : Nat × α} {t : AMap α} (h : mwf d (p :: t) = true) :
    mwf d t = true := by
  cases t with
  | nil => rfl
  | cons q t => obtain ⟨k, v⟩ := p; obtain ⟨k', v'⟩ := q; simp [mwf] at h; exact h.2

theorem mwf_cons {α : Type} [DecidableEq α] {d : Nat → α} {k : Nat} {v : α} {t : AMap α} :
    mwf d ((k, v) :: t) = true ↔ v ≠ d k ∧ (∀ p ∈ t, k < p.1) ∧ mwf d t = true := by
  induction t generalizing k v with
  | nil => simp [mwf]
  | cons q t ih =>
    obtain ⟨k', v'⟩ := q
    constructor
    · intro h
      simp only [mwf, Bool.and_eq_true, decide_eq_true_eq] at h
      obtain ⟨⟨h1, h2⟩, h3⟩ := h
      refine ⟨h1, ?_, h3⟩
      intro p hp
      rcases List.mem_cons.1 hp with rfl | hp
      · exact h2
      · exact Nat.lt_trans h2 ((ih.1 h3).2.1 p hp)
    · rintro ⟨h1, h2, h3⟩
      simp only [mwf, Bool.and_eq_true, decide_eq_true_eq]
      exact ⟨⟨h1, h2 (k', v') (by simp)⟩, h3⟩

theorem mem_mdel {α : Type} {m : AMap α} {q : Nat} {p : Nat × α} (h : p ∈ mdel m q) : p ∈ m := by
  induction m with
  | nil => exact h
  | cons x t ih =>
    obtain ⟨k, w⟩ := x
    by_cases hk : q = k
    · simp only [mdel, hk, if_true] at h
      exact List.mem_cons_of_mem _ (ih (by simpa [hk] using h))
    · simp only [mdel, hk, if_false] at h
      rcases List.mem_cons.1 h with rfl | h
      · exact List.mem_cons_self
      · exact List.mem_cons_of_mem _ (ih h)

theorem mem_mins {α : Type} {m : AMap α} {q : Nat} {v : α} {p : Nat × α} (h : p ∈ mins m q v) : p = (q, v) ∨ p ∈ m := by
  induction m with
  | nil => simpa [mins] using h
  | cons x t ih =>
    obtain ⟨k, w⟩ := x
    simp only [mins] at h
    split at h
    · simpa using h
    · split at h
      · rcases List.mem_cons.1 h with rfl | h
        · exact .inl rfl
        · exact .inr (List.mem_cons_of_mem _ h)
      · rcases List.mem_cons.1 h with rfl | h
        · exact .inr List.mem_cons_self
        · exact (ih h).imp_right (List.mem_cons_of_mem _)

theorem mwf_mdel {α : Type} [DecidableEq α] {d : Nat → α} {m : AMap α} (q : Nat) (h : mwf d m = true) :
    mwf d (mdel m q) = true := by
  induction m with
  | nil => rfl
  | cons x t ih =>
    obtain ⟨k, w⟩ := x
    have h' := mwf_cons.1 h
    by_cases hk : q = k
    · simp only [mdel, hk, if_true]; simpa [hk] using ih h'.2.2
    · simp only [mdel, hk, if_false]
      exact mwf_cons.2 ⟨h'.1, fun p hp => h'.2.1 p (mem_mdel hp), ih h'.2.2⟩

theorem mwf_mins {α : Type} [DecidableEq α] {d : Nat → α} {m : AMap α} {q : Nat} {v : α} (h : mwf d m = true)
    (hv : v ≠ d q) : mwf d (mins m q v) = true := by
  induction m with
  | nil => simp [mins, mwf, hv]
  | cons x t ih =>
    obtain ⟨k, w⟩ := x
    have h' := mwf_cons.1 h
    simp only [mins]
    split
    · next hlt =>
      refine mwf_cons.2 ⟨hv, ?_, h⟩
      intro p hp
      rcases List.mem_cons.1 hp with rfl | hp
      · exact hlt
      · exact Nat.lt_trans hlt (h'.2.1 p hp)
    · split
      · next heq => subst heq; exact mwf_cons.2 ⟨hv, h'.2.1, h'.2.2⟩
      · next hlt hne =>
        refine mwf_cons.2 ⟨h'.1, ?_, ih h'.2.2⟩
        intro p hp
        rcases mem_mins hp with rfl | hp
        · simp; omega
        · exact h'.2.1 p hp

/-- A write keeps the canonical form. -/
theorem mwf_mput {α : Type} [DecidableEq α] {d : Nat → α} {m : AMap α} (q : Nat) (v : α) (h : mwf d m = true) :
    mwf d (mput (d q) m q v) = true := by
  unfold mput mset
  by_cases hv : v = d q
  · simpa [hv] using mwf_mdel q h
  · simpa [hv] using mwf_mins h hv

/-! ### Byte memories -/

@[simp] theorem memByte_memPut_same (m : Mem) (a : Nat) (v : Byte) : memByte (memPut m a v) a = v := by
  simp [memByte, memPut]

theorem memByte_memPut_ne (m : Mem) {a b : Nat} (v : Byte) (h : b ≠ a) : memByte (memPut m a v) b = memByte m b := by
  simp [memByte, memPut, mget_mput_ne _ _ _ _ h]

/-- Writing one byte keeps the canonical form of a memory. -/
theorem memPut_wf {m : Mem} (a : Nat) (v : Byte) (h : Memory.wf m = true) : Memory.wf (memPut m a v) = true :=
  mwf_mput (d := fun _ => (0 : Byte)) a v h

/-- Writing bytes keeps the canonical form of a memory. -/
theorem memWrite_wf {m : Mem} (a : Nat) (l : List Byte) (h : Memory.wf m = true) : Memory.wf (memWrite m a l) = true := by
  induction l generalizing m a with
  | nil => exact h
  | cons b t ih => exact ih (a + 1) (memPut_wf a b h)

/-- Writing bytes leaves every byte below them. -/
theorem memByte_memWrite_below {m : Mem} {a x : Nat} (l : List Byte) (h : x < a) :
    memByte (memWrite m a l) x = memByte m x := by
  induction l generalizing m a with
  | nil => rfl
  | cons b t ih => rw [memWrite, ih (by omega), memByte_memPut_ne _ _ (by omega)]

/-- What a write of bytes leaves at an address: the byte given for it, or what was there. -/
theorem memByte_memWrite (m : Mem) (a : Nat) (l : List Byte) (x : Nat) :
    memByte (memWrite m a l) x = if a ≤ x ∧ x < a + l.length then l.getD (x - a) 0 else memByte m x := by
  induction l generalizing m a with
  | nil => simp [memWrite]
  | cons b t ih =>
    rw [memWrite, ih]
    by_cases h : x = a
    · subst h; simp
    · rw [memByte_memPut_ne _ _ h]
      by_cases h2 : a ≤ x ∧ x < a + (b :: t).length
      · have h3 : a + 1 ≤ x ∧ x < a + 1 + t.length := by simp at h2; omega
        rw [if_pos h3, if_pos h2, show x - a = (x - (a + 1)) + 1 by omega]; simp
      · have h3 : ¬ (a + 1 ≤ x ∧ x < a + 1 + t.length) := by simp at h2; omega
        rw [if_neg h3, if_neg h2]

/-! ### Fields of a word -/

theorem Fld.get_put_same (f : Fld) (w v : Nat) (h : f.lo ≤ f.hi) : f.get (f.put w v) = v % 2 ^ (f.hi + 1 - f.lo) := by
  unfold Fld.get Fld.put
  have hp : 0 < 2 ^ f.lo := Nat.two_pow_pos _
  have e : 2 ^ (f.hi + 1) = 2 ^ f.lo * 2 ^ (f.hi + 1 - f.lo) := by rw [← Nat.pow_add]; congr 1; omega
  have h1 : (w / 2 ^ (f.hi + 1) * 2 ^ (f.hi + 1) + v % 2 ^ (f.hi + 1 - f.lo) * 2 ^ f.lo + w % 2 ^ f.lo) / 2 ^ f.lo
      = w / 2 ^ (f.hi + 1) * 2 ^ (f.hi + 1 - f.lo) + v % 2 ^ (f.hi + 1 - f.lo) := by
    rw [e]
    have : w / (2 ^ f.lo * 2 ^ (f.hi + 1 - f.lo)) * (2 ^ f.lo * 2 ^ (f.hi + 1 - f.lo)) + v % 2 ^ (f.hi + 1 - f.lo) * 2 ^ f.lo
        + w % 2 ^ f.lo = w % 2 ^ f.lo + 2 ^ f.lo * (w / (2 ^ f.lo * 2 ^ (f.hi + 1 - f.lo)) * 2 ^ (f.hi + 1 - f.lo)
          + v % 2 ^ (f.hi + 1 - f.lo)) := by ring
    rw [this, Nat.add_mul_div_left _ _ hp, Nat.div_eq_of_lt (Nat.mod_lt _ hp), Nat.zero_add]
  rw [h1, Nat.add_comm, Nat.add_mul_mod_self_right, Nat.mod_mod]

/-- A field put below another leaves it. -/
theorem Fld.get_put_above (f g : Fld) (w v : Nat) (hf : f.lo ≤ f.hi) (h : f.hi < g.lo) : g.get (f.put w v) = g.get w := by
  unfold Fld.get Fld.put
  congr 1
  have e : 2 ^ g.lo = 2 ^ (f.hi + 1) * 2 ^ (g.lo - (f.hi + 1)) := by rw [← Nat.pow_add]; congr 1; omega
  rw [e, ← Nat.div_div_eq_div_mul, ← Nat.div_div_eq_div_mul]
  congr 1
  have hp : 0 < 2 ^ (f.hi + 1) := Nat.two_pow_pos _
  have hlo : 0 < 2 ^ f.lo := Nat.two_pow_pos _
  have e2 : 2 ^ (f.hi + 1) = 2 ^ (f.hi + 1 - f.lo) * 2 ^ f.lo := by rw [← Nat.pow_add]; congr 1; omega
  have hlt : v % 2 ^ (f.hi + 1 - f.lo) * 2 ^ f.lo + w % 2 ^ f.lo < 2 ^ (f.hi + 1) := by
    have a1 := Nat.mod_lt v (Nat.two_pow_pos (f.hi + 1 - f.lo))
    have a2 := Nat.mod_lt w hlo
    calc v % 2 ^ (f.hi + 1 - f.lo) * 2 ^ f.lo + w % 2 ^ f.lo
        < v % 2 ^ (f.hi + 1 - f.lo) * 2 ^ f.lo + 2 ^ f.lo := by omega
      _ = (v % 2 ^ (f.hi + 1 - f.lo) + 1) * 2 ^ f.lo := by ring
      _ ≤ 2 ^ (f.hi + 1 - f.lo) * 2 ^ f.lo := Nat.mul_le_mul_right _ a1
      _ = 2 ^ (f.hi + 1) := e2.symm
  rw [Nat.add_assoc, Nat.add_comm, Nat.add_mul_div_right _ _ hp, Nat.div_eq_of_lt hlt, Nat.zero_add]

/-- A field put above another leaves it. -/
theorem Fld.get_put_below (f g : Fld) (w v : Nat) (hg : g.lo ≤ g.hi) (hf : f.lo ≤ f.hi) (h : g.hi < f.lo) :
    g.get (f.put w v) = g.get w := by
  unfold Fld.get Fld.put
  have key : ∀ a b : Nat, a % 2 ^ f.lo = b % 2 ^ f.lo → a / 2 ^ g.lo % 2 ^ (g.hi + 1 - g.lo) = b / 2 ^ g.lo % 2 ^ (g.hi + 1 - g.lo) := by
    intro a b hab
    have e : 2 ^ (g.hi + 1) = 2 ^ g.lo * 2 ^ (g.hi + 1 - g.lo) := by rw [← Nat.pow_add]; congr 1; omega
    rw [← Nat.mod_mul_right_div_self, ← Nat.mod_mul_right_div_self, ← e]
    have hd : 2 ^ (g.hi + 1) ∣ 2 ^ f.lo := Nat.pow_dvd_pow _ (by omega)
    rw [← Nat.mod_mod_of_dvd a hd, ← Nat.mod_mod_of_dvd b hd, hab]
  apply key
  have e : 2 ^ (f.hi + 1) = 2 ^ f.lo * 2 ^ (f.hi + 1 - f.lo) := by rw [← Nat.pow_add]; congr 1; omega
  have : w / 2 ^ (f.hi + 1) * 2 ^ (f.hi + 1) + v % 2 ^ (f.hi + 1 - f.lo) * 2 ^ f.lo + w % 2 ^ f.lo
      = w % 2 ^ f.lo + 2 ^ f.lo * (w / 2 ^ (f.hi + 1) * 2 ^ (f.hi + 1 - f.lo) + v % 2 ^ (f.hi + 1 - f.lo)) := by
    rw [e]; ring
  rw [this, Nat.add_mul_mod_self_left, Nat.mod_mod]

theorem Fld.put_lt (f : Fld) (w v : Nat) (hf : f.lo ≤ f.hi) (h : f.hi < 32) (hw : w < 2 ^ 32) : f.put w v < 2 ^ 32 := by
  unfold Fld.put
  have hlo : 0 < 2 ^ f.lo := Nat.two_pow_pos _
  have e2 : 2 ^ (f.hi + 1) = 2 ^ (f.hi + 1 - f.lo) * 2 ^ f.lo := by rw [← Nat.pow_add]; congr 1; omega
  have e3 : 2 ^ 32 = 2 ^ (31 - f.hi) * 2 ^ (f.hi + 1) := by rw [← Nat.pow_add]; congr 1; omega
  have hlt : v % 2 ^ (f.hi + 1 - f.lo) * 2 ^ f.lo + w % 2 ^ f.lo < 2 ^ (f.hi + 1) := by
    have a1 := Nat.mod_lt v (Nat.two_pow_pos (f.hi + 1 - f.lo))
    have a2 := Nat.mod_lt w hlo
    calc v % 2 ^ (f.hi + 1 - f.lo) * 2 ^ f.lo + w % 2 ^ f.lo
        < v % 2 ^ (f.hi + 1 - f.lo) * 2 ^ f.lo + 2 ^ f.lo := by omega
      _ = (v % 2 ^ (f.hi + 1 - f.lo) + 1) * 2 ^ f.lo := by ring
      _ ≤ 2 ^ (f.hi + 1 - f.lo) * 2 ^ f.lo := Nat.mul_le_mul_right _ a1
      _ = 2 ^ (f.hi + 1) := e2.symm
  have hq : w / 2 ^ (f.hi + 1) + 1 ≤ 2 ^ (31 - f.hi) := by
    apply Nat.succ_le_of_lt
    apply Nat.div_lt_of_lt_mul
    rw [Nat.mul_comm, ← e3]; exact hw
  calc w / 2 ^ (f.hi + 1) * 2 ^ (f.hi + 1) + v % 2 ^ (f.hi + 1 - f.lo) * 2 ^ f.lo + w % 2 ^ f.lo
      < w / 2 ^ (f.hi + 1) * 2 ^ (f.hi + 1) + 2 ^ (f.hi + 1) := by omega
    _ = (w / 2 ^ (f.hi + 1) + 1) * 2 ^ (f.hi + 1) := by ring
    _ ≤ 2 ^ (31 - f.hi) * 2 ^ (f.hi + 1) := Nat.mul_le_mul_right _ hq
    _ = 2 ^ 32 := e3.symm

/-! ### The register file -/

/-- Register types differ in their numbers. -/
theorem ctorIdx_inj {r r' : RegId} (h : r.ctorIdx = r'.ctorIdx) : r = r' := by
  have hr : ∀ x : RegId, RegId.ofNat x.ctorIdx = x := by intro x; cases x <;> rfl
  rw [← hr r, ← hr r', h]

/-- Keys differ where the types or the instances differ. -/
theorem regKey_inj {r r' : RegId} {i i' : Nat} (hi : i < 2048) (hi' : i' < 2048) (h : regKey r i = regKey r' i') :
    r = r' ∧ i = i' := by
  unfold regKey at h
  exact ⟨ctorIdx_inj (by omega), by omega⟩

@[simp] theorem rr_rw_same (s : State) (r : RegId) (i : Nat) (w : Word) : (s.rw r i w).rr r i = w := by
  simp [State.rr, State.rw]

theorem rr_rw_ne (s : State) {r r' : RegId} {i i' : Nat} (w : Word) (h : regKey r' i' ≠ regKey r i) :
    (s.rw r i w).rr r' i' = s.rr r' i' := by
  simp [State.rr, State.rw, mget_mput_ne _ _ _ _ h]

/-- Writing one register type leaves every other (instances below 2,048). -/
theorem rr_rw_type (s : State) {r r' : RegId} {i i' : Nat} (w : Word) (h : r' ≠ r) (hi : i < 2048) (hi' : i' < 2048) :
    (s.rw r i w).rr r' i' = s.rr r' i' :=
  rr_rw_ne s w (fun e => h (regKey_inj hi' hi e).1)

/-- What a register reads after a register write. -/
theorem rr_rw (s : State) (r r' : RegId) (i i' : Nat) (w : Word) (hi : i < 2048) (hi' : i' < 2048) :
    (s.rw r i w).rr r' i' = if r' = r ∧ i' = i then w else s.rr r' i' := by
  by_cases h : r' = r ∧ i' = i
  · obtain ⟨rfl, rfl⟩ := h; simp
  · rw [if_neg h]
    exact rr_rw_ne s w (fun e => h (regKey_inj hi' hi e))

/-- The register file is what registers are read from. -/
theorem rr_of_regs {s t : State} (h : t.regs = s.regs) (r : RegId) (i : Nat) : t.rr r i = s.rr r i := by
  simp [State.rr, h]

theorem fg_of_regs {s t : State} (h : t.regs = s.regs) (f : Fld) (i : Nat) : t.fg f i = s.fg f i := by
  simp [State.fg, rr_of_regs h]

theorem fg_fs_same (s : State) (f : Fld) (i v : Nat) (hl : f.lo ≤ f.hi) (hh : f.hi < 32) :
    (s.fs f i v).fg f i = v % 2 ^ (f.hi + 1 - f.lo) := by
  unfold State.fs State.fg
  rw [rr_rw_same, BitVec.toNat_ofNat, Nat.mod_eq_of_lt (Fld.put_lt f _ _ hl hh (s.rr f.reg i).isLt), Fld.get_put_same f _ _ hl]

/-- Fields that share no bit. -/
def Fld.apart (f g : Fld) : Bool := decide (f.hi < g.lo) || decide (g.hi < f.lo)

theorem fg_fs_apart (s : State) (f g : Fld) (i v : Nat) (hr : g.reg = f.reg) (hl : f.lo ≤ f.hi) (hh : f.hi < 32)
    (gl : g.lo ≤ g.hi) (h : f.apart g = true) : (s.fs f i v).fg g i = s.fg g i := by
  unfold State.fs State.fg
  rw [hr, rr_rw_same, BitVec.toNat_ofNat, Nat.mod_eq_of_lt (Fld.put_lt f _ _ hl hh (s.rr f.reg i).isLt)]
  simp only [Fld.apart, Bool.or_eq_true, decide_eq_true_eq] at h
  rcases h with h | h
  · exact Fld.get_put_above f g _ _ hl h
  · exact Fld.get_put_below f g _ _ gl hl h

theorem fg_fs_other (s : State) (f g : Fld) (i j v : Nat) (hi : i < 2048) (hj : j < 2048) (h : g.reg ≠ f.reg ∨ j ≠ i) :
    (s.fs f i v).fg g j = s.fg g j := by
  unfold State.fs State.fg
  rw [rr_rw_ne]
  intro e
  obtain ⟨h1, h2⟩ := regKey_inj hj hi e
  rcases h with h | h
  · exact h h1
  · exact h h2

/-- What a field reads after a field write: for fields of the map, every side condition is decidable. -/
theorem fg_fs (s : State) (f g : Fld) (i j v : Nat) (hi : i < 2048) (hj : j < 2048) (hl : f.lo ≤ f.hi) (hh : f.hi < 32)
    (gl : g.lo ≤ g.hi) (h : g = f ∨ g.reg ≠ f.reg ∨ f.apart g = true) :
    (s.fs f i v).fg g j = if g = f ∧ j = i then v % 2 ^ (f.hi + 1 - f.lo) else s.fg g j := by
  by_cases e : g = f ∧ j = i
  · obtain ⟨rfl, rfl⟩ := e; rw [if_pos ⟨rfl, rfl⟩]; exact fg_fs_same s g j v hl hh
  · rw [if_neg e]
    by_cases hj2 : j = i
    · subst hj2
      rcases h with h | h | h
      · exact absurd ⟨h, rfl⟩ e
      · exact fg_fs_other s f g j j v hi hj (.inl h)
      · by_cases hr : g.reg = f.reg
        · exact fg_fs_apart s f g j v hr hl hh gl h
        · exact fg_fs_other s f g j j v hi hj (.inl hr)
    · exact fg_fs_other s f g i j v hi hj (.inr hj2)

theorem fg_rw_other (s : State) (r : RegId) (g : Fld) (i j : Nat) (w : Word) (hi : i < 2048) (hj : j < 2048)
    (h : g.reg ≠ r ∨ j ≠ i) : (s.rw r i w).fg g j = s.fg g j := by
  unfold State.fg
  rw [rr_rw_ne]
  intro e
  obtain ⟨h1, h2⟩ := regKey_inj hj hi e
  rcases h with h | h
  · exact h h1
  · exact h h2

theorem rr_fs_other (s : State) (f : Fld) (r : RegId) (i j v : Nat) (hi : i < 2048) (hj : j < 2048)
    (h : r ≠ f.reg ∨ j ≠ i) : (s.fs f i v).rr r j = s.rr r j := by
  unfold State.fs
  rw [rr_rw_ne]
  intro e
  obtain ⟨h1, h2⟩ := regKey_inj hj hi e
  rcases h with h | h
  · exact h h1
  · exact h h2

/-! ### One lemma per field of the state for the writes of the register file -/

@[simp] theorem rw_shadow (s : State) (r : RegId) (i : Nat) (w : Word) : (s.rw r i w).shadow = s.shadow := rfl
@[simp] theorem rw_armAt (s : State) (r : RegId) (i : Nat) (w : Word) : (s.rw r i w).armAt = s.armAt := rfl
@[simp] theorem rw_rwsWait (s : State) (r : RegId) (i : Nat) (w : Word) : (s.rw r i w).rwsWait = s.rwsWait := rfl
@[simp] theorem rw_free (s : State) (r : RegId) (i : Nat) (w : Word) : (s.rw r i w).free = s.free := rfl
@[simp] theorem rw_time (s : State) (r : RegId) (i : Nat) (w : Word) : (s.rw r i w).time = s.time := rfl
@[simp] theorem rw_sched (s : State) (r : RegId) (i : Nat) (w : Word) : (s.rw r i w).sched = s.sched := rfl
@[simp] theorem rw_dueNext (s : State) (r : RegId) (i : Nat) (w : Word) : (s.rw r i w).dueNext = s.dueNext := rfl
@[simp] theorem rw_wh (s : State) (r : RegId) (i : Nat) (w : Word) : (s.rw r i w).wh = s.wh := rfl
@[simp] theorem rw_hif (s : State) (r : RegId) (i : Nat) (w : Word) : (s.rw r i w).hif = s.hif := rfl
@[simp] theorem rw_ret (s : State) (r : RegId) (i : Nat) (w : Word) : (s.rw r i w).ret = s.ret := rfl
@[simp] theorem rw_tw (s : State) (r : RegId) (i : Nat) (w : Word) : (s.rw r i w).tw = s.tw := rfl
@[simp] theorem rw_smp (s : State) (r : RegId) (i : Nat) (w : Word) : (s.rw r i w).smp = s.smp := rfl
@[simp] theorem rw_sec (s : State) (r : RegId) (i : Nat) (w : Word) : (s.rw r i w).sec = s.sec := rfl
@[simp] theorem rw_aud (s : State) (r : RegId) (i : Nat) (w : Word) : (s.rw r i w).aud = s.aud := rfl
@[simp] theorem rw_sp (s : State) (r : RegId) (i : Nat) (w : Word) : (s.rw r i w).sp = s.sp := rfl
@[simp] theorem rw_eng (s : State) (r : RegId) (i : Nat) (w : Word) : (s.rw r i w).eng = s.eng := rfl
@[simp] theorem rw_pmp (s : State) (r : RegId) (i : Nat) (w : Word) : (s.rw r i w).pmp = s.pmp := rfl
@[simp] theorem rw_drv (s : State) (r : RegId) (i : Nat) (w : Word) : (s.rw r i w).drv = s.drv := rfl
@[simp] theorem rw_ap (s : State) (r : RegId) (i : Nat) (w : Word) : (s.rw r i w).ap = s.ap := rfl
@[simp] theorem rw_net (s : State) (r : RegId) (i : Nat) (w : Word) : (s.rw r i w).net = s.net := rfl
@[simp] theorem rw_cen (s : State) (r : RegId) (i : Nat) (w : Word) : (s.rw r i w).cen = s.cen := rfl
@[simp] theorem rw_integ (s : State) (r : RegId) (i : Nat) (w : Word) : (s.rw r i w).integ = s.integ := rfl
@[simp] theorem rw_detq (s : State) (r : RegId) (i : Nat) (w : Word) : (s.rw r i w).detq = s.detq := rfl
@[simp] theorem rw_pending (s : State) (r : RegId) (i : Nat) (w : Word) : (s.rw r i w).pending = s.pending := rfl
@[simp] theorem fs_shadow (s : State) (f : Fld) (i v : Nat) : (s.fs f i v).shadow = s.shadow := rfl
@[simp] theorem fs_armAt (s : State) (f : Fld) (i v : Nat) : (s.fs f i v).armAt = s.armAt := rfl
@[simp] theorem fs_rwsWait (s : State) (f : Fld) (i v : Nat) : (s.fs f i v).rwsWait = s.rwsWait := rfl
@[simp] theorem fs_free (s : State) (f : Fld) (i v : Nat) : (s.fs f i v).free = s.free := rfl
@[simp] theorem fs_time (s : State) (f : Fld) (i v : Nat) : (s.fs f i v).time = s.time := rfl
@[simp] theorem fs_sched (s : State) (f : Fld) (i v : Nat) : (s.fs f i v).sched = s.sched := rfl
@[simp] theorem fs_dueNext (s : State) (f : Fld) (i v : Nat) : (s.fs f i v).dueNext = s.dueNext := rfl
@[simp] theorem fs_wh (s : State) (f : Fld) (i v : Nat) : (s.fs f i v).wh = s.wh := rfl
@[simp] theorem fs_hif (s : State) (f : Fld) (i v : Nat) : (s.fs f i v).hif = s.hif := rfl
@[simp] theorem fs_ret (s : State) (f : Fld) (i v : Nat) : (s.fs f i v).ret = s.ret := rfl
@[simp] theorem fs_tw (s : State) (f : Fld) (i v : Nat) : (s.fs f i v).tw = s.tw := rfl
@[simp] theorem fs_smp (s : State) (f : Fld) (i v : Nat) : (s.fs f i v).smp = s.smp := rfl
@[simp] theorem fs_sec (s : State) (f : Fld) (i v : Nat) : (s.fs f i v).sec = s.sec := rfl
@[simp] theorem fs_aud (s : State) (f : Fld) (i v : Nat) : (s.fs f i v).aud = s.aud := rfl
@[simp] theorem fs_sp (s : State) (f : Fld) (i v : Nat) : (s.fs f i v).sp = s.sp := rfl
@[simp] theorem fs_eng (s : State) (f : Fld) (i v : Nat) : (s.fs f i v).eng = s.eng := rfl
@[simp] theorem fs_pmp (s : State) (f : Fld) (i v : Nat) : (s.fs f i v).pmp = s.pmp := rfl
@[simp] theorem fs_drv (s : State) (f : Fld) (i v : Nat) : (s.fs f i v).drv = s.drv := rfl
@[simp] theorem fs_ap (s : State) (f : Fld) (i v : Nat) : (s.fs f i v).ap = s.ap := rfl
@[simp] theorem fs_net (s : State) (f : Fld) (i v : Nat) : (s.fs f i v).net = s.net := rfl
@[simp] theorem fs_cen (s : State) (f : Fld) (i v : Nat) : (s.fs f i v).cen = s.cen := rfl
@[simp] theorem fs_integ (s : State) (f : Fld) (i v : Nat) : (s.fs f i v).integ = s.integ := rfl
@[simp] theorem fs_detq (s : State) (f : Fld) (i v : Nat) : (s.fs f i v).detq = s.detq := rfl
@[simp] theorem fs_pending (s : State) (f : Fld) (i v : Nat) : (s.fs f i v).pending = s.pending := rfl
@[simp] theorem fsI_shadow (s : State) (f : Fld) (i : Nat) (v : Int) : (s.fsI f i v).shadow = s.shadow := rfl
@[simp] theorem fsI_armAt (s : State) (f : Fld) (i : Nat) (v : Int) : (s.fsI f i v).armAt = s.armAt := rfl
@[simp] theorem fsI_rwsWait (s : State) (f : Fld) (i : Nat) (v : Int) : (s.fsI f i v).rwsWait = s.rwsWait := rfl
@[simp] theorem fsI_free (s : State) (f : Fld) (i : Nat) (v : Int) : (s.fsI f i v).free = s.free := rfl
@[simp] theorem fsI_time (s : State) (f : Fld) (i : Nat) (v : Int) : (s.fsI f i v).time = s.time := rfl
@[simp] theorem fsI_sched (s : State) (f : Fld) (i : Nat) (v : Int) : (s.fsI f i v).sched = s.sched := rfl
@[simp] theorem fsI_dueNext (s : State) (f : Fld) (i : Nat) (v : Int) : (s.fsI f i v).dueNext = s.dueNext := rfl
@[simp] theorem fsI_wh (s : State) (f : Fld) (i : Nat) (v : Int) : (s.fsI f i v).wh = s.wh := rfl
@[simp] theorem fsI_hif (s : State) (f : Fld) (i : Nat) (v : Int) : (s.fsI f i v).hif = s.hif := rfl
@[simp] theorem fsI_ret (s : State) (f : Fld) (i : Nat) (v : Int) : (s.fsI f i v).ret = s.ret := rfl
@[simp] theorem fsI_tw (s : State) (f : Fld) (i : Nat) (v : Int) : (s.fsI f i v).tw = s.tw := rfl
@[simp] theorem fsI_smp (s : State) (f : Fld) (i : Nat) (v : Int) : (s.fsI f i v).smp = s.smp := rfl
@[simp] theorem fsI_sec (s : State) (f : Fld) (i : Nat) (v : Int) : (s.fsI f i v).sec = s.sec := rfl
@[simp] theorem fsI_aud (s : State) (f : Fld) (i : Nat) (v : Int) : (s.fsI f i v).aud = s.aud := rfl
@[simp] theorem fsI_sp (s : State) (f : Fld) (i : Nat) (v : Int) : (s.fsI f i v).sp = s.sp := rfl
@[simp] theorem fsI_eng (s : State) (f : Fld) (i : Nat) (v : Int) : (s.fsI f i v).eng = s.eng := rfl
@[simp] theorem fsI_pmp (s : State) (f : Fld) (i : Nat) (v : Int) : (s.fsI f i v).pmp = s.pmp := rfl
@[simp] theorem fsI_drv (s : State) (f : Fld) (i : Nat) (v : Int) : (s.fsI f i v).drv = s.drv := rfl
@[simp] theorem fsI_ap (s : State) (f : Fld) (i : Nat) (v : Int) : (s.fsI f i v).ap = s.ap := rfl
@[simp] theorem fsI_net (s : State) (f : Fld) (i : Nat) (v : Int) : (s.fsI f i v).net = s.net := rfl
@[simp] theorem fsI_cen (s : State) (f : Fld) (i : Nat) (v : Int) : (s.fsI f i v).cen = s.cen := rfl
@[simp] theorem fsI_integ (s : State) (f : Fld) (i : Nat) (v : Int) : (s.fsI f i v).integ = s.integ := rfl
@[simp] theorem fsI_detq (s : State) (f : Fld) (i : Nat) (v : Int) : (s.fsI f i v).detq = s.detq := rfl
@[simp] theorem fsI_pending (s : State) (f : Fld) (i : Nat) (v : Int) : (s.fsI f i v).pending = s.pending := rfl
@[simp] theorem fadd_shadow (s : State) (f : Fld) (i n : Nat) : (s.fadd f i n).shadow = s.shadow := rfl
@[simp] theorem fadd_armAt (s : State) (f : Fld) (i n : Nat) : (s.fadd f i n).armAt = s.armAt := rfl
@[simp] theorem fadd_rwsWait (s : State) (f : Fld) (i n : Nat) : (s.fadd f i n).rwsWait = s.rwsWait := rfl
@[simp] theorem fadd_free (s : State) (f : Fld) (i n : Nat) : (s.fadd f i n).free = s.free := rfl
@[simp] theorem fadd_time (s : State) (f : Fld) (i n : Nat) : (s.fadd f i n).time = s.time := rfl
@[simp] theorem fadd_sched (s : State) (f : Fld) (i n : Nat) : (s.fadd f i n).sched = s.sched := rfl
@[simp] theorem fadd_dueNext (s : State) (f : Fld) (i n : Nat) : (s.fadd f i n).dueNext = s.dueNext := rfl
@[simp] theorem fadd_wh (s : State) (f : Fld) (i n : Nat) : (s.fadd f i n).wh = s.wh := rfl
@[simp] theorem fadd_hif (s : State) (f : Fld) (i n : Nat) : (s.fadd f i n).hif = s.hif := rfl
@[simp] theorem fadd_ret (s : State) (f : Fld) (i n : Nat) : (s.fadd f i n).ret = s.ret := rfl
@[simp] theorem fadd_tw (s : State) (f : Fld) (i n : Nat) : (s.fadd f i n).tw = s.tw := rfl
@[simp] theorem fadd_smp (s : State) (f : Fld) (i n : Nat) : (s.fadd f i n).smp = s.smp := rfl
@[simp] theorem fadd_sec (s : State) (f : Fld) (i n : Nat) : (s.fadd f i n).sec = s.sec := rfl
@[simp] theorem fadd_aud (s : State) (f : Fld) (i n : Nat) : (s.fadd f i n).aud = s.aud := rfl
@[simp] theorem fadd_sp (s : State) (f : Fld) (i n : Nat) : (s.fadd f i n).sp = s.sp := rfl
@[simp] theorem fadd_eng (s : State) (f : Fld) (i n : Nat) : (s.fadd f i n).eng = s.eng := rfl
@[simp] theorem fadd_pmp (s : State) (f : Fld) (i n : Nat) : (s.fadd f i n).pmp = s.pmp := rfl
@[simp] theorem fadd_drv (s : State) (f : Fld) (i n : Nat) : (s.fadd f i n).drv = s.drv := rfl
@[simp] theorem fadd_ap (s : State) (f : Fld) (i n : Nat) : (s.fadd f i n).ap = s.ap := rfl
@[simp] theorem fadd_net (s : State) (f : Fld) (i n : Nat) : (s.fadd f i n).net = s.net := rfl
@[simp] theorem fadd_cen (s : State) (f : Fld) (i n : Nat) : (s.fadd f i n).cen = s.cen := rfl
@[simp] theorem fadd_integ (s : State) (f : Fld) (i n : Nat) : (s.fadd f i n).integ = s.integ := rfl
@[simp] theorem fadd_detq (s : State) (f : Fld) (i n : Nat) : (s.fadd f i n).detq = s.detq := rfl
@[simp] theorem fadd_pending (s : State) (f : Fld) (i n : Nat) : (s.fadd f i n).pending = s.pending := rfl

end Sys2Proof.Machine
end

