-- ==== Sys2Proof/Laws/Cmds.lean ====
section
/-! SUPPORT. What the operations that every command shares leave unchanged: events, completions, the journal, the twin link,
placement and the end of a command. -/

namespace Sys2Proof.Machine

/-- Two states that agree on everything but the register file, the host interface, the Retention Well's records, the twin's
bookkeeping, the waiting completions of a census, the queued detector reports, Media Time and the lists of waiting events. -/
structure SameWorks (s t : State) : Prop where
  shadow  : t.shadow = s.shadow
  armAt   : t.armAt = s.armAt
  rwsWait : t.rwsWait = s.rwsWait
  wh      : t.wh = s.wh
  smp     : t.smp = s.smp
  sec     : t.sec = s.sec
  aud     : t.aud = s.aud
  sp      : t.sp = s.sp
  eng     : t.eng = s.eng
  pmp     : t.pmp = s.pmp
  drv     : t.drv = s.drv
  ap      : t.ap = s.ap
  net     : t.net = s.net
  integ   : t.integ = s.integ
  pending : t.pending = s.pending

theorem SameWorks.refl (s : State) : SameWorks s s := by constructor <;> rfl

theorem SameWorks.trans {s t u : State} (h : SameWorks s t) (k : SameWorks t u) : SameWorks s u := by
  obtain ⟨a1, a2, a3, a4, a5, a6, a7, a8, a9, a10, a11, a12, a13, a14, a15⟩ := h
  obtain ⟨b1, b2, b3, b4, b5, b6, b7, b8, b9, b10, b11, b12, b13, b14, b15⟩ := k
  constructor <;> simp only [*]

theorem rw_works (s : State) (r : RegId) (i : Nat) (w : Word) : SameWorks s (s.rw r i w) := by constructor <;> rfl
theorem fs_works (s : State) (f : Fld) (i v : Nat) : SameWorks s (s.fs f i v) := by constructor <;> rfl
theorem fadd_works (s : State) (f : Fld) (i n : Nat) : SameWorks s (s.fadd f i n) := by constructor <;> rfl
theorem hostWrite_works (s : State) (a : Nat) (b : List Byte) : SameWorks s (s.hostWrite a b) := by constructor <;> rfl
theorem det_works (s : State) (a b c d e : Nat) : SameWorks s (s.det a b c d e) := by constructor <;> rfl

theorem msi_works (s : State) (v : Nat) : SameWorks s (s.msi v) := by
  unfold State.msi; split <;> constructor <;> rfl

theorem hif_works (s : State) (h : HifSt) : SameWorks s { s with hif := h } := by constructor <;> rfl
theorem ret_works (s : State) (h : RwSt) : SameWorks s { s with ret := h } := by constructor <;> rfl
theorem tw_works (s : State) (h : TwSt) : SameWorks s { s with tw := h } := by constructor <;> rfl
theorem time_works (s : State) (h : TimeSt) : SameWorks s { s with time := h } := by constructor <;> rfl
theorem dueNext_works (s : State) (h : List Entry) : SameWorks s { s with dueNext := h } := by constructor <;> rfl
theorem sched_works (s : State) (h : List Entry) : SameWorks s { s with sched := h } := by constructor <;> rfl
theorem cen_works (s : State) (h : CenSt) : SameWorks s { s with cen := h } := by constructor <;> rfl

theorem signal_works (s : State) (r : Nat) : SameWorks s (s.signal r) := by
  unfold State.signal
  simp only
  split
  · exact (hif_works s _).trans (msi_works _ _)
  · exact hif_works s _

theorem ringReturn_works (s : State) (r : Nat) (b : List Byte) : SameWorks s (s.ringReturn r b) :=
  (((hostWrite_works s _ _).trans (hostWrite_works _ _ _)).trans (fs_works _ _ _ _)).trans (signal_works _ _)

theorem postAt_works (s : State) (m ty src : Nat) (p : List Byte) : SameWorks s (s.postAt m ty src p) := by
  unfold State.postAt
  simp only
  split
  · split
    · exact ((hif_works s _).trans (hif_works _ _)).trans (fadd_works _ _ _ _)
    · exact ((hif_works s _).trans (hif_works _ _)).trans (ringReturn_works _ _ _)
  · exact ((hif_works s _).trans (hif_works _ _)).trans (fadd_works _ _ _ _)

theorem post_works (s : State) (ty src : Nat) (p : List Byte) : SameWorks s (s.post ty src p) := postAt_works _ _ _ _ _

theorem cplWrite_works (s : State) (c : Cpl) : SameWorks s (s.cplWrite c) := by
  unfold State.cplWrite
  simp only
  split
  · exact hif_works s _
  · split
    · exact ((hif_works s _).trans (hif_works _ _)).trans (ringReturn_works _ _ _)
    · exact hif_works s _

theorem flushAwait_works (l : List Await) (b : List Nat) (s : State) : SameWorks s (flushAwait l b s).2 := by
  induction l generalizing b s with
  | nil => exact SameWorks.refl s
  | cons a t ih =>
    unfold flushAwait
    split
    · split
      · exact ih b s
      · exact (cplWrite_works s _).trans (ih b _)
    · exact ih _ s

theorem flushFinals_works (l : List Cpl) (s : State) : SameWorks s (flushFinals l s).2 := by
  induction l generalizing s with
  | nil => exact SameWorks.refl s
  | cons c t ih =>
    unfold flushFinals
    split
    · exact SameWorks.refl s
    · exact (cplWrite_works s c).trans (ih _)

theorem flush_works (s : State) : SameWorks s s.flush :=
  (((flushAwait_works _ _ s).trans (hif_works _ _)).trans (flushFinals_works _ _)).trans (hif_works _ _)

theorem cplFirst_works (s : State) (c : Cpl) : SameWorks s (s.cplFirst c) := by
  unfold State.cplFirst
  simp only
  split
  · exact ((hif_works s _).trans (hif_works _ _)).trans (flush_works _)
  · exact (hif_works s _).trans (cplWrite_works _ _)

theorem cplFinal_works (s : State) (c : Cpl) : SameWorks s (s.cplFinal c) := by
  unfold State.cplFinal
  simp only
  split
  · constructor <;> rfl
  · exact ((hif_works s _).trans (hif_works _ _)).trans (flush_works _)

theorem newGen_works (s : State) : SameWorks s s.newGen.2 := fs_works _ _ _ _
theorem journal_works (s : State) (e : JEntry) : SameWorks s (s.journal e) := hif_works _ _

theorem twSend_works (s : State) (ty : Nat) (both : Bool) (m : TwMsg) : SameWorks s (s.twSend ty both m) := by
  unfold State.twSend State.twSendEach
  extract_lets up ls q x
  split
  · exact SameWorks.refl s
  · exact tw_works s _

theorem mirrorCmd_works (s : State) (code seq place : Nat) (c : Cmd) : SameWorks s (s.mirrorCmd code seq place c) := by
  unfold State.mirrorCmd
  split
  · exact (tw_works s _).trans (twSend_works _ _ _ _)
  · exact SameWorks.refl s

theorem twOutcome_works (s : State) (c : Cmd) (seq st : Nat) : SameWorks s (s.twOutcome c seq st) := by
  unfold State.twOutcome
  split
  · exact twSend_works _ _ _ _
  · exact tw_works s _

theorem showPending_works (s : State) : SameWorks s s.showPending := (fs_works s _ _ _).trans (fs_works _ _ _ _)

theorem free_works (s : State) (n : Nat) : SameWorks s { s with free := n } := by constructor <;> rfl

theorem logRecord_works (s : State) (g c src : Nat) (full : Bool) : SameWorks s (s.logRecord g c src full) := by
  cases full
  · exact (ret_works s _).trans (showPending_works _)
  · exact ((free_works s _).trans (ret_works _ _)).trans (showPending_works _)

theorem noteChange_works (s : State) (g c src : Nat) (full : Bool) : SameWorks s (s.noteChange g c src full) :=
  (journal_works s _).trans (logRecord_works _ _ _ _ _)

/-- The end of a command leaves every engine, table and queue of the device as it was. -/
theorem finishAs_works (s : State) (e : Entry) (st : Nat) (r : List Nat) (full late : Bool) :
    SameWorks s (s.finishAs e st r full late) := by
  unfold State.finishAs
  extract_lets c0 c t
  have h : SameWorks s t := by
    refine SameWorks.trans ?_ (twOutcome_works _ _ _ _)
    split
    · exact cplFirst_works _ _
    · exact cplFinal_works _ _
  split
  · exact h
  · exact h.trans ((journal_works _ _).trans (logRecord_works _ _ _ _ _))

theorem finish_works (s : State) (e : Entry) (st : Nat) (r : List Nat) (full : Bool) : SameWorks s (s.finish e st r full) :=
  finishAs_works _ _ _ _ _ _

theorem cancelAll_works (s : State) (l : List Entry) : SameWorks s (s.cancelAll l) := by
  induction l generalizing s with
  | nil => exact SameWorks.refl s
  | cons e t ih =>
    refine SameWorks.trans ?_ (ih _)
    unfold State.cancel
    split
    · exact (fs_works _ _ _ _).trans (finish_works _ _ _ _ _)
    · exact finish_works _ _ _ _ _

theorem setCount_works (s : State) (m : Nat) : SameWorks s (s.setCount m) := time_works _ _

theorem elapse_works (s : State) (dt : Nat) : SameWorks s (s.elapse dt) := by
  unfold State.elapse
  simp only
  split
  · exact SameWorks.refl s
  · exact (setCount_works s _).trans (time_works _ _)

theorem takeCmd_works (s : State) (c : Cmd) : SameWorks s (s.takeCmd c).2 := by
  unfold State.takeCmd
  simp only
  split
  · exact (hif_works s _).trans (hif_works _ _)
  · exact hif_works s _

theorem refuse_works (s : State) (code : Nat) (c : Cmd) (seq : Nat) (k : Chk) : SameWorks s (s.refuse code c seq k) :=
  (cplFirst_works _ _).trans (twOutcome_works _ _ _ _)

theorem genFor_works (s : State) (code : Nat) (c : Cmd) : SameWorks s (s.genFor code c).2 := by
  unfold State.genFor
  split
  · exact newGen_works s
  · exact SameWorks.refl s

theorem dropAwait_works (s : State) (code seq : Nat) : SameWorks s (s.dropAwait code seq) := by
  unfold State.dropAwait
  split
  · exact (hif_works s _).trans (flush_works _)
  · exact SameWorks.refl s

theorem placeCmd_works (s : State) (code : Nat) (c : Cmd) (seq : Nat) : SameWorks s (s.placeCmd code c seq) := by
  unfold State.placeCmd
  simp only
  split
  · exact (((genFor_works s code c).trans (dueNext_works _ _)).trans (mirrorCmd_works _ _ _ _ _)).trans (dropAwait_works _ _ _)
  · split
    · exact (((genFor_works s code c).trans (dueNext_works _ _)).trans (mirrorCmd_works _ _ _ _ _)).trans (dropAwait_works _ _ _)
    · split
      · exact (refuse_works _ _ _ _ _).trans (det_works _ _ _ _ _ _)
      · exact (((genFor_works s code c).trans (sched_works _ _)).trans (mirrorCmd_works _ _ _ _ _)).trans (cplFirst_works _ _)

/-- The arrival of a command leaves every engine, table and queue of the device as it was, whether it is taken or refused. -/
theorem submit_works (code : Nat) (chk : Cmd → State → Chk) (c : Cmd) (s : State) : SameWorks s (submit code chk c s) := by
  unfold submit
  split
  · exact SameWorks.refl s
  · simp only
    have h : SameWorks s ((s.elapse c.dt).takeCmd c).2 := (elapse_works _ _).trans (takeCmd_works _ _)
    split
    · exact h.trans (refuse_works _ _ _ _ _)
    · split
      · exact h.trans (refuse_works _ _ _ _ _)
      · exact h.trans (placeCmd_works _ _ _ _)

end Sys2Proof.Machine
end

