-- ==== Sys2Proof/Laws/Accept.lean ====
section
/-! SUPPORT. The acceptance of commands: what it leaves of the list for the next boundary and of the command counter, and where an
accepted command without a target is put. -/

namespace Sys2Proof.Machine

/-- The list for the next boundary and the command counter stay as they are. -/
structure SameQueue (s t : State) : Prop where
  due : t.dueNext = s.dueNext
  seq : t.hif.cmdSeq = s.hif.cmdSeq

theorem SameQueue.refl (s : State) : SameQueue s s := ⟨rfl, rfl⟩
theorem SameQueue.trans {s t u : State} (h : SameQueue s t) (k : SameQueue t u) : SameQueue s u :=
  ⟨k.due.trans h.due, k.seq.trans h.seq⟩

theorem hif_queue (s : State) (h : HifSt) (e : h.cmdSeq = s.hif.cmdSeq) : SameQueue s { s with hif := h } := ⟨rfl, e⟩
theorem tw_queue (s : State) (h : TwSt) : SameQueue s { s with tw := h } := ⟨rfl, rfl⟩
theorem fs_queue (s : State) (f : Fld) (i v : Nat) : SameQueue s (s.fs f i v) := ⟨rfl, rfl⟩
theorem setCount_queue (s : State) (m : Nat) : SameQueue s (s.setCount m) := ⟨rfl, rfl⟩
theorem time_queue (s : State) (h : TimeSt) : SameQueue s { s with time := h } := ⟨rfl, rfl⟩
theorem hostWrite_queue (s : State) (a : Nat) (b : List Byte) : SameQueue s (s.hostWrite a b) := ⟨rfl, rfl⟩
theorem msi_queue (s : State) (v : Nat) : SameQueue s (s.msi v) := by unfold State.msi; split <;> exact ⟨rfl, rfl⟩
theorem signal_queue (s : State) (r : Nat) : SameQueue s (s.signal r) := by
  unfold State.signal
  simp only
  split
  · exact (hif_queue s _ (by rfl)).trans (msi_queue _ _)
  · exact hif_queue s _ rfl

theorem ringReturn_queue (s : State) (r : Nat) (b : List Byte) : SameQueue s (s.ringReturn r b) :=
  (((hostWrite_queue s _ _).trans (hostWrite_queue _ _ _)).trans (fs_queue _ _ _ _)).trans (signal_queue _ _)

theorem cplWrite_queue (s : State) (c : Cpl) : SameQueue s (s.cplWrite c) := by
  unfold State.cplWrite
  simp only
  split
  · exact hif_queue s _ rfl
  · split
    · exact ((hif_queue s _ (by rfl)).trans (hif_queue _ _ (by rfl))).trans (ringReturn_queue _ _ _)
    · exact hif_queue s _ rfl

theorem flushAwait_queue (l : List Await) (b : List Nat) (s : State) : SameQueue s (flushAwait l b s).2 := by
  induction l generalizing b s with
  | nil => exact SameQueue.refl s
  | cons a t ih =>
    unfold flushAwait
    split
    · split
      · exact ih b s
      · exact (cplWrite_queue s _).trans (ih b _)
    · exact ih _ s

theorem flushFinals_queue (l : List Cpl) (s : State) : SameQueue s (flushFinals l s).2 := by
  induction l generalizing s with
  | nil => exact SameQueue.refl s
  | cons c t ih =>
    unfold flushFinals
    split
    · exact SameQueue.refl s
    · exact (cplWrite_queue s c).trans (ih _)

theorem flush_queue (s : State) : SameQueue s s.flush := by
  unfold State.flush
  have h := flushAwait_queue s.hif.await [] s
  generalize flushAwait s.hif.await [] s = q at *
  obtain ⟨k, t⟩ := q
  have g := flushFinals_queue t.hif.finals ({ t with hif := { t.hif with await := k } } : State)
  exact ((h.trans (hif_queue _ _ (by rfl))).trans g).trans (hif_queue _ _ (by rfl))

theorem twSend_queue (s : State) (ty : Nat) (both : Bool) (m : TwMsg) : SameQueue s (s.twSend ty both m) := by
  unfold State.twSend State.twSendEach
  extract_lets up ls q x
  split
  · exact SameQueue.refl s
  · exact tw_queue s _

theorem mirrorCmd_queue (s : State) (code seq place : Nat) (c : Cmd) : SameQueue s (s.mirrorCmd code seq place c) := by
  unfold State.mirrorCmd
  split
  · exact (tw_queue s _).trans (twSend_queue _ _ _ _)
  · exact SameQueue.refl s

theorem genFor_queue (s : State) (code : Nat) (c : Cmd) : SameQueue s (s.genFor code c).2 := by
  unfold State.genFor
  split
  · exact fs_queue _ _ _ _
  · exact SameQueue.refl s

theorem dropAwait_queue (s : State) (code seq : Nat) : SameQueue s (s.dropAwait code seq) := by
  unfold State.dropAwait
  split
  · exact (hif_queue s _ (by rfl)).trans (flush_queue _)
  · exact SameQueue.refl s

theorem immPlace_same {s t : State} (ht : t.time = s.time) (hp : t.paired = s.paired) (k : Nat) : t.immPlace k = s.immPlace k := by
  unfold State.immPlace State.now
  rw [ht, hp]

theorem fb_fs_other (s : State) (f g : Fld) (i j v : Nat) (hi : i < 2048) (hj : j < 2048) (h : g.reg ≠ f.reg ∨ j ≠ i) :
    (s.fs f i v).fb g j = s.fb g j := by
  unfold State.fb
  rw [fg_fs_other s f g i j v hi hj h]

theorem newGen_paired (s : State) : s.newGen.2.paired = s.paired := by
  unfold State.newGen State.paired
  exact fb_fs_other s F.HIF_CFG_GEN_GEN F.TW_STAT_PARTNER 0 0 _ (by omega) (by omega) (.inl (by decide))

theorem genFor_immPlace (s : State) (code k : Nat) (c : Cmd) : (s.genFor code c).2.immPlace k = s.immPlace k := by
  unfold State.genFor
  split
  · exact immPlace_same (fs_time _ _ _ _) (newGen_paired s) k
  · rfl

theorem elapse_queue (s : State) (d : Nat) : SameQueue s (s.elapse d) := by
  unfold State.elapse
  extract_lets d t
  split
  · exact SameQueue.refl s
  · exact (setCount_queue s _).trans (time_queue _ _)

/-- An accepted command without a target is put at the end of the list for its boundary. -/
theorem submit_placed {code : Nat} {chk : Cmd → State → Chk} {c : Cmd} {s : State} (h : Accepts code chk c s) :
    PlacedNext code c s (submit code chk c s) := by
  have h0 : (s.elapse c.dt).takeCmd c = (s.hif.cmdSeq, s.taken c) := by
    unfold State.taken State.takeCmd
    extract_lets seq t
    have : seq = s.hif.cmdSeq := (elapse_queue s c.dt).seq
    rw [this]
  have hq : (s.taken c).dueNext = s.dueNext ∧ (s.taken c).hif.cmdSeq = s.hif.cmdSeq + 1 := by
    unfold State.taken State.takeCmd
    extract_lets seq t
    have e1 := elapse_queue s c.dt
    split
    · exact ⟨e1.due, congrArg (· + 1) e1.seq⟩
    · exact ⟨e1.due, congrArg (· + 1) e1.seq⟩
  unfold submit
  rw [h.served, if_neg (by decide)]
  simp only [h0, h.common, h.own, ne_eq, not_true_eq_false, if_false]
  unfold State.placeCmd
  rw [h.now]
  simp only [Bool.not_false, if_true]
  have g := genFor_queue (s.taken c) code c
  have gi := genFor_immPlace (s.taken c) code code c
  generalize (s.taken c).genFor code c = q at *
  obtain ⟨n, u⟩ := q
  simp only at *
  have k := (mirrorCmd_queue ({ u with dueNext := u.dueNext ++ [⟨code, c, n, s.hif.cmdSeq, u.immPlace code,
      u.immPlace code, false, false, true, false⟩] } : State)
    code s.hif.cmdSeq (u.immPlace code) c).trans (dropAwait_queue _ code s.hif.cmdSeq)
  refine ⟨k.seq.trans (g.seq.trans hq.2), ⟨code, c, n, s.hif.cmdSeq, u.immPlace code, u.immPlace code, false, false, true, false⟩,
    k.due.trans ?_, rfl, rfl, rfl, rfl, gi⟩
  show u.dueNext ++ _ = _
  rw [g.due, hq.1]

end Sys2Proof.Machine
end

