-- ==== Sys2Proof/Laws/Units.lean ====
section
/-! SUPPORT. What the issue of an instruction leaves: performance events, the other units, and the core of the unit that runs it. -/

namespace Sys2Proof.Machine

/-- What the counting of performance events leaves: everything but the registers of the counters. -/
structure PerfFrame (s t : State) : Prop where
  state : t = { s with regs := t.regs }
  regs  : RegsKept [.PC_CNT, .PC_OVF, .PC_AGG_CNT, .PC_AGG_OVF] s t

theorem PerfFrame.refl (s : State) : PerfFrame s s := ⟨rfl, fun _ _ _ _ => rfl⟩
theorem PerfFrame.trans {s t u : State} (h : PerfFrame s t) (k : PerfFrame t u) : PerfFrame s u := by
  refine ⟨?_, fun r i hr hi => (k.regs r i hr hi).trans (h.regs r i hr hi)⟩
  have h1 := h.state; have h2 := k.state
  rw [h2, h1]

theorem perf_rw (s : State) (r : RegId) (i : Nat) (w : Word) (hr : r ∈ [RegId.PC_CNT, .PC_OVF, .PC_AGG_CNT, .PC_AGG_OVF])
    (hi : i < 2048) : PerfFrame s (s.rw r i w) :=
  ⟨rfl, fun _ _ h' hi' => rr_rw_type s w (fun e => h' (e ▸ hr)) hi hi'⟩

theorem pcOvf_frame (s : State) (agg : Bool) (u j : Nat) (hu : u < 192) : PerfFrame s (s.pcOvf agg u j) := by
  unfold State.pcOvf
  split
  · exact perf_rw _ _ _ _ (by decide) (by omega)
  · exact perf_rw _ _ _ _ (by decide) (by omega)

theorem pcAdd_frame (s : State) (agg : Bool) (u j n : Nat) (hu : u < 192) (hj : j < 4) : PerfFrame s (s.pcAdd agg u j n) := by
  unfold State.pcAdd
  split
  · exact .refl s
  · extract_lets r v t
    have : PerfFrame s t := perf_rw _ _ _ _ (by cases agg <;> decide) (by omega)
    split
    · exact this.trans (pcOvf_frame _ _ _ _ hu)
    · exact this

theorem foldl_frame {α : Type} (R : State → State → Prop) (hr : ∀ s, R s s) (ht : ∀ {s t u}, R s t → R t u → R s u)
    (f : State → α → State) (l : List α) (h : ∀ s, ∀ a ∈ l, R s (f s a)) (s : State) : R s (l.foldl f s) := by
  induction l generalizing s with
  | nil => exact hr s
  | cons a l ih => exact ht (h s a (by simp)) (ih (fun s b hb => h s b (by simp [hb])) _)

theorem perf_frame (s : State) (u ev n rises : Nat) (hu : u < 192) : PerfFrame s (s.perf u ev n rises) := by
  unfold State.perf
  extract_lets t g
  have h1 : PerfFrame s t := foldl_frame _ PerfFrame.refl PerfFrame.trans _ _ (fun s j hj => by
    have := List.mem_range.1 hj
    split
    · exact pcAdd_frame _ _ _ _ _ hu this
    · exact .refl s) s
  refine h1.trans (foldl_frame _ PerfFrame.refl PerfFrame.trans _ _ (fun s j hj => ?_) t)
  have := List.mem_range.1 hj
  extract_lets i
  split
  · exact pcAdd_frame _ _ _ _ _ (by omega) this
  · exact .refl s

theorem perfs_frame (s : State) (u : Nat) (l : List (Nat × Nat × Nat)) (hu : u < 192) : PerfFrame s (s.perfs u l) := by
  unfold State.perfs
  refine foldl_frame _ PerfFrame.refl PerfFrame.trans _ _ (fun s e _ => ?_) s
  split
  · exact .refl s
  · exact perf_frame _ _ _ _ _ hu

@[simp] theorem unit_setUnit_same (s : State) (u : Nat) (x : UnitSt) : (s.setUnit u x).unit u = x := by
  simp [State.unit, State.setUnit]

theorem unit_setUnit_ne (s : State) {u v : Nat} (x : UnitSt) (h : v ≠ u) : (s.setUnit u x).unit v = s.unit v := by
  simp [State.unit, State.setUnit, mget_mput_ne _ _ _ _ h]

@[simp] theorem unit_setCore_same (s : State) (u : Nat) (c : UCore) : (s.setCore u c).unit u = { s.unit u with core := c } := by
  simp [State.setCore]

@[simp] theorem core_setCore_same (s : State) (u : Nat) (c : UCore) : (s.setCore u c).core u = c := by
  simp [State.core]

/-- Performance events do not disturb what an instruction leaves. -/
theorem CoreOnly.perfs {u : Nat} {c : UCore} {s t v : State} (h : CoreOnly u c s t) (k : PerfFrame t v) : CoreOnly u c s v := by
  obtain ⟨⟨h1, h2, h3⟩, h4⟩ := h
  obtain ⟨k1, k2⟩ := k
  refine ⟨⟨?_, ?_, ?_⟩, ?_⟩
  · rw [k1, h1]
  · intro w hw; rw [k1]; exact h2 w hw
  · intro r i hr hi; exact (k2 r i (by simpa using hr) hi).trans (h3 r i hr hi)
  · rw [k1]; exact h4

/-- A unit whose core alone is put anew. -/
theorem coreOnly_put (s : State) (u : Nat) (c d : UCore) :
    CoreOnly u d s ((s.setCore u c).setUnit u { (s.setCore u c).unit u with core := d, stepOk := false }) := by
  refine ⟨⟨rfl, ?_, fun _ _ _ _ => rfl⟩, by simp⟩
  intro v hv
  rw [unit_setUnit_ne _ _ hv]
  exact unit_setUnit_ne _ _ hv

theorem coreOnly_done (s : State) (u st : Nat) (c d : UCore) :
    CoreOnly u (d.advance st) s ((s.setCore u c).coreDone u d st) := coreOnly_put s u c (d.advance st)

theorem fetchEcc_state (s : State) (u f : Nat) (h : (s.fetchEcc u f).1 = 0) : s.fetchEcc u f = (0, s) := by
  unfold State.fetchEcc at *
  split
  · rename_i w hw
    simp only [hw] at h
    unfold State.eccRead at *
    extract_lets at *
    split <;> simp_all
  · rfl

theorem canIssue_lt {s : State} {u : Nat} (h : s.canIssue u = true) : u < 192 := by
  simp only [State.canIssue, Bool.and_eq_true, decide_eq_true_eq] at h
  exact h.1.1

/-- Where an instruction may stand: outside delay slots and repeats, if it is one of those R128 and R129 name. -/
theorem Issues.plain {u : Nat} {x : UPort} {i : JInstr} {s : State} (h : Issues u x i s) (hs : i.noSlot = true)
    (hr : i.noRep = true) : (s.seen u).slots = 0 ∧ (s.seen u).rep = 0 := by
  have hp := h.place
  simp only [hs, hr, and_true, not_or] at hp
  constructor
  · show (s.core u).slots = 0; omega
  · show (s.core u).rep = 0; omega

/-- The issue of an instruction is its run on the settled core, but for performance events. -/
theorem issue_runs {s : State} {u : Nat} {x : UPort} {i : JInstr} {row : JInstr → Bool} (h : Issues u x i s) (hr : row i = true) :
    PerfFrame ((s.setCore u (s.seen u)).runInstr u i x) (s.issue u row x) := by
  unfold State.issue
  simp only [h.may, h.word, hr, if_true, fetchEcc_state s u _ h.fetched, if_neg (show ¬ ((0 : Nat) = 2) by decide)]
  unfold State.issueInstr
  extract_lets c t d v
  rw [if_neg h.place]
  split
  · exact .refl _
  · exact perfs_frame _ _ _ (canIssue_lt h.may)

/-- An instruction whose run leaves the core `f` gives, and nothing else. -/
theorem runs_core {row : Nat → UPort → Instr} {i : JInstr} {f : UPort → UCore → UCore} {p : JInstr → Bool} (hp : p i = true)
    (hx : ∀ u x s, exec (row u x) s = .next (s.issue u p x))
    (hf : ∀ u x (s : State), Issues u x i s → CoreOnly u (f x (s.seen u)) s ((s.setCore u (s.seen u)).runInstr u i x)) :
    RunsOnCore row i f := fun u x s h => ⟨_, hx u x s, (hf u x s h).perfs (issue_runs h hp)⟩

end Sys2Proof.Machine
end

