-- ==== Sys2Proof/Tests/Slice0.lean ====
section
/-! SUPPORT. Tests: for every statement with hypotheses concrete states and operands that meet those of each clause; ill-formed
terms that WellFormed refuses; unit words written out from their layouts; a few results worked out from the spec. Expected values
come from the spec's text and examples or from hand calculation. -/

namespace Sys2Proof.Tests
open Sys2Proof Sys2Proof.Machine

/-! ### States and commands of the tests -/

def r0 : State := State.reset

/-- The words of a list of registers at reset, as a buffer. -/
def words (l : List (RegId × Nat)) : List Byte := l.flatMap (fun x => leBytes 4 (resetWord x.1 x.2))

/-- The smallest valid unit image, of the instructions given (R143). -/
def image (post : Bool) (par : Nat) (binds : List Nat) (code : List Nat) : List Byte :=
  let body := binds.flatMap (leBytes 8) ++ code.flatMap (leBytes 4) ++ zeros par
  let head := leBytes 4 0x31424C4A ++ leBytes 2 1 ++ leBytes 2 (b2n post + (if par = 0 then 0 else 8)) ++ leBytes 2 0 ++ leBytes 2 0
    ++ leBytes 2 binds.length ++ leBytes 2 0 ++ leBytes 4 (4 * code.length) ++ leBytes 4 0 ++ leBytes 4 0 ++ leBytes 4 par ++ leBytes 4 0
    ++ leBytes 4 0 ++ leBytes 4 body.length ++ leBytes 4 (crc32c body) ++ zeros 12
  head ++ leBytes 4 (crc32c head) ++ body

def img1 : List Byte := image false 0 [] [1, 0x3A000000]
def prog1 : UProg := imgProg img1
def parProg : UProg := { prog1 with param := true }

/-- A unit with a program, in a state of UNIT_STAT. -/
def unitAt (u st : Nat) (p : UProg) (s : State) : State :=
  let s := s.setUnit u { s.unit u with prog := some p }
  s.fs F.UNIT_STAT_STATE u st

/-- A paired ACTIVE whose partner is STANDBY. -/
def pairActive : State :=
  let s := (r0.fs F.TW_STAT_ROLE 0 2).fs F.TW_STAT_PARTNER 0 1
  { s with tw := { s.tw with peer := some { role := 3 } } }

def full : State := r0.fs F.WH_CTL_CONFIG 0 2

/-- A command that is accepted at reset or in the state beside it. -/
def accepted1 : List (Nat × (Cmd → State → Chk) × Cmd × State) := [
  (Code.NOP, chkNone, {}, r0),
  (Code.CFG_JOURNAL_READ, chkCfgJournalRead, { b := 256, len := 8192 }, r0),
  (Code.REG_SET, chkRegSet, { len := 8, buf := leBytes 4 (regOff .WH_BW 0) ++ words [(.WH_BW, 0)] }, r0),
  (Code.MT_STEP, chkMtStep, { i0 := 1000 }, r0.fs F.MT_EPOCH_WINDOW 0 1),
  (Code.EPOCH_RESTART, chkNone, {}, r0),
  (Code.MT_RATE_SET, chkMtRateSet, { a := 2 ^ 32 - 10 }, full.fs F.WH_STATUS_LOOP 0 5),
  (Code.WH_ACQUIRE, chkWhAcquire, {}, r0),
  (Code.WH_LOOP_OPEN, chkWhLoop, {}, full),
  (Code.WH_LOOP_CLOSE, chkWhLoop, {}, full),
  (Code.WH_PHASE_STEP, chkWhPhaseStep, { a := 63, b := 1000000 }, r0),
  (Code.ROUTE_WRITE, chkRouteWrite, { a := 4095, b := 1, len := 8, buf := zeros 8 }, r0),
  (Code.ROUTE_READ, chkRouteRead, { a := 4095, b := 1, c := 1, len := 8 }, r0),
  (Code.ROUTE_COMMIT, chkRouteCommit, { rampMs := 1000, shape := 1 }, r0),
  (Code.ROUTE_STATUS, chkNone, {}, r0),
  (Code.XP_WRITE, chkXpWrite, { a := 49151, b := 1, c := 1, len := 4, buf := leBytes 4 0x1000 }, r0),
  (Code.XP_READ, chkXpRead, { a := 49151, b := 1, len := 4 }, r0),
  (Code.XP_COMMIT, chkXpCommit, { a := 1 }, r0),
  (Code.XP_SET, chkXpSet, { len := 8, buf := leBytes 8 0x0000100000010002 }, r0),
  (Code.SP_CONFIG, chkSpConfig, { len := 392, buf := words ((List.range 98).map spReg) }, r0),
  (Code.SP_PLAY, chkSpPlay, { a := 0x10203, b := 1 }, (r0.fs F.SP_STAT_READY 0 1).fs F.SP_MSG_PRESENT 2 1),
  (Code.SP_STOP, chkSpStop, { b := 1 }, r0),
  (Code.SP_MSG_BLOCK, chkSpMsgBlock, { a := 15, b := 0x3FFFFFF, len := 1, i0 := crc32c [7], buf := [7] }, r0),
  (Code.SP_MSG_COMMIT, chkSpMsgCommit, { a := 15 }, r0)]

def accepted2 : List (Nat × (Cmd → State → Chk) × Cmd × State) := [
  (Code.CL_RESET, chkClReset, { a := 23 }, r0),
  (Code.UNIT_SPARE, chkUnitSpare, { a := 3 }, unitAt 3 1 prog1 (r0.fs F.RG_SPARE_EN 0 1)),
  (Code.UNIT_RESTORE, chkUnitRestore, { a := 3 }, unitAt 3 6 prog1 r0),
  (Code.UNIT_LOAD, chkUnitLoad, { a := 190, len := 72, buf := img1 }, r0),
  (Code.UNIT_UNLOAD, chkUnitUnload, { a := 3 }, unitAt 3 1 prog1 r0),
  (Code.UNIT_SET, chkUnitSet, { a := 191, i0 := resetWord .UNIT_CTL 0 }, r0),
  (Code.INS_WRITE, chkInsWrite, { a := 3, b := 4088, len := 8, buf := leBytes 8 77 }, unitAt 3 1 parProg r0),
  (Code.INS_READ, chkInsRead, { a := 3, b := 4088, len := 8 }, unitAt 3 1 parProg r0),
  (Code.INS_COMMIT, chkInsCommit, { a := 8 }, unitAt 3 1 parProg r0),
  (Code.DP_SET, chkDpSet, { a := 23, i0 := resetWord .DP_CTL 0, i1 := resetWord .DP_MOD 0 }, r0),
  (Code.DP_RETRAIN, chkPort24, { a := 23 }, r0),
  (Code.DP_MBX_SEND, chkDpMbxSend, { a := 2, len := 14, buf := zeros 14 }, r0.fs F.DP_STAT_STATE 2 3),
  (Code.DC_WRITE, chkDcWrite, { a := 191, b := 1, len := 8, buf := zeros 8 }, r0),
  (Code.DC_READ, chkDcRead, { a := 191, b := 1, c := 1, len := 8 }, r0),
  (Code.DC_COMMIT, chkDcCommit, { rampMs := 1000 }, r0),
  (Code.BG_SET, chkBgSet, { a := 47, i0 := resetWord .BG_CTL 0, i1 := resetWord .BG_RAIL 0 }, r0),
  (Code.FLT_SET, chkFltSet, { a := 255, i0 := resetWord .FLT_CTL 0, i3 := resetWord .LW_CTL 0 }, r0),
  (Code.FLT_LINE_WRITE, chkFltLineWrite, { a := 191, b := 1, len := 16, buf := zeros 16 }, r0),
  (Code.FLT_LINE_READ, chkFltLineRead, { a := 191, b := 1, c := 1, len := 16 }, r0),
  (Code.FLT_REMEASURE, chkFltRemeasure, { a := 1, b := 0xFFFF }, r0),
  (Code.FLT_CLEAR, chkNone, { a := 5 }, r0),
  (Code.FLT_READ, chkFltRead, { a := 191, b := 1, len := 16 }, r0),
  (Code.LW_BASELINE, chkLwBaseline, { a := 1, i0 := 1 }, r0),
  (Code.LW_READ, chkLwRead, { a := 191, b := 1, len := 32 }, r0),
  (Code.LW_SWEEP, chkLwSweep, { a := 2, b := 0x1028, len := 28, buf := zeros 24 ++ leBytes 2 5 ++ leBytes 2 40000 }, r0),
  (Code.LW_SWEEP_ABORT, chkNone, {}, r0),
  (Code.LW_SWEEP_READ, chkLwSweepRead, { b := 1, len := 16 }, r0),
  (Code.TDM_SET, chkTdmSet, { a := 15, i0 := resetWord .TDM_CTL 0, i1 := resetWord .TDM_FRAME 0 }, r0),
  (Code.TDM_RING_SET, chkTdmRingSet, { a := 15, i0 := resetWord .TDM_PACK 0, i2 := resetWord .TDM_RING_CFG 0 }, r0),
  (Code.TDM_AG_START, chkTdmAgStart, { a := 1 }, r0.fs F.TDM_CTL_AG 0 1),
  (Code.TDM_AG_STOP, chkTdmAgStop, { a := 3 }, r0),
  (Code.PDM_SET, chkPdmSet, { a := 7, i0 := resetWord .PDM_CTL 0 }, r0)]

/-- A valid record of a receive stream of the 24-bit form, by the media clock (R256). -/
def rxRec : List Byte := [0, 0, 0, 6, 2, 0, 0x80, 0] ++ zeros 24

def accepted3 : List (Nat × (Cmd → State → Chk) × Cmd × State) := [
  (Code.NET_SET, chkNetSet, { a := 7, len := 48, buf := words ((List.range 11).map (netReg 7)) ++ zeros 4 }, r0),
  (Code.NET_PTP_DS, chkNetPtpDs, { a := 7, len := 20, buf := zeros 20 }, r0),
  (Code.FWD_WRITE, chkFwdWrite, { a := 4095, b := 1, len := 16, buf := zeros 16 }, r0),
  (Code.FWD_READ, chkFwdRead, { a := 4095, b := 1, c := 1, len := 16 }, r0),
  (Code.FWD_COMMIT, chkFwdCommit, {}, r0),
  (Code.NET_STREAM_RX, chkNetStreamRx, { a := 255, len := 32, buf := rxRec }, r0),
  (Code.NET_STREAM_TX, chkNetStreamTx, { a := 255, len := 64, buf := rxRec ++ zeros 6 ++ [96, 1] ++ zeros 24 }, r0),
  (Code.NET_STREAM_DEL, chkNetStreamDel, { a := 511 }, r0),
  (Code.NET_STREAM_READ, chkNetStreamRead, { a := 255, b := 1, len := 32 }, r0),
  (Code.NET_FRAME_TX, chkNetFrameTx, { a := 128, len := 60, buf := zeros 60 }, r0),
  (Code.NET_FRAME_READ, chkNetFrameRead, { len := 64 }, { r0 with net := { r0.net with mgmt := [⟨1, zeros 64, 9⟩] } }),
  (Code.SMP_ACK, chkSmpAck, { a := 0x107 }, r0),
  (Code.SMP_INJECT, chkSmpInject, { a := 0x1000 }, r0.fs F.SMP_CTL_INJ_EN 0 1),
  (Code.SMP_SET, chkSmpSet, { len := 160, buf := words (smpFams.map (fun f => (.SMP_FAM, f)) ++ (List.range 8).map (fun c => (.SMP_CLASS_CTL, c))) }, r0),
  (Code.TW_SET, chkTwSet, { len := 140, buf := words ((List.range 35).map twReg) }, r0),
  (Code.TW_YIELD, chkTwYield, {}, pairActive),
  (Code.TW_RESYNC, chkTwResync, {}, (r0.fs F.TW_STAT_ROLE 0 4).fs F.TW_STAT_PARTNER 0 1),
  (Code.TW_HOME, chkTwHome, {}, (r0.fs F.TW_STAT_ROLE 0 3).fs F.TW_CTL_HOME 0 1),
  (Code.PWR_SET, chkPwrSet, { a := 3 }, r0.fs F.RW_STAT_STAGE 0 3),
  (Code.FW_BLOCK, chkFwBlock, { a := 1, len := 1, i0 := crc32c [7], buf := [7] }, r0),
  (Code.FW_VERIFY, chkFwVerify, { a := 1 }, r0),
  (Code.FW_ACTIVATE, chkFwActivate, { a := 1, c := 1 }, r0.fs F.SEC_FW_STAT_STATE_B 0 2),
  (Code.FW_COMMIT, chkFwCommit, { a := 0 }, { r0.fs F.SEC_FW_STAT_MODE 0 1 with ret := { r0.ret with boot := 8 } }),
  (Code.SEC_SEAL, chkSecSeal, {}, ((r0.fs F.SEC_STATE_FW_KEY 0 1).fs F.SEC_STATE_DBG_KEY 0 1).fs F.SEC_STATE_CEIL_LOCK 0 1),
  (Code.DBG_CHALLENGE, chkDbgChallenge, { len := 64 }, r0),
  (Code.DBG_OPEN, chkDbgOpen, { len := 256, buf := [3] ++ zeros 255 }, r0),
  (Code.DBG_CLOSE, chkDbgClose, {}, r0),
  (Code.CENSUS_AT, chkCensusAt, { a := 31, addr := 0x40000000 }, r0),
  (Code.PC_SET, chkPcSet, { a := 0x105, i0 := 0x0F0F47, i3 := 7 }, r0)]

/-- Whether a row's command meets all of `Accepts` in its state. -/
def accepts (x : Nat × (Cmd → State → Chk) × Cmd × State) : Bool :=
  let (code, chk, c, s) := x
  !s.noCmds && preCheck code c (s.taken c) == Sts.OK && (chk c (s.taken c)).1 == Sts.OK && !c.tgt

theorem test_accepts_is_accepts {code : Nat} {chk : Cmd → State → Chk} {c : Cmd} {s : State} (h : accepts (code, chk, c, s) = true) :
    Accepts code chk c s := by
  simp only [accepts, Bool.and_eq_true, Bool.not_eq_true', beq_iff_eq] at h
  exact ⟨h.1.1.1, h.1.1.2, h.1.2, h.2⟩

/-! ### One theorem per statement with hypotheses: concrete states and operands that meet those of each of its clauses. The
clauses over accepted commands are met by `accepted1`, `accepted2` and `accepted3`. -/

def up (n : Nat) (s : State) : State := { s with time := { s.time with up := n } }
def ent (code : Nat) (c : Cmd) : Entry := ⟨code, c, 0, 5, 0, 0, false, false, true, false⟩
def boot (n : Nat) (s : State) : State := { s with ret := { s.ret with boot := n } }

theorem test_accepted1 : accepted1.all accepts = true := by decide +kernel
theorem test_accepted2 : accepted2.all accepts = true := by decide +kernel
theorem test_accepted3 : accepted3.all accepts = true := by decide +kernel

theorem test_witness_EveryCommandIsServed : r0.pending = [] ∧ ∀ x ∈ r0.dueNext, x.seq < r0.hif.cmdSeq := by decide

theorem test_witness_StepKeepsTheInvariant :
    BlockInv r0 ∧ step { r0 with pending := [.thermalHoldEnd] } = .next r0 :=
  ⟨by constructor <;> decide, rfl⟩

theorem test_witness_JalobWordsRoundTrip :
    (JInstr.dmac 1 1 1 1 7 7 7 7 2 3 7 2 3 7).wf = true ∧ jdecode 0 = none ∧ jdecode 0x3A000000 = some .done := by decide +kernel

def armCmd : Cmd := { tgt := true, tgtNs := 1000000 }

theorem test_witness_CommandsAreRefusedPlacedAndJournaled :
    (r0.noCmds = false ∧ r0.hif.await = [] ∧ preCheck 0xFFFF {} (r0.taken {}) ≠ Sts.OK)
    ∧ (preCheck Code.ROUTE_COMMIT armCmd (r0.taken armCmd) = Sts.OK ∧ (chkRouteCommit armCmd (r0.taken armCmd)).1 = Sts.OK
      ∧ ((r0.taken armCmd).now : Int) ≤ (r0.taken armCmd).extTarget armCmd
      ∧ (r0.taken armCmd).now < placeOf Code.ROUTE_COMMIT ((r0.taken armCmd).extTarget armCmd).toNat
      ∧ r0.sched.length < 1024 ∧ 1024 ≤ (List.replicate 1024 (ent Code.NOP {})).length)
    ∧ ((ent Code.NOP {}).gen = 0 ∧ { ent Code.NOP {} with gen := 1 }.gen ≠ 0) := by decide +kernel

/-- An LPDDR word with two bits in error, while the LPDDR Dipper sweeps. -/
def ddrW : WordId := ⟨7, 0, 0, 5⟩
def sweeping : State := r0.fs F.DPR_HUB_STAT_DDR_STATE 0 1
def listed : State := sweeping.setDip 6 ⟨0, 0, [1, 2, 3, wkey ddrW]⟩

theorem test_witness_DippersReportAnUncorrectableWordOnce :
    (sweeping.dipState 7 = 1 ∧ sweeping.dipCovers 7 ddrW = true ∧ sweeping.hasEntry ddrW = false
      ∧ eccDecide (sweeping.effSyn ddrW 3) = 2 ∧ wkey ddrW ∉ (sweeping.dipOf (min 7 6)).known)
    ∧ (listed.dipState 7 = 1 ∧ eccDecide (listed.effSyn ddrW 3) = 2 ∧ wkey ddrW ∈ (listed.dipOf (min 7 6)).known) := by
  decide +kernel

def sealable : State := ((r0.fs F.SEC_STATE_FW_KEY 0 1).fs F.SEC_STATE_DBG_KEY 0 1).fs F.SEC_STATE_CEIL_LOCK 0 1

theorem test_witness_SealingEndsTheOpenState :
    (r0.noCmds = false ∧ r0.hif.await = [] ∧ preCheck Code.SEC_SEAL {} (r0.taken {}) = Sts.OK
      ∧ (r0.taken {}).fb F.SEC_STATE_CEIL_LOCK 0 = false)
    ∧ (sealable.fb F.SEC_STATE_SEALED 0 = false ∧ sealable.fb F.SEC_STATE_FW_KEY 0 = true) := by decide +kernel

/-- A block that verifies bank B. -/
def working (code : Nat) (c : Cmd) (s : State) : State := { s with sec := { s.sec with work := [ent code c] } }

theorem test_witness_VerificationJudgesABank :
    (working Code.FW_VERIFY { a := 1 } r0).sec.work = [ent Code.FW_VERIFY { a := 1 }] ∧ (ent Code.FW_VERIFY { a := 1 }).cmd.a = 1
      ∧ r0.fwVerify 1 ≠ Sts.OK := by decide +kernel

theorem test_witness_PcSetSelectsAndClears :
    (chkPcSet { a := 191, i3 := 0x4F } r0).1 = Sts.OK ∧ (chkPcSet { a := 192 } r0).1 = Sts.CMD_RANGE
      ∧ (chkPcSet { a := 0x105, i0 := 0xF0F47 } r0).1 = Sts.OK ∧ (chkPcSet { a := 0x106 } r0).1 = Sts.CMD_RANGE
      ∧ (chkPcSet { a := 0, i0 := 16 } r0).1 = Sts.CMD_RANGE := by decide +kernel

def porState : State := { r0 with ret := { r0.ret with porLow := true, aonValid := true, sramCnt := 65535, recLevel := 4 } }
def hot : State := { r0 with smp := { r0.smp with temps := [(11, 1300)] } }
def cool : State := { r0 with smp := { r0.smp with temps := [(11, 1269)] } }

theorem test_witness_ResetsLeaveWhatTheyKeep : (10000 : Nat) ≤ 10000 ∧ (999 : Nat) < 1000 ∧ 2047 < 2048
    ∧ porKeeps .MT_CTL = false := by decide

theorem test_witness_ReleaseClassesTheResetAndHeatHoldsIt :
    (porState.ret.porLow = true ∧ Nat.testBit 0 1 = false ∧ Nat.testBit 2 1 = true) ∧ (hot.ret.boot = 0 ∧ hot.ret.porLow = false ∧ hot.fwMode ≠ 3 ∧ ∃ p ∈ hot.smp.temps, 1300 ≤ p.2)
      ∧ (∀ p ∈ cool.smp.temps, p.2 < 1270) := by decide +kernel

/-- The header of the smallest image: no key, no body (R395, R397). -/
def fwHead : List Byte :=
  [0x4E, 0x5A, 0x46, 0x57] ++ leBytes 2 1 ++ leBytes 2 0 ++ leBytes 4 (resetWord .SEC_HWTYPE 0) ++ zeros 52 ++ (digestBytes (sha384 [])) ++ zeros 400

def verified : State :=
  let s := (r0.fs F.SEC_FW_STAT_STATE_B 0 3).fs F.SEC_FW_STAT_RUNNING 0 1
  { s with sec := { s.sec with bankB := (fwHead.zipIdx.map (fun p => (p.2, p.1))).filter (fun p => p.2 != 255), recOk := true, boot := 1 } }

def copyOk : Copy := { Copy.empty with valid := true }
def copied (n : Nat) (s : State) : State := { boot n s with ret := { (boot n s).ret with copy0 := copyOk } }
def badCopy : State := { boot 2 r0 with ret := { (boot 2 r0).ret with copy0 := { copyOk with schema := 7 } } }

theorem test_witness_StartUpChoosesBankAndSettings :
    (verified.booting = true ∧ verified.ret.boot = 0 ∧ verified.bootOrder = [(1, 0), (0, 1)] ∧ verified.fwState 1 ∉ [0, 1, 5, 6])
    ∧ (r0.booting = true ∧ r0.ret.boot = 0 ∧ ∀ x ∈ r0.bootOrder, r0.fwState x.1 ∈ [0, 1, 5, 6])
    ∧ ((boot 2 r0).booting = true ∧ (boot 2 r0).ret.copy0.valid = false ∧ (boot 2 r0).ret.copy1.valid = false)
    ∧ ((copied 2 verified).booting = true ∧ (copied 2 verified).pickCopy = some 0)
    ∧ (badCopy.booting = true ∧ badCopy.importFails = true ∧ badCopy.sec.order = [])
    ∧ ((boot 1 (r0.fs F.DPR_BIST_DONE 0 1)).booting = true ∧ (boot 1 (r0.fs F.DPR_BIST_DONE 0 1)).fb F.DPR_BIST_DONE 0 = true)
    ∧ ((boot 3 r0).booting = true ∧ (boot 4 r0).booting = true ∧ (boot 5 r0).booting = true ∧ (boot 6 r0).booting = true)
    ∧ ((copied 7 r0).booting = true ∧ (copied 7 r0).fwMode = 0 ∧ (copied 7 r0).ret.copy0.valid = true ∧ (copied 7 r0).ret.replay = []
      ∧ (copied 7 r0).sp.msgs = [] ∧ (copied 7 r0).fb F.RW_STAT_FACTORY 0 = false) := by decide +kernel

theorem test_witness_bank_verifies : verified.fwVerify 1 = Sts.OK := by decide +kernel

def deadSt : State := { r0 with ret := { r0.ret with porLow := true } }
def evt0 : Entry := { ent Code.TDM_AG_START { tgt := true, a := 1 } with place := 2000, target := 2000, imm := false }
def armed : State := { r0 with sched := [evt0] }

theorem test_witness_TickEventsHappenAtTheirInstants :
    (deadSt.dead = true ∧ deadSt.time.next < 2 ^ 48 * 1000000000) ∧ (r0.dead = false ∧ r0.time.sample < 4)
    ∧ (4 ≤ ({ r0 with time := { r0.time with sample := 4 } } : State).time.sample)
    ∧ (armed.sched = [evt0] ∧ evt0.held = false ∧ evt0.place < armed.time.next ∧ beforeCommits evt0.code = false ∧ armed.now ≤ evt0.place)
    := by decide +kernel

def freed : State :=
  let s := r0.fs F.MT_CTL_FREE_WAIT 0 5
  { s with time := { s.time with sec := 5 } }

theorem test_witness_MediaTimeIsWatchedAndRead : freed.freeWaitDue = true := by decide +kernel

def windowed : State := r0.fs F.MT_EPOCH_WINDOW 0 1

theorem test_witness_MediaTimeCommandsActAtTheBoundary :
    ((r0.fs F.MT_EPOCH_WINDOW 0 0).fb F.MT_EPOCH_WINDOW 0 = false)
    ∧ (stepChk (stepOffset { i0 := 1000 }) windowed.now windowed = Sts.OK
      ∧ (windowed.now : Int) + stepOffset { i0 := 1000 } + 1 < 2 ^ 48 * 1000000000)
    ∧ (full.fs F.WH_STATUS_LOOP 0 5).fg F.WH_STATUS_LOOP 0 = 5 := by decide +kernel

/-- Slot n in a state of WH_SLOT_STAT, with its timer due. -/
def slotAt (n st : Nat) (s : State) : State :=
  let s := s.setSlot n { s.slot n with valid := true, timer := some s.time.up }
  s.fs F.WH_SLOT_STAT_STATE n st

def m1 : Nat × Int := (secNs, secNs)
def m2 : Nat × Int := (2 * secNs, 2 * secNs)
/-- A slot measured at seconds 1 and 2, and one whose last edge lies 5 s (slot 14: 0.5 s) back. -/
def measured : WhSlot := { WhSlot.init with valid := true, at_ := some m2, hist := [m1] }
def edged (n : Nat) (s : State) : State :=
  let s := { s with time := { s.time with sec := 6 } }
  s.setSlot n { s.slot n with lastEdge := some (if n = 14 then 5500000000 else 1000000000) }

theorem test_witness_SlotsAreMeasuredAndTheirStatesFollow :
    (let s := (slotAt 14 3 r0).setSlot 14 measured
     (s.slot 14).valid = true ∧ (s.slot 14).at_ = some m2 ∧ (s.slot 14).hist.head? ≠ some m2
      ∧ (lastSecond (2 * secNs) (m2 :: (s.slot 14).hist)).getLast? = some m1)
    ∧ (let s := (slotAt 14 3 r0).setSlot 14 { measured with hist := [] }
       (s.slot 14).at_ = some m2 ∧ (s.slot 14).hist = [])
    ∧ ((r0.slot 13).lastEdge = none ∧ (slotAt 14 2 r0).sst 14 = 2 ∧ (slotAt 7 4 r0).sst 7 = 4 ∧ (slotAt 7 3 r0).sst 7 = 3
      ∧ (slotAt 7 5 r0).sst 7 = 5 ∧ (slotAt 7 4 r0).slotBad 7 = true ∧ (slotAt 14 2 r0).slotBad 14 = true)
    ∧ (let s := edged 7 (slotAt 7 3 r0)
       s.edgeGap 7 = some (5 * secNs : Nat) ∧ 3 * logNs (s.fgI F.NET_PTP_CFG_LOG_SYNC 7) ≤ 5 * secNs)
    ∧ ((edged 14 (slotAt 14 1 r0)).sst 14 = 1 ∧ (edged 14 (slotAt 14 1 r0)).slotBad 14 = false
      ∧ (r0.fs F.WH_STATUS_MODE 0 1).service = true ∧ r0.service = false)
    ∧ (slotAt 14 2 r0).due ((slotAt 14 2 r0).slot 14).timer = true := by decide +kernel

def acquiring : State :=
  let s := up (10 ^ 12) (r0.fs F.WH_STATUS_LOOP 0 1)
  { s with wh := { s.wh with critSince := some 0, lockSince := some 0, hoSince := some 0 } }
def locked : State := acquiring.fs F.WH_STATUS_LOOP 0 2
def away : State := (locked.setSlot 14 { locked.slot 14 with phase := 10 ^ 9 }).fs F.WH_STATUS_SELECTED 0 14
def entering : State :=
  let s := (((acquiring.fs F.MT_CTL_ALIGN 0 1).fs F.MT_EPOCH_WINDOW 0 1).fs F.WH_STATUS_SELECTED 0 14).setSlot 14
    { acquiring.slot 14 with phase := 40 }
  { s with wh := { s.wh with lockDue := true } }
def sw0 : WhSwitch := ⟨14, 13, 3, 2, false, none, 0, 0, 0, 0⟩
def switching (d : Option Int) : State :=
  { r0 with wh := { r0.wh with switch := some { sw0 with delta := d } }, time := { r0.time with tick := 5 } }

theorem test_witness_LoopAndSwitchesFollowTheirTables :
    (acquiring.loop = 1 ∧ acquiring.within 1 = true ∧ locked.loop = 2 ∧ away.within 4 = false
      ∧ acquiring.due (acquiring.wh.critSince.map (· + acquiring.fg F.WH_LOCK_LOCK_TIME 0 * 100000000)) = true)
    ∧ (entering.loop = 1 ∧ entering.within 1 = true ∧ entering.wh.lockDue = true ∧ entering.fb F.MT_CTL_ALIGN 0 = true
      ∧ entering.fb F.MT_EPOCH_WINDOW 0 = true ∧ entering.fg F.WH_STATUS_SELECTED 0 ≠ 15
      ∧ (entering.now : Int) + (entering.slot (entering.fg F.WH_STATUS_SELECTED 0)).phase + 1 < 2 ^ 48 * 1000000000)
    ∧ (locked.service = false ∧ locked.loop = 2
      ∧ locked.due (locked.wh.lockSince.map (· + locked.fg F.WH_TIMERS_ACQ_HOLD 0 * secNs)) = true)
    ∧ (let s := (acquiring.fs F.WH_STATUS_LOOP 0 4).fs F.WH_STATUS_MODE 0 1
       s.service = true ∧ s.loop = 4 ∧ s.fg F.WH_TIMERS_REACQ 0 ≠ 0
        ∧ s.due (s.wh.hoSince.map (· + s.fg F.WH_TIMERS_REACQ 0 * secNs)) = true)
    ∧ ((switching none).wh.switch = some sw0 ∧ sw0.start + 1 ≤ (switching none).time.tick)
    ∧ ((switching (some 7)).wh.switch = some { sw0 with delta := some 7 } ∧ sw0.start + 2 ≤ (switching none).time.tick
      ∧ (switching (some 7)).wh.openReq = false) := by decide +kernel

theorem test_witness_WellheadCommandsSteerTheLoop :
    r0.loop ≠ 5 ∧ r0.wh.switch = none ∧ (switching none).wh.switch ≠ none ∧ (full.fs F.WH_STATUS_LOOP 0 5).loop = 5
      ∧ r0.fg F.WH_STATUS_SELECTED 0 = 15 ∧ (r0.fs F.WH_STATUS_SELECTED 0 2).fg F.WH_STATUS_SELECTED 0 ≠ 15
      ∧ (chkWhPhaseStep { a := 63, b := 1000001 } r0).1 ≠ Sts.OK := by decide +kernel

theorem test_witness_RouterBanksAreWrittenAndSwapped :
    (({ r0 with aud := { r0.aud with rtLock := 2 } } : State).rtLocked = true ∧ r0.rtLocked = false)
    ∧ (let s : State := { r0 with aud := { r0.aud with rtLock := 2 }, time := { r0.time with tick := 4 } }
       s.aud.rtLock = 2 ∧ s.aud.rtOutTick < s.time.tick ∧ s.aud.icFade = [] ∧ s.aud.dstFade = [])
    ∧ (({ r0 with drv := { r0.drv with lock := 2 } } : State).drv.lock = 2
      ∧ ({ r0 with drv := { r0.drv with lock := 2 } } : State).dcRamping = false) := by decide +kernel

def xpHeld : Entry := ent Code.XP_SET { len := 8, buf := leBytes 8 0x0000100000010002 }

theorem test_witness_CrosspointBanksAreWrittenAndSwapped :
    (chkXpWrite { a := 49151, b := 2, c := 1, len := 8 } r0).1 ≠ Sts.OK
    ∧ (xpSec { c := 1 } = 0 ∧ xpSec { c := 0x2000000 } = 2
      ∧ (chkXpWrite { a := 1023, b := 1, c := 0x2000000, len := 2, buf := leBytes 2 7 } r0).1 = Sts.OK)
    ∧ ((chkXpSet xpHeld.cmd r0).1 = Sts.OK ∧ (chkXpSet { len := 9 } r0).1 ≠ Sts.OK ∧ xpSetEntries xpHeld.cmd = [(97, 0x1000, true)])
    ∧ (let s : State := { r0 with aud := { r0.aud with held := [xpHeld] } }
       s.aud.mxLock = 0 ∧ s.now = tickStart (tickAt s.now) ∧ s.aud.held = [xpHeld]) := by decide +kernel

def mixing : State := (r0.fs F.CL_STAT_STATE 23 1).fs F.CL_MIX_CTL_SKIP 23 0
def grp0 : ConvGrp := ⟨5, 2, true, false, none, false⟩

theorem test_witness_MatrixAsrcAndOutputsRunOnceATick :
    (let u := mixing.elapse 3000
     u.tileMixes 23 = true ∧ tickStart (tickAt u.now) + 3000 ≤ u.now ∧ (u.nextGroup 23).isSome = true
      ∧ max (max (u.tileSkips 23).length (mget 0 mixing.aud.cyc 23)) (u.now - (tickStart (tickAt u.now) + 3000)) + 768
        ≤ u.time.next - (tickStart (tickAt u.now) + 3000))
    ∧ (r0.aud.collTick ≠ r0.time.tick + 1 ∧ tickStart (tickAt (r0.elapse 41665).now) + r0.deadlineNs ≤ (r0.elapse 41665).now)
    ∧ ({ r0 with aud := { r0.aud with collTick := 1 } } : State).aud.collTick = r0.time.tick + 1
    ∧ ({ r0 with aud := { r0.aud with conv := [grp0] } } : State).convOf 5 = some grp0 ∧ grp0.asrc = true := by decide +kernel

/-- Message m of 8 mono bytes, staged. -/
def staged (m : Nat) : Mem :=
  let h := leBytes 4 0x314D5053 ++ leBytes 2 m ++ leBytes 2 0 ++ leBytes 4 2 ++ zeros 4 ++ leBytes 4 (crc32c (zeros 4)) ++ zeros 40
  memWrite [] 0 (h ++ leBytes 4 (crc32c h) ++ zeros 4)

def storing : State := r0.setMsg 15 { r0.msg 15 with staged := staged 15, store := some (ent Code.SP_MSG_COMMIT { a := 15 }) }
def playing : State :=
  let s := (r0.fs F.SP_STAT_READY 0 1).fs F.SP_MSG_PRESENT 2 1
  let s := s.setVoice 15 { Voice.idle with busy := true, msg := 2, left := 1, pos := 4 }
  s.setZone 31 { Zone.idle with voice := some 15 }

theorem test_witness_StandpipePlaysStoresAndTimes :
    ((chkSpPlay { a := 0x10203, b := 2 ^ 31 } ((r0.fs F.SP_STAT_READY 0 1).fs F.SP_MSG_PRESENT 2 1)).1 = Sts.OK ∧ (chkSpPlay { b := 1 } r0).1 ≠ Sts.OK
      ∧ (r0.zone 31).voice = none ∧ (r0.voice 3).busy = false)
    ∧ ((chkSpPlay { a := 0x101020F, b := 1 } playing).1 = Sts.OK ∧ (playing.zone 0).voice = none ∧ (playing.voice 15).busy = true)
    ∧ ((chkSpStop { b := 2 ^ 31 } playing).1 = Sts.OK ∧ (playing.zone 31).voice = some 15 ∧ (chkSpStop { b := 1 } (playing.setZone 0 { Zone.idle with voice := some 15, auto := true })).1 ≠ Sts.OK)
    ∧ (msgOk 15 (staged 15) = true ∧ msgOk 14 (staged 15) = false ∧ (r0.msg 15).store = none
      ∧ (storing.msg 15).store = some (ent Code.SP_MSG_COMMIT { a := 15 })
      ∧ r0.storeUsed 15 + 64 + msgBytes (staged 15) ≤ 0x4000000)
    ∧ (r0.sp.raw.testBit 7 ≠ true ∧ (r0.fg F.SP_STAT_ALARM 0).testBit 7 ≠ true)
    ∧ (let s : State := up 20 { r0 with sp := { r0.sp with raw := 128, deb := [(7, 21)] } }
       mget 0 s.sp.deb 7 ≠ 0 ∧ mget 0 s.sp.deb 7 ≤ s.time.up + 1)
    ∧ r0.lossDue 31 = true
    ∧ (let s := up (10 ^ 11) ((playing.fs F.SP_WATCH_A_VALID0 31 1).setZone 31 { Zone.idle with voice := some 15, auto := true })
       (s.zone 31).auto = true ∧ (s.zone 31).voice = some 15 ∧ ({ s with sp := { s.sp with watch := [(0, 1)] } } : State).returnDue 31 = true)
    ∧ ((playing.voice 15).busy = true ∧ (playing.voice 15).again = false ∧ msgLen (playing.voiceCopy (playing.voice 15)) ≤ (playing.voice 15).pos
      ∧ (playing.voice 15).left = 1 ∧ (playing.voice 15).auto = false ∧ (playing.voice 15).msg < 16
      ∧ ddrW.log = 7 ∧ eccDecide (playing.effSyn ddrW 3) = 2) := by decide +kernel

/-! Units -/

/-- Unit 3 runs, its pc at a word. -/
def runs (w : Word) : State :=
  let s := unitAt 3 2 prog1 r0
  { s with integ := { s.integ with mem := memWrite [] (dpaProg 3) (leBytes 4 w.toNat) } }

def issues (u : Nat) (x : UPort) (i : JInstr) (s : State) : Bool :=
  s.canIssue u && jdecode (s.fetch u (s.core u).pc) == some i && (s.fetchEcc u x.fsyn).1 == 0
    && !((decide ((s.core u).slots > 0) && i.noSlot) || (decide ((s.core u).rep > 0) && i.noRep))

theorem test_issues_is_issues {u : Nat} {x : UPort} {i : JInstr} {s : State} (h : issues u x i s = true) : Issues u x i s := by
  simp only [issues, Bool.and_eq_true, beq_iff_eq, Bool.not_eq_true'] at h
  refine ⟨h.1.1.1, h.1.1.2, h.1.2, ?_⟩
  intro hc
  have h2 := h.2
  rcases hc with ⟨a, b⟩ | ⟨a, b⟩ <;> simp [a, b] at h2

/-- Whether an instruction issues at unit 3. -/
def issued (l : List JInstr) : Bool := l.all (fun i => issues 3 {} i (runs (jencode i)))

theorem test_witness_RegisterAndAccumulatorInstructions :
    issued ([AluOp.add, .adds, .sub, .subs, .and, .or, .xor, .neg, .abs, .min, .max, .lsl, .lsr, .asr, .mul, .mulf].map (.alu · 15 14 13)
      ++ [.alu .cmp 0 15 14] ++ [ImmOp.addi, .andi, .ori, .xori].map (.alui · 15 14 65535) ++ [.alui .cmpi 0 3 7, .alui .lsli 1 2 31,
        .alui .lsri 1 2 31, .alui .asri 1 2 31, .alui .movi 15 0 65535, .alui .movhi 15 0 65535, .mov 15 0x10, .pmod 7 7, .paddi 7 65535,
        .aldi 0x3C 65535, .aldh 0x2F 65535, .nop]) = true
    ∧ issued ([AccOp.mpy, .mpyn, .mpyi, .mac, .msu, .maci, .msui].map (.accu · 3 0 15 14 0 0) ++ [.accu .clr 3 0 0 0 0 0, .accu .adda 3 2 0 0 0 0,
        .accu .suba 3 2 0 0 0 0, .accu .accd 3 0 15 0 0 0, .accu .nega 3 0 0 0 0 0, .accu .absa 3 0 0 0 0 0, .accu .asla 3 0 0 0 63 0,
        .accu .asra 3 0 0 0 63 0, .accu .exp 3 0 15 0 0 0, .accu .norm 3 0 15 0 0 0, .accu .mva 3 0 15 0 0 3, .accu .mva24 3 0 15 0 0 1,
        .accu .cmpa 3 2 0 0 0 0, .smac 3 3 15 14 1 0 0 0, .smac 3 3 15 14 1 3 2 15, .dmac 0 1 1 1 7 6 5 4 0 0 0 0 0 0,
        .dmac 0 1 1 1 7 6 5 4 2 3 7 0 0 0]) = true
    ∧ (runs 1).uAddr 3 7 0 4 false = .mem (dpaY 3) false ∧ (runs 1).uAddr 3 3 0 4 false = .mem (dpaX 3) false
      ∧ ((runs 1).seen 3).cr 0x17 = 0
      ∧ (wordOfDpa (dpaX 3)).map (fun w => ((runs 1).eccRead w 0 1).1) = some 0 := by decide +kernel

def leaving : State :=
  let s := runs 1
  s.setUnit 3 { s.unit 3 with core := { s.core 3 with wb := [⟨none, dpaX 3 + 65532, [1, 2, 3, 4], 0, 0⟩] } }

theorem test_witness_LoadsAndStoresGoThroughTheWriteBuffer :
    issued [.mem .ld 3 7 3 15, .mem .ldd 3 7 3 14, .mem .ldr 3 7 3 0x10, .mem .st 3 7 3 15, .mem .std 3 7 3 14, .mem .str 3 7 3 0x10,
      .sta 3 7 3 3 1 3, .raise 88] = true
    ∧ (runs 1).uAddr 3 3 0 8 true = .mem (dpaX 3) false ∧ ((runs 1).core 3).wb.length < 8 ∧ (runs 1).ownsLine 3 88 = true
    ∧ ((leaving.core 3).wb = [⟨none, dpaX 3 + 65532, [1, 2, 3, 4], 0, 0⟩]
      ∧ ((wordsOf (dpaX 3 + 65532) 4).all (fun p => !leaving.refusesPartial p 0)) = true) := by decide +kernel

def interrupted : State :=
  let s := runs 1
  s.setUnit 3 { s.unit 3 with core := { s.core 3 with sf := sfIE, iev := true, imask := 1 } }

theorem test_witness_ControlInstructionsMoveThePc :
    issued [.br 12 16383, .call 15 16383, .jr 15, .reti, .dbnz 16383, .rep 4095, .repl] = true
    ∧ (interrupted.canIssue 3 = true ∧ (interrupted.core 3).drain.slots = 0 ∧ (interrupted.core 3).drain.rep = 0
      ∧ interrupted.intPending 3 ≠ 0 ∧ (interrupted.core 3).drain.sf &&& sfIE ≠ 0
      ∧ interrupted.progOf (interrupted.role 3) = some prog1) := by decide +kernel

def pended (i : JInstr) : State :=
  let s := runs (jencode i)
  s.setUnit 3 { s.unit 3 with core := { s.core 3 with pend := 2 ^ 255, d := [(14, 0x80000000)] } }
def interruptedAt (i : JInstr) : State :=
  let s := runs (jencode i)
  s.setUnit 3 { s.unit 3 with core := { s.core 3 with sf := sfIE, iev := true, imask := 1 } }

theorem test_witness_WaitDoneAndTrapsEndOrHoldTheTick :
    (issues 3 {} (.wait 255) (pended (.wait 255)) = true ∧ ((pended (.wait 255)).core 3).pend.testBit 255 = true)
    ∧ (issues 3 {} (.wait 255) (interruptedAt (.wait 255)) = true ∧ (interruptedAt (.wait 255)).intPending 3 ≠ 0
      ∧ ((interruptedAt (.wait 255)).seen 3).drain.sf &&& sfIE ≠ 0 ∧ (pended (.wait 255)).intPending 3 = 0)
    ∧ (issued [.wait 255] = true ∧ ((runs (jencode (.wait 255))).core 3).pend.testBit 255 = false)
    ∧ (let s := pended (.waitm 7 14 15)
       issues 3 {} (.waitm 7 14 15) s = true ∧ ((((List.range 32).filter (fun i => ((s.seen 3).dr 14).toNat.testBit i)).map
        (fun i => 32 * 7 + i)).find? (fun l => (s.core 3).pend.testBit l)) = some 255)
    ∧ (issued [.done] = true ∧ ((runs (jencode .done)).core 3).wb = [])
    ∧ ((runs 0).canIssue 3 = true ∧ ((runs 0).fetchEcc 3 0).1 = 0 ∧ jdecode ((runs 0).fetch 3 0) = none) := by decide +kernel

theorem test_witness_PendingWritesAndResultsAreExact :
    UCore.reset.idx + 3 ≤ 3 ∧ (2 : Nat) < UCore.reset.idx + 3 ∧ (32 : Nat) ≤ (0xFFFFFFFF : Word).toNat % 64 ∧ (1 : Nat) ≠ 0 := by decide

def loadOf (e : Option Entry) : ULoad := ⟨e, 5, prog1, false⟩
def loading (p : Option UProg) : State := r0.setUnit 191 { r0.unit 191 with load := some (loadOf none), prog := p }
def param3 : State := unitAt 3 1 parProg r0

theorem test_witness_UnitsAreLoadedAndParametersSwapped :
    (((loading none).unit 191).load = some (loadOf none) ∧ ((loading none).unit 191).prog = none)
    ∧ (((loading (some prog1)).unit 191).prog = some prog1)
    ∧ ((chkUnitUnload { a := 3 } param3).1 = Sts.OK ∧ (chkUnitUnload { a := 4 } param3).1 ≠ Sts.OK ∧ param3.ust 3 ≠ 6
      ∧ param3.spareOf 0 ≠ some 3 ∧ { ent Code.UNIT_SET { a := 3 } with wrote := true }.wrote = true
      ∧ param3.arm .UNIT_CTL 3 = false ∧ (param3.setArm .UNIT_CTL 3 true).arm .UNIT_CTL 3 = true ∧ (unitAt 3 6 prog1 r0).ust 3 = 6)
    ∧ (wordsOf (param3.parBase 3 (1 - param3.parAct 3) + 4088) 8).all (fun p => !param3.refusesPartial p 0) = true
    ∧ (bitList 192 (cmdMask { a := 8 }) = [3] ∧ param3.progOf 3 = some parProg) := by decide +kernel

def spared (stat redir : Nat) : State :=
  let s := unitAt 3 6 prog1 ((r0.fs F.RG_SPARE_STAT_STATE 0 stat).fs F.RG_SPARE_STAT_FOR_UNIT 0 3)
  { s with eng := { s.eng with spAt := [(0, 7)], redir := [(0, redir)], restore := [(3, ent Code.UNIT_RESTORE { a := 3 })] },
           time := { s.time with tick := 7 } }

theorem test_witness_SparesTakeOverAndReturn :
    (chkUnitSpare { a := 3 } (unitAt 3 1 prog1 r0)).1 = Sts.OK ∧ (chkUnitSpare { a := 4 } r0).1 ≠ Sts.OK
    ∧ ((spared 1 0).fg F.RG_SPARE_STAT_STATE 0 = 1 ∧ mget 0 (spared 1 0).eng.spAt 0 ≠ 0 ∧ mget 0 (spared 1 0).eng.spAt 0 ≤ (spared 1 0).time.tick)
    ∧ ((spared 1 1).spareOf 0 = some 31 ∧ (spared 1 1).progOf ((spared 1 1).fg F.RG_SPARE_STAT_FOR_UNIT 0) = some prog1
      ∧ mget 0 (spared 1 1).eng.redir 0 = 1)
    ∧ ((chkUnitRestore { a := 3 } (spared 2 1)).1 = Sts.OK ∧ (chkUnitRestore { a := 3, ok := false } (spared 2 1)).1 ≠ Sts.OK)
    ∧ (mfind (spared 2 1).eng.restore 3 = some (ent Code.UNIT_RESTORE { a := 3 }) ∧ (spared 2 1).spareOf (3 / 32) ≠ some 3) := by
  decide +kernel

def resetting (st : Nat) (loaded : Bool) : State :=
  let s := r0.fs F.CL_STAT_STATE 23 st
  { s with eng := { s.eng with clReq := [(23, (5, none))], clRst := [(23, ⟨5, loaded, none⟩)] }, time := { s.time with tick := 16 } }

theorem test_witness_ClusterResetRunsItsCourse :
    (mfind r0.eng.clRst 23 = none ∧ mfind r0.eng.clReq 23 = none ∧ (chkClReset { a := 23 } r0).1 = Sts.OK
      ∧ (chkClReset { a := 23 } (resetting 2 false)).1 ≠ Sts.OK)
    ∧ (({ (r0.fs F.PMP_CH_STAT_STATE 383 2) with pmp := { r0.pmp with ch := [(383, { PmpCh.reset with desc := zeros 4 ++ [1] ++ zeros 27 })] } }
        : State).pmpHas (16 * 23 + 15) = true)
    ∧ (mfind (resetting 1 false).eng.clReq 23 = some (5, none) ∧ 5 ≤ (resetting 1 false).time.tick)
    ∧ (mfind (resetting 2 false).eng.clRst 23 = some ⟨5, false, none⟩ ∧ (resetting 2 false).clState 23 = 2)
    ∧ ((resetting 3 false).clState 23 = 3 ∧ mfind (resetting 3 false).smp.clF 23 = none)
    ∧ (mfind (resetting 3 true).eng.clRst 23 = some ⟨5, true, none⟩ ∧ 5 + 11 ≤ (resetting 3 true).time.tick) := by decide +kernel

def bound (k : Nat) : State :=
  let s := unitAt 190 4 { prog1 with binds := [⟨k, 5, 0x1FFFF0⟩] } (r0.fs F.CL_STAT_STATE 23 1)
  s
def waking : State :=
  let s := unitAt 3 4 { prog1 with ready := some 0 } ((r0.fs F.CL_STAT_STATE 0 1).fs F.RG_PWR_ON 0 1)
  let s := (List.range 6).foldl (fun s g => s.fs F.RG_SPARE_EN g 0) s
  { s with time := { s.time with tick := 1 } }

theorem test_witness_UnitsWakeAndMeetTheDeadline :
    ((bound 1).clusterRuns 23 = true ∧ (bound 1).progsOf 23 = [(190, { prog1 with binds := [⟨1, 5, 0x1FFFF0⟩] })])
    ∧ ((bound 3).clusterRuns 23 = true ∧ (bound 3).progsOf 23 = [(190, { prog1 with binds := [⟨3, 5, 0x1FFFF0⟩] })])
    ∧ (tickStart (tickAt (waking.elapse 3000).now) + 3000 ≤ (waking.elapse 3000).now ∧ waking.eng.units.map (·.1) = [3]
      ∧ (∀ g, g < 6 → waking.spareOf g = none) ∧ (waking.elapse 3000).mayWake 3 = true ∧ waking.eng.woken ≠ waking.time.tick + 1 ∧ waking.ust 3 = 4
      ∧ waking.progOf 3 = some { prog1 with ready := some 0 })
    ∧ (tickStart (tickAt ((runs 1).elapse 41665).now) + (runs 1).deadlineNs ≤ ((runs 1).elapse 41665).now
      ∧ (∀ p ∈ (runs 1).eng.units, p.1 < 192 ∧ (runs 1).ust p.1 = 2)) := by decide +kernel

def toRestore (w : WordId) : State := { r0 with integ := { r0.integ with restore := [wkey w] } }

theorem test_witness_WindlassRestoresWhatItCan :
    ((r0.fs F.RG_PWR_ON 5 0).fb F.RG_PWR_ON 5 = false ∧ r0.standby = false ∧ r0.pwr ≠ 3) ∧ wkey ddrW ∈ (toRestore ddrW).integ.restore
    ∧ (wordOfDpa 0x1100000000).map (·.log) = some 0 := by decide +kernel

def portUp (n st : Nat) : State := r0.fs F.DP_STAT_STATE n st
def setPort (n : Nat) (s : State) (f : DrvPort → DrvPort) : State := s.setPort n (f (s.port n))

theorem test_witness_DrivePortCommandsSetAndRetrain :
    (r0.paired = false ∧ ∀ x ∈ r0.dueNext, x.seq < r0.hif.cmdSeq)
    ∧ ((chkDpMbxSend { a := 23, len := 208 } (portUp 23 2)).1 = Sts.OK ∧ (chkDpMbxSend { a := 23, len := 209 } (portUp 23 2)).1 ≠ Sts.OK)
    ∧ (chkBgSet { a := 47, i0 := resetWord .BG_CTL 0, i1 := resetWord .BG_RAIL 0 } r0).1 = Sts.OK ∧ (chkBgSet { a := 48 } r0).1 ≠ Sts.OK := by
  decide +kernel

theorem test_witness_DriveChannelsAreWrittenInactive :
    (chkDcWrite { a := 191, b := 1, len := 8, buf := zeros 8 } r0).1 = Sts.OK
    ∧ (chkDcWrite { a := 191, b := 1, len := 8, buf := zeros 8 } { r0 with drv := { r0.drv with lock := 2 } }).1 ≠ Sts.OK
    ∧ (chkFltLineWrite { a := 191, b := 1, len := 16, buf := zeros 16 } r0).1 = Sts.OK
    ∧ (chkFltLineWrite { a := 192, b := 1, len := 16, buf := zeros 16 } r0).1 ≠ Sts.OK := by decide +kernel

/-- A good frame of a power cell (R174), answering TX frame 5. -/
def rxGood : RxFrame :=
  let b := [0, 0x10] ++ leBytes 2 5 ++ zeros 152
  { bytes := b ++ leBytes 4 (crc32c (b.drop 1)), rtt := 400 }
/-- One that also says the cell is ready. -/
def rxReady : RxFrame :=
  let b := [0, 0x10] ++ leBytes 2 5 ++ zeros 44 ++ [1] ++ zeros 107
  { bytes := b ++ leBytes 4 (crc32c (b.drop 1)), rtt := 400 }
def tx7 : TxFrame := { gf := 7, mts := 0, phase := 0, codes := [], boost0 := 0, boost1 := 0, mbx := [], claim := 0, bytes := [] }

/-- Port 23 in UP with channel 191 switching. -/
def switching8 : State :=
  let s := (r0.fs F.DP_STAT_STATE 23 3).fs F.BG_CTL_OUT_MODE 47 2
  (s.setPort 23 { s.port 23 with age := 0 }).setCh 191 { s.ch 191 with st := 1 }

theorem test_witness_DriveLinksComeUpAndGoDown :
    (r0.time.frame < 64 ∧ ({ r0 with time := { r0.time with sample := 1 } } : State).time.sample > r0.time.frame / 16
      ∧ r0.time.sample ≤ r0.time.frame / 16 ∧ r0.hiZ 191 = true ∧ switching8.hiZ 191 = false
      ∧ codeMin (switching8.fg F.DP_MOD_MIN_PULSE 23) (codeStep (switching8.fg F.DP_CTL_CODE_BITS 23)) ≤ 32768 ∧ r0.arm .DP_CTL 23 = false ∧ (portUp 23 1).fg F.DP_STAT_STATE 23 ≠ 0
      ∧ ((r0.fs F.DP_CTL_EN 23 1).fs F.DP_STAT_STATE 23 0).fb F.DP_CTL_EN 23 = true ∧ (r0.fs F.DP_STAT_STATE 23 0).fg F.DP_STAT_STATE 23 = 0
      ∧ r0.fb F.DP_CTL_EN 23 = false ∧ (r0.port 23).offLeft = 0)
    ∧ (let s := setPort 23 (portUp 23 1) (fun p => { p with tx := some tx7, good := 63 })
       s.fg F.DP_STAT_STATE 23 = 1 ∧ rxValid rxGood = true ∧ (s.port 23).tx = some tx7 ∧ leAt rxGood.bytes 2 2 = (tx7.gf + 65534) % 65536
        ∧ rxGood.rtt ≤ 400 ∧ 63 ≤ (s.port 23).good)
    ∧ ((portUp 23 2).fg F.DP_STAT_STATE 23 = 2 ∧ rxValid rxReady = true ∧ (leAt rxReady.bytes 0x30 4).testBit 0 = true
      ∧ (leAt rxGood.bytes 0x30 4).testBit 0 = false)
    ∧ rxValid { rxGood with codesOk := false } = false
    ∧ (let s := up (10 * msNs) (portUp 23 1)
       (s.port 23).raised = false ∧ (s.port 23).since + 10 * msNs ≤ s.time.up)
    ∧ (4 ≤ ((portUp 23 3).port 23).age)
    ∧ (let s := up msNs (portUp 23 4)
       s.fg F.DP_STAT_STATE 23 = 4 ∧ (s.port 23).since + msNs ≤ s.time.up)
    ∧ (let s := up msNs (setPort 23 r0 (fun p => { p with out := [[1]], entry := some (ent Code.DP_MBX_SEND { a := 23 }) }))
       (s.port 23).out ≠ [] ∧ (s.port 23).outAt + msNs ≤ s.time.up ∧ (s.port 23).entry = some (ent Code.DP_MBX_SEND { a := 23 })) := by
  decide +kernel

def grpAt (g : Nat) (s : State) (f : BoostGrp → BoostGrp) : State := s.setGrp g (f (s.grp g))
def chAt (c : Nat) (s : State) (f : DrvCh → DrvCh) : State := s.setCh c (f (s.ch c))

theorem test_witness_FloatGuardsItsChannels :
    (chkFltSet { a := 255, i0 := resetWord .FLT_CTL 0, i3 := resetWord .LW_CTL 0 } r0).1 = Sts.OK
    ∧ (let s := up (200 * msNs) (r0.fs F.FLT_CAP_MEAS 47 1)
       s.fg F.FLT_CAP_MEAS 47 = 1 ∧ (s.grp 47).at_ + 200 * msNs ≤ s.time.up)
    ∧ (let s := up (10 * msNs) (grpAt 47 r0 (fun g => { g with over5 := some 0, okAt := some 0 }))
       (s.grp 47).over5 = some 0 ∧ 0 + msNs ≤ s.time.up ∧ (s.grp 47).off = false ∧ (s.grp 47).okAt = some 0)
    ∧ (let s := up (10 * msNs) (chAt 191 (grpAt 47 r0 (fun g => { g with off := true, okAt := some 0 })) (fun x => { x with st := 1 }))
       (s.grp 47).okAt = some 0 ∧ 0 + 10 * msNs ≤ s.time.up ∧ (s.grp 47).off = true ∧ (s.ch (4 * 47 + 3)).st ≠ 0)
    ∧ (let s := chAt 191 r0 (fun x => { x with gain0 := 0, gain := 0 })
       (s.ch 191).gain0 = 0 ∧ (s.ch 191).gain = 0)
    ∧ (r0.fs F.FLT_FUSE1_E_WINDOW_CEIL 0 0).eWindow 191 = 0
    ∧ (let s : State := { r0 with aud := { r0.aud with muted := true, fadeTick := 7 } }
       s.aud.muted = true ∧ s.aud.fadeTick ≠ s.time.tick ∧ s.voiceOnly = false)
    ∧ (r0.now / (100 * msNs) = r0.drv.binNo ∧ ({ r0 with time := { r0.time with sec := 1 } } : State).now / (100 * msNs) ≠ r0.drv.binNo)
    ∧ (let s := chAt 191 r0 (fun x => { x with st := 2 })
       (s.ch 191).st = 2 ∧ (s.ch 191).timer ≤ s.time.up)
    ∧ (let s := up (30 * secNs) (chAt 191 r0 (fun x => { x with st := 1 }))
       (s.ch 191).st = 1 ∧ (s.ch 191).normAt + 30 * secNs ≤ s.time.up)
    ∧ (let s := chAt 191 r0 (fun x => { x with st := 3 })
       (s.ch 191).st = 3 ∧ (s.ch 191).timer ≤ s.time.up ∧ 191 ∈ s.drv.chs.map (·.1)) := by decide +kernel

def swp (idx : Nat) (s : State) : State :=
  { s with drv := { s.drv with sweep := some ⟨ent Code.LW_SWEEP { a := 2 }, 0, [5, 40000], 40, 1, false, false, 9, idx, 0, 0, 0, 0, true⟩ },
           time := { s.time with sec := 1 } }
def watched (c : Nat) : State := chAt c (r0.fs F.LW_CTL_EN 0 1) (fun x => { x with st := 1 })
/-- Channel 191 after its first window, `n` ns after its end. -/
def windowOver (n : Nat) : State :=
  let s := watched 191
  let p := { Pilot.reset with acc := { Demod.zero with start := 1, stop := 1000, n := 5 } }
  { s with drv := { s.drv with hf := [(191, p)], lf := [(191, p)] }, time := { s.time with ns := BitVec.ofNat 32 (1000 + n) } }

theorem test_witness_LineWatchSweepsAndReads :
    (r0.drv.sweep = none ∧ ∀ x ∈ r0.sched ++ r0.dueNext, x.code ≠ Code.LW_SWEEP)
    ∧ ((1 : Nat) = 1 ∧ (cmdMask { a := 1 }).testBit 0 = true ∧ lnLw (r0.lnE 0) = true ∧ lnHf (r0.lnE 0) = true)
    ∧ (∃ w, (swp 0 r0).drv.sweep = some w ∧ w.run = true ∧ w.mask % 2 ^ 192 = 0 ∧ w.ptAt + 10 * msNs + w.dwell * 250000000 + 1051 ≤ (swp 0 r0).now
        ∧ w.idx + 1 < w.pts.length)
    ∧ (∃ w, (swp 1 r0).drv.sweep = some w ∧ w.run = true ∧ w.ptAt + 10 * msNs + w.dwell * 250000000 + 1051 ≤ (swp 1 r0).now
        ∧ w.pts.length ≤ w.idx + 1)
    ∧ (let s := windowOver 1051
       let p := s.pil true 191
       s.pilSet true 191 = true ∧ (s.ch 191).st = 1 ∧ 0 < p.acc.stop ∧ p.acc.start ≤ s.now ∧ p.acc.stop + 1051 ≤ s.now
        ∧ s.now < p.acc.stop + (lnTint (s.lnE 191) + 1) * 250000000 ∧ p.acc.n ≠ p.acc.bad ∧ p.left = 0 ∧ s.drv.blCmd = [])
    ∧ (let s := windowOver 1050
       (s.ch 191).st = 1 ∧ s.drv.blCmd = [] ∧ ∀ hf, 0 < (s.pil hf 191).acc.stop ∧ (s.pil hf 191).acc.start ≤ s.now
        ∧ s.now < (s.pil hf 191).acc.stop + 1051 ∧ s.now < (s.pil hf 191).acc.stop + (lnTint (s.lnE 191) + 1) * 250000000) := by
  refine ⟨by decide +kernel, by decide +kernel, ⟨_, rfl, ?_⟩, ⟨_, rfl, ?_⟩, by decide +kernel, by decide +kernel⟩ <;> decide +kernel

def setTdm (p : Nat) (s : State) (f : TdmPort → TdmPort) : State := { s with ap := { s.ap with tdm := mput TdmPort.reset s.ap.tdm p (f (s.tdm p)) } }
def tdmMaster (st : Nat) : State :=
  (((r0.fs F.TDM_CTL_AG 15 3).fs F.TDM_CTL_RX_EN 15 1).fs F.TDM_CTL_MASTER 15 1).fs F.TDM_STAT_STATE 15 st
def tdmSlave (st n : Nat) : State :=
  setTdm 15 (((r0.fs F.TDM_CTL_RX_EN 15 1).fs F.TDM_CTL_MASTER 15 0).fs F.TDM_STAT_STATE 15 st) (fun x => { x with lockN := n, last := some 0 })

theorem test_witness_AudioPortsConfigureLockAndReport :
    ((3 : Nat) < 4 ∧ (tdmMaster 1).fg F.TDM_CTL_AG 15 = 3 ∧ (tdmMaster 1).fg F.TDM_STAT_STATE 15 = 1 ∧ (tdmMaster 1).tdmOn 15 = true
      ∧ (tdmMaster 1).fb F.TDM_CTL_MASTER 15 = true ∧ ((tdmMaster 1).tdm 15).moved ≠ (tdmMaster 1).time.tick + 1 ∧ r0.standby = false ∧ r0.pwr ≠ 3 ∧ r0.level ≠ 4)
    ∧ ((tdmMaster 3).fg F.TDM_STAT_STATE 15 = 3 ∧ (tdmMaster 3).fb F.TDM_CTL_MASTER 15 = true ∧ (tdmMaster 3).arm .TDM_CTL 15 = false
      ∧ (frameNo ((tdmMaster 3).tdmFs 15) ((tdmMaster 3).elapse 0).now).isSome = true)
    ∧ ((tdmSlave 2 15).fg F.TDM_STAT_STATE 15 = 2 ∧ (tdmSlave 2 15).fb F.TDM_CTL_MASTER 15 = false
      ∧ (tdmSlave 2 15).fb F.TDM_CTL_SYNC 15 = false ∧ (tdmSlave 2 15).arm .TDM_CTL 15 = false
      ∧ (tdmSlave 2 15).tdmSlots 15 * (tdmSlave 2 15).tdmBitsOf 15 ≠ 1 ∧ 15 ≤ ((tdmSlave 2 15).tdm 15).lockN)
    ∧ (let s := up secNs (tdmSlave 3 0)
       (s.tdm 15).last = some 0 ∧ s.fg F.TDM_STAT_STATE 15 = 3 ∧ s.fb F.TDM_CTL_MASTER 15 = false
        ∧ 0 + 2 * 1000000000 / s.tdmFs 15 ≤ s.time.up)
    ∧ (r0.fg F.TDM_CTL_RING_DIR 15 = 0 ∧ (65536 - 1) % 65536 > 2 ^ r0.fg F.TDM_RING_CFG_SIZE 15 ∧ 0 ≤ 2 ^ r0.fg F.TDM_RING_CFG_SIZE 15)
    ∧ ((r0.fs F.PDM_CTL_MIC0_EN 7 1).micEn 7 0 = true ∧ r0.micStuck 7 0 = false) := by decide +kernel

def setPeer (p : Nat) (s : State) (f : NetPort → NetPort) : State := s.setNp p (f (s.np p))
def linked (p : Nat) : State := (r0.fs F.NET_CTL_EN p 1).fs F.NET_STAT_UP p 1
def held1 : State := { r0 with net := { r0.net with mgmt := [⟨1, zeros 64, 9⟩] } }

theorem test_witness_NetworkCommandsSetPortsStreamsAndTables :
    ((accMask (netReg 7 0).1 (· == .rw)).testBit 0 = true ∧ (10 : Nat) < 11)
    ∧ ((Nat.testBit 511 8) = true ∧ Nat.testBit 255 8 = false)
    ∧ ((128 : Nat) = 2 ^ 7 ∧ (linked 7).net.waitTx = [] ∧ ((linked 7).np 7).mgmtAt ≤ (linked 7).time.up ∧ (linked 7).level ≠ 4
      ∧ (linked 7).netUp 7 = true ∧ (linked 7).txFits 7 0 (((zeros 60).take 60).length + 4) = true)
    ∧ (held1.net.mgmt = [⟨1, zeros 64, 9⟩] ∧ (zeros 64).length ≤ 64) := by decide +kernel

/-- A frame of 60 bytes to the address 6 of type `ty`, without a tag, and the bytes that follow the type. -/
def ethFrame (da ty : Nat) (l : List Nat) : List Byte :=
  beBytes 6 da ++ zeros 6 ++ beBytes 2 ty ++ l.map (BitVec.ofNat 8) ++ zeros (46 - l.length)
def fwd67 : State :=
  { (linked 7).fs F.NET_STAT_UP 6 1 with net := { (linked 7).net with fwd := [(4095, 2 ^ 63 + 2 ^ 60 + 6 + 2 ^ 70 + 15 * 2 ^ 76 + 2 ^ 87)] } }

/-- A frame that arrives whole at port p, with no word of the buffer in error. -/
def received (p : Nat) (b : List Byte) (s : State) : Bool :=
  s.netUp p && decide (64 ≤ b.length + 4)
    && decide (b.length + 4 ≤ s.fg F.NET_CTL_MAX_FRAME p + (if (ethHdr b).tagged then 4 else 0))
    && (s.rxStore p (s.rxClass p b) (b.length + 4) 0 0).isSome && eccDecide (s.effSyn ⟨6, 1, p, 0⟩ 0) == 0

theorem test_witness_NetworkPortsReceiveForwardAndSend :
    ((r0.fs F.NET_CTL_EN 7 1).fb F.NET_CTL_EN 7 = true ∧ r0.netUp 7 = false
      ∧ (r0.fs F.NET_STAT_MOD_ABS 7 0).fb F.NET_STAT_MOD_ABS 7 = false)
    ∧ ((linked 7).netUp 7 = true ∧ (zeros 59).length + 4 < 64)
    ∧ (let b := ethFrame 0 0x0806 []
       received 7 b (linked 7) = true ∧ (ethHdr b).etype ∉ [0x0800, 0x8808, 0x88B5, 0x88F7]
        ∧ (linked 7).fwdLookup 7 b = none ∧ frameDa b = beAt ((linked 7).netMac 7) 0 6 ∧ (linked 7).net.mgmt.length < 256)
    ∧ (let b := ethFrame 6 0x0806 []
       received 7 b fwd67 = true ∧ ∃ e, fwd67.fwdLookup 7 b = some e ∧ bitList 8 (fwdPorts e) = [6] ∧ fwd67.netUp 6 = true ∧ fwdLocal e = false
        ∧ fwd67.txFits 6 (fwd67.fwdClass 7 e b) (b.length + 4) = true)
    ∧ (let b := ethFrame 0x0180C2000001 0x8808 [0, 1, 255, 255]
       let s := (linked 7).fs F.NET_CTL_PAUSE_OBEY 7 1
       received 7 b s = true ∧ (ethHdr b).etype = 0x8808 ∧ beAt b (ethHdr b).off 2 = 1
        ∧ beAt b ((ethHdr b).off + 2) 2 ≠ 0 ∧ s.fb F.NET_CTL_PAUSE_OBEY 7 = true ∧ s.netUp 7 = true)
    ∧ ((setPeer 7 r0 (fun x => { x with pauseEnd := some 0 })).np 7).pauseEnd = some 0
    ∧ (let s := setPeer 7 (linked 7) (fun x => { x with q := [(3, [⟨zeros 60, none, 3, none, false⟩])] })
       s.netUp 7 = true ∧ (s.np 7).txFree ≤ (s.elapse 0).time.up ∧ (s.np 7).pauseEnd = none
        ∧ ((s.elapse 0).creditRun 7).pickQueue 7 = some 3 ∧ (s.np 7).queue 3 = [⟨zeros 60, none, 3, none, false⟩]
        ∧ eccDecide (s.effSyn ⟨6, 1, 7, 0⟩ 0) = 0) := by
  refine ⟨by decide +kernel, by decide +kernel, by decide +kernel, ⟨by decide +kernel, _, rfl, ?_⟩, by decide +kernel, by decide +kernel, by decide +kernel⟩
  decide +kernel

def ptpRun (role mech : Nat) : State :=
  setPeer 7 ((((linked 7).fs F.NET_PTP_CFG_TRANSPORT 7 0).fs F.NET_PTP_CFG_ROLE 7 role).fs F.NET_PTP_CFG_MECH 7 mech) (fun x =>
    { x with ptp := { x.ptp with master := zeros 10 } })

theorem test_witness_PtpPortsSendTheirMessages :
    ((ptpRun 2 0).ptpRole 7 = 2 ∧ (ptpRun 2 0).fg F.NET_PTP_CFG_TRANSPORT 7 = 0 ∧ (ptpRun 2 0).netUp 7 = true ∧ (ptpRun 2 0).level ≠ 4
      ∧ ((ptpRun 2 0).np 7).queued [7] + 200 ≤ 65536 ∧ ((ptpRun 2 0).np 7).ptp.ds.length ≤ 20
      ∧ ((ptpRun 2 0).np 7).ptp.syncDue ≤ (ptpRun 2 0).time.up ∧ ((ptpRun 2 0).np 7).ptp.annDue ≤ (ptpRun 2 0).time.up)
    ∧ ((ptpRun 1 1).ptpRole 7 ≠ 0 ∧ (ptpRun 1 1).ptpP2p 7 = true ∧ (ptpRun 1 1).fg F.NET_PTP_CFG_TRANSPORT 7 = 0
      ∧ (ptpRun 1 1).netUp 7 = true ∧ ((ptpRun 1 1).np 7).ptp.pdDue ≤ (ptpRun 1 1).time.up)
    ∧ ((ptpRun 1 0).ptpRole 7 = 1 ∧ (ptpRun 1 0).ptpP2p 7 = false ∧ ((ptpRun 1 0).np 7).ptp.master ≠ []
      ∧ ((ptpRun 1 0).np 7).ptp.udp = false ∧ (ptpRun 1 0).netUp 7 = true ∧ ((ptpRun 1 0).np 7).queued [7] + 200 ≤ 65536)
    ∧ (let s := up (100 * secNs) (ptpRun 1 0)
       (s.np 7).ptp.annAt + s.fg F.NET_PTP_CFG_ANN_TIMEOUT 7 * logNs (s.fgI F.NET_PTP_CFG_LOG_ANNOUNCE 7) ≤ s.time.up) := by
  decide +kernel

/-- A ring of type `ty` in RUN with one descriptor owned by the device. -/
def ringAt (r ty : Nat) : State :=
  ((((r0.fs F.HIF_RING_CFG_TYPE r ty).fs F.HIF_RING_CFG_EN r 1).fs F.HIF_RING_STAT_STATE r 1).fs F.HIF_RING_IDX_HOST_IDX r 1).fs
    F.HIF_RING_CFG_SIZE r 4
def cmdRing : State :=
  (((ringAt 30 0).fs F.HIF_RING_CFG_PAIR 30 31).fs F.HIF_RING_CFG_SIZE 31 4).fs F.HIF_RING_IDX_HOST_IDX 31 15
def ownDesc : Desc := { bytes := zeros 4 ++ leBytes 2 0 ++ leBytes 2 0x8000 ++ zeros 56 }
def audDesc (n : Nat) : Desc := { bytes := zeros 4 ++ leBytes 2 n ++ leBytes 2 0x8000 ++ zeros 56 }
def hifOn (s : State) : State := s.fs F.HIF_STAT_STATE 0 1
def hin : State := { ringAt 31 3 with hif := { r0.hif with taken := [⟨31, 0, 0, 4, 0, [], 0, 0, false, true, false, none⟩] } }

theorem test_witness_HostRingsTakeDescriptorsAndSignal :
    (hifOn (ringAt 31 0)).hifRun = true
    ∧ (let s := ringAt 31 0
       (15 : Nat) < 65536 ∧ (15 + 65536 - s.fg F.HIF_RING_IDX_DEV_IDX 31) % 65536 < 2 ^ s.fg F.HIF_RING_CFG_SIZE 31
        ∧ (s.fg F.HIF_RING_IDX_HOST_IDX 31 + 65536 - s.fg F.HIF_RING_IDX_DEV_IDX 31) % 65536
            ≤ (15 + 65536 - s.fg F.HIF_RING_IDX_DEV_IDX 31) % 65536 ∧ s.ringEn 31 = true
        ∧ ¬ (16 + 65536 - s.fg F.HIF_RING_IDX_DEV_IDX 31) % 65536 < 2 ^ s.fg F.HIF_RING_CFG_SIZE 31)
    ∧ (cmdRing.noCmds = false ∧ cmdRing.ringRuns 30 = true ∧ mget 0 cmdRing.hif.retry 30 = 0 ∧ cmdRing.devOwned 30 ≠ 0
      ∧ cmdRing.hif.taken = [] ∧ cmdRing.ringTy 30 = 0 ∧ (cmdRing.elapse 0).nextRing = some 30
      ∧ cmdRing.fb F.DBG_RUNCTL_PAIR0_HALT 0 = false ∧ descOwn ownDesc = true ∧ ownDesc.bytes.length = 64
      ∧ ownDesc.readOk = true ∧ descOwn { ownDesc with bytes := zeros 64 } = false)
    ∧ ((ringAt 31 4).noCmds = false ∧ (ringAt 31 4).ringRuns 31 = true ∧ (ringAt 31 4).devOwned 31 ≠ 0 ∧ (ringAt 31 4).ringTy 31 = 4
      ∧ descOwn (audDesc 4096) = true ∧ (ringAt 31 4).framesOk 31 4096 = true ∧ leAt (audDesc 4096).bytes 4 2 = 4096)
    ∧ (∃ d, hin.hif.taken.find? (fun x => x.ring == 31) = some d ∧ hin.ringTy 31 = 3 ∧ hin.hinDone d = true)
    ∧ (let s := up 50000 { r0 with hif := { r0.hif with coal := [(31, (1, 0))] } }
       (mget (0, 0) s.hif.coal 31).1 ≠ 0 ∧ (mget (0, 0) s.hif.coal 31).2 + 50000 ≤ s.time.up) := by
  refine ⟨by decide +kernel, by decide +kernel, by decide +kernel, by decide +kernel, ⟨_, rfl, ?_⟩, by decide +kernel⟩
  decide +kernel

def off (r : RegId) (i : Nat) : Nat := regOff r i
def running : State := r0.fs F.HIF_STAT_STATE 0 1
def goGiven (l : AMap Word) : State := { r0 with hif := { r0.hif with goArmed := true, staged := l } }
def badPair : State := ((r0.fs F.HIF_RING_CFG_TYPE 0 0).fs F.HIF_RING_CFG_EN 0 1).fs F.HIF_RING_CFG_PAIR 0 31

theorem test_witness_RegisterWritesStageApplyOrAreIgnored :
    (r0.dead = false ∧ r0.fwMode ≠ 3 ∧ off .WH_BW 0 % 4 = 0 ∧ msixWord (off .WH_BW 0) = none ∧ regAt (off .WH_BW 0) = some (.WH_BW, 0)
      ∧ setupClass .WH_BW = true ∧ running.hifRun = true ∧ running.dead = false ∧ running.fwMode ≠ 3 ∧ secRcv .WH_BW = false
      ∧ dbgReg .WH_BW = false ∧ accMask .WH_BW (· == .w1c) = 0)
    ∧ (r0.hifRun = false ∧ (2 ^ 31 : Nat) < 2 ^ 32
      ∧ okMask .WH_BW (resetWord .WH_BW 0) = accMask .WH_BW (fun a => a == .rw || a == .rws)
      ∧ (accMask .WH_BW (· == .rw)).testBit 0 = true)
    ∧ (msixWord 0x83F0 = some 252 ∧ 0x83F0 % 8 = 0 ∧ 252 % 4 = 0 ∧ msixWord (off .WH_BW 0) = none)
    ∧ (msixWord 0x83F8 = some 254 ∧ 254 % 4 ≠ 3 ∧ 0x83F8 % 4 = 0)
    ∧ (armRegs.contains .TDM_CTL = true ∧ regAt (off .TDM_CTL 15) = some (.TDM_CTL, 15))
    ∧ (r0.noCmds = false ∧ r0.hif.goArmed = false ∧ r0.goCause = 0 ∧ badPair.goCause ≠ 0 ∧ badPair.noCmds = false)
    ∧ ((goGiven [(regKey .WH_BW 0, BitVec.ofNat 32 (resetWord .WH_BW 0))]).hif.goArmed = true) := by decide +kernel

def counted : State := { r0 with net := { r0.net with cnt := [(319, 2 ^ 64 - 1)] } }
def logged : State :=
  { r0 with integ := { r0.integ with logs := [(7, [⟨1, 2, 3⟩])] }, smp := { r0.smp with log := [(1, 2, 3)] } }

theorem test_witness_ReadsThatChangeState :
    (msixAt (off .DP_ERR 23) = false ∧ regAt 3 = none ∧ accMask .DP_ERR (· == .rcl) ≠ 0 ∧ regAt (off .DP_ERR 23) = some (.DP_ERR, 23) ∧ off .DP_ERR 23 % 4 = 0 ∧ (setOf .DP_ERR).isSome)
    ∧ (regAt (off .NET_CNT_LO 319) = some (.NET_CNT_LO, 319) ∧ mget 0 counted.net.cnt 319 < 2 ^ 64 ∧ off .NET_CNT_LO 319 % 4 = 0)
    ∧ regAt (off .WH_ABSORB_LO 0) = some (.WH_ABSORB_LO, 0) ∧ off .WH_ABSORB_LO 0 % 4 = 0
    ∧ (regAt (off .DPR_LOG0 7) = some (.DPR_LOG0, 7) ∧ mget [] logged.integ.logs 7 = [⟨1, 2, 3⟩])
    ∧ (regAt (off .SMP_LOG0 0) = some (.SMP_LOG0, 0) ∧ logged.smp.log = [(1, 2, 3)])
    ∧ openAgg (r0.fg F.PC_AGG_SEL_EVENT 23) = false ∧ (let s := (r0.fs F.PC_SEL_EVENT 767 1).rw .PC_CNT 767 0xFFFFFFFF
       s.fg F.PC_SEL_EVENT 767 ≠ 0 ∧ s.rr .PC_CNT 767 = 0xFFFFFFFF)
    ∧ (let s := (r0.fs F.PC_AGG_SEL_EVENT 23 4).rw .PC_AGG_CNT 23 0xFFFFFFFF
       s.fg F.PC_AGG_SEL_EVENT 23 ≠ 0 ∧ s.rr .PC_AGG_CNT 23 = 0xFFFFFFFF) := by decide +kernel

def censused : State := { r0 with cen := { r0.cen with copy := some ⟨ent Code.CENSUS_AT { a := 31 }, [], [], 5, 6⟩ } }

theorem test_witness_HostCommandsReadAndSetBlocks :
    (regAt (leAt (leBytes 4 (regOff .WH_BW 0) ++ words [(.WH_BW, 0)]) 0 4) = some (.WH_BW, 0) ∧ (8 : Nat) ≤ 512)
    ∧ Nat.testBit 31 4 = true
    ∧ (let s := { r0 with sched := [ent Code.CENSUS_AT { a := 31 }] }
       s.sched = [ent Code.CENSUS_AT { a := 31 }] ∧ (ent Code.CENSUS_AT { a := 31 }).held = false
        ∧ (ent Code.CENSUS_AT { a := 31 }).place ≤ (s.elapse 3).now)
    ∧ (censused.cen.copy = some ⟨ent Code.CENSUS_AT { a := 31 }, [], [], 5, 6⟩ ∧ censused.cen.wait = []
      ∧ Sts.OK ≠ Sts.PMP_ECC ∧ Sts.OK ≠ Sts.PMP_BUS_ERROR) := by decide +kernel

def pmpAt (n st : Nat) (x : PmpCh) : State := (r0.fs F.PMP_CH_STAT_STATE n st).setPch n x
/-- A descriptor of one row of `len` bytes from 0 to 0x2000, with its OWN. -/
def pDesc (len flags : Nat) : List Byte :=
  leBytes 3 len ++ [0] ++ leBytes 2 1 ++ leBytes 2 flags ++ leBytes 8 0 ++ leBytes 8 0x2000 ++ zeros 8

theorem test_witness_PumpChannelsAreControlled :
    ((445 : Nat) < 448 ∧ pmpReserved 445 = false ∧ pmpReserved 383 = false ∧ pmpReserved 416 = false ∧ r0.pmpInReset 445 = false)
    ∧ (r0.pmpState 445 = 0 ∧ (pmpAt 445 1 PmpCh.reset).pmpState 445 = 1 ∧ (pmpAt 445 3 PmpCh.reset).pmpState 445 = 3)
    ∧ (let s := pmpAt 445 2 { PmpCh.reset with desc := pDesc 8 0x8000 }
       s.pmpState 445 = 2 ∧ s.pmpMoved 445 = false ∧ s.pmpResidue 445 < 2 ^ 32) := by decide +kernel

theorem test_witness_PumpsMoveWhatDescriptorsName :
    (let s := pmpAt 447 1 { PmpCh.reset with trig := true }
     let h := s.fs F.PMP_CH_RING_CFG_HOST 447 1
     s.pmpState 447 = 1 ∧ (s.pch 447).trig = true ∧ s.fb F.PMP_CH_RING_CFG_HOST 447 = false ∧ s.integ.errs = []
      ∧ s.pmpDscAddr 447 < 0x1C0000000 - 31 ∧ dscFlag (s.dpaRead (s.pmpDscAddr 447) 32) 15 = false
      ∧ h.fb F.PMP_CH_RING_CFG_HOST 447 = true ∧ h.fg F.PMP_CH_CTL_CLASS 447 ≠ 2 ∧ s.pmpRingOk 447 (s.pmpDscAddr 447) = true ∧ (h.pch 447).trig = true ∧ (pDesc 8 0x8000).length = 32
      ∧ dscFlag (pDesc 8 0x8000) 15 = true
      ∧ dscBad false (h.fg F.PMP_CH_CTL_CLASS 447 == 2) (pDesc 8 0x8000) = false
      ∧ dscBad false (h.fg F.PMP_CH_CTL_CLASS 447 == 2) (pDesc 6 0x8000) = true)
    ∧ (let s := pmpAt 415 2 { PmpCh.reset with desc := pDesc 1028 0x8000, off := 1024 }
       s.pmpNext 25 {} = some 15 ∧ dscFlag (pDesc 1028 0x8000) 10 = false ∧ dscFlag (pDesc 1028 0x8000) 11 = false
        ∧ 1024 < dscLen (pDesc 1028 0x8000) ∧ rowAddr 0x2000 0 0 1024 + 4 ≤ 0x1C0000000)
    ∧ (pmpAt 447 2 { PmpCh.reset with desc := pDesc 8 0x8000, row := 1 }).pmpMoved 447 = true
    ∧ (let s := (pmpAt 447 2 { PmpCh.reset with desc := pDesc 8 0x8000, err := 2, retry := 1 }).fs F.PMP_CH_CTL_RETRY_N 447 2
       s.pmpState 447 = 2 ∧ (s.pch 447).err ≠ 0 ∧ (s.pch 447).retry < s.fg F.PMP_CH_CTL_RETRY_N 447 ∧ (s.pch 447).desc ≠ [])
    ∧ (let s := (pmpAt 447 2 { PmpCh.reset with err := 1, retry := 3 }).fs F.PMP_CH_CTL_RETRY_N 447 3
       s.pmpState 447 = 2 ∧ (s.pch 447).err ≠ 0 ∧ s.fg F.PMP_CH_CTL_RETRY_N 447 ≤ (s.pch 447).retry) := by decide +kernel

theorem test_witness_IntegrityEventsMendAndReport :
    wkey ddrW ∈ ({ r0 with integ := { r0.integ with wback := [wkey ddrW] } }).integ.wback
    ∧ (let s := { r0 with integ := { r0.integ with merge := [(wport ddrW, [⟨wkey ddrW, 0⟩])] } }
       s.hasEntry ddrW = true)
    ∧ ((r0.fs F.DPR_HUB_CTL_EN 0 0).dipEn 7 = false ∧ (r0.fs F.DPR_HUB_CTL_EN 0 1).dipEn 7 = true ∧ r0.dipState 7 = 0)
    ∧ (let s := up (1000000 * secNs) ((((r0.fs F.DPR_CTL_EN 5 1).fs F.RG_PWR_ON 5 1).fs F.DPR_STAT_STATE 5 2).setDip 5 ⟨0, 999999 * secNs, []⟩)
       s.dipEn 5 = true ∧ s.dipState 5 = 2 ∧ (s.dipOf 5).start + s.dipPeriod 5 ≤ s.time.up)
    ∧ (sweeping.dipState 7 = 1 ∧ sweeping.dipCovers 7 ddrW = true ∧ sweeping.hasEntry ddrW = false
      ∧ eccDecide (sweeping.effSyn ddrW 0) = 0 ∧ eccDecide (sweeping.effSyn ddrW 1) = 1)
    ∧ ((r0.fs F.DPR_STAT_STATE 5 1).dipState 5 = 1 ∧ eccDecide ((r0.fs F.DPR_STAT_STATE 5 1).effSyn ddrW 0) = 0) := by decide +kernel

def dNet : Det := ⟨0x40, 7, 0, 0, 0, 5, false, false, 0⟩
def dCl : Det := ⟨0x22, 0, 3, 0, 0, 5, false, false, 0⟩
def detected (d : Det) (l : Nat) (s : State) : State := { s.fs F.SMP_FAM_LEVEL d.fam l with detq := [d] }
def episode (d : Det) (l : Nat) (s : State) : State :=
  s.setSmpCls d.cls false { un := [⟨d, l, l, 0, 0⟩], start := 5, timer := some 0 }

theorem test_witness_SumpTakesFaultsAtTheirLevel :
    ((detected dNet 0 r0).detq = [dNet] ∧ dNet.fam < 0x80 ∧ (detected dNet 0 r0).quenched dNet = false ∧ (detected dNet 0 r0).level ≠ 4
      ∧ (detected dNet 0 r0).famLevel dNet = 0 ∧ ((detected dNet 0 r0).smpCls dNet.cls false).un = []
      ∧ (detected dNet 4 r0).famLevel dNet = 4)
    ∧ ((detected dNet 1 (episode dNet 1 r0)).quenched dNet = false ∧ (detected dNet 1 (episode dNet 1 r0)).famLevel dNet = 1
      ∧ ((detected dNet 1 (episode dNet 1 r0)).smpCls dNet.cls false).un ≠ [])
    ∧ (let s := { detected dCl 1 r0 with eng := { r0.eng with quC := [(3, 1)] } }
       s.detq = [dCl] ∧ dCl.fam < 0x80 ∧ s.quenched dCl = true)
    ∧ (let s := (detected dNet 1 r0).fs F.SMP_STAT_PKG_LEVEL 0 4
       s.quenched dNet = false ∧ s.level = 4 ∧ s.detq = [dNet])
    ∧ (r0.detq = [] ∧ r0.reportOk ⟨0x40, 7, 0, 0, 0⟩ = true ∧ r0.reportOk ⟨0x40, 8, 0, 0, 0⟩ = false)
    ∧ (let s := episode dNet 3 r0
       s.due (s.smpCls dNet.cls false).timer = true ∧ s.level ≠ 4 ∧ (s.smpCls dNet.cls false).lead = some ⟨dNet, 3, 3, 0, 0⟩
        ∧ dNet.dry = false) := by decide +kernel

theorem test_witness_SumpIsAcknowledgedSetAndInjected :
    (r0.fs F.SMP_STAT_HB_MISS 0 0).fb F.SMP_STAT_HB_MISS 0 = false ∧ (r0.fs F.SMP_STAT_HB_MISS 0 1).fb F.SMP_STAT_HB_MISS 0 = true
    ∧ Nat.testBit 0x107 8 = true ∧ smpFams[31]? = some 0x73 ∧ smpFams[24]? ≠ none
    ∧ (r0.fb F.HIF_STAT_STATE 0 = false ∧ running.fb F.HIF_STAT_STATE 0 = true
      ∧ injCheck true 0x73 1 0 = Sts.OK ∧ injCheck ((r0.fs F.SMP_CTL_INJ_EN 0 1).stagedField F.SMP_CTL_INJ_EN 0 == 1) 0x10
        (r0.stagedField F.SMP_FAM_INJ_INST 0x10) (r0.stagedField F.SMP_FAM_INJ_SUBJ 0x10) = Sts.OK) := by decide +kernel

theorem test_witness_SumpWatchesHeartbeatHeatAndSupplies :
    r0.pairHalted = false
    ∧ (let s := up 1000000 { r0.fs F.SMP_STAT_HB_MISS 0 0 with smp := { r0.smp with hbAt := some 0 } }
       s.fb F.SMP_STAT_HB_MISS 0 = false ∧ s.smp.hbAt = some 0 ∧ 0 + 1000000 ≤ s.time.up)
    ∧ (let s := { (r0.fs F.SMP_STAT_HB_MISS 0 0).fs F.SMP_STAT_ALIVE_RUN 0 1 with smp := { r0.smp with aliveAt := some 0 } }
       s.smp.aliveAt = some 0 ∧ s.aliveHeld = false ∧ s.fb F.SMP_STAT_ALIVE_RUN 0 = true
        ∧ (s.fs F.SMP_STAT_HB_MISS 0 1).aliveHeld = true)
    ∧ (let s := boot 2 r0
       2 ≤ s.ret.boot ∧ mget 0 s.smp.hot 11 = 0 ∧ mget 0 { s.smp with hot := [(11, 1)] }.hot 11 = 1)
    ∧ (let s := up 10000000000 (r0.fs F.SMP_STAT_CAPPED 0 1)
       s.fb F.SMP_STAT_CAPPED 0 = true ∧ (∀ i, i < 12 → mget 0 s.smp.temps i < 1220)
        ∧ max s.smp.capAt s.smp.hotAt + 10000000000 ≤ s.time.up)
    ∧ (let s := { r0 with eng := { r0.eng with quC := [(23, 2)], quU := [(191, 2)] } }
       2 ≤ mget 0 s.eng.quC 23 ∧ mget 0 s.eng.quC 23 ≤ s.time.up + 2 ∧ 2 ≤ mget 0 s.eng.quU 191
        ∧ mget 0 s.eng.quU 191 ≤ s.time.up + 2) := by decide +kernel

def twAt (role : Nat) (s : State) : State := ((s.fs F.TW_STAT_ROLE 0 role).fs F.TW_LINK_UP 1 1).fs F.TW_LINK_UP 0 1
def withTw (s : State) (f : TwSt → TwSt) : State := { s with tw := f s.tw }
def hdr1 : TwHdr := { link := 1 }

theorem test_witness_TwinsPairCompareAndLose :
    ((twAt 1 r0).twRole = 1 ∧ (twAt 1 r0).tw.helloAt ≤ (twAt 1 r0).time.up ∧ (twAt 1 r0).twUp 1 = true)
    ∧ (hdr1.ok = true ∧ hdr1.version = 1 ∧ hdr1.link < 2 ∧ r0.fg F.TW_CTL_SIDE 0 = 0 ∧ mget 0 (twAt 1 r0).tw.uid (1 - hdr1.link) = 0
      ∧ mget 0 (twAt 1 r0).tw.bad hdr1.link = 0)
    ∧ (let s := up (100 * secNs) (twAt 1 r0)
       s.tw.heard + s.fg F.TW_TIMERS_PAIR_WAIT 0 * 1000000 ≤ s.time.up)
    ∧ ((twAt 3 r0).twHears hdr1 = true ∧ (twAt 3 r0).twRole ≠ 1 ∧ mget 0 (twAt 3 r0).tw.got 2 ≠ 8)
    ∧ (let s := withTw (twAt 3 r0) (fun t => { t with own := [{ tickno := 7, role := 3, dig0 := 1, health := 4 }] })
       s.twHears hdr1 = true ∧ s.twRole = 3 ∧ s.tw.own.find? (fun x => x.tickno == 7) = some { tickno := 7, role := 3, dig0 := 1, health := 4 })
    ∧ (let s := withTw ((twAt 3 r0).fs F.TW_STAT_PARTNER 0 1) (fun t =>
          { t with uid := [(0, 5), (1, 5)], got := [(1, 40000)], judged := [(1, 9)], miss := [(0, 3), (1, 2)] })
       s.twRole = 3 ∧ tickStart (tickAt (s.elapse 10000).now) + 10000 ≤ (s.elapse 10000).now
        ∧ mget 0 s.tw.got 1 ≠ (s.elapse 10000).tickno + 1 ∧ mget 0 s.tw.judged 1 ≠ s.time.tick ∧ s.twPaired = true
        ∧ 2 ≤ mget 0 s.tw.miss 1 ∧ 3 ≤ mget 0 s.tw.miss (1 - 1)) := by decide +kernel

theorem test_witness_TwinControlChangesHands :
    ((twAt 3 r0).twHears hdr1 = true ∧ (twAt 3 r0).twRole = 3)
    ∧ (let s := withTw ((twAt 2 r0).fs F.TW_STAT_PARTNER 0 1) (fun t => { t with peer := some { role := 3 } })
       s.twHears hdr1 = true ∧ s.activePair = true)
    ∧ (let s := withTw (twAt 2 r0) (fun t => { t with hoOut := some (65541, 0) })
       s.twHears hdr1 = true ∧ s.twRole = 2 ∧ s.tw.hoOut = some (65541, 0) ∧ 65541 % 65536 = 5 % 65536 ∧ 0 ≤ s.time.up)
    ∧ (let s := up (100000 * secNs) (withTw (((twAt 3 r0).fs F.TW_CTL_HOME 0 1).fs F.TW_STAT_SCORE 0 255) (fun t => { t with lowAt := some 0 }))
       s.tw.lowAt = some 0 ∧ s.twRole = 3 ∧ s.fb F.TW_CTL_HOME 0 = true ∧ s.tw.asked = false
        ∧ 0 + s.fg F.TW_TIMERS_HOME_HOLD 0 * 1000000000 ≤ s.time.up ∧ s.fg F.TW_CTL_HOME_THRESHOLD 0 ≤ s.fg F.TW_STAT_SCORE 0 ∧ s.twUp 0 = true)
    ∧ (let s := up 1000000000 (withTw (twAt 3 r0) (fun t => { t with unaligned := some 0 }))
       s.tw.unaligned = some 0 ∧ 0 + 1000000000 ≤ s.time.up ∧ s.twRole = 3)
    ∧ pairActive.homeHere = false ∧ (((twAt 3 r0).fs F.TW_CTL_HOME 0 1).homeHere = true) := by decide +kernel

def syncing (role phase : Nat) : State := (twAt role r0).fs F.TW_STAT_SYNC_PHASE 0 phase
def commitCmd : Cmd := { rampMs := 1000, shape := 1 }

theorem test_witness_TwinsMirrorAndResynchronise :
    ((twAt 3 r0).twHears { hdr1 with active := true } = true ∧ (twAt 2 r0).twHears hdr1 = true ∧ (twAt 2 r0).twRole ≠ 3)
    ∧ accepts (Code.ROUTE_COMMIT, chkRouteCommit, { commitCmd with src := 1, dt := 0 }, (twAt 3 r0).elapse 0) = true
    ∧ (let s := withTw (twAt 3 r0) (fun t => { t with cmdOut := [⟨1, Code.NOP, { tag := 9 }, 3, some 0, none⟩] })
       s.tw.cmdOut = [⟨1, Code.NOP, { tag := 9 }, 3, some 0, none⟩] ∧ s.twRole = 3)
    ∧ ((syncing 4 1).twHears hdr1 = true ∧ (syncing 4 1).twRole = 4 ∧ (syncing 4 1).syncPhase = 1)
    ∧ ((syncing 4 2).syncPhase = 2 ∧ mget 0 (syncing 4 2).tw.pageAt 1835007 = 0 ∧ (zeros 4096).length = 4096)
    ∧ ((syncing 4 3).syncPhase = 3 ∧ (syncing 2 1).twRole = 2 ∧ (syncing 2 1).syncPhase ≠ 0 ∧ (syncing 2 2).syncPhase = 2)
    ∧ (let s := withTw (syncing 4 4) (fun t => { t with phaseEnd := true })
       s.twRole = 4 ∧ s.tw.phaseEnd = true ∧ s.syncPhase = 4)
    ∧ (let s := withTw (syncing 4 3) (fun t => { t with phaseEnd := true })
       s.tw.phaseEnd = true ∧ 1 ≤ s.syncPhase ∧ s.syncPhase ≤ 3)
    ∧ (let s := withTw (syncing 2 1) (fun t => { t with phaseEnd := true })
       s.twRole = 2 ∧ s.tw.phaseEnd = true ∧ s.syncPhase = 1)
    ∧ (let s := up (100000 * secNs) (syncing 4 1)
       s.syncPhase ≠ 0 ∧ s.tw.syncAt + s.fg F.TW_SYNC_RESYNC_MAX 0 * 1000000000 < s.time.up)
    ∧ (let s := withTw ((twAt 4 r0).fs F.TW_STAT_PARTNER 0 1) (fun t => { t with retryAt := some 0, peer := some { role := 2 } })
       s.tw.retryAt = some 0 ∧ s.twRole = 4 ∧ s.syncPhase = 0 ∧ s.twPaired = true ∧ s.peerRole = 2 ∧ s.tw.fwDiff = false)
    ∧ (let b := words ((List.range 35).map twReg)
       (accMask (twReg 0).1 (· == .rw)).testBit 0 = true ∧ r0.fb F.TW_CTL_EN 0 = false ∧ b.length = 140) := by decide +kernel

def entPwr (a : Nat) : Entry := ent Code.PWR_SET { a := a }
def asked (a : Nat) (s : State) : State := { s with ret := { s.ret with pwr := some (entPwr a) } }
def movingTo (st tgt from_ : Nat) (s : State) : State :=
  let s := ((s.fs F.RW_PWR_STAT_STATE 0 st).fs F.RW_PWR_STAT_TARGET 0 tgt).fs F.RW_PWR_STAT_MOVING 0 1
  { s with ret := { s.ret with moveFrom := from_ } }
def rec1 : LogRec := ⟨1, Code.ROUTE_COMMIT, 0, 0, 0, false, 0, []⟩
def logs : State := { r0 with ret := { r0.ret with copy0 := copyOk, pend := [rec1] } }

theorem test_witness_PowerTransitionsAndLogAreKept :
    (r0.pwrLate 2 = false ∧ r0.pwr ≠ 2 ∧ (r0.fs F.SMP_STAT_PKG_LEVEL 0 4).pwrLate 2 = true ∧ r0.pwr = 0)
    ∧ ((asked 2 r0).ret.pwr = some (entPwr 2) ∧ (asked 2 r0).ret.pwrHo = false ∧ (asked 2 r0).fb F.RW_PWR_STAT_MOVING 0 = false
      ∧ (asked 2 r0).now = tickStart (tickAt (asked 2 r0).now) ∧ (entPwr 2).cmd.a ≤ 2 ∧ (asked 3 r0).ret.pwr = some (entPwr 3)
      ∧ (entPwr 3).cmd.a = 3)
    ∧ (let s := movingTo 2 2 0 { r0 with time := { r0.time with tick := 1 } }
       s.fb F.RW_PWR_STAT_MOVING 0 = true ∧ s.fg F.RW_PWR_STAT_TARGET 0 = 2 ∧ s.ret.moveTick < s.time.tick)
    ∧ (let s := movingTo 1 1 2 (r0.fs F.RW_PWR_STAT_ISLANDS 0 0x3F)
       s.ret.moveFrom = 2 ∧ s.pwr < 2 ∧ s.fg F.RW_PWR_STAT_ISLANDS 0 = 0x3F)
    ∧ (let s := asked 3 (movingTo 3 3 0 r0)
       s.ret.pwr = some (entPwr 3) ∧ s.pwr = 3 ∧ s.fb F.RW_PWR_STAT_MOVING 0 = true)
    ∧ (logs.logging = true ∧ logs.nextRecord = some rec1 ∧ logs.curCopy.used + rec1.padded ≤ logBytes)
    ∧ (let s := { logs.fs F.RW_CTL_COMPACT_PCT 0 0 with ret := { logs.ret with copy0 := { copyOk with log := [rec1] } } }
       s.logging = true ∧ s.fb F.RW_STAT_COMPACTING 0 = false ∧ s.pwr ≠ 3 ∧ s.fb F.RW_PWR_STAT_MOVING 0 = false
        ∧ s.fg F.RW_CTL_COMPACT_PCT 0 * logBytes < s.curCopy.used * 100)
    ∧ (r0.fs F.RW_STAT_COMPACTING 0 1).fb F.RW_STAT_COMPACTING 0 = true := by decide +kernel

def rcvAt (op bank : Nat) (s : State) : State :=
  let s := (s.fs F.SEC_RCV_STAT_BUSY 0 1).fs F.SEC_RCV_CTL_BANK 0 bank
  { s with sec := { s.sec with rcv := op } }
/-- Bank B holds an image that verifies and is not the one committed. -/
def loaded : State := (verified.fs F.SEC_FW_STAT_STATE_B 0 2).fs F.SEC_FW_STAT_RUNNING 0 0

theorem test_witness_FirmwareIsLoadedAndCommitted :
    ((chkFwBlock { a := 1, len := 1, i0 := crc32c [7], buf := [7], ok := false } r0).1 = Sts.OK)
    ∧ ((working Code.FW_ACTIVATE { a := 1 } loaded).sec.work = [ent Code.FW_ACTIVATE { a := 1 }]
      ∧ (working Code.FW_ACTIVATE { a := 1 } loaded).fwState 1 ≠ 3 ∧ loaded.fwVerify 1 = Sts.OK ∧ r0.fwVerify 1 ≠ Sts.OK)
    ∧ ((working Code.FW_COMMIT {} r0).sec.work = [ent Code.FW_COMMIT {}])
    ∧ ((r0.fs F.SEC_FW_STAT_MODE 0 3).fwMode = 3 ∧ r0.fb F.SEC_RCV_STAT_BUSY 0 = false
      ∧ [1, 2, 3].all (fun k => F.SEC_RCV_CTL_OP.get (2 ^ 31 + k * 2 ^ 29) == k && (2 ^ 31 + k * 2 ^ 29).testBit 31) = true)
    ∧ ((rcvAt 3 1 loaded).fb F.SEC_RCV_STAT_BUSY 0 = true ∧ (rcvAt 3 1 loaded).sec.rcv = 3
      ∧ (rcvAt 3 1 loaded).activateChk 1 = Sts.OK ∧ (rcvAt 3 1 loaded).fwState 1 ≠ 3 ∧ (rcvAt 3 1 loaded).fwVerify 1 = Sts.OK)
    ∧ ((rcvAt 1 1 verified).sec.rcv = 1 ∧ (rcvAt 1 1 verified).fwLocked 1 = true) := by decide +kernel

/-- An authentication record for level 1 and one minute under a nonce of ones (R392). Its key is the one for which `r ‖ s`, both
the digest of its first 64 bytes, is a signature: worked out by hand from FIPS 186 with u1 = u2 = 1, so R = G + Q. -/
def authNum : Nat := 0x8d64081ff949686570f98c627545f772432634492b4c69f1086c043d78743c896405fd81529ae295e8d6c4f6981b34a9
def authKey : List Byte :=
  beBytes 48 0x6cab96c0dc45c5f1a3860024f6ff3b714ed3cdbf5fe9b3f86b27ba9338fd3a3365de2413dab7253d9e086a18574fbaa7
    ++ beBytes 48 0xa3c59e5dfa71eca6b39c300cae29d424357fbbc0e61549fc4ba6a3bdfd03257236374ff72f9b3f8254debd75301238ef
def authRec : List Byte := [1, 0, 1, 0] ++ zeros 12 ++ List.replicate 48 1 ++ beBytes 48 authNum ++ beBytes 48 authNum ++ authKey
def authHash : List Byte :=
  beBytes 48 0xf8b329f93e1465e583438f20cbddd9187bd26ba6808ce31c5bf70c65594cc737a91f8ea371f662fc4af0f08e93c83444
def sealedSt : State :=
  let s := r0.fs F.SEC_STATE_SEALED 0 1
  let l := (List.range 12).map (fun i => (16 + i, leAt authHash (4 * i) 4))
  { s with sec := { s.sec with nonce := List.replicate 48 1, nonceAt := 1, fuse := l } }

theorem test_sha384 : beBytes 48 authNum = digestBytes (sha384 (authRec.take 64)) ∧ authHash = digestBytes (sha384 authKey) := by
  decide +kernel

theorem test_witness_DebugSessionsAreGrantedAndEnd :
    ((r0.fs F.DBG_STAT_LOCKOUT 0 1).lockedOut = true ∧ r0.lockedOut = false ∧ r0.fb F.SEC_STATE_SEALED 0 = false
      ∧ recLevel authRec = 1 ∧ recLevel authRec ≤ r0.dbgAllows)
    ∧ (sealedSt.lockedOut = false ∧ sealedSt.fb F.SEC_STATE_SEALED 0 = true ∧ sealedSt.dbgAuth authRec = true
      ∧ recLevel authRec ≤ sealedSt.dbgAllows ∧ sealedSt.dbgAuth (zeros 256) = false)
    ∧ (let s := { r0 with sec := { r0.sec with sessEnd := some 0, lockEnd := some 0 } }
       s.sec.sessEnd = some 0 ∧ s.sec.lockEnd = some 0 ∧ 0 ≤ s.time.up ∧ s.sec.nonceAt ≤ s.time.up) := by decide +kernel

def dbgTo (l : Nat) (s : State) : State := ((s.fs F.DBG_STAT_SESSION 0 1).fs F.DBG_STAT_MAX 0 l).fs F.DBG_STAT_LEVEL 0 l
def haltedNop : State :=
  let s := dbgTo 2 (unitAt 191 3 prog1 r0)
  { s.setUnit 191 { s.unit 191 with halted := true } with integ := { s.integ with mem := [(dpaProg 191, 1)] } }

theorem test_witness_DebugPortActsAtItsLevel :
    (2 ≤ (dbgTo 2 r0).dbgAt ∧ (dbgTo 3 r0).dbgAt = 3 ∧ r0.dbgAt < 2 ∧ r0.dbgAt = 0)
    ∧ (2 ≤ haltedNop.dbgAt ∧ (haltedNop.unit 191).halted = true ∧ haltedNop.ust 191 = 3
      ∧ jdecode (haltedNop.fetch 191 (haltedNop.core 191).pc) = some .nop ∧ (haltedNop.fetchEcc 191 0).1 = 0 ∧ (haltedNop.core 191).slots = 0 ∧ (haltedNop.core 191).rep = 0)
    ∧ (let w := 2 ^ 31
       (dbgTo 3 r0).fb F.SEC_STATE_SEALED 0 = false ∧ w.testBit 31 = true ∧ (dbgTo 3 r0).fuseLock 2 = false
        ∧ ((dbgTo 3 r0).fs F.SEC_STATE_CEIL_LOCK 0 1).fuseLock 2 = true)
    ∧ (r0.dead = false ∧ 0x3FFFC % 4 = 0 ∧ 0x3FFFC < 0x40000 ∧ r0.fb F.SEC_REMAP_REMAP 0 = false)
    ∧ (6 * 2 ^ 30 + 0x3FFFFFFC < 0x1C0000000 ∧ 0x3FFFFFFC % 4 = 0 ∧ r0.integ.errs = [])
    ∧ ((dbgTo 3 r0).dbgAt = 3 ∧ regAt (regOff .RW_CTL 0) = some (.RW_CTL, 0))
    ∧ (r0.pwr ≠ 3 ∧ deadSt.ret.porLow = true ∧ r0.ret.porLow = false ∧ (r0.fs F.RW_PWR_STAT_STATE 0 3).pwr = 3) := by decide +kernel

/-! ### Ill-formed terms, one for each check of `Instr.wf` -/

def badCmds : List Cmd := [{ src := 4 }, { ring := 256 }, { tag := 2 ^ 32 }, { tgtNs := 2 ^ 32 }, { tgtSec := 2 ^ 48 }, { rampMs := 65536 },
  { shape := 256 }, { a := 2 ^ 32 }, { b := 2 ^ 32 }, { addr := 2 ^ 64 }, { len := 2 ^ 32 }, { c := 2 ^ 32 }, { i0 := 2 ^ 32 },
  { i1 := 2 ^ 32 }, { i2 := 2 ^ 32 }, { i3 := 2 ^ 32 }, { buf := [0] }, { db := some (2 ^ 32) }]

theorem test_wf_refuses_commands : badCmds.all (fun c => !(Instr.nop c).wf) = true ∧ (Instr.nop {}).wf = true := by decide +kernel

def h2 : TwHdr := { link := 2 }
def goodFrame : RxFrame := { bytes := zeros 160 }
def ddrBad : WordId := ⟨8, 0, 0, 0⟩

theorem test_wf_refuses_numbers : ([.supplyUndervoltage 9, .pllClockLoss 4, .refinEdge 4 0, .dieTemperatureThreshold 12 0,
    .checkerSelfTest [ddrBad], .clusterReturn 24, .skewCalibration 2 0 0, .mediaTimeIntegrityFault 4, .slotValid 15,
    .bankCopyComplete 5, .spMsgStoreComplete 16 false, .debounceExpiry 8, .watchLossExpiry 32, .repetitionEnd 16, .spareRedirect 6,
    .halt 192, .driveLinkDown 24, .driveRxFrame 24 goodFrame, .driveRxFrame 0 {}, .retryExpiry 192, .railReturn 48,
    .tdmFrameSyncTimeout 16, .pdmStuck 8 0 true, .pdmStuck 0 2 true, .pauseExpiry 8, .frameReceive 8 { bytes := zeros 14 },
    .frameReceive 0 { bytes := zeros 13 }, .doorbell (2 ^ 24) ⟨0, 4⟩ 0, .doorbell 0 ⟨2 ^ 32, 4⟩ 0, .descriptorTake 32 { bytes := zeros 64 },
    .descriptorTake 0 { bytes := zeros 63 }, .hinReturn 32, .registerWrite 3 0 ⟨0, 4⟩ 0, .registerWrite 0 (2 ^ 25) ⟨0, 4⟩ 0,
    .registerWrite 0 0 ⟨2 ^ 32, 4⟩ 0, .rclRead ⟨0, 0, 2 ^ 25, 4⟩, .quenchWindowEnd true 192, .secRemapWrite (2 ^ 32), .kick 448,
    .pmpIndexWrite 448 0, .pmpIndexWrite 0 (2 ^ 32), .pumpTrigger 448 {}, .pumpTrigger 0 { wsyn := 256 }, .pumpTrigger 0 { syns := [256] },
    .pumpBurstIssue 28 {}] : List Instr).all (fun i => !i.wf) = true := by decide +kernel

theorem test_wf_refuses_more : ([.nopInstruction 192 {}, .add 0 { syn := 256 }, .add 0 { syn2 := 256 }, .add 0 { fsyn := 256 },
    .correctedWriteBack ddrBad, .correctedWriteBack ⟨0, 8, 0, 0⟩, .dipperPassStart 8, .dipperRead 8 ⟨0, 0, 0, 0⟩ 0 false,
    .dipperRead 0 ⟨0, 0, 0, 0⟩ 256 false, .islandPowerUp 6 [], .islandPowerUp 0 [ddrBad], .windlassAck 8, .inj 128 false, .yield h2,
    .yield { tickno := 2 ^ 32 }, .yield { mts := 2 ^ 32 }, .beat {} { health := 2 ^ 64 }, .beat {} { sec := 2 ^ 48 },
    .twinLinkUp 2 0, .cmd {} 0 65536 {}, .cmd h2 0 0 {}, .cmdAck {} (2 ^ 32) 0, .cmdAck {} 0 65536, .handoverAck {} 65536,
    .dbgAccess { pair := 2 }, .dbgAccess { addr := 2 }, .dbgAccess { addr := 2 ^ 32 }, .dbgAccess { data := 2 ^ 32 },
    .boundaryScanInstruction 7, .stage (2 ^ 32), .censusCopyComplete 65536, .fwVerifyComplete 2] : List Instr).all
      (fun i => !i.wf) = true := by decide +kernel

/-! ### Unit words, each field written out from its layout: (width, value) from bit 31 down -/

def fields (l : List (Nat × Nat)) : Nat := l.foldl (fun a p => a * 2 ^ p.1 + p.2) 0
def spells (l : List (Nat × Nat)) (i : JInstr) : Bool := jdecode (BitVec.ofNat 32 (fields l)) == some i

/-- R148, R152, R153, R154, R155, R156, R157. -/
theorem test_words_of_the_first_classes :
    spells [(4, 0b0000), (28, 1)] .nop
    ∧ spells [(4, 0b0001), (6, 0x3B), (6, 0x3E), (16, 0)] (.mov 0x3B 0x3E)
    ∧ spells [(4, 0b0100), (6, 0x11), (4, 15), (4, 9), (4, 3), (10, 0)] (.alu .mulf 15 9 3)
    ∧ spells [(4, 0b0101), (4, 0x9), (4, 14), (4, 0), (16, 0x8001)] (.alui .movhi 14 0 0x8001)
    ∧ spells [(4, 0b0010), (3, 0b000), (3, 5), (3, 6), (19, 0)] (.pmod 5 6)
    ∧ spells [(4, 0b0010), (3, 0b001), (3, 5), (6, 0), (16, 0xFFFC)] (.paddi 5 0xFFFC)
    ∧ spells [(4, 0b0010), (3, 0b010), (6, 0x3C), (3, 0), (16, 7)] (.aldi 0x3C 7)
    ∧ spells [(4, 0b1000), (3, 0b100), (3, 4), (3, 2), (2, 0b11), (6, 0x3C), (11, 0)] (.mem .ldr 4 2 3 0x3C)
    ∧ spells [(4, 0b1000), (3, 0b110), (3, 1), (3, 0), (2, 0b01), (2, 3), (1, 1), (2, 0b10), (1, 0), (11, 0)] (.sta 1 0 1 3 1 2) := by
  decide +kernel

/-- R158, R160, R161, R163. -/
theorem test_words_of_the_other_classes :
    spells [(4, 0b1001), (5, 0x0D), (2, 2), (2, 0), (4, 0), (4, 0), (6, 63), (2, 0), (3, 0)] (.accu .asla 2 0 0 0 63 0)
    ∧ spells [(4, 0b1001), (5, 0x13), (2, 1), (2, 0), (4, 7), (4, 0), (6, 0), (2, 0b11), (3, 0)] (.accu .mva24 1 0 7 0 0 3)
    ∧ spells [(3, 0b101), (2, 0b10), (2, 3), (4, 12), (4, 5), (1, 1), (2, 2), (2, 0b11), (4, 9), (8, 0)] (.smac 2 3 12 5 1 2 3 9)
    ∧ spells [(2, 0b11), (1, 1), (1, 0), (1, 1), (1, 1), (3, 1), (3, 2), (3, 3), (3, 4), (2, 0b11), (2, 2), (3, 5), (2, 0b10), (2, 1), (3, 6)]
        (.dmac 1 0 1 1 1 2 3 4 3 2 5 2 1 6)
    ∧ spells [(4, 0b0011), (4, 0x0), (4, 3), (6, 0), (14, 0x3FFF)] (.br 3 0x3FFF)
    ∧ spells [(4, 0b0011), (4, 0x1), (4, 15), (6, 0), (14, 9)] (.call 15 9)
    ∧ spells [(4, 0b0011), (4, 0x2), (4, 0), (4, 11), (16, 0)] (.jr 11)
    ∧ spells [(4, 0b0011), (4, 0x4), (12, 0), (12, 0xFFF)] (.rep 0xFFF)
    ∧ spells [(4, 0b0011), (4, 0x8), (3, 7), (4, 14), (4, 3), (13, 0)] (.waitm 7 14 3)
    ∧ spells [(4, 0b0011), (4, 0xA), (24, 0)] .done := by decide +kernel

/-- R147: a field that must be 0, an undefined class, operation or register code, and RND = 00 make an undefined encoding. -/
theorem test_words_without_a_meaning : ([[(32, 0)], [(32, 2)], [(4, 0b0110), (28, 0)], [(4, 0b0001), (6, 0), (6, 0), (16, 1)],
    [(4, 0b0100), (6, 0x0F), (22, 0)], [(4, 0b0101), (4, 0x5), (4, 0), (4, 0), (16, 32)], [(4, 0b0010), (3, 0b011), (6, 0x3C), (19, 0)],
    [(4, 0b1000), (3, 0b001), (3, 0), (3, 0), (2, 0), (6, 1), (11, 0)], [(4, 0b1000), (3, 0b111), (25, 0)],
    [(4, 0b1001), (5, 0x12), (2, 0), (2, 0), (4, 0), (4, 0), (6, 0), (2, 0), (3, 0)], [(3, 0b101), (18, 0), (2, 0), (1, 0), (8, 1)],
    [(4, 0b0011), (4, 0xB), (24, 0)]] : List (List (Nat × Nat))).all
      (fun l => jdecode (BitVec.ofNat 32 (fields l)) == none) = true := by decide +kernel

/-! ### Behaviour -/

/-- The state an outcome gives, at reset where it gives none. -/
def out (o : Host.Outcome State Fault Refusal) : State :=
  match o with
  | .next s => s
  | _ => r0

/-- Unit 3 about to issue `i`, with data registers given. -/
def prepared (i : JInstr) (d : List (Nat × Word)) : State :=
  let s := runs (jencode i)
  s.setUnit 3 { s.unit 3 with core := { s.core 3 with d := d } }
/-- Register n as the next instruction sees it. -/
def dThen (i : Nat → UPort → Instr) (j : JInstr) (d : List (Nat × Word)) (n : Nat) : Word :=
  ((out (exec (i 3 {}) (prepared j d))).seen 3).dr n

/-- R153: ADDS saturates; −1 × −1 is the one product MULF saturates; a shift by 32 and more gives 0; ABS of −2³¹. -/
theorem test_alu_results :
    dThen .adds (.alu .adds 1 2 3) [(2, 0x7FFFFFFF), (3, 1)] 1 = 0x7FFFFFFF
    ∧ dThen .mulf (.alu .mulf 1 2 2) [(2, 0x80000000)] 1 = 0x7FFFFFFF
    ∧ dThen .lsl (.alu .lsl 2 2 3) [(2, 0xFFFFFFFF), (3, 32)] 2 = 0
    ∧ dThen .abs (.alu .abs 1 2 0) [(2, 0x80000000)] 1 = 0x7FFFFFFF
    ∧ dThen .movhi (.alui .movhi 1 0 0x1234) [(1, 0xABCD5678)] 1 = 0x12345678 := by decide +kernel

/-- The examples of R8 and R28 and of the conversion of a stamp. -/
theorem test_grids : roundTick 500000 = 500000 ∧ roundTick 500001 = 541666 ∧ tickAt 510416 = 12 ∧ tickStart 4 = 166666
    ∧ mtsOf 1000200000000 = 3767587328 := by decide

/-- CRC-32C of "123456789" is 0xE3069283 (the check value of the polynomial). -/
theorem test_crc32c : crc32c ((List.range 9).map (fun i => BitVec.ofNat 8 (0x31 + i))) = 0xE3069283 := by decide +kernel

/-- R278: with a command in front, a step places it and leaves the rest of the queue. -/
theorem test_step_places_a_command :
    let t := out (step { r0 with pending := [.routeStatus {}, .thermalHoldEnd] })
    t.pending = [.thermalHoldEnd] ∧ t.dueNext.length = 1 ∧ t.hif.cmdSeq = 1 := by decide +kernel

/-- R266: FLR leaves RUN for SETUP. R384: the block is not sealed at reset with no fuse programmed. -/
theorem test_reset_and_flr : (out (exec .functionLevelReset running)).hifRun = false ∧ r0.fb F.SEC_STATE_SEALED 0 = false := by decide +kernel

theorem test_no_row_gives_bits : Sys2Proof.decodeTableWord 32 1 = none ∧ r0.withFetchWord 32 1 = r0 := ⟨rfl, rfl⟩
/-- R369, R370: the sizes and first words of the two headers. -/
theorem test_headers (r : LogRec) (c : Copy) : r.header.length = 32 ∧ r.header.take 2 = [0x52, 0x4C] ∧ c.header.length = 64
    ∧ c.header.take 4 = [0x52, 0x57, 0x4A, 0x31] := ⟨rfl, rfl, rfl, rfl⟩
/-- R341: destination, EtherType, VERSION and TYPE of a frame on a twin link. -/
theorem test_twin_frame (s : State) (ty l q : Nat) (m : TwMsg) : (s.twFrame ty l q m).take 6 = [0x01, 0x80, 0xC2, 0, 0, 0x0E]
    ∧ ((s.twFrame ty l q m).drop 12).take 4 = [0x88, 0xB6, 1, BitVec.ofNat 8 ty] := ⟨rfl, rfl⟩

end Sys2Proof.Tests
end

