-- ==== Sys2Proof/Proofs/Kept.lean ====
section
/-! The invariant of the block (`BlockInv`) as a property of its stores alone, beside the queue of commands and the count of
ticks, and the rules by which an operation is seen to keep them: most operations write none of the three. -/

namespace Sys2Proof.Machine

/-- `BlockInv` of the parts of a state that it speaks of. -/
structure Within (mem host tcm0 tcm1 : Mem) (sched : List Entry) (journal sramJrn : List JEntry) (merge : AMap (List MergeEnt))
    (logs : AMap (List EccEnt)) (faults : List (Nat × Nat × Nat)) (sample frame : Nat) : Prop where
  mem     : Memory.wf mem = true
  host    : Memory.wf host = true
  tcm0    : Memory.wf tcm0 = true
  tcm1    : Memory.wf tcm1 = true
  sched   : sched.length ≤ 1024
  journal : journal.length ≤ 256
  sramJrn : sramJrn.length ≤ 256
  merge   : ∀ p ∈ merge, p.2.length ≤ 4
  logs    : ∀ p ∈ logs, p.2.length ≤ logCap p.1
  faults  : faults.length ≤ 64
  sample  : sample ≤ 4
  frame   : frame ≤ 64

/-- What a claim asks an operation to keep: whether the stores are looked at, the queue of commands, and what is said of the count
of ticks and of the interval after a step. -/
structure Keeping where
  stores : Prop
  queue  : List Instr
  clock  : Nat → Bool → Prop

/-- The interval after a step may begin or end. -/
def Keeping.AnyGap (q : Keeping) : Prop := ∀ n b c, q.clock n b → q.clock n c

/-- A state has what `q` asks it to keep. -/
structure Kept (q : Keeping) (s : State) : Prop where
  within : q.stores → Within s.integ.mem s.hif.hostMem s.sec.tcm0 s.sec.tcm1 s.sched s.hif.journal s.ret.sramJrn s.integ.merge
    s.integ.logs s.smp.log s.time.sample s.time.frame
  queue  : s.pending = q.queue
  clock  : q.clock s.time.tick s.time.gap

/-- The invariant of the block beside a queue of commands. -/
def Keeping.block (l : List Instr) : Keeping := ⟨True, l, fun _ _ => True⟩

theorem kept_block_iff (l : List Instr) (s : State) : Kept (.block l) s ↔ BlockInv s ∧ s.pending = l := by
  constructor
  · rintro ⟨within, queue, -⟩
    obtain ⟨mem, host, tcm0, tcm1, sched, journal, sramJrn, merge, logs, faults, sample, frame⟩ := within trivial
    exact ⟨⟨mem, host, ⟨tcm0, tcm1⟩, sched, ⟨journal, sramJrn⟩, merge, logs, faults, ⟨sample, frame⟩⟩, queue⟩
  · rintro ⟨⟨mem, host, ⟨tcm0, tcm1⟩, sched, ⟨journal, sramJrn⟩, merge, logs, faults, ⟨sample, frame⟩⟩, queue⟩
    exact ⟨fun _ => ⟨mem, host, tcm0, tcm1, sched, journal, sramJrn, merge, logs, faults, sample, frame⟩, queue, trivial⟩

/-- An outcome is a next state that is `Kept`. -/
def KeptNext (q : Keeping) (o : Host.Outcome State Fault Refusal) : Prop := ∃ t, o = .next t ∧ Kept q t

section
variable {q : Keeping} {s t : State}

theorem Kept.next (h : Kept q s) : KeptNext q (.next s) := ⟨s, rfl, h⟩

/-- Something else is said of the count of ticks. -/
theorem Kept.reclock {c : Nat → Bool → Prop} (h : Kept q s) (hc : c s.time.tick s.time.gap) : Kept { q with clock := c } s :=
  ⟨h.within, h.queue, hc⟩

/-! ### Records -/

section
variable {regs shadow : AMap Word} {armAt : AMap Nat} {rwsWait : List Entry} {free : Nat} {time : TimeSt}
  {sched dueNext : List Entry} {wh : WhSt} {hif : HifSt} {ret : RwSt} {tw : TwSt} {smp : SmpSt} {sec : SecSt} {aud : AudioSt}
  {sp : SpSt} {eng : EngSt} {pmp : PmpSt} {drv : DrvSt} {ap : ApSt} {net : NetSt} {cen : CenSt} {integ : IntegSt}
  {detq : List Det}

/-- A record whose stores are within what the spec gives the block, as the stores before were. -/
theorem Kept.put (h : Kept q s)
    (within : Within s.integ.mem s.hif.hostMem s.sec.tcm0 s.sec.tcm1 s.sched s.hif.journal s.ret.sramJrn s.integ.merge
        s.integ.logs s.smp.log s.time.sample s.time.frame →
      Within integ.mem hif.hostMem sec.tcm0 sec.tcm1 sched hif.journal ret.sramJrn integ.merge integ.logs smp.log time.sample
        time.frame)
    (tick : time.tick = s.time.tick := by rfl) (gap : time.gap = s.time.gap := by rfl) :
    Kept q ⟨regs, shadow, armAt, rwsWait, free, time, sched, dueNext, wh, hif, ret, tw, smp, sec, aud, sp, eng, pmp, drv, ap,
      net, cen, integ, detq, s.pending⟩ :=
  ⟨fun i => within (h.within i), h.queue, tick ▸ gap ▸ h.clock⟩

/-- A record in which no store has changed. -/
theorem Kept.frame (h : Kept q s)
    (mem : integ.mem = s.integ.mem := by rfl) (host : hif.hostMem = s.hif.hostMem := by rfl)
    (tcm0 : sec.tcm0 = s.sec.tcm0 := by rfl) (tcm1 : sec.tcm1 = s.sec.tcm1 := by rfl)
    (journal : hif.journal = s.hif.journal := by rfl) (sramJrn : ret.sramJrn = s.ret.sramJrn := by rfl)
    (merge : integ.merge = s.integ.merge := by rfl) (logs : integ.logs = s.integ.logs := by rfl)
    (faults : smp.log = s.smp.log := by rfl) (sample : time.sample = s.time.sample := by rfl)
    (frame : time.frame = s.time.frame := by rfl) (tick : time.tick = s.time.tick := by rfl)
    (gap : time.gap = s.time.gap := by rfl) :
    Kept q ⟨regs, shadow, armAt, rwsWait, free, time, s.sched, dueNext, wh, hif, ret, tw, smp, sec, aud, sp, eng, pmp, drv, ap,
      net, cen, integ, detq, s.pending⟩ := by
  refine h.put (fun w => ?_) tick gap
  rw [mem, host, tcm0, tcm1, journal, sramJrn, merge, logs, faults, sample, frame]
  exact w

end

/-! ### Choices and loops -/

theorem Kept.ite {c : Prop} [Decidable c] {a b : State} (ha : Kept q a) (hb : Kept q b) : Kept q (if c then a else b) := by
  split
  · exact ha
  · exact hb

theorem Kept.foldl {α : Type} {f : State → α → State} {l : List α} (h : Kept q s) (hf : ∀ s a, Kept q s → Kept q (f s a)) :
    Kept q (l.foldl f s) := by
  induction l generalizing s with
  | nil => exact h
  | cons a l ih => exact ih (hf s a h)

/-- A loop that carries a value beside the state. -/
theorem Kept.foldl_snd {α β : Type} {f : β × State → α → β × State} {l : List α} {p : β × State} (h : Kept q p.2)
    (hf : ∀ p a, Kept q p.2 → Kept q (f p a).2) : Kept q (l.foldl f p).2 := by
  induction l generalizing p with
  | nil => exact h
  | cons a l ih => exact ih (hf p a h)

/-- A loop that carries a value beside the state, with the equation of a round. -/
theorem Kept.foldl_pair {α β : Type} {f : β × State → α → β × State} {l : List α} {p : β × State} (h : Kept q p.2)
    (hf : ∀ p a r, Kept q p.2 → f p a = r → Kept q r.2) : Kept q (l.foldl f p).2 :=
  h.foldl_snd fun p a hp => hf p a _ hp rfl

theorem Kept.of_eq {α : Type} {p : α × State} {a : α} (h : Kept q p.2) (e : p = (a, t)) : Kept q t := by
  subst e
  exact h

theorem Kept.ite_snd {α : Type} {c : Prop} [Decidable c] {a b : α × State} (ha : Kept q a.2) (hb : Kept q b.2) :
    Kept q (if c then a else b).2 := by
  split
  · exact ha
  · exact hb

end

/-! ### Sparse collections whose values are bounded lists -/

section
variable {α : Type} {n : Nat → Nat} {m : AMap (List α)}

theorem mem_mput [DecidableEq α] {l : List α} {k : Nat} {p : Nat × List α} (h : p ∈ mput [] m k l) : p = (k, l) ∨ p ∈ m := by
  unfold mput mset at h
  split at h
  · exact .inr (mem_mdel h)
  · exact mem_mins h

/-- Writing a list within its bound keeps every list within its bound. -/
theorem bounded_mput [DecidableEq α] {l : List α} {k : Nat} (h : ∀ p ∈ m, p.2.length ≤ n p.1) (hl : l.length ≤ n k) :
    ∀ p ∈ mput [] m k l, p.2.length ≤ n p.1 := by
  intro p hp
  rcases mem_mput hp with rfl | hp
  · exact hl
  · exact h p hp

/-- The list at a key is within its bound. -/
theorem length_mget_le (h : ∀ p ∈ m, p.2.length ≤ n p.1) (k : Nat) : (mget [] m k).length ≤ n k := by
  induction m with
  | nil => exact Nat.zero_le _
  | cons p t ih =>
    obtain ⟨i, l⟩ := p
    unfold mget
    split
    · next e => subst e; exact h (k, l) List.mem_cons_self
    · exact ih (fun p hp => h p (List.mem_cons_of_mem _ hp))

end

/-- A canonical collection without some of its entries is canonical. -/
theorem mwf_filter {α : Type} [DecidableEq α] {d : Nat → α} {m : AMap α} (f : Nat × α → Bool) (h : mwf d m = true) :
    mwf d (m.filter f) = true := by
  induction m with
  | nil => rfl
  | cons p t ih =>
    obtain ⟨k, v⟩ := p
    obtain ⟨hv, hk, ht⟩ := mwf_cons.1 h
    rw [List.filter_cons]
    split
    · exact mwf_cons.2 ⟨hv, fun p hp => hk p (List.mem_filter.1 hp).1, ih ht⟩
    · exact ih ht

end Sys2Proof.Machine
end

