-- ==== Sys2Proof/Proofs/KeptOps.lean ====
section
/-! Completions, records, the journal and the placing of commands. Each lemma says of one function of the model that
it keeps what `Keeping` asks for. -/

namespace Sys2Proof.Machine

section
-- One proof after another: each evaluates the default proofs of `Kept.frame`, and would wait for that in a thread of its own.
set_option Elab.async false
variable {q : Keeping} {s : State}

theorem Kept.rw {r : RegId} {i : Nat} {w : Word} (h : Kept q s) : Kept q (s.rw r i w) := h.frame
theorem Kept.fs {f : Fld} {i v : Nat} (h : Kept q s) : Kept q (s.fs f i v) := h.rw
theorem Kept.fsI {f : Fld} {i : Nat} {v : Int} (h : Kept q s) : Kept q (s.fsI f i v) := h.fs
theorem Kept.fadd {f : Fld} {i n : Nat} (h : Kept q s) : Kept q (s.fadd f i n) := h.fs
theorem Kept.freeWord (h : Kept q s) : Kept q (s.freeWord).2 := h.frame
theorem Kept.setMt {full frac : Nat} (h : Kept q s) : Kept q (s.setMt full frac) := h.frame
theorem Kept.setCount {m : Nat} (h : Kept q s) : Kept q (s.setCount m) := h.frame
theorem Kept.elapse {dt : Nat} (h : Kept q s) : Kept q (s.elapse dt) := .ite h h.setCount.frame
theorem Kept.arrive {full : Nat} (h : Kept q s) : Kept q (s.arrive full) := h.setMt.frame
theorem Kept.reach {full : Nat} (h : Kept q s) : Kept q (s.reach full) := .ite h h.arrive
theorem Kept.msi {v : Nat} (h : Kept q s) : Kept q (s.msi v) := .ite h.frame h.frame

theorem Kept.hostWrite {a : Nat} {b : List Byte} (h : Kept q s) : Kept q (s.hostWrite a b) :=
  h.put fun w => { w with host := memWrite_wf a b w.host }

theorem Kept.signal {r : Nat} (h : Kept q s) : Kept q (s.signal r) := .ite h.frame.msi h.frame

theorem Kept.ringReturn {r : Nat} {b : List Byte} (h : Kept q s) : Kept q (s.ringReturn r b) :=
  h.hostWrite.hostWrite.fs.signal

theorem Kept.postAt {mts typ source : Nat} {payload : List Byte} (h : Kept q s) :
    Kept q (s.postAt mts typ source payload) := by
  unfold State.postAt
  extract_lets
  split
  · exact .ite h.frame.frame.fadd h.frame.frame.ringReturn
  · exact h.frame.frame.fadd

theorem Kept.post {typ source : Nat} {payload : List Byte} (h : Kept q s) : Kept q (s.post typ source payload) := h.postAt
theorem Kept.det {fam inst subj kind detail : Nat} (h : Kept q s) : Kept q (s.det fam inst subj kind detail) := h.frame

theorem Kept.cplWrite {c : Cpl} (h : Kept q s) : Kept q (s.cplWrite c) :=
  .ite h.frame (.ite h.frame.frame.ringReturn h.frame)

theorem Kept.flushAwait {l : List Await} {b : List Nat} (h : Kept q s) : Kept q (flushAwait l b s).2 := by
  induction l generalizing b s with
  | nil => exact h
  | cons a t ih =>
    unfold Machine.flushAwait
    split
    · split
      · exact ih h
      · exact ih h.cplWrite
    · exact ih h

theorem Kept.flushFinals {l : List Cpl} (h : Kept q s) : Kept q (flushFinals l s).2 := by
  induction l generalizing s with
  | nil => exact h
  | cons c t ih =>
    unfold Machine.flushFinals
    split
    · exact h
    · exact ih h.cplWrite

theorem Kept.flush (h : Kept q s) : Kept q s.flush := h.flushAwait.frame.flushFinals.frame
theorem Kept.cplFirst {c : Cpl} (h : Kept q s) : Kept q (s.cplFirst c) := .ite h.frame.frame.flush h.frame.cplWrite
theorem Kept.cplFinal {c : Cpl} (h : Kept q s) : Kept q (s.cplFinal c) := .ite h.frame.frame h.frame.frame.flush
theorem Kept.newGen (h : Kept q s) : Kept q (s.newGen).2 := h.fs

/-- The journal holds the last 256 entries (R290). -/
theorem Kept.journal {e : JEntry} (h : Kept q s) : Kept q (s.journal e) := by
  unfold State.journal
  extract_lets j
  have hj : (j.drop (j.length - 256)).length ≤ 256 := by rw [List.length_drop]; omega
  generalize j.drop (j.length - 256) = l at hj ⊢
  exact h.put fun w => { w with journal := hj }

theorem Kept.twSendEach {ty : Nat} {both : Bool} {m : Nat → TwMsg} (h : Kept q s) : Kept q (s.twSendEach ty both m) :=
  .ite h h.frame

theorem Kept.twSend {ty : Nat} {both : Bool} {m : TwMsg} (h : Kept q s) : Kept q (s.twSend ty both m) := h.twSendEach
theorem Kept.notePages {a n : Nat} (h : Kept q s) : Kept q (s.notePages a n) := .ite h h.frame
theorem Kept.toSuspect (h : Kept q s) : Kept q s.toSuspect := h.fs.fs.fs.frame
theorem Kept.standbySuspect (h : Kept q s) : Kept q s.standbySuspect := .ite h.toSuspect h
theorem Kept.showPending (h : Kept q s) : Kept q s.showPending := h.fs.fs

theorem Kept.logRecord {gen code source : Nat} {full : Bool} (h : Kept q s) : Kept q (s.logRecord gen code source full) := by
  unfold State.logRecord
  extract_lets now r fits
  exact (Kept.put (s := s) h fun w => { w with sramJrn := w.journal }).showPending

theorem Kept.mirrorCmd {code seq place : Nat} {c : Cmd} (h : Kept q s) : Kept q (s.mirrorCmd code seq place c) :=
  .ite h.frame.twSend h

theorem Kept.twOutcome {c : Cmd} {seq status : Nat} (h : Kept q s) : Kept q (s.twOutcome c seq status) :=
  .ite h.twSend h.frame

theorem Kept.takeCmd {c : Cmd} (h : Kept q s) : Kept q (s.takeCmd c).2 := .ite h.frame.frame h.frame

theorem Kept.refuse {code : Nat} {c : Cmd} {seq : Nat} {k : Chk} (h : Kept q s) : Kept q (s.refuse code c seq k) :=
  h.cplFirst.twOutcome

theorem Kept.genFor {code : Nat} {c : Cmd} (h : Kept q s) : Kept q (s.genFor code c).2 := by
  unfold State.genFor
  split
  · exact h.newGen
  · exact h

theorem Kept.dropAwait {code seq : Nat} (h : Kept q s) : Kept q (s.dropAwait code seq) := .ite h.frame.flush h
theorem newGen_sched : (s.newGen).2.sched = s.sched := fs_sched s _ _ _

theorem genFor_sched (code : Nat) (c : Cmd) : (s.genFor code c).2.sched = s.sched := by
  unfold State.genFor
  split
  · exact newGen_sched
  · rfl

/-- A command is armed while fewer than 1,024 are (R26). -/
theorem Kept.placeCmd {code : Nat} {c : Cmd} {seq : Nat} (h : Kept q s) : Kept q (s.placeCmd code c seq) := by
  have hg := h.genFor (code := code) (c := c)
  unfold State.placeCmd
  split
  · exact hg.frame.mirrorCmd.dropAwait
  · extract_lets t p
    split
    · exact hg.frame.mirrorCmd.dropAwait
    · split
      · exact h.refuse.det
      · next hroom =>
        have hl : ∀ e : Entry, ((s.genFor code c).2.sched ++ [e]).length ≤ 1024 := by
          intro e
          rw [genFor_sched, List.length_append, List.length_singleton]
          omega
        exact (Kept.mirrorCmd (hg.put fun w => { w with sched := hl _ })).cplFirst

theorem Kept.submit {code : Nat} {chk : Cmd → State → Chk} {c : Cmd} (h : Kept q s) : Kept q (submit code chk c s) :=
  .ite h (.ite h.elapse.takeCmd.refuse (.ite h.elapse.takeCmd.refuse h.elapse.takeCmd.placeCmd))

theorem Kept.noteChange {gen code source : Nat} {full : Bool} (h : Kept q s) : Kept q (s.noteChange gen code source full) :=
  h.journal.logRecord

theorem Kept.finishAs {e : Entry} {status : Nat} {result : List Nat} {full late : Bool} (h : Kept q s) :
    Kept q (s.finishAs e status result full late) :=
  .ite (Kept.ite h.cplFirst h.cplFinal).twOutcome (Kept.ite h.cplFirst h.cplFinal).twOutcome.journal.logRecord

theorem Kept.finish {e : Entry} {status : Nat} {result : List Nat} {full : Bool} (h : Kept q s) :
    Kept q (s.finish e status result full) :=
  h.finishAs

theorem Kept.cancel {e : Entry} (h : Kept q s) : Kept q (s.cancel e) := (Kept.ite h.fs h).finish

theorem Kept.cancelAll {l : List Entry} (h : Kept q s) : Kept q (s.cancelAll l) := by
  induction l generalizing s with
  | nil => exact h
  | cons e t ih => exact ih h.cancel

theorem Kept.showRate (h : Kept q s) : Kept q s.showRate := h.fsI
theorem Kept.showPhase {n : Nat} {p : Int} (h : Kept q s) : Kept q (s.showPhase n p) := h.fsI
theorem Kept.setSlot {n : Nat} {x : WhSlot} (h : Kept q s) : Kept q (s.setSlot n x) := h.frame

theorem Kept.stepSlots {off : Int} (h : Kept q s) : Kept q (s.stepSlots off) :=
  h.foldl fun _ _ h1 => .ite h1.setSlot h1.setSlot.showPhase

theorem Kept.setAbsorb {a : Int} (h : Kept q s) : Kept q (s.setAbsorb a) := h.frame

theorem Kept.cancelForStep (h : Kept q s) : Kept q s.cancelForStep :=
  Kept.cancelAll (h.put fun w => { w with sched := Nat.zero_le _ })

/-- The interval between a step and the first tick start of the new count has no samples and no drive frames left (R18). -/
theorem Kept.stepTo {off : Int} {frac : Nat} (h : Kept q s) (hg : q.AnyGap) : Kept q (s.stepTo off frac) := by
  unfold State.stepTo
  extract_lets full fr first t ahead _ u v
  have ht : Kept q t := h.setMt
  have hs : t.time.sample ≤ 4 → (if ahead then 4 else t.time.sample) ≤ 4 := by
    intro hs
    split
    · exact Nat.le_refl 4
    · exact hs
  have hf : t.time.frame ≤ 64 → (if ahead then 64 else t.time.frame) ≤ 64 := by
    intro hf
    split
    · exact Nat.le_refl 64
    · exact hf
  have hu : Kept q u :=
    ⟨fun i => { ht.within i with sample := hs (ht.within i).sample, frame := hf (ht.within i).frame }, ht.queue, hg _ _ _ ht.clock⟩
  exact hu.fs.fs.stepSlots.cancelForStep

theorem Kept.applyMtStep {e : Entry} (h : Kept q s) (hg : q.AnyGap) : Kept q (applyMtStep e s) :=
  .ite h.finish (Kept.ite (h.stepTo hg) (h.stepTo hg).setAbsorb).cplFirst.journal.logRecord

theorem Kept.alignStep (h : Kept q s) (hg : q.AnyGap) : Kept q s.alignStep := .ite h (h.stepTo hg).setAbsorb
theorem Kept.execFreeWaitExpiry (h : Kept q s) : KeptNext q (execFreeWaitExpiry s) := (Kept.ite h.frame h).next
theorem Kept.applyMtRateSet {e : Entry} (h : Kept q s) : Kept q (applyMtRateSet e s) := h.frame.showRate.finish

theorem Kept.handLong (h : Kept q s) : Kept q s.handLong :=
  h.put fun w => { w with sched := Nat.le_trans (Nat.le_of_eq (List.length_map _)) w.sched }

theorem Kept.execLongFormHandover (h : Kept q s) : KeptNext q (execLongFormHandover s) := h.handLong.next

theorem Kept.execSkewCalibration {d delay skew8 : Nat} (h : Kept q s) : KeptNext q (execSkewCalibration d delay skew8 s) :=
  (Kept.ite (.ite h.fs.fs.det h.fs.fs) h).next

theorem Kept.execMediaTimeIntegrityFault {cond : Nat} (h : Kept q s) : KeptNext q (execMediaTimeIntegrityFault cond s) :=
  (Kept.ite h.det (.ite h.det h)).next

theorem Kept.mtRead (h : Kept q s) : Kept q s.mtRead := h.rw.rw.rw.rw.rw
theorem Kept.execMtNsRead {dt : Nat} (h : Kept q s) : KeptNext q (execMtNsRead dt s) := h.elapse.mtRead.frame.next
theorem Kept.imgWrite {r : RegId} {i w : Nat} (h : Kept q s) : Kept q (s.imgWrite r i w) := h.rw
theorem Kept.setShw {r : RegId} {i : Nat} {w : Word} (h : Kept q s) : Kept q (s.setShw r i w) := h.frame
theorem Kept.setArm {a : RegId} {i : Nat} {b : Bool} (h : Kept q s) : Kept q (s.setArm a i b) := h.fs.frame

theorem Kept.rwsWrite {r : RegId} {i w : Nat} (h : Kept q s) : Kept q (s.rwsWrite r i w) := by
  unfold State.rwsWrite
  split
  · exact h.imgWrite
  · exact .ite h.setShw.rw.setArm h.setShw.setArm

theorem Kept.handOver {a : RegId} {i : Nat} (h : Kept q s) : Kept q (s.handOver a i) :=
  (h.foldl fun _ _ h1 => h1.foldl fun _ _ h2 => h2.rw).setArm

theorem Kept.handOverPoint {a : RegId} {i guard : Nat} (h : Kept q s) : Kept q (s.handOverPoint a i guard) :=
  .ite h.handOver h

theorem Kept.tickHandOver (h : Kept q s) : Kept q s.tickHandOver :=
  h.foldl fun _ _ h1 => .ite h1.handOverPoint (.ite h1.handOverPoint (.ite h1.handOverPoint (.ite h1.handOverPoint h1)))

theorem Kept.markWritten {seq : Nat} {guard : Bool} (h : Kept q s) : Kept q (s.markWritten seq guard) :=
  h.put fun w => { w with sched := Nat.le_trans (Nat.le_of_eq (List.length_map _)) w.sched }

theorem Kept.submitRws {code : Nat} {chk : Cmd → State → Chk} {wr : Cmd → State → State} {c : Cmd} (h : Kept q s)
    (hw : ∀ c s, Kept q s → Kept q (wr c s)) : Kept q (submitRws code chk wr c s) :=
  .ite (hw _ _ h.submit).markWritten h.submit

theorem Kept.rwsTransfer {a : RegId} {i : Nat} {wr : Cmd → State → State} {e : Entry} (h : Kept q s)
    (hw : ∀ c s, Kept q s → Kept q (wr c s)) : Kept q (s.rwsTransfer a i wr e) :=
  .ite h (.ite (hw _ _ h).handOver.setArm.frame (hw _ _ h).handOver)

theorem Kept.pcOvf {agg : Bool} {u j : Nat} (h : Kept q s) : Kept q (s.pcOvf agg u j) := .ite h.fs h.fs
theorem Kept.pcAdd {agg : Bool} {u j n : Nat} (h : Kept q s) : Kept q (s.pcAdd agg u j n) := .ite h (.ite h.rw.pcOvf h.rw)

theorem Kept.perf {u ev n rises : Nat} (h : Kept q s) : Kept q (s.perf u ev n rises) :=
  (h.foldl fun _ _ h1 => .ite h1.pcAdd h1).foldl fun _ _ h1 => .ite h1.pcAdd h1

theorem Kept.perfs {u : Nat} {l : List (Nat × Nat × Nat)} (h : Kept q s) : Kept q (s.perfs u l) :=
  h.foldl fun _ _ h1 => .ite h1 h1.perf

theorem Kept.perfAgg {g ev : Nat} {cl : Option Nat} {n : Nat} (h : Kept q s) : Kept q (s.perfAgg g ev cl n) :=
  h.foldl fun _ _ h1 => .ite h1.pcAdd h1

end

end Sys2Proof.Machine
end

