-- ==== Sys2Proof/Proofs/KeptIntegrity.lean ====
section
/-! Memory, its ECC and its logs, the signal path, the banks and the census. Each lemma says of one function of the model that
it keeps what `Keeping` asks for. -/

namespace Sys2Proof.Machine

section
-- One proof after another: each evaluates the default proofs of `Kept.frame`, and would wait for that in a thread of its own.
set_option Elab.async false
variable {q : Keeping} {s : State}

theorem Kept.countCe {w : WordId} (h : Kept q s) : Kept q (s.countCe w) := by
  unfold State.countCe
  split
  · split <;> exact h.fadd
  · split
    · split <;> exact h.fadd
    · exact h.fadd

theorem Kept.countUe {w : WordId} (h : Kept q s) : Kept q (s.countUe w) := .ite h.fadd (.ite h.fadd h.fadd)

/-- A log holds no more than its entries (R317). -/
theorem Kept.eccLog {w : WordId} {ue : Bool} {req syn : Nat} (h : Kept q s) : Kept q (s.eccLog w ue req syn) := by
  have hc : 0 < logCap w.log := by unfold logCap; split <;> omega
  unfold State.eccLog
  extract_lets l e full l' _ t u
  have hl : l.length ≤ logCap w.log → l'.length ≤ logCap w.log := by
    intro hl
    show ((if full then l.drop 1 else l) ++ [e]).length ≤ logCap w.log
    rw [List.length_append, List.length_singleton]
    split
    · rw [List.length_drop]; omega
    · next hn => change ¬ logCap w.log ≤ l.length at hn; omega
  have ht : Kept q t := h.put fun i => { i with logs := bounded_mput i.logs (hl (length_mget_le i.logs w.log)) }
  exact .ite ht.fs.fadd ht.fs

theorem Kept.dprLogRead {i : Nat} (h : Kept q s) : Kept q (s.dprLogRead i) := by
  unfold State.dprLogRead
  split
  · exact h.rw
  · next e t he =>
    have hl : (mget [] s.integ.logs i).length ≤ logCap i → t.length ≤ logCap i := by
      rw [he, List.length_cons]
      exact Nat.le_of_succ_le
    extract_lets _ u
    have hu : Kept q u := h.put fun w => { w with logs := bounded_mput w.logs (hl (length_mget_le w.logs i)) }
    exact hu.rw.rw.rw.fs

theorem Kept.foundCe {w : WordId} {syn req : Nat} (h : Kept q s) : Kept q (s.foundCe w syn req) := h.countCe.eccLog.det.frame

theorem Kept.foundUe {w : WordId} {syn req : Nat} (h : Kept q s) : Kept q (s.foundUe w syn req) :=
  h.countUe.eccLog.det.frame.frame

theorem Kept.eccRead {w : WordId} {syn req : Nat} (h : Kept q s) : Kept q (s.eccRead w syn req).2 := by
  unfold State.eccRead
  extract_lets
  split
  · exact h
  · exact h.foundCe
  · exact h.foundUe

theorem Kept.readTab {tab lo n : Nat} (h : Kept q s) : Kept q (s.readTab tab lo n) := h.foldl fun _ _ h1 => h1.eccRead

/-- The open entries of a memory port are at most 4 (R312). -/
theorem length_mergeOf (h : ∀ p ∈ s.integ.merge, p.2.length ≤ 4) (port : Nat) : (s.mergeOf port).length ≤ 4 :=
  length_mget_le (n := fun _ => 4) h port

/-- The entries of one port change, to at most 4. -/
theorem merge_put {port : Nat} {l : List MergeEnt} (h : ∀ p ∈ s.integ.merge, p.2.length ≤ 4) (hl : l.length ≤ 4) :
    ∀ p ∈ mput [] s.integ.merge port l, p.2.length ≤ 4 := bounded_mput (n := fun _ => 4) h hl

theorem Kept.fullWrite {w : WordId} (h : Kept q s) : Kept q (s.fullWrite w) :=
  h.put fun i => { i with merge := merge_put i.merge (Nat.le_trans (List.length_filter_le _ _) (length_mergeOf i.merge _)) }

theorem Kept.wroteTab {tab lo n : Nat} (h : Kept q s) : Kept q (s.wroteTab tab lo n) :=
  h.foldl fun _ _ h1 => .ite h1.fullWrite (.ite h1.foundUe h1)

theorem Kept.mergeBack {port word : Nat} (h : Kept q s) : Kept q (s.mergeBack port word) :=
  h.put fun i => { i with merge := merge_put i.merge (Nat.le_trans (List.length_filter_le _ _) (length_mergeOf i.merge _)) }

theorem Kept.mergeInto {w : WordId} {mask : Nat} (h : Kept q s) : Kept q (s.mergeInto w mask) := by
  unfold State.mergeInto
  extract_lets l _ t
  have hl : l.length = (s.mergeOf (wport w)).length := List.length_map _
  have ht : Kept q t := h.put fun i =>
    { i with merge := merge_put i.merge (Nat.le_trans (Nat.le_of_eq hl) (length_mergeOf i.merge _)) }
  exact .ite ht.mergeBack ht

/-- The oldest entry of a port leaves it. -/
theorem length_mergeOf_mergeBack {e : MergeEnt} {t : List MergeEnt} {port : Nat} (he : s.mergeOf port = e :: t) :
    ((s.mergeBack port e.word).mergeOf port).length ≤ t.length := by
  show (mget [] (mput [] s.integ.merge port ((s.mergeOf port).filter (fun x => x.word != e.word))) port).length ≤ t.length
  rw [mget_mput_same, he, List.filter_cons_of_neg (by simp)]
  exact List.length_filter_le _ _

/-- A port with at most 3 entries open has room for another. -/
theorem Kept.mergeAdd {port : Nat} {e : MergeEnt} (h : Kept q s) (hl : q.stores → (s.mergeOf port).length ≤ 3) :
    Kept q { s with integ := { s.integ with merge := mput [] s.integ.merge port (s.mergeOf port ++ [e]) } } := by
  refine ⟨fun i => { h.within i with merge := merge_put (h.within i).merge ?_ }, h.queue, h.clock⟩
  rw [List.length_append, List.length_singleton]
  exact Nat.succ_le_succ (hl i)

/-- With all 4 entries open the oldest is written back first (R312). -/
theorem Kept.mergeOpen {w : WordId} (h : Kept q s) : Kept q (s.mergeOpen w) := by
  unfold State.mergeOpen
  extract_lets t
  refine Kept.mergeAdd (s := t) ?_ fun i => ?_
  all_goals
    unfold t
    split
  · exact .ite h.mergeBack h
  · exact h
  · next e l he =>
    split
    · have h1 := length_mergeOf_mergeBack he
      have h4 := length_mergeOf (h.within i).merge (wport w)
      rw [he, List.length_cons] at h4
      omega
    · rw [he, List.length_cons]; omega
  · next he => rw [he]; exact Nat.zero_le _

theorem Kept.wroteWord {p : Nat × Nat} {syn : Nat} (h : Kept q s) : Kept q (s.wroteWord p syn) := by
  unfold State.wroteWord
  split
  · exact .ite h.fullWrite (.ite h.mergeInto h.eccRead.mergeOpen.mergeInto)
  · exact h

theorem Kept.busWrite {a : Nat} {bs : List Byte} {syn : Nat} (h : Kept q s) : Kept q (s.busWrite a bs syn).2 := by
  unfold State.busWrite
  extract_lets ws t
  split
  · split
    · exact h.foundUe
    · exact h
  · have ht : Kept q t := h.foldl fun _ _ h1 => h1.wroteWord
    exact Kept.notePages (ht.put fun w => { w with mem := memWrite_wf a bs w.mem })

theorem Kept.fillRange {a n : Nat} {bs : List Byte} (h : Kept q s) : Kept q (s.fillRange a n bs) := by
  unfold State.fillRange
  extract_lets inside m hit t
  have ht : Kept q t := h.notePages
  refine ⟨fun i => { ht.within i with mem := memWrite_wf a _ (mwf_filter _ (h.within i).mem), merge := ?_ }, ht.queue, ht.clock⟩
  intro p hp
  obtain ⟨x, hx, rfl⟩ := List.mem_map.1 (List.mem_filter.1 hp).1
  exact Nat.le_trans (List.length_filter_le _ _) ((ht.within i).merge x hx)

theorem Kept.execCorrectedWriteBack {w : WordId} (h : Kept q s) : KeptNext q (execCorrectedWriteBack w s) :=
  (Kept.ite h.frame h).next

theorem Kept.execMergeWriteBack {w : WordId} (h : Kept q s) : KeptNext q (execMergeWriteBack w s) :=
  (Kept.ite h.mergeBack h).next

theorem Kept.setDipState {d v : Nat} (h : Kept q s) : Kept q (s.setDipState d v) := .ite h.fs (.ite h.fs h.fs)
theorem Kept.setDip {d : Nat} {x : DipSt} (h : Kept q s) : Kept q (s.setDip d x) := h.frame

theorem Kept.execDipperPassStart {d : Nat} (h : Kept q s) : KeptNext q (execDipperPassStart d s) :=
  (Kept.ite h (.ite h.setDipState (.ite h (.ite h (.ite (.ite h.setDip.setDipState.fadd h.setDip.setDipState.fadd)
    h.setDip.setDipState))))).next

theorem Kept.execDipperRead {d : Nat} {w : WordId} {syn : Nat} {last : Bool} (h : Kept q s) :
    KeptNext q (Machine.execDipperRead d w syn last s) := by
  refine Kept.next (.ite h ?_)
  extract_lets owner t e _ _ u
  have ht : Kept q t := .ite h.perfAgg h
  have hu : Kept q u := by
    unfold u
    split
    · exact ht
    · split
      · exact ht
      · exact ht.foundCe
      · exact .ite ht ht.setDip.foundUe
  exact .ite (.ite hu.setDip.setDipState.fadd (.ite hu.setDip.setDipState.fadd hu.setDip.setDipState.fadd)) hu

theorem Kept.markFailed {u : Nat} (h : Kept q s) : Kept q (s.markFailed u) := h.fs.fs

theorem Kept.checkerFailed {w : WordId} (h : Kept q s) : Kept q (s.checkerFailed w) :=
  .ite (.ite h.det.markFailed.fs h.det.markFailed) (.ite (h.det.fs.fs.foldl fun _ _ h1 => h1.markFailed) h.det.fs)

theorem Kept.execCheckerSelfTest {fails : List WordId} (h : Kept q s) : KeptNext q (execCheckerSelfTest fails s) :=
  (h.foldl fun _ _ h1 => h1.checkerFailed).fs.next

theorem Kept.q31 {num : Int} {den : Nat} (h : Kept q s) : Kept q (s.q31 num den).2 := by
  unfold State.q31
  extract_lets
  split
  · exact h.freeWord
  · split
    · exact h
    · exact h.freeWord

theorem Kept.blk {f : Nat → State → Int × State} (h : Kept q s) (hf : ∀ i s, Kept q s → Kept q (f i s).2) :
    Kept q (s.blk f).2 := hf _ _ (hf _ _ (hf _ _ (hf _ _ h)))

theorem Kept.scaleBlk {b : Blk} {num : Nat → Int} {den : Nat} (h : Kept q s) : Kept q (s.scaleBlk b num den).2 :=
  h.blk (fun _ _ h1 => h1.q31)

theorem Kept.fadeOut {b : Blk} (h : Kept q s) : Kept q (s.fadeOut b).2 := h.scaleBlk
theorem Kept.fadeIn {b : Blk} (h : Kept q s) : Kept q (s.fadeIn b).2 := h.scaleBlk

theorem Kept.fadeBlk {f : Fade} {t : Nat} {x : Nat → Blk} (h : Kept q s) : Kept q (s.fadeBlk f t x).2 :=
  h.blk (fun _ _ h1 => h1.q31)

theorem Kept.quot {num den : Nat} (h : Kept q s) : Kept q (s.quot num den).2 := by
  unfold State.quot
  split
  · exact h
  · exact h.freeWord

theorem Kept.rclClear {r : RegId} {i : Nat} (h : Kept q s) : Kept q (s.rclClear r i) := h.rw

theorem Kept.showCen (h : Kept q s) : Kept q s.showCen := by
  unfold State.showCen
  split <;> exact h.fs.fs

theorem Kept.execCensusAt {c : Cmd} (h : Kept q s) : KeptNext q (execCensusAt c s) :=
  (Kept.ite h.submit.frame.showCen h.submit).next

theorem Kept.setClear {k : Nat} (h : Kept q s) : Kept q (s.setClear k) := .ite h.frame (h.foldl fun _ _ h1 => h1.rclClear)

theorem Kept.applyCensusAt {e : Entry} (h : Kept q s) : Kept q (Machine.applyCensusAt e s) := by
  unfold Machine.applyCensusAt
  extract_lets mask sets live off img head t
  have hf : Kept q (sets.foldl State.setClear s) := h.foldl fun _ _ h1 => h1.setClear
  have ht : Kept q t := hf.fs
  exact ht.frame.showCen

theorem Kept.execCensusSnapshot {dt : Nat} (h : Kept q s) : KeptNext q (execCensusSnapshot dt s) := by
  have ht := h.elapse (dt := dt)
  refine Kept.next ?_
  split
  · exact Kept.applyCensusAt (ht.put fun w => { w with sched := Nat.le_trans (List.length_filter_le _ _) w.sched })
  · exact ht

theorem Kept.execCensusCopyComplete {status : Nat} (h : Kept q s) : KeptNext q (execCensusCopyComplete status s) := by
  refine Kept.next ?_
  split
  · exact h
  · exact ((Kept.ite (Kept.ite h.frame h.frame.busWrite.busWrite.rw.rw).cplFirst (Kept.ite h.frame
      h.frame.busWrite.busWrite.rw.rw).cplFinal).foldl fun _ _ h1 => h1.cplFinal).showCen

theorem Kept.liveRead {r : RegId} {i : Nat} (h : Kept q s) : Kept q (s.liveRead r i) := by
  refine Kept.rclClear ?_
  split
  · exact h.fs
  · exact h

theorem Kept.applyPcSet {e : Entry} (h : Kept q s) : Kept q (applyPcSet e s) := (h.foldl fun _ _ h1 => h1.rw.rw).rw.finish

theorem Kept.pcRead {agg : Bool} {i : Nat} (h : Kept q s) : Kept q (s.pcRead agg i) :=
  .ite (Kept.ite h.freeWord.rw h).rw h.rw

theorem Kept.execPcCntRead {agg : Bool} {n j dt : Nat} (h : Kept q s) : KeptNext q (execPcCntRead agg n j dt s) :=
  (Kept.ite h.elapse h.elapse.pcRead.frame).next

theorem Kept.execPerformanceCounterOverflow {agg : Bool} {n j : Nat} (h : Kept q s) :
    KeptNext q (execPerformanceCounterOverflow agg n j s) :=
  (Kept.ite h (.ite (.ite h.rw.pcOvf h) (.ite h.rw.pcOvf h))).next

end

end Sys2Proof.Machine
end

