-- ==== Sys2Proof/Proofs/KeptPorts.lean ====
section
/-! The TDM and PDM ports, and the units' cores beside them. Each lemma says of one function of the model that
it keeps what `Keeping` asks for. -/

namespace Sys2Proof.Machine

section
-- One proof after another: each evaluates the default proofs of `Kept.frame`, and would wait for that in a thread of its own.
set_option Elab.async false
variable {q : Keeping} {s : State}

theorem Kept.pushIn {key n : Nat} {v : Int} (h : Kept q s) : Kept q (s.pushIn key n v) := .ite h h.frame
theorem Kept.convSet {key count : Nat} {asrc : Bool} (h : Kept q s) : Kept q (s.convSet key count asrc) := h.frame
theorem Kept.convPush {mode key : Nat} {v : Int} (h : Kept q s) : Kept q (s.convPush mode key v) := h.frame

theorem Kept.convValue {mode key phase : Nat} (h : Kept q s) : Kept q (s.convValue mode key phase).2 := by
  unfold State.convValue
  extract_lets
  split
  · exact h
  · split
    · exact h.frame
    · exact h

theorem Kept.pushMode {mode key n : Nat} {v : Int} {twice : Bool} (h : Kept q s) : Kept q (s.pushMode mode key n v twice) :=
  .ite h.pushIn (.ite h.convPush (.ite h.convPush.convValue.pushIn.convValue.pushIn h.convPush.convValue.pushIn))

theorem Kept.convBlk {key : Nat} {b : Blk} {up : Bool} (h : Kept q s) : Kept q (s.convBlk key b up).2 := by
  unfold State.convBlk
  refine h.foldl_snd fun p i hp => ?_
  extract_lets
  split
  · exact hp.convPush.convValue.convValue
  · split
    · exact hp.convPush.convValue
    · exact hp.convPush

theorem Kept.execAsrcSettled {key : Nat} (h : Kept q s) : KeptNext q (execAsrcSettled key s) := h.frame.next

theorem Kept.execAsrcRateLoss {key : Nat} (h : Kept q s) : KeptNext q (execAsrcRateLoss key s) := by
  refine Kept.next ?_
  split
  · exact h
  · exact .ite h h.frame.det

theorem Kept.setTdm {p : Nat} {x : TdmPort} (h : Kept q s) : Kept q (s.setTdm p x) := h.frame
theorem Kept.agShow (h : Kept q s) : Kept q s.agShow := h.foldl fun _ _ h1 => h1.fs.fs.fs

theorem Kept.closeRec {p : Nat} {short : Bool} (h : Kept q s) : Kept q (s.closeRec p short) :=
  .ite h (.ite h.setTdm.fadd h.setTdm.busWrite.fs)

theorem Kept.ringRx {p mts : Nat} {ws : List Word} (h : Kept q s) : Kept q (s.ringRx p mts ws) :=
  .ite h.setTdm.closeRec h.setTdm

/-- One round of the search, with what the later ones find in `B`. What `frameNo` gives is left open: the kernel would
otherwise work the number out. -/
theorem Kept.findRecRound {p fs i n : Nat} {B : Nat.below (motive := fun _ => State → Option (List (Nat × Word)) × State) (n + 1)}
    (hB : ∀ s, Kept q s → Kept q (B.1 s).2) (h : Kept q s) : Kept q (State.findRec._f p fs i (n + 1) B s).2 := by
  delta State.findRec._f
  generalize frameNo = no
  revert no
  refine id fun no => ?_
  dsimp only
  split
  · exact h
  split
  · exact hB _ h.fs.fadd
  split
  · exact hB _ h.fs.fadd
  split
  · exact h
  · exact .ite h.fs h

theorem Kept.findRec {p fs i n : Nat} (h : Kept q s) : Kept q (s.findRec p fs i n).2 := by
  induction n generalizing s with
  | zero => exact h
  | succ n ih =>
    have ih' : ∀ s, Kept q s → Kept q (s.findRec p fs i n).2 := fun _ h => ih h
    delta State.findRec at ih' ⊢
    exact Kept.findRecRound ih' h

theorem Kept.scaleWord {v : Word} {w n : Nat} (h : Kept q s) : Kept q (s.scaleWord v w n).2 := by
  unfold State.scaleWord
  split
  · exact h
  · exact h.q31

theorem Kept.scaleFrame {w n : Nat} {l : List (Nat × Word)} (h : Kept q s) : Kept q (s.scaleFrame w n l).2 := by
  induction l generalizing s with
  | nil => exact h
  | cons a t ih => exact ih h.scaleWord

theorem Kept.ringTx {p i : Nat} (h : Kept q s) : Kept q (s.ringTx p i).2 := by
  unfold State.ringTx
  extract_lets fs n
  split
  next f t e =>
  have ht : Kept q t := h.findRec.of_eq e
  extract_lets x
  split
  · exact (Kept.ite ht.setTdm.fs ht.setTdm).scaleFrame
  · split
    · exact ht
    · exact (Kept.ite ht ht.fs.fadd.post).setTdm.scaleFrame

theorem Kept.ringMute {fs : Nat} {l : List (Nat × Word)} (h : Kept q s) : Kept q (s.ringMute fs l).2 := by
  unfold State.ringMute
  split
  · exact h
  · split
    · exact h.scaleFrame
    · exact h.scaleFrame

theorem Kept.tdmStop {p st : Nat} (h : Kept q s) : Kept q (s.tdmStop p st) := h.closeRec.setTdm.fs.fs
theorem Kept.tdmSetDone {p : Nat} (h : Kept q s) : Kept q (s.tdmSetDone p) := h.foldl fun _ _ h1 => .ite h1.frame.finish h1

theorem Kept.tdmConv {p : Nat} (h : Kept q s) : Kept q (s.tdmConv p) := by
  unfold State.tdmConv
  extract_lets m one
  have hone : ∀ s dir en, Kept q s → Kept q (one s dir en) := by
    intro s dir en h
    unfold one
    dsimp only
    split
    · exact .ite h h.convSet
    · exact h.convSet
  exact (hone _ _ _ (hone _ _ _ h)).fs

theorem Kept.showRec {p : Nat} (h : Kept q s) : Kept q (s.showRec p) := h.fs

theorem Kept.tdmHandOver {p guard : Nat} (h : Kept q s) : Kept q (s.tdmHandOver p guard) :=
  .ite h (.ite h (Kept.ite h.closeRec h.tdmStop).setTdm.handOver.tdmConv.showRec.agShow.tdmSetDone)

theorem Kept.tdmStart {p : Nat} (h : Kept q s) : Kept q (s.tdmStart p) :=
  .ite (.ite h h.tdmStop) (.ite (.ite h h.tdmStop) (.ite h (.ite h (.ite (.ite h.setTdm.fs h.fs) h.setTdm.fs))))

theorem Kept.tdmBoundary (h : Kept q s) : Kept q s.tdmBoundary :=
  h.foldl fun _ _ h1 => (Kept.ite h1 h1.tdmHandOver).showRec.tdmStart

theorem Kept.tdmStepped (h : Kept q s) : Kept q s.tdmStepped := h.foldl fun _ _ h1 => .ite h1 h1.closeRec.setTdm
theorem Kept.tdmLost {p : Nat} (h : Kept q s) : Kept q (s.tdmLost p) := h.tdmStop.fadd.det.setTdm

theorem Kept.tdmRx {p : Nat} {ws : List Word} (h : Kept q s) : Kept q (s.tdmRx p ws) :=
  .ite h (.ite h.ringRx (.ite h (h.foldl fun _ _ h1 => .ite h1.convPush h1.pushMode)))

theorem Kept.tdmConvert (h : Kept q s) : Kept q s.tdmConvert := by
  unfold State.tdmConvert
  refine Kept.foldl h.frame fun t p ht => ?_
  split
  · exact ht
  · refine ht.foldl fun t k ht => ?_
    exact .ite (ht.foldl fun _ _ h1 => h1.convPush) ht.convBlk.frame

theorem Kept.tdmTxWord {p k : Nat} (h : Kept q s) : Kept q (s.tdmTxWord p k).2 := by
  unfold State.tdmTxWord
  extract_lets
  split
  · exact h
  · split
    · exact h
    · split
      · split
        · exact h.convValue.q31
        · split
          · exact h.convValue
          · exact h
      · exact h

theorem Kept.tdmTx {p : Nat} (h : Kept q s) : Kept q (s.tdmTx p) := by
  unfold State.tdmTx
  split
  · exact h.setTdm
  · extract_lets b mask
    split
    next l t e =>
    refine Kept.setTdm (Kept.of_eq ?_ e)
    split
    · exact h.ringTx.ringMute
    · exact h.foldl_snd fun _ _ h1 => h1.tdmTxWord

theorem Kept.tdmSlave {p bclks : Nat} (h : Kept q s) : Kept q (s.tdmSlave p bclks) :=
  .ite (.ite h.setTdm (.ite h.setTdm (.ite h.setTdm.fs.fs h.setTdm))) (.ite h.tdmLost h.setTdm)

theorem Kept.execTdmFrameSync {p : Nat} {f : TdmSync} (h : Kept q s) : KeptNext q (Machine.execTdmFrameSync p f s) := by
  unfold Machine.execTdmFrameSync
  extract_lets t st master first _ u v _ w x
  have ht : Kept q t := h.elapse
  have hu : Kept q u := .ite ht.setTdm ht.tdmSlave
  have hv : Kept q v := .ite hu hu.tdmRx
  have hx : Kept q x := hv.setTdm.tdmHandOver
  refine Kept.next (.ite ht (.ite hu ?_))
  exact .ite (.ite hx hx.tdmStart) hx.tdmTx

theorem Kept.execTdmFrameSyncTimeout {p : Nat} (h : Kept q s) : KeptNext q (execTdmFrameSyncTimeout p s) := by
  refine Kept.next ?_
  split
  · exact .ite h.tdmLost h
  · exact h

theorem Kept.tdmRingIdx {p : Nat} {v : Word} (h : Kept q s) : Kept q (s.tdmRingIdx p v) :=
  .ite h (.ite h.fs (.ite h.fs.fs.setTdm h.fs.fs))

theorem Kept.execTdmRingIdxWrite {p : Nat} {v : Word} (h : Kept q s) : KeptNext q (execTdmRingIdxWrite p v s) :=
  h.tdmRingIdx.next

theorem Kept.applyTdmSet {e : Entry} (h : Kept q s) : Kept q (applyTdmSet e s) := h.rwsWrite.rwsWrite.rwsWrite.rwsWrite.frame

theorem Kept.submitPort {code : Nat} {chk : Cmd → State → Chk} {wr : Entry → State → State} {c : Cmd} (h : Kept q s)
    (hw : ∀ e s, Kept q s → Kept q (wr e s)) : Kept q (submitPort code chk wr c s) := by
  unfold Machine.submitPort
  extract_lets seq t
  split
  · exact hw _ _ h.submit.frame
  · exact h.submit

theorem Kept.execTdmSet {c : Cmd} (h : Kept q s) : KeptNext q (execTdmSet c s) :=
  (h.submitPort (fun _ _ h1 => h1.applyTdmSet)).next

theorem Kept.applyTdmRingSet {e : Entry} (h : Kept q s) : Kept q (applyTdmRingSet e s) :=
  .ite h.finish h.imgWrite.imgWrite.imgWrite.showRec.finish

theorem Kept.applyTdmAgStart {e : Entry} (h : Kept q s) : Kept q (applyTdmAgStart e s) :=
  (h.frame.foldl fun _ _ h1 => .ite h1.tdmStart h1).agShow.finish

theorem Kept.execTdmAgStart {c : Cmd} (h : Kept q s) : KeptNext q (execTdmAgStart c s) := h.submit.agShow.next

theorem Kept.applyTdmAgStop {e : Entry} (h : Kept q s) : Kept q (applyTdmAgStop e s) :=
  (h.frame.foldl fun _ _ h1 => .ite h1.tdmStop h1).agShow.finish

theorem Kept.setMic {p m : Nat} {x : PdmMic} (h : Kept q s) : Kept q (s.setMic p m x) := h.frame

theorem Kept.micSample {p m n : Nat} (h : Kept q s) : Kept q (s.micSample p m n) := by
  unfold State.micSample
  extract_lets x en want _ x
  refine .ite h.setMic (.ite h.setMic (.ite h.setMic ?_))
  split
  next w t e =>
  have ht : Kept q t := h.freeWord.of_eq e
  split
  extract_lets y
  split
  split
  extract_lets u v
  have hv : Kept q v := .ite (.ite ht.setMic.fadd ht.setMic.fadd) ht.setMic
  split
  next pk w e =>
  have hw : Kept q w := hv.freeWord.of_eq e
  exact (Kept.ite hw.fs hw.fs).pushIn

theorem Kept.pdmSample {n : Nat} (h : Kept q s) : Kept q (s.pdmSample n) := by
  unfold State.pdmSample
  refine h.foldl fun s p h => ?_
  extract_lets t u clk x _ v run w
  have ht : Kept q t := h.handOverPoint
  have hu : Kept q u := .ite h (.ite h (ht.foldl fun _ _ h1 => .ite h1.frame.finish h1))
  have hv : Kept q v := .ite hu hu.setMic.setMic.frame
  have hw : Kept q w := .ite hv hv.fs
  exact .ite hw.micSample.micSample hw

theorem Kept.applyPdmSet {e : Entry} (h : Kept q s) : Kept q (applyPdmSet e s) := h.rwsWrite.rwsWrite.frame

theorem Kept.execPdmSet {c : Cmd} (h : Kept q s) : KeptNext q (execPdmSet c s) :=
  (h.submitPort (fun _ _ h1 => h1.applyPdmSet)).next

theorem Kept.execPdmStuck {p mic : Nat} {stuck : Bool} (h : Kept q s) : KeptNext q (execPdmStuck p mic stuck s) :=
  (Kept.ite h (Kept.ite (.ite (Kept.ite h.fs h.fs).fadd (Kept.ite h.fs h.fs).fadd) (.ite h.fs h.fs)).post).next

theorem Kept.asrcPush {key n : Nat} (h : Kept q s) : Kept q (s.asrcPush key n) := h.convValue.pushIn

theorem Kept.tdmAsrc {n : Nat} (h : Kept q s) : Kept q (s.tdmAsrc n) := by
  refine h.foldl fun s p h => ?_
  split
  · exact .ite (h.foldl fun _ _ h1 => h1.asrcPush) h
  · exact h

theorem Kept.setUnit {u : Nat} {x : UnitSt} (h : Kept q s) : Kept q (s.setUnit u x) := h.frame
theorem Kept.setCore {u : Nat} {c : UCore} (h : Kept q s) : Kept q (s.setCore u c) := h.setUnit
theorem Kept.setUst {u v : Nat} (h : Kept q s) : Kept q (s.setUst u v) := h.fs
theorem Kept.latchLine {p l : Nat} (h : Kept q s) : Kept q (s.latchLine p l) := .ite h h.setCore
theorem Kept.setPch {n : Nat} {x : PmpCh} (h : Kept q s) : Kept q (s.setPch n x) := h.frame
theorem Kept.pmpTrig {n : Nat} (h : Kept q s) : Kept q (s.pmpTrig n) := .ite h.setPch (.ite h.fs h)

theorem Kept.pulse {cl l : Nat} (h : Kept q s) : Kept q (s.pulse cl l) :=
  .ite h ((h.foldl fun _ _ h1 => h1.latchLine).foldl fun _ _ h1 => h1.pmpTrig)

theorem Kept.deliver {kind index : Nat} {b : Blk} (h : Kept q s) : Kept q (s.deliver kind index b) := .ite h.frame h.frame

theorem Kept.readBind {p off : Nat} (h : Kept q s) : Kept q (s.readBind p off).2 := by
  unfold State.readBind
  refine h.foldl_snd fun p a hp => ?_
  split
  · exact hp.eccRead
  · exact hp

theorem Kept.takeBinds {p : Nat} (h : Kept q s) : Kept q (s.takeBinds p) := by
  unfold State.takeBinds
  extract_lets x mute
  split
  · exact h
  · extract_lets t _
    have ht : Kept q t := by
      refine h.foldl fun t b ht => .ite ht ?_
      split
      next raw u e =>
      have hu : Kept q u := ht.readBind.of_eq e
      split
      next o v e =>
      have hv : Kept q v := Kept.of_eq (.ite_snd (.ite_snd hu hu.fadeOut) (.ite_snd hu.fadeIn hu)) e
      exact hv.setUnit.deliver
    exact ht.setUnit.fs

theorem Kept.fadeBinds {p : Nat} (h : Kept q s) : Kept q (s.fadeBinds p) := by
  unfold State.fadeBinds
  extract_lets
  split
  · exact h
  · exact (h.foldl fun _ _ h1 => .ite h1 (.ite (.ite h1.deliver h1) h1.fadeOut.setUnit.deliver)).setUnit

theorem Kept.stopTrap {u cause pc : Nat} (h : Kept q s) : Kept q (s.stopTrap u cause pc) := h.fs.fs.fadd.setUst.det.fadeBinds

theorem Kept.wbOut {u : Nat} {e : WbEnt} (h : Kept q s) : Kept q (s.wbOut u e).2 := by
  unfold State.wbOut
  split
  · exact h.pulse
  · exact h.busWrite

theorem Kept.wbLeave {u : Nat} (h : Kept q s) : Kept q (s.wbLeave u) := by
  unfold State.wbLeave
  extract_lets
  split
  · exact h
  · exact .ite h.setCore.wbOut (h.setCore.wbOut.setCore.foldl fun _ _ h1 => h1.wbOut).stopTrap

theorem Kept.wbDrain {u n : Nat} (h : Kept q s) : Kept q (s.wbDrain u n) := by
  induction n generalizing s with
  | zero => exact h
  | succ n ih => exact .ite h (ih h.wbLeave)

theorem Kept.trap {u cause : Nat} (h : Kept q s) : Kept q (s.trap u cause) :=
  .ite h.setCore.wbDrain h.setCore.wbDrain.stopTrap

theorem Kept.wbPush {u : Nat} {e : WbEnt} (h : Kept q s) : Kept q (s.wbPush u e) := (Kept.ite h.wbLeave h).setCore

theorem Kept.execWriteBufferEntryLeave {u : Nat} (h : Kept q s) : KeptNext q (execWriteBufferEntryLeave u s) :=
  (Kept.ite h.wbLeave h).next

theorem Kept.coreDone {u : Nat} {c : UCore} {stall : Nat} (h : Kept q s) : Kept q (s.coreDone u c stall) := h.setUnit

theorem Kept.uLoad {u k size : Nat} {x : UPort} (h : Kept q s) : Kept q (s.uLoad u k size x).2 := by
  unfold State.uLoad
  extract_lets c
  split
  · exact h
  · exact h
  · refine .ite_snd h (.ite_snd h ?_)
    split
    next e t he =>
    have ht : Kept q t := by
      refine Kept.of_eq ?_ he
      split
      · exact h.eccRead
      · exact h
    exact .ite_snd ht ht.setCore

theorem Kept.uStore {u k size : Nat} {ws : List Word} {x : UPort} (h : Kept q s) : Kept q (s.uStore u k size ws x).2 := by
  unfold State.uStore
  extract_lets
  split
  · exact h
  · split
    · exact h
    · split
      · exact h
      · exact h.wbPush
  · split
    · exact h
    · split
      · exact h
      · exact h.wbPush

theorem Kept.showHalted (h : Kept q s) : Kept q s.showHalted := h.fs
theorem Kept.resumeAll (h : Kept q s) : Kept q s.resumeAll := h.frame.fs.fs.fs
theorem Kept.dbgEnd (h : Kept q s) : Kept q s.dbgEnd := h.fs.fs.fs.fs.resumeAll.frame
theorem Kept.dbgRelevel (h : Kept q s) : Kept q s.dbgRelevel := .ite h.fs.fs.resumeAll h.fs.fs
theorem Kept.dbgFall (h : Kept q s) : Kept q s.dbgFall := .ite h h.frame.dbgRelevel
theorem Kept.dbgDenied (h : Kept q s) : Kept q s.dbgDenied := h.fs

end

end Sys2Proof.Machine
end

