-- ==== Sys2Proof/Proofs/KeptHost.lean ====
section
/-! The host interface and the Wellhead. Each lemma says of one function of the model that
it keeps what `Keeping` asks for. -/

namespace Sys2Proof.Machine

section
-- One proof after another: each evaluates the default proofs of `Kept.frame`, and would wait for that in a thread of its own.
set_option Elab.async false
variable {q : Keeping} {s : State}

theorem Kept.ringErr {r cause : Nat} (h : Kept q s) : Kept q (s.ringErr r cause) := h.post
theorem Kept.ringHalt {r : Nat} (h : Kept q s) : Kept q (s.ringHalt r) := h.fs.ringErr

theorem Kept.execDoorbell {off : Nat} {x : BusWord} {dt : Nat} (h : Kept q s) : KeptNext q (execDoorbell off x dt s) :=
  (Kept.ite h.elapse (.ite h.elapse.fs.ringErr h.elapse.fs.frame)).next

theorem Kept.takeStamp {r i : Nat} (h : Kept q s) : Kept q (s.takeStamp r i).2 := by
  unfold State.takeStamp
  split
  · exact h.frame
  · exact h

theorem Kept.execInterruptCoalesceTimeout {r : Nat} (h : Kept q s) : KeptNext q (execInterruptCoalesceTimeout r s) :=
  (Kept.ite h.frame.msi h).next

theorem Kept.goWrite (h : Kept q s) : Kept q s.goWrite := .ite h (.ite h.fs h.fs.frame)
theorem Kept.execGo (h : Kept q s) : KeptNext q (execGo s) := (Kept.ite h h.goWrite).next

theorem Kept.ringsStart (h : Kept q s) : Kept q s.ringsStart :=
  h.foldl fun _ _ h1 => .ite h1 (.ite h1.fs.fs.fs.convSet h1.fs.fs.fs)

theorem Kept.hifReset (h : Kept q s) : Kept q s.hifReset :=
  (h.foldl fun _ _ h1 => (Kept.ite h1.convSet h1).rw.rw.rw.rw.rw.rw).fs.frame.frame

theorem Kept.execFunctionLevelReset (h : Kept q s) : KeptNext q (execFunctionLevelReset s) := h.hifReset.dbgEnd.next
theorem Kept.execPerstNAssert (h : Kept q s) : KeptNext q (execPerstNAssert s) := h.hifReset.dbgEnd.next
theorem Kept.audReturn {d : AudDesc} (h : Kept q s) : Kept q (s.audReturn d) := h.frame.fadd.ringReturn

theorem Kept.hinFlush {r : Nat} (h : Kept q s) : Kept q (s.hinFlush r) := by
  unfold State.hinFlush
  split
  · exact .ite h.audReturn h
  · exact h

theorem Kept.execHinReturn {r : Nat} (h : Kept q s) : KeptNext q (execHinReturn r s) := h.hinFlush.next

theorem Kept.hinFrame {r n : Nat} {smp : Nat → Int} (h : Kept q s) : Kept q (s.hinFrame r n smp).2 := by
  unfold State.hinFrame
  extract_lets
  split
  · exact h
  · exact h.foldl fun _ _ h1 => h1.pushMode

theorem Kept.hinTake {d : AudDesc} (h : Kept q s) : Kept q (s.hinTake d) := by
  -- Opened under a name, for the kernel would evaluate the numbers it matches on to compare it with its body.
  generalize e : State.hinTake = f
  delta State.hinTake at e
  subst e
  beta_reduce
  extract_lets -underBinder ch
  split
  · split
    next lost t e =>
    have ht : Kept q t := by
      refine Kept.of_eq (Kept.foldl_pair h fun p j r hp er => ?_) e
      split at er
      next ok u eu => cases er; exact hp.hinFrame.of_eq eu
    exact ht.frame
  · exact h.frame.hinFlush

theorem Kept.houtRing {r g : Nat} (h : Kept q s) : Kept q (s.houtRing r g) := by
  unfold State.houtRing
  extract_lets -underBinder i ch half nf
  split
  · exact h.frame
  · extract_lets -underBinder gap d _ t
    have ht : Kept q t := h.frame
    split
    next l u e =>
    have hu : Kept q u := by
      refine Kept.of_eq (ht.foldl_snd fun p c hp => ?_) e
      extract_lets b
      split
      · exact hp.convBlk
      · exact hp
    extract_lets -underBinder b v _ _ x
    have hw : Kept q x := hu.hostWrite.frame
    exact .ite hw.audReturn hw

theorem Kept.houtCollect {g : Nat} (h : Kept q s) : Kept q (s.houtCollect g) := h.foldl fun _ _ h1 => .ite h1.houtRing h1
theorem Kept.setSst {n v : Nat} (h : Kept q s) : Kept q (s.setSst n v) := h.fs
theorem Kept.setTimer {n : Nat} {t : Option Nat} (h : Kept q s) : Kept q (s.setTimer n t) := h.setSlot
theorem Kept.showQl (h : Kept q s) : Kept q s.showQl := (h.foldl fun _ _ h1 => h1.fs).fs
theorem Kept.startWtr {n : Nat} (h : Kept q s) : Kept q (s.startWtr n) := .ite h.setSst.fs.setSlot h.setSst.fs.setSlot

theorem Kept.slotValid {n : Nat} (h : Kept q s) : Kept q (s.slotValid n) :=
  .ite (.ite h.setSlot.startWtr h.setSlot.setSst) (.ite h.setSlot.setTimer h.setSlot)

theorem Kept.slotInvalid {n : Nat} (h : Kept q s) : Kept q (s.slotInvalid n) :=
  .ite h.setSlot.setTimer.setSst.fs (.ite h.setSlot.setTimer.setSst.post.det (.ite h.setSlot.setTimer h.setSlot))

theorem Kept.disqualify {n : Nat} (h : Kept q s) : Kept q (s.disqualify n) := h.setTimer.setSst.post.det

theorem Kept.judgeDrift {n : Nat} (h : Kept q s) : Kept q (s.judgeDrift n) :=
  .ite (.ite h.slotValid h) (.ite (.ite h.setTimer.setSst.fs h) (.ite (.ite h.disqualify (.ite h.setSst.setTimer.post h))
    (.ite (.ite h.disqualify (.ite h h.setSst.setTimer)) (.ite (.ite h.setTimer (.ite h.setTimer h)) h))))

theorem Kept.updateFreq {n : Nat} (h : Kept q s) : Kept q (s.updateFreq n) := .ite h h.setSlot.fsI

theorem Kept.showWtr {n : Nat} (h : Kept q s) : Kept q (s.showWtr n) := by
  unfold State.showWtr
  split
  · exact .ite h.fs h
  · exact h

theorem Kept.execSlotMeasurementUpdate {dt : Nat} (h : Kept q s) : KeptNext q (execSlotMeasurementUpdate dt s) :=
  ((h.elapse.foldl fun _ _ h1 => h1.updateFreq).foldl fun _ _ h1 => h1.judgeDrift.showWtr).next

theorem Kept.execWtrExpiry {n : Nat} (h : Kept q s) : KeptNext q (execWtrExpiry n s) :=
  (Kept.ite h.setTimer.setSst.fs h).next

theorem Kept.execDriftHoldExpiry {n : Nat} (h : Kept q s) : KeptNext q (execDriftHoldExpiry n s) :=
  (Kept.ite (.ite h.disqualify (.ite (.ite h.setTimer.startWtr h.setTimer.setSst) h)) h).next

theorem Kept.slotPhase {n : Nat} {p : Int} (h : Kept q s) : Kept q (s.slotPhase n p) := by
  refine Kept.showPhase ?_
  split
  · exact .ite h.setSlot.frame h.setSlot
  · exact h.setSlot

theorem Kept.periodEdge {n : Nat} {bad : Bool} {limit : Nat} (h : Kept q s) : Kept q (s.periodEdge n bad limit) :=
  .ite (Kept.ite h.slotInvalid h).setSlot.slotPhase.slotInvalid (.ite (Kept.ite h.slotInvalid h).setSlot.slotPhase.slotValid
    (Kept.ite h.slotInvalid h).setSlot.slotPhase)

theorem Kept.execPpsinEdge {dt : Nat} (h : Kept q s) : KeptNext q (execPpsinEdge dt s) := h.elapse.periodEdge.next

theorem Kept.execRefinEdge {i dt : Nat} (h : Kept q s) : KeptNext q (execRefinEdge i dt s) := by
  unfold Machine.execRefinEdge
  split
  · exact h.elapse.periodEdge.next
  · exact h.next

theorem Kept.setLoop {l : Nat} (h : Kept q s) : Kept q (s.setLoop l) := h.fs.fs.frame

theorem Kept.setMode {m : Nat} (h : Kept q s) : Kept q (s.setMode m) :=
  .ite (h.fs.frame.foldl fun _ _ h1 => .ite h1.setSlot.setSst.fs h1) h.fs.frame

theorem Kept.execWhLock (h : Kept q s) : KeptNext q (execWhLock s) := (Kept.ite h.frame h).next

theorem Kept.lockEntry {restarted : Bool} (h : Kept q s) (hg : q.AnyGap) : Kept q (s.lockEntry restarted) :=
  .ite (Kept.ite ((Kept.ite h.frame.setLoop h.frame).alignStep hg) (.ite h.frame.setLoop h.frame)).post
    (.ite ((Kept.ite h.frame.setLoop h.frame).alignStep hg) (.ite h.frame.setLoop h.frame))

theorem Kept.execWhUnlock (h : Kept q s) : KeptNext q (execWhUnlock s) := (Kept.ite h.setLoop.post h).next
theorem Kept.acqHold (h : Kept q s) : Kept q s.acqHold := .ite h.setMode h
theorem Kept.execAcqHoldExpiry (h : Kept q s) : KeptNext q (execAcqHoldExpiry s) := h.acqHold.next
theorem Kept.execReacqExpiry (h : Kept q s) : KeptNext q (execReacqExpiry s) := (Kept.ite h.setMode h).next
theorem Kept.enterHoldover (h : Kept q s) : Kept q s.enterHoldover := h.fs.fs.setLoop.post.det
theorem Kept.startSwitch {new : Nat} (h : Kept q s) : Kept q (s.startSwitch new) := h.setLoop.frame

theorem Kept.evaluate (h : Kept q s) : Kept q s.evaluate :=
  .ite h (.ite h (.ite h.fs.fs.post (.ite h.enterHoldover h.startSwitch)))

theorem Kept.execSwitchDeltaFix (h : Kept q s) : KeptNext q (execSwitchDeltaFix s) := by
  refine Kept.next ?_
  split
  · exact .ite h.frame h
  · exact h

theorem Kept.lateWtrs (h : Kept q s) : Kept q s.lateWtrs := h.foldl fun _ _ h1 => .ite h1.startWtr h1

theorem Kept.execWhSwitch (h : Kept q s) : KeptNext q (execWhSwitch s) := by
  refine Kept.next ?_
  split
  · split
    · split
      · exact .ite h.frame.fs.fs.fs.post.setLoop.lateWtrs.frame.setLoop h.frame.fs.fs.fs.post.setLoop.lateWtrs
      · exact h
    · exact h
  · exact h

theorem Kept.rateTick (h : Kept q s) : Kept q s.rateTick := .ite h.showRate (Kept.ite h.frame h).frame.showRate
theorem Kept.holdTick (h : Kept q s) : Kept q s.holdTick := .ite h h.frame.fsI.fs.fs
theorem Kept.critTick (h : Kept q s) : Kept q s.critTick := .ite h.frame h

theorem Kept.whTick (h : Kept q s) : Kept q s.whTick :=
  (Kept.ite h.rateTick.holdTick.critTick.acqHold h.rateTick.holdTick.critTick).evaluate.showQl

theorem Kept.slotEnable {n oldEn : Nat} (h : Kept q s) : Kept q (s.slotEnable n oldEn) :=
  .ite h.setTimer.setSst.fs (.ite (.ite h.setSst.slotValid h.setSst) h)

theorem Kept.applyWhAcquire {e : Entry} (h : Kept q s) : Kept q (applyWhAcquire e s) := h.setMode.finish

theorem Kept.applyWhLoopOpen {e : Entry} (h : Kept q s) : Kept q (applyWhLoopOpen e s) :=
  (Kept.ite h (.ite h.frame h.setLoop)).finish

theorem Kept.applyWhLoopClose {e : Entry} (h : Kept q s) : Kept q (applyWhLoopClose e s) :=
  (Kept.ite h.frame (.ite h.frame.setLoop h.frame.startSwitch)).finish

theorem Kept.applyWhPhaseStep {e : Entry} (h : Kept q s) : Kept q (applyWhPhaseStep e s) :=
  .ite h.finish (h.foldl fun _ _ h1 => h1.fsI).finish

end

end Sys2Proof.Machine
end

