-- ==== Sys2Proof/Proofs/KeptNet.lean ====
section
/-! The network. Each lemma says of one function of the model that
it keeps what `Keeping` asks for. -/

namespace Sys2Proof.Machine

section
-- One proof after another: each evaluates the default proofs of `Kept.frame`, and would wait for that in a thread of its own.
set_option Elab.async false
variable {q : Keeping} {s : State}

theorem Kept.setNp {p : Nat} {x : NetPort} (h : Kept q s) : Kept q (s.setNp p x) := h.frame
theorem Kept.cntAdd {p i n : Nat} (h : Kept q s) : Kept q (s.cntAdd p i n) := h.frame
theorem Kept.creditRun {p : Nat} (h : Kept q s) : Kept q (s.creditRun p) := h.setNp

theorem Kept.enqueue {p k : Nat} {f : NetTx} (h : Kept q s) : Kept q (s.enqueue p k f) :=
  .ite h (.ite h.cntAdd h.creditRun.setNp)

theorem Kept.countPause {p : Nat} (h : Kept q s) : Kept q (s.countPause p) := by
  unfold State.countPause
  extract_lets
  split
  · exact h.setNp.cntAdd
  · exact h

theorem Kept.txLostCpl {l : List NetTx} (h : Kept q s) : Kept q (s.txLostCpl l) := by
  refine h.foldl fun s f h => ?_
  split
  · exact .ite h h.freeWord.finish
  · exact h

theorem Kept.netDown {p : Nat} (h : Kept q s) : Kept q (s.netDown p) :=
  .ite h (.ite h.countPause.setNp.cntAdd.cntAdd.fs.fs.det.txLostCpl
    h.countPause.setNp.cntAdd.cntAdd.fs.fs.det.txLostCpl.slotInvalid)

theorem Kept.showTxDis {p : Nat} (h : Kept q s) : Kept q (s.showTxDis p) := h.setNp

theorem Kept.execNetworkLinkUp {p partner : Nat} (h : Kept q s) : KeptNext q (execNetworkLinkUp p partner s) :=
  (Kept.ite h h.fs.fs.fs.fs.fs.setNp).next

theorem Kept.execNetworkLinkDown {p : Nat} {loc rem los : Bool} (h : Kept q s) :
    KeptNext q (execNetworkLinkDown p loc rem los s) :=
  (Kept.ite h (Kept.ite (Kept.ite h.cntAdd h).cntAdd (.ite h.cntAdd h)).fs.fs.fs.netDown).next

theorem Kept.execModulePresenceChange {p : Nat} {absent : Bool} (h : Kept q s) :
    KeptNext q (execModulePresenceChange p absent s) :=
  (Kept.ite h (.ite h.fs.showTxDis.netDown h.fs.showTxDis)).next

theorem Kept.showFwd (h : Kept q s) : Kept q s.showFwd := h.fs.fs.fs
theorem Kept.applyFwdWrite {e : Entry} (h : Kept q s) : Kept q (applyFwdWrite e s) := .ite h.finish h.wroteTab.frame.finish
theorem Kept.applyFwdRead {e : Entry} (h : Kept q s) : Kept q (applyFwdRead e s) := h.hostWrite.finish
theorem Kept.applyFwdCommit {e : Entry} (h : Kept q s) : Kept q (applyFwdCommit e s) := h.fs.frame.showFwd.finish
theorem Kept.execFwdCommit {c : Cmd} (h : Kept q s) : KeptNext q (execFwdCommit c s) := h.submit.showFwd.next
theorem Kept.fwdCopied (h : Kept q s) : Kept q s.fwdCopied := .ite h h.wroteTab.frame.showFwd

theorem Kept.toMgmt {p : Nat} {b : List Byte} {mts : Nat} (h : Kept q s) : Kept q (s.toMgmt p b mts) :=
  .ite h.cntAdd h.frame.fs.cntAdd.postAt

theorem Kept.applyNetFrameRead {e : Entry} (h : Kept q s) : Kept q (Machine.applyNetFrameRead e s) := by
  unfold Machine.applyNetFrameRead
  extract_lets
  split
  · exact .ite h.finish h.frame.fs.hostWrite.finish
  · exact h.finish

theorem Kept.mgmtSend {e : Entry} (h : Kept q s) : Kept q (s.mgmtSend e) :=
  (h.foldl fun _ _ h1 => h1.setNp.enqueue).txLostCpl

theorem Kept.mgmtTick (h : Kept q s) : Kept q s.mgmtTick := h.foldl fun _ _ h1 => .ite h1.frame.mgmtSend h1
theorem Kept.applyNetFrameTx {e : Entry} (h : Kept q s) : Kept q (applyNetFrameTx e s) := h.frame.mgmtTick
theorem Kept.unpause {p : Nat} (h : Kept q s) : Kept q (s.unpause p) := h.creditRun.countPause.setNp.fs

theorem Kept.pauseFrame {p x : Nat} (h : Kept q s) : Kept q (s.pauseFrame p x) :=
  .ite h.cntAdd (.ite h.cntAdd.unpause h.cntAdd.creditRun.countPause.setNp.fs)

theorem Kept.execPauseExpiry {p : Nat} (h : Kept q s) : KeptNext q (execPauseExpiry p s) := (Kept.ite h.unpause h).next

theorem Kept.ptpSend {p : Nat} {udp : Bool} {from_ : Option (Nat × Nat)} {m : List Byte} (h : Kept q s) :
    Kept q (s.ptpSend p udp from_ m) :=
  h.enqueue

theorem Kept.ptpSendAll {p : Nat} {m : List Byte} (h : Kept q s) : Kept q (s.ptpSendAll p m) :=
  .ite (Kept.ite h.ptpSend h).ptpSend (.ite h.ptpSend h)

theorem Kept.setPtp {p : Nat} {x : PtpPort} (h : Kept q s) : Kept q (s.setPtp p x) := h.setNp

theorem Kept.execPtpSyncSend {p : Nat} (h : Kept q s) : KeptNext q (execPtpSyncSend p s) :=
  (Kept.ite h h.setPtp.ptpSendAll).next

theorem Kept.execPtpAnnounceSend {p : Nat} (h : Kept q s) : KeptNext q (execPtpAnnounceSend p s) :=
  (Kept.ite h h.setPtp.ptpSendAll).next

theorem Kept.execPdelayReqSend {p : Nat} (h : Kept q s) : KeptNext q (execPdelayReqSend p s) :=
  (Kept.ite h h.setPtp.ptpSendAll).next

theorem Kept.execDelayReqSend {p : Nat} (h : Kept q s) : KeptNext q (execDelayReqSend p s) :=
  (Kept.ite h h.setPtp.ptpSend).next

theorem Kept.execAnnounceTimeout {p : Nat} (h : Kept q s) : KeptNext q (execAnnounceTimeout p s) :=
  (Kept.ite h h.setPtp.det.slotInvalid).next

theorem Kept.ptpAnnounce {p : Nat} {udp : Bool} {src d : List Byte} (h : Kept q s) : Kept q (s.ptpAnnounce p udp src d) :=
  .ite h (.ite h.setPtp.setSlot.slotInvalid h.setPtp.setSlot)

theorem Kept.toNs {v : Int} (h : Kept q s) : Kept q (s.toNs v).2 := by
  unfold State.toNs
  split
  · exact h
  · exact h.freeWord

theorem Kept.ptpPhase {p : Nat} (h : Kept q s) : Kept q (s.ptpPhase p) := by
  unfold State.ptpPhase
  extract_lets
  split
  · exact .ite h.toNs.slotPhase.setSlot.slotValid h.toNs.slotPhase.setSlot
  · exact h

theorem Kept.ptpSync {p rx t1 : Nat} {corr : Int} (h : Kept q s) : Kept q (s.ptpSync p rx t1 corr) := h.setPtp.ptpPhase

theorem Kept.ptpLinkDelay {p : Nat} {udp : Bool} {twice : Int} (h : Kept q s) : Kept q (s.ptpLinkDelay p udp twice) :=
  h.toNs.setPtp.fs

theorem Kept.ptpRx {p : Nat} {b : List Byte} {o : Nat} {udp : Bool} {rx : Nat} (h : Kept q s) :
    Kept q (s.ptpRx p b o udp rx) := by
  unfold State.ptpRx
  extract_lets
  split
  · exact .ite h.ptpAnnounce h
  · split
    · exact .ite h (.ite h.setPtp h.ptpSync)
    · split
      · split
        · exact .ite h.ptpSync h
        · exact h
      · split
        · exact .ite h.ptpSend h
        · split
          · split
            · exact .ite h.setPtp h
            · exact h
          · split
            · exact .ite h.ptpSend h
            · split
              · split
                · exact .ite (.ite h.setPtp h.ptpLinkDelay) h
                · exact h
              · split
                · split
                  · exact .ite h.ptpLinkDelay h
                  · exact h
                · exact h

theorem Kept.setRxs {n : Nat} {x : Stream} (h : Kept q s) : Kept q (s.setRxs n x) := h.frame
theorem Kept.setTxs {n : Nat} {x : Stream} (h : Kept q s) : Kept q (s.setTxs n x) := h.frame

theorem Kept.applyNetStreamRx {e : Entry} (h : Kept q s) : Kept q (applyNetStreamRx e s) :=
  .ite h.finish h.setRxs.convSet.finish

theorem Kept.applyNetStreamTx {e : Entry} (h : Kept q s) : Kept q (applyNetStreamTx e s) :=
  .ite h.finish h.setTxs.convSet.finish

theorem Kept.applyNetStreamDel {e : Entry} (h : Kept q s) : Kept q (applyNetStreamDel e s) :=
  (Kept.ite h.setTxs h.setRxs).convSet.finish

theorem Kept.applyNetStreamRead {e : Entry} (h : Kept q s) : Kept q (applyNetStreamRead e s) :=
  (h.foldl fun _ _ h1 => h1.freeWord.freeWord.freeWord.freeWord.hostWrite).finish

theorem Kept.streamCopy {p n pos i0 : Nat} {get : Nat → Nat → Int} (h : Kept q s) :
    Kept q (s.streamCopy p n pos i0 get) := by
  unfold State.streamCopy
  extract_lets -underBinder x fs sync late t u _ v m open_
  have hu : Kept q u := .ite h.setRxs.cntAdd h.setRxs
  have hv : Kept q v := hu.setRxs
  refine .ite h.setRxs.cntAdd (.ite h.setRxs.cntAdd (.ite ?_ ?_))
  · exact hv.foldl fun _ _ h1 => h1.foldl fun _ _ h2 => h2.convPush
  · exact hu.foldl fun _ _ h1 => h1.foldl fun _ _ h2 => .ite h2.pushMode h2

theorem Kept.streamRx {p : Nat} {b : List Byte} (h : Kept q s) : Kept q (s.streamRx p b).2 := by
  unfold State.streamRx
  extract_lets -underBinder e o found
  refine .ite_snd (.ite_snd h.cntAdd ?_) ?_
  · clear_value found
    split
    · exact .ite_snd h.cntAdd h.cntAdd.streamCopy
    · exact h.cntAdd
  · split
    · extract_lets -underBinder dip dport r ident rtp
      refine .ite_snd h (.ite_snd h.cntAdd ?_)
      split
      · exact .ite_snd h.cntAdd h.cntAdd.streamCopy
      · exact h.cntAdd
    · exact h

theorem Kept.streamGather {g : Nat} (h : Kept q s) : Kept q (s.streamGather g) := h.foldl fun _ _ h1 => .ite h1.setRxs h1

theorem Kept.netAsrc {n : Nat} (h : Kept q s) : Kept q (s.netAsrc n) :=
  h.foldl fun _ _ h1 => .ite (h1.foldl fun _ _ h2 => h2.asrcPush) h1

theorem Kept.sendPacket {n : Nat} {x : Stream} {i0 : Nat} {smp : List (List Int)} (h : Kept q s) :
    Kept q (s.sendPacket n x i0 smp) :=
  .ite h (h.foldl fun _ _ h1 => .ite h1.frame h1.enqueue)

theorem Kept.streamTx {g n : Nat} (h : Kept q s) : Kept q (s.streamTx g n) := by
  unfold State.streamTx
  refine (h.foldl_snd fun p c hp => ?_).foldl fun s i h => .ite (.ite h.setTxs.sendPacket h.setTxs) h.setTxs
  extract_lets
  split
  · exact hp
  · exact hp.convBlk

theorem Kept.streamTick {g : Nat} (h : Kept q s) : Kept q (s.streamTick g) :=
  .ite h.frame ((h.frame.foldl fun _ _ h1 => h1.streamTx).foldl fun _ _ h1 => h1.streamTx)

theorem Kept.sendHeld (h : Kept q s) : Kept q s.sendHeld := h.frame.foldl fun _ _ h1 => h1.enqueue

theorem Kept.forward {p e rx : Nat} {b : List Byte} {bad : Bool} (h : Kept q s) : Kept q (s.forward p e rx b bad) :=
  .ite (h.foldl fun _ _ h1 => .ite h1 h1.enqueue).toMgmt (h.foldl fun _ _ h1 => .ite h1 h1.enqueue)

theorem Kept.accepted {p rx : Nat} {b : List Byte} (h : Kept q s) : Kept q (s.accepted p rx b) := by
  unfold State.accepted
  extract_lets -underBinder da t u e
  have ht : Kept q t := h.cntAdd.cntAdd
  have hu : Kept q u := .ite ht.cntAdd (.ite ht.cntAdd ht.cntAdd)
  refine .ite (.ite hu.pauseFrame hu.cntAdd) ?_
  split
  · refine .ite hu.cntAdd ?_
    extract_lets -underBinder v t mine w
    have hv : Kept q v := .ite hu.cntAdd hu.cntAdd
    have hw : Kept q w := .ite hv.ptpRx hv
    split
    · exact hw.forward
    · exact .ite hw.toMgmt hw
  · split
    next used v ev =>
    have hv : Kept q v := hu.streamRx.of_eq ev
    refine .ite hv ?_
    split
    · exact hv.forward
    · exact .ite hv (.ite hv.toMgmt hv.cntAdd)

theorem Kept.rxStore {p k n left7 left : Nat} {t : State} (h : Kept q s) (e : s.rxStore p k n left7 left = some t) : Kept q t := by
  unfold State.rxStore at e
  extract_lets x a b at e
  split at e
  · split at e
    · cases e; exact h.setNp
    · cases e
  · split at e
    · cases e; exact h.setNp
    · cases e

theorem Kept.rxBad {p rx : Nat} {b : List Byte} (h : Kept q s) : Kept q (s.rxBad p rx b) := by
  unfold State.rxBad
  split
  · exact .ite h h.forward
  · exact h

theorem Kept.received {p : Nat} {f : NetRx} (h : Kept q s) : Kept q (s.received p f) := by
  unfold State.received
  extract_lets -underBinder n max t u
  have ht : Kept q t := .ite h h.cntAdd
  have hu : Kept q u := .ite ht ht.cntAdd
  refine .ite h (.ite h.cntAdd.cntAdd (.ite h.cntAdd.cntAdd (.ite hu.cntAdd ?_)))
  split
  · exact h.cntAdd
  · next v hv =>
    extract_lets -underBinder w
    have hw : Kept q w := (h.rxStore hv).readTab
    split
    next k x ex =>
    have hx : Kept q x := hw.eccRead.of_eq ex
    exact .ite hx.rxBad hx.accepted

theorem Kept.execFrameReceive {p : Nat} {f : NetRx} (h : Kept q s) : KeptNext q (execFrameReceive p f s) :=
  (Kept.ite h h.elapse.received).next

theorem Kept.execPause {p : Nat} {f : NetRx} (h : Kept q s) : KeptNext q (execPause p f s) :=
  (Kept.ite h h.elapse.received).next

theorem Kept.tcRewrite {x : Nat} {f : NetTx} (h : Kept q s) : Kept q (s.tcRewrite x f).2 := by
  unfold State.tcRewrite
  split
  · extract_lets
    split
    · exact h
    · exact .ite h.cntAdd.cntAdd h.cntAdd
  · exact h

theorem Kept.ownPtp {p : Nat} {f : NetTx} (h : Kept q s) : Kept q (s.ownPtp p f).2 := by
  unfold State.ownPtp
  split
  · exact h
  · extract_lets
    split
    · exact h
    · exact h.setPtp
    · exact h.setPtp
    · split
      · exact h
      · exact h
    · exact h

theorem Kept.countTx {p k : Nat} {f : NetTx} (h : Kept q s) : Kept q (s.countTx p k f) := by
  unfold State.countTx
  extract_lets n t u v w
  have ht : Kept q t := h.cntAdd.cntAdd
  have hv : Kept q v := (Kept.ite ht.cntAdd (.ite ht.cntAdd ht.cntAdd)).cntAdd
  have hw : Kept q w := .ite hv.cntAdd hv
  exact .ite hw.cntAdd hw

theorem Kept.mgmtSent {f : NetTx} (h : Kept q s) : Kept q (s.mgmtSent f) := by
  unfold State.mgmtSent
  split
  · exact h
  · exact (h.foldl fun _ _ h1 => h1.setNp).finish

theorem Kept.execFrameTransmit {p : Nat} {io : NetLeave} (h : Kept q s) :
    KeptNext q (Machine.execFrameTransmit p io s) := by
  unfold Machine.execFrameTransmit
  extract_lets -underBinder t u
  have ht : Kept q t := h.elapse
  have hu : Kept q u := ht.creditRun
  refine Kept.next (.ite ht ?_)
  split
  · exact hu
  · split
    · exact hu
    · split
      next ecc v ev =>
      have hv : Kept q v := hu.eccRead.of_eq ev
      split
      next b w ew =>
      have hw : Kept q w := Kept.of_eq (.ite_snd hv.ownPtp hv.tcRewrite) ew
      exact hw.setNp.countTx.mgmtSent

theorem Kept.netCtlDone {p : Nat} {old : Word} (h : Kept q s) : Kept q (s.netCtlDone p old) :=
  (Kept.ite h.netDown h).showTxDis

theorem Kept.applyNetSet {e : Entry} (h : Kept q s) : Kept q (applyNetSet e s) :=
  .ite h.finish (h.creditRun.foldl fun _ _ h1 => h1.imgWrite).netCtlDone.finish

theorem Kept.applyNetPtpDs {e : Entry} (h : Kept q s) : Kept q (applyNetPtpDs e s) := h.setPtp.finish

end

end Sys2Proof.Machine
end

