-- ==== Sys2Proof/Proofs/KeptStandpipe.lean ====
section
/-! Standpipe, Router and Matrix. Each lemma says of one function of the model that
it keeps what `Keeping` asks for. -/

namespace Sys2Proof.Machine

section
-- One proof after another: each evaluates the default proofs of `Kept.frame`, and would wait for that in a thread of its own.
set_option Elab.async false
variable {q : Keeping} {s : State}

theorem Kept.setMsg {m : Nat} {x : Msg} (h : Kept q s) : Kept q (s.setMsg m x) := h.frame
theorem Kept.showMsg {m : Nat} {ddr : Bool} (h : Kept q s) : Kept q (s.showMsg m ddr) := h.fs.fs.fs.fs.fs
theorem Kept.setVoice {v : Nat} {x : Voice} (h : Kept q s) : Kept q (s.setVoice v x) := h.frame
theorem Kept.setZone {z : Nat} {x : Zone} (h : Kept q s) : Kept q (s.setZone z x) := h.frame

theorem Kept.msgSample {d : Mem} {i : Nat} (h : Kept q s) : Kept q (s.msgSample d i).2 := by
  unfold State.msgSample
  split
  · exact h
  · split
    · extract_lets
      split
      · exact h
      · exact h.q31
    · exact h.freeWord

theorem Kept.playSamples {x : Voice} {cont : Bool} (h : Kept q s) : Kept q (s.playSamples x cont).2.2 := by
  unfold State.playSamples
  extract_lets -underBinder d cyc nx
  split
  next b t e =>
  have ht : Kept q t := by
    refine Kept.of_eq (h.blk fun i s hs => ?_) e
    exact .ite_snd hs.msgSample (.ite_snd hs.msgSample hs)
  exact ht

theorem Kept.tailBlock {v : Nat} (h : Kept q s) : Kept q (s.tailBlock v) := by
  unfold State.tailBlock
  split
  · exact h
  · exact .ite h.playSamples.frame h.frame

theorem Kept.voiceBlock {v : Nat} (h : Kept q s) : Kept q (s.voiceBlock v) :=
  .ite h.tailBlock.frame (Kept.ite (h.tailBlock.foldl fun _ _ h1 => h1.setZone) h.tailBlock).playSamples.setVoice.frame

theorem Kept.showSp (h : Kept q s) : Kept q s.showSp := h.fs.fs

theorem Kept.leaveZone {z : Nat} (h : Kept q s) : Kept q (s.leaveZone z) := by
  unfold State.leaveZone
  extract_lets
  split
  · exact h
  · exact h.setZone

theorem Kept.tidyVoice {v : Nat} (h : Kept q s) : Kept q (s.tidyVoice v) := .ite (Kept.ite h.frame h).setVoice h

theorem Kept.endPlay {v status : Nat} (h : Kept q s) : Kept q (s.endPlay v status) :=
  (h.foldl fun _ _ h1 => h1.leaveZone).frame.setVoice

theorem Kept.startVoice {v m : Nat} {auto : Bool} {reps seq : Nat} (h : Kept q s) :
    Kept q (s.startVoice v m auto reps seq) := by
  unfold State.startVoice
  refine Kept.setVoice (.ite ?_ h)
  extract_lets -underBinder t
  have ht : Kept q t := h.foldl fun _ _ h1 => .ite h1 (.ite h1.setZone h1.setZone)
  exact ht.frame

theorem Kept.joinZone {z v : Nat} {auto : Bool} (h : Kept q s) : Kept q (s.joinZone z v auto) := h.leaveZone.setZone

theorem Kept.notePresence {k : Nat} {present : Bool} {since : Nat} (h : Kept q s) :
    Kept q (s.notePresence k present since) :=
  .ite h h.frame

theorem Kept.startAuto {z : Nat} (h : Kept q s) : Kept q (s.startAuto z) := by
  unfold State.startAuto
  extract_lets -underBinder v x t u old w
  have ht : Kept q t := .ite h.endPlay h
  have hw : Kept q w := (Kept.ite ht ht.startVoice).joinZone
  clear_value old
  split
  · exact .ite hw hw.tidyVoice
  · exact hw

theorem Kept.spDisabled (h : Kept q s) : Kept q s.spDisabled := by
  refine h.foldl fun s z h => ?_
  extract_lets
  split
  · exact h.setZone.leaveZone.tidyVoice
  · exact h.setZone

theorem Kept.spEvaluate (h : Kept q s) : Kept q s.spEvaluate :=
  ((Kept.ite h h.spDisabled).foldl fun _ _ h1 => .ite h1.setZone (.ite h1.setZone.startAuto h1.setZone.setZone)).showSp

theorem Kept.zoneRampEnd (h : Kept q s) : Kept q s.zoneRampEnd := h.foldl fun _ _ h1 => h1.setZone

theorem Kept.applySpConfig {e : Entry} (h : Kept q s) : Kept q (applySpConfig e s) :=
  (h.foldl fun _ _ h1 => h1.imgWrite).finish

theorem Kept.applySpPlay {e : Entry} (h : Kept q s) : Kept q (Machine.applySpPlay e s) := by
  unfold Machine.applySpPlay
  extract_lets -underBinder k v t u skip w x
  refine .ite h.finish ?_
  have hu : Kept q u := (Kept.ite h.endPlay h).startVoice
  have hw : Kept q w := by
    refine hu.foldl fun s z hs => .ite hs ?_
    extract_lets old t
    clear_value old
    split
    · exact .ite hs.joinZone hs.joinZone.tidyVoice
    · exact hs.joinZone
  exact hw.tidyVoice.showSp.finish

theorem Kept.applySpStop {e : Entry} (h : Kept q s) : Kept q (Machine.applySpStop e s) := by
  unfold Machine.applySpStop
  extract_lets -underBinder k t
  refine .ite h.finish ?_
  have ht : Kept q t := by
    refine h.foldl fun s z hs => ?_
    extract_lets -underBinder x t
    have ht : Kept q t := .ite hs.setZone hs
    split
    · exact ht.leaveZone.tidyVoice
    · exact ht
  exact ht.showSp.finish

theorem Kept.applySpMsgBlock {e : Entry} (h : Kept q s) : Kept q (applySpMsgBlock e s) := h.setMsg.finish

theorem Kept.applySpMsgCommit {e : Entry} (h : Kept q s) : Kept q (applySpMsgCommit e s) :=
  .ite h.finish (.ite h.finish (.ite h.finish h.setMsg))

theorem Kept.execSpMsgStoreComplete {m : Nat} {ok : Bool} (h : Kept q s) : KeptNext q (execSpMsgStoreComplete m ok s) := by
  refine Kept.next ?_
  extract_lets
  split
  · exact h
  · exact .ite h.setMsg.finish (h.setMsg.foldl fun _ _ h1 => .ite h1.setVoice h1).showMsg.finish

theorem Kept.execAlarmInputChange {n : Nat} {active : Bool} {dt : Nat} (h : Kept q s) :
    KeptNext q (execAlarmInputChange n active dt s) :=
  (Kept.ite h.elapse h.elapse.frame).next

theorem Kept.execDebounceExpiry {n : Nat} (h : Kept q s) : KeptNext q (execDebounceExpiry n s) :=
  (Kept.ite h h.fs.frame).next

theorem Kept.execWatchLossExpiry {z : Nat} (h : Kept q s) : KeptNext q (execWatchLossExpiry z s) :=
  (Kept.ite h.setZone h).next

theorem Kept.execWatchReturnExpiry {z : Nat} (h : Kept q s) : KeptNext q (Machine.execWatchReturnExpiry z s) := by
  refine (Kept.ite ?_ h).next
  split
  · exact h.leaveZone.tidyVoice.showSp
  · exact h

theorem Kept.execRepetitionEnd {v : Nat} (h : Kept q s) : KeptNext q (execRepetitionEnd v s) :=
  (Kept.ite h (h.foldl fun _ _ h1 => .ite h1 h1.leaveZone).setVoice.tidyVoice.showSp).next

theorem Kept.execVoiceFlashFallback {x : VoiceEcc} (h : Kept q s) : KeptNext q (execVoiceFlashFallback x s) :=
  (Kept.ite h (.ite h.eccRead h.eccRead.setVoice.fs.fs)).next

theorem Kept.applyRouteWrite {e : Entry} (h : Kept q s) : Kept q (applyRouteWrite e s) :=
  .ite h.finish h.wroteTab.frame.finish

theorem Kept.applyRouteRead {e : Entry} (h : Kept q s) : Kept q (applyRouteRead e s) := h.hostWrite.finish
theorem Kept.applyRouteCommit {e : Entry} (h : Kept q s) : Kept q (applyRouteCommit e s) := h.frame.finish
theorem Kept.applyRouteStatus {e : Entry} (h : Kept q s) : Kept q (applyRouteStatus e s) := h.finish
theorem Kept.routeCopied (h : Kept q s) : Kept q s.routeCopied := .ite h.wroteTab.frame h

theorem Kept.polarity {inv : Bool} {b : Blk} (h : Kept q s) : Kept q (s.polarity inv b).2 := by
  unfold State.polarity
  split
  · exact h.scaleBlk
  · exact h

theorem Kept.srcBlk {src g : Nat} (h : Kept q s) : Kept q (s.srcBlk src g).2 := by
  unfold State.srcBlk
  extract_lets -underBinder key l raw grp now
  clear_value grp
  split
  next b t et =>
  have ht : Kept q t := by
    refine Kept.of_eq ?_ et
    split
    · exact .ite_snd (.ite_snd h.fadeOut h.fadeIn) (.ite_snd h h)
    · exact h
  split
  next c u eu =>
  have hu : Kept q u := Kept.of_eq (.ite_snd ht.fadeIn ht) eu
  exact hu.polarity

theorem Kept.noteAbsent {g : Nat} (h : Kept q s) : Kept q (s.noteAbsent g) :=
  .ite (Kept.ite h.frame h.frame.fadd).standbySuspect (.ite h.frame h.frame.fadd)

theorem Kept.gather {g : Nat} (h : Kept q s) : Kept q (s.gather g) := by
  unfold State.gather
  extract_lets -underBinder t u ents fades slots v srcs
  have hv : Kept q v := h.readTab.noteAbsent
  clear_value v
  split
  next bs w ew =>
  have hw : Kept q w := by
    refine Kept.of_eq (Kept.foldl_pair hv fun p k r hp er => ?_) ew
    split at er
    · cases er; exact hp
    · split at er
      next b u eu => cases er; exact hp.srcBlk.of_eq eu
  split
  next ic x ex =>
  have hx : Kept q x := by
    refine Kept.of_eq (Kept.foldl_pair hw fun p k r hp er => ?_) ex
    split at er
    · split at er
      next b u eu => cases er; exact hp.fadeBlk.of_eq eu
    · cases er; exact hp
  extract_lets -underBinder watch y inq
  have hy : Kept q y := hx.foldl fun _ _ h1 => .ite h1.notePresence h1.notePresence
  exact hy.frame

theorem Kept.voiceSlots (h : Kept q s) : Kept q s.voiceSlots := .ite h.frame h

theorem Kept.feed {key : Nat} {blk : Nat → Blk} (h : Kept q s) : Kept q (s.feed key blk).2 := by
  unfold State.feed
  extract_lets -underBinder one t
  have hone : ∀ s src, Kept q s → Kept q (one s src).2 := fun _ _ h => .ite_snd h h.polarity
  split
  · refine .ite_snd (hone _ _ h) ?_
    split
    next bs u eu =>
    have hu : Kept q u := by
      refine Kept.of_eq (Kept.foldl_pair h fun p c r hp er => ?_) eu
      split at er
      next b v ev => cases er; exact (hone _ _ hp).of_eq ev
    exact hu.fadeBlk
  · exact hone _ _ h

theorem Kept.muteHout (h : Kept q s) : Kept q s.muteHout := by
  unfold State.muteHout
  refine .ite h (.ite ?_ h.frame)
  split
  next m t et =>
  have ht : Kept q t := by
    refine Kept.of_eq (Kept.foldl_pair h fun p b r hp er => ?_) et
    split at er
    next b u eu => cases er; exact hp.fadeOut.of_eq eu
  exact ht.frame

theorem Kept.collect (h : Kept q s) : Kept q s.collect := by
  unfold State.collect
  extract_lets -underBinder keys slots _ t u full v w
  have ht : Kept q t := h.frame
  have hu : Kept q u := by
    refine ht.foldl fun s key hs => ?_
    split
    next b t et =>
    have ht : Kept q t := hs.feed.of_eq et
    extract_lets -underBinder _ u
    have hu : Kept q u := ht.frame
    split
    · exact hu
    · split
      next c v ev =>
      have hv : Kept q v := hu.feed.of_eq ev
      extract_lets -underBinder _ w
      have hw : Kept q w := hv.frame
      refine .ite ?_ hw
      split
      next d x ex =>
      have hx : Kept q x := hw.feed.of_eq ex
      exact hx.frame
  have hw : Kept q w := hu.muteHout.houtCollect
  exact hw.frame

theorem Kept.execOutputCollection {dt : Nat} (h : Kept q s) : KeptNext q (execOutputCollection dt s) :=
  (Kept.ite h.elapse h.elapse.collect).next

theorem Kept.setGate {g : Nat} (h : Kept q s) : Kept q (s.setGate g) := .ite h h.frame

theorem Kept.sweepMuted {key : Nat} {b : Blk} (h : Kept q s) : Kept q (s.sweepMuted key b).2 := by
  unfold State.sweepMuted
  split
  · exact h
  · exact h.blk (fun _ _ h1 => h1.q31)

theorem Kept.playBlock (h : Kept q s) : Kept q s.playBlock := by
  unfold State.playBlock
  extract_lets -underBinder t a pass src
  have hpass : ∀ s key b, Kept q s → Kept q (pass s key b).2 := fun _ _ _ h =>
    .ite_snd h (.ite_snd h.fadeOut (.ite_snd h.fadeIn (.ite_snd h h)))
  split
  next out u eu =>
  have hu : Kept q u := by
    refine Kept.of_eq (Kept.foldl_pair h fun p k r hp er => ?_) eu
    split at er
    next b v ev =>
    have hv : Kept q v := hp.sweepMuted.of_eq ev
    split at er
    · cases er; exact hp
    · split at er
      · cases er; exact hv
      · split at er
        · cases er; exact hp
        · split at er
          next c w ew =>
          have hw : Kept q w := (hpass _ _ _ hv).of_eq ew
          split at er
          next d x ex => cases er; exact Kept.of_eq (.ite_snd hw.fadeOut hw) ex
  exact hu.frame.tdmConvert

theorem Kept.xpPut {sec mask first n : Nat} {buf : List Byte} (h : Kept q s) : Kept q (s.xpPut sec mask first n buf) :=
  .ite h.wroteTab.frame (h.foldl fun _ _ h1 => (Kept.ite h1.wroteTab h1.wroteTab).foldl fun _ _ h2 => .ite h2.frame h2.frame)

theorem Kept.applyXpWrite {e : Entry} (h : Kept q s) : Kept q (applyXpWrite e s) := .ite h.finish h.xpPut.finish
theorem Kept.applyXpRead {e : Entry} (h : Kept q s) : Kept q (applyXpRead e s) := .ite h.finish h.hostWrite.finish

theorem Kept.xpRampTo {c i : Nat} {w : Word} {g1 : Int} {t ms shape : Nat} (h : Kept q s) :
    Kept q (s.xpRampTo c i w g1 t ms shape) :=
  h.frame

theorem Kept.tileSwap {c ms shape : Nat} (h : Kept q s) : Kept q (s.tileSwap c ms shape) :=
  (h.foldl fun _ _ h1 => .ite h1 h1.xpRampTo).fs

theorem Kept.showMix (h : Kept q s) : Kept q s.showMix := h.foldl fun _ _ h1 => .ite h1 h1.fs.fs.fs

theorem Kept.applyXpCommit {e : Entry} (h : Kept q s) : Kept q (applyXpCommit e s) :=
  (h.foldl fun _ _ h1 => .ite h1.tileSwap.imgWrite h1.tileSwap).frame.showMix.finish

theorem Kept.execXpCommit {c : Cmd} (h : Kept q s) : KeptNext q (execXpCommit c s) := h.submit.showMix.next

theorem Kept.xpSetNow {e : Entry} (h : Kept q s) : Kept q (s.xpSetNow e) :=
  (h.foldl fun _ _ h1 => h1.xpRampTo.wroteTab.wroteTab.frame).finish

theorem Kept.applyXpSet {e : Entry} (h : Kept q s) : Kept q (applyXpSet e s) := .ite h.finish (.ite h.frame h.xpSetNow)

theorem Kept.execXpSetHeldApply (h : Kept q s) : KeptNext q (execXpSetHeldApply s) :=
  (Kept.ite h (h.frame.foldl fun _ _ h1 => h1.xpSetNow)).next

theorem Kept.matrixCopied (h : Kept q s) : Kept q s.matrixCopied :=
  .ite (h.foldl fun _ _ h1 => h1.wroteTab.wroteTab.frame).wroteTab.frame.showMix h

theorem Kept.readTiles (h : Kept q s) : Kept q s.readTiles := .ite h (h.readTab.foldl fun _ _ h1 => h1.readTab.readTab)

theorem Kept.formMi {mi : Nat} (h : Kept q s) : Kept q (s.formMi mi) := by
  refine Kept.frame ?_
  split
  · exact h.fadeBlk
  · exact h

theorem Kept.formMis (h : Kept q s) : Kept q s.formMis := h.readTiles.frame.foldl fun _ _ h1 => h1.formMi

theorem Kept.mixGroup {c x : Nat} (h : Kept q s) : Kept q (s.mixGroup c x) :=
  (h.foldl fun _ _ h1 => .ite h1.formMi.frame h1).frame

theorem Kept.execTileGroupProcess {c dt : Nat} (h : Kept q s) : KeptNext q (Machine.execTileGroupProcess c dt s) := by
  refine (Kept.ite h.elapse ?_).next
  split
  · exact h.elapse
  · exact .ite h.elapse h.elapse.mixGroup.frame

theorem Kept.outBlk {m t : Nat} (h : Kept q s) : Kept q (s.outBlk m t).2.2.2 := by
  unfold State.outBlk
  extract_lets -underBinder w zone sum duck add
  have hb : ∀ {f : Nat → Int} {s : State}, Kept q s → Kept q (s.blk (fun i s => s.q31 (f i) (2 ^ 40))).2 :=
    fun h => h.blk fun _ _ h1 => h1.q31
  split
  next a t et =>
  have ht : Kept q t := (hb h).of_eq et
  split
  next b u eu =>
  have hu : Kept q u := Kept.of_eq (.ite_snd ht (hb ht)) eu
  split
  next z v ev =>
  have hv : Kept q v := Kept.of_eq (.ite_snd hu (hb hu)) ev
  exact hv

theorem Kept.cutTile {c : Nat} (h : Kept q s) : Kept q (s.cutTile c) := h.fs.fs.fs.foldl fun _ _ h1 => h1.fadd.det
theorem Kept.cutTiles (h : Kept q s) : Kept q (s.cutTiles).2 := h.foldl fun _ _ h1 => h1.cutTile

theorem Kept.cutoff {mixed : List Nat} (h : Kept q s) : Kept q (s.cutoff mixed) := by
  unfold State.cutoff
  extract_lets -underBinder t zoned outs _ clear u words words'
  have hu : Kept q u := by
    refine Kept.foldl (h.frame) fun s m hs => ?_
    extract_lets how
    refine .ite hs ?_
    split
    next a b z u eu =>
    have hu : Kept q u := by
      have ho := hs.outBlk (m := m) (t := t)
      rw [eu] at ho
      exact ho
    split
    next c v ev =>
    have hv : Kept q v := Kept.of_eq (.ite_snd hu.fadeIn hu) ev
    split
    next d w ew =>
    have hw : Kept q w := Kept.of_eq (.ite_snd hv.fadeIn hv) ew
    exact hw.frame
  exact hu.frame

end

end Sys2Proof.Machine
end

