-- ==== Sys2Proof/Proofs/KeptUnits.lean ====
section
/-! The units. Each lemma says of one function of the model that
it keeps what `Keeping` asks for. -/

namespace Sys2Proof.Machine

section
-- One proof after another: each evaluates the default proofs of `Kept.frame`, and would wait for that in a thread of its own.
set_option Elab.async false
variable {q : Keeping} {s : State}

theorem Kept.finishTick {u stall : Nat} (h : Kept q s) : Kept q (s.finishTick u stall) :=
  (Kept.ite h.setCore.setUst.fs.fs.fs.fs.fs.fs.fadd h.setCore.setUst.fs.fs.fs.fs.fs.fs).takeBinds

theorem Kept.runLoad {u k size : Nat} {step : Word} {x : UPort} {wr : UCore → List Word → UCore} (h : Kept q s) :
    Kept q (s.runLoad u k size step x wr) := by
  have hl := h.uLoad (u := u) (k := k) (size := size) (x := x)
  unfold State.runLoad
  split
  · next e => rw [e] at hl; exact hl.trap
  · next e => rw [e] at hl; exact hl.coreDone

theorem Kept.runStore {u k size : Nat} {step : Word} {ws : List Word} {x : UPort} {pre : UCore → UCore} (h : Kept q s) :
    Kept q (s.runStore u k size step ws x pre) := by
  have hl := h.uStore (u := u) (k := k) (size := size) (ws := ws) (x := x)
  unfold State.runStore
  split
  · next e => rw [e] at hl; exact hl.trap
  · next e => rw [e] at hl; exact .ite hl hl.coreDone

theorem Kept.runMem {u : Nat} {op : MemOp} {k j m r : Nat} {x : UPort} (h : Kept q s) :
    Kept q (s.runMem u op k j m r x) := by
  unfold State.runMem
  extract_lets
  split
  · exact h.runLoad
  · exact h.runLoad
  · exact h.runLoad
  · exact h.runStore
  · exact h.runStore
  · exact h.runStore

theorem Kept.runSmac {u op a x y sp k lm dd : Nat} {p : UPort} (h : Kept q s) : Kept q (s.runSmac u op a x y sp k lm dd p) :=
  .ite h.coreDone h.runLoad

/-- A load of DMAC that may be left out. -/
theorem Kept.uLoadIf {c : Prop} [Decidable c] {u k size : Nat} {x : UPort} {r : Nat ⊕ (List Word × Nat)} (h : Kept q s) :
    Kept q (if c then (r, s) else s.uLoad u k size x).2 := .ite_snd h h.uLoad

theorem Kept.runDmac {u sh s0 s1 ap x0 y0 x1 y1 xm xp xd ym yp yd : Nat} {p : UPort} (h : Kept q s) :
    Kept q (s.runDmac u sh s0 s1 ap x0 y0 x1 y1 xm xp xd ym yp yd p) := by
  unfold State.runDmac
  extract_lets -underBinder step rx
  have hx : Kept q rx.2 := h.uLoadIf
  clear_value rx
  split
  · exact Kept.trap hx
  · extract_lets -underBinder ry
    have hy : Kept q ry.2 := Kept.uLoadIf hx
    clear_value ry
    split
    · exact Kept.trap hy
    · exact Kept.coreDone hy

theorem Kept.runWait {u : Nat} {lines : List Nat} {dst : Option Nat} {x : UPort} (h : Kept q s) :
    Kept q (s.runWait u lines dst x) := by
  refine .ite h.setUst ?_
  split
  · exact h.setUst.coreDone
  · exact h.setUst

theorem Kept.runInstr {u : Nat} {i : JInstr} {x : UPort} (h : Kept q s) : Kept q (s.runInstr u i x) := by
  unfold State.runInstr
  extract_lets
  split
  · exact h.coreDone
  · exact h.coreDone
  · exact h.coreDone
  · exact h.coreDone
  · exact h.coreDone
  · exact h.coreDone
  · exact h.setUnit
  · exact h.setUnit
  · exact h.setUnit
  · exact h.setUnit
  · exact h.setUnit
  · exact h.setUnit
  · exact h.setUnit
  · exact h.runWait
  · exact h.runWait
  · exact .ite h.trap (.ite h.wbPush h.wbPush.coreDone)
  · exact .ite h.wbDrain h.wbDrain.finishTick
  · exact h.coreDone
  · exact h.coreDone
  · exact h.runMem
  · exact h.runStore
  · exact h.coreDone
  · exact h.runSmac
  · exact h.runDmac

theorem Kept.issueInstr {u : Nat} {i : JInstr} {x : UPort} (h : Kept q s) : Kept q (s.issueInstr u i x) :=
  .ite h.setCore.trap (.ite h.setCore.runInstr h.setCore.runInstr.perfs)

theorem Kept.fetchEcc {u fsyn : Nat} (h : Kept q s) : Kept q (s.fetchEcc u fsyn).2 := by
  unfold State.fetchEcc
  split
  · exact h.eccRead
  · exact h

theorem Kept.issue {u : Nat} {row : JInstr → Bool} {x : UPort} (h : Kept q s) : Kept q (s.issue u row x) := by
  refine .ite ?_ h
  split
  · exact .ite (.ite h h.fetchEcc.issueInstr) h
  · exact h

theorem Kept.issueNop {u : Nat} {x : UPort} (h : Kept q s) : Kept q (s.issueNop u x) := by
  refine .ite (.ite h.fetchEcc.trap ?_) h
  split
  · exact h.fetchEcc.issueInstr
  · exact h
  · exact h.fetchEcc.trap

theorem Kept.execUnitLoad {c : Cmd} (h : Kept q s) : KeptNext q (execUnitLoad c s) :=
  (Kept.ite h.submit.setUnit h.submit).next

theorem Kept.writeUnit {u : Nat} {p : UProg} (h : Kept q s) : Kept q (s.writeUnit u p) :=
  .ite h.fillRange.fillRange.fillRange h.fillRange.fillRange.fillRange

theorem Kept.showNoSpare {u : Nat} (h : Kept q s) : Kept q (s.showNoSpare u) := h.fs.fs
theorem Kept.showProg {u : Nat} {p : Option UProg} (h : Kept q s) : Kept q (s.showProg u p) := h.fs.fs.fs.fs

theorem Kept.execUnitLoadComplete {u : Nat} (h : Kept q s) : KeptNext q (execUnitLoadComplete u s) := by
  refine Kept.next ?_
  split
  · exact h
  · exact .ite h h.writeUnit.setUnit.showProg.setUst.showNoSpare.fs.fs

theorem Kept.firstRun {u : Nat} {e : Entry} {late : Bool} (h : Kept q s) : Kept q (s.firstRun u e late) := h.setUnit.finishAs

theorem Kept.applyUnitLoad {e : Entry} (h : Kept q s) : Kept q (Machine.applyUnitLoad e s) := by
  unfold Machine.applyUnitLoad
  extract_lets
  split
  · exact h
  · exact .ite h.firstRun h.setUnit

theorem Kept.loadsTick (h : Kept q s) : Kept q s.loadsTick := by
  unfold State.loadsTick
  refine h.foldl fun s u h => ?_
  extract_lets
  split
  · exact h
  · split
    · exact .ite h.firstRun h
    · exact .ite h (.ite h.setUnit.setUst.showProg h.setUnit)

theorem Kept.spareIdle {g : Nat} (h : Kept q s) : Kept q (s.spareIdle g) := by
  unfold State.spareIdle
  extract_lets
  split
  · exact .ite h.fs.frame.fs h.fs.frame.setUst.showProg
  · exact h.fs.frame

theorem Kept.applyUnitUnload {e : Entry} (h : Kept q s) : Kept q (applyUnitUnload e s) :=
  .ite h.finish (Kept.ite (Kept.ite h.setUnit h.setUnit.setUst).showProg.showNoSpare.spareIdle (Kept.ite h.setUnit
    h.setUnit.setUst).showProg.showNoSpare).finish

theorem Kept.wrUnitSet {c : Cmd} (h : Kept q s) : Kept q (wrUnitSet c s) := h.rwsWrite

theorem Kept.applyUnitSet {e : Entry} (h : Kept q s) : Kept q (applyUnitSet e s) :=
  (h.rwsTransfer (fun _ _ h1 => h1.wrUnitSet)).finish

theorem Kept.execUnitSet {c : Cmd} (h : Kept q s) : KeptNext q (execUnitSet c s) :=
  (h.submitRws (fun _ _ h1 => h1.wrUnitSet)).next

theorem Kept.showPlock (h : Kept q s) : Kept q s.showPlock := h.foldl fun _ _ h1 => .ite (.ite h1 h1.fs.fs) h1
theorem Kept.applyInsWrite {e : Entry} (h : Kept q s) : Kept q (applyInsWrite e s) := .ite h.finish h.busWrite.finish
theorem Kept.applyInsRead {e : Entry} (h : Kept q s) : Kept q (applyInsRead e s) := .ite h.finish h.hostWrite.finish
theorem Kept.parSwap {u : Nat} (h : Kept q s) : Kept q (s.parSwap u) := h.fs

theorem Kept.applyInsCommit {e : Entry} (h : Kept q s) : Kept q (applyInsCommit e s) :=
  (h.foldl fun _ _ h1 => .ite h1.setUnit h1.setUnit.parSwap).showPlock.finish

theorem Kept.execInsCommit {c : Cmd} (h : Kept q s) : KeptNext q (execInsCommit c s) := h.submit.showPlock.next

theorem Kept.insTick (h : Kept q s) : Kept q s.insTick := by
  refine h.foldl fun s u h => ?_
  extract_lets
  split
  · exact .ite h.setUnit.parSwap h
  · exact h

theorem Kept.insCopied (h : Kept q s) : Kept q s.insCopied := by
  refine (h.foldl fun s u h => ?_).showPlock
  extract_lets
  split
  · exact h
  · exact .ite h h.fillRange.setUnit

theorem Kept.showSpares (h : Kept q s) : Kept q s.showSpares := by
  unfold State.showSpares
  refine h.foldl fun s g hs => ?_
  extract_lets -underBinder t
  have ht : Kept q t := hs.foldl fun _ _ h1 => .ite h1.setUst h1
  split
  · exact .ite ht.setUst ht
  · exact ht

theorem Kept.takeover {u : Nat} (h : Kept q s) : Kept q (s.takeover u) := h.setCore.fadeBinds.markFailed.fs.fs.fadd.frame
theorem Kept.clusterReq {c t : Nat} {fault : Option Nat} (h : Kept q s) : Kept q (s.clusterReq c t fault) := .ite h h.frame

theorem Kept.unitL2Do {u : Nat} {fault : Option Nat} (h : Kept q s) : Kept q (s.unitL2Do u fault) := by
  unfold State.unitL2Do
  split
  · exact h.takeover
  · exact (Kept.ite h.markFailed.fs h).clusterReq
  · exact h

theorem Kept.applyUnitSpare {e : Entry} (h : Kept q s) : Kept q (applyUnitSpare e s) := .ite h.finish h.takeover.finish
theorem Kept.execSpareRedirect {g : Nat} (h : Kept q s) : KeptNext q (execSpareRedirect g s) := (Kept.ite h.frame h).next

theorem Kept.execSpareImageLoaded {g : Nat} (h : Kept q s) : KeptNext q (execSpareImageLoaded g s) := by
  refine Kept.next ?_
  extract_lets
  split
  · exact .ite h.writeUnit.showProg.setUst.fs.fs h
  · exact h

theorem Kept.applyUnitRestore {e : Entry} (h : Kept q s) : Kept q (applyUnitRestore e s) := .ite h.finish h.frame

theorem Kept.execRestoreRedirectRemove {u : Nat} (h : Kept q s) : KeptNext q (Machine.execRestoreRedirectRemove u s) := by
  refine Kept.next ?_
  split
  · exact h
  · extract_lets g p st mine _ t v b w
    have ht : Kept q t := h.frame
    have hw : Kept q w := by
      unfold w
      split
      · exact ht.fs.setUst
      · exact ht.fs.writeUnit.showProg.setUst.fs.fs.setUnit
    exact (Kept.ite hw.spareIdle hw).showSpares.finish

theorem Kept.deliverIn {c : Nat} {kinds : List Nat} {blk : Nat → Nat → Blk} (h : Kept q s) :
    Kept q (s.deliverIn c kinds blk) :=
  h.foldl fun _ _ h1 => h1.foldl fun _ _ h2 => h2.busWrite

theorem Kept.execInputDeliveryComplete {c : Nat} (h : Kept q s) : KeptNext q (execInputDeliveryComplete c s) :=
  (Kept.ite h h.deliverIn.pulse).next

theorem Kept.execOutputDeliveryComplete {c : Nat} (h : Kept q s) : KeptNext q (execOutputDeliveryComplete c s) :=
  (Kept.ite h h.deliverIn.pulse).next

theorem Kept.overrun {u : Nat} (h : Kept q s) : Kept q (s.overrun u) :=
  (Kept.ite h.setCore.wbDrain h.setCore.wbDrain.fadeBinds).setUst.det

theorem Kept.execPreMatrixDeadline {dt : Nat} (h : Kept q s) : KeptNext q (Machine.execPreMatrixDeadline dt s) := by
  refine (Kept.ite h.elapse ((h.elapse.foldl fun _ _ h1 => .ite h1.overrun h1).foldl fun s u h => ?_)).next
  split
  · exact .ite h (.ite h.fadeBinds (h.foldl fun _ _ h1 => h1.deliver))
  · exact h

theorem Kept.wake {u : Nat} (h : Kept q s) : Kept q (s.wake u) := by
  unfold State.wake
  extract_lets
  split
  · exact h
  · exact (Kept.ite h.setCore.frame h.setCore).setUst.perf

theorem Kept.wakeLine (h : Kept q s) : Kept q s.wakeLine := .ite h (h.frame.foldl fun _ _ h1 => h1.pulse)

theorem Kept.execUnitWake {dt : Nat} (h : Kept q s) : KeptNext q (execUnitWake dt s) :=
  (Kept.ite h.elapse ((h.elapse.foldl fun _ _ h1 => .ite h1.overrun h1).foldl fun _ _ h1 => h1.wake).wakeLine).next

theorem Kept.execInterruptAccept {u : Nat} (h : Kept q s) : KeptNext q (Machine.execInterruptAccept u s) := by
  refine (Kept.ite h ?_).next
  split
  · exact h
  · exact h.setCore.setUst.perf

theorem Kept.remap {v : Nat} (h : Kept q s) : Kept q (s.remap v) := .ite h.fs h
theorem Kept.execSecRemapWrite {v : Nat} (h : Kept q s) : KeptNext q (execSecRemapWrite v s) := h.remap.next

theorem Kept.execWindlassRestore {w : WordId} {kind arg : Nat} (h : Kept q s) :
    KeptNext q (Machine.execWindlassRestore w kind arg s) := by
  unfold Machine.execWindlassRestore
  extract_lets -underBinder _ drop u x
  have hd : Kept q drop := h.frame
  clear_value drop
  refine Kept.next (.ite h ?_)
  split
  · exact .ite h (.ite h.fullWrite h.fullWrite.newGen.journal.logRecord)
  · split
    · split
      · exact .ite h (.ite hd.takeover hd)
      · refine .ite h ?_
        split
        · exact hd
        · exact h.busWrite
    · exact .ite hd.setUnit.showNoSpare (.ite hd.fs (.ite h.fullWrite hd))

theorem Kept.regionLost {g : Nat} (h : Kept q s) : Kept q (s.regionLost g) := by
  unfold State.regionLost
  extract_lets -underBinder cell _ t
  have ht : Kept q t := h.put fun w =>
    { w with mem := mwf_filter cell w.mem, merge := fun p hp => w.merge p (List.mem_filter.1 hp).1 }
  have hu : Kept q ((List.range 4).foldl (fun s i => s.fs F.DPR_CISWIN_VALID (4 * g + i) 0) t) := ht.foldl fun _ _ h1 => h1.fs
  exact hu.setDipState

theorem Kept.execIslandPowerUp {g : Nat} {fails : List WordId} (h : Kept q s) : KeptNext q (execIslandPowerUp g fails s) :=
  (Kept.ite h (h.regionLost.fs.fs.foldl fun _ _ h1 => h1.checkerFailed)).next

end

end Sys2Proof.Machine
end

