-- ==== Sys2Proof/Proofs/KeptPumps.lean ====
section
/-! The Pumps, the Float and the line watch. Each lemma says of one function of the model that
it keeps what `Keeping` asks for. -/

namespace Sys2Proof.Machine

section
-- One proof after another: each evaluates the default proofs of `Kept.frame`, and would wait for that in a thread of its own.
set_option Elab.async false
variable {q : Keeping} {s : State}

theorem Kept.pmpSum {n : Nat} (h : Kept q s) : Kept q (s.pmpSum n) := h.fs.fs
theorem Kept.setPmp {n st : Nat} (h : Kept q s) : Kept q (s.setPmp n st) := h.fs.pmpSum

theorem Kept.pmpStop {n st status residue : Nat} (h : Kept q s) : Kept q (s.pmpStop n st status residue) := by
  unfold State.pmpStop
  split
  next r t et =>
  have ht : Kept q t := Kept.of_eq (.ite_snd h h.freeWord) et
  extract_lets _ u v w
  have hw : Kept q w := ht.setPch.fs.rw.fs.fs.setPmp
  exact .ite hw.pulse hw

theorem Kept.pmpFail {n status tgt : Nat} (h : Kept q s) : Kept q (s.pmpFail n status tgt) := .ite h.pmpStop.frame h.pmpStop
theorem Kept.pmpNotice {n : Nat} (h : Kept q s) : Kept q (s.pmpNotice n) := .ite h.det h.det

theorem Kept.eccRange {a n : Nat} {syns : List Nat} (h : Kept q s) : Kept q (s.eccRange a n syns).2 := by
  unfold State.eccRange
  refine h.foldl_snd fun p x hp => ?_
  split
  · exact hp.eccRead
  · exact hp

theorem Kept.pmpRegRead {u off n : Nat} (h : Kept q s) : Kept q (s.pmpRegRead u off n).2 := by
  induction n generalizing s off with
  | zero => exact h
  | succ n ih =>
    unfold State.pmpRegRead
    refine ih ?_
    split
    · exact .ite h.rw (.ite h.liveRead h)
    · exact h

theorem Kept.pmpRead {ch a n : Nat} {io : PmpIo} (h : Kept q s) : Kept q (s.pmpRead ch a n io).2.2 := by
  unfold State.pmpRead
  split
  · exact .ite h.pmpNotice h
  · split
    · exact h.pmpNotice
    · exact h.pmpRegRead
  · split
    · exact h
    · split
      next bad t et =>
      have ht : Kept q t := h.eccRange.of_eq et
      split
      · exact ht
      · exact ht

theorem Kept.pmpRegWrite {u off : Nat} {b : List Byte} (h : Kept q s) : Kept q (s.pmpRegWrite u off b) := .ite h.fs h

theorem Kept.pmpWrite {ch a : Nat} {b : List Byte} {io : PmpIo} (h : Kept q s) : Kept q (s.pmpWrite ch a b io).2 := by
  unfold State.pmpWrite
  split
  · exact .ite h.pmpNotice h
  · split
    · exact h.pmpNotice
    · exact h.pmpRegWrite
  · split
    · exact h
    · exact h.busWrite

theorem Kept.pmpFetch {n : Nat} {io : PmpIo} (h : Kept q s) : Kept q (s.pmpFetch n io) := by
  unfold State.pmpFetch
  extract_lets -underBinder a _ x host r
  have hr : Kept q r.2.2 := by
    unfold r
    split
    · split
      · exact h
      · exact h
    · split
      · exact h.pmpNotice
      · exact h.pmpRead
  clear_value r
  split
  · exact .ite hr.setPch.fs.setPmp (.ite hr.setPch.setPmp.pmpFail hr.setPch.setPmp)
  · exact hr.setPch.setPmp

theorem Kept.execPumpTrigger {n : Nat} {io : PmpIo} (h : Kept q s) : KeptNext q (execPumpTrigger n io s) :=
  (Kept.ite h.elapse.pmpFetch h.elapse).next

theorem Kept.execKick {n : Nat} (h : Kept q s) : KeptNext q (execKick n s) := (Kept.ite h h.pmpTrig).next

theorem Kept.pmpBurst {n : Nat} {io : PmpIo} (h : Kept q s) : Kept q (s.pmpBurst n io) := by
  unfold State.pmpBurst
  extract_lets -underBinder x d fill sh dh
  split
  next src dst b eb =>
  extract_lets -underBinder rate share gap t y rd
  have ht : Kept q t := .ite h.perfAgg h
  have hr : Kept q rd.2.2 := by
    unfold rd
    split
    · exact ht
    · split
      · split
        · exact ht
        · exact ht
      · exact ht.pmpRead
  clear_value rd
  split
  · next bytes u =>
    split
    next e v ev =>
    have hv : Kept q v := Kept.of_eq (.ite_snd (Kept.hostWrite hr) (Kept.pmpWrite hr)) ev
    exact .ite hv.setPch hv.setPch
  · exact Kept.setPch hr

theorem Kept.execPumpBurstIssue {p : Nat} {io : PmpIo} (h : Kept q s) : KeptNext q (Machine.execPumpBurstIssue p io s) := by
  refine (Kept.ite h.elapse ?_).next
  split
  · exact h.elapse.frame.pmpBurst
  · exact h.elapse

theorem Kept.execBurstError {n : Nat} {io : PmpIo} (h : Kept q s) : KeptNext q (execBurstError n io s) :=
  (Kept.ite h.elapse (.ite (.ite h.elapse.setPch.pmpFetch h.elapse.setPch) h.elapse.pmpFail)).next

theorem Kept.pmpDone {n : Nat} {io : PmpIo} (h : Kept q s) : Kept q (s.pmpDone n io) := by
  unfold State.pmpDone
  extract_lets x b t u _ v w
  have ht : Kept q t := .ite h.hostWrite h.busWrite
  have hv : Kept q v := ht.fs.fadd.setPch
  have hw : Kept q w := .ite hv hv.pulse
  exact .ite hw.pulse hw

theorem Kept.execDescriptorComplete {n : Nat} {io : PmpIo} (h : Kept q s) : KeptNext q (execDescriptorComplete n io s) :=
  (Kept.ite h.elapse h.elapse.pmpDone.pmpFetch).next

theorem Kept.pmpAbort {n : Nat} (h : Kept q s) : Kept q (s.pmpAbort n) :=
  .ite (Kept.ite h.pmpDone h).pmpStop (.ite h.pmpStop h)

theorem Kept.execAbort {n : Nat} (h : Kept q s) : KeptNext q (execAbort n s) := (Kept.ite h h.pmpAbort).next

theorem Kept.pmpEnable {n : Nat} {en : Bool} (h : Kept q s) : Kept q (s.pmpEnable n en) :=
  .ite (.ite h.fs.setPmp h.fs) (.ite (Kept.ite h.fs.pmpDone h.fs).pmpStop h.fs.setPch.fs.setPmp)

theorem Kept.execPmpChannelEnable {n : Nat} {en : Bool} (h : Kept q s) : KeptNext q (execPmpChannelEnable n en s) :=
  (Kept.ite h h.pmpEnable).next

theorem Kept.pmpIndex {n v : Nat} (h : Kept q s) : Kept q (s.pmpIndex n v) := .ite h.fs h.fs

theorem Kept.execPmpIndexWrite {n v : Nat} (h : Kept q s) : KeptNext q (execPmpIndexWrite n v s) :=
  (Kept.ite h h.pmpIndex).next

theorem Kept.pmpCtl {n w : Nat} (h : Kept q s) : Kept q (s.pmpCtl n w) :=
  .ite (.ite h.fs.pmpStop h.pmpEnable) (.ite (Kept.ite h.pmpAbort h).pmpEnable.pmpTrig (Kept.ite h.pmpAbort h).pmpEnable)

theorem Kept.pmpTick (h : Kept q s) : Kept q s.pmpTick := h.foldl fun _ _ h1 => h1.pmpTrig

theorem Kept.pmpCut {n beats : Nat} (h : Kept q s) : Kept q (s.pmpCut n beats) := by
  refine .ite h (Kept.pmpNotice ?_)
  split
  · exact h.busWrite
  · exact h

theorem Kept.pmpReset {c : Nat} {cut : List (Nat × Nat)} (h : Kept q s) : Kept q (s.pmpReset c cut) :=
  (h.foldl fun _ _ h1 => h1.pmpCut).foldl fun _ _ h1 => .ite h1 h1.setPch.fs.setPmp

theorem Kept.pmpRestart {c : Nat} (h : Kept q s) : Kept q (s.pmpRestart c) := h.foldl fun _ _ h1 => .ite h1.setPmp h1
theorem Kept.setPort {n : Nat} {x : DrvPort} (h : Kept q s) : Kept q (s.setPort n x) := h.frame
theorem Kept.setGrp {g : Nat} {x : BoostGrp} (h : Kept q s) : Kept q (s.setGrp g x) := h.frame
theorem Kept.setCh {c : Nat} {x : DrvCh} (h : Kept q s) : Kept q (s.setCh c x) := h.frame
theorem Kept.showVe {g : Nat} (h : Kept q s) : Kept q (s.showVe g) := .ite h.fs h.fs.fs
theorem Kept.showVes (h : Kept q s) : Kept q s.showVes := h.foldl fun _ _ h1 => .ite h1 h1.showVe
theorem Kept.startMeas {g : Nat} (h : Kept q s) : Kept q (s.startMeas g) := h.setGrp.fs.fs.showVe
theorem Kept.failMeas {g cause : Nat} (h : Kept q s) : Kept q (s.failMeas g cause) := h.fs.fs.det

theorem Kept.settleFrame {g rail : Nat} {ready : Bool} (h : Kept q s) : Kept q (s.settleFrame g rail ready) :=
  .ite (.ite h.setGrp.fs.failMeas h.setGrp.fs.setGrp.fs.fs) h.setGrp

theorem Kept.riseFrame {g rail : Nat} {ib : Int} (h : Kept q s) : Kept q (s.riseFrame g rail ib) :=
  .ite (.ite h.setGrp.fs h.setGrp) (.ite (Kept.ite h.setGrp.fs h.setGrp).failMeas (Kept.ite h.setGrp.fs
    h.setGrp).quot.fs.fs.showVe)

theorem Kept.execMeasurementTimeout {g : Nat} (h : Kept q s) : KeptNext q (execMeasurementTimeout g s) :=
  (Kept.ite h (.ite h.failMeas (.ite h.failMeas h))).next

theorem Kept.railFrame {g rail : Nat} (h : Kept q s) : Kept q (s.railFrame g rail) := .ite h.setGrp.det h.setGrp

theorem Kept.execRailOvervoltageTrip {g : Nat} (h : Kept q s) : KeptNext q (execRailOvervoltageTrip g s) := by
  refine Kept.next ?_
  extract_lets
  split
  · exact .ite h.setGrp.det h
  · exact h

theorem Kept.rampIn {c t n shape : Nat} (h : Kept q s) : Kept q (s.rampIn c t n shape) := .ite h h.setCh

theorem Kept.execRailReturn {g : Nat} (h : Kept q s) : KeptNext q (execRailReturn g s) := by
  refine Kept.next ?_
  extract_lets
  split
  · exact .ite (.ite (h.setGrp.foldl fun _ _ h1 => h1.rampIn) h.setGrp) h
  · exact h

theorem Kept.setSt {c st : Nat} (h : Kept q s) : Kept q (s.setSt c st) := h.setCh.fs
theorem Kept.retrip {c : Nat} (h : Kept q s) : Kept q (s.retrip c) := h.setCh.setSt

theorem Kept.tripCh {c cause amp : Nat} (h : Kept q s) : Kept q (s.tripCh c cause amp) :=
  .ite h.setCh.fadd.det.retrip h.setCh.fadd.det.setCh.setSt

theorem Kept.tripFrame {c : Nat} {i : Int} {hw : Bool} (h : Kept q s) : Kept q (s.tripFrame c i hw) :=
  .ite h (.ite h.tripCh (.ite h.tripCh (.ite h.tripCh (.ite h.setCh (.ite h.setCh h)))))

theorem Kept.toCheck {c : Nat} (h : Kept q s) : Kept q (s.toCheck c) := h.setCh.setSt.frame
theorem Kept.execRetryExpiry {c : Nat} (h : Kept q s) : KeptNext q (execRetryExpiry c s) := (Kept.ite h.toCheck h).next
theorem Kept.execTripFreeExpiry {c : Nat} (h : Kept q s) : KeptNext q (execTripFreeExpiry c s) := (Kept.ite h.setCh h).next

theorem Kept.applyFltClear {e : Entry} (h : Kept q s) : Kept q (applyFltClear e s) :=
  (h.foldl fun _ _ h1 => .ite h1.toCheck h1).finish

theorem Kept.energyFrame {c : Nat} {v i : Int} (h : Kept q s) : Kept q (s.energyFrame c v i) := .ite h h.setCh
theorem Kept.execEnergyBinEnd (h : Kept q s) : KeptNext q (execEnergyBinEnd s) := (Kept.ite h h.frame).next

theorem Kept.limTarget {c : Nat} (h : Kept q s) : Kept q (s.limTarget c).2 := by
  unfold State.limTarget
  extract_lets
  split
  · exact h
  · split
    · exact h
    · exact h.freeWord

theorem Kept.limiter {c : Nat} (h : Kept q s) : Kept q (s.limiter c) := by
  unfold State.limiter
  split
  next t u eu =>
  have hu : Kept q u := h.limTarget.of_eq eu
  extract_lets -underBinder x top
  split
  next w v ev =>
  have hv : Kept q v := Kept.of_eq (.ite_snd hu.freeWord hu) ev
  exact hv.setCh.fs

theorem Kept.limiterAll (h : Kept q s) : Kept q s.limiterAll := h.foldl fun _ _ h1 => .ite h1 h1.limiter

theorem Kept.wrFltSet {c : Cmd} (h : Kept q s) : Kept q (Machine.wrFltSet c s) := by
  unfold Machine.wrFltSet
  extract_lets t
  have ht : Kept q t := .ite h.rwsWrite.rwsWrite h
  exact ht.rwsWrite.rwsWrite

theorem Kept.applyFltSet {e : Entry} (h : Kept q s) : Kept q (applyFltSet e s) :=
  .ite h.setArm.setArm.finish (Kept.ite h (h.rwsTransfer (fun _ _ h1 => h1.wrFltSet)).handOver).showVes.finish

theorem Kept.execFltSet {c : Cmd} (h : Kept q s) : KeptNext q (execFltSet c s) :=
  (h.submitRws (fun _ _ h1 => h1.wrFltSet)).next

theorem Kept.applyFltRemeasure {e : Entry} (h : Kept q s) : Kept q (applyFltRemeasure e s) :=
  (h.foldl fun _ _ h1 => .ite h1.startMeas h1).finish

theorem Kept.applyFltLineWrite {e : Entry} (h : Kept q s) : Kept q (applyFltLineWrite e s) :=
  .ite h.finish h.wroteTab.frame.finish

theorem Kept.applyFltLineRead {e : Entry} (h : Kept q s) : Kept q (applyFltLineRead e s) := h.hostWrite.finish

theorem Kept.fltRow {c : Nat} (h : Kept q s) : Kept q (s.fltRow c).2 := by
  -- Opened under a name, for the kernel would evaluate the numbers it matches on to compare it with its body.
  generalize er : s.fltRow c = r
  generalize e : State.fltRow = f at er
  delta State.fltRow at e
  subst e
  beta_reduce at er
  extract_lets -underBinder x den at er
  split at er
  next w t et =>
  have ht : Kept q t := by
    split at et
    · split at et
      next v u eu => cases et; exact h.freeWord.of_eq eu
    · exact h.quot.of_eq et
  split at er
  next g u eu => cases er; exact ht.quot.of_eq eu

theorem Kept.applyFltRead {e : Entry} (h : Kept q s) : Kept q (Machine.applyFltRead e s) := by
  unfold Machine.applyFltRead
  split
  next b t et =>
  have ht : Kept q t := by
    refine Kept.of_eq (Kept.foldl_pair h fun p i r hp er => ?_) et
    split at er
    next c u eu => cases er; exact hp.fltRow.of_eq eu
  exact ht.hostWrite.finish

theorem Kept.demod {d : Demod} (h : Kept q s) : Kept q (s.demod d).2 := h.freeWord
theorem Kept.setPil {hf : Bool} {c : Nat} {p : Pilot} (h : Kept q s) : Kept q (s.setPil hf c p) := .ite h.frame h.frame

theorem Kept.lwFrame {c gf : Nat} {vi : Option (Int × Int)} (h : Kept q s) : Kept q (s.lwFrame c gf vi) := by
  unfold State.lwFrame
  extract_lets -underBinder hz one pilot t
  have hp : ∀ s hf, Kept q s → Kept q (pilot s hf) := fun _ _ h => .ite h.setPil (.ite h.setPil h)
  have ht : Kept q t := hp _ _ (hp _ _ h)
  clear_value t
  split
  · exact .ite (.ite ht.frame ht) ht
  · exact ht

theorem Kept.lwHiZ {n : Nat} (h : Kept q s) : Kept q (s.lwHiZ n) := h.frame
theorem Kept.showDev {c : Nat} (h : Kept q s) : Kept q (s.showDev c) := h.rw

theorem Kept.postDev {hf : Bool} {c dec : Nat} {set : Bool} {pt : ZPoint} (h : Kept q s) :
    Kept q (s.postDev hf c dec set pt) :=
  h.post.fadd

theorem Kept.lwDecide {hf : Bool} {c : Nat} {pt : ZPoint} (h : Kept q s) : Kept q (s.lwDecide hf c pt) := by
  unfold State.lwDecide
  extract_lets
  split
  · exact h
  · extract_lets
    split
    · exact h.setPil
    · split
      · exact (h.setPil.foldl fun _ _ h1 => h1.postDev).setPil.showDev
      · exact .ite h.setPil h.setPil.setPil.postDev.det.showDev

theorem Kept.lwTake {hf : Bool} {c : Nat} {pt : ZPoint} {stable : Bool} (h : Kept q s) : Kept q (s.lwTake hf c pt stable) :=
  .ite h (.ite h.quot.quot.setPil.showDev h.setPil)

theorem Kept.pilotEnd {hf : Bool} {c : Nat} (h : Kept q s) : Kept q (s.pilotEnd hf c) := by
  unfold State.pilotEnd
  extract_lets -underBinder p len next
  have hn : ∀ s, Kept q s → Kept q (next s) := fun _ h => h.setPil
  refine .ite h.lwTake (.ite (hn _ h) (.ite h (.ite (hn _ h.lwTake) ?_)))
  split
  next z ph ok t et =>
  have ht : Kept q t := h.demod.of_eq et
  extract_lets -underBinder pt u v
  have hu : Kept q u := hn _ (.ite ht ht.setPil)
  have hv : Kept q v := .ite hu.lwDecide hu
  exact hv.lwTake

theorem Kept.blDone (h : Kept q s) : Kept q s.blDone := h.foldl fun _ _ h1 => .ite h1 h1.frame.finish

theorem Kept.execLwWindowEnd {c : Nat} (h : Kept q s) : KeptNext q (execLwWindowEnd c s) :=
  (Kept.ite h h.pilotEnd.pilotEnd.showDev.blDone).next

theorem Kept.execCheckEnd {c : Nat} (h : Kept q s) : KeptNext q (Machine.execCheckEnd c s) := by
  unfold Machine.execCheckEnd
  refine Kept.next (.ite h ?_)
  extract_lets -underBinder p
  split
  next z ph ok t et =>
  have ht : Kept q t := h.demod.of_eq et
  extract_lets -underBinder zs u v
  have hu : Kept q u := ht.setPil
  exact .ite hu.setCh.setSt.rampIn hu.retrip

theorem Kept.applyLwBaseline {e : Entry} (h : Kept q s) : Kept q (applyLwBaseline e s) :=
  .ite h.frame (h.foldl fun _ _ h1 => h1.setPil.setPil).frame.blDone

theorem Kept.applyLwRead {e : Entry} (h : Kept q s) : Kept q (applyLwRead e s) := h.hostWrite.finish
theorem Kept.setSweep {w : Sweep} (h : Kept q s) : Kept q (s.setSweep w) := h.frame

theorem Kept.applyLwSweep {e : Entry} (h : Kept q s) : Kept q (applyLwSweep e s) :=
  .ite h.setSweep.rw.frame.frame h.setSweep.rw.frame

theorem Kept.execLwSweep {c : Cmd} (h : Kept q s) : KeptNext q (execLwSweep c s) := (Kept.ite h.submit.fs h.submit).next
theorem Kept.recPoint {c : Nat} {p : ZPoint} (h : Kept q s) : Kept q (s.recPoint c p) := h.frame

theorem Kept.sweepEnd {w : Sweep} {status st ended : Nat} (h : Kept q s) : Kept q (s.sweepEnd w status st ended) := by
  unfold State.sweepEnd
  extract_lets
  split
  · exact (h.foldl fun _ _ h1 => h1.foldl fun _ _ h2 => h2.recPoint).setSweep.fs.frame.post.frame.finish.foldl fun _ _ h1 =>
      .ite h1 h1.frame.finish
  · exact (h.foldl fun _ _ h1 => h1.foldl fun _ _ h2 => h2.recPoint).setSweep.fs.frame.post.finish

theorem Kept.sweepAbort (h : Kept q s) : Kept q s.sweepAbort := by
  unfold State.sweepAbort
  split
  · exact .ite h.sweepEnd h
  · exact h

theorem Kept.execSweepPointEnd (h : Kept q s) : KeptNext q (Machine.execSweepPointEnd s) := by
  unfold Machine.execSweepPointEnd
  refine Kept.next ?_
  split
  · exact h
  · next w hw =>
    extract_lets -underBinder stop f t _ u
    have ht : Kept q t := by
      refine h.foldl fun s c hs => .ite hs.recPoint ?_
      split
      next z ph ok t et =>
      have ht : Kept q t := hs.demod.of_eq et
      exact ht.recPoint
    have hu : Kept q u := ht.frame
    exact .ite h (.ite hu.setSweep.fs hu.sweepEnd)

theorem Kept.applyLwSweepAbort {e : Entry} (h : Kept q s) : Kept q (applyLwSweepAbort e s) :=
  (Kept.cancelAll (Kept.put (s := s) h fun w =>
    { w with sched := Nat.le_trans (List.length_filter_le _ _) w.sched })).sweepAbort.finish

theorem Kept.applyLwSweepRead {e : Entry} (h : Kept q s) : Kept q (Machine.applyLwSweepRead e s) := by
  unfold Machine.applyLwSweepRead
  split
  · exact h.finish
  · exact h.hostWrite.finish

end

end Sys2Proof.Machine
end

