-- ==== Sys2Proof/Proofs/KeptDrive.lean ====
section
/-! The drive and the Twin. Each lemma says of one function of the model that
it keeps what `Keeping` asks for. -/

namespace Sys2Proof.Machine

section
-- One proof after another: each evaluates the default proofs of `Kept.frame`, and would wait for that in a thread of its own.
set_option Elab.async false
variable {q : Keeping} {s : State}

theorem Kept.modStep {n k gf : Nat} (h : Kept q s) : Kept q (s.modStep n k gf) :=
  .ite h (.ite h.setCh.fs (.ite h.freeWord.setCh h.setCh))

theorem Kept.legCodes {n k gf : Nat} (h : Kept q s) : Kept q (s.legCodes n k gf).2 := by
  unfold State.legCodes
  extract_lets
  split
  · exact h
  · exact h.modStep.setCh

theorem Kept.boostStep {g rail : Nat} {ib : Int} (h : Kept q s) : Kept q (s.boostStep g rail ib).2 := by
  unfold State.boostStep
  extract_lets
  split
  · exact h.setGrp.fs
  · exact h.setGrp.fs

theorem Kept.toTrain {n : Nat} (h : Kept q s) : Kept q (s.toTrain n) := h.setPort.fs
theorem Kept.leaveUp {n : Nat} (h : Kept q s) : Kept q (s.leaveUp n) := (h.foldl fun _ _ h1 => h1.setGrp.fs).lwHiZ

theorem Kept.rxAccount {n : Nat} (h : Kept q s) : Kept q (s.rxAccount n) :=
  (Kept.ite ((Kept.ite h.fadd.det h.fadd).foldl fun _ _ h1 => .ite h1.lwFrame h1) h).setPort

theorem Kept.sendTx {n gf : Nat} (h : Kept q s) : Kept q (s.sendTx n gf) := by
  unfold State.sendTx
  extract_lets -underBinder phase x rx vr t
  have ht : Kept q t := h.setPort
  clear_value t
  split
  next codes u eu =>
  have hu : Kept q u := by
    refine Kept.of_eq (Kept.foldl_pair ht fun p k r hp er => ?_) eu
    split at er
    next l v ev => cases er; exact hp.legCodes.of_eq ev
  split
  next b0 v ev =>
  have hv : Kept q v := hu.boostStep.of_eq ev
  split
  next b1 w ew =>
  have hw : Kept q w := hv.boostStep.of_eq ew
  extract_lets -underBinder mbx f _ y
  have hy : Kept q y := .ite hw hw.frame
  exact hy.setPort.fs

theorem Kept.launchPort {gf n : Nat} (h : Kept q s) : Kept q (s.launchPort gf n) :=
  .ite (.ite h.toTrain.sendTx (.ite h.setPort h.setPort.sendTx)) (.ite h.rxAccount.sendTx
    h.rxAccount.leaveUp.fs.setPort.sendTx)

theorem Kept.dpHandOver (h : Kept q s) : Kept q s.dpHandOver :=
  (h.foldl fun _ _ h1 => .ite h1.handOverPoint h1).foldl fun _ _ h1 => .ite h1.frame.finish h1

/-- Another number of drive frames in the tick. -/
theorem Kept.putFrame {f : Nat} (h : Kept q s) (hf : f ≤ 64) : Kept q { s with time := { s.time with frame := f } } :=
  h.put fun w => { w with frame := hf }

theorem Kept.execDriveFrameLaunch (h : Kept q s) : KeptNext q (Machine.execDriveFrameLaunch s) := by
  unfold Machine.execDriveFrameLaunch
  refine Kept.next ?_
  split
  · exact h
  · next hf =>
    have hl : s.time.frame + 1 ≤ 64 := by omega
    refine Kept.foldl (Kept.dpHandOver ?_) fun _ _ h1 => h1.launchPort
    exact Kept.putFrame h.reach hl

theorem Kept.mbxAck {n ack : Nat} (h : Kept q s) : Kept q (s.mbxAck n ack) := by
  unfold State.mbxAck
  extract_lets -underBinder x
  split
  · exact h
  · refine .ite h (.ite ?_ h.setPort)
    split
    · exact h.setPort.finish
    · exact h.setPort

theorem Kept.postMbx {n : Nat} {m : List Byte} (h : Kept q s) : Kept q (s.postMbx n m) := h.foldl fun _ _ h1 => h1.post

theorem Kept.mbxIn {n : Nat} {b : List Byte} (h : Kept q s) : Kept q (s.mbxIn n b) :=
  .ite h (.ite h.setPort.postMbx h.setPort)

theorem Kept.senseFrame {n gf : Nat} {r : RxVals} (h : Kept q s) : Kept q (s.senseFrame n gf r) :=
  (h.foldl fun _ _ h1 => .ite h1.railFrame.settleFrame (.ite h1.railFrame.riseFrame h1.railFrame)).foldl fun _ _ h1 =>
    h1.tripFrame.energyFrame.lwFrame

theorem Kept.trainFrame {n seq rtt gf : Nat} (h : Kept q s) : Kept q (s.trainFrame n seq rtt gf) :=
  .ite h.setPort (.ite h.setPort (.ite h.setPort.fs h.setPort))

theorem Kept.portUp {n : Nat} (h : Kept q s) : Kept q (s.portUp n) :=
  (h.fs.setPort.foldl fun _ _ h1 => h1.rampIn).foldl fun _ _ h1 => .ite h1.startMeas h1

theorem Kept.rxGood {n : Nat} {f : RxFrame} (h : Kept q s) : Kept q (s.rxGood n f) := by
  unfold State.rxGood
  extract_lets -underBinder r x gf t u v st _ w y
  have hv : Kept q v := h.setPort.fs.fs.fs.fs.fs
  have hw : Kept q w := .ite hv.frame hv
  have hy : Kept q y := .ite hw.trainFrame (.ite (.ite hw.portUp hw.fs) (.ite hw.senseFrame hw))
  exact .ite hy.mbxAck.mbxIn hy

theorem Kept.execDriveRxFrame {n : Nat} {f : RxFrame} (h : Kept q s) : KeptNext q (execDriveRxFrame n f s) :=
  (Kept.ite h.elapse (.ite h.elapse.fs.rxGood (.ite (h.elapse.fs.setPort.fadd.det.foldl fun _ _ h1 => h1.lwFrame)
    h.elapse.fs.setPort.fadd))).next

theorem Kept.execTrainingTimeout {n : Nat} (h : Kept q s) : KeptNext q (execTrainingTimeout n s) :=
  (Kept.ite h.setPort.fs.det h).next

theorem Kept.execDriveLinkDown {n : Nat} (h : Kept q s) : KeptNext q (execDriveLinkDown n s) :=
  (Kept.ite h.leaveUp.setPort.fs.det h).next

theorem Kept.execDownRetrainExpiry {n : Nat} (h : Kept q s) : KeptNext q (execDownRetrainExpiry n s) :=
  (Kept.ite h.toTrain h).next

theorem Kept.dcTake {old c : Nat} (h : Kept q s) : Kept q (s.dcTake old c) :=
  .ite h.setCh.setCh.setSt (.ite h.setCh.setSt h.setCh)

theorem Kept.dcBoundary (h : Kept q s) : Kept q s.dcBoundary :=
  (Kept.ite (h.frame.foldl fun _ _ h1 => h1.dcTake) h).foldl fun _ _ h1 => .ite h1 ((Kept.ite h1.setGrp.fs (.ite
    h1.setGrp.startMeas h1.setGrp)).foldl fun _ _ h2 => .ite h2.setCh.setSt (.ite h2.setCh.setCh.setSt h2.setCh))

theorem Kept.dcRampEnd (h : Kept q s) : Kept q s.dcRampEnd := (h.foldl fun _ _ h1 => .ite h1.setCh.setSt h1.setCh).frame
theorem Kept.dcSample {c : Nat} {x : Int} (h : Kept q s) : Kept q (s.dcSample c x) := h.q31.setCh
theorem Kept.applyDpSet {e : Entry} (h : Kept q s) : Kept q (applyDpSet e s) := h.rwsWrite.rwsWrite.frame

theorem Kept.submitWait {code : Nat} {chk : Cmd → State → Chk} {wr : Entry → State → State} {c : Cmd} (h : Kept q s)
    (hw : ∀ e s, Kept q s → Kept q (wr e s)) : Kept q (submitWait code chk wr c s) := by
  unfold Machine.submitWait
  extract_lets seq t
  split
  · exact .ite h.submit (hw _ _ h.submit.frame)
  · exact h.submit

theorem Kept.execDpSet {c : Cmd} (h : Kept q s) : KeptNext q (execDpSet c s) :=
  (h.submitWait (fun _ _ h1 => h1.applyDpSet)).next

theorem Kept.applyDpRetrain {e : Entry} (h : Kept q s) : Kept q (applyDpRetrain e s) := h.leaveUp.toTrain.finish
theorem Kept.applyDpMbxSend {e : Entry} (h : Kept q s) : Kept q (applyDpMbxSend e s) := .ite h.finish h.setPort

theorem Kept.execDpMbxTimeout {n : Nat} (h : Kept q s) : KeptNext q (Machine.execDpMbxTimeout n s) := by
  refine (Kept.ite h ?_).next
  extract_lets
  split
  · exact h.setPort.finish
  · exact h.setPort

theorem Kept.applyDcWrite {e : Entry} (h : Kept q s) : Kept q (applyDcWrite e s) := .ite h.finish h.wroteTab.frame.finish
theorem Kept.applyDcRead {e : Entry} (h : Kept q s) : Kept q (applyDcRead e s) := h.hostWrite.finish
theorem Kept.applyDcCommit {e : Entry} (h : Kept q s) : Kept q (applyDcCommit e s) := h.frame.finish
theorem Kept.wrBgSet {c : Cmd} (h : Kept q s) : Kept q (wrBgSet c s) := h.rwsWrite.rwsWrite

theorem Kept.applyBgSet {e : Entry} (h : Kept q s) : Kept q (applyBgSet e s) :=
  .ite h.setArm.finish (h.rwsTransfer (fun _ _ h1 => h1.wrBgSet)).finish

theorem Kept.execBgSet {c : Cmd} (h : Kept q s) : KeptNext q (execBgSet c s) := (h.submitRws (fun _ _ h1 => h1.wrBgSet)).next
theorem Kept.setRole {r : Nat} (h : Kept q s) : Kept q (s.setRole r) := h.fs
theorem Kept.setPhase {p : Nat} (h : Kept q s) : Kept q (s.setPhase p) := h.fs.frame
theorem Kept.showHealth (h : Kept q s) : Kept q s.showHealth := h.fs.rw.frame
theorem Kept.beatSend (h : Kept q s) : Kept q s.beatSend := .ite h h.twSendEach.frame.frame

theorem Kept.toActive {at_ : Nat} (h : Kept q s) : Kept q (s.toActive at_) :=
  (Kept.ite h.fadd.setRole.dbgFall h.setRole).frame

theorem Kept.takeOver {after : Nat} (h : Kept q s) : Kept q (s.takeOver after) := .ite h.toActive.sendHeld h
theorem Kept.twRejoin (h : Kept q s) : Kept q s.twRejoin := .ite h.toSuspect h
theorem Kept.twLevel {was : Nat} (h : Kept q s) : Kept q (s.twLevel was) := .ite h.setRole.twSend.frame h.twRejoin
theorem Kept.hoStart (h : Kept q s) : Kept q s.hoStart := .ite h h.twSend.frame

theorem Kept.execHandover {x : TwHdr} {seq : Nat} {request : Bool} (h : Kept q s) :
    KeptNext q (execHandover x seq request s) :=
  (Kept.ite h.elapse (.ite (.ite h.elapse.hoStart h.elapse) (.ite h.elapse.toActive.twSend.frame h.elapse))).next

theorem Kept.execYield {x : TwHdr} (h : Kept q s) : KeptNext q (execYield x s) := (Kept.ite h.elapse.takeOver h.elapse).next

theorem Kept.execPyieldAssert {level : Bool} {dt : Nat} (h : Kept q s) : KeptNext q (execPyieldAssert level dt s) :=
  (Kept.ite h.elapse.fs.takeOver h.elapse.fs).next

theorem Kept.yieldedAlone (h : Kept q s) : Kept q s.yieldedAlone := .ite h.toActive h

theorem Kept.execPaliveLoss {lost : Bool} {dt : Nat} (h : Kept q s) : KeptNext q (execPaliveLoss lost dt s) :=
  (Kept.ite h.elapse.fs.takeOver.yieldedAlone h.elapse.fs).next

theorem Kept.syncFail {cause : Nat} (h : Kept q s) : Kept q (s.syncFail cause) := h.setPhase.fs.det.frame
theorem Kept.syncStart (h : Kept q s) : Kept q s.syncStart := .ite h (.ite (.ite h h.syncFail) h.setPhase.twSend.frame)
theorem Kept.execResyncTimeout (h : Kept q s) : KeptNext q (execResyncTimeout s) := (Kept.ite h.syncFail h).next

theorem Kept.execResyncRetryExpiry (h : Kept q s) : KeptNext q (execResyncRetryExpiry s) :=
  (Kept.ite h.frame.syncStart h).next

theorem Kept.partnerLost (h : Kept q s) : Kept q s.partnerLost :=
  (Kept.ite h.fs.fs.det.syncFail (.ite h.fs.fs.det.setPhase h.fs.fs.det)).takeOver.yieldedAlone

theorem Kept.twEnable {was : Bool} (h : Kept q s) : Kept q (s.twEnable was) :=
  .ite h.setRole.frame (.ite h.setRole.setPhase.fs.fs.fs.frame h)

theorem Kept.execHelloSend (h : Kept q s) : KeptNext q (execHelloSend s) := (Kept.ite h.twSend.frame h).next

theorem Kept.helloRole {m : TwHello} (h : Kept q s) : Kept q (s.helloRole m) :=
  .ite h.fs (.ite (.ite h.fs.toActive h.fs.toSuspect) (.ite h.fs.toSuspect h))

theorem Kept.execHello {x : TwHdr} {m : TwHello} (h : Kept q s) : KeptNext q (execHello x m s) :=
  (Kept.ite h.elapse (.ite h.elapse.frame.det (h.elapse.frame.foldl fun _ _ h1 => h1.rw).helloRole)).next

theorem Kept.execPairWaitExpiry (h : Kept q s) : KeptNext q (execPairWaitExpiry s) := (Kept.ite h.toActive h).next

theorem Kept.beatLink {l : Nat} {m : TwBeat} (h : Kept q s) : Kept q (s.beatLink l m) :=
  .ite (Kept.ite h.fs.frame h).frame.slotPhase.setSlot.slotValid (Kept.ite h.fs.frame h).frame.slotPhase.setSlot

theorem Kept.split (h : Kept q s) : Kept q s.split := .ite h.fs.toSuspect h.fs

theorem Kept.compare {m : TwBeat} (h : Kept q s) : Kept q (s.compare m) := by
  unfold State.compare
  split
  · exact h
  · extract_lets -underBinder oc same mine theirs _ t live u n _ v
    have ht : Kept q t := h.frame
    have hu : Kept q u := ht.fs.fadd.det
    have hv : Kept q v := ht.setPhase.twSend
    refine .ite (.ite ht.fs ?_) (.ite (.ite ht.frame hv.frame) ht)
    exact .ite (.ite hu.hoStart hu) (.ite hu.toSuspect hu)

theorem Kept.watchScore {m : TwBeat} (h : Kept q s) : Kept q (s.watchScore m) := .ite h.frame h.frame
theorem Kept.splitCheck {m : TwBeat} (h : Kept q s) : Kept q (s.splitCheck m) := .ite h.split h.fs
theorem Kept.syncSettings (h : Kept q s) : Kept q s.syncSettings := .ite h h.setPhase.twSend
theorem Kept.syncServe {m : TwBeat} (h : Kept q s) : Kept q (s.syncServe m) := .ite h.syncSettings (.ite h.setPhase h)

theorem Kept.beatTake {m : TwBeat} (h : Kept q s) : Kept q (s.beatTake m) :=
  .ite (.ite h.frame.rw.fs.fs.toSuspect.syncStart h.frame.rw.fs)
    h.frame.rw.fs.fs.splitCheck.compare.watchScore.syncServe.twRejoin.syncStart

theorem Kept.execBeat {x : TwHdr} {m : TwBeat} (h : Kept q s) : KeptNext q (execBeat x m s) :=
  (Kept.ite h.elapse (.ite h.elapse.beatLink h.elapse.beatLink.beatTake)).next

theorem Kept.execBeatMissed {l dt : Nat} (h : Kept q s) : KeptNext q (execBeatMissed l dt s) :=
  (Kept.ite h.elapse (.ite (Kept.ite h.elapse.frame.fadd.slotInvalid h.elapse.frame.fadd).partnerLost (.ite
    h.elapse.frame.fadd.slotInvalid h.elapse.frame.fadd))).next

theorem Kept.execHomeHoldExpiry (h : Kept q s) : KeptNext q (execHomeHoldExpiry s) := by
  refine Kept.next ?_
  split
  · exact .ite h.twSend.frame h
  · exact h

theorem Kept.execMtAlignedLossExpiry (h : Kept q s) : KeptNext q (execMtAlignedLossExpiry s) :=
  (Kept.ite h.standbySuspect h).next

theorem Kept.showLink {l : Nat} {up : Bool} (h : Kept q s) : Kept q (s.showLink l up) := h.fs.fs

theorem Kept.execTwinLinkDown {l : Nat} {lost : Bool} (h : Kept q s) : KeptNext q (execTwinLinkDown l lost s) :=
  (Kept.ite (Kept.ite h.frame.showLink.slotInvalid h.frame.showLink).det h).next

theorem Kept.execTwinLinkUp {l delay : Nat} (h : Kept q s) : KeptNext q (execTwinLinkUp l delay s) :=
  (Kept.ite h.showLink.fs h).next

theorem Kept.execSlotInvalid {n : Nat} (h : Kept q s) : KeptNext q (execSlotInvalid n s) := (Kept.ite h.slotInvalid h).next
theorem Kept.execSlotValid {n : Nat} (h : Kept q s) : KeptNext q (execSlotValid n s) := (Kept.ite h.slotValid h).next

theorem Kept.execSyncTimeout {n : Nat} (h : Kept q s) : KeptNext q (execSyncTimeout n s) := by
  refine Kept.next ?_
  split
  · exact .ite h.slotInvalid h
  · exact h

theorem Kept.mirrorSend (h : Kept q s) : Kept q s.mirrorSend := .ite h h.twSend

theorem Kept.mirrorPut {n : Nat} {l : List (Nat × Option Word)} (h : Kept q s) : Kept q (s.mirrorPut n l) := by
  induction l generalizing s with
  | nil => exact h
  | cons a t ih =>
    obtain ⟨k, v⟩ := a
    cases v with
    | some w => exact ih h.pushIn
    | none => exact ih h

theorem Kept.execMirror {x : TwHdr} {m : TwMirror} (h : Kept q s) : KeptNext q (execMirror x m s) :=
  (Kept.ite h.elapse (.ite h.elapse.mirrorPut.mirrorPut.frame h.elapse.mirrorPut)).next

theorem Kept.twOutcomes (h : Kept q s) : Kept q s.twOutcomes := .ite h (.ite h.frame.standbySuspect h.frame)

theorem Kept.execCmdAck {x : TwHdr} {tag status : Nat} (h : Kept q s) : KeptNext q (Machine.execCmdAck x tag status s) := by
  refine (Kept.ite h.elapse ?_).next
  split
  · exact h.elapse.frame.twOutcomes
  · exact h.elapse

theorem Kept.putProg {u : Nat} {p : UProg} (h : Kept q s) : Kept q (s.putProg u p) :=
  h.setUnit.writeUnit.showProg.setUst.showNoSpare

theorem Kept.twApplySettings (h : Kept q s) : Kept q s.twApplySettings := by
  unfold State.twApplySettings
  split
  · exact h
  next x _ =>
  extract_lets _ _ s1 s2 s3 s4 s5 s6 s7 s8 _ s9 _ s10 _ s11 s12 s13
  have h1 : Kept q s1 := h.frame
  have h3 : Kept q s3 := (h1.foldl fun _ _ h => h.fs).foldl fun _ _ h => h.wroteTab
  have h5 : Kept q s5 := h3.frame.foldl fun _ _ h => h.frame
  have h6 : Kept q s6 := h5.foldl fun _ _ h => .ite h.setUnit.setUst.showProg h
  have h8 : Kept q s8 := (h6.foldl fun _ _ h => .ite h.putProg h).foldl fun _ _ h => .ite h.fillRange h
  have h10 : Kept q s10 := (h8.foldl fun _ _ h => h.setMsg.showMsg).frame
  have h12 : Kept q s12 := (h10.foldl fun _ _ h => h.setRxs.convSet).foldl fun _ _ h => h.setTxs.convSet
  have h13 : Kept q s13 := h12.foldl fun _ _ h => h.startVoice.setVoice.foldl fun _ _ h => h.joinZone
  exact h13.newGen.journal.logRecord.frame

/-- The frames replayed leave the host's memory and the journal as they were (R357). -/
theorem Kept.cutInstall {f : Nat} {chs : List TwCutCh} {grps : List TwCutGrp} {pil : List TwCutPilot} (h : Kept q s) :
    Kept q (s.cutInstall f chs grps pil) := by
  unfold State.cutInstall
  extract_lets up s1 s2 s3 old l
  have h1 : Kept q s1 := h.foldl fun _ _ h1 => h1.setCh.setSt
  have h2 : Kept q s2 := h1.foldl fun _ _ h1 => h1.setGrp.fs.fs.fs
  have h3 : Kept q s3 := h2.foldl fun _ _ h1 => .ite h1.frame h1.frame
  have h4 := Kept.foldl_snd (f := fun (q : Nat × State) (r : Nat × Nat × Nat × RxVals) =>
    let t := if q.1 = r.1 then q.2 else if q.1 = 0 then q.2 else q.2.limiterAll
    (r.1, if t.fg F.DP_STAT_STATE r.2.1 = 3 then t.senseFrame r.2.1 r.2.2.1 r.2.2.2 else t)) (p := (0, s3)) (l := l) h3
    (fun p a h1 => by
      have ht : Kept q (if p.1 = a.1 then p.2 else if p.1 = 0 then p.2 else p.2.limiterAll) := .ite h1 (.ite h1 h1.limiterAll)
      exact .ite ht.senseFrame ht)
  exact ⟨fun i => { h4.within i with host := (h3.within i).host, journal := (h3.within i).journal }, h4.queue, h4.clock⟩

theorem Kept.execSync {x : TwHdr} {m : TwSync} (h : Kept q s) : KeptNext q (execSync x m s) := by
  refine Kept.next ?_
  extract_lets
  split
  · exact h.elapse
  · split
    · exact .ite h.elapse.frame h.elapse
    · exact .ite h.elapse (.ite h.elapse.frame h.elapse.fillRange.frame)
    · exact .ite h.elapse h.elapse.twSend.frame
    · exact .ite h.elapse.cutInstall h.elapse

theorem Kept.startPass {refused : List Nat} (h : Kept q s) : Kept q (s.startPass refused) :=
  (h.frame.foldl fun _ _ h1 => h1.twSend).twSend

theorem Kept.startBulk (h : Kept q s) : Kept q s.startBulk := h.frame.startPass

theorem Kept.execSyncAck {x : TwHdr} {refused : List Nat} {phase : Nat} {done : Bool} (h : Kept q s) :
    KeptNext q (execSyncAck x refused phase done s) :=
  (Kept.ite h.elapse (.ite (.ite h.elapse.frame h.elapse) (.ite h.elapse.syncSettings (.ite h.elapse.startPass (.ite
    h.elapse.setPhase.startBulk h.elapse))))).next

theorem Kept.execResyncPhaseComplete (h : Kept q s) : KeptNext q (execResyncPhaseComplete s) :=
  (Kept.ite h (.ite (.ite h.setPhase.setRole.fadd (Kept.ite h.setPhase h.setPhase.twSend).frame) (.ite (.ite h (.ite
    h.setPhase.startBulk (.ite h.setPhase.frame h.setPhase))) h))).next

theorem Kept.syncTick (h : Kept q s) : Kept q s.syncTick :=
  .ite (Kept.ite h.twApplySettings h).twSend.frame (.ite h.twApplySettings h)

theorem Kept.applyTwSet {e : Entry} (h : Kept q s) : Kept q (applyTwSet e s) :=
  .ite h.finish (h.foldl fun _ _ h1 => h1.imgWrite).twEnable.finish

theorem Kept.applyTwYield {e : Entry} (h : Kept q s) : Kept q (applyTwYield e s) := .ite h.finish h.hoStart.finish

theorem Kept.applyTwResync {e : Entry} (h : Kept q s) : Kept q (applyTwResync e s) :=
  .ite h.finish (Kept.ite h.frame.fs h.frame).syncStart.finish

theorem Kept.applyTwHome {e : Entry} (h : Kept q s) : Kept q (applyTwHome e s) :=
  .ite h.finish (Kept.ite h.twSend h.hoStart).finish

end

end Sys2Proof.Machine
end

