-- ==== Sys2Proof/Proofs/KeptSump.lean ====
section
/-! The Sump, the clusters, the keys and the firmware. Each lemma says of one function of the model that
it keeps what `Keeping` asks for. -/

namespace Sys2Proof.Machine

section
-- One proof after another: each evaluates the default proofs of `Kept.frame`, and would wait for that in a thread of its own.
set_option Elab.async false
variable {q : Keeping} {s : State}

theorem Kept.setSmpCls {c : Nat} {dry : Bool} {x : SmpCls} (h : Kept q s) : Kept q (s.setSmpCls c dry x) := h.frame
theorem Kept.showCls {c : Nat} (h : Kept q s) : Kept q (s.showCls c) := h.fs.fs
theorem Kept.showPkg (h : Kept q s) : Kept q s.showPkg := h.fs.fs.fs.twLevel

/-- The fault log holds 64 faults (R335). -/
theorem Kept.smpLog {d : Det} {level : Nat} {quenched esc : Bool} (h : Kept q s) : Kept q (s.smpLog d level quenched esc) := by
  unfold State.smpLog
  extract_lets w0 w1 t l l'
  have ht : Kept q t := .ite h.fadd h
  have hl : l'.length ≤ 64 := by rw [List.length_drop]; omega
  have hu := ht.fs (f := F.SMP_LOGSTAT_COUNT) (i := 0) (v := l'.length)
  exact hu.put fun w => { w with faults := hl }

theorem Kept.smpRecord {d : Det} {level cfg flags fseq episode : Nat} (h : Kept q s) :
    Kept q (s.smpRecord d level cfg flags fseq episode) :=
  h.postAt

theorem Kept.l2Action {f : SmpFault} (h : Kept q s) : Kept q (s.l2Action f) := by
  unfold State.l2Action
  extract_lets -underBinder d t
  have ht : Kept q t := by
    unfold t
    split
    · exact h.frame
    · exact h
  exact .ite ht.clusterReq (.ite ht.unitL2Do (.ite ht.fs.frame ht))

theorem Kept.classLevel {c level : Nat} (h : Kept q s) : Kept q (s.classLevel c level) := h.fs.fs

theorem Kept.smpEnter {f : SmpFault} {escS escT hold : Bool} {old : Option Nat} (h : Kept q s) :
    Kept q (s.smpEnter f escS escT hold old) :=
  (Kept.ite (.ite h.setSmpCls.fadd.fadd h.setSmpCls.fadd) (Kept.ite h.setSmpCls.fadd.fadd
    h.setSmpCls.fadd).frame).smpLog.smpRecord

theorem Kept.smpTakeAt {d : Det} {cfg level fseq : Nat} {escS escT : Bool} {old : Option Nat} (h : Kept q s) :
    Kept q (s.smpTakeAt d cfg level fseq escS escT old) :=
  .ite h.smpEnter (Kept.ite h.smpEnter.l2Action h.smpEnter).classLevel.showCls.showPkg

theorem Kept.smpTake {d : Det} (h : Kept q s) : Kept q (s.smpTake d) :=
  .ite h.frame.smpLog.fadd (.ite h.frame.smpLog.fadd.smpRecord h.frame.smpTakeAt)

theorem Kept.execSmpFault {r : Option Report} (h : Kept q s) : KeptNext q (Machine.execSmpFault r s) := by
  unfold Machine.execSmpFault
  extract_lets t
  have ht : Kept q t := by
    unfold t
    split
    · exact .ite h.det h
    · exact h
  refine Kept.next ?_
  split
  · exact ht.frame.smpTake
  · exact ht

theorem Kept.retake {f : SmpFault} {escT : Bool} (h : Kept q s) : Kept q (s.retake f escT) := h.frame.smpTakeAt

theorem Kept.execReactionTimerExpiry {c : Nat} {dry : Bool} (h : Kept q s) : KeptNext q (Machine.execReactionTimerExpiry c dry s) := by
  refine (Kept.ite (.ite h.setSmpCls ?_) h).next
  split
  · exact h.retake
  · exact h

theorem Kept.ackCls {c : Nat} {dry : Bool} {keep : SmpFault → Bool} (h : Kept q s) : Kept q (s.ackCls c dry keep) :=
  h.setSmpCls

theorem Kept.ackBefore {c : Nat} {dry : Bool} {now : Nat} (h : Kept q s) : Kept q (s.ackBefore c dry now) := h.setSmpCls

theorem Kept.execWindlassAck {c : Nat} (h : Kept q s) : KeptNext q (execWindlassAck c s) :=
  (Kept.ite h h.ackCls.ackCls.showCls).next

theorem Kept.applySmpAck {e : Entry} (h : Kept q s) : Kept q (applySmpAck e s) :=
  .ite h.finish (Kept.ite h.ackBefore.ackBefore.showCls.fs.fs.showPkg h.ackBefore.ackBefore.showCls).finish

theorem Kept.execWindlassHeartbeat (h : Kept q s) : KeptNext q (execWindlassHeartbeat s) := (Kept.ite h h.fs.frame).next

theorem Kept.execHeartbeatMiss (h : Kept q s) : KeptNext q (execHeartbeatMiss s) :=
  (Kept.ite (.ite h.fs.fs h.fs.fs.det) h).next

theorem Kept.execAliveToggle (h : Kept q s) : KeptNext q (execAliveToggle s) := by
  refine Kept.next ?_
  split
  · exact h
  · exact .ite h (.ite h.frame.fs (.ite h.frame.fs.frame h.frame))

theorem Kept.execDieTemperatureThreshold {i : Nat} {t : Int} (h : Kept q s) :
    KeptNext q (execDieTemperatureThreshold i t s) :=
  (Kept.ite h (.ite h.frame (h.frame.foldl fun _ _ h1 => .ite h1.frame.det (.ite h1.frame h1)))).next

theorem Kept.execThermalCapLift (h : Kept q s) : KeptNext q (execThermalCapLift s) := (Kept.ite h.fs h).next

theorem Kept.execSupplyUndervoltage {rail : Nat} (h : Kept q s) : KeptNext q (execSupplyUndervoltage rail s) :=
  (Kept.ite h.det h).next

theorem Kept.execXoLoss (h : Kept q s) : KeptNext q (execXoLoss s) := h.det.next
theorem Kept.execPllClockLoss {i : Nat} (h : Kept q s) : KeptNext q (execPllClockLoss i s) := (Kept.ite h.det h).next

theorem Kept.execQuenchWindowEnd {cluster : Bool} {n : Nat} (h : Kept q s) : KeptNext q (execQuenchWindowEnd cluster n s) :=
  (Kept.ite h (.ite h.frame h.frame)).next

theorem Kept.inject {fam inst subj : Nat} {dry : Bool} (h : Kept q s) : Kept q (s.inject fam inst subj dry) :=
  .ite h.frame.fs.frame h.frame

theorem Kept.applySmpInject {e : Entry} (h : Kept q s) : Kept q (applySmpInject e s) := .ite h.finish h.fs.fs.inject.finish
theorem Kept.injWrite {f : Nat} {dry : Bool} (h : Kept q s) : Kept q (s.injWrite f dry) := .ite h.inject h
theorem Kept.execInj {f : Nat} {dry : Bool} (h : Kept q s) : KeptNext q (execInj f dry s) := (Kept.ite h h.injWrite).next

theorem Kept.smpLogRead (h : Kept q s) : Kept q s.smpLogRead := by
  unfold State.smpLogRead
  split
  · exact h.rw
  · next e t he =>
    have hl : s.smp.log.length ≤ 64 → t.length ≤ 64 := by
      rw [he, List.length_cons]
      exact Nat.le_of_succ_le
    exact (Kept.put (s := s) h fun w => { w with faults := hl w.faults }).rw.rw.rw.fs

theorem Kept.applySmpSet {e : Entry} (h : Kept q s) : Kept q (applySmpSet e s) :=
  ((h.foldl fun _ _ h1 => .ite h1 h1.fs).foldl fun _ _ h1 => h1.imgWrite).finish

theorem Kept.applyClReset {e : Entry} (h : Kept q s) : Kept q (applyClReset e s) := .ite h.finish h.clusterReq.finish
theorem Kept.tileSilent {c : Nat} (h : Kept q s) : Kept q (s.tileSilent c) := h.frame

theorem Kept.unitReset {u : Nat} (h : Kept q s) : Kept q (s.unitReset u) :=
  .ite (.ite h.setCore h.setCore.setUst) (.ite ((Kept.ite h.setCore h.setCore.setUst).foldl fun _ _ h1 =>
    h1.deliver).setUnit ((Kept.ite h.setCore h.setCore.setUst).foldl fun _ _ h1 => h1.deliver))

theorem Kept.cisternBack {c : Nat} (h : Kept q s) : Kept q (s.cisternBack c) :=
  h.foldl fun _ _ h1 => .ite (h1.foldl fun _ _ h2 => h2.mergeBack) h1

theorem Kept.execClusterResetAssert {x : ClusterCut} (h : Kept q s) : KeptNext q (execClusterResetAssert x s) := by
  refine Kept.next ?_
  extract_lets
  split
  · exact h
  · exact .ite h (h.fs.fadd.frame.tileSilent.pmpReset.foldl fun _ _ h1 => h1.unitReset).cisternBack

theorem Kept.execClusterResetRelease {c : Nat} (h : Kept q s) : KeptNext q (execClusterResetRelease c s) := by
  refine Kept.next ?_
  split
  · exact h
  · exact .ite h.fs h

theorem Kept.reloadUnit {u : Nat} (h : Kept q s) : Kept q (s.reloadUnit u) := by
  unfold State.reloadUnit
  split
  · exact .ite h h.writeUnit.showProg
  · exact h

theorem Kept.execClusterReloadComplete {c : Nat} {ok : Bool} (h : Kept q s) :
    KeptNext q (execClusterReloadComplete c ok s) := by
  refine Kept.next ?_
  split
  · exact h
  · split
    · exact h
    · split
      · exact (h.foldl fun _ _ h1 => h1.reloadUnit).frame.pmpRestart
      · extract_lets
        split
        · exact .ite h.fs.frame h.fs.frame.retake
        · exact h.fs.frame

theorem Kept.execClusterReturn {c : Nat} (h : Kept q s) : KeptNext q (execClusterReturn c s) := by
  refine Kept.next ?_
  split
  · exact h
  · exact .ite h h.fs.frame

theorem Kept.clEnable {c : Nat} {was : Bool} (h : Kept q s) : Kept q (s.clEnable c was) :=
  .ite (.ite (h.tileSilent.foldl fun _ _ h1 => h1.unitReset).pmpReset.fs h) (.ite h.clusterReq h)

theorem Kept.clStart {l : List Nat} (h : Kept q s) : Kept q (s.clStart l) := h.foldl fun _ _ h1 => .ite h1.fs h1
theorem Kept.setFwBank {b : Nat} {m : AMap Byte} (h : Kept q s) : Kept q (s.setFwBank b m) := .ite h.frame h.frame

/-- A record of the bank select block leaves the TCMs as they are. -/
theorem Kept.bankRecord {c : SecSt} (h : Kept q s) (e0 : c.tcm0 = s.sec.tcm0 := by rfl) (e1 : c.tcm1 = s.sec.tcm1 := by rfl) :
    Kept q (s.bankRecord c) := h.frame (tcm0 := e0) (tcm1 := e1)

theorem Kept.setFwState {b st : Nat} (h : Kept q s) : Kept q (s.setFwState b st) := .ite h.bankRecord.fs h.bankRecord.fs
theorem Kept.showFwVer {b : Nat} (h : Kept q s) : Kept q (s.showFwVer b) := h.fs

theorem Kept.blockWrite {b o : Nat} {data : List Byte} {ok : Bool} (h : Kept q s) : Kept q (s.blockWrite b o data ok).2 := by
  unfold State.blockWrite
  split
  · exact h.fs
  · exact (Kept.ite h h.setFwState).setFwBank.showFwVer

theorem Kept.applyFwBlock {e : Entry} (h : Kept q s) : Kept q (applyFwBlock e s) := .ite h.finish h.blockWrite.finish
theorem Kept.fwStart {e : Entry} (h : Kept q s) : Kept q (s.fwStart e) := h.frame

theorem Kept.fwTake {code b : Nat} (h : Kept q s) : Kept q (s.fwTake code b).2 := by
  unfold State.fwTake
  split
  · exact h.frame
  · exact h

theorem Kept.applyFwVerify {e : Entry} (h : Kept q s) : Kept q (applyFwVerify e s) := h.fwStart
theorem Kept.fwPassed {b : Nat} (h : Kept q s) : Kept q (s.fwPassed b) := .ite h.setFwState.showFwVer h

theorem Kept.execFwVerifyComplete {b : Nat} (h : Kept q s) : KeptNext q (execFwVerifyComplete b s) := by
  have ht := h.fwTake (code := Code.FW_VERIFY) (b := b)
  refine Kept.next ?_
  split
  · next e => rw [e] at ht; exact (Kept.ite ht.fwPassed ht).finish
  · next e => rw [e] at ht; exact ht

theorem Kept.applyFwActivate {e : Entry} (h : Kept q s) : Kept q (applyFwActivate e s) := .ite h.finish h.fwStart

theorem Kept.activate {b : Nat} {trial : Bool} (h : Kept q s) : Kept q (s.activate b trial).2 := by
  unfold State.activate
  split
  · exact h.bankRecord
  · extract_lets
    split
    · exact h
    · exact h.bankRecord

theorem Kept.execFwActivateComplete {b : Nat} (h : Kept q s) : KeptNext q (execFwActivateComplete b s) := by
  have ht := h.fwTake (code := Code.FW_ACTIVATE) (b := b)
  refine Kept.next ?_
  split
  · next e => rw [e] at ht; exact ht.activate.finish
  · next e => rw [e] at ht; exact ht

theorem Kept.showLog (h : Kept q s) : Kept q s.showLog := h.fs
theorem Kept.setCopy {n : Nat} {c : Copy} (h : Kept q s) : Kept q (s.setCopy n c) := .ite h.frame h.frame
theorem Kept.tookRecord {r : LogRec} (h : Kept q s) : Kept q (s.tookRecord r) := h.fs.frame.showPending

theorem Kept.takeRun {n : Nat} {l : List LogRec} (h : Kept q s) : Kept q (s.takeRun n l).2 := by
  induction n generalizing s l with
  | zero => exact h
  | succ n ih =>
    unfold State.takeRun
    split
    · exact ih h.tookRecord
    · exact h

theorem Kept.newCopy {schema gen : Nat} {snap : Retained} {log : List LogRec} (h : Kept q s) :
    Kept q (s.newCopy schema gen snap log) :=
  h.setCopy.setCopy.fs.fs.showLog

theorem Kept.applyFwCommit {e : Entry} (h : Kept q s) : Kept q (applyFwCommit e s) := .ite h.finish h.fwStart

theorem Kept.commitBank {b : Nat} (h : Kept q s) : Kept q (s.commitBank b) :=
  .ite (Kept.ite h.frame.takeRun.newCopy.setFwState h.frame.takeRun.newCopy).setFwState.fs.bankRecord.fs (Kept.ite
    h.frame.takeRun.newCopy.setFwState h.frame.takeRun.newCopy).setFwState.fs.bankRecord

theorem Kept.execFwCommitComplete (h : Kept q s) : KeptNext q (execFwCommitComplete s) := by
  refine Kept.next ?_
  split
  · exact h.frame.commitBank.finish
  · exact h

theorem Kept.rcvGo {w op : Nat} (h : Kept q s) : Kept q (s.rcvGo w op) := .ite h (.ite h.imgWrite.fs.frame h.imgWrite)
theorem Kept.execRecoveryBlock {w : Nat} (h : Kept q s) : KeptNext q (execRecoveryBlock w s) := h.rcvGo.next
theorem Kept.execRecoveryVerify {w : Nat} (h : Kept q s) : KeptNext q (execRecoveryVerify w s) := h.rcvGo.next
theorem Kept.execRecoveryActivate {w : Nat} (h : Kept q s) : KeptNext q (execRecoveryActivate w s) := h.rcvGo.next

theorem Kept.execRecoveryOpComplete {ok : Bool} (h : Kept q s) : KeptNext q (Machine.execRecoveryOpComplete ok s) := by
  unfold Machine.execRecoveryOpComplete
  refine Kept.next (.ite h ?_)
  extract_lets -underBinder b n o data
  split
  next k t et =>
  have ht : Kept q t := by
    split at et
    · extract_lets k' at et
      clear_value k'
      split at et
      · cases et; exact h
      · exact h.blockWrite.of_eq et
    · extract_lets k' at et
      clear_value k'
      cases et
      exact .ite h.fwPassed h
    · extract_lets k' at et
      clear_value k'
      split at et
      · cases et; exact h
      · exact h.activate.of_eq et
  extract_lets -underBinder u
  have hu : Kept q u := ht.fs.fs
  exact hu.frame

end

end Sys2Proof.Machine
end

