-- ==== Sys2Proof/Proofs/KeptRegs.lean ====
section
/-! Registers, debug and power. Each lemma says of one function of the model that
it keeps what `Keeping` asks for. -/

namespace Sys2Proof.Machine

section
-- One proof after another: each evaluates the default proofs of `Kept.frame`, and would wait for that in a thread of its own.
set_option Elab.async false
variable {q : Keeping} {s : State}

theorem Kept.regErr {r : RegId} (h : Kept q s) : Kept q (s.regErr r) := .ite h.fs (.ite h.fs h)

theorem Kept.afterPut {old : State} {r : RegId} {i w : Nat} (h : Kept q s) : Kept q (old.afterPut r i w s) := by
  unfold State.afterPut
  split
  · exact h.slotEnable
  · exact .ite h h.clEnable
  · exact h.showSpares
  · exact h.foldl fun _ _ h1 => h1.showNoSpare
  · exact h.pmpCtl
  · exact h.fs
  · exact .ite h h.setDipState
  · exact .ite h h.setDipState.setDipState
  · exact h.netCtlDone
  · exact h.twEnable
  · exact h.showMix
  · exact h.showRec
  · exact h.showRec
  · exact h

theorem Kept.putFields {r : RegId} {i w : Nat} (h : Kept q s) : Kept q (s.putFields r i w) :=
  .ite (Kept.ite h.regErr h).regErr (Kept.ite (Kept.ite (Kept.ite h.regErr h).creditRun (.ite h.regErr h)).rwsWrite
    (Kept.ite (Kept.ite h.regErr h).creditRun (.ite h.regErr h)).imgWrite).afterPut

theorem Kept.clearBits {r : RegId} {i w : Nat} (h : Kept q s) : Kept q (s.clearBits r i w) := .ite h (.ite h.rw.pmpSum h.rw)

theorem Kept.putReg {r : RegId} {i w : Nat} (h : Kept q s) : Kept q (s.putReg r i w) := by
  unfold State.putReg
  split
  · exact h.pmpIndex
  · exact h.tdmRingIdx
  · exact .ite h.goWrite h
  · exact .ite h.putFields.injWrite h.putFields
  · exact h.clearBits.putFields

theorem Kept.stage {r : RegId} {i w : Nat} (h : Kept q s) : Kept q (s.stage r i w) :=
  .ite (.ite h.regErr h) (Kept.ite h.regErr h).frame

theorem Kept.afterGo {r : RegId} {i : Nat} (h : Kept q s) : Kept q (s.afterGo r i) := by
  unfold State.afterGo
  split
  · exact h.showVes
  · exact h.tdmStop.tdmConv.showRec.agShow
  · exact h

theorem Kept.goPut {r : RegId} {i : Nat} {w : Word} (h : Kept q s) : Kept q (s.goPut r i w) := by
  unfold State.goPut
  split
  · exact .ite h (Kept.ite h.creditRun h).imgWrite
  · exact h.setShw.rw.setArm

theorem Kept.goJudge {old : State} {r : RegId} {i : Nat} (h : Kept q s) : Kept q (old.goJudge s r i) := .ite h h.goPut.regErr

theorem Kept.goImage {img : AMap Word} (h : Kept q s) : Kept q (s.goImage img) :=
  (((h.foldl fun _ _ h1 => h1.goPut).foldl fun _ _ h1 => h1.goJudge).foldl fun _ _ h1 => .ite h1.pmpIndex h1).foldl fun _ _
    h1 => .ite h1 (.ite h1.afterGo h1.afterPut)

theorem Kept.applyGo {x : Entry} (h : Kept q s) : Kept q (applyGo x s) :=
  .ite h (.ite (.ite h.frame.goImage.fs.ringsStart.frame h.frame.goImage.fs.ringsStart) (Kept.ite
    h.frame.goImage.fs.ringsStart.frame h.frame.goImage.fs.ringsStart).newGen.noteChange)

theorem Kept.msixWrite {k : Nat} {w : Word} (h : Kept q s) : Kept q (s.msixWrite k w) := .ite h.frame.frame.msi h.frame
theorem Kept.ignored {off : Nat} (h : Kept q s) : Kept q (s.ignored off) := h.fs.rw.post

theorem Kept.asStaged {r : RegId} {i : Nat} {f : State → State} (h : Kept q s) (hf : ∀ s, Kept q s → Kept q (f s)) :
    Kept q (s.asStaged r i f) := (hf _ h.rw).rw

theorem Kept.setupTrigger {r : RegId} {i w : Nat} (h : Kept q s) : Kept q (s.setupTrigger r i w) := by
  unfold State.setupTrigger
  split
  · extract_lets
    split
    · exact (Kept.ite (h.asStaged (fun _ h1 => h1.pmpAbort)) h).pmpTrig
    · exact .ite (h.asStaged (fun _ h1 => h1.pmpAbort)) h
  · exact .ite h.injWrite h
  · exact h

theorem Kept.rcvWrite {r : RegId} {i w : Nat} (h : Kept q s) : Kept q (s.rcvWrite r i w) :=
  .ite h (.ite (.ite h.rcvGo (.ite h h.imgWrite)) h.imgWrite)

theorem Kept.hostReg {off : Nat} {r : RegId} {i w : Nat} (h : Kept q s) : Kept q (s.hostReg off r i w) :=
  .ite h.rcvWrite (.ite h (.ite h.putReg (.ite (.ite h.clearBits h.ignored) (.ite h (.ite h.putReg
    h.clearBits.stage.setupTrigger)))))

theorem Kept.execRegisterWrite {who off : Nat} {v : BusWord} {dt : Nat} (h : Kept q s) :
    KeptNext q (execRegisterWrite who off v dt s) := by
  refine Kept.next ?_
  split
  · exact h
  · extract_lets
    split
    · exact .ite h.elapse.pulse h.elapse
    · split
      · split
        · exact h.elapse.msixWrite.msixWrite
        · exact h.elapse
      · split
        · exact h.elapse
        · split
          · split
            · exact .ite h.elapse h.elapse.msixWrite
            · split
              · exact h.elapse.hostReg
              · exact h.elapse
          · split
            · exact .ite h.elapse (.ite h.elapse.remap h.elapse.putReg)
            · exact h.elapse

theorem Kept.netCntRead {k : Nat} (h : Kept q s) : Kept q (s.netCntRead k) := h.rw.rw.frame.fs
theorem Kept.absorbRead (h : Kept q s) : Kept q s.absorbRead := h.rw.rw
theorem Kept.healthRead {hi : RegId} {word : Nat} (h : Kept q s) : Kept q (s.healthRead hi word) := h.rw

theorem Kept.readReg {r : RegId} {i : Nat} (h : Kept q s) : Kept q (s.readReg r i) := by
  unfold State.readReg
  split
  · exact h.netCntRead
  · exact h.absorbRead
  · exact h.healthRead
  · exact h.healthRead
  · exact h.dprLogRead
  · exact h.smpLogRead
  · exact h.mtRead
  · exact h.pcRead
  · exact h.pcRead
  · exact .ite h h.liveRead

theorem Kept.gave {v : Nat} (h : Kept q s) : Kept q (s.gave v) := h.frame

theorem Kept.readAt {off : Nat} (h : Kept q s) : Kept q (s.readAt off) := by
  refine .ite h ?_
  split
  · exact .ite h.gave h.readReg.gave
  · exact h.gave

theorem Kept.execRclRead {x : BusRead} (h : Kept q s) : KeptNext q (execRclRead x s) :=
  (Kept.ite h (.ite h.gave (.ite h.gave h.readAt))).next

theorem Kept.execLatchingLoRead {off : Nat} (h : Kept q s) : KeptNext q (execLatchingLoRead off s) := by
  refine Kept.next ?_
  split
  · exact h.readAt
  · exact h.readAt
  · exact h.readAt
  · exact h.readAt
  · exact h

theorem Kept.execLogEntryRead {off : Nat} (h : Kept q s) : KeptNext q (execLogEntryRead off s) := by
  refine Kept.next ?_
  split
  · exact h.readAt
  · exact h.readAt
  · exact h

theorem Kept.execArmWrite {off : Nat} {set : Bool} {dt : Nat} (h : Kept q s) : KeptNext q (execArmWrite off set dt s) := by
  refine Kept.next ?_
  extract_lets
  split
  · exact .ite h.elapse.setArm h.elapse
  · exact h.elapse

theorem Kept.applyNop {e : Entry} (h : Kept q s) : Kept q (applyNop e s) := h.finish
theorem Kept.applyCfgJournalRead {e : Entry} (h : Kept q s) : Kept q (applyCfgJournalRead e s) := h.hostWrite.finish

theorem Kept.regSetRun {k : Nat} {l : List (Nat × Nat)} (h : Kept q s) : Kept q (s.regSetRun k l).2 := by
  induction l generalizing s k with
  | nil => exact h
  | cons a t ih =>
    obtain ⟨off, w⟩ := a
    unfold State.regSetRun
    split
    · split
      · exact h
      · split
        · exact h
        · split
          · exact h
          · exact ih h.putReg
    · exact h

theorem Kept.applyRegSet {e : Entry} (h : Kept q s) : Kept q (applyRegSet e s) := .ite h.finish h.regSetRun.finish
theorem Kept.applySecSeal {e : Entry} (h : Kept q s) : Kept q (applySecSeal e s) := .ite h.finish h.fs.dbgEnd.finish

theorem Kept.randomBytes {n : Nat} (h : Kept q s) : Kept q (s.randomBytes n).2 := by
  induction n generalizing s with
  | zero => exact h
  | succ n ih => exact ih h.freeWord

theorem Kept.applyDbgChallenge {e : Entry} (h : Kept q s) : Kept q (Machine.applyDbgChallenge e s) := by
  unfold Machine.applyDbgChallenge
  extract_lets -underBinder k
  refine .ite h.finish ?_
  split
  next n t et =>
  have ht : Kept q t := h.randomBytes.of_eq et
  extract_lets -underBinder _ u
  have hu : Kept q u := ht.frame
  exact hu.hostWrite.finish

theorem Kept.dbgGrant {b : List Byte} (h : Kept q s) : Kept q (s.dbgGrant b) := h.fs.fs.fs.frame.dbgRelevel
theorem Kept.dbgFail (h : Kept q s) : Kept q s.dbgFail := .ite h.fadd h.fadd.fs.frame

theorem Kept.applyDbgOpen {e : Entry} (h : Kept q s) : Kept q (applyDbgOpen e s) :=
  .ite (Kept.ite h.frame h).finish (.ite (Kept.ite h.frame h).dbgFail.finish (.ite (Kept.ite h.frame h).dbgGrant.finish
    (.ite (Kept.ite h.frame h).frame.hoStart (Kept.ite h.frame h).finish)))

theorem Kept.dbgWaited {done : Bool} (h : Kept q s) : Kept q (s.dbgWaited done) := by
  unfold State.dbgWaited
  split
  · exact h
  · exact .ite h.frame.dbgGrant.finish h.frame.finish

theorem Kept.applyDbgClose {e : Entry} (h : Kept q s) : Kept q (applyDbgClose e s) := h.dbgEnd.finish
theorem Kept.execSessionExpiry (h : Kept q s) : KeptNext q (execSessionExpiry s) := (Kept.ite h.dbgEnd h).next
theorem Kept.execNonceExpiry (h : Kept q s) : KeptNext q (execNonceExpiry s) := (Kept.ite h.frame h).next
theorem Kept.execLockoutExpiry (h : Kept q s) : KeptNext q (execLockoutExpiry s) := (Kept.ite h.fs.frame h).next
theorem Kept.dbgHalt {u : Nat} (h : Kept q s) : Kept q (s.dbgHalt u) := .ite h h.setUnit.showHalted
theorem Kept.dbgResume {u : Nat} (h : Kept q s) : Kept q (s.dbgResume u) := .ite h h.setUnit.showHalted

theorem Kept.dbgStep {u : Nat} {x : UPort} (h : Kept q s) : Kept q (s.dbgStep u x) := by
  refine .ite h (Kept.setUnit ?_)
  split
  · exact h.setUnit.issueNop
  · exact .ite h.setUnit.issueNop h.setUnit.issue
  · exact h.setUnit.issueNop

theorem Kept.dbgPair {pair : Nat} {halt : Bool} (h : Kept q s) : Kept q (s.dbgPair pair halt) :=
  (Kept.ite h.fs h.fs).showHalted

theorem Kept.dbgNote (h : Kept q s) : Kept q s.dbgNote := h.newGen.noteChange

theorem Kept.dbgDo {f : State → State} (h : Kept q s) (hf : ∀ s, Kept q s → Kept q (f s)) : Kept q (s.dbgDo f) :=
  .ite h.dbgDenied (hf _ h).dbgNote

theorem Kept.execHalt {u : Nat} (h : Kept q s) : KeptNext q (execHalt u s) := (h.dbgDo (fun _ h1 => h1.fs.dbgHalt)).next

theorem Kept.execResume {u : Nat} (h : Kept q s) : KeptNext q (execResume u s) :=
  (h.dbgDo (fun _ h1 => h1.fs.dbgResume)).next

theorem Kept.execStep {u : Nat} {x : UPort} (h : Kept q s) : KeptNext q (execStep u x s) :=
  (h.dbgDo (fun _ h1 => h1.fs.dbgStep)).next

theorem Kept.execPair0Halt {halt : Bool} (h : Kept q s) : KeptNext q (execPair0Halt halt s) :=
  (h.dbgDo (fun _ h1 => h1.dbgPair)).next

theorem Kept.execPair1Halt {halt : Bool} (h : Kept q s) : KeptNext q (execPair1Halt halt s) :=
  (h.dbgDo (fun _ h1 => h1.dbgPair)).next

theorem Kept.runCtl {w : Nat} {x : UPort} (h : Kept q s) : Kept q (s.runCtl w x) := by
  unfold State.runCtl
  extract_lets -underBinder u s1 s2 v s3 s4
  have h1 : Kept q s1 := h.dbgPair.dbgPair
  have h2 : Kept q s2 := .ite h1.fs h1
  have h3 : Kept q s3 := .ite h2.dbgHalt h2
  have h4 : Kept q s4 := .ite h3.dbgResume h3
  exact .ite h4.dbgStep h4

theorem Kept.setFuseLock {g : Nat} (h : Kept q s) : Kept q (s.setFuseLock g) := .ite h.fs (.ite h.fs h.fs)
theorem Kept.fuseFree {g : Nat} (h : Kept q s) : Kept q (s.fuseFree g) := h.foldl fun _ _ h1 => h1.freeWord.frame

theorem Kept.fuseGo {w : Nat} {ok : Bool} (h : Kept q s) : Kept q (s.fuseGo w ok) :=
  .ite h.imgWrite (.ite h.imgWrite.fs (.ite h.imgWrite.fs (.ite h.imgWrite.frame.fs (.ite (.ite
    h.imgWrite.frame.setFuseLock.fs h.imgWrite.fuseFree.fs) h.imgWrite))))

theorem Kept.fuseWrite {w : Nat} {ok : Bool} (h : Kept q s) : Kept q (s.fuseWrite w ok) := h.dbgDo (fun _ h1 => h1.fuseGo)
theorem Kept.execStage {w : Nat} (h : Kept q s) : KeptNext q (execStage w s) := (Kept.ite h.fuseWrite h).next
theorem Kept.execBurn {w : Nat} {ok : Bool} (h : Kept q s) : KeptNext q (execBurn w ok s) := (Kept.ite h.fuseWrite h).next

theorem Kept.dbgWriteReg {off w : Nat} {x : UPort} (h : Kept q s) : Kept q (s.dbgWriteReg off w x) := by
  unfold State.dbgWriteReg
  split
  · exact h
  · split
    · exact h.clearBits.dbgNote
    · split
      · exact h.fuseWrite
      · split
        · exact h.dbgDenied
        · split
          · exact h.runCtl.dbgNote
          · exact .ite h.imgWrite.dbgNote (.ite h (.ite h.putFields.dbgNote (.ite h.newGen.frame h.putReg.dbgNote)))

theorem Kept.applyDebugWrite {e : Entry} (h : Kept q s) : Kept q (Machine.applyDebugWrite e s) := by
  unfold Machine.applyDebugWrite
  split
  · exact h.putReg.noteChange
  · exact h

theorem Kept.execDebugWrite {off v dt : Nat} (h : Kept q s) : KeptNext q (execDebugWrite off v dt s) :=
  (Kept.ite h (.ite h.elapse h.elapse.dbgWriteReg)).next

theorem Kept.setTcm {pair : Nat} {m : Mem} (h : Kept q s) (hm : Memory.wf (s.tcm pair) = true → Memory.wf m = true) :
    Kept q (s.setTcm pair m) := by
  unfold State.setTcm
  unfold State.tcm at hm
  split
  · next hp => rw [if_pos hp] at hm; exact h.put fun w => { w with tcm0 := hm w.tcm0 }
  · next hp => rw [if_neg hp] at hm; exact h.put fun w => { w with tcm1 := hm w.tcm1 }

theorem Kept.dbgData {w : Word} (h : Kept q s) : Kept q (s.dbgData w) := h.frame
theorem Kept.dbgRefuse (h : Kept q s) : Kept q s.dbgRefuse := h.dbgData.dbgDenied

theorem Kept.dbgRead {a : DbgAcc} (h : Kept q s) : Kept q (s.dbgRead a) := by
  unfold State.dbgRead
  extract_lets -underBinder t stat
  refine .ite h.dbgRefuse (.ite h.dbgRefuse ?_)
  clear_value t
  split
  · exact h.dbgData
  · exact h.dbgData
  · exact h.dbgData
  · exact h.dbgData
  · split
    next w u eu => exact Kept.dbgData (h.freeWord.of_eq eu)

theorem Kept.dbgWrite {a : DbgAcc} (h : Kept q s) : Kept q (s.dbgWrite a) := by
  unfold State.dbgWrite
  split
  · exact h.dbgWriteReg
  · exact h
  · split
    · exact h.dbgRefuse
    · split
      · exact h.setTcm (memWrite_wf _ _)
      · exact h.busWrite
      · exact h

theorem Kept.execDbgAccess {a : DbgAcc} (h : Kept q s) : KeptNext q (execDbgAccess a s) :=
  (Kept.ite h (.ite h.elapse.dbgWrite h.elapse.dbgRead)).next

theorem Kept.execBoundaryScanInstruction {i : Nat} (h : Kept q s) : KeptNext q (execBoundaryScanInstruction i s) :=
  (Kept.ite h.frame (.ite h.dbgDenied.frame h.frame)).next

theorem Kept.appendLog {l : List LogRec} (h : Kept q s) : Kept q (s.appendLog l) := h.setCopy.showLog

theorem Kept.execLogRecordDurable (h : Kept q s) : KeptNext q (execLogRecordDurable s) := by
  refine Kept.next ?_
  split
  · exact h
  · exact .ite h h.tookRecord.appendLog

theorem Kept.execCompactionStart (h : Kept q s) : KeptNext q (execCompactionStart s) := (Kept.ite h.fs h).next

theorem Kept.execCompactionComplete (h : Kept q s) : KeptNext q (execCompactionComplete s) :=
  (Kept.ite h h.newCopy.fs.fadd).next

theorem Kept.flushLog (h : Kept q s) : Kept q s.flushLog := .ite h h.takeRun.appendLog

theorem Kept.showPwr (h : Kept q s) : Kept q s.showPwr := by
  unfold State.showPwr
  extract_lets -underBinder l
  clear_value l
  split
  · exact h.fs.fs
  · exact h.fs

theorem Kept.applyPwrSet {e : Entry} (h : Kept q s) : Kept q (applyPwrSet e s) :=
  .ite h.finish.showPwr (.ite h.finish.showPwr (Kept.ite h.frame.hoStart (.ite h.frame.standbySuspect h.frame)).showPwr)

theorem Kept.execPwrSet {c : Cmd} (h : Kept q s) : KeptNext q (execPwrSet c s) := h.submit.showPwr.next

theorem Kept.pwrRamp (h : Kept q s) : Kept q s.pwrRamp := by
  unfold State.pwrRamp
  split
  · exact .ite h h.setGate
  · exact h

theorem Kept.execPowerTransitionStart (h : Kept q s) : KeptNext q (execPowerTransitionStart s) := by
  refine Kept.next ?_
  split
  · exact h
  · exact .ite h (Kept.ite h.pwrRamp.frame.fs.fs.fs h.pwrRamp.frame.fs.fs.fs.fs.finish).dbgRelevel

theorem Kept.pwrTick (h : Kept q s) : Kept q s.pwrTick := .ite h (.ite h.fs (.ite h.fs h))

theorem Kept.execIslandsOff (h : Kept q s) : KeptNext q (execIslandsOff s) :=
  (Kept.ite h ((h.foldl fun _ _ h1 => .ite h1.tileSilent.pmpReset.fs h1.tileSilent.pmpReset).foldl fun _ _ h1 =>
    h1.regionLost.fs).fs.fs.frame).next

theorem Kept.coldReload {u : Nat} (h : Kept q s) : Kept q (s.coldReload u) := h.unitReset.reloadUnit.fs

theorem Kept.execStandbyExitReloadComplete (h : Kept q s) : KeptNext q (Machine.execStandbyExitReloadComplete s) := by
  unfold Machine.execStandbyExitReloadComplete
  refine Kept.next ?_
  split
  · exact h
  · extract_lets -underBinder t cs u v
    have ht : Kept q t := h.foldl fun _ _ h1 => .ite h1.coldReload h1
    have hu : Kept q u := ht.clStart.foldl fun _ _ h1 => h1.pmpRestart
    have hv : Kept q v := hu.setGate.fs
    clear_value v
    revert v
    refine id fun v => ?_
    intro _ _ hv
    exact hv.frame

theorem Kept.execOffEntryComplete (h : Kept q s) : KeptNext q (execOffEntryComplete s) := by
  refine Kept.next ?_
  split
  · exact h
  · exact .ite h h.finish.flushLog.fs.fs.frame

end

end Sys2Proof.Machine
end

