-- ==== Sys2Proof/Proofs/KeptStart.lean ====
section
/-! Starting, the effects of commands at their instants, and the tick. Each lemma says of one function of the model that
it keeps what `Keeping` asks for. -/

namespace Sys2Proof.Machine

section
-- One proof after another: each evaluates the default proofs of `Kept.frame`, and would wait for that in a thread of its own.
set_option Elab.async false
variable {q : Keeping} {s : State}

/-- A reset leaves the stores empty, but for host memory and the journal in the SRAM (R362). -/
theorem Kept.afterPor {low : Bool} (h : Kept q s) (hc : ∀ n b, q.clock n b) : Kept q (s.afterPor low) := by
  unfold State.afterPor
  extract_lets -underBinder p _ _ _ _ _ _ t
  have ht : Kept q t := ⟨fun i => ⟨rfl, (h.within i).host, rfl, rfl, Nat.zero_le _, Nat.zero_le _, (h.within i).sramJrn,
    List.forall_mem_nil _, List.forall_mem_nil _, Nat.zero_le _, Nat.zero_le _, Nat.zero_le _⟩, h.queue, hc _ _⟩
  exact ht.fs.fs

theorem Kept.porFall (h : Kept q s) (hc : ∀ n b, q.clock n b) : Kept q s.porFall := h.frame.afterPor hc

theorem Kept.execPorNAssert {low : Nat} (h : Kept q s) (hc : ∀ n b, q.clock n b) : KeptNext q (execPorNAssert low s) :=
  (Kept.ite h (.ite (.ite (h.freeWord.porFall hc) h.freeWord) (h.porFall hc))).next

theorem Kept.execPorNRelease {straps : Nat} (h : Kept q s) (hc : ∀ n b, q.clock n b) : KeptNext q (execPorNRelease straps s) :=
  (Kept.ite h (.ite h.frame (h.afterPor hc).frame.fs.fs.fs.fs.rw.rw)).next

theorem Kept.execAonValidClear (h : Kept q s) : KeptNext q (execAonValidClear s) := h.frame.next
theorem Kept.execThermalHold (h : Kept q s) : KeptNext q (execThermalHold s) := (Kept.ite h.frame h).next
theorem Kept.execThermalHoldEnd (h : Kept q s) : KeptNext q (execThermalHoldEnd s) := (Kept.ite h.frame h).next
theorem Kept.toRecovery (h : Kept q s) : Kept q s.toRecovery := h.fs.fs.frame
theorem Kept.rejectBank {b : Nat} (h : Kept q s) : Kept q (s.rejectBank b) := h.setFwState.fs.fs

theorem Kept.tryBanks {l : List (Nat × Nat)} (h : Kept q s) : Kept q (s.tryBanks l) := by
  induction l generalizing s with
  | nil => exact h.toRecovery
  | cons a t ih => exact .ite (ih h) (.ite h.fs.fs.frame (ih h.rejectBank))

theorem Kept.execFirmwareBankSelect (h : Kept q s) : KeptNext q (execFirmwareBankSelect s) :=
  (Kept.ite h (Kept.ite h h.bankRecord).tryBanks).next

/-- The TCMs, the boot and the fault supervision change. -/
theorem Kept.putTcms {sec : SecSt} {ret : RwSt} {smp : SmpSt} (h : Kept q s) (h0 : Memory.wf sec.tcm0 = true)
    (h1 : Memory.wf sec.tcm1 = true) (hr : ret.sramJrn = s.ret.sramJrn) (hl : smp.log = s.smp.log) :
    Kept q { s with sec := sec, ret := ret, smp := smp } := by
  refine h.put fun w => ?_
  rw [hr, hl]
  exact { w with tcm0 := h0, tcm1 := h1 }

theorem Kept.execTcmLoadAndRemap {ok : Bool} (h : Kept q s) : KeptNext q (Machine.execTcmLoadAndRemap ok s) := by
  unfold Machine.execTcmLoadAndRemap
  refine Kept.next ?_
  split
  · exact h
  · extract_lets -underBinder b _ x n0 _ _ t
    split
    · exact h.frame.rejectBank.tryBanks
    · have he : Memory.wf [] = true := rfl
      have h0 : ∀ l, Memory.wf (memWrite [] 0 l) = true := fun l => memWrite_wf 0 l he
      have ht : Kept q t := by
        refine h.putTcms ?_ ?_ rfl rfl
        · dsimp only
          exact h0 _
        · dsimp only
          exact h0 _
      exact ht.remap.fs

theorem Kept.dropSram (h : Kept q s) : Kept q s.dropSram := h.put fun w => { w with sramJrn := Nat.zero_le _ }

/-- The journal and its copy in the SRAM change. -/
theorem Kept.putJournals {hif : HifSt} {ret : RwSt} (h : Kept q s) (hh : q.stores → Memory.wf hif.hostMem = true)
    (hj : q.stores → hif.journal.length ≤ 256) (hr : q.stores → ret.sramJrn.length ≤ 256) :
    Kept q { s with hif := hif, ret := ret } :=
  ⟨fun i => { h.within i with host := hh i, journal := hj i, sramJrn := hr i }, h.queue, h.clock⟩

theorem Kept.takeCopy {n : Nat} {warm : Bool} (h : Kept q s) : Kept q (s.takeCopy n warm) := by
  unfold State.takeCopy
  extract_lets -underBinder c log d pend g top gap replayed trial c' journal kept s1 _ _ s2 s3
  have hj : q.stores → journal.length ≤ 256 := by
    intro i
    unfold journal
    split
    · rw [List.length_map]; exact (h.within i).sramJrn
    · rw [List.length_map, List.length_drop]; omega
  have h1 : Kept q s1 := h.setCopy
  have h2 : Kept q s2 := h1.putJournals (fun i => (h1.within i).host) hj hj
  exact h2.fs.fs.fs.fs.showLog.showPending

theorem Kept.factoryMacs (h : Kept q s) : Kept q s.factoryMacs := h.foldl fun _ _ h1 => h1.rw.rw

theorem Kept.factoryStart (h : Kept q s) : Kept q s.factoryStart := by
  unfold State.factoryStart
  extract_lets -underBinder g t _ _ u
  have ht : Kept q t := h.factoryMacs
  clear_value t
  have hu : Kept q u := ht.putJournals (fun i => (h.within i).host) (fun i => (h.within i).sramJrn) fun i => (h.within i).sramJrn
  exact hu.fs.fs.fs

theorem Kept.execLpddrTraining {x : LpddrTrain} (h : Kept q s) : KeptNext q (Machine.execLpddrTraining x s) := by
  unfold Machine.execLpddrTraining
  refine Kept.next ?_
  split
  · exact h
  · split
    · exact h.fs
    · extract_lets -underBinder warm t _ u v _
      have ht : Kept q t := .ite h h.dropSram
      have hu : Kept q u := ht.frame
      refine .ite hu ?_
      have hv : Kept q v := by
        unfold v
        split
        · exact hu.takeCopy
        · exact hu.factoryStart
      clear_value v
      exact hv.frame

theorem Kept.execSettingsImportFailure (h : Kept q s) : KeptNext q (execSettingsImportFailure s) :=
  (Kept.ite h h.setFwState.fs.fs.fs.frame.tryBanks).next

theorem Kept.restoreReg {r : RegId} {i w : Nat} (h : Kept q s) : Kept q (s.restoreReg r i w) :=
  .ite (Kept.ite h.rw.setShw h.rw.setShw.afterPut).afterGo (.ite h.rw.setShw h.rw.setShw.afterPut)

theorem Kept.restoreNum {c i v : Nat} (h : Kept q s) : Kept q (s.restoreNum c i v) := by
  unfold State.restoreNum
  split
  · split
    · exact h.restoreReg
    · exact h
  · exact h.frame
  · exact h.frame
  · exact h.frame
  · exact h.frame
  · exact h.frame
  · exact h.frame
  · exact h.frame
  · exact h.setMsg
  · exact h

theorem Kept.restoreStream {tx : Bool} {n : Nat} {b : List Byte} (h : Kept q s) : Kept q (s.restoreStream tx n b) :=
  .ite h.setTxs.convSet h.setRxs.convSet

theorem Kept.restoreBase {c i : Nat} {l : List ZPoint} (h : Kept q s) : Kept q (s.restoreBase c i l) :=
  .ite h.frame (.ite h.frame h.frame)

theorem Kept.restoreItem {k : Nat} {x : RetItem} (h : Kept q s) : Kept q (s.restoreItem k x) := by
  unfold State.restoreItem
  extract_lets
  split
  · exact h.restoreNum
  · exact h.putProg
  · exact h.restoreStream
  · exact h.restoreBase

theorem Kept.restoreAll {p : Nat → RetItem → Bool} (h : Kept q s) : Kept q (s.restoreAll p) :=
  h.foldl fun _ _ h1 => h1.restoreItem

theorem Kept.clampGrp {g : Nat} (h : Kept q s) : Kept q (s.clampGrp g) := .ite h.fs.setShw.fs h
theorem Kept.clampCh {c : Nat} (h : Kept q s) : Kept q (s.clampCh c) := .ite h.frame.fs h
theorem Kept.startCh {c : Nat} (h : Kept q s) : Kept q (s.startCh c) := h.setCh

theorem Kept.startMsgs {ddr : Bool} (h : Kept q s) : Kept q (s.startMsgs ddr) :=
  h.foldl fun _ _ h1 => .ite (Kept.ite h1.setMsg h1).showMsg h1

theorem Kept.execHubSramInit (h : Kept q s) : KeptNext q (execHubSramInit s) := (Kept.ite h h.frame.clStart).next

theorem Kept.execLpddrZeroFillComplete (h : Kept q s) : KeptNext q (execLpddrZeroFillComplete s) :=
  (Kept.ite h h.frame.fs).next

theorem Kept.execStage1Complete (h : Kept q s) : KeptNext q (execStage1Complete s) :=
  (Kept.ite h ((((h.restoreAll.startMsgs.foldl fun _ _ h1 => h1.clampGrp).foldl fun _ _ h1 => h1.clampCh).foldl fun _ _ h1
    => h1.startCh).foldl fun _ _ h1 => h1.clEnable).clStart.frame.fs).next

theorem Kept.execStandpipeReady (h : Kept q s) : KeptNext q (execStandpipeReady s) := (Kept.ite h h.frame.fs.fs).next

theorem Kept.settleCopies (h : Kept q s) : Kept q s.settleCopies :=
  .ite (Kept.ite h.setCopy.fs.fs h).commitBank.newGen.noteChange (.ite h.setCopy.fs.fs h)

theorem Kept.execStage2Complete (h : Kept q s) : KeptNext q (execStage2Complete s) :=
  (Kept.ite h h.restoreAll.startMsgs.clStart.showSpares.frame.fs.fs.showVes.settleCopies).next

theorem effects1_kept : ∀ p ∈ effects1, ∀ e s, Kept q s → Kept q (p.2 e s) := by
  simp only [effects1, List.forall_mem_cons]
  exact ⟨fun _ _ h => h.applyNop, fun _ _ h => h.applyCfgJournalRead, fun _ _ h => h.applyRegSet,
    List.forall_mem_nil _⟩

theorem effects2_kept (hg : q.AnyGap) : ∀ p ∈ effects2, ∀ e s, Kept q s → Kept q (p.2 e s) := by
  simp only [effects2, List.forall_mem_cons]
  exact ⟨fun _ _ h => h.applyMtStep hg, fun _ _ h => h.applyMtRateSet, fun _ _ h => h.applyWhAcquire,
    fun _ _ h => h.applyWhLoopOpen, fun _ _ h => h.applyWhLoopClose, fun _ _ h => h.applyWhPhaseStep,
    List.forall_mem_nil _⟩

theorem effects3_kept : ∀ p ∈ effects3, ∀ e s, Kept q s → Kept q (p.2 e s) := by
  simp only [effects3, List.forall_mem_cons]
  exact ⟨fun _ _ h => h.applyRouteWrite, fun _ _ h => h.applyRouteRead, fun _ _ h => h.applyRouteCommit,
    fun _ _ h => h.applyRouteStatus, fun _ _ h => h.applyXpWrite, fun _ _ h => h.applyXpRead, fun _ _ h => h.applyXpCommit,
    fun _ _ h => h.applyXpSet, fun _ _ h => h.applySpConfig, fun _ _ h => h.applySpPlay, fun _ _ h => h.applySpStop,
    fun _ _ h => h.applySpMsgBlock, fun _ _ h => h.applySpMsgCommit,
    List.forall_mem_nil _⟩

theorem effects4_kept : ∀ p ∈ effects4, ∀ e s, Kept q s → Kept q (p.2 e s) := by
  simp only [effects4, List.forall_mem_cons]
  exact ⟨fun _ _ h => h.applyClReset, fun _ _ h => h.applyUnitSpare, fun _ _ h => h.applyUnitRestore,
    fun _ _ h => h.applyUnitLoad, fun _ _ h => h.applyUnitUnload, fun _ _ h => h.applyUnitSet, fun _ _ h => h.applyInsWrite,
    fun _ _ h => h.applyInsRead, fun _ _ h => h.applyInsCommit,
    List.forall_mem_nil _⟩

theorem effects5_kept : ∀ p ∈ effects5, ∀ e s, Kept q s → Kept q (p.2 e s) := by
  simp only [effects5, List.forall_mem_cons]
  exact ⟨fun _ _ h => h.applyDpSet, fun _ _ h => h.applyDpRetrain, fun _ _ h => h.applyDpMbxSend,
    fun _ _ h => h.applyDcWrite, fun _ _ h => h.applyDcRead, fun _ _ h => h.applyDcCommit, fun _ _ h => h.applyBgSet,
    fun _ _ h => h.applyFltSet, fun _ _ h => h.applyFltLineWrite, fun _ _ h => h.applyFltLineRead,
    fun _ _ h => h.applyFltRemeasure, fun _ _ h => h.applyFltClear, fun _ _ h => h.applyFltRead,
    fun _ _ h => h.applyLwBaseline, fun _ _ h => h.applyLwRead, fun _ _ h => h.applyLwSweep,
    fun _ _ h => h.applyLwSweepAbort, fun _ _ h => h.applyLwSweepRead,
    List.forall_mem_nil _⟩

theorem effects6_kept : ∀ p ∈ effects6, ∀ e s, Kept q s → Kept q (p.2 e s) := by
  simp only [effects6, List.forall_mem_cons]
  exact ⟨fun _ _ h => h.applyTdmSet, fun _ _ h => h.applyTdmRingSet, fun _ _ h => h.applyTdmAgStart,
    fun _ _ h => h.applyTdmAgStop, fun _ _ h => h.applyPdmSet,
    List.forall_mem_nil _⟩

theorem effects7_kept : ∀ p ∈ effects7, ∀ e s, Kept q s → Kept q (p.2 e s) := by
  simp only [effects7, List.forall_mem_cons]
  exact ⟨fun _ _ h => h.applyNetSet, fun _ _ h => h.applyNetPtpDs, fun _ _ h => h.applyFwdWrite,
    fun _ _ h => h.applyFwdRead, fun _ _ h => h.applyFwdCommit, fun _ _ h => h.applyNetStreamRx,
    fun _ _ h => h.applyNetStreamTx, fun _ _ h => h.applyNetStreamDel, fun _ _ h => h.applyNetStreamRead,
    fun _ _ h => h.applyNetFrameTx, fun _ _ h => h.applyNetFrameRead,
    List.forall_mem_nil _⟩

theorem effects9_kept : ∀ p ∈ effects9, ∀ e s, Kept q s → Kept q (p.2 e s) := by
  simp only [effects9, List.forall_mem_cons]
  exact ⟨fun _ _ h => h.applyTwSet, fun _ _ h => h.applyTwYield, fun _ _ h => h.applyTwResync, fun _ _ h => h.applyTwHome,
    List.forall_mem_nil _⟩

theorem effectsA_kept : ∀ p ∈ effectsA, ∀ e s, Kept q s → Kept q (p.2 e s) := by
  simp only [effectsA, List.forall_mem_cons]
  exact ⟨fun _ _ h => h.applyFwBlock, fun _ _ h => h.applyFwVerify, fun _ _ h => h.applyFwActivate, fun _ _ h => h.applyFwCommit,
    fun _ _ h => h.applySecSeal, fun _ _ h => h.applyDbgChallenge, fun _ _ h => h.applyDbgOpen,
    fun _ _ h => h.applyDbgClose,
    List.forall_mem_nil _⟩

theorem effectsB_kept : ∀ p ∈ effectsB, ∀ e s, Kept q s → Kept q (p.2 e s) := by
  simp only [effectsB, List.forall_mem_cons]
  exact ⟨fun _ _ h => h.applyCensusAt, fun _ _ h => h.applyPcSet, fun _ _ h => h.applySmpAck,
    fun _ _ h => h.applySmpInject, fun _ _ h => h.applySmpSet, fun _ _ h => h.applyPwrSet,
    List.forall_mem_nil _⟩

theorem effectsAll_kept (hg : q.AnyGap) : ∀ p ∈ effectsAll, ∀ e s, Kept q s → Kept q (p.2 e s) := by
  simp only [effectsAll, List.forall_mem_append, List.forall_mem_cons]
  exact ⟨⟨⟨⟨⟨⟨⟨⟨⟨⟨⟨fun _ _ h => h.applyGo, fun _ _ h => h.applyDebugWrite, List.forall_mem_nil _⟩, effects1_kept⟩, effects2_kept hg⟩, effects3_kept⟩,
    effects4_kept⟩, effects5_kept⟩, effects6_kept⟩, effects7_kept⟩, effects9_kept⟩, effectsA_kept⟩, effectsB_kept⟩

theorem Kept.applyEntry {e : Entry} (h : Kept q s) (hg : q.AnyGap) : Kept q (applyEntry e s) := by
  unfold Machine.applyEntry
  split
  · next p hp => exact effectsAll_kept hg p (List.mem_of_find?_eq_some hp) e s h
  · exact h.finish

theorem arrivals1_kept : ∀ p ∈ arrivals1, ∀ c s, Kept q s → KeptNext q (p.2 c s) := by
  simp only [arrivals1, List.forall_mem_cons]
  exact ⟨fun _ _ h => h.submit.next, fun _ _ h => h.submit.next, fun _ _ h => h.submit.next,
    List.forall_mem_nil _⟩

theorem arrivals2_kept : ∀ p ∈ arrivals2, ∀ c s, Kept q s → KeptNext q (p.2 c s) := by
  simp only [arrivals2, List.forall_mem_cons]
  exact ⟨fun _ _ h => h.submit.next, fun _ _ h => h.submit.next, fun _ _ h => h.submit.next, fun _ _ h => h.submit.next,
    fun _ _ h => h.submit.next, fun _ _ h => h.submit.next, fun _ _ h => h.submit.next,
    List.forall_mem_nil _⟩

theorem arrivals3_kept : ∀ p ∈ arrivals3, ∀ c s, Kept q s → KeptNext q (p.2 c s) := by
  simp only [arrivals3, List.forall_mem_cons]
  exact ⟨fun _ _ h => h.submit.next, fun _ _ h => h.submit.next, fun _ _ h => h.submit.next, fun _ _ h => h.submit.next,
    fun _ _ h => h.submit.next, fun _ _ h => h.submit.next, fun _ _ h => h.execXpCommit, fun _ _ h => h.submit.next,
    fun _ _ h => h.submit.next, fun _ _ h => h.submit.next, fun _ _ h => h.submit.next, fun _ _ h => h.submit.next,
    fun _ _ h => h.submit.next,
    List.forall_mem_nil _⟩

theorem arrivals4_kept : ∀ p ∈ arrivals4, ∀ c s, Kept q s → KeptNext q (p.2 c s) := by
  simp only [arrivals4, List.forall_mem_cons]
  exact ⟨fun _ _ h => h.submit.next, fun _ _ h => h.submit.next, fun _ _ h => h.submit.next, fun _ _ h => h.execUnitLoad,
    fun _ _ h => h.submit.next, fun _ _ h => h.execUnitSet, fun _ _ h => h.submit.next, fun _ _ h => h.submit.next,
    fun _ _ h => h.execInsCommit,
    List.forall_mem_nil _⟩

theorem arrivals5_kept : ∀ p ∈ arrivals5, ∀ c s, Kept q s → KeptNext q (p.2 c s) := by
  simp only [arrivals5, List.forall_mem_cons]
  exact ⟨fun _ _ h => h.execDpSet, fun _ _ h => h.submit.next, fun _ _ h => h.submit.next, fun _ _ h => h.submit.next,
    fun _ _ h => h.submit.next, fun _ _ h => h.submit.next, fun _ _ h => h.execBgSet, fun _ _ h => h.execFltSet,
    fun _ _ h => h.submit.next, fun _ _ h => h.submit.next, fun _ _ h => h.submit.next, fun _ _ h => h.submit.next,
    fun _ _ h => h.submit.next, fun _ _ h => h.submit.next, fun _ _ h => h.submit.next, fun _ _ h => h.execLwSweep,
    fun _ _ h => h.submit.next, fun _ _ h => h.submit.next,
    List.forall_mem_nil _⟩

theorem arrivals6_kept : ∀ p ∈ arrivals6, ∀ c s, Kept q s → KeptNext q (p.2 c s) := by
  simp only [arrivals6, List.forall_mem_cons]
  exact ⟨fun _ _ h => h.execTdmSet, fun _ _ h => h.submit.next, fun _ _ h => h.execTdmAgStart, fun _ _ h => h.submit.next,
    fun _ _ h => h.execPdmSet,
    List.forall_mem_nil _⟩

theorem arrivals7_kept : ∀ p ∈ arrivals7, ∀ c s, Kept q s → KeptNext q (p.2 c s) := by
  simp only [arrivals7, List.forall_mem_cons]
  exact ⟨fun _ _ h => h.submit.next, fun _ _ h => h.submit.next, fun _ _ h => h.submit.next, fun _ _ h => h.submit.next,
    fun _ _ h => h.execFwdCommit, fun _ _ h => h.submit.next, fun _ _ h => h.submit.next, fun _ _ h => h.submit.next,
    fun _ _ h => h.submit.next, fun _ _ h => h.submit.next, fun _ _ h => h.submit.next,
    List.forall_mem_nil _⟩

theorem arrivals9_kept : ∀ p ∈ arrivals9, ∀ c s, Kept q s → KeptNext q (p.2 c s) := by
  simp only [arrivals9, List.forall_mem_cons]
  exact ⟨fun _ _ h => h.submit.next, fun _ _ h => h.submit.next, fun _ _ h => h.submit.next, fun _ _ h => h.submit.next,
    List.forall_mem_nil _⟩

theorem arrivalsA_kept : ∀ p ∈ arrivalsA, ∀ c s, Kept q s → KeptNext q (p.2 c s) := by
  simp only [arrivalsA, List.forall_mem_cons]
  exact ⟨fun _ _ h => h.submit.next, fun _ _ h => h.submit.next, fun _ _ h => h.submit.next, fun _ _ h => h.submit.next,
    fun _ _ h => h.submit.next, fun _ _ h => h.submit.next, fun _ _ h => h.submit.next, fun _ _ h => h.submit.next,
    List.forall_mem_nil _⟩

theorem arrivalsB_kept : ∀ p ∈ arrivalsB, ∀ c s, Kept q s → KeptNext q (p.2 c s) := by
  simp only [arrivalsB, List.forall_mem_cons]
  exact ⟨fun _ _ h => h.execCensusAt, fun _ _ h => h.submit.next, fun _ _ h => h.submit.next, fun _ _ h => h.submit.next,
    fun _ _ h => h.submit.next, fun _ _ h => h.execPwrSet,
    List.forall_mem_nil _⟩

theorem arrivalsAll_kept : ∀ p ∈ arrivalsAll, ∀ c s, Kept q s → KeptNext q (p.2 c s) := by
  simp only [arrivalsAll, List.forall_mem_append]
  exact ⟨⟨⟨⟨⟨⟨⟨⟨⟨arrivals1_kept, arrivals2_kept⟩, arrivals3_kept⟩, arrivals4_kept⟩, arrivals5_kept⟩, arrivals6_kept⟩,
    arrivals7_kept⟩, arrivals9_kept⟩, arrivalsA_kept⟩, arrivalsB_kept⟩

theorem Kept.give {code : Nat} {c : Cmd} (h : Kept q s) : Kept q (s.give code c) := by
  unfold State.give
  split
  · next p hp =>
    obtain ⟨t, ht, hk⟩ := arrivalsAll_kept p (List.mem_of_find?_eq_some hp) c s h
    rw [ht]
    exact hk
  · exact h.submit

theorem Kept.dcDemand {c i n : Nat} (h : Kept q s) : Kept q (s.dcDemand c i n) := h.setCh
theorem Kept.dcStep {i n c : Nat} (h : Kept q s) : Kept q (s.dcStep i n c) := h.dcSample.dcDemand

theorem Kept.railTarget {g : Nat} (h : Kept q s) : Kept q (s.railTarget g) := by
  -- Opened under a name, for the kernel would evaluate the numbers it matches on to compare it with its body.
  generalize e : State.railTarget = f
  delta State.railTarget at e
  subst e
  beta_reduce
  extract_lets -underBinder la hr rmax rmin mm t i need nNum nDen fNum
  split
  next want u eu =>
  have hu : Kept q u := Kept.of_eq (.ite_snd h.quot h.quot) eu
  extract_lets -underBinder capped
  split
  next top v ev =>
  have hv : Kept q v := Kept.of_eq (.ite_snd hu.quot hu) ev
  exact hv.fs.fs

theorem Kept.dropEntry {e : Entry} (h : Kept q s) : Kept q (s.dropEntry e) :=
  h.put fun w => { w with sched := Nat.le_trans (List.length_filter_le _ _) w.sched }

theorem Kept.runDue {f : Entry → State → State} {p : Nat → Bool} {n : Nat} (h : Kept q s)
    (hf : ∀ e s, Kept q s → Kept q (f e s)) : Kept q (State.runDue f p n s) := by
  induction n generalizing s with
  | zero => exact h
  | succ n ih =>
    unfold State.runDue
    split
    · exact h
    · exact ih (hf _ _ h.dropEntry)

theorem Kept.runKind {f : Entry → State → State} {p : Nat → Bool} (h : Kept q s) (hf : ∀ e s, Kept q s → Kept q (f e s)) :
    Kept q (s.runKind f p) := h.runDue hf

theorem Kept.applyEpochRestart {e : Entry} (h : Kept q s) : Kept q (Machine.applyEpochRestart e s) := by
  unfold Machine.applyEpochRestart
  extract_lets -underBinder gone _ _ t u n v w
  have hn : ([] : List Entry).length ≤ 1024 := Nat.zero_le _
  have ht : Kept q t := h.put fun w => { w with sched := hn }
  have hu : Kept q u := ht.cancelAll.sweepAbort
  have hw : Kept q w := hu.fs.fs.fs.fs.setMode.finish.showPwr
  exact .ite hw.hoStart hw.standbySuspect

theorem Kept.release (h : Kept q s) : Kept q s.release := .ite h h.fs.fs.frame

/-- A tick start takes one tick, but not the one that ends the interval after a step (R18). -/
theorem Kept.tickAdvance {c : Nat → Bool → Prop} (h : Kept q s)
    (hc : c (if s.time.gap then s.time.tick else s.time.tick + 1) false) : Kept { q with clock := c } s.tickAdvance := by
  have ht := h.arrive (full := s.time.next)
  exact ⟨fun i => { ht.within i with sample := Nat.zero_le _, frame := Nat.zero_le _ }, ht.queue, hc⟩

theorem Kept.tickEnd {c : Nat → Bool → Prop} (h : Kept q s)
    (hc : c (if s.time.gap then s.time.tick else s.time.tick + 1) false) : Kept { q with clock := c } s.tickEnd := by
  unfold State.tickEnd
  split
  · exact h.tickAdvance hc
  · have h1 := h.reclock (c := fun n b => n = s.time.tick ∧ b = s.time.gap) ⟨rfl, rfl⟩
    have h2 := (Kept.ite (c := s.aud.collTick = s.time.tick + 1) h1 h1.collect).cutTiles
    obtain ⟨hn, hb⟩ := h2.clock
    exact (h2.tickAdvance (c := c) (by rw [hn, hb]; exact hc)).cutoff

theorem Kept.tickSteps (h : Kept q s) (hg : q.AnyGap) : Kept q s.tickSteps := by
  have hr := h.handLong.runKind (f := Machine.applyEpochRestart) (p := (· == Code.EPOCH_RESTART)) fun _ _ h1 => h1.applyEpochRestart
  have hs := hr.runKind (f := Machine.applyMtStep) (p := (· == Code.MT_STEP)) fun _ _ h1 => h1.applyMtStep hg
  exact .ite (hs.lockEntry hg).tdmStepped (hs.lockEntry hg)

theorem Kept.tickEvents (h : Kept q s) (hg : q.AnyGap) : Kept q s.tickEvents := by
  have hr := h.runKind (f := Machine.applyMtRateSet) (p := (· == Code.MT_RATE_SET)) fun _ _ h1 => h1.applyMtRateSet
  have hc := hr.runKind (f := Machine.applyEntry) (p := fun c => !startsEvent c && !beforeCommits c) fun _ _ h1 => h1.applyEntry hg
  exact (hc.runKind fun _ _ h1 => h1.applyEntry hg).release.showPwr

theorem rwsWriters_kept : ∀ p ∈ rwsWriters, ∀ c s, Kept q s → Kept q (p.2 c s) := by
  simp only [rwsWriters, List.forall_mem_cons]
  exact ⟨fun _ _ h => h.wrUnitSet, fun _ _ h => h.wrBgSet, fun _ _ h => h.wrFltSet,
    List.forall_mem_nil _⟩

theorem Kept.rwsPrepare (h : Kept q s) : Kept q s.rwsPrepare := by
  refine h.foldl fun t e ht => ?_
  split
  · next p hp => exact .ite (rwsWriters_kept p (List.mem_of_find?_eq_some hp) _ t ht).markWritten ht
  · exact ht

theorem Kept.tickUnits (h : Kept q s) : Kept q s.tickUnits :=
  h.loadsTick.insTick.tickHandOver.dcBoundary.tdmBoundary.whTick.rwsPrepare

theorem Kept.tickAudio {g : Nat} (h : Kept q s) : Kept q (s.tickAudio g) :=
  (h.streamGather.gather.spEvaluate.foldl fun _ _ h1 => h1.voiceBlock).voiceSlots.frame.formMis

theorem Kept.tickRest {g : Nat} (h : Kept q s) : Kept q (s.tickRest g) :=
  h.limiterAll.dbgRelevel.showHealth.beatSend.syncTick.twOutcomes.mgmtTick.pwrRamp.playBlock
    |>.streamTick.pmpTick.pwrTick.frame.showFwd.agShow.showCen.showMix.showPlock

/-- A tick start takes one tick, or none where it ends the interval after a step (R8, R18). -/
theorem Kept.execTickStart (h : Kept q s) :
    KeptNext { q with clock := fun n _ => n = if s.time.gap then s.time.tick else s.time.tick + 1 } (execTickStart s) := by
  have ht := h.tickEnd (c := fun n _ => n = if s.time.gap then s.time.tick else s.time.tick + 1) rfl
  have hs := ht.tickSteps fun _ _ _ => id
  exact (Kept.ite (h.tickAdvance rfl) (.ite hs ((hs.frame.tickEvents fun _ _ _ => id).tickUnits.tickAudio.tickRest))).next

/-- Another number of samples in the tick. -/
theorem Kept.putSample {n : Nat} (h : Kept q s) (hn : n ≤ 4) : Kept q { s with time := { s.time with sample := n } } :=
  h.put fun w => { w with sample := hn }

theorem Kept.execSampleInstant (h : Kept q s) : KeptNext q (Machine.execSampleInstant s) := by
  unfold Machine.execSampleInstant
  refine Kept.next ?_
  split
  · exact h
  · next hd =>
    have hn : s.time.sample + 1 ≤ 4 := by omega
    refine Kept.putSample (Kept.mirrorSend ?_) hn
    exact (Kept.foldl h.reach fun _ _ h1 => h1.dcStep).tdmAsrc.pdmSample.netAsrc.foldl fun _ _ h1 => h1.railTarget

theorem Kept.execArmedEventExecute (h : Kept q s) (hg : q.AnyGap) : KeptNext q (execArmedEventExecute s) := by
  refine Kept.next ?_
  split
  · exact h
  · split
    · exact h
    · exact (h.reach.dropEntry.applyEntry hg).showPwr

theorem Kept.dcCopied (h : Kept q s) : Kept q s.dcCopied := .ite h.wroteTab.wroteTab.frame h

theorem Kept.execBankCopyComplete {which : Nat} (h : Kept q s) : KeptNext q (execBankCopyComplete which s) :=
  (Kept.ite h.routeCopied (.ite h.matrixCopied (.ite h.dcCopied (.ite h.fwdCopied h.insCopied)))).next

theorem Kept.execRampEnd (h : Kept q s) : KeptNext q (execRampEnd s) := h.frame.dcRampEnd.zoneRampEnd.showMix.next
theorem Kept.ownMiss {r : Nat} (h : Kept q s) : Kept q (s.ownMiss r) := h.fs.frame.ringErr

theorem Kept.takeCmdDesc {r : Nat} {d : Desc} (h : Kept q s) : Kept q (s.takeCmdDesc r d) :=
  .ite h.takeStamp.ringReturn.frame.give.frame h.takeStamp.ringReturn.frame.give

theorem Kept.takeAudDesc {r i : Nat} {d : Desc} (h : Kept q s) : Kept q (s.takeAudDesc r i d) :=
  .ite h.takeStamp.hinTake (.ite h.takeStamp.frame h.takeStamp.audReturn)

theorem Kept.execDescriptorTake {r : Nat} {d : Desc} (h : Kept q s) : KeptNext q (Machine.execDescriptorTake r d s) := by
  have he : Kept q (if s.noCmds then s else s.elapse d.dt) := .ite h h.elapse
  exact (Kept.ite he (.ite he.ringHalt (.ite he.ownMiss (.ite he.takeCmdDesc (.ite he.ringHalt he.takeAudDesc))))).next

theorem Kept.placeMirrored {seq tick : Nat} (h : Kept q s) : Kept q (s.placeMirrored seq tick) :=
  .ite h.frame.standbySuspect h.frame

theorem Kept.execCmd {x : TwHdr} {tick code : Nat} {c : Cmd} (h : Kept q s) : KeptNext q (execCmd x tick code c s) :=
  (Kept.ite h.elapse h.elapse.give.placeMirrored).next

theorem Kept.execHandoverAck {x : TwHdr} {seq : Nat} (h : Kept q s) : KeptNext q (execHandoverAck x seq s) := by
  refine Kept.next ?_
  extract_lets
  split
  · exact h.elapse
  · exact .ite h.elapse h.elapse.toSuspect.frame.dbgWaited.syncStart

theorem Kept.handoverLost (h : Kept q s) : Kept q s.handoverLost := by
  refine Kept.dbgWaited ?_
  split
  · exact .ite h.frame.finish.showPwr h
  · exact h

theorem Kept.execHandoverTimeout (h : Kept q s) : KeptNext q (execHandoverTimeout s) := by
  refine Kept.next ?_
  split
  · exact .ite h.frame.handoverLost h
  · exact h.handoverLost

end

end Sys2Proof.Machine
end

