-- ==== Sys2Proof/Proofs/KeptStep.lean ====
section
/-! The instructions of a unit, every instruction and command, and the step. Each lemma says of one function of the model that
it keeps what `Keeping` asks for. -/

namespace Sys2Proof.Machine

section
-- One proof after another: each evaluates the default proofs of `Kept.frame`, and would wait for that in a thread of its own.
set_option Elab.async false
variable {q : Keeping} {s t : State}

theorem Kept.execNopInstruction {u : Nat} {x : UPort} (h : Kept q s) : KeptNext q (execNopInstruction u x s) :=
  h.issueNop.next

/-- Every instruction and every command leaves the stores within what the spec gives the block. -/
theorem Kept.exec {i : Instr} (h : Kept q s) (hc : ∀ n b, q.clock n b) : KeptNext q (Machine.exec i s) := by
  cases i with
  | porNAssert => exact h.execPorNAssert hc
  | porNRelease => exact h.execPorNRelease hc
  | aonValidClear => exact h.execAonValidClear
  | supplyUndervoltage => exact h.execSupplyUndervoltage
  | xoLoss => exact h.execXoLoss
  | pllClockLoss => exact h.execPllClockLoss
  | thermalHold => exact h.execThermalHold
  | thermalHoldEnd => exact h.execThermalHoldEnd
  | dieTemperatureThreshold => exact h.execDieTemperatureThreshold
  | firmwareBankSelect => exact h.execFirmwareBankSelect
  | checkerSelfTest => exact h.execCheckerSelfTest
  | tcmLoadAndRemap => exact h.execTcmLoadAndRemap
  | lpddrTraining => exact h.execLpddrTraining
  | settingsImportFailure => exact h.execSettingsImportFailure
  | hubSramInit => exact h.execHubSramInit
  | lpddrZeroFillComplete => exact h.execLpddrZeroFillComplete
  | stage1Complete => exact h.execStage1Complete
  | standpipeReady => exact h.execStandpipeReady
  | stage2Complete => exact h.execStage2Complete
  | functionLevelReset => exact h.execFunctionLevelReset
  | perstNAssert => exact h.execPerstNAssert
  | tickStart =>
    obtain ⟨t, e, ht⟩ := h.execTickStart
    exact ⟨t, e, ht.within, ht.queue, hc _ _⟩
  | inputDeliveryComplete => exact h.execInputDeliveryComplete
  | unitWake => exact h.execUnitWake
  | preMatrixDeadline => exact h.execPreMatrixDeadline
  | outputDeliveryComplete => exact h.execOutputDeliveryComplete
  | outputCollection => exact h.execOutputCollection
  | tileGroupProcess => exact h.execTileGroupProcess
  | sampleInstant => exact h.execSampleInstant
  | armedEventExecute => exact h.execArmedEventExecute fun _ _ _ _ => hc _ _
  | longFormHandover => exact h.execLongFormHandover
  | skewCalibration => exact h.execSkewCalibration
  | mediaTimeIntegrityFault => exact h.execMediaTimeIntegrityFault
  | slotMeasurementUpdate => exact h.execSlotMeasurementUpdate
  | slotInvalid => exact h.execSlotInvalid
  | slotValid => exact h.execSlotValid
  | wtrExpiry => exact h.execWtrExpiry
  | driftHoldExpiry => exact h.execDriftHoldExpiry
  | whLock => exact h.execWhLock
  | whUnlock => exact h.execWhUnlock
  | switchDeltaFix => exact h.execSwitchDeltaFix
  | whSwitch => exact h.execWhSwitch
  | acqHoldExpiry => exact h.execAcqHoldExpiry
  | reacqExpiry => exact h.execReacqExpiry
  | freeWaitExpiry => exact h.execFreeWaitExpiry
  | ppsinEdge => exact h.execPpsinEdge
  | refinEdge => exact h.execRefinEdge
  | nop | cfgJournalRead | regSet | mtStep | epochRestart | mtRateSet | whAcquire | whLoopOpen | whLoopClose
  | whPhaseStep | routeWrite | routeRead | routeCommit | routeStatus | xpWrite | xpRead | xpSet | spConfig | spPlay
  | spStop | spMsgBlock | spMsgCommit | clReset | unitSpare | unitRestore | unitUnload | insWrite | insRead | dpRetrain
  | dpMbxSend | dcWrite | dcRead | dcCommit | fltLineWrite | fltLineRead | fltRemeasure | fltClear | fltRead | lwBaseline
  | lwRead | lwSweepAbort | lwSweepRead | tdmRingSet | tdmAgStop | netSet | netPtpDs | fwdWrite | fwdRead | netStreamRx
  | netStreamTx | netStreamDel | netStreamRead | netFrameTx | netFrameRead | smpAck | smpInject | smpSet | twSet
  | twYield | twResync | twHome | fwBlock | fwVerify | fwActivate | fwCommit | secSeal | dbgChallenge | dbgOpen
  | dbgClose | pcSet => exact h.submit.next
  | bankCopyComplete => exact h.execBankCopyComplete
  | xpCommit => exact h.execXpCommit
  | xpSetHeldApply => exact h.execXpSetHeldApply
  | rampEnd => exact h.execRampEnd
  | spMsgStoreComplete => exact h.execSpMsgStoreComplete
  | alarmInputChange => exact h.execAlarmInputChange
  | debounceExpiry => exact h.execDebounceExpiry
  | watchLossExpiry => exact h.execWatchLossExpiry
  | watchReturnExpiry => exact h.execWatchReturnExpiry
  | repetitionEnd => exact h.execRepetitionEnd
  | voiceFlashFallback => exact h.execVoiceFlashFallback
  | asrcSettled => exact h.execAsrcSettled
  | asrcRateLoss => exact h.execAsrcRateLoss
  | clusterResetAssert => exact h.execClusterResetAssert
  | clusterResetRelease => exact h.execClusterResetRelease
  | clusterReloadComplete => exact h.execClusterReloadComplete
  | clusterReturn => exact h.execClusterReturn
  | spareRedirect => exact h.execSpareRedirect
  | spareImageLoaded => exact h.execSpareImageLoaded
  | restoreRedirectRemove => exact h.execRestoreRedirectRemove
  | unitLoad => exact h.execUnitLoad
  | unitLoadComplete => exact h.execUnitLoadComplete
  | unitSet => exact h.execUnitSet
  | insCommit => exact h.execInsCommit
  | dpSet => exact h.execDpSet
  | dpMbxTimeout => exact h.execDpMbxTimeout
  | bgSet => exact h.execBgSet
  | driveFrameLaunch => exact h.execDriveFrameLaunch
  | driveRxFrame => exact h.execDriveRxFrame
  | trainingTimeout => exact h.execTrainingTimeout
  | driveLinkDown => exact h.execDriveLinkDown
  | downRetrainExpiry => exact h.execDownRetrainExpiry
  | retryExpiry => exact h.execRetryExpiry
  | checkEnd => exact h.execCheckEnd
  | tripFreeExpiry => exact h.execTripFreeExpiry
  | railOvervoltageTrip => exact h.execRailOvervoltageTrip
  | railReturn => exact h.execRailReturn
  | measurementTimeout => exact h.execMeasurementTimeout
  | energyBinEnd => exact h.execEnergyBinEnd
  | fltSet => exact h.execFltSet
  | lwWindowEnd => exact h.execLwWindowEnd
  | lwSweep => exact h.execLwSweep
  | sweepPointEnd => exact h.execSweepPointEnd
  | tdmSet => exact h.execTdmSet
  | tdmAgStart => exact h.execTdmAgStart
  | tdmFrameSync => exact h.execTdmFrameSync
  | tdmFrameSyncTimeout => exact h.execTdmFrameSyncTimeout
  | tdmRingIdxWrite => exact h.execTdmRingIdxWrite
  | pdmSet => exact h.execPdmSet
  | pdmStuck => exact h.execPdmStuck
  | fwdCommit => exact h.execFwdCommit
  | networkLinkUp => exact h.execNetworkLinkUp
  | networkLinkDown => exact h.execNetworkLinkDown
  | modulePresenceChange => exact h.execModulePresenceChange
  | frameReceive => exact h.execFrameReceive
  | pause => exact h.execPause
  | pauseExpiry => exact h.execPauseExpiry
  | frameTransmit => exact h.execFrameTransmit
  | ptpSyncSend => exact h.execPtpSyncSend
  | ptpAnnounceSend => exact h.execPtpAnnounceSend
  | pdelayReqSend => exact h.execPdelayReqSend
  | announceTimeout => exact h.execAnnounceTimeout
  | syncTimeout => exact h.execSyncTimeout
  | doorbell => exact h.execDoorbell
  | descriptorTake => exact h.execDescriptorTake
  | interruptCoalesceTimeout => exact h.execInterruptCoalesceTimeout
  | hinReturn => exact h.execHinReturn
  | go => exact h.execGo
  | registerWrite => exact h.execRegisterWrite
  | rclRead => exact h.execRclRead
  | mtNsRead => exact h.execMtNsRead
  | latchingLoRead => exact h.execLatchingLoRead
  | logEntryRead => exact h.execLogEntryRead
  | pcCntRead => exact h.execPcCntRead
  | secRemapWrite => exact h.execSecRemapWrite
  | armWrite => exact h.execArmWrite
  | kick => exact h.execKick
  | abort => exact h.execAbort
  | pmpChannelEnable => exact h.execPmpChannelEnable
  | pmpIndexWrite => exact h.execPmpIndexWrite
  | pumpTrigger => exact h.execPumpTrigger
  | pumpBurstIssue => exact h.execPumpBurstIssue
  | descriptorComplete => exact h.execDescriptorComplete
  | burstError => exact h.execBurstError
  | nopInstruction => exact h.execNopInstruction
  | mov | add | adds | sub | subs | and | or | xor | neg | abs | min | max | cmp | lsl | lsr | asr | mul | mulf | addi
  | andi | ori | xori | cmpi | lsli | lsri | asri | movi | movhi | pmod | paddi | aldi | aldh | ld | ldd | st | std | ldr
  | str | sta | clr | mpy | mpyn | mpyi | mac | msu | maci | msui | adda | suba | accd | nega | absa | asla | asra | exp
  | norm | mva | mva24 | cmpa | smac | dmac | br | call | jr | reti | rep | repl | dbnz | wait | waitm | raise | done
    => exact h.issue.next
  | writeBufferEntryLeave => exact h.execWriteBufferEntryLeave
  | interruptAccept => exact h.execInterruptAccept
  | performanceCounterOverflow => exact h.execPerformanceCounterOverflow
  | correctedWriteBack => exact h.execCorrectedWriteBack
  | mergeWriteBack => exact h.execMergeWriteBack
  | dipperPassStart => exact h.execDipperPassStart
  | dipperRead => exact h.execDipperRead
  | windlassRestore => exact h.execWindlassRestore
  | islandPowerUp => exact h.execIslandPowerUp
  | smpFault => exact h.execSmpFault
  | reactionTimerExpiry => exact h.execReactionTimerExpiry
  | windlassAck => exact h.execWindlassAck
  | heartbeatMiss => exact h.execHeartbeatMiss
  | aliveToggle => exact h.execAliveToggle
  | thermalCapLift => exact h.execThermalCapLift
  | quenchWindowEnd => exact h.execQuenchWindowEnd
  | inj => exact h.execInj
  | hello => exact h.execHello
  | helloSend => exact h.execHelloSend
  | beat => exact h.execBeat
  | beatMissed => exact h.execBeatMissed
  | mirror => exact h.execMirror
  | cmd => exact h.execCmd
  | cmdAck => exact h.execCmdAck
  | yield => exact h.execYield
  | pyieldAssert => exact h.execPyieldAssert
  | paliveLoss => exact h.execPaliveLoss
  | handover => exact h.execHandover
  | handoverAck => exact h.execHandoverAck
  | handoverTimeout => exact h.execHandoverTimeout
  | pairWaitExpiry => exact h.execPairWaitExpiry
  | twinLinkDown => exact h.execTwinLinkDown
  | sync => exact h.execSync
  | syncAck => exact h.execSyncAck
  | resyncPhaseComplete => exact h.execResyncPhaseComplete
  | resyncTimeout => exact h.execResyncTimeout
  | resyncRetryExpiry => exact h.execResyncRetryExpiry
  | homeHoldExpiry => exact h.execHomeHoldExpiry
  | mtAlignedLossExpiry => exact h.execMtAlignedLossExpiry
  | logRecordDurable => exact h.execLogRecordDurable
  | compactionStart => exact h.execCompactionStart
  | compactionComplete => exact h.execCompactionComplete
  | pwrSet => exact h.execPwrSet
  | powerTransitionStart => exact h.execPowerTransitionStart
  | islandsOff => exact h.execIslandsOff
  | standbyExitReloadComplete => exact h.execStandbyExitReloadComplete
  | offEntryComplete => exact h.execOffEntryComplete
  | sessionExpiry => exact h.execSessionExpiry
  | nonceExpiry => exact h.execNonceExpiry
  | lockoutExpiry => exact h.execLockoutExpiry
  | dbgAccess => exact h.execDbgAccess
  | debugWrite => exact h.execDebugWrite
  | boundaryScanInstruction => exact h.execBoundaryScanInstruction
  | halt => exact h.execHalt
  | resume => exact h.execResume
  | step => exact h.execStep
  | pair0Halt => exact h.execPair0Halt
  | pair1Halt => exact h.execPair1Halt
  | stage => exact h.execStage
  | burn => exact h.execBurn
  | recoveryBlock => exact h.execRecoveryBlock
  | recoveryVerify => exact h.execRecoveryVerify
  | recoveryActivate => exact h.execRecoveryActivate
  | censusAt => exact h.execCensusAt
  | censusSnapshot => exact h.execCensusSnapshot
  | censusCopyComplete => exact h.execCensusCopyComplete
  | twinLinkUp => exact h.execTwinLinkUp
  | windlassHeartbeat => exact h.execWindlassHeartbeat
  | delayReqSend => exact h.execDelayReqSend
  | fwVerifyComplete => exact h.execFwVerifyComplete
  | fwActivateComplete => exact h.execFwActivateComplete
  | fwCommitComplete => exact h.execFwCommitComplete
  | recoveryOpComplete => exact h.execRecoveryOpComplete

/-- The command at the front of the queue leaves it, and nothing else does. -/
theorem Kept.step {l : List Instr} (h : Kept (.block l) s) (e : Machine.step s = .next t) : Kept (.block l.tail) t := by
  have hq : s.pending = l := h.queue
  unfold Machine.step at e
  cases l with
  | nil =>
    rw [hq] at e
    cases e
    exact h
  | cons c l =>
    rw [hq] at e
    have hk : Kept (.block l) { s with pending := l } := ⟨h.within, rfl, trivial⟩
    obtain ⟨u, hu, hkept⟩ := hk.exec (i := c) fun _ _ => trivial
    cases hu.symm.trans e
    exact hkept

end

/-- Settles O3: every function that an instruction or a command calls keeps the stores within what the spec gives the block, and
leaves the queue to the step. -/
theorem stepKeepsTheInvariant : Obligations.StepKeepsTheInvariant := by
  intro s t hs e
  exact (kept_block_iff _ _).1 (((kept_block_iff _ _).2 ⟨hs, rfl⟩).step e)

end Sys2Proof.Machine
end

