-- ==== Sys2Proof/Proofs/Ticks.lean ====
section
/-! Tick starts, sample instants and armed events (R8, R18, R24, R25). -/

namespace Sys2Proof.Machine

/-! ### The grid of ticks -/

theorem tickStart_tickAt_le (n : Nat) : tickStart (tickAt n) ≤ n := by
  unfold tickStart tickAt
  omega

theorem lt_nextTick (n : Nat) : n < nextTick n := by
  unfold nextTick tickStart tickAt
  omega

theorem nextTick_le (n : Nat) : nextTick n ≤ tickStart (tickAt n) + 41667 := by
  unfold nextTick tickStart
  omega

theorem tickAt_tickStart (g : Nat) : tickAt (tickStart g) = g := by
  unfold tickStart tickAt
  omega

/-! ### The count -/

/-- The full count is the seconds and nanoseconds shown (R5). -/
theorem now_of_time {s : State} {full : Nat} (hs : s.time.sec = BitVec.ofNat 48 (full / 1000000000))
    (hn : s.time.ns = BitVec.ofNat 32 (full % 1000000000)) (h : full < 2 ^ 48 * 1000000000) : s.now = full := by
  unfold State.now
  rw [hs, hn, BitVec.toNat_ofNat, BitVec.toNat_ofNat]
  omega

theorem now_arrive (s : State) {full : Nat} (h : full < 2 ^ 48 * 1000000000) : (s.arrive full).now = full :=
  now_of_time rfl rfl h

/-- An instant before the next tick start is reached. -/
theorem now_reach {s : State} {full : Nat} (hn : full < s.time.next) (hs : s.now ≤ full) (h : full < 2 ^ 48 * 1000000000) :
    (s.reach full).now = full := by
  have hm : min full (s.time.next - 1) = full := Nat.min_eq_left (by omega)
  unfold State.reach
  rw [hm]
  dsimp only
  split
  · next hle => exact Nat.le_antisymm hs hle
  · exact now_arrive s h

/-! ### TICK_START -/

/-- In a device that is held in reset or is OFF time alone passes. -/
theorem execTickStart_of_dead {s : State} (h : s.dead = true) : execTickStart s = .next s.tickAdvance := by
  unfold execTickStart
  rw [if_pos h]

theorem now_tickAdvance {s : State} (h : s.time.next < 2 ^ 48 * 1000000000) : s.tickAdvance.now = s.time.next :=
  now_of_time rfl rfl h

theorem next_tickAdvance {s : State} (h : s.time.next < 2 ^ 48 * 1000000000) :
    s.tickAdvance.time.next = nextTick s.time.next := congrArg nextTick (now_arrive s h)

theorem tickStart_takes_one_tick (s : State) : Completes .tickStart s (fun t =>
    t.time.tick = s.time.tick + (if s.time.gap then 0 else 1) ∧ t.pending = s.pending) := by
  have h : Kept ⟨False, s.pending, fun _ _ => True⟩ s := ⟨False.elim, rfl, trivial⟩
  obtain ⟨t, e, ht⟩ := h.execTickStart
  refine ⟨t, e, ?_, ht.queue⟩
  rw [show t.time.tick = _ from ht.clock]
  split <;> rfl

theorem tickStart_of_dead {s : State} (h : s.dead = true) (hn : s.time.next < 2 ^ 48 * 1000000000) :
    Completes .tickStart s (fun t => t.now = s.time.next ∧ t.time.sample = 0 ∧ t.time.frame = 0
      ∧ t.time.next = nextTick s.time.next ∧ t.regs = s.regs ∧ t.aud = s.aud ∧ t.drv = s.drv ∧ t.ret = s.ret ∧ t.smp = s.smp) :=
  ⟨s.tickAdvance, execTickStart_of_dead h, now_tickAdvance hn, rfl, rfl, next_tickAdvance hn, rfl, rfl, rfl, rfl, rfl⟩

/-! ### SAMPLE_INSTANT -/

theorem sampleInstant_takes_next {s : State} (hd : s.dead = false) (hs : s.time.sample < 4) :
    Completes .sampleInstant s (fun t => t.time.sample = s.time.sample + 1) := by
  have hc : ¬ (s.dead = true ∨ 4 ≤ s.time.sample) := by
    rintro (h | h)
    · rw [hd] at h
      cases h
    · omega
  exact ⟨_, congrArg Host.Outcome.next (if_neg hc), rfl⟩

theorem exec_sampleInstant_of_four {s : State} (h : 4 ≤ s.time.sample) : exec .sampleInstant s = .next s :=
  congrArg Host.Outcome.next (if_pos (.inr h))

/-! ### ARMED_EVENT_EXECUTE -/

/-- The only entry of the scheduler executes where it is due before the next tick start. -/
theorem exec_armedEventExecute_single {s : State} {e : Entry} (hs : s.sched = [e]) (hh : e.held = false)
    (hp : e.place < s.time.next) (hb : beforeCommits e.code = false) :
    exec .armedEventExecute s = .next (applyEntry e ((s.reach e.place).dropEntry e)).showPwr := by
  show execArmedEventExecute s = _
  unfold execArmedEventExecute
  rw [hs]
  simp only [List.filter_cons, List.filter_nil, hh, hb, decide_eq_true hp, List.find?_cons, beq_self_eq_true, List.map_cons,
    List.map_nil, firstEntry, Bool.not_false, Bool.and_self, if_true]

theorem sched_reach (s : State) (full : Nat) : (s.reach full).sched = s.sched := by
  unfold State.reach
  dsimp only
  split
  · rfl
  · rfl

theorem sched_dropEntry_single {s : State} {e : Entry} (h : s.sched = [e]) : (s.dropEntry e).sched = [] := by
  show s.sched.filter (fun x => x.seq != e.seq) = []
  rw [h, List.filter_cons_of_neg (by simp), List.filter_nil]

/-! ### LONG_FORM_HANDOVER -/

theorem longFormHandover_hands_over (s : State) : Completes .longFormHandover s (fun t =>
    t = { s with sched := t.sched } ∧ t.sched.length = s.sched.length
      ∧ ∀ e ∈ s.sched, (if e.held = true ∧ e.target ≤ s.now + secNs then { e with held := false } else e) ∈ t.sched) := by
  refine ⟨s.handLong, rfl, rfl, List.length_map _, fun e he => ?_⟩
  refine List.mem_map.2 ⟨e, he, ?_⟩
  simp only [Bool.and_eq_true, decide_eq_true_eq]

/-- Settles O15: a tick start takes one tick since no function it calls counts ticks but the one that takes it (`Kept`). -/
theorem tickEventsHappenAtTheirInstants : Obligations.TickEventsHappenAtTheirInstants := by
  refine ⟨⟨tickStart_takes_one_tick, fun s => tickStart_of_dead⟩,
    ⟨fun s => sampleInstant_takes_next, fun s => exec_sampleInstant_of_four⟩,
    fun s e hs hh hp hb => ⟨exec_armedEventExecute_single hs hh hp hb, fun hn hm => ⟨now_reach hp hn hm, ?_⟩⟩,
    longFormHandover_hands_over,
    fun n => ⟨tickStart_tickAt_le n, lt_nextTick n, nextTick_le n, tickAt_tickStart⟩⟩
  exact sched_dropEntry_single ((sched_reach s e.place).trans hs)

end Sys2Proof.Machine
end

