-- ==== Sys2Proof/Proofs/GoGeneration.lean ====
section
/-! GO with a unit that the block does not have (R265, R289). The claim is about every state, and a state may list a unit of any
number. What follows GO of UNIT_TICK_DEADLINE writes UNIT_STAT of every unit listed, and a number of 2,048 or more runs into the
registers of another type. -/

namespace Sys2Proof.Machine

/-! ### The generation that GO leaves -/

/-- Another register type is written. -/
theorem gen_fs (s : State) (f : Fld) (v : Nat) (h : f.reg ≠ .HIF_CFG_GEN) :
    (s.fs f 0 v).fg F.HIF_CFG_GEN_GEN 0 = s.fg F.HIF_CFG_GEN_GEN 0 :=
  fg_fs_other s f _ 0 0 v (by decide) (by decide) (.inl h.symm)

theorem gen_showPending (s : State) : s.showPending.fg F.HIF_CFG_GEN_GEN 0 = s.fg F.HIF_CFG_GEN_GEN 0 :=
  (gen_fs _ _ _ (by decide)).trans (gen_fs _ _ _ (by decide))

theorem gen_logRecord (s : State) (gen code source : Nat) (full : Bool) :
    (s.logRecord gen code source full).fg F.HIF_CFG_GEN_GEN 0 = s.fg F.HIF_CFG_GEN_GEN 0 := by
  unfold State.logRecord
  extract_lets now r fits
  exact (gen_showPending _).trans (fg_of_regs rfl _ _)

theorem journal_regs (s : State) (e : JEntry) : (s.journal e).regs = s.regs := by
  unfold State.journal
  extract_lets j
  generalize j.drop (j.length - 256) = l
  rfl

/-- A note of the change in the journal and the log leaves the generation. -/
theorem gen_noteChange (s : State) (gen code source : Nat) (full : Bool) :
    (s.noteChange gen code source full).fg F.HIF_CFG_GEN_GEN 0 = s.fg F.HIF_CFG_GEN_GEN 0 := by
  unfold State.noteChange
  rw [gen_logRecord, fg_of_regs (journal_regs s _)]

/-- The generation moves on. -/
theorem gen_newGen (s : State) : s.newGen.2.fg F.HIF_CFG_GEN_GEN 0 = nextGen (s.fg F.HIF_CFG_GEN_GEN 0) % 2 ^ 32 :=
  fg_fs_same s _ 0 _ (by decide) (by decide)

/-- The block once the staging image is in force. -/
def State.goDone (s : State) : State :=
  ((({ s with hif := { s.hif with staged := [], goArmed := false } } : State).goImage s.hif.staged).fs F.HIF_STAT_STATE 0 1).ringsStart

/-- GO counts one generation from what its staging image leaves. -/
theorem gen_applyGo {s : State} (e : Entry) (ha : s.hif.goArmed = true) (hs : s.hif.staged ≠ []) :
    (applyGo e s).fg F.HIF_CFG_GEN_GEN 0 = nextGen (s.goDone.fg F.HIF_CFG_GEN_GEN 0) % 2 ^ 32 := by
  unfold applyGo
  rw [if_neg (by rw [ha]; decide)]
  extract_lets img _ t u _ v
  rw [if_neg hs]
  split
  next g w hw =>
  have hw : v.newGen.2 = w := by rw [hw]
  rw [gen_noteChange, ← hw, gen_newGen]
  have hv : v.regs = u.regs := by
    unfold v
    split
    · rfl
    · rfl
  have hu : u = s.goDone := rfl
  rw [fg_of_regs hv, hu]

/-! ### A block that lists a unit beyond its own -/

/-- The number of a unit whose UNIT_STAT has the key of HIF_CFG_GEN. -/
def strayUnit : Nat := 2048 * (RegId.HIF_CFG_GEN.ctorIdx - RegId.UNIT_STAT.ctorIdx)

/-- GO has been given with UNIT_TICK_DEADLINE staged, at generation 2³² − 2, in a block that lists that unit. -/
def goWithStrayUnit : State :=
  let s := State.reset.fs F.HIF_CFG_GEN_GEN 0 (2 ^ 32 - 2)
  { s with
    eng := { s.eng with units := [(strayUnit, UnitSt.reset)] }
    hif := { s.hif with
      goArmed := true
      staged := [(regKey .UNIT_TICK_DEADLINE 0, BitVec.ofNat 32 (resetWord .UNIT_TICK_DEADLINE 0))] } }

/-- The placed GO. -/
def goEntry : Entry := ⟨Code.GO, { ring := 255 }, 0, 0, 0, 0, false, false, true, false⟩

/-- The generation has lost the bit that NO_SPARE has in UNIT_STAT before it moves on. -/
theorem gen_goDone_goWithStrayUnit : goWithStrayUnit.goDone.fg F.HIF_CFG_GEN_GEN 0 = 2 ^ 32 - 2 - 2 ^ 9 := by decide +kernel

theorem applyEntry_goEntry (s : State) : applyEntry goEntry s = applyGo goEntry s := rfl

theorem nextGen_goWithStrayUnit : nextGen (goWithStrayUnit.fg F.HIF_CFG_GEN_GEN 0) = 2 ^ 32 - 1 := by decide +kernel

/-- Refutes O45: the generation after GO is not the next one in `goWithStrayUnit`, whose list of units names unit 129,024; the
claim has no hypothesis that the units listed are those of the block, 0 to 191. -/
theorem not_registerWritesStageApplyOrAreIgnored : ¬ Obligations.RegisterWritesStageApplyOrAreIgnored := by
  rintro ⟨-, -, -, -, -, -, -, -, -, hgo⟩
  obtain ⟨-, -, hgen, -⟩ := hgo goEntry goWithStrayUnit rfl rfl
  have hs : goWithStrayUnit.hif.staged ≠ [] := List.cons_ne_nil _ _
  rw [applyEntry_goEntry, gen_applyGo goEntry rfl hs, gen_goDone_goWithStrayUnit, if_neg hs, nextGen_goWithStrayUnit] at hgen
  exact absurd hgen (by decide)

end Sys2Proof.Machine
end

