-- ==== Sys2Proof/Proofs/Accepted.lean ====
section
/-! Acceptance of commands (R29, R276, R286): where an accepted command without a target stands, and what its effect is there. -/

namespace Sys2Proof.Machine

/-! ### The list for the boundary and the command counter -/

theorem rw_queue (s : State) (r : RegId) (i : Nat) (w : Word) : SameQueue s (s.rw r i w) := ⟨rfl, rfl⟩

theorem setShw_queue (s : State) (r : RegId) (i : Nat) (w : Word) : SameQueue s (s.setShw r i w) := ⟨rfl, rfl⟩

theorem armAt_queue (s : State) (m : AMap Nat) : SameQueue s { s with armAt := m } := ⟨rfl, rfl⟩

theorem setArm_queue (s : State) (a : RegId) (i : Nat) (b : Bool) : SameQueue s (s.setArm a i b) :=
  (fs_queue s _ _ _).trans (armAt_queue _ _)

theorem imgWrite_queue (s : State) (r : RegId) (i w : Nat) : SameQueue s (s.imgWrite r i w) := rw_queue s _ _ _

theorem rwsWrite_queue (s : State) (r : RegId) (i w : Nat) : SameQueue s (s.rwsWrite r i w) := by
  unfold State.rwsWrite
  split
  · exact imgWrite_queue s _ _ _
  · extract_lets t m u
    split
    · exact ((setShw_queue s _ _ _).trans (rw_queue _ _ _ _)).trans (setArm_queue _ _ _ _)
    · exact (setShw_queue s _ _ _).trans (setArm_queue _ _ _ _)

theorem foldl_queue {α : Type} (f : State → α → State) (l : List α) (h : ∀ s a, SameQueue s (f s a)) (s : State) :
    SameQueue s (l.foldl f s) :=
  foldl_frame SameQueue SameQueue.refl SameQueue.trans f l (fun s a _ => h s a) s

theorem ite_queue {c : Prop} [Decidable c] {s t u : State} (ht : SameQueue s t) (hu : SameQueue s u) :
    SameQueue s (if c then t else u) := by
  split
  · exact ht
  · exact hu

theorem showMix_queue (s : State) : SameQueue s s.showMix := by
  unfold State.showMix
  extract_lets t armed fading
  refine foldl_queue _ _ (fun s _ => ?_) s
  extract_lets run copy v
  exact ite_queue (.refl s) (((fs_queue s _ _ _).trans (fs_queue _ _ _ _)).trans (fs_queue _ _ _ _))

theorem showPlock_queue (s : State) : SameQueue s s.showPlock := by
  unfold State.showPlock
  refine foldl_queue _ _ (fun s _ => ite_queue ?_ (.refl s)) s
  extract_lets b
  exact ite_queue (.refl s) ((fs_queue s _ _ _).trans (fs_queue _ _ _ _))

theorem agShow_queue (s : State) : SameQueue s s.agShow := by
  unfold State.agShow
  refine foldl_queue _ _ (fun s _ => ?_) s
  extract_lets m n armed st
  exact ((fs_queue s _ _ _).trans (fs_queue _ _ _ _)).trans (fs_queue _ _ _ _)

theorem showFwd_queue (s : State) : SameQueue s s.showFwd :=
  ((fs_queue s _ _ _).trans (fs_queue _ _ _ _)).trans (fs_queue _ _ _ _)

theorem showPwr_queue (s : State) : SameQueue s s.showPwr := by
  unfold State.showPwr
  extract_lets l
  cases l with
  | cons e l => exact (fs_queue s _ _ _).trans (fs_queue _ _ _ _)
  | nil => exact fs_queue s _ _ _

theorem showCen_queue (s : State) : SameQueue s s.showCen := by
  unfold State.showCen
  split
  · exact (fs_queue s _ _ _).trans (fs_queue _ _ _ _)
  · exact (fs_queue s _ _ _).trans (fs_queue _ _ _ _)
  · exact (fs_queue s _ _ _).trans (fs_queue _ _ _ _)

theorem cen_queue (s : State) (x : CenSt) : SameQueue s { s with cen := x } := ⟨rfl, rfl⟩

theorem setUnit_queue (s : State) (u : Nat) (x : UnitSt) : SameQueue s (s.setUnit u x) := ⟨rfl, rfl⟩

theorem wrUnitSet_queue (c : Cmd) (s : State) : SameQueue s (wrUnitSet c s) := rwsWrite_queue s _ _ _

theorem wrBgSet_queue (c : Cmd) (s : State) : SameQueue s (wrBgSet c s) := (rwsWrite_queue s _ _ _).trans (rwsWrite_queue _ _ _ _)

theorem wrFltSet_queue (c : Cmd) (s : State) : SameQueue s (wrFltSet c s) := by
  unfold wrFltSet
  extract_lets t
  have ht : SameQueue s t := ite_queue ((rwsWrite_queue s _ _ _).trans (rwsWrite_queue _ _ _ _)) (.refl s)
  exact (ht.trans (rwsWrite_queue _ _ _ _)).trans (rwsWrite_queue _ _ _ _)

/-! ### Where an accepted command stands -/

/-- A list holds the command under its number and the counter has moved on; its effect is `f`. -/
def PlacedWith (c : Cmd) (code : Nat) (f : Entry → State → State) (s t : State) (l : List Entry) : Prop :=
  t.hif.cmdSeq = s.hif.cmdSeq + 1
    ∧ ∃ e ∈ l, e.code = code ∧ e.cmd = c ∧ e.seq = s.hif.cmdSeq ∧ ∀ v, applyEntry e v = f e v

/-- The effect that the catalogue gives a code. -/
def effectOf (code : Nat) : Option (Nat × (Entry → State → State)) := effectsAll.find? (fun p => p.1 == code)

theorem applyEntry_of_effect {code : Nat} {f : Entry → State → State} (hf : effectOf code = some (code, f)) {e : Entry}
    (he : e.code = code) (v : State) : applyEntry e v = f e v := by
  unfold applyEntry
  rw [he]
  unfold effectOf at hf
  rw [hf]

section
variable {code : Nat} {chk : Cmd → State → Chk} {c : Cmd} {s t : State} {f : Entry → State → State}

/-- An accepted command stands in the list that the display of its arrival leaves. -/
theorem Accepts.placed (h : Accepts code chk c s) (hf : effectOf code = some (code, f)) (ht : SameQueue (submit code chk c s) t) :
    PlacedWith c code f s t t.dueNext := by
  obtain ⟨hseq, e, hdue, hcode, hcmd, heseq, -, -⟩ := submit_placed h
  refine ⟨ht.seq.trans hseq, e, ?_, hcode, hcmd, heseq, applyEntry_of_effect hf hcode⟩
  rw [ht.due, hdue]
  simp

/-- An accepted command whose arrival shows nothing. -/
theorem Accepts.due (h : Accepts code chk c s) (hf : effectOf code = some (code, f)) :
    ∃ t, Host.Outcome.next (submit code chk c s) = (.next t : Host.Outcome State Fault Refusal)
      ∧ PlacedWith c code f s t t.dueNext := ⟨_, rfl, h.placed hf (.refl _)⟩

/-- Windlass marks a command as written: its code, its operands and its number stay (R114, R115). -/
theorem markWritten_mem {u : State} {e : Entry} (seq : Nat) (guard : Bool) (he : e ∈ u.dueNext) :
    ∃ x ∈ (u.markWritten seq guard).dueNext, x.code = e.code ∧ x.cmd = e.cmd ∧ x.seq = e.seq := by
  refine ⟨_, List.mem_map_of_mem he, ?_⟩
  split
  · exact ⟨rfl, rfl, rfl⟩
  · exact ⟨rfl, rfl, rfl⟩

theorem markWritten_cmdSeq (s : State) (seq : Nat) (guard : Bool) : (s.markWritten seq guard).hif.cmdSeq = s.hif.cmdSeq := rfl

theorem PlacedWith.markWritten {u : State} (h : PlacedWith c code f s t t.dueNext) (hf : effectOf code = some (code, f))
    (hu : SameQueue t u) (seq : Nat) (guard : Bool) :
    PlacedWith c code f s (u.markWritten seq guard) (u.markWritten seq guard).dueNext := by
  obtain ⟨hseq, e, he, hcode, hcmd, heseq, -⟩ := h
  rw [← hu.due] at he
  obtain ⟨x, hx, xcode, xcmd, xseq⟩ := markWritten_mem seq guard he
  exact ⟨(markWritten_cmdSeq u seq guard).trans (hu.seq.trans hseq), x, hx, xcode.trans hcode, xcmd.trans hcmd, xseq.trans heseq,
    applyEntry_of_effect hf (xcode.trans hcode)⟩

theorem Accepts.placed_rws (h : Accepts code chk c s) (hf : effectOf code = some (code, f)) {wr : Cmd → State → State}
    (hw : ∀ c s, SameQueue s (wr c s)) :
    PlacedWith c code f s (submitRws code chk wr c s) (submitRws code chk wr c s).dueNext := by
  have hp := h.placed hf (.refl _)
  unfold submitRws
  extract_lets seq t
  split
  · exact hp.markWritten hf (hw c _) seq _
  · exact hp

end

/-! ### Commands that wait for the hand-over point of their block -/

/-- The writing of the shadows of a block and of ARM: the command then waits for the transfer (R114, R115). -/
structure Waits (wr : Entry → State → State) : Prop where
  wait : ∀ e s, (wr e s).rwsWait = s.rwsWait ++ [e]
  seq  : ∀ e s, (wr e s).hif.cmdSeq = s.hif.cmdSeq

theorem armAt_rwsWait (s : State) (m : AMap Nat) : ({ s with armAt := m } : State).rwsWait = s.rwsWait := rfl

theorem setArm_rwsWait (s : State) (a : RegId) (i : Nat) (b : Bool) : (s.setArm a i b).rwsWait = s.rwsWait :=
  (armAt_rwsWait (s.fs ⟨a, 31, 31⟩ i (b2n b)) _).trans (fs_rwsWait s ⟨a, 31, 31⟩ i (b2n b))

theorem setShw_rwsWait (s : State) (r : RegId) (i : Nat) (w : Word) : (s.setShw r i w).rwsWait = s.rwsWait := rfl

theorem rwsWrite_rwsWait (s : State) (r : RegId) (i w : Nat) : (s.rwsWrite r i w).rwsWait = s.rwsWait := by
  unfold State.rwsWrite
  split
  · exact rw_rwsWait s _ _ _
  · extract_lets t m u
    split
    · rw [setArm_rwsWait, rw_rwsWait, setShw_rwsWait]
    · rw [setArm_rwsWait, setShw_rwsWait]

theorem rwsWait_queue (s : State) (l : List Entry) : SameQueue s { s with rwsWait := l } := ⟨rfl, rfl⟩

theorem applyDpSet_waits : Waits applyDpSet where
  wait e s := by
    unfold applyDpSet
    extract_lets t
    show t.rwsWait ++ [e] = _
    unfold t
    rw [rwsWrite_rwsWait, rwsWrite_rwsWait]
  seq e s := (((rwsWrite_queue s _ _ _).trans (rwsWrite_queue _ _ _ _)).trans (rwsWait_queue _ _)).seq

theorem applyPdmSet_waits : Waits applyPdmSet where
  wait e s := by
    unfold applyPdmSet
    extract_lets t
    show t.rwsWait ++ [e] = _
    unfold t
    rw [rwsWrite_rwsWait, rwsWrite_rwsWait]
  seq e s := (((rwsWrite_queue s _ _ _).trans (rwsWrite_queue _ _ _ _)).trans (rwsWait_queue _ _)).seq

theorem applyTdmSet_waits : Waits applyTdmSet where
  wait e s := by
    unfold applyTdmSet
    extract_lets c t u
    show u.rwsWait ++ [e] = _
    unfold u t
    rw [rwsWrite_rwsWait, rwsWrite_rwsWait, rwsWrite_rwsWait, rwsWrite_rwsWait]
  seq e s := (((((rwsWrite_queue s _ _ _).trans (rwsWrite_queue _ _ _ _)).trans (rwsWrite_queue _ _ _ _)).trans
    (rwsWrite_queue _ _ _ _)).trans (rwsWait_queue _ _)).seq

section
variable {code : Nat} {chk : Cmd → State → Chk} {c : Cmd} {s : State} {f : Entry → State → State}

/-- The command found under the number of a fresh command is that command. -/
theorem Accepts.find_due (h : Accepts code chk c s) (hx : ∀ x ∈ s.dueNext, x.seq < s.hif.cmdSeq) :
    ∃ e, (submit code chk c s).dueNext.find? (fun e => e.seq == s.hif.cmdSeq) = some e
      ∧ e ∈ (submit code chk c s).dueNext ∧ e.code = code ∧ e.cmd = c ∧ e.seq = s.hif.cmdSeq := by
  obtain ⟨-, e, hdue, hcode, hcmd, heseq, -, -⟩ := submit_placed h
  refine ⟨e, ?_, by rw [hdue]; simp, hcode, hcmd, heseq⟩
  have hnone : s.dueNext.find? (fun e => e.seq == s.hif.cmdSeq) = none :=
    List.find?_eq_none.2 fun x hm => by
      have := hx x hm
      simp only [beq_iff_eq]
      omega
  rw [hdue, List.find?_append, hnone]
  simp [heseq]

/-- An entry that waits for its hand-over point is the accepted command. -/
theorem Waits.placed {wr : Entry → State → State} (hw : Waits wr) (hf : effectOf code = some (code, f)) {t : State} {e : Entry}
    (hseq : t.hif.cmdSeq = s.hif.cmdSeq + 1) (hcode : e.code = code) (hcmd : e.cmd = c) (heseq : e.seq = s.hif.cmdSeq) :
    PlacedWith c code f s (wr e t) ((wr e t).rwsWait ++ (wr e t).dueNext) := by
  refine ⟨(hw.seq e t).trans hseq, e, ?_, hcode, hcmd, heseq, applyEntry_of_effect hf hcode⟩
  rw [hw.wait e t]
  simp

theorem Accepts.placed_port (h : Accepts code chk c s) (hx : ∀ x ∈ s.dueNext, x.seq < s.hif.cmdSeq)
    (hf : effectOf code = some (code, f)) {wr : Entry → State → State} (hw : Waits wr) :
    PlacedWith c code f s (submitPort code chk wr c s)
      ((submitPort code chk wr c s).rwsWait ++ (submitPort code chk wr c s).dueNext) := by
  obtain ⟨e, hfind, -, hcode, hcmd, heseq⟩ := h.find_due hx
  obtain ⟨hseq, -⟩ := submit_placed h
  unfold submitPort
  simp only [hfind]
  exact hw.placed hf hseq hcode hcmd heseq

theorem Accepts.placed_wait (h : Accepts code chk c s) (hx : ∀ x ∈ s.dueNext, x.seq < s.hif.cmdSeq)
    (hf : effectOf code = some (code, f)) {wr : Entry → State → State} (hw : Waits wr) :
    PlacedWith c code f s (submitWait code chk wr c s)
      ((submitWait code chk wr c s).rwsWait ++ (submitWait code chk wr c s).dueNext) := by
  obtain ⟨e, hfind, hmem, hcode, hcmd, heseq⟩ := h.find_due hx
  obtain ⟨hseq, -⟩ := submit_placed h
  unfold submitWait
  simp only [hfind]
  split
  · exact ⟨hseq, e, List.mem_append_right _ hmem, hcode, hcmd, heseq, applyEntry_of_effect hf hcode⟩
  · exact hw.placed hf hseq hcode hcmd heseq

end

/-! ### The catalogue -/

/-- No command or event stops the block: nothing is asked of the state after it. -/
theorem exec_runs (i : Instr) (s : State) : ∃ t, exec i s = .next t := by
  have h : Kept ⟨False, s.pending, fun _ _ => True⟩ s := ⟨False.elim, rfl, trivial⟩
  obtain ⟨t, e, -⟩ := h.exec (i := i) fun _ _ => trivial
  exact ⟨t, e⟩

theorem step_of_empty {s : State} (h : s.pending = []) : step s = .next s := by
  unfold step
  rw [h]

theorem unitLoad_queue (c : Cmd) (s : State) : ∃ t, exec (.unitLoad c) s = .next t
    ∧ SameQueue (submit Code.UNIT_LOAD chkUnitLoad c s) t :=
  ⟨_, rfl, ite_queue (setUnit_queue _ _ _) (.refl _)⟩

theorem lwSweep_queue (c : Cmd) (s : State) : ∃ t, exec (.lwSweep c) s = .next t
    ∧ SameQueue (submit Code.LW_SWEEP chkLwSweep c s) t :=
  ⟨_, rfl, ite_queue (fs_queue _ _ _ _) (.refl _)⟩

theorem censusAt_queue (c : Cmd) (s : State) : ∃ t, exec (.censusAt c) s = .next t
    ∧ SameQueue (submit Code.CENSUS_AT chkCensusAt c s) t :=
  ⟨_, rfl, ite_queue ((cen_queue _ _).trans (showCen_queue _)) (.refl _)⟩

/-- An accepted command whose arrival leaves the list for the boundary. -/
theorem Accepts.due_of_queue {code : Nat} {chk : Cmd → State → Chk} {c : Cmd} {s : State} {f : Entry → State → State} {i : Instr}
    (h : Accepts code chk c s) (hf : effectOf code = some (code, f))
    (hi : ∃ t, exec i s = .next t ∧ SameQueue (submit code chk c s) t) :
    ∃ t, exec i s = .next t ∧ PlacedWith c code f s t t.dueNext := by
  obtain ⟨t, e, ht⟩ := hi
  exact ⟨t, e, h.placed hf ht⟩

/-- Settles O2: every command without a target goes through `submit`, which puts it at the end of the list for its boundary; what
an arrival does beside leaves that list, or moves the command to the list of its hand-over point. -/
theorem everyCommandIsServed : Obligations.EveryCommandIsServed := by
  unfold Obligations.EveryCommandIsServed
  refine ⟨exec_runs, fun s h => step_of_empty h, ?_⟩
  refine ⟨fun _ _ h => h.due rfl, fun _ _ h => h.due rfl, fun _ _ h => h.due rfl, ?_⟩
  refine ⟨fun _ _ h => h.due rfl, fun c s h => ⟨_, rfl, submit_placed h⟩, fun _ _ h => h.due rfl, fun _ _ h => h.due rfl,
    fun _ _ h => h.due rfl, fun _ _ h => h.due rfl, fun _ _ h => h.due rfl, ?_⟩
  refine ⟨fun _ _ h => h.due rfl, fun _ _ h => h.due rfl, fun _ _ h => h.due rfl, fun _ _ h => h.due rfl,
    fun _ _ h => h.due rfl, fun _ _ h => h.due rfl, fun c s h => ⟨_, rfl, h.placed rfl (showMix_queue _)⟩,
    fun _ _ h => h.due rfl, fun _ _ h => h.due rfl, fun _ _ h => h.due rfl, fun _ _ h => h.due rfl, fun _ _ h => h.due rfl,
    fun _ _ h => h.due rfl, ?_⟩
  refine ⟨fun _ _ h => h.due rfl, fun _ _ h => h.due rfl, fun _ _ h => h.due rfl,
    fun c s h => h.due_of_queue rfl (unitLoad_queue c s), fun _ _ h => h.due rfl,
    fun c s h => ⟨_, rfl, h.placed_rws rfl wrUnitSet_queue⟩, fun _ _ h => h.due rfl, fun _ _ h => h.due rfl,
    fun c s h => ⟨_, rfl, h.placed rfl (showPlock_queue _)⟩, ?_⟩
  refine ⟨fun c s h hx => ⟨_, rfl, h.placed_wait hx rfl applyDpSet_waits⟩, fun _ _ h => h.due rfl, fun _ _ h => h.due rfl,
    fun _ _ h => h.due rfl, fun _ _ h => h.due rfl, fun _ _ h => h.due rfl,
    fun c s h => ⟨_, rfl, h.placed_rws rfl wrBgSet_queue⟩, fun c s h => ⟨_, rfl, h.placed_rws rfl wrFltSet_queue⟩,
    fun _ _ h => h.due rfl, fun _ _ h => h.due rfl, fun _ _ h => h.due rfl, fun _ _ h => h.due rfl, fun _ _ h => h.due rfl,
    fun _ _ h => h.due rfl, fun _ _ h => h.due rfl, fun c s h => h.due_of_queue rfl (lwSweep_queue c s),
    fun _ _ h => h.due rfl, fun _ _ h => h.due rfl, ?_⟩
  refine ⟨fun c s h hx => ⟨_, rfl, h.placed_port hx rfl applyTdmSet_waits⟩, fun _ _ h => h.due rfl,
    fun c s h => ⟨_, rfl, h.placed rfl (agShow_queue _)⟩, fun _ _ h => h.due rfl,
    fun c s h hx => ⟨_, rfl, h.placed_port hx rfl applyPdmSet_waits⟩, ?_⟩
  refine ⟨fun _ _ h => h.due rfl, fun _ _ h => h.due rfl, fun _ _ h => h.due rfl, fun _ _ h => h.due rfl,
    fun c s h => ⟨_, rfl, h.placed rfl (showFwd_queue _)⟩, fun _ _ h => h.due rfl, fun _ _ h => h.due rfl,
    fun _ _ h => h.due rfl, fun _ _ h => h.due rfl, fun _ _ h => h.due rfl, fun _ _ h => h.due rfl, ?_⟩
  refine ⟨fun _ _ h => h.due rfl, fun _ _ h => h.due rfl, fun _ _ h => h.due rfl, ?_⟩
  refine ⟨fun _ _ h => h.due rfl, fun _ _ h => h.due rfl, fun _ _ h => h.due rfl, fun _ _ h => h.due rfl, ?_⟩
  refine ⟨fun c s h => ⟨_, rfl, h.placed rfl (showPwr_queue _)⟩, fun _ _ h => h.due rfl, fun _ _ h => h.due rfl,
    fun _ _ h => h.due rfl, fun _ _ h => h.due rfl, fun _ _ h => h.due rfl, fun _ _ h => h.due rfl, fun _ _ h => h.due rfl,
    fun _ _ h => h.due rfl, ?_⟩
  exact ⟨fun c s h => h.due_of_queue rfl (censusAt_queue c s), fun _ _ h => h.due rfl⟩

end Sys2Proof.Machine
end

