-- ==== Sys2Proof/Proofs/Completions.lean ====
section
/-! What giving a completion leaves (R277, R278, R290), and what a refused, an armed and a finished command leave of it
(R24, R26, R28, R276, R289). -/

namespace Sys2Proof.Machine

/-! ### What the completions of commands leave -/

/-- Media Time, the lists of waiting events, the reports, the signal path, the journal and every register but the ring indices stay. -/
structure Told (s t : State) : Prop where
  time    : t.time = s.time
  sched   : t.sched = s.sched
  due     : t.dueNext = s.dueNext
  detq    : t.detq = s.detq
  aud     : t.aud = s.aud
  journal : t.hif.journal = s.hif.journal
  seq     : t.hif.cmdSeq = s.hif.cmdSeq
  regs    : RegsKept [.HIF_RING_IDX] s t

theorem RegsKept.refl (l : List RegId) (s : State) : RegsKept l s s := fun _ _ _ _ => rfl

theorem RegsKept.trans {l : List RegId} {s t u : State} (h : RegsKept l s t) (k : RegsKept l t u) : RegsKept l s u :=
  fun r i hr hi => (k r i hr hi).trans (h r i hr hi)

theorem RegsKept.mono {l m : List RegId} {s t : State} (h : RegsKept l s t) (hm : l ⊆ m) : RegsKept m s t :=
  fun r i hr hi => h r i (fun hl => hr (hm hl)) hi

theorem RegsKept.of_regs {l : List RegId} {s t : State} (h : t.regs = s.regs) : RegsKept l s t := fun r i _ _ => rr_of_regs h r i

/-- Writing a register of a type named. -/
theorem regsKept_rw {l : List RegId} (s : State) (r : RegId) (i : Nat) (w : Word) (hr : r ∈ l) (hi : i < 2048) :
    RegsKept l s (s.rw r i w) := fun _ _ h hj => rr_rw_type s w (fun e => h (e ▸ hr)) hi hj

theorem regsKept_fs {l : List RegId} (s : State) (f : Fld) (i v : Nat) (hr : f.reg ∈ l) (hi : i < 2048) :
    RegsKept l s (s.fs f i v) := regsKept_rw s _ _ _ hr hi

/-- A field of a register whose type is not named reads as before. -/
theorem RegsKept.fg {l : List RegId} {s t : State} (h : RegsKept l s t) (f : Fld) (i : Nat) (hf : f.reg ∉ l) (hi : i < 2048) :
    t.fg f i = s.fg f i := by
  unfold State.fg
  rw [h f.reg i hf hi]

theorem Told.refl (s : State) : Told s s := ⟨rfl, rfl, rfl, rfl, rfl, rfl, rfl, .refl _ s⟩

theorem Told.trans {s t u : State} (h : Told s t) (k : Told t u) : Told s u :=
  ⟨k.time.trans h.time, k.sched.trans h.sched, k.due.trans h.due, k.detq.trans h.detq, k.aud.trans h.aud,
    k.journal.trans h.journal, k.seq.trans h.seq, h.regs.trans k.regs⟩

/-- The part of the host interface that completions use is written. -/
theorem told_hif (s : State) {h : HifSt} (hj : h.journal = s.hif.journal) (hs : h.cmdSeq = s.hif.cmdSeq) :
    Told s { s with hif := h } := ⟨rfl, rfl, rfl, rfl, rfl, hj, hs, .of_regs rfl⟩

theorem told_tw (s : State) (h : TwSt) : Told s { s with tw := h } := ⟨rfl, rfl, rfl, rfl, rfl, rfl, rfl, .of_regs rfl⟩

theorem told_msi (s : State) (v : Nat) : Told s (s.msi v) := by
  unfold State.msi
  split
  · exact told_hif s rfl rfl
  · exact told_hif s rfl rfl

theorem told_signal (s : State) (r : Nat) : Told s (s.signal r) := by
  unfold State.signal
  simp only
  split
  · exact (told_hif s (by rfl) (by rfl)).trans (told_msi _ _)
  · exact told_hif s rfl rfl

theorem told_hostWrite (s : State) (a : Nat) (b : List Byte) : Told s (s.hostWrite a b) := told_hif s rfl rfl

theorem told_devIdx (s : State) (r v : Nat) (hr : r < 32) : Told s (s.fs F.HIF_RING_IDX_DEV_IDX r v) :=
  ⟨fs_time .., fs_sched .., fs_dueNext .., fs_detq .., fs_aud .., congrArg _ (fs_hif ..), congrArg _ (fs_hif ..),
    regsKept_fs s _ r v (List.mem_singleton.2 rfl) (by omega)⟩

theorem told_ringReturn (s : State) (r : Nat) (b : List Byte) (hr : r < 32) : Told s (s.ringReturn r b) :=
  (((told_hostWrite s _ _).trans (told_hostWrite _ _ _)).trans (told_devIdx _ r _ hr)).trans (told_signal _ _)

/-- The ring that takes the completions of another is one of the 32. -/
theorem pair_lt (s : State) (r : Nat) : s.fg F.HIF_RING_CFG_PAIR r < 32 := Nat.mod_lt _ (by decide)

theorem told_cplWrite (s : State) (c : Cpl) : Told s (s.cplWrite c) := by
  unfold State.cplWrite
  simp only
  split
  · exact told_hif s rfl rfl
  · split
    · exact (told_hif s (by rfl) (by rfl)).trans (told_ringReturn _ _ _ (pair_lt s _))
    · exact told_hif s rfl rfl

theorem told_flushAwait (l : List Await) (b : List Nat) (s : State) : Told s (flushAwait l b s).2 := by
  induction l generalizing b s with
  | nil => exact .refl s
  | cons a t ih =>
    unfold flushAwait
    split
    · split
      · exact ih b s
      · exact (told_cplWrite s _).trans (ih b _)
    · exact ih _ s

theorem told_flushFinals (l : List Cpl) (s : State) : Told s (flushFinals l s).2 := by
  induction l generalizing s with
  | nil => exact .refl s
  | cons c t ih =>
    unfold flushFinals
    split
    · exact .refl s
    · exact (told_cplWrite s c).trans (ih _)

theorem told_flush (s : State) : Told s s.flush := by
  unfold State.flush
  have h := told_flushAwait s.hif.await [] s
  generalize flushAwait s.hif.await [] s = q at *
  obtain ⟨k, t⟩ := q
  have g := told_flushFinals t.hif.finals ({ t with hif := { t.hif with await := k } } : State)
  exact ((h.trans (told_hif t (by rfl) (by rfl))).trans g).trans (told_hif _ rfl rfl)

theorem told_cplFirst (s : State) (c : Cpl) : Told s (s.cplFirst c) := by
  unfold State.cplFirst
  simp only
  split
  · exact (told_hif s (by rfl) (by rfl)).trans (told_flush _)
  · exact (told_hif s (by rfl) (by rfl)).trans (told_cplWrite _ _)

theorem told_cplFinal (s : State) (c : Cpl) : Told s (s.cplFinal c) := by
  unfold State.cplFinal
  simp only
  split
  · exact ⟨rfl, rfl, rfl, rfl, rfl, rfl, rfl, .of_regs rfl⟩
  · exact (told_hif s (by rfl) (by rfl)).trans (told_flush _)

theorem told_twSend (s : State) (ty : Nat) (both : Bool) (m : TwMsg) : Told s (s.twSend ty both m) := by
  unfold State.twSend State.twSendEach
  extract_lets up ls q x
  split
  · exact .refl s
  · exact told_tw s _

theorem told_twOutcome (s : State) (c : Cmd) (seq st : Nat) : Told s (s.twOutcome c seq st) := by
  unfold State.twOutcome
  split
  · exact told_twSend _ _ _ _
  · exact told_tw s _

theorem told_mirrorCmd (s : State) (code seq place : Nat) (c : Cmd) : Told s (s.mirrorCmd code seq place c) := by
  unfold State.mirrorCmd
  split
  · exact (told_tw s _).trans (told_twSend _ _ _ _)
  · exact .refl s

theorem told_refuse (s : State) (code : Nat) (c : Cmd) (seq : Nat) (k : Chk) : Told s (s.refuse code c seq k) :=
  (told_cplFirst _ _).trans (told_twOutcome _ _ _ _)

/-! ### The last completion formed -/

/-- The last completion formed and the final ones that wait stay. -/
structure SameCpls (s t : State) : Prop where
  last   : t.hif.lastCpl = s.hif.lastCpl
  finals : t.hif.finals = s.hif.finals

theorem msi_cpls (s : State) (v : Nat) : SameCpls s (s.msi v) := by
  unfold State.msi
  split
  · exact ⟨rfl, rfl⟩
  · exact ⟨rfl, rfl⟩

theorem signal_cpls (s : State) (r : Nat) : SameCpls s (s.signal r) := by
  unfold State.signal
  simp only
  split
  · exact ⟨(msi_cpls _ _).last, (msi_cpls _ _).finals⟩
  · exact ⟨rfl, rfl⟩

theorem ringReturn_cpls (s : State) (r : Nat) (b : List Byte) : SameCpls s (s.ringReturn r b) :=
  ⟨(signal_cpls _ _).last, (signal_cpls _ _).finals⟩

/-- A completion written is the last one formed. -/
theorem cplWrite_cpls (s : State) (c : Cpl) :
    (s.cplWrite c).hif.lastCpl = some c ∧ (s.cplWrite c).hif.finals = s.hif.finals := by
  unfold State.cplWrite
  simp only
  split
  · exact ⟨rfl, rfl⟩
  · split
    · exact ⟨(ringReturn_cpls _ _ _).last, (ringReturn_cpls _ _ _).finals⟩
    · exact ⟨rfl, rfl⟩

/-- One completion owed and no final one that waits: the flush writes it. -/
theorem lastCpl_flush {s : State} {r q : Nat} {c : Cpl} (ha : s.hif.await = [⟨r, q, some c⟩]) (hf : s.hif.finals = []) :
    s.flush.hif.lastCpl = some c := by
  obtain ⟨hlast, hfin⟩ := cplWrite_cpls s c
  rw [hf] at hfin
  unfold State.flush
  rw [ha]
  simp only [flushAwait, List.not_mem_nil, if_false, hfin, flushFinals]
  exact hlast

/-- The first completion of the only command that owes one is given at once, as is that of a command that owes none. -/
theorem lastCpl_cplFirst {s : State} {c : Cpl} (ha : s.hif.await = [] ∨ ∃ r, s.hif.await = [⟨r, c.seq, none⟩])
    (hf : s.hif.finals = []) : (s.cplFirst c).hif.lastCpl = some c := by
  unfold State.cplFirst
  simp only
  rcases ha with ha | ⟨r, ha⟩
  · rw [ha, if_neg (by simp)]
    exact (cplWrite_cpls _ c).1
  · rw [ha, if_pos (by simp)]
    exact lastCpl_flush (r := r) (q := c.seq) (by simp) hf

theorem lastCpl_twSend (s : State) (ty : Nat) (both : Bool) (m : TwMsg) : (s.twSend ty both m).hif = s.hif := by
  unfold State.twSend State.twSendEach
  extract_lets up ls q x
  split
  · rfl
  · rfl

theorem hif_twOutcome (s : State) (c : Cmd) (seq st : Nat) : (s.twOutcome c seq st).hif = s.hif := by
  unfold State.twOutcome
  split
  · exact lastCpl_twSend _ _ _ _
  · rfl

theorem hif_mirrorCmd (s : State) (code seq place : Nat) (c : Cmd) : (s.mirrorCmd code seq place c).hif = s.hif := by
  unfold State.mirrorCmd
  split
  · exact lastCpl_twSend _ _ _ _
  · rfl

/-! ### A command as it is taken -/

/-- A command taken by a block that owes no completion: it alone owes one, if it came over a ring. -/
structure TakenFrom (s t : State) : Prop where
  sched  : t.sched = s.sched
  due    : t.dueNext = s.dueNext
  seq    : t.hif.cmdSeq = s.hif.cmdSeq + 1
  await  : t.hif.await = [] ∨ ∃ r, t.hif.await = [⟨r, s.hif.cmdSeq, none⟩]
  finals : t.hif.finals = []

theorem hif_time (s : State) (x : TimeSt) : ({ s with time := x } : State).hif = s.hif := rfl

theorem sched_time (s : State) (x : TimeSt) : ({ s with time := x } : State).sched = s.sched := rfl

theorem hif_elapse (s : State) (dt : Nat) : (s.elapse dt).hif = s.hif := by
  unfold State.elapse
  extract_lets d t
  split
  · rfl
  · exact (hif_time t _).trans (hif_time s _)

theorem sched_elapse (s : State) (dt : Nat) : (s.elapse dt).sched = s.sched := by
  unfold State.elapse
  extract_lets d t
  split
  · rfl
  · exact (sched_time t _).trans (sched_time s _)

theorem taken_from {s : State} (c : Cmd) (ha : s.hif.await = []) (hf : s.hif.finals = []) : TakenFrom s (s.taken c) := by
  have hh := hif_elapse s c.dt
  unfold State.taken State.takeCmd
  simp only
  split
  · exact ⟨sched_elapse s _, (elapse_queue s _).due, by rw [hh], .inr ⟨c.ring, by rw [hh, ha]; rfl⟩, by rw [hh, hf]⟩
  · exact ⟨sched_elapse s _, (elapse_queue s _).due, by rw [hh], .inl (by rw [hh, ha]), by rw [hh, hf]⟩

theorem takeCmd_elapse (s : State) (c : Cmd) : (s.elapse c.dt).takeCmd c = (s.hif.cmdSeq, s.taken c) := by
  unfold State.taken
  rw [← hif_elapse s c.dt]
  rfl

/-- A command arrives at a block that serves commands. -/
theorem submit_served {code : Nat} {chk : Cmd → State → Chk} {c : Cmd} {s : State} (h : s.noCmds = false) :
    submit code chk c s
      = if preCheck code c (s.taken c) ≠ Sts.OK then (s.taken c).refuse code c s.hif.cmdSeq (preCheck code c (s.taken c), [])
        else if (chk c (s.taken c)).1 ≠ Sts.OK then (s.taken c).refuse code c s.hif.cmdSeq (chk c (s.taken c))
        else (s.taken c).placeCmd code c s.hif.cmdSeq := by
  unfold submit
  rw [h, if_neg (by decide)]
  simp only [takeCmd_elapse]

/-! ### Refusals -/

/-- A refusal gives one completion, with its status and no generation. -/
theorem refuse_spec {s t : State} (h : TakenFrom s t) (code : Nat) (c : Cmd) (k : Chk) :
    let u := t.refuse code c s.hif.cmdSeq k
    u.hif.cmdSeq = s.hif.cmdSeq + 1 ∧ u.sched = s.sched ∧ u.dueNext = s.dueNext
      ∧ ∃ x, u.hif.lastCpl = some x ∧ x.tag = c.tag ∧ x.code = code ∧ x.gen = 0 ∧ x.armed = false ∧ x.status = k.1 := by
  have ht := told_refuse t code c s.hif.cmdSeq k
  refine ⟨ht.seq.trans h.seq, ht.sched.trans h.sched, ht.due.trans h.due,
    ⟨s.hif.cmdSeq, if c.src = 0 then c.ring else 255, c.tag, code, false, false, k.1, 0, c.db, t.mts, k.2⟩, ?_,
    rfl, rfl, rfl, rfl, rfl⟩
  unfold State.refuse
  rw [hif_twOutcome]
  exact lastCpl_cplFirst h.await h.finals

/-! ### Armed commands -/

theorem hif_genFor (s : State) (code : Nat) (c : Cmd) : (s.genFor code c).2.hif = s.hif := by
  unfold State.genFor
  split
  · exact fs_hif ..
  · rfl

theorem sched_genFor (s : State) (code : Nat) (c : Cmd) : (s.genFor code c).2.sched = s.sched := by
  unfold State.genFor
  split
  · exact fs_sched ..
  · rfl

/-- The entry under which a command with a target waits (R24 - R26, R29). -/
def State.armedEntry (t : State) (code : Nat) (c : Cmd) (seq : Nat) : Entry :=
  ⟨code, c, (t.genFor code c).1, seq, (t.extTarget c).toNat, placeOf code (t.extTarget c).toNat,
    c.long && decide ((t.genFor code c).2.now + secNs < (t.extTarget c).toNat), false, false, false⟩

/-- The completion that a command with a target has as it is armed (R28, R278). -/
def Entry.armedCpl (e : Entry) : Cpl := { (e.cpl Sts.OK (mtsOf e.place) []) with armed := true }

section
variable {t : State} {code : Nat} {c : Cmd} {seq : Nat}

theorem placeCmd_armed (hc : c.tgt = true) (hx : (t.now : Int) ≤ t.extTarget c) (hp : t.now < placeOf code (t.extTarget c).toNat)
    (hl : t.sched.length < 1024) :
    t.placeCmd code c seq
      = (({ (t.genFor code c).2 with sched := (t.genFor code c).2.sched ++ [t.armedEntry code c seq] } : State).mirrorCmd code seq
          (placeOf code (t.extTarget c).toNat) c).cplFirst (t.armedEntry code c seq).armedCpl := by
  unfold State.placeCmd
  rw [hc]
  simp only [Bool.not_true, Bool.false_eq_true, if_false]
  rw [if_neg (by omega), if_neg (by omega)]
  rfl

theorem placeCmd_full (hc : c.tgt = true) (hx : (t.now : Int) ≤ t.extTarget c) (hp : t.now < placeOf code (t.extTarget c).toNat)
    (hl : 1024 ≤ t.sched.length) :
    t.placeCmd code c seq = (t.refuse code c seq (Sts.MT_SCHED_FULL, [])).det 0x33 0 0 0 0 := by
  unfold State.placeCmd
  rw [hc]
  simp only [Bool.not_true, Bool.false_eq_true, if_false]
  rw [if_neg (by omega), if_pos (by omega)]

end

/-- A command with a target is armed under its placement instant, and its completion says so. -/
theorem placeCmd_armed_spec {s t : State} (h : TakenFrom s t) {code : Nat} {c : Cmd} (hc : c.tgt = true)
    (hx : (t.now : Int) ≤ t.extTarget c) (hp : t.now < placeOf code (t.extTarget c).toNat) (hl : t.sched.length < 1024) :
    let e := t.armedEntry code c s.hif.cmdSeq
    let u := t.placeCmd code c s.hif.cmdSeq
    u.sched = s.sched ++ [e] ∧ u.dueNext = s.dueNext ∧ u.hif.lastCpl = some e.armedCpl := by
  intro e u
  have hu : u = _ := placeCmd_armed hc hx hp hl
  rw [hu]
  generalize hw : ({ (t.genFor code c).2 with sched := (t.genFor code c).2.sched ++ [t.armedEntry code c s.hif.cmdSeq] } : State) = w
  have hm := (told_mirrorCmd w code s.hif.cmdSeq (placeOf code (t.extTarget c).toNat) c).trans (told_cplFirst _ e.armedCpl)
  have wsched : w.sched = s.sched ++ [e] := by rw [← hw, ← h.sched, ← sched_genFor t code c]
  have wdue : w.dueNext = s.dueNext := by rw [← hw, ← h.due, ← (genFor_queue t code c).due]
  have whif : w.hif = t.hif := by rw [← hw, ← hif_genFor t code c]
  refine ⟨hm.sched.trans wsched, hm.due.trans wdue, lastCpl_cplFirst ?_ ?_⟩
  · rw [hif_mirrorCmd, whif]
    exact h.await
  · rw [hif_mirrorCmd, whif]
    exact h.finals

/-! ### The end of a command -/

theorem hif_showPending (s : State) : s.showPending.hif = s.hif := by
  unfold State.showPending
  rw [fs_hif, fs_hif]

theorem hif_logRecord (s : State) (gen code source : Nat) (full : Bool) : (s.logRecord gen code source full).hif = s.hif := by
  unfold State.logRecord
  extract_lets now r fits
  exact hif_showPending _

/-- The newest entry stays in the journal. -/
theorem journal_getLast (s : State) (e : JEntry) : (s.journal e).hif.journal.getLast? = some e := by
  unfold State.journal
  simp only [List.getLast?_drop]
  rw [if_neg (by simp), List.getLast?_append]
  rfl

theorem told_finishCpl (s : State) (e : Entry) (c d : Cpl) (status : Nat) :
    Told s ((if e.imm || e.late then s.cplFirst c else s.cplFinal d).twOutcome e.cmd e.seq status) := by
  refine .trans ?_ (told_twOutcome _ _ _ _)
  split
  · exact told_cplFirst _ _
  · exact told_cplFinal _ _

theorem journal_finish_of_gen (e : Entry) (s : State) (status : Nat) (result : List Nat) (full : Bool) (h : e.gen ≠ 0) :
    ∃ x, (s.finish e status result full).hif.journal.getLast? = some x ∧ x.gen = e.gen ∧ x.code = e.code ∧ x.status = status
      ∧ x.source = e.cmd.src ∧ x.tag = e.cmd.tag := by
  unfold State.finish State.finishAs
  extract_lets c0 c t
  rw [if_neg h, hif_logRecord]
  exact ⟨_, journal_getLast _ _, rfl, rfl, rfl, rfl, rfl⟩

theorem journal_finish_of_no_gen (e : Entry) (s : State) (status : Nat) (result : List Nat) (full : Bool) (h : e.gen = 0) :
    (s.finish e status result full).hif.journal = s.hif.journal := by
  unfold State.finish State.finishAs
  extract_lets c0 c t
  rw [if_pos h]
  exact (told_finishCpl s e _ _ _).journal

theorem nextGen_range (n : Nat) : nextGen n ≠ 0 ∧ nextGen n < 2 ^ 32 := by
  unfold nextGen
  split
  · exact ⟨by decide, by decide⟩
  · exact ⟨by omega, by omega⟩

/-- Settles O6: a completion leaves the lists of waiting commands (`Told`), and where no other is owed it is the last one formed. -/
theorem commandsAreRefusedPlacedAndJournaled : Obligations.CommandsAreRefusedPlacedAndJournaled := by
  unfold Obligations.CommandsAreRefusedPlacedAndJournaled
  refine ⟨fun code chk c s hs ha hf hbad => ?_, fun code chk c s hs hpre hown hc ha hf hx hp => ⟨fun hl => ?_, fun hl => ?_⟩,
    journal_finish_of_gen, journal_finish_of_no_gen, nextGen_range⟩
  · have ht := taken_from c ha hf
    rw [submit_served hs]
    by_cases hpre : preCheck code c (s.taken c) ≠ Sts.OK
    · rw [if_pos hpre, if_pos hpre]
      exact refuse_spec ht code c _
    · rw [if_neg hpre, if_neg hpre, if_pos (hbad.resolve_left hpre)]
      exact refuse_spec ht code c _
  · have ht := taken_from c ha hf
    obtain ⟨hsched, hdue, hcpl⟩ := placeCmd_armed_spec ht hc hx hp (by rw [ht.sched]; exact hl)
    rw [submit_served hs, if_neg (not_not.2 hpre), if_neg (not_not.2 hown)]
    exact ⟨_, _, hsched, rfl, rfl, rfl, rfl, rfl, hdue, hcpl, rfl, rfl, rfl, rfl⟩
  · have ht := taken_from c ha hf
    obtain ⟨-, hsched, -, x, hcpl, -, -, hgen, -, hstatus⟩ := refuse_spec ht code c (Sts.MT_SCHED_FULL, [])
    rw [submit_served hs, if_neg (not_not.2 hpre), if_neg (not_not.2 hown), placeCmd_full hc hx hp (by rw [ht.sched]; exact hl)]
    exact ⟨hsched, x, hcpl, hstatus, hgen⟩

end Sys2Proof.Machine
end

