-- ==== Sys2Proof/Proofs/Epochs.lean ====
section
/-! Epochs (R16, R20): what the end of commands, of a sweep and of the acquisition leave of Media Time, and the restart. -/

namespace Sys2Proof.Machine

/-! ### What leaves the epoch -/

/-- Media Time, the armed events, the signal path and MT_EPOCH stay. -/
structure SameEpoch (s t : State) : Prop where
  time  : t.time = s.time
  sched : t.sched = s.sched
  aud   : t.aud = s.aud
  epoch : t.rr .MT_EPOCH 0 = s.rr .MT_EPOCH 0

theorem SameEpoch.refl (s : State) : SameEpoch s s := ⟨rfl, rfl, rfl, rfl⟩

theorem SameEpoch.trans {s t u : State} (h : SameEpoch s t) (k : SameEpoch t u) : SameEpoch s u :=
  ⟨k.time.trans h.time, k.sched.trans h.sched, k.aud.trans h.aud, k.epoch.trans h.epoch⟩

theorem SameEpoch.ite {c : Prop} [Decidable c] {s t u : State} (ht : SameEpoch s t) (hu : SameEpoch s u) :
    SameEpoch s (if c then t else u) := by
  split
  · exact ht
  · exact hu

theorem SameEpoch.foldl {α : Type} {f : State → α → State} (l : List α) (h : ∀ s, ∀ a ∈ l, SameEpoch s (f s a)) (s : State) :
    SameEpoch s (l.foldl f s) := foldl_frame SameEpoch .refl .trans f l h s

theorem Told.sameEpoch {s t : State} (h : Told s t) : SameEpoch s t :=
  ⟨h.time, h.sched, h.aud, h.regs .MT_EPOCH 0 (by decide) (by decide)⟩

theorem epoch_fs (s : State) (f : Fld) (i v : Nat) (hf : f.reg ≠ .MT_EPOCH) (hi : i < 2048) : SameEpoch s (s.fs f i v) :=
  ⟨fs_time .., fs_sched .., fs_aud .., rr_fs_other s f _ i 0 v hi (by decide) (.inl hf.symm)⟩

theorem epoch_drv (s : State) (x : DrvSt) : SameEpoch s { s with drv := x } := ⟨rfl, rfl, rfl, rfl⟩
theorem epoch_wh (s : State) (x : WhSt) : SameEpoch s { s with wh := x } := ⟨rfl, rfl, rfl, rfl⟩
theorem epoch_tw (s : State) (x : TwSt) : SameEpoch s { s with tw := x } := ⟨rfl, rfl, rfl, rfl⟩
theorem epoch_hif (s : State) (x : HifSt) : SameEpoch s { s with hif := x } := ⟨rfl, rfl, rfl, rfl⟩
theorem epoch_ret (s : State) (x : RwSt) : SameEpoch s { s with ret := x } := ⟨rfl, rfl, rfl, rfl⟩

theorem epoch_journal (s : State) (e : JEntry) : SameEpoch s (s.journal e) := epoch_hif s _

theorem epoch_showPending (s : State) : SameEpoch s s.showPending :=
  (epoch_fs s _ _ _ (by decide) (by decide)).trans (epoch_fs _ _ _ _ (by decide) (by decide))

theorem epoch_logRecord (s : State) (gen code source : Nat) (full : Bool) : SameEpoch s (s.logRecord gen code source full) := by
  unfold State.logRecord
  extract_lets now r fits
  exact (epoch_ret s _).trans (epoch_showPending _)

theorem epoch_finish (s : State) (e : Entry) (status : Nat) (result : List Nat) (full : Bool) :
    SameEpoch s (s.finish e status result full) := by
  unfold State.finish State.finishAs
  extract_lets c0 c t
  have ht : SameEpoch s t := (told_finishCpl s e _ _ _).sameEpoch
  exact .ite ht ((ht.trans (epoch_journal _ _)).trans (epoch_logRecord _ _ _ _ _))

theorem epoch_cancelAll (s : State) (l : List Entry) : SameEpoch s (s.cancelAll l) := by
  induction l generalizing s with
  | nil => exact .refl s
  | cons e t ih =>
    refine SameEpoch.trans ?_ (ih _)
    unfold State.cancel
    exact .trans (.ite (epoch_fs s _ _ _ (by decide) (by decide)) (.refl s)) (epoch_finish _ _ _ _ _)

theorem mem_ringsOf {s : State} {ty r : Nat} (h : r ∈ s.ringsOf ty) : r < 32 := List.mem_range.1 (List.mem_filter.1 h).1

theorem epoch_post (s : State) (typ source : Nat) (p : List Byte) : SameEpoch s (s.post typ source p) := by
  unfold State.post State.postAt
  simp only
  split
  · next r l hr =>
    have hlt : r < 32 := mem_ringsOf (by rw [hr]; exact List.mem_cons_self)
    split
    · exact ((epoch_hif s _).trans (epoch_hif _ _)).trans (epoch_fs _ _ _ _ (by decide) (by decide))
    · exact ((epoch_hif s _).trans (epoch_hif _ _)).trans (told_ringReturn _ _ _ hlt).sameEpoch
  · exact ((epoch_hif s _).trans (epoch_hif _ _)).trans (epoch_fs _ _ _ _ (by decide) (by decide))

theorem epoch_sweepEnd (s : State) (w : Sweep) (status st ended : Nat) : SameEpoch s (s.sweepEnd w status st ended) := by
  unfold State.sweepEnd
  extract_lets t flagged u _ v x take _ y z
  have hu : SameEpoch s u := .trans (.foldl _ (fun s _ _ => .foldl _ (fun s _ _ => epoch_drv s _) s) s)
    ((epoch_drv t _).trans (epoch_fs _ _ _ _ (by decide) (by decide)))
  have hx : SameEpoch s x := (hu.trans (epoch_drv u _)).trans (epoch_post v _ _ _)
  have hz : SameEpoch s z := (hx.trans (epoch_drv x _)).trans (epoch_finish y _ _ _ _)
  refine .ite (hz.trans (.foldl _ (fun s e _ => .ite (.refl s) ?_) z)) (hx.trans (epoch_finish _ _ _ _ _))
  exact (epoch_drv s _).trans (epoch_finish _ _ _ _ _)

theorem epoch_sweepAbort (s : State) : SameEpoch s s.sweepAbort := by
  unfold State.sweepAbort
  split
  · exact .ite (epoch_sweepEnd _ _ _ _ _) (.refl s)
  · exact .refl s

theorem epoch_setMode (s : State) (m : Nat) : SameEpoch s (s.setMode m) := by
  unfold State.setMode
  extract_lets t _ u
  have hu : SameEpoch s u := (epoch_fs s _ _ _ (by decide) (by decide)).trans (epoch_wh _ _)
  refine .ite (hu.trans (.foldl _ (fun s n hn => .ite ?_ (.refl s)) u)) hu
  have := List.mem_range.1 hn
  exact ((epoch_wh s _).trans (epoch_fs _ _ _ _ (by decide) (by omega))).trans (epoch_fs _ _ _ _ (by decide) (by omega))

theorem epoch_showPwr (s : State) : SameEpoch s s.showPwr := by
  unfold State.showPwr
  extract_lets l
  cases l with
  | cons e l => exact (epoch_fs s _ _ _ (by decide) (by decide)).trans (epoch_fs _ _ _ _ (by decide) (by decide))
  | nil => exact epoch_fs s _ _ _ (by decide) (by decide)

theorem epoch_hoStart (s : State) : SameEpoch s s.hoStart := by
  unfold State.hoStart
  extract_lets f t
  exact .ite (.refl s) ((told_twSend s _ _ _).sameEpoch.trans (epoch_tw _ _))

theorem epoch_standbySuspect (s : State) : SameEpoch s s.standbySuspect := by
  unfold State.standbySuspect State.toSuspect
  extract_lets t
  exact .ite ((((epoch_fs s _ _ _ (by decide) (by decide)).trans (epoch_fs _ _ _ _ (by decide) (by decide))).trans
    (epoch_fs _ _ _ _ (by decide) (by decide))).trans (epoch_tw _ _)) (.refl s)

/-! ### The restart -/

/-- Two fields that share no bit, both within a word. -/
def Fld.clear (f g : Fld) : Bool :=
  decide (f.lo ≤ f.hi) && decide (f.hi < 32) && decide (g.lo ≤ g.hi) && (g.reg != f.reg || f.apart g)

/-- A field reads as before where one that shares no bit with it was written. -/
theorem fg_fs_clear (s : State) {f g : Fld} {i j v : Nat} (h : f.clear g = true) (hi : i < 2048) (hj : j < 2048) :
    (s.fs f i v).fg g j = s.fg g j := by
  unfold Fld.clear at h
  simp only [Bool.and_eq_true, Bool.or_eq_true, decide_eq_true_eq, bne_iff_ne] at h
  obtain ⟨⟨⟨hl, hh⟩, gl⟩, ho⟩ := h
  by_cases hr : g.reg = f.reg
  · by_cases hij : j = i
    · rw [hij]
      exact fg_fs_apart s f g i v hr hl hh gl (ho.resolve_left (not_not.2 hr))
    · exact fg_fs_other s f g i j v hi hj (.inr hij)
  · exact fg_fs_other s f g i j v hi hj (.inl hr)

/-- The block as the new epoch begins: nothing is armed, the outputs are muted and Media Time runs on (R16, R20). -/
def State.epochBegun (s : State) : State :=
  { s with
    sched := [], dueNext := s.dueNext.filter (fun x => x.imm),
    aud := { s.aud with fadeTick := if s.aud.muted && !s.voiceOnly then s.aud.fadeTick else s.time.tick
                        fadeZ := if s.aud.muted && !s.voiceOnly then s.aud.fadeZ else s.voiceOnly
                        muted := true },
    time := { s.time with
      epochMt := (s.now : Int), eligMt := (s.now : Int) + 41666, freeWait := false, first := false } }

/-- MT_EPOCH as the restart leaves it: the count moves on, the window opens, and nothing is stepped or released (R16, R17). -/
def State.epochCounted (s : State) : State :=
  (((s.fs F.MT_EPOCH_EPOCH 0 (s.fg F.MT_EPOCH_EPOCH 0 + 1)).fs F.MT_EPOCH_WINDOW 0 1).fs F.MT_EPOCH_STEPPED 0 0).fs
    F.MT_EPOCH_RELEASED 0 0

theorem epoch_epochCounted (s : State) : s.epochCounted.fg F.MT_EPOCH_EPOCH 0 = (s.fg F.MT_EPOCH_EPOCH 0 + 1) % 65536 := by
  unfold State.epochCounted
  rw [fg_fs_clear, fg_fs_clear, fg_fs_clear, fg_fs_same _ _ _ _ (by decide) (by decide)]
  · rfl
  all_goals decide

/-- The state that the restart leaves is the one in which MT_EPOCH was counted, but for what a command's end and the twin write. -/
theorem applyEpochRestart_epochs (e : Entry) (s : State) :
    ∃ u, SameEpoch s.epochBegun u ∧ SameEpoch u.epochCounted (applyEpochRestart e s) := by
  unfold applyEpochRestart
  extract_lets gone _ _ t u n v w
  refine ⟨u, (epoch_cancelAll t gone).trans (epoch_sweepAbort _), ?_⟩
  have hw : SameEpoch u.epochCounted w := ((epoch_setMode v 0).trans (epoch_finish _ _ _ _ _)).trans (epoch_showPwr _)
  exact .ite (hw.trans (epoch_hoStart w)) (hw.trans (epoch_standbySuspect w))

theorem epochCounted_keeps (s : State) :
    s.epochCounted.time = s.time ∧ s.epochCounted.sched = s.sched ∧ s.epochCounted.aud = s.aud := by
  unfold State.epochCounted
  refine ⟨?_, ?_, ?_⟩
  · rw [fs_time, fs_time, fs_time, fs_time]
  · rw [fs_sched, fs_sched, fs_sched, fs_sched]
  · rw [fs_aud, fs_aud, fs_aud, fs_aud]

theorem fg_of_rr {s t : State} {f : Fld} {i : Nat} (h : t.rr f.reg i = s.rr f.reg i) : t.fg f i = s.fg f i := by
  unfold State.fg
  rw [h]

theorem now_of_time_eq {s t : State} (h : t.time.sec = s.time.sec) (k : t.time.ns = s.time.ns) : t.now = s.now := by
  unfold State.now
  rw [h, k]

/-- Settles O7: what a restart does beside counting leaves the epoch (`SameEpoch`). -/
theorem epochsAreCounted : Obligations.EpochsAreCounted := by
  refine ⟨by decide, rfl, rfl, fun c s h => ⟨_, rfl, submit_placed h⟩, fun e s => ?_⟩
  obtain ⟨u, hu, ht⟩ := applyEpochRestart_epochs e s
  obtain ⟨ktime, ksched, kaud⟩ := epochCounted_keeps u
  have time := (ht.time.trans ktime).trans hu.time
  have sched := (ht.sched.trans ksched).trans hu.sched
  have aud := (ht.aud.trans kaud).trans hu.aud
  refine ⟨?_, by rw [time]; rfl, by rw [time]; rfl, sched, by rw [aud]; rfl, by rw [time]; rfl,
    now_of_time_eq (by rw [time]; rfl) (by rw [time]; rfl)⟩
  rw [fg_of_rr ht.epoch, epoch_epochCounted, fg_of_rr (f := F.MT_EPOCH_EPOCH) hu.epoch]
  rfl

end Sys2Proof.Machine
end

