-- ==== Sys2Proof/Proofs/MediaTime.lean ====
section
/-! Media Time watched and read (R13, R21, R34, R100), its step and its rate (R15, R18, R19). -/

namespace Sys2Proof.Machine

/-! ### Skew, integrity and the wait for lock -/

/-- What a calibration makes of the delay shown (R100): the first takes it whole, a later one corrects it by at most 0.25 ns. -/
def State.skewGoal (s : State) (d delay : Nat) : Nat :=
  if s.fb F.MT_SKEW_CAL d then max (s.fg F.MT_SKEW_DELAY d - 2) (min (s.fg F.MT_SKEW_DELAY d + 2) (min delay 65535))
  else min delay 65535

/-- The block with the delay of an engine die shown. -/
def State.skewShown (s : State) (d delay : Nat) : State :=
  (s.fs F.MT_SKEW_DELAY d (s.skewGoal d delay)).fs F.MT_SKEW_CAL d 1

theorem exec_skewCalibration {d : Nat} (delay k : Nat) (s : State) (hd : d < 2) : exec (.skewCalibration d delay k) s
    = .next (if k > 64 then (s.skewShown d delay).det 0x32 d 0 0 0 else s.skewShown d delay) :=
  congrArg Host.Outcome.next (if_pos hd)

theorem fg_lt (s : State) (f : Fld) (i : Nat) : s.fg f i < 2 ^ (f.hi + 1 - f.lo) := Nat.mod_lt _ (Nat.two_pow_pos _)

theorem skewGoal_lt (s : State) (d delay : Nat) : s.skewGoal d delay < 65536 := by
  have h : s.fg F.MT_SKEW_DELAY d < 65536 := fg_lt s F.MT_SKEW_DELAY d
  unfold State.skewGoal
  split
  · omega
  · omega

theorem delay_skewShown (s : State) {d : Nat} (delay : Nat) (hd : d < 2) :
    (s.skewShown d delay).fg F.MT_SKEW_DELAY d = s.skewGoal d delay :=
  (fg_fs_clear _ (by decide) (by omega) (by omega)).trans
    ((fg_fs_same _ _ _ _ (by decide) (by decide)).trans (Nat.mod_eq_of_lt (skewGoal_lt s d delay)))

theorem cal_skewShown (s : State) (d delay : Nat) : (s.skewShown d delay).fg F.MT_SKEW_CAL d = 1 :=
  fg_fs_same _ _ _ _ (by decide) (by decide)

theorem skewGoal_of_first {s : State} {d : Nat} (delay : Nat) (h : s.fg F.MT_SKEW_CAL d = 0) :
    s.skewGoal d delay = min delay 65535 := by
  unfold State.skewGoal State.fb
  rw [h]
  rfl

theorem skewGoal_of_calibrated {s : State} {d : Nat} (delay : Nat) (h : s.fg F.MT_SKEW_CAL d = 1) : s.skewGoal d delay
    = max (s.fg F.MT_SKEW_DELAY d - 2) (min (s.fg F.MT_SKEW_DELAY d + 2) (min delay 65535)) := by
  unfold State.skewGoal State.fb
  rw [h]
  rfl

theorem detq_skewShown (s : State) (d delay : Nat) : (s.skewShown d delay).detq = s.detq := (fs_detq ..).trans (fs_detq ..)

theorem mts_of_time {s t : State} (h : t.time = s.time) : t.mts = s.mts := by
  unfold State.mts State.now
  rw [h]

theorem mts_skewShown (s : State) (d delay : Nat) : (s.skewShown d delay).mts = s.mts :=
  mts_of_time ((fs_time ..).trans (fs_time ..))

theorem detq_det (s : State) (fam inst subj kind detail : Nat) :
    (s.det fam inst subj kind detail).detq = s.detq ++ [⟨fam, inst, subj, kind, detail, s.mts, false, false, 0⟩] := rfl

theorem fg_det (s : State) (fam inst subj kind detail : Nat) (f : Fld) (i : Nat) :
    (s.det fam inst subj kind detail).fg f i = s.fg f i := rfl

/-- The state a calibration leaves shows the delay, whether or not the skew is reported. -/
theorem skewCalibration_shows (d delay k : Nat) (s : State) (hd : d < 2) : Completes (.skewCalibration d delay k) s (fun t =>
    t.fg F.MT_SKEW_DELAY d = s.skewGoal d delay ∧ t.fg F.MT_SKEW_CAL d = 1
      ∧ t.detq = if 64 < k then s.detq ++ [⟨0x32, d, 0, 0, 0, s.mts, false, false, 0⟩] else s.detq) := by
  refine ⟨_, exec_skewCalibration delay k s hd, ?_⟩
  by_cases hk : 64 < k
  · rw [if_pos hk, if_pos hk]
    refine ⟨(fg_det ..).trans (delay_skewShown s delay hd), (fg_det ..).trans (cal_skewShown s d delay), (detq_det ..).trans ?_⟩
    rw [mts_skewShown, detq_skewShown]
  · rw [if_neg hk, if_neg hk]
    exact ⟨delay_skewShown s delay hd, cal_skewShown s d delay, detq_skewShown s d delay⟩

/-! ### The read of MT_NS -/

/-- The registers that a read of MT_NS captures (R13). -/
theorem mtRead_regs (s : State) :
    s.mtRead.rr .MT_NS 0 = s.time.ns ∧ s.mtRead.rr .MT_SEC_LO 0 = BitVec.ofNat 32 (s.time.sec.toNat % 2 ^ 32)
      ∧ s.mtRead.rr .MT_SEC_HI 0 = BitVec.ofNat 32 (s.time.sec.toNat / 2 ^ 32) ∧ s.mtRead.rr .MT_FRAC 0 = s.time.frac
      ∧ s.mtRead.rr .MT_TICKNO 0 = BitVec.ofNat 32 s.tickno := by
  unfold State.mtRead
  refine ⟨?_, ?_, ?_, ?_, ?_⟩
  all_goals simp [rr_rw]

theorem mtRead_kept (s : State) : RegsKept [.MT_NS, .MT_SEC_LO, .MT_SEC_HI, .MT_FRAC, .MT_TICKNO] s s.mtRead :=
  ((((regsKept_rw s _ _ _ (by decide) (by decide)).trans (regsKept_rw _ _ _ _ (by decide) (by decide))).trans
    (regsKept_rw _ _ _ _ (by decide) (by decide))).trans (regsKept_rw _ _ _ _ (by decide) (by decide))).trans
    (regsKept_rw _ _ _ _ (by decide) (by decide))

theorem time_mtRead (s : State) : s.mtRead.time = s.time := by
  unfold State.mtRead
  rw [rw_time, rw_time, rw_time, rw_time, rw_time]

theorem regs_time (s : State) (x : TimeSt) : ({ s with time := x } : State).regs = s.regs := rfl

theorem regs_elapse (s : State) (dt : Nat) : (s.elapse dt).regs = s.regs := by
  unfold State.elapse
  extract_lets d t
  split
  · rfl
  · exact (regs_time t _).trans (regs_time s _)

theorem sec_words (x : BitVec 48) :
    (BitVec.ofNat 32 (x.toNat % 2 ^ 32)).toNat + 2 ^ 32 * (BitVec.ofNat 32 (x.toNat / 2 ^ 32)).toNat = x.toNat := by
  have := x.isLt
  rw [BitVec.toNat_ofNat, BitVec.toNat_ofNat]
  omega

/-- A state with the registers and Media Time of the capture holds the whole counter. -/
theorem mtRead_captures {s t : State} (hr : t.regs = s.mtRead.regs) (ht : t.time = s.mtRead.time) :
    t.time = s.time ∧ t.rr .MT_NS 0 = t.time.ns
      ∧ (t.rr .MT_SEC_LO 0).toNat + 2 ^ 32 * (t.rr .MT_SEC_HI 0).toNat = t.time.sec.toNat
      ∧ t.rr .MT_FRAC 0 = t.time.frac ∧ t.rr .MT_TICKNO 0 = BitVec.ofNat 32 s.tickno
      ∧ RegsKept [.MT_NS, .MT_SEC_LO, .MT_SEC_HI, .MT_FRAC, .MT_TICKNO] s t := by
  obtain ⟨hns, hlo, hhi, hfrac, htick⟩ := mtRead_regs s
  have htime : t.time = s.time := ht.trans (time_mtRead s)
  refine ⟨htime, ?_, ?_, ?_, ?_, (mtRead_kept s).trans (.of_regs hr)⟩
  · rw [rr_of_regs hr, htime, hns]
  · rw [rr_of_regs hr, rr_of_regs hr, htime, hlo, hhi, sec_words]
  · rw [rr_of_regs hr, htime, hfrac]
  · rw [rr_of_regs hr, htick]

theorem regs_hif (s : State) (h : HifSt) : ({ s with hif := h } : State).regs = s.regs := rfl

theorem time_hif (s : State) (h : HifSt) : ({ s with hif := h } : State).time = s.time := rfl

theorem mtNsRead_captures (dt : Nat) (s : State) : Completes (.mtNsRead dt) s (fun t =>
    t.time = (s.elapse dt).time ∧ t.hif.rdata = t.time.ns.toNat ∧ t.rr .MT_NS 0 = t.time.ns
      ∧ (t.rr .MT_SEC_LO 0).toNat + 2 ^ 32 * (t.rr .MT_SEC_HI 0).toNat = t.time.sec.toNat
      ∧ t.rr .MT_FRAC 0 = t.time.frac ∧ t.rr .MT_TICKNO 0 = BitVec.ofNat 32 (s.elapse dt).tickno
      ∧ RegsKept [.MT_NS, .MT_SEC_LO, .MT_SEC_HI, .MT_FRAC, .MT_TICKNO] s t) := by
  have e : exec (.mtNsRead dt) s = .next
      { (s.elapse dt).mtRead with hif := { (s.elapse dt).hif with rdata := (s.elapse dt).time.ns.toNat } } := rfl
  refine ⟨_, e, ?_⟩
  have hreg : RegsKept [.MT_NS, .MT_SEC_LO, .MT_SEC_HI, .MT_FRAC, .MT_TICKNO] s (s.elapse dt) := .of_regs (regs_elapse s dt)
  generalize s.elapse dt = u at *
  obtain ⟨htime, hns, hsec, hfrac, htick, hkept⟩ := mtRead_captures (regs_hif u.mtRead _) (time_hif u.mtRead _)
  exact ⟨htime, congrArg (fun x : TimeSt => x.ns.toNat) htime.symm, hns, hsec, hfrac, htick, hreg.trans hkept⟩

/-- Settles O16: the fields and registers that each event writes, read back. -/
theorem mediaTimeIsWatchedAndRead : Obligations.MediaTimeIsWatchedAndRead := by
  refine ⟨⟨fun d delay k s hd => ?_, fun s => ⟨rfl, rfl, rfl, rfl⟩⟩, mtNsRead_captures,
    fun s h => congrArg Host.Outcome.next (if_pos h)⟩
  obtain ⟨t, e, hdelay, hcal, hdet⟩ := skewCalibration_shows d delay k s hd
  exact ⟨t, e, fun h => hdelay.trans (skewGoal_of_first delay h), fun h => hdelay.trans (skewGoal_of_calibrated delay h), hcal, hdet⟩

/-! ### The step -/

theorem tickAt_succ (n : Nat) :
    tickAt (n + 1) = tickAt n ∨ tickAt (n + 1) = tickAt n + 1 ∧ tickStart (tickAt (n + 1)) = n + 1 := by
  unfold tickStart tickAt
  omega

/-- The first tick start after an instant and a fraction is the first one at or after the next nanosecond. -/
theorem roundTick_succ (n : Nat) : roundTick (n + 1) = nextTick n := by
  have h1 := tickStart_tickAt_le n
  unfold roundTick nextTick
  rcases tickAt_succ n with h | ⟨h, hs⟩
  · rw [h, if_neg (by omega)]
  · rw [if_pos hs, ← h, hs]

theorem roundTick_eq_self (n : Nat) : roundTick n = n ↔ tickStart (tickAt n) = n := by
  have h := lt_nextTick n
  unfold roundTick
  split
  · next hs => exact ⟨fun _ => hs, fun _ => rfl⟩
  · next hs => exact ⟨fun hn => absurd hn (by omega), fun hn => absurd hn hs⟩

theorem roundTick_of_ne {n : Nat} (h : roundTick n ≠ n) : roundTick n = nextTick n :=
  if_neg fun hs => h ((roundTick_eq_self n).2 hs)

/-- The count and the fraction that a step by an offset and a fraction leads to (R18). -/
def State.stepFull (s : State) (off : Int) (frac : Nat) : Nat := ((s.now : Int) + off).toNat + (s.time.frac.toNat + frac) / 2 ^ 32
def State.stepFrac (s : State) (frac : Nat) : Nat := (s.time.frac.toNat + frac) % 2 ^ 32

/-- The first tick start at or after a count with a fraction. -/
def firstTick (full frac : Nat) : Nat := if frac = 0 then roundTick full else roundTick (full + 1)

theorem firstTick_of_ahead {full frac : Nat} (h : (frac != 0 || firstTick full frac != full) = true) :
    firstTick full frac = nextTick full := by
  simp only [Bool.or_eq_true, bne_iff_ne] at h
  unfold firstTick at *
  split
  · next hf =>
    rw [if_pos hf] at h
    exact roundTick_of_ne (h.resolve_left (not_not.2 hf))
  · exact roundTick_succ full

theorem not_ahead_iff (full frac : Nat) :
    (frac != 0 || firstTick full frac != full) = false ↔ frac = 0 ∧ tickStart (tickAt full) = full := by
  simp only [Bool.or_eq_false_iff, bne_eq_false_iff_eq]
  refine and_congr_right fun hf => ?_
  unfold firstTick
  rw [if_pos hf]
  exact roundTick_eq_self full

/-- Media Time with its counter put anew and its epoch moved by an offset; `ahead` says whether the next tick start lies ahead
(R18, R21). -/
def TimeSt.stepped (x : TimeSt) (sec : BitVec 48) (ns frac : BitVec 32) (off : Int) (next : Nat) (ahead : Bool) : TimeSt :=
  { x with
    sec := sec, ns := ns, frac := frac, sub := 0, next := next, gap := ahead, epochMt := x.epochMt + off, eligMt := x.eligMt + off
    sample := if ahead then 4 else x.sample, frame := if ahead then 64 else x.frame }

section
variable (x : TimeSt) (sec : BitVec 48) (ns frac : BitVec 32) (off : Int) (next : Nat) (ahead : Bool)

theorem tick_stepped : (x.stepped sec ns frac off next ahead).tick = x.tick := rfl
theorem gap_stepped : (x.stepped sec ns frac off next ahead).gap = ahead := rfl
theorem next_stepped : (x.stepped sec ns frac off next ahead).next = next := rfl
theorem frac_stepped : (x.stepped sec ns frac off next ahead).frac = frac := rfl

end

/-- The counter after a step, with the ticks to come (R18). -/
def State.stepMoved (s : State) (off : Int) (frac : Nat) : State :=
  let full := s.stepFull off frac
  let fr := s.stepFrac frac
  { s with
    time := s.time.stepped (BitVec.ofNat 48 (full / 1000000000)) (BitVec.ofNat 32 (full % 1000000000)) (BitVec.ofNat 32 fr) off
              (firstTick full fr) (fr != 0 || firstTick full fr != full) }

theorem now_stepMoved (s : State) {off : Int} {frac : Nat} (h : s.stepFull off frac < 2 ^ 48 * 1000000000) :
    (s.stepMoved off frac).now = s.stepFull off frac := now_of_time rfl rfl h

theorem frac_stepMoved (s : State) (off : Int) (frac : Nat) : (s.stepMoved off frac).time.frac.toNat = s.stepFrac frac := by
  refine (congrArg BitVec.toNat (frac_stepped ..)).trans ((BitVec.toNat_ofNat _ _).trans (Nat.mod_eq_of_lt ?_))
  exact Nat.mod_lt _ (by decide)

/-- The phases of the slots move with the count. -/
theorem epoch_stepSlots (s : State) (off : Int) : SameEpoch s (s.stepSlots off) := by
  unfold State.stepSlots
  refine .foldl _ (fun s n hn => ?_) s
  have := List.mem_range.1 hn
  extract_lets _ x p u k
  exact .ite (epoch_wh s _) ((epoch_wh s _).trans (epoch_fs _ _ _ _ (by decide) (by omega)))

/-- MT_EPOCH after a step: STEPPED, and the window closed (R17). -/
def State.stepNoted (s : State) : State := (s.fs F.MT_EPOCH_STEPPED 0 1).fs F.MT_EPOCH_WINDOW 0 0

theorem time_stepNoted (s : State) : s.stepNoted.time = s.time := (fs_time ..).trans (fs_time ..)

theorem stepTo_eq (s : State) (off : Int) (frac : Nat) :
    s.stepTo off frac = ((s.stepMoved off frac).stepNoted.stepSlots off).cancelForStep := rfl

theorem cancelForStep_keeps (s : State) : s.cancelForStep.time = s.time ∧ s.cancelForStep.sched = [] := by
  unfold State.cancelForStep
  extract_lets gone keep
  have h := epoch_cancelAll ({ s with sched := [], dueNext := keep } : State) gone
  exact ⟨h.time, h.sched⟩

/-- A step leaves the moved counter, with no event armed. -/
theorem stepTo_moves (s : State) (off : Int) (frac : Nat) :
    (s.stepTo off frac).time = (s.stepMoved off frac).time ∧ (s.stepTo off frac).sched = [] := by
  rw [stepTo_eq]
  obtain ⟨htime, hsched⟩ := cancelForStep_keeps ((s.stepMoved off frac).stepNoted.stepSlots off)
  exact ⟨(htime.trans (epoch_stepSlots _ off).time).trans (time_stepNoted _), hsched⟩

/-! ### The commands -/

theorem applyMtStep_of_refused {e : Entry} {s : State} (h : s.fb F.MT_EPOCH_WINDOW 0 = false) :
    applyMtStep e s = s.finish e Sts.MT_STEP_REFUSED [] false := by
  have hk : stepChk (stepOffset e.cmd) s.now s = Sts.MT_STEP_REFUSED := by
    unfold stepChk
    rw [h]
    rfl
  unfold applyMtStep
  extract_lets off k
  have hk : k = Sts.MT_STEP_REFUSED := hk
  rw [if_pos (by rw [hk]; decide), hk]

/-- An accepted step, and what its completion leaves of the stepped state. -/
theorem applyMtStep_of_ok {e : Entry} {s : State} (h : stepChk (stepOffset e.cmd) s.now s = Sts.OK) :
    SameEpoch (s.stepTo (stepOffset e.cmd) e.cmd.i2) (applyMtStep e s) := by
  unfold applyMtStep
  extract_lets off k t sel u _ c
  rw [if_neg (not_not.2 h)]
  have hu : SameEpoch t u := .ite (.refl t) (epoch_wh t _)
  change SameEpoch t _
  refine .trans ?_ (epoch_logRecord _ _ _ _ _)
  refine .trans ?_ (epoch_journal _ _)
  exact hu.trans (told_cplFirst u c).sameEpoch

/-- A step within its range stays within the counter, and its two parts together move by the whole offset. -/
theorem stepFull_of_ok {s : State} {off : Int} {frac : Nat} (h : stepChk off s.now s = Sts.OK) (hf : frac < 2 ^ 32)
    (hm : (s.now : Int) + off + 1 < 2 ^ 48 * 1000000000) : s.stepFull off frac < 2 ^ 48 * 1000000000
      ∧ (s.stepFull off frac : Int) * 2 ^ 32 + s.stepFrac frac = (s.now + off) * 2 ^ 32 + s.time.frac.toNat + frac := by
  have hr : 0 ≤ (s.now : Int) + off := by
    unfold stepChk at h
    split at h
    · exact absurd h (by decide)
    · split at h
      · exact absurd h (by decide)
      · omega
  have hfrac := s.time.frac.isLt
  unfold State.stepFull State.stepFrac
  omega

theorem mtStep_moves {e : Entry} {s : State} (h : stepChk (stepOffset e.cmd) s.now s = Sts.OK) (hf : e.cmd.i2 < 2 ^ 32)
    (hm : (s.now : Int) + stepOffset e.cmd + 1 < 2 ^ 48 * 1000000000) :
    let t := applyMtStep e s
    (t.now : Int) * 2 ^ 32 + t.time.frac.toNat = (s.now + stepOffset e.cmd) * 2 ^ 32 + s.time.frac.toNat + e.cmd.i2
      ∧ t.sched = [] ∧ t.time.tick = s.time.tick
      ∧ (t.time.gap = false ↔ t.time.frac = 0 ∧ tickStart (tickAt t.now) = t.now)
      ∧ (t.time.gap = true → t.time.next = nextTick t.now) := by
  intro t
  obtain ⟨hmax, hcount⟩ := stepFull_of_ok h hf hm
  obtain ⟨htime, hsched⟩ := stepTo_moves s (stepOffset e.cmd) e.cmd.i2
  have ht := applyMtStep_of_ok h
  have time : t.time = (s.stepMoved (stepOffset e.cmd) e.cmd.i2).time := ht.time.trans htime
  have now : t.now = s.stepFull (stepOffset e.cmd) e.cmd.i2 :=
    (now_of_time_eq (congrArg TimeSt.sec time) (congrArg TimeSt.ns time)).trans (now_stepMoved s hmax)
  have frac : t.time.frac.toNat = s.stepFrac e.cmd.i2 := (congrArg (·.frac.toNat) time).trans (frac_stepMoved _ _ _)
  have hz : t.time.frac = 0 ↔ s.stepFrac e.cmd.i2 = 0 := by
    rw [← frac]
    exact ⟨fun h0 => by rw [h0]; rfl, fun h0 => BitVec.eq_of_toNat_eq h0⟩
  refine ⟨by rw [now, frac]; exact hcount, ht.sched.trans hsched, (congrArg TimeSt.tick time).trans (tick_stepped ..), ?_, fun hg => ?_⟩
  · rw [now, hz, (congrArg TimeSt.gap time).trans (gap_stepped ..)]
    exact not_ahead_iff _ _
  · rw [now, (congrArg TimeSt.next time).trans (next_stepped ..)]
    rw [(congrArg TimeSt.gap time).trans (gap_stepped ..)] at hg
    exact firstTick_of_ahead hg

/-- A signed field takes a value within its range whole. -/
theorem sext_wrap {x : Int} (hlo : -2 ^ 31 ≤ x) (hhi : x < 2 ^ 31) : sext 32 (wrap 32 x) = x := by
  unfold sext wrap
  simp only
  split <;> omega

theorem wrap_lt (x : Int) : wrap 32 x < 2 ^ 32 := by
  unfold wrap
  omega

theorem sext_range (v : Nat) : -2 ^ 31 ≤ sext 32 v ∧ sext 32 v < 2 ^ 31 := by
  unfold sext
  simp only
  split <;> omega

theorem fgI_fsI_word (s : State) (f : Fld) (i : Nat) {x : Int} (hl : f.lo = 0) (hh : f.hi = 31) (hlo : -2 ^ 31 ≤ x)
    (hhi : x < 2 ^ 31) : (s.fsI f i x).fgI f i = x := by
  have hw : f.hi + 1 - f.lo = 32 := by omega
  unfold State.fgI State.fsI
  rw [fg_fs_same _ _ _ _ (by omega) (by omega), hw, Nat.mod_eq_of_lt (wrap_lt x), sext_wrap hlo hhi]

/-- With the loop in OPEN the rate in force is the one last set (R15). -/
theorem rateNow_of_open {s : State} {r : Int} (h : s.fg F.WH_STATUS_LOOP 0 = 5) (hr : s.wh.rateSet = some r) : s.rateNow = r := by
  unfold State.rateNow
  simp only [h, hr]
  rfl

theorem wh_showRate (s : State) : s.showRate.wh = s.wh := fsI_wh ..
theorem time_showRate (s : State) : s.showRate.time = s.time := fsI_time ..

theorem rate_showRate {s : State} {r : Int} (h : s.rateNow = r) (hlo : -2 ^ 31 ≤ r) (hhi : r < 2 ^ 31) :
    s.showRate.fgI F.MT_RATE_RATE 0 = r := by
  unfold State.showRate
  rw [h]
  exact fgI_fsI_word s _ 0 rfl rfl hlo hhi

theorem fg_wh (s : State) (x : WhSt) (f : Fld) (i : Nat) : ({ s with wh := x } : State).fg f i = s.fg f i := rfl

/-- The rate is taken, and the counter keeps its value (R15). -/
theorem applyMtRateSet_takes_rate (e : Entry) (s : State) :
    ∃ v, Ends e Sts.OK [] v (applyMtRateSet e s) ∧ v.wh.rateSet = some (argI e.cmd.a) ∧ v.time = s.time
      ∧ (s.fg F.WH_STATUS_LOOP 0 = 5 → v.fgI F.MT_RATE_RATE 0 = argI e.cmd.a) := by
  obtain ⟨hlo, hhi⟩ := sext_range e.cmd.a
  refine ⟨_, ⟨false, rfl⟩, congrArg WhSt.rateSet (wh_showRate _), time_showRate _, fun h => rate_showRate ?_ hlo hhi⟩
  exact rateNow_of_open ((fg_wh ..).trans h) rfl

/-- Settles O17: a step cancels and completes without touching the counter it has moved (`SameEpoch`). -/
theorem mediaTimeCommandsActAtTheBoundary : Obligations.MediaTimeCommandsActAtTheBoundary := by
  refine ⟨⟨fun c s h => ⟨_, rfl, submit_placed h⟩, fun e s he => ?_⟩, ⟨fun c s h => ⟨_, rfl, submit_placed h⟩, fun e s he => ?_⟩⟩
  · rw [applyEntry_of_effect rfl he]
    exact ⟨fun h => ⟨false, applyMtStep_of_refused h⟩, mtStep_moves⟩
  · rw [applyEntry_of_effect rfl he]
    exact applyMtRateSet_takes_rate e s

end Sys2Proof.Machine
end

