-- ==== Sys2Proof/Proofs/DriveFrames.lean ====
section
/-! Drive frames (R169 - R175, R187): what the work on one port leaves of another, the codes of a channel and the frame that
carries them. -/

namespace Sys2Proof.Machine

/-! ### What leaves a port -/

/-- Media Time, port n and its status and control registers stay. -/
structure SamePort (n : Nat) (s t : State) : Prop where
  time : t.time = s.time
  port : t.port n = s.port n
  stat : t.rr .DP_STAT n = s.rr .DP_STAT n
  ctl  : t.rr .DP_CTL n = s.rr .DP_CTL n

section
variable {n : Nat}

theorem SamePort.refl (s : State) : SamePort n s s := ⟨rfl, rfl, rfl, rfl⟩

theorem SamePort.trans {s t u : State} (h : SamePort n s t) (k : SamePort n t u) : SamePort n s u :=
  ⟨k.time.trans h.time, k.port.trans h.port, k.stat.trans h.stat, k.ctl.trans h.ctl⟩

theorem SamePort.ite {c : Prop} [Decidable c] {s t u : State} (ht : SamePort n s t) (hu : SamePort n s u) :
    SamePort n s (if c then t else u) := by
  split
  · exact ht
  · exact hu

theorem SamePort.foldl {α : Type} {f : State → α → State} (l : List α) (h : ∀ s, ∀ a ∈ l, SamePort n s (f s a)) (s : State) :
    SamePort n s (l.foldl f s) := foldl_frame (SamePort n) .refl .trans f l h s

/-- Port n and its status and control registers stay, at whatever time. -/
structure SameLine (n : Nat) (s t : State) : Prop where
  port : t.port n = s.port n
  stat : t.rr .DP_STAT n = s.rr .DP_STAT n
  ctl  : t.rr .DP_CTL n = s.rr .DP_CTL n

theorem SameLine.state {s t : State} (h : SameLine n s t) : t.fg F.DP_STAT_STATE n = s.fg F.DP_STAT_STATE n :=
  fg_of_rr (f := F.DP_STAT_STATE) h.stat

theorem SameLine.en {s t : State} (h : SameLine n s t) : t.fb F.DP_CTL_EN n = s.fb F.DP_CTL_EN n :=
  congrArg (· == 1) (fg_of_rr (f := F.DP_CTL_EN) h.ctl)

theorem SameLine.arm {s t : State} (h : SameLine n s t) : t.arm .DP_CTL n = s.arm .DP_CTL n :=
  congrArg (· == 1) (fg_of_rr (f := ⟨.DP_CTL, 31, 31⟩) h.ctl)

theorem SamePort.line {s t : State} (h : SamePort n s t) : SameLine n s t := ⟨h.port, h.stat, h.ctl⟩

theorem SameLine.trans {s t u : State} (h : SameLine n s t) (k : SameLine n t u) : SameLine n s u :=
  ⟨k.port.trans h.port, k.stat.trans h.stat, k.ctl.trans h.ctl⟩

theorem samePort_chs (s : State) (m : AMap DrvCh) : SamePort n s { s with drv := { s.drv with chs := m } } := ⟨rfl, rfl, rfl, rfl⟩
theorem samePort_grps (s : State) (m : AMap BoostGrp) : SamePort n s { s with drv := { s.drv with grps := m } } :=
  ⟨rfl, rfl, rfl, rfl⟩
theorem samePort_hf (s : State) (m : AMap Pilot) : SamePort n s { s with drv := { s.drv with hf := m } } := ⟨rfl, rfl, rfl, rfl⟩
theorem samePort_lf (s : State) (m : AMap Pilot) : SamePort n s { s with drv := { s.drv with lf := m } } := ⟨rfl, rfl, rfl, rfl⟩
theorem samePort_swAcc (s : State) (m : AMap Demod) : SamePort n s { s with drv := { s.drv with swAcc := m } } :=
  ⟨rfl, rfl, rfl, rfl⟩
theorem samePort_tw (s : State) (x : TwSt) : SamePort n s { s with tw := x } := ⟨rfl, rfl, rfl, rfl⟩
theorem samePort_free (s : State) (k : Nat) : SamePort n s { s with free := k } := ⟨rfl, rfl, rfl, rfl⟩
theorem samePort_rwsWait (s : State) (l : List Entry) : SamePort n s { s with rwsWait := l } := ⟨rfl, rfl, rfl, rfl⟩
theorem samePort_det (s : State) (a b c d e : Nat) : SamePort n s (s.det a b c d e) := ⟨rfl, rfl, rfl, rfl⟩

theorem port_of_drv {s t : State} (h : t.drv = s.drv) (n : Nat) : t.port n = s.port n := by
  unfold State.port
  rw [h]

theorem samePort_fs (s : State) (f : Fld) (i v : Nat) (hi : i < 2048) (hn : n < 2048)
    (h : f.reg ≠ .DP_STAT ∧ f.reg ≠ .DP_CTL ∨ n ≠ i) : SamePort n s (s.fs f i v) :=
  ⟨fs_time .., port_of_drv (fs_drv ..) n, rr_fs_other s f _ i n v hi hn (h.imp (·.1.symm) id),
    rr_fs_other s f _ i n v hi hn (h.imp (·.2.symm) id)⟩

theorem port_setPort (s : State) (m n : Nat) (x : DrvPort) : (s.setPort m x).port n = if n = m then x else s.port n :=
  mget_mput _ _ _ _ _

theorem fg_setPort (s : State) (m : Nat) (x : DrvPort) (f : Fld) (i : Nat) : (s.setPort m x).fg f i = s.fg f i := rfl
theorem time_setPort (s : State) (m : Nat) (x : DrvPort) : (s.setPort m x).time = s.time := rfl

theorem samePort_setPort (s : State) {m : Nat} (x : DrvPort) (h : n ≠ m) : SamePort n s (s.setPort m x) :=
  ⟨rfl, (port_setPort s m n x).trans (if_neg h), rfl, rfl⟩

theorem regsKept_hif {l : List RegId} (s : State) (x : HifSt) : RegsKept l s { s with hif := x } := .of_regs rfl
theorem regsKept_ret {l : List RegId} (s : State) (x : RwSt) : RegsKept l s { s with ret := x } := .of_regs rfl

theorem regsKept_logRecord (s : State) (gen code source : Nat) (full : Bool) :
    RegsKept [.HIF_RING_IDX, .RW_PENDING] s (s.logRecord gen code source full) := by
  unfold State.logRecord
  extract_lets now r fits
  refine (regsKept_ret s _).trans (.trans (regsKept_fs _ _ _ _ ?_ (by decide)) (regsKept_fs _ _ _ _ ?_ (by decide)))
  · decide
  · decide

/-- What a command's end leaves of the registers. -/
theorem regsKept_finish (s : State) (e : Entry) (status : Nat) (result : List Nat) (full : Bool) :
    RegsKept [.HIF_RING_IDX, .RW_PENDING] s (s.finish e status result full) := by
  unfold State.finish State.finishAs
  extract_lets c0 c t
  have ht : RegsKept [.HIF_RING_IDX, .RW_PENDING] s t := (told_finishCpl s e _ _ _).regs.mono (by simp)
  split
  · exact ht
  · exact (ht.trans (regsKept_hif t _)).trans (regsKept_logRecord _ _ _ _ _)

theorem samePort_finish (s : State) (e : Entry) (status : Nat) (result : List Nat) (full : Bool) (hn : n < 2048) :
    SamePort n s (s.finish e status result full) :=
  ⟨(epoch_finish s e status result full).time, port_of_drv (finish_works s e status result full).drv n,
    regsKept_finish s e status result full _ n (by decide) hn, regsKept_finish s e status result full _ n (by decide) hn⟩

end

/-! ### Line Watch and the codes of a channel -/

section
variable {n : Nat}

theorem samePort_setCh (s : State) (c : Nat) (x : DrvCh) : SamePort n s (s.setCh c x) := samePort_chs s _
theorem samePort_setGrp (s : State) (g : Nat) (x : BoostGrp) : SamePort n s (s.setGrp g x) := samePort_grps s _

theorem samePort_setPil (s : State) (hf : Bool) (c : Nat) (p : Pilot) : SamePort n s (s.setPil hf c p) := by
  unfold State.setPil
  exact .ite (samePort_hf s _) (samePort_lf s _)

theorem samePort_lwFrame (s : State) (c gf : Nat) (vi : Option (Int × Int)) : SamePort n s (s.lwFrame c gf vi) := by
  unfold State.lwFrame
  extract_lets hz one pilot t
  have hp : ∀ s hf, SamePort n s (pilot s hf) := fun s hf =>
    .ite (samePort_setPil s _ _ _) (.ite (samePort_setPil s _ _ _) (.refl s))
  have ht : SamePort n s t := (hp s true).trans (hp _ false)
  split
  · next w hw => exact .ite (.ite (ht.trans (samePort_swAcc t _)) ht) ht
  · exact ht

theorem samePort_modStep (s : State) (m k gf : Nat) (hm : m < 24) (hn : n < 24) : SamePort n s (s.modStep m k gf) := by
  unfold State.modStep
  extract_lets c x q rail mp top u
  refine .ite (.refl s) (.ite ?_ (.ite ?_ (samePort_setCh s _ _)))
  · exact (samePort_setCh s _ _).trans (samePort_fs _ _ _ _ (by omega) (by omega) (.inl (by decide)))
  · exact (samePort_free s _).trans (samePort_setCh _ _ _)

theorem samePort_legCodes (s : State) (m k gf : Nat) (hm : m < 24) (hn : n < 24) : SamePort n s (s.legCodes m k gf).2 := by
  unfold State.legCodes
  extract_lets c t x step lo order
  split
  · exact .refl s
  · split
    next a ea ha =>
    split
    next b eb hb =>
    exact (samePort_modStep s m k gf hm hn).trans (samePort_setCh t _ _)

theorem length_legCodes (s : State) (m k gf : Nat) : (s.legCodes m k gf).1.length = 2 := by
  unfold State.legCodes
  extract_lets c t x step lo order
  split
  · rfl
  · split
    next a ea ha =>
    split
    next b eb hb =>
    rfl

/-- The codes of one more channel of a port join those before them. -/
def addCodes (m gf : Nat) (p : List Nat × State) (k : Nat) : List Nat × State :=
  (p.1 ++ (p.2.legCodes m k gf).1, (p.2.legCodes m k gf).2)

theorem addCodes_foldl {f : List Nat × State → Nat → List Nat × State} {m gf : Nat} {l : List Nat} {p q : List Nat × State}
    (hq : l.foldl f p = q) (hf : ∀ p k, f p k = addCodes m gf p k) (hm : m < 24) (hn : n < 24) :
    SamePort n p.2 q.2 ∧ q.1.length = p.1.length + 2 * l.length := by
  subst hq
  induction l generalizing p with
  | nil => exact ⟨.refl _, rfl⟩
  | cons k l ih =>
    obtain ⟨hs, hl⟩ := ih (p := f p k)
    rw [hf] at hs hl
    rw [List.foldl_cons, hf]
    refine ⟨(samePort_legCodes p.2 m k gf hm hn).trans hs, hl.trans ?_⟩
    unfold addCodes
    rw [List.length_append, length_legCodes, List.length_cons]
    omega

theorem samePort_boostStep (s : State) (g rail : Nat) (ib : Int) (hg : g < 48) (hn : n < 24) :
    SamePort n s (s.boostStep g rail ib).2 := by
  have hfs : ∀ t v, SamePort n t (t.fs F.BG_STAT_CMD g v) := fun t v =>
    samePort_fs t _ g v (by omega) (by omega) (.inl (by decide))
  unfold State.boostStep
  extract_lets
  split
  · exact (samePort_setGrp s _ _).trans (hfs _ _)
  · exact (samePort_setGrp s _ _).trans (hfs _ _)

end

/-! ### The frame -/

theorem length_leBytes (k v : Nat) : (leBytes k v).length = k := by
  induction k generalizing v with
  | zero => rfl
  | succ k ih => exact congrArg (· + 1) (ih _)

/-- The number that the little-endian bytes of a number spell. -/
theorem leVal_leBytes (k v : Nat) : leVal (leBytes k v) = v % 256 ^ k := by
  induction k generalizing v with
  | zero => exact (Nat.mod_one v).symm
  | succ k ih =>
    show (BitVec.ofNat 8 v).toNat + 256 * leVal (leBytes k (v / 256)) = _
    rw [ih, BitVec.toNat_ofNat, show (256 : Nat) ^ (k + 1) = 256 * 256 ^ k from Nat.pow_succ', Nat.mod_mul]

theorem length_flatMap_leBytes (l : List Nat) : (l.flatMap (leBytes 2)).length = 2 * l.length := by
  induction l with
  | nil => rfl
  | cons a l ih => rw [List.flatMap_cons, List.length_append, ih, length_leBytes, List.length_cons]; omega

theorem length_chunk (x : DrvPort) (train : Bool) : (x.chunk train).length = 16 := by
  unfold DrvPort.chunk
  split
  · exact List.length_replicate
  · split
    · rw [List.length_append, List.length_append, length_leBytes, length_leBytes, List.length_replicate]
    · rw [List.length_append, List.length_append, List.length_append, length_leBytes, length_leBytes, length_leBytes,
        List.length_take, List.length_append, List.length_replicate]
      omega

/-- A check word has 32 bits. -/
theorem crcBits_lt {poly : Nat} (hp : poly < 2 ^ 32) (k : Nat) {c : Nat} (hc : c < 2 ^ 32) : crcBits poly k c < 2 ^ 32 := by
  induction k generalizing c with
  | zero => exact hc
  | succ k ih =>
    unfold crcBits
    refine ih ?_
    split
    · exact Nat.xor_lt_two_pow (by omega) hp
    · omega

theorem crc32c_lt (l : List Byte) : crc32c l < 2 ^ 32 := by
  have key : ∀ (l : List Byte) (c : Nat), c < 2 ^ 32 →
      l.foldl (fun c b => crcBits 0x82F63B78 8 (c ^^^ b.toNat)) c < 2 ^ 32 := by
    intro l
    induction l with
    | nil => exact fun c hc => hc
    | cons b l ih =>
      exact fun c hc => ih _ (crcBits_lt (by decide) 8 (Nat.xor_lt_two_pow hc (by have := b.isLt; omega)))
  exact Nat.xor_lt_two_pow (key l _ (by decide)) (by decide)

/-- What the fields of a TX frame say (R170, R173). -/
structure FrameOk (gf : Nat) (f : TxFrame) : Prop where
  num  : f.gf = gf
  len  : f.bytes.length = 160
  seq  : leAt f.bytes 2 2 = gf % 65536
  crc  : leAt f.bytes 0x9C 4 = crc32c ((f.bytes.drop 1).take 155)

/-- The bytes of a frame before its check word. -/
def txBody (gf mts : Nat) (codes : List Nat) (b0 b1 : Nat) (mbx : List Byte) (claim : Nat) : List Byte :=
  leBytes 1 (16 + 8 * (gf % 2)) ++ leBytes 2 (gf % 65536) ++ leBytes 4 mts ++ codes.flatMap (leBytes 2) ++ leBytes 4 b0
    ++ leBytes 4 b1 ++ mbx ++ leBytes 4 claim ++ List.replicate 88 0

section
variable {gf mts b0 b1 claim : Nat} {codes : List Nat} {mbx : List Byte}

theorem txBytes_eq : txBytes gf mts codes b0 b1 mbx claim
    = 0xBC :: txBody gf mts codes b0 b1 mbx claim ++ leBytes 4 (crc32c (txBody gf mts codes b0 b1 mbx claim)) := rfl

theorem length_txBody (hc : codes.length = 16) (hm : mbx.length = 16) : (txBody gf mts codes b0 b1 mbx claim).length = 155 := by
  simp only [txBody, List.length_append, length_leBytes, length_flatMap_leBytes, List.length_replicate, hc, hm]

theorem frameOk_txBytes (hc : codes.length = 16) (hm : mbx.length = 16) (phase : Nat) :
    FrameOk gf ⟨gf, mts, phase, codes, b0, b1, mbx, claim, txBytes gf mts codes b0 b1 mbx claim⟩ := by
  have hl := length_txBody (gf := gf) (mts := mts) (b0 := b0) (b1 := b1) (claim := claim) hc hm
  have hcrc := crc32c_lt (txBody gf mts codes b0 b1 mbx claim)
  refine ⟨rfl, ?_, ?_, ?_⟩
  · rw [txBytes_eq, List.length_append, List.length_cons, hl, length_leBytes]
  · rw [txBytes_eq, leAt, txBody]
    simp only [List.append_assoc, List.cons_append]
    exact (leVal_leBytes 2 _).trans (by omega)
  · rw [txBytes_eq, leAt, List.cons_append, List.drop_succ_cons, List.drop_succ_cons, List.drop_zero, List.drop_left' hl,
      List.take_left' hl, List.take_of_length_le (length_leBytes 4 _).le, leVal_leBytes]
    exact Nat.mod_eq_of_lt hcrc

end

/-! ### A launch -/

/-- What a launch on port n leaves of the other ports and of its own line, and what it puts there. -/
structure Launched (n gf : Nat) (s t : State) : Prop where
  other : ∀ k, k < 24 → k ≠ n → SamePort k s t
  time  : t.time = s.time
  state : t.fg F.DP_STAT_STATE n = s.fg F.DP_STAT_STATE n
  tx    : ∃ f, (t.port n).tx = some f ∧ FrameOk gf f

section
variable {n gf : Nat}

theorem samePort_leaveUp (s : State) {m : Nat} (hm : m < 24) (hn : n < 24) : SamePort n s (s.leaveUp m) := by
  unfold State.leaveUp
  refine (SamePort.foldl _ (fun s g hg => ?_) s).trans ⟨rfl, rfl, rfl, rfl⟩
  have hg : g < 48 := by
    rcases List.mem_pair.mp hg with h | h <;> omega
  exact (samePort_setGrp s g _).trans (samePort_fs _ _ g 0 (by omega) (by omega) (.inl (by decide)))

/-- The account of the frame that should have come ends in the port itself. -/
theorem rxAccount_eq (s : State) {m : Nat} (hm : m < 24) :
    ∃ t x, (∀ n, n < 24 → SamePort n s t) ∧ s.rxAccount m = t.setPort m x := by
  refine ⟨_, _, fun n hn => .ite ?_ (.refl s), rfl⟩
  have miss : SamePort n s (s.fadd F.DP_ERR_MISSED m 1) :=
    samePort_fs s _ m _ (by omega) (by omega) (.inl (by decide))
  refine miss.trans ((SamePort.ite (samePort_det _ _ _ _ _ _) (.refl _)).trans (.foldl _ (fun s k _ => ?_) _))
  exact .ite (samePort_lwFrame s _ _ _) (.refl s)

theorem samePort_setPort_fs (s : State) {m : Nat} (x : DrvPort) (f : Fld) (v : Nat) (hm : m < 24) (hn : n < 24) (h : n ≠ m) :
    SamePort n s ((s.setPort m x).fs f m v) :=
  (samePort_setPort s x h).trans (samePort_fs _ f m v (by omega) (by omega) (.inr h))

/-- A launch sends the codes of the channels, the words of the groups and the mailbox chunk in one frame. -/
theorem sendTx_launched (s : State) (hn : n < 24) : Launched n gf s (s.sendTx n gf) := by
  unfold State.sendTx
  extract_lets phase x rx vr t
  split
  next codes u hu =>
  split
  next b0 u0 h0 =>
  split
  next b1 u1 h1 =>
  extract_lets mbx f _ w _
  have hcodes : codes.length = 16 := (addCodes_foldl hu (fun _ _ => rfl) hn hn).2
  have hw : ∀ k, k < 24 → SamePort k t w := fun k hk => by
    have hk0 := samePort_boostStep u (2 * n) rx.rail0 rx.ib0 (by omega) hk
    have hk1 := samePort_boostStep u0 (2 * n + 1) rx.rail1 rx.ib1 (by omega) hk
    rw [h0] at hk0
    rw [h1] at hk1
    exact (((addCodes_foldl hu (fun _ _ => rfl) hn hk).1.trans hk0).trans hk1).trans (.ite (.refl u1) (samePort_tw u1 _))
  refine ⟨fun k hk hne => ?_, ?_, ?_, f, ?_, frameOk_txBytes hcodes (length_chunk x _) phase⟩
  · exact ((samePort_setPort s _ hne).trans (hw k hk)).trans (samePort_setPort_fs w _ _ _ hn hk hne)
  · exact (fs_time _ _ _ _).trans (hw n hn).time
  · exact (fg_fs_apart _ F.DP_STAT_CLAIM_TX F.DP_STAT_STATE n _ rfl (by decide) (by decide) (by decide) (by decide)).trans
      (hw n hn).line.state
  · rw [port_of_drv (fs_drv _ _ _ _), port_setPort, if_pos rfl]

theorem Launched.after {s t u : State} (h : ∀ k, k < 24 → k ≠ n → SamePort k s t) (l : Launched n gf t u) :
    ∀ k, k < 24 → k ≠ n → SamePort k s u := fun k hk hne => (h k hk hne).trans (l.other k hk hne)

theorem samePort_toTrain (s : State) {m : Nat} (hm : m < 24) (hn : n < 24) (h : n ≠ m) : SamePort n s (s.toTrain m) :=
  samePort_setPort_fs s _ _ _ hm hn h

theorem state_toTrain (s : State) (m : Nat) : (s.toTrain m).fg F.DP_STAT_STATE m = 1 :=
  fg_fs_same _ _ _ _ (by decide) (by decide)

/-- What a drive-frame start does to a port (R175). -/
structure LaunchedPort (n gf : Nat) (s t : State) : Prop where
  other : ∀ k, k < 24 → k ≠ n → SamePort k s t
  time  : t.time = s.time
  sends : s.fg F.DP_STAT_STATE n ≠ 0 → s.fb F.DP_CTL_EN n = true → ∃ f, (t.port n).tx = some f ∧ FrameOk gf f
  trains : s.fg F.DP_STAT_STATE n = 0 → s.fb F.DP_CTL_EN n = true → t.fg F.DP_STAT_STATE n = 1
  rests : s.fg F.DP_STAT_STATE n = 0 → s.fb F.DP_CTL_EN n = false → (s.port n).offLeft = 0 → (t.port n).tx = none

theorem launchPort_launched (s : State) (hn : n < 24) : LaunchedPort n gf s (s.launchPort gf n) := by
  unfold State.launchPort
  extract_lets st en x u _
  by_cases hst : st = 0
  · rw [if_pos hst]
    by_cases hen : en = true
    · rw [if_pos hen]
      have l := sendTx_launched (gf := gf) (s.toTrain n) hn
      exact ⟨l.after fun k hk hne => samePort_toTrain s hn hk hne, l.time.trans (fs_time _ _ _ _), fun h => absurd hst h,
        fun _ _ => l.state.trans (state_toTrain s n), fun _ h => absurd (hen.symm.trans h) (by decide)⟩
    · rw [if_neg hen]
      by_cases hx : x.offLeft = 0
      · rw [if_pos hx]
        exact ⟨fun k _ hne => samePort_setPort s _ hne, rfl, fun h => absurd hst h, fun _ h => absurd h hen,
          fun _ _ _ => by rw [port_setPort, if_pos rfl]⟩
      · rw [if_neg hx]
        have l := sendTx_launched (gf := gf) (s.setPort n { x with offLeft := x.offLeft - 1 }) hn
        exact ⟨l.after fun k _ hne => samePort_setPort s _ hne, l.time, fun h => absurd hst h, fun _ h => absurd h hen,
          fun _ _ h => absurd h hx⟩
  · rw [if_neg hst]
    obtain ⟨t, y, ht, hu : u = t.setPort n y⟩ := rxAccount_eq s hn
    have ou : ∀ k, k < 24 → k ≠ n → SamePort k s u := fun k hk hne =>
      hu ▸ (ht k hk).trans (samePort_setPort t y hne)
    have tu : u.time = s.time := hu ▸ (ht n hn).time
    by_cases hen : en = true
    · rw [if_pos hen]
      have l := sendTx_launched (gf := gf) u hn
      exact ⟨l.after ou, l.time.trans tu, fun _ _ => l.tx, fun h => absurd h hst, fun h => absurd h hst⟩
    · rw [if_neg hen]
      have ov : ∀ k, k < 24 → SamePort k u (u.leaveUp n) := fun k hk => samePort_leaveUp u hn hk
      have l := sendTx_launched (gf := gf)
        (((u.leaveUp n).fs F.DP_STAT_STATE n 0).setPort n { u.port n with offLeft := 3 }) hn
      refine ⟨l.after fun k hk hne => ?_, ?_, fun _ h => absurd h hen, fun h => absurd h hst, fun h => absurd h hst⟩
      · refine ((ou k hk hne).trans (ov k hk)).trans ((samePort_fs _ _ n _ ?_ ?_ (.inr hne)).trans (samePort_setPort _ _ hne))
        · omega
        · omega
      · exact ((l.time.trans (time_setPort _ _ _)).trans (fs_time _ _ _ _)).trans ((ov n hn).time.trans tu)

/-- Of a launch on every port, what concerns one port is its own launch. -/
theorem launchPort_foldl (hn : n < 24) (l : List Nat) (hl : ∀ m ∈ l, m < 24) (hd : l.Nodup) (hm : n ∈ l) (s : State) :
    ∃ t u, SamePort n s t ∧ LaunchedPort n gf t u ∧ SamePort n u (l.foldl (fun s m => s.launchPort gf m) s) := by
  obtain ⟨a, b, rfl⟩ := List.append_of_mem hm
  rw [List.nodup_append, List.nodup_cons] at hd
  obtain ⟨_, ⟨hb, _⟩, ha⟩ := hd
  have other : ∀ s, ∀ m ∈ a ++ n :: b, m ≠ n → SamePort n s (s.launchPort gf m) := fun s m h hne =>
    (launchPort_launched s (hl m h)).other n hn hne.symm
  refine ⟨a.foldl (fun s m => s.launchPort gf m) s, _, .foldl a (fun s m h => ?_) s, launchPort_launched _ hn, ?_⟩
  · exact other s m (List.mem_append_left _ h) (ha m h n (List.mem_cons_self ..))
  · rw [List.foldl_append, List.foldl_cons]
    refine .foldl b (fun s m h => other s m ?_ fun e => hb (e ▸ h)) _
    exact List.mem_append_right _ (List.mem_cons_of_mem _ h)

end

/-! ### The hand-over of the drive ports -/

section
variable {n : Nat}

theorem samePort_rw (s : State) (r : RegId) {m : Nat} (w : Word) (hm : m < 24) (hn : n < 24) (h : n ≠ m) :
    SamePort n s (s.rw r m w) :=
  ⟨rfl, rfl, (rr_rw s r _ m n w (by omega) (by omega)).trans (if_neg fun e => h e.2),
    (rr_rw s r _ m n w (by omega) (by omega)).trans (if_neg fun e => h e.2)⟩

theorem samePort_armAt (s : State) (m : AMap Nat) : SamePort n s { s with armAt := m } := ⟨rfl, rfl, rfl, rfl⟩

theorem samePort_setArm (s : State) (a : RegId) {m : Nat} (b : Bool) (hm : m < 24) (hn : n < 24) (h : n ≠ m) :
    SamePort n s (s.setArm a m b) := by
  unfold State.setArm
  exact (samePort_fs s ⟨a, 31, 31⟩ m (b2n b) (by omega) (by omega) (.inr h)).trans (samePort_armAt _ _)

theorem samePort_handOver (s : State) {m : Nat} (hm : m < 24) (hn : n < 24) (h : n ≠ m) :
    SamePort n s (s.handOver .DP_CTL m) := by
  unfold State.handOver
  exact ((samePort_rw s _ _ hm hn h).trans (samePort_rw _ _ _ hm hn h)).trans (samePort_setArm _ _ _ hm hn h)

/-- A port that is not armed takes no part in the hand-over. -/
theorem samePort_dpHandOver (s : State) (hn : n < 24) (ha : s.arm .DP_CTL n = false) : SamePort n s s.dpHandOver := by
  unfold State.dpHandOver
  extract_lets t
  have ht : SamePort n s t := by
    refine List.foldlRecOn (motive := SamePort n s) _ _ (.refl s) fun u hu m hm => ?_
    by_cases e : n = m
    · subst e
      rw [hu.line.arm, ha]
      exact hu
    · have hand : SamePort n u (u.handOver .DP_CTL m) := samePort_handOver u (List.mem_range.mp hm) hn e
      exact hu.trans (.ite (.ite hand (.refl u)) (.refl u))
  refine ht.trans (.foldl _ (fun u e _ => .ite ?_ (.refl u)) t)
  exact (samePort_rwsWait u _).trans (samePort_finish _ e _ _ _ (by omega))

end

/-! ### DRIVE_FRAME_LAUNCH -/

theorem reach_works (s : State) (full : Nat) : SameWorks s (s.reach full) := by
  unfold State.reach State.arrive State.setMt
  extract_lets
  split
  · exact .refl s
  · constructor <;> rfl

theorem regs_reach (s : State) (full : Nat) : (s.reach full).regs = s.regs := by
  unfold State.reach State.arrive State.setMt
  extract_lets
  split
  · rfl
  · rfl

theorem sameLine_time (s : State) (x : TimeSt) (n : Nat) : SameLine n s { s with time := x } := ⟨rfl, rfl, rfl⟩

theorem sameLine_reach (s : State) (full n : Nat) : SameLine n s (s.reach full) :=
  ⟨port_of_drv (reach_works s full).drv n, rr_of_regs (regs_reach s full) _ _, rr_of_regs (regs_reach s full) _ _⟩

/-- The state in which the ports launch the next drive frame of the tick. -/
def State.atFrame (s : State) : State :=
  let u := s.reach (s.frameStart s.time.frame)
  { u with time := { u.time with frame := s.time.frame + 1 } }

/-- The number of that frame. -/
def State.frameNo (s : State) : Nat :=
  let u := s.reach (s.frameStart s.time.frame)
  tickAt u.now / 24000 * 1536000 + 64 * (tickAt u.now % 24000) + s.time.frame

theorem sameLine_atFrame (s : State) (n : Nat) : SameLine n s s.atFrame :=
  (sameLine_reach s _ n).trans (sameLine_time _ _ n)

theorem exec_driveFrameLaunch (s : State) (hf : s.time.frame < 64) (hs : s.time.frame / 16 < s.time.sample) :
    exec .driveFrameLaunch s
      = .next ((List.range 24).foldl (fun t m => t.launchPort s.frameNo m) s.atFrame.dpHandOver) := by
  show execDriveFrameLaunch s = _
  unfold execDriveFrameLaunch
  rw [if_neg (by omega)]
  rfl

/-- The work of a drive-frame start on a port that is not armed: the port's own launch is done. -/
theorem driveFrameLaunch_launched (s : State) {n : Nat} (hf : s.time.frame < 64) (hs : s.time.frame / 16 < s.time.sample)
    (hn : n < 24) (ha : s.arm .DP_CTL n = false) :
    Completes .driveFrameLaunch s fun t => t.time = s.atFrame.time ∧
      ∃ a b, SameLine n s a ∧ LaunchedPort n s.frameNo a b ∧ SamePort n b t := by
  have hv := samePort_dpHandOver s.atFrame hn ((sameLine_atFrame s n).arm.trans ha)
  obtain ⟨a, b, hva, hab, hbt⟩ := launchPort_foldl (gf := s.frameNo) hn (List.range 24)
    (fun m h => List.mem_range.mp h) List.nodup_range (List.mem_range.mpr hn) s.atFrame.dpHandOver
  refine ⟨_, exec_driveFrameLaunch s hf hs, ?_, a, b, (sameLine_atFrame s n).trans (hv.trans hva).line, hab, hbt⟩
  exact hbt.time.trans (hab.time.trans (hv.trans hva).time)

/-- A drive frame starts on every port in turn (R27, R170). -/
theorem driveFrameLaunch_spec (s : State) {n : Nat} (hf : s.time.frame < 64) (hs : s.time.frame / 16 < s.time.sample)
    (hn : n < 24) (ha : s.arm .DP_CTL n = false) :
    Completes .driveFrameLaunch s fun t => t.time = s.atFrame.time
      ∧ (s.fg F.DP_STAT_STATE n ≠ 0 → s.fb F.DP_CTL_EN n = true → ∃ f, (t.port n).tx = some f ∧ FrameOk s.frameNo f)
      ∧ (s.fg F.DP_STAT_STATE n = 0 → s.fb F.DP_CTL_EN n = true → t.fg F.DP_STAT_STATE n = 1)
      ∧ (s.fg F.DP_STAT_STATE n = 0 → s.fb F.DP_CTL_EN n = false → (s.port n).offLeft = 0 → (t.port n).tx = none) := by
  obtain ⟨t, ht, htime, a, b, hsa, hab, hbt⟩ := driveFrameLaunch_launched s hf hs hn ha
  refine ⟨t, ht, htime, fun h0 h1 => ?_, fun h0 h1 => ?_, fun h0 h1 h2 => ?_⟩
  · rw [hbt.port]
    exact hab.sends (hsa.state ▸ h0) (hsa.en.trans h1)
  · exact hbt.line.state.trans (hab.trains (hsa.state.trans h0) (hsa.en.trans h1))
  · rw [hbt.port]
    exact hab.rests (hsa.state.trans h0) (hsa.en.trans h1) (hsa.port ▸ h2)

theorem driveFrameLaunch_waits (s : State) (h : s.time.sample ≤ s.time.frame / 16) : exec .driveFrameLaunch s = .next s := by
  show execDriveFrameLaunch s = _
  unfold execDriveFrameLaunch
  rw [if_pos (.inr h)]

/-! ### The codes of a channel (R171, R187) -/

theorem legCodes_hiZ (s : State) (n k gf : Nat) (h : s.hiZ (8 * n + k) = true) : s.legCodes n k gf = ([0xFFFF, 0xFFFF], s) := by
  unfold State.legCodes
  rw [if_pos h]

theorem clampI_toNat_mem {lo : Nat} (hlo : lo ≤ 32768) (x : Int) :
    lo ≤ (clampI lo (65536 - lo) x).toNat ∧ (clampI lo (65536 - lo) x).toNat ≤ 65536 - lo := by
  unfold clampI
  split
  · omega
  · split <;> omega

/-- A field of another register of the same port is not written. -/
theorem fg_fs_reg (s : State) (f g : Fld) (n v : Nat) (h : g.reg.ctorIdx ≠ f.reg.ctorIdx) : (s.fs f n v).fg g n = s.fg g n := by
  unfold State.fs State.fg
  rw [rr_rw_ne]
  unfold regKey
  omega

theorem fg_setCh (s : State) (c : Nat) (x : DrvCh) (f : Fld) (i : Nat) : (s.setCh c x).fg f i = s.fg f i := rfl
theorem fg_free (s : State) (k : Nat) (f : Fld) (i : Nat) : ({ s with free := k } : State).fg f i = s.fg f i := rfl

/-- The modulation index of a period leaves the settings of the port. -/
theorem fg_modStep (s : State) (n k gf : Nat) (g : Fld) (h : g.reg.ctorIdx ≠ RegId.DP_ERR.ctorIdx) :
    (s.modStep n k gf).fg g n = s.fg g n := by
  unfold State.modStep
  extract_lets c x q rail mp top u
  split
  · rfl
  · split
    · exact (fg_fs_reg _ F.DP_ERR_CLIP g n _ h).trans (fg_setCh _ _ _ _ _)
    · split
      · exact (fg_setCh _ _ _ _ _).trans (fg_free s _ _ _)
      · exact fg_setCh _ _ _ _ _

/-- L of R187 at a port. -/
def State.pulseMin (s : State) (n : Nat) : Nat := codeMin (s.fg F.DP_MOD_MIN_PULSE n) (codeStep (s.fg F.DP_CTL_CODE_BITS n))

/-- The codes of a channel that is not Hi-Z are those of high times within the clamp. -/
theorem legCodes_mem (s : State) (n k gf : Nat) (h : s.hiZ (8 * n + k) = false) (hlo : s.pulseMin n ≤ 32768) :
    ∃ a b, (s.legCodes n k gf).1 = [codeOf (gf % 2) a, codeOf (gf % 2) b]
      ∧ s.pulseMin n ≤ a ∧ a ≤ 65536 - s.pulseMin n ∧ s.pulseMin n ≤ b ∧ b ≤ 65536 - s.pulseMin n := by
  unfold State.legCodes
  rw [if_neg (by rw [h]; decide)]
  dsimp only
  rw [fg_modStep s n k gf F.DP_CTL_CODE_BITS (by decide), fg_modStep s n k gf F.DP_MOD_MIN_PULSE (by decide)]
  have ha := fun x => clampI_toNat_mem hlo x
  exact ⟨_, _, rfl, (ha _).1, (ha _).2, (ha _).1, (ha _).2⟩

theorem codeOf_pair (h : Nat) (hh : h ≤ 65536) : codeOf 0 h + codeOf 1 h = 65536 := by
  unfold codeOf
  rw [if_pos rfl, if_neg (by decide)]
  omega

end Sys2Proof.Machine
end

