-- ==== Sys2Proof/Proofs/DriveLinks.lean ====
section
/-! Drive links (R174, R175, R180): what a frame of the cell does to its port, training, loss and the mailbox. -/

namespace Sys2Proof.Machine

/-! ### What a frame leaves of the status of its port -/

/-- Media Time's tick, the port's status word and the tick of its release stay. -/
structure SameUp (n : Nat) (s t : State) : Prop where
  tick : t.time.tick = s.time.tick
  stat : t.rr .DP_STAT n = s.rr .DP_STAT n
  up   : (t.port n).upTick = (s.port n).upTick

section
variable {n : Nat}

theorem SameUp.refl (s : State) : SameUp n s s := ⟨rfl, rfl, rfl⟩

theorem SameUp.trans {s t u : State} (h : SameUp n s t) (k : SameUp n t u) : SameUp n s u :=
  ⟨k.tick.trans h.tick, k.stat.trans h.stat, k.up.trans h.up⟩

theorem SamePort.sameUp {s t : State} (h : SamePort n s t) : SameUp n s t :=
  ⟨congrArg TimeSt.tick h.time, h.stat, congrArg DrvPort.upTick h.port⟩

theorem SameUp.fg {s t : State} (h : SameUp n s t) (f : Fld) (hf : f.reg = .DP_STAT) : t.fg f n = s.fg f n := by
  refine fg_of_rr ?_
  rw [hf]
  exact h.stat

theorem sameUp_setPort (s : State) (x : DrvPort) (h : x.upTick = (s.port n).upTick) : SameUp n s (s.setPort n x) := by
  refine ⟨rfl, rfl, ?_⟩
  rw [port_setPort, if_pos rfl]
  exact h

theorem regsKept_post (s : State) (typ source : Nat) (p : List Byte) :
    RegsKept [.HIF_RING_IDX, .HIF_STAT] s (s.post typ source p) := by
  have lost : ∀ t : State, RegsKept [.HIF_RING_IDX, .HIF_STAT] t (t.fadd F.HIF_STAT_EVT_LOST 0 1) := fun t =>
    regsKept_fs (l := [.HIF_RING_IDX, .HIF_STAT]) t F.HIF_STAT_EVT_LOST 0 _ (by decide) (by decide)
  unfold State.post State.postAt
  simp only
  split
  · next r l hr =>
    have hlt : r < 32 := mem_ringsOf (by rw [hr]; exact List.mem_cons_self)
    split
    · exact ((regsKept_hif s _).trans (regsKept_hif _ _)).trans (lost _)
    · exact ((regsKept_hif s _).trans (regsKept_hif _ _)).trans ((told_ringReturn _ _ _ hlt).regs.mono (by simp))
  · exact ((regsKept_hif s _).trans (regsKept_hif _ _)).trans (lost _)

theorem samePort_post (s : State) (typ source : Nat) (p : List Byte) (hn : n < 24) : SamePort n s (s.post typ source p) :=
  ⟨(epoch_post s typ source p).time, port_of_drv (post_works s typ source p).drv n,
    regsKept_post s typ source p _ n (by decide) (by omega), regsKept_post s typ source p _ n (by decide) (by omega)⟩

theorem sameUp_mbxAck (s : State) (ack : Nat) (hn : n < 24) : SameUp n s (s.mbxAck n ack) := by
  unfold State.mbxAck
  extract_lets x u
  split
  · exact .refl s
  · next b t hout =>
    split
    · exact .refl s
    · split
      · have hu : SameUp n s u := sameUp_setPort s _ rfl
        split
        · next e he => exact hu.trans (samePort_finish u e _ _ _ (by omega)).sameUp
        · exact hu
      · exact sameUp_setPort s _ rfl

theorem sameUp_mbxIn (s : State) (b : List Byte) (hn : n < 24) : SameUp n s (s.mbxIn n b) := by
  unfold State.mbxIn
  extract_lets x q h m u
  have hu : SameUp n s u := sameUp_setPort s _ rfl
  split
  · exact .refl s
  · split
    · unfold State.postMbx
      exact hu.trans (SamePort.foldl _ (fun t i _ => samePort_post t _ _ _ hn) u).sameUp
    · exact hu

theorem samePort_rampIn (s : State) (c t k shape : Nat) : SamePort n s (s.rampIn c t k shape) := by
  unfold State.rampIn
  exact .ite (.refl s) (samePort_setCh s _ _)

theorem samePort_showVe (s : State) {g : Nat} (hg : g < 48) (hn : n < 24) : SamePort n s (s.showVe g) := by
  unfold State.showVe
  extract_lets d m t
  have ht : SamePort n s t := samePort_fs s _ g _ (by omega) (by omega) (.inl (by decide))
  exact .ite ht (ht.trans (samePort_fs t _ g _ (by omega) (by omega) (.inl (by decide))))

theorem samePort_startMeas (s : State) {g : Nat} (hg : g < 48) (hn : n < 24) : SamePort n s (s.startMeas g) := by
  have meas : ∀ (t : State) (f : Fld) v, f.reg = .FLT_CAP → SamePort n t (t.fs f g v) := fun t f v h =>
    samePort_fs t f g v (by omega) (by omega) (.inl (by rw [h]; decide))
  unfold State.startMeas
  exact (((samePort_setGrp s g _).trans (meas _ F.FLT_CAP_MEAS _ rfl)).trans (meas _ F.FLT_CAP_CAUSE _ rfl)).trans
    (samePort_showVe _ hg hn)

/-- A port that enters UP shows it and is released at the next tick boundary. -/
theorem portUp_up (s : State) (hn : n < 24) :
    (s.portUp n).time = s.time ∧ (s.portUp n).fg F.DP_STAT_STATE n = 3 ∧ ((s.portUp n).port n).upTick = s.time.tick + 1 := by
  unfold State.portUp
  extract_lets t _ u v
  have huv : SamePort n u v := .foldl _ (fun w k _ => samePort_rampIn w _ _ _ _) u
  have hv : SamePort n v ([2 * n, 2 * n + 1].foldl (fun s g => if s.fg F.BG_CTL_OUT_MODE g ≠ 0 then s.startMeas g else s) v) := by
    refine .foldl _ (fun w g hg => .ite (samePort_startMeas w ?_ hn) (.refl w)) v
    rcases List.mem_pair.mp hg with h | h <;> omega
  have h := huv.trans hv
  refine ⟨h.time.trans ((time_setPort _ _ _).trans (fs_time _ _ _ _)), h.line.state.trans ?_, ?_⟩
  · exact (fg_setPort _ _ _ _ _).trans (fg_fs_same s F.DP_STAT_STATE n 3 (by decide) (by decide))
  · rw [h.port, port_setPort, if_pos rfl]

/-- The channels of a port that waits for its release send Hi-Z. -/
theorem hiZ_of_upTick (s : State) {k : Nat} (hk : k < 8) (h : s.time.tick < (s.port n).upTick) : s.hiZ (8 * n + k) = true := by
  have e : chPort (8 * n + k) = n := by
    unfold chPort
    omega
  unfold State.hiZ
  extract_lets x
  rw [e, decide_eq_true h]
  simp only [Bool.or_true, Bool.true_or]

/-! ### The values of a valid frame -/

/-- A port once the values of a valid frame are its own. -/
def DrvPort.heard (x : DrvPort) (f : RxFrame) (up : Nat) : DrvPort :=
  { x with rx := rxVals f.bytes, rxOld := x.rx, rxAt := up, got := 2, age := 0,
           rttBad := if 400 < f.rtt then x.rttBad + 1 else 0 }

/-- The state once they are (R174). -/
def State.rxTaken (s : State) (n : Nat) (f : RxFrame) : State :=
  let r := rxVals f.bytes
  let s := s.setPort n ((s.port n).heard f s.time.up)
  let s := ((s.fs F.DP_STAT_TEMP_MAX n (tempMax f.bytes)).fs F.DP_STAT_FOLLOWED n (b2n (r.status.testBit 1))).fs
    F.DP_STAT_CELL_READY n (b2n (r.status.testBit 0))
  let s := (s.fs F.DP_SENSE_RAIL0 n r.rail0).fs F.DP_SENSE_RAIL1 n r.rail1
  s

/-- What remains to be done with it, by the port's state. -/
def State.rxServed (s : State) (n : Nat) (f : RxFrame) (gf : Nat) : State :=
  let r := rxVals f.bytes
  let st := s.fg F.DP_STAT_STATE n
  let s := if s.fg F.TW_STAT_SYNC_PHASE 0 = 3 ∧ s.twRole = 4 then
      { s with tw := { s.tw with recs := s.tw.recs ++ [(s.time.tick, n, gf, r)] } }
    else s
  let s := if st = 1 then s.trainFrame n (leAt f.bytes 2 2) f.rtt gf
    else if st = 2 then (if r.status.testBit 0 then s.portUp n else s.fs F.DP_STAT_CAUSE n 5)
    else if st = 3 then s.senseFrame n gf r
    else s
  if st = 2 ∨ st = 3 then (s.mbxAck n (leAt f.bytes 0x35 1)).mbxIn n ((f.bytes.drop 0x34).take 16) else s

theorem rxGood_eq (s : State) (n : Nat) (f : RxFrame) : s.rxGood n f = (s.rxTaken n f).rxServed n f (s.port n).lastGf := rfl

theorem fg_stat_fs (s : State) (f g : Fld) (n v : Nat) (hf : f.reg = .DP_STAT ∧ f.lo ≤ f.hi ∧ f.hi < 32)
    (hg : g.reg = .DP_STAT ∧ g.lo ≤ g.hi ∧ f.apart g = true) : (s.fs f n v).fg g n = s.fg g n :=
  fg_fs_apart s f g n v (hg.1.trans hf.1.symm) hf.2.1 hf.2.2 hg.2.1 hg.2.2

theorem rxTaken_time (s : State) (n : Nat) (f : RxFrame) : (s.rxTaken n f).time = s.time := by
  unfold State.rxTaken
  exact (fs_time _ _ _ _).trans ((fs_time _ _ _ _).trans ((fs_time _ _ _ _).trans ((fs_time _ _ _ _).trans
    ((fs_time _ _ _ _).trans (time_setPort _ _ _)))))

theorem rxTaken_port (s : State) (n m : Nat) (f : RxFrame) :
    (s.rxTaken n f).port m = if m = n then (s.port n).heard f s.time.up else s.port m := by
  refine Eq.trans (port_of_drv ?_ m) (port_setPort s n m ((s.port n).heard f s.time.up))
  unfold State.rxTaken
  exact (fs_drv _ _ _ _).trans ((fs_drv _ _ _ _).trans ((fs_drv _ _ _ _).trans ((fs_drv _ _ _ _).trans (fs_drv _ _ _ _))))

theorem rxTaken_state (s : State) (n : Nat) (f : RxFrame) :
    (s.rxTaken n f).fg F.DP_STAT_STATE n = s.fg F.DP_STAT_STATE n := by
  unfold State.rxTaken
  dsimp only
  rw [fg_fs_reg _ F.DP_SENSE_RAIL1, fg_fs_reg _ F.DP_SENSE_RAIL0, fg_stat_fs _ F.DP_STAT_CELL_READY,
    fg_stat_fs _ F.DP_STAT_FOLLOWED, fg_stat_fs _ F.DP_STAT_TEMP_MAX, fg_setPort]
  all_goals decide

/-- In training a valid frame is judged alone. -/
theorem rxServed_train (s : State) (f : RxFrame) (gf : Nat) (hst : s.fg F.DP_STAT_STATE n = 1) :
    ∃ w, (∀ m, SamePort m s w) ∧ s.rxServed n f gf = w.trainFrame n (leAt f.bytes 2 2) f.rtt gf := by
  unfold State.rxServed
  extract_lets r st _ w u
  have hst : st = 1 := hst
  refine ⟨w, fun m => .ite (samePort_tw s _) (.refl s), ?_⟩
  rw [if_neg (by omega)]
  exact if_pos hst

/-- In READY it is judged by whether the cell is ready, and its mailbox chunk is taken. -/
theorem rxServed_ready (s : State) (f : RxFrame) (gf : Nat) (hn : n < 24) (hst : s.fg F.DP_STAT_STATE n = 2) :
    ∃ w, SamePort n s w ∧ SameUp n
      (if (rxVals f.bytes).status.testBit 0 then w.portUp n else w.fs F.DP_STAT_CAUSE n 5) (s.rxServed n f gf) := by
  unfold State.rxServed
  extract_lets r st _ w u
  have hst : st = 2 := hst
  refine ⟨w, .ite (samePort_tw s _) (.refl s), ?_⟩
  have hu : u = if r.status.testBit 0 then w.portUp n else w.fs F.DP_STAT_CAUSE n 5 :=
    (if_neg (by omega)).trans (if_pos hst)
  rw [if_pos (show st = 2 ∨ st = 3 from .inl hst), hu]
  exact (sameUp_mbxAck _ _ hn).trans (sameUp_mbxIn _ _ hn)

end

/-! ### DRIVE_RX_FRAME -/

/-- The state once the frame has come: its round trip is shown. -/
def State.rxStart (s : State) (n : Nat) (f : RxFrame) : State := (s.elapse f.dt).fs F.DP_STAT_RTT n (satU 10 f.rtt)

theorem tick_setCount (s : State) (m : Nat) : (s.setCount m).time.tick = s.time.tick := rfl
theorem tick_up (s : State) (k : Nat) : ({ s with time := { s.time with up := k } } : State).time.tick = s.time.tick := rfl

theorem tick_elapse (s : State) (dt : Nat) : (s.elapse dt).time.tick = s.time.tick := by
  unfold State.elapse
  extract_lets d t
  split
  · rfl
  · exact (tick_up t _).trans (tick_setCount s _)

theorem rxStart_tick (s : State) (n : Nat) (f : RxFrame) : (s.rxStart n f).time.tick = s.time.tick :=
  (congrArg TimeSt.tick (fs_time _ _ _ _)).trans (tick_elapse s f.dt)

theorem rxStart_port (s : State) (n m : Nat) (f : RxFrame) : (s.rxStart n f).port m = s.port m :=
  port_of_drv ((fs_drv _ _ _ _).trans (elapse_works s f.dt).drv) m

theorem rxStart_state (s : State) (n : Nat) (f : RxFrame) :
    (s.rxStart n f).fg F.DP_STAT_STATE n = s.fg F.DP_STAT_STATE n := by
  unfold State.rxStart
  rw [fg_stat_fs _ F.DP_STAT_RTT _ _ _ (by decide) (by decide), fg_of_regs (regs_elapse s f.dt)]

theorem rxStart_crc (s : State) (n : Nat) (f : RxFrame) : (s.rxStart n f).fg F.DP_ERR_CRC n = s.fg F.DP_ERR_CRC n := by
  unfold State.rxStart
  rw [fg_fs_reg _ F.DP_STAT_RTT _ _ _ (by decide), fg_of_regs (regs_elapse s f.dt)]

theorem exec_driveRxFrame_valid (s : State) {n : Nat} (f : RxFrame) (hn : n < 24) (hst : s.fg F.DP_STAT_STATE n ≠ 0)
    (hv : rxValid f = true) : exec (.driveRxFrame n f) s
      = .next (((s.rxStart n f).rxTaken n f).rxServed n f (s.port n).lastGf) := by
  have hx : (s.elapse f.dt).fg F.DP_STAT_STATE n ≠ 0 := by rwa [fg_of_regs (regs_elapse s f.dt)]
  have e : execDriveRxFrame n f s = .next ((s.rxStart n f).rxGood n f) := by
    unfold execDriveRxFrame
    dsimp only
    rw [if_neg (by omega), if_pos hv]
    rfl
  rw [← rxStart_port s n n f]
  exact e.trans (congrArg Host.Outcome.next (rxGood_eq _ n f))

/-- A frame that answers the TX frame before the last, in time, is counted; the 64th ends the training. -/
theorem trainFrame_counts (s : State) {n seq rtt gf : Nat} (hst : s.fg F.DP_STAT_STATE n = 1) (hseq : seq = (gf + 65534) % 65536)
    (hr : rtt ≤ 400) :
    (s.trainFrame n seq rtt gf).fg F.DP_STAT_STATE n = (if 63 ≤ (s.port n).good then 2 else 1)
      ∧ ∀ m, (s.trainFrame n seq rtt gf).port m
          = if m = n then { s.port n with good := (s.port n).good + 1 } else s.port m := by
  unfold State.trainFrame
  extract_lets x t
  rw [if_neg (not_not.mpr hseq), if_neg (Nat.not_lt.mpr hr)]
  by_cases h : 63 ≤ x.good
  · rw [if_pos (by omega), if_pos h]
    exact ⟨fg_fs_same _ _ _ _ (by decide) (by decide), fun m => (port_of_drv (fs_drv _ _ _ _) m).trans (port_setPort s n m _)⟩
  · rw [if_neg (by omega), if_neg h]
    exact ⟨(fg_setPort _ _ _ _ _).trans hst, fun m => port_setPort s n m _⟩

theorem driveRxFrame_trains (s : State) {n : Nat} (f : RxFrame) (x : TxFrame) (hn : n < 24) (hst : s.fg F.DP_STAT_STATE n = 1)
    (hv : rxValid f = true) (hx : (s.port n).tx = some x) (hseq : leAt f.bytes 2 2 = (x.gf + 65534) % 65536) (hr : f.rtt ≤ 400) :
    Completes (.driveRxFrame n f) s fun t =>
      t.fg F.DP_STAT_STATE n = (if 63 ≤ (s.port n).good then 2 else 1) ∧ (t.port n).good = (s.port n).good + 1
        ∧ (t.port n).got = 2 ∧ (t.port n).rx = rxVals f.bytes ∧ ∀ m, m ≠ n → t.port m = s.port m := by
  have hu : ((s.rxStart n f).rxTaken n f).fg F.DP_STAT_STATE n = 1 :=
    (rxTaken_state _ n f).trans ((rxStart_state s n f).trans hst)
  obtain ⟨w, hw, hserved⟩ := rxServed_train _ f (s.port n).lastGf hu
  have hgf : (s.port n).lastGf = x.gf := by
    unfold DrvPort.lastGf
    rw [hx]
    rfl
  have hp : ∀ m, w.port m = if m = n then (s.port n).heard f (s.rxStart n f).time.up else s.port m := fun m => by
    rw [(hw m).port, rxTaken_port, rxStart_port, rxStart_port]
  have hpn := (hp n).trans (if_pos rfl)
  obtain ⟨hstate, hport⟩ := trainFrame_counts w ((hw n).line.state.trans hu) hseq hr
  have hn' := (hport n).trans (if_pos rfl)
  rw [hpn] at hstate hn'
  rw [hgf] at hserved
  refine ⟨_, exec_driveRxFrame_valid s f hn (by omega) hv, ?_⟩
  rw [hgf, hserved]
  refine ⟨hstate, ?_, ?_, ?_, fun m hm => (hport m).trans ((if_neg hm).trans ((hp m).trans (if_neg hm)))⟩
  · exact congrArg DrvPort.good hn'
  · exact congrArg DrvPort.got hn'
  · exact congrArg DrvPort.rx hn'

/-- A valid frame in READY brings the port UP once the cell is ready. -/
theorem driveRxFrame_ready (s : State) {n : Nat} (f : RxFrame) (hn : n < 24) (hst : s.fg F.DP_STAT_STATE n = 2)
    (hv : rxValid f = true) : Completes (.driveRxFrame n f) s fun t =>
      ((leAt f.bytes 0x30 4).testBit 0 = true → t.fg F.DP_STAT_STATE n = 3 ∧ (t.port n).upTick = s.time.tick + 1
        ∧ ∀ k, k < 8 → t.hiZ (8 * n + k) = true)
      ∧ ((leAt f.bytes 0x30 4).testBit 0 = false → t.fg F.DP_STAT_STATE n = 2 ∧ t.fg F.DP_STAT_CAUSE n = 5) := by
  have hu : ((s.rxStart n f).rxTaken n f).fg F.DP_STAT_STATE n = 2 :=
    (rxTaken_state _ n f).trans ((rxStart_state s n f).trans hst)
  obtain ⟨w, hw, ht⟩ := rxServed_ready _ f (s.port n).lastGf hn hu
  have hwt : w.time.tick = s.time.tick := by rw [hw.time, rxTaken_time, rxStart_tick]
  refine ⟨_, exec_driveRxFrame_valid s f hn (by omega) hv, fun h => ?_, fun h => ?_⟩
  · obtain ⟨htime, hstate, hup⟩ := portUp_up w hn
    rw [if_pos (show (rxVals f.bytes).status.testBit 0 = true from h)] at ht
    have up := ht.up.trans (hup.trans (congrArg (· + 1) hwt))
    refine ⟨(ht.fg _ rfl).trans hstate, up, fun k hk => hiZ_of_upTick _ hk ?_⟩
    rw [up, ht.tick, htime, hwt]
    exact Nat.lt_succ_self _
  · rw [if_neg (show ¬ (rxVals f.bytes).status.testBit 0 = true from fun e => absurd (h.symm.trans e) (by decide))] at ht
    refine ⟨(ht.fg _ rfl).trans ?_, (ht.fg _ rfl).trans ?_⟩
    · exact (fg_stat_fs _ F.DP_STAT_CAUSE _ _ _ (by decide) (by decide)).trans (hw.line.state.trans hu)
    · exact fg_fs_same _ _ _ _ (by decide) (by decide)

/-- An invalid frame in training starts the count anew and is counted (R174). -/
theorem driveRxFrame_invalid (s : State) {n : Nat} (f : RxFrame) (hn : n < 24) (hst : s.fg F.DP_STAT_STATE n = 1)
    (hv : rxValid f = false) : Completes (.driveRxFrame n f) s fun t =>
      t.fg F.DP_STAT_STATE n = 1 ∧ (t.port n).good = 0 ∧ (t.port n).got = 1
        ∧ t.fg F.DP_ERR_CRC n = min (2 ^ (F.DP_ERR_CRC.hi + 1 - F.DP_ERR_CRC.lo) - 1) (s.fg F.DP_ERR_CRC n + 1) := by
  have hx : (s.elapse f.dt).fg F.DP_STAT_STATE n = 1 := by rwa [fg_of_regs (regs_elapse s f.dt)]
  let u := (s.rxStart n f).setPort n
    { (s.rxStart n f).port n with got := 1, good := 0, cause := if f.codesOk then 2 else 1 }
  have e : execDriveRxFrame n f s = .next (u.fadd F.DP_ERR_CRC n 1) := by
    unfold execDriveRxFrame
    dsimp only
    rw [if_neg (by omega), if_neg (by rw [hv]; decide), if_neg (by omega)]
    rfl
  have hp : (u.fadd F.DP_ERR_CRC n 1).port n
      = { (s.rxStart n f).port n with got := 1, good := 0, cause := if f.codesOk then 2 else 1 } :=
    (port_of_drv (fs_drv _ _ _ _) n).trans ((port_setPort _ _ _ _).trans (if_pos rfl))
  refine ⟨_, e, ?_, ?_, ?_, ?_⟩
  · exact (fg_fs_reg _ F.DP_ERR_CRC _ _ _ (by decide)).trans ((fg_setPort _ _ _ _ _).trans ((rxStart_state s n f).trans hst))
  · rw [hp]
  · rw [hp]
  · refine (fg_fs_same _ F.DP_ERR_CRC n _ (by decide) (by decide)).trans ?_
    rw [show u.fg F.DP_ERR_CRC n = _ from (fg_setPort _ _ _ _ _).trans (rxStart_crc s n f)]
    unfold satU
    show min (s.fg F.DP_ERR_CRC n + 1) (2 ^ 12 - 1) % 2 ^ 12 = min (2 ^ 12 - 1) (s.fg F.DP_ERR_CRC n + 1)
    omega

/-! ### Training, loss and the mailbox -/

theorem regsKept_setPort (l : List RegId) (s : State) (n : Nat) (x : DrvPort) : RegsKept l s (s.setPort n x) := .of_regs rfl
theorem regsKept_det (l : List RegId) (s : State) (a b c d e : Nat) : RegsKept l s (s.det a b c d e) := .of_regs rfl
theorem port_det (s : State) (a b c d e m : Nat) : (s.det a b c d e).port m = s.port m := rfl
theorem detq_setPort (s : State) (n : Nat) (x : DrvPort) : (s.setPort n x).detq = s.detq := rfl

/-- Training that takes 10 ms is reported once (R175). -/
theorem trainingTimeout_raises (s : State) {n : Nat} (hn : n < 24) (hst : s.fg F.DP_STAT_STATE n = 1)
    (hr : (s.port n).raised = false) (ht : (s.port n).since + 10 * msNs ≤ s.time.up) :
    Completes (.trainingTimeout n) s fun t => (t.port n).raised = true ∧ t.fg F.DP_STAT_STATE n = 1
      ∧ t.detq = s.detq ++ [⟨0x50, n, 0, 2, (s.port n).cause, s.mts, false, false, 0⟩] ∧ RegsKept [.DP_STAT] s t := by
  let u := s.setPort n { s.port n with raised := true }
  have e : execTrainingTimeout n s
      = .next ((u.fs F.DP_STAT_CAUSE n (s.port n).cause).det 0x50 n 0 2 (s.port n).cause) := by
    unfold execTrainingTimeout
    dsimp only
    rw [if_pos ⟨hn, hst, by rw [hr]; rfl, ht⟩]
  refine ⟨_, e, ?_, ?_, ?_, ?_⟩
  · rw [port_det, port_of_drv (fs_drv _ _ _ _), port_setPort, if_pos rfl]
  · rw [fg_det, fg_stat_fs _ F.DP_STAT_CAUSE _ _ _ (by decide) (by decide), fg_setPort, hst]
  · rw [detq_det, fs_detq, detq_setPort, mts_of_time ((fs_time _ _ _ _).trans (time_setPort _ _ _))]
  · exact ((regsKept_setPort _ s n _).trans (regsKept_fs _ _ _ _ (by decide) (by omega))).trans (regsKept_det _ _ _ _ _ _ _)

theorem fg_setGrp (s : State) (g : Nat) (x : BoostGrp) (f : Fld) (i : Nat) : (s.setGrp g x).fg f i = s.fg f i := rfl
theorem time_setGrp (s : State) (g : Nat) (x : BoostGrp) : (s.setGrp g x).time = s.time := rfl
theorem detq_setGrp (s : State) (g : Nat) (x : BoostGrp) : (s.setGrp g x).detq = s.detq := rfl
theorem fg_lwHiZ (s : State) (n : Nat) (f : Fld) (i : Nat) : (s.lwHiZ n).fg f i = s.fg f i := rfl
theorem time_lwHiZ (s : State) (n : Nat) : (s.lwHiZ n).time = s.time := rfl
theorem detq_lwHiZ (s : State) (n : Nat) : (s.lwHiZ n).detq = s.detq := rfl

/-- What a port that leaves service leaves of its groups' measurements and of the reports. -/
theorem leaveUp_spec (s : State) {n : Nat} (hn : n < 24) :
    (s.leaveUp n).time = s.time ∧ (s.leaveUp n).detq = s.detq
      ∧ (s.leaveUp n).fg F.FLT_CAP_MEAS (2 * n) = 0 ∧ (s.leaveUp n).fg F.FLT_CAP_MEAS (2 * n + 1) = 0 := by
  unfold State.leaveUp
  simp only [List.foldl_cons, List.foldl_nil]
  refine ⟨?_, ?_, ?_, ?_⟩
  · rw [time_lwHiZ, fs_time, time_setGrp, fs_time, time_setGrp]
  · rw [detq_lwHiZ, fs_detq, detq_setGrp, fs_detq, detq_setGrp]
  · rw [fg_lwHiZ, fg_fs_other _ _ _ _ _ _ (by omega) (by omega) (.inr (by omega)), fg_setGrp]
    exact fg_fs_same _ _ _ _ (by decide) (by decide)
  · rw [fg_lwHiZ]
    exact fg_fs_same _ _ _ _ (by decide) (by decide)

theorem driveLinkDown_goes_down (s : State) {n : Nat} (hn : n < 24) (hst : s.fg F.DP_STAT_STATE n = 3)
    (hl : 4 ≤ (s.port n).age ∨ 4 ≤ (s.port n).rttBad) :
    Completes (.driveLinkDown n) s fun t => t.fg F.DP_STAT_STATE n = 4 ∧ (t.port n).since = s.time.up
      ∧ t.fg F.FLT_CAP_MEAS (2 * n) = 0 ∧ t.fg F.FLT_CAP_MEAS (2 * n + 1) = 0
      ∧ t.detq = s.detq ++ [⟨0x50, n, 0, 1, 0, s.mts, false, false, 0⟩] := by
  have lost : s.portLost n = true := by
    unfold State.portLost
    rw [Bool.or_eq_true, decide_eq_true_eq, decide_eq_true_eq]
    exact hl
  let u := (s.leaveUp n).setPort n { s.port n with since := s.time.up }
  have e : execDriveLinkDown n s = .next ((u.fs F.DP_STAT_STATE n 4).det 0x50 n 0 1 0) := by
    unfold execDriveLinkDown
    dsimp only
    rw [if_pos ⟨hn, hst, lost⟩]
  obtain ⟨htime, hdet, h0, h1⟩ := leaveUp_spec s hn
  have hmeas : ∀ g, g < 2048 → ((u.fs F.DP_STAT_STATE n 4).det 0x50 n 0 1 0).fg F.FLT_CAP_MEAS g
      = (s.leaveUp n).fg F.FLT_CAP_MEAS g := fun g hg => by
    rw [fg_det, fg_fs_other _ _ _ _ _ _ (by omega) hg (.inl (by decide)), fg_setPort]
  refine ⟨_, e, ?_, ?_, (hmeas _ (by omega)).trans h0, (hmeas _ (by omega)).trans h1, ?_⟩
  · rw [fg_det]
    exact fg_fs_same _ _ _ _ (by decide) (by decide)
  · rw [port_det, port_of_drv (fs_drv _ _ _ _), port_setPort, if_pos rfl]
  · rw [detq_det, fs_detq, detq_setPort, hdet, mts_of_time ((fs_time _ _ _ _).trans ((time_setPort _ _ _).trans htime))]

theorem downRetrainExpiry_trains (s : State) {n : Nat} (hn : n < 24) (hst : s.fg F.DP_STAT_STATE n = 4)
    (ht : (s.port n).since + msNs ≤ s.time.up) :
    Completes (.downRetrainExpiry n) s fun t =>
      t.fg F.DP_STAT_STATE n = 1 ∧ (t.port n).good = 0 ∧ RegsKept [.DP_STAT] s t := by
  refine ⟨s.toTrain n, congrArg Host.Outcome.next (if_pos ⟨hn, hst, ht⟩), state_toTrain s n, ?_, ?_⟩
  · unfold State.toTrain
    rw [port_of_drv (fs_drv _ _ _ _), port_setPort, if_pos rfl]
  · exact (regsKept_setPort _ s n _).trans (regsKept_fs _ _ _ _ (by decide) (by omega))

theorem dpMbxTimeout_ends (s : State) {n : Nat} {e : Entry} (ho : (s.port n).out ≠ []) (ht : (s.port n).outAt + msNs ≤ s.time.up)
    (he : (s.port n).entry = some e) :
    Completes (.dpMbxTimeout n) s fun t => ∃ v, Ends e Sts.DP_MBX_TIMEOUT [] v t ∧ (v.port n).out = [] ∧ (v.port n).entry = none := by
  let v := s.setPort n { s.port n with out := [], entry := none }
  have hx : execDpMbxTimeout n s = .next (v.finish e Sts.DP_MBX_TIMEOUT [] false) := by
    unfold execDpMbxTimeout
    dsimp only
    rw [if_neg (not_or.mpr ⟨ho, Nat.not_lt.mpr ht⟩), he]
  have hv : v.port n = { s.port n with out := [], entry := none } := (port_setPort _ _ _ _).trans (if_pos rfl)
  refine ⟨_, hx, v, ⟨false, rfl⟩, ?_, ?_⟩
  · rw [hv]
  · rw [hv]

/-- Settles O37: each port's launch is kept apart from the others' (`launchPort_foldl`), and each event of a port is one of its
steps. -/
theorem driveLinksComeUpAndGoDown : Obligations.DriveLinksComeUpAndGoDown := by
  unfold Obligations.DriveLinksComeUpAndGoDown
  refine ⟨fun s n hf hs hn ha => ?_, driveFrameLaunch_waits, legCodes_hiZ, legCodes_mem, codeOf_pair,
    fun n f s x hn hst hv hx hseq hr => driveRxFrame_trains s f x hn hst hv hx hseq hr,
    fun n f s hn hst hv => driveRxFrame_ready s f hn hst hv, fun n f s hn hst hv => driveRxFrame_invalid s f hn hst hv,
    fun n s hn hst hr ht => trainingTimeout_raises s hn hst hr ht, fun n s hn hst hl => driveLinkDown_goes_down s hn hst hl,
    fun n s hn hst ht => downRetrainExpiry_trains s hn hst ht, fun n s e ho ht he => dpMbxTimeout_ends s ho ht he⟩
  obtain ⟨t, ht, htime, hsend, htrain, hrest⟩ := driveFrameLaunch_spec s hf hs hn ha
  refine ⟨t, ht, htime, fun h0 h1 => ?_, htrain, hrest⟩
  obtain ⟨f, hf, ok⟩ := hsend h0 h1
  refine ⟨f, hf, ok.num, ok.len, ?_, ok.crc⟩
  rw [ok.seq, ok.num]

end Sys2Proof.Machine
end

