-- ==== Sys2Proof/Proofs/FloatChannels.lean ====
section
/-! Float (R193 - R206): what a step on one drive channel or boost group leaves of the others, the events of trips, rails and
energy bins, and the programme of a channel that is limited or muted. -/

namespace Sys2Proof.Machine

/-! ### Channels and groups -/

theorem ch_of_drv {s t : State} (h : t.drv = s.drv) (c : Nat) : t.ch c = s.ch c := by
  unfold State.ch
  rw [h]

theorem ch_setCh (s : State) (c d : Nat) (x : DrvCh) : (s.setCh c x).ch d = if d = c then x else s.ch d := mget_mput _ _ _ _ _

theorem ch_setCh_same (s : State) (c : Nat) (x : DrvCh) : (s.setCh c x).ch c = x := (ch_setCh s c c x).trans (if_pos rfl)

theorem ch_setCh_ne (s : State) {c d : Nat} (x : DrvCh) (h : d ≠ c) : (s.setCh c x).ch d = s.ch d :=
  (ch_setCh s c d x).trans (if_neg h)

theorem grp_setGrp (s : State) (g h : Nat) (x : BoostGrp) : (s.setGrp g x).grp h = if h = g then x else s.grp h :=
  mget_mput _ _ _ _ _

theorem regs_setCh (s : State) (c : Nat) (x : DrvCh) : (s.setCh c x).regs = s.regs := rfl
theorem regs_setGrp (s : State) (g : Nat) (x : BoostGrp) : (s.setGrp g x).regs = s.regs := rfl
theorem grp_setCh (s : State) (c g : Nat) (x : DrvCh) : (s.setCh c x).grp g = s.grp g := rfl
theorem ch_fs (s : State) (f : Fld) (i v c : Nat) : (s.fs f i v).ch c = s.ch c := ch_of_drv (fs_drv _ _ _ _) c

theorem upTick_of_time {s t : State} (h : t.time = s.time) (d : Nat) : t.upTick d = s.upTick d := by
  unfold State.upTick State.now
  rw [h]

theorem tickHere_of_time {s t : State} (h : t.time = s.time) : t.tickHere = s.tickHere := by
  unfold State.tickHere State.now
  rw [h]

/-- A step on channel c leaves Media Time, the other channels and every register but FLT_TRIPPED. -/
structure OnCh (c : Nat) (s t : State) : Prop where
  time : t.time = s.time
  rest : ∀ d, d ≠ c → t.ch d = s.ch d
  regs : RegsKept [.FLT_TRIPPED] s t

section
variable {c : Nat}

theorem OnCh.refl (s : State) : OnCh c s s := ⟨rfl, fun _ _ => rfl, .refl _ s⟩

theorem OnCh.trans {s t u : State} (h : OnCh c s t) (k : OnCh c t u) : OnCh c s u :=
  ⟨k.time.trans h.time, fun d hd => (k.rest d hd).trans (h.rest d hd), h.regs.trans k.regs⟩

theorem onCh_setCh (s : State) (x : DrvCh) : OnCh c s (s.setCh c x) :=
  ⟨rfl, fun _ hd => ch_setCh_ne s x hd, .of_regs rfl⟩

theorem onCh_fs_tripped (s : State) {i : Nat} (v : Nat) (hi : i < 2048) : OnCh c s (s.fs F.FLT_TRIPPED_CH i v) :=
  ⟨fs_time .., fun d _ => ch_fs s _ i v d, regsKept_fs s _ i v (by decide) hi⟩

theorem onCh_setSt (s : State) (st : Nat) (hc : c < 192) : OnCh c s (s.setSt c st) := by
  unfold State.setSt
  exact (onCh_setCh s _).trans (onCh_fs_tripped _ _ (by omega))

theorem ch_setSt (s : State) (c st : Nat) : (s.setSt c st).ch c = { s.ch c with st := st } := by
  unfold State.setSt
  exact (ch_fs _ _ _ _ c).trans (ch_setCh_same s c _)

theorem ch_hf (s : State) (m : AMap Pilot) (d : Nat) : ({ s with drv := { s.drv with hf := m } } : State).ch d = s.ch d := rfl

theorem onCh_hf (s : State) (m : AMap Pilot) : OnCh c s { s with drv := { s.drv with hf := m } } := ⟨rfl, fun _ _ => rfl, .of_regs rfl⟩
theorem onCh_free (s : State) (k : Nat) : OnCh c s { s with free := k } := ⟨rfl, fun _ _ => rfl, .of_regs rfl⟩

theorem onCh_rampIn (s : State) (t n shape : Nat) : OnCh c s (s.rampIn c t n shape) := by
  unfold State.rampIn
  split
  · exact .refl s
  · exact onCh_setCh s _

theorem ch_rampIn (s : State) (c : Nat) {t n shape : Nat} (h : (s.ch c).st ≠ 0) :
    (s.rampIn c t n shape).ch c = { s.ch c with dg := ⟨0, 1048576, t, n, shape⟩ } := by
  unfold State.rampIn
  rw [if_neg h]
  exact ch_setCh_same s c _

/-! ### The retry cycle (R203) -/

theorem onCh_toCheck (s : State) (hc : c < 192) : OnCh c s (s.toCheck c) := by
  unfold State.toCheck
  exact ((onCh_setCh s _).trans (onCh_setSt _ 3 hc)).trans (onCh_hf _ _)

theorem ch_toCheck (s : State) (c : Nat) :
    (s.toCheck c).ch c = { s.ch c with timer := s.upTick (100 * msNs), ovr := false, st := 3 } := by
  unfold State.toCheck
  refine (ch_hf _ _ _).trans ((ch_setSt _ c 3).trans ?_)
  rw [ch_setCh_same]

theorem ch_retrip (s : State) (c : Nat) : (s.retrip c).ch c =
    { s.ch c with retry := min (2 * (s.ch c).retry) 3000, timer := s.upTick (min (2 * (s.ch c).retry) 3000 * 10 * msNs), st := 2 } := by
  unfold State.retrip
  refine (ch_setSt _ c 2).trans ?_
  rw [ch_setCh_same]

theorem retryExpiry_checks (s : State) (hc : c < 192) (hst : (s.ch c).st = 2) (ht : (s.ch c).timer ≤ s.time.up) :
    Completes (.retryExpiry c) s fun t => (t.ch c).st = 3 ∧ (t.ch c).timer = s.upTick (100 * msNs)
      ∧ (∀ d, d ≠ c → t.ch d = s.ch d) ∧ RegsKept [.FLT_TRIPPED] s t := by
  have h := onCh_toCheck s hc
  refine ⟨s.toCheck c, congrArg Host.Outcome.next (if_pos ⟨hc, hst, ht⟩), ?_, ?_, h.rest, h.regs⟩
  · rw [ch_toCheck]
  · rw [ch_toCheck]

theorem tripFreeExpiry_resets (s : State) (hc : c < 192) (hst : (s.ch c).st = 1)
    (ht : (s.ch c).normAt + 30 * secNs ≤ s.time.up) :
    Completes (.tripFreeExpiry c) s fun t => (t.ch c).retry = lnRetry (s.lnE c) ∧ (t.ch c).st = 1 ∧ t.regs = s.regs := by
  refine ⟨s.setCh c { s.ch c with retry := lnRetry (s.lnE c), normAt := s.time.up },
    congrArg Host.Outcome.next (if_pos ⟨hc, hst, ht⟩), ?_, ?_, regs_setCh s c _⟩
  · rw [ch_setCh_same]
  · rw [ch_setCh_same]
    exact hst

/-- A channel that passes its check. -/
def State.passCheck (s : State) (c : Nat) : State :=
  let t := (s.setCh c { s.ch c with normAt := s.time.up, ovr := false }).setSt c 1
  t.rampIn c t.tickHere 1920 1

theorem ch_passCheck (s : State) (hc : c < 192) : (s.passCheck c).ch c =
    { s.ch c with normAt := s.time.up, ovr := false, st := 1, dg := ⟨0, 1048576, s.tickHere, 1920, 1⟩ } := by
  unfold State.passCheck
  extract_lets _ t
  have ht : t.ch c = { s.ch c with normAt := s.time.up, ovr := false, st := 1 } := by
    refine (ch_setSt _ c 1).trans ?_
    rw [ch_setCh_same]
  have hn : t.tickHere = s.tickHere := tickHere_of_time ((onCh_setCh s _).trans (onCh_setSt _ 1 hc)).time
  rw [ch_rampIn t c (by rw [ht]; exact Nat.one_ne_zero), ht, hn]

theorem onCh_setPil (s : State) (hf : Bool) (d : Nat) (p : Pilot) : OnCh c s (s.setPil hf d p) := by
  unfold State.setPil
  split
  · exact onCh_hf s _
  · exact ⟨rfl, fun _ _ => rfl, .of_regs rfl⟩

theorem ch_setPil (s : State) (hf : Bool) (d e : Nat) (p : Pilot) : (s.setPil hf d p).ch e = s.ch e := by
  unfold State.setPil
  split <;> rfl

theorem ch_free (s : State) (k d : Nat) : ({ s with free := k } : State).ch d = s.ch d := rfl

/-- The end of a check is decided by |Z| (R203): the channel returns to NORMAL, or trips again. -/
theorem checkEnd_cases (s : State) (hc : c < 192) (hst : (s.ch c).st = 3) (ht : (s.ch c).timer ≤ s.time.up) :
    ∃ u : State, u.time = s.time ∧ u.ch c = s.ch c ∧
      (execCheckEnd c s = .next (u.passCheck c) ∨ execCheckEnd c s = .next (u.retrip c)) := by
  unfold execCheckEnd
  rw [if_neg (by omega)]
  extract_lets p
  refine ⟨(s.demod p.acc).2.setPil true c { p with acc := Demod.zero }, ?_, ?_, ?_⟩
  · exact (onCh_setPil (c := c) _ true c _).time.trans (onCh_free (c := c) s _).time
  · exact (ch_setPil _ true c c _).trans (ch_free s _ c)
  · exact (ite_eq_or_eq _ _ _).imp (congrArg Host.Outcome.next) (congrArg Host.Outcome.next)

theorem checkEnd_decides (s : State) (hc : c < 192) (hst : (s.ch c).st = 3) (ht : (s.ch c).timer ≤ s.time.up) :
    Completes (.checkEnd c) s fun t =>
      ((t.ch c).st = 1 ∧ (t.ch c).normAt = s.time.up ∧ (t.ch c).dg = ⟨0, 1048576, s.tickHere, 1920, 1⟩)
        ∨ ((t.ch c).st = 2 ∧ (t.ch c).retry = min (2 * (s.ch c).retry) 3000
            ∧ (t.ch c).timer = s.upTick (min (2 * (s.ch c).retry) 3000 * 10 * msNs)) := by
  obtain ⟨u, hu, hch, h | h⟩ := checkEnd_cases s hc hst ht
  · refine ⟨_, h, .inl ?_⟩
    rw [ch_passCheck u hc, hu, tickHere_of_time hu]
    exact ⟨rfl, rfl, rfl⟩
  · refine ⟨_, h, .inr ?_⟩
    rw [ch_retrip, hch, upTick_of_time hu]
    exact ⟨rfl, rfl, rfl⟩

/-! ### Rails (R196) -/

theorem railOvervoltageTrip_trips (s : State) {g x : Nat} (hg : g < 48) (ho : (s.grp g).over5 = some x)
    (ht : x + msNs ≤ s.time.up) (hoff : (s.grp g).off = false) :
    Completes (.railOvervoltageTrip g) s fun t => (t.grp g).off = true ∧ t.regs = s.regs
      ∧ t.detq = s.detq ++ [⟨0x54, g / 2, g, 2, 0, s.mts, false, false, 0⟩] := by
  let u := s.setGrp g { s.grp g with off := true }
  have e : execRailOvervoltageTrip g s = .next (u.det 0x54 (g / 2) g 2 0) := by
    unfold execRailOvervoltageTrip
    dsimp only
    split
    · next y hy =>
      obtain rfl : x = y := Option.some.inj (ho.symm.trans hy)
      exact congrArg Host.Outcome.next (if_pos ⟨hg, ht, by rw [hoff]; rfl⟩)
    · next hy => exact absurd (ho.symm.trans hy) (Option.some_ne_none x)
  have hu : u.grp g = { s.grp g with off := true } := (grp_setGrp s g g _).trans (if_pos rfl)
  refine ⟨_, e, ?_, ?_, ?_⟩
  · exact congrArg BoostGrp.off hu
  · exact regs_setGrp s g { s.grp g with off := true }
  · rw [detq_det, detq_setGrp, mts_of_time (show u.time = s.time from time_setGrp s g _)]

/-- Ramp-ins of channels from the next tick leave all groups, the registers and the other channels. -/
structure RampsIn (l : List Nat) (s u : State) : Prop where
  grp  : ∀ g, u.grp g = s.grp g
  regs : u.regs = s.regs
  rest : ∀ c, c ∉ l → u.ch c = s.ch c
  dg   : ∀ c ∈ l, (s.ch c).st ≠ 0 → (u.ch c).dg = ⟨0, 1048576, s.time.tick + 1, 4, 0⟩

/-- The ramp-in of a channel over the next tick. -/
def State.rampNext (s : State) (c : Nat) : State := s.rampIn c (s.time.tick + 1) 4 0

theorem grp_rampNext (s : State) (c g : Nat) : (s.rampNext c).grp g = s.grp g := by
  unfold State.rampNext State.rampIn
  split
  · rfl
  · exact grp_setCh s c g _

theorem regs_rampNext (s : State) (c : Nat) : (s.rampNext c).regs = s.regs := by
  unfold State.rampNext State.rampIn
  split
  · rfl
  · exact regs_setCh s c _

theorem rampsIn_foldl (l : List Nat) (hl : l.Nodup) (s : State) : RampsIn l s (l.foldl State.rampNext s) := by
  induction l generalizing s with
  | nil => exact ⟨fun _ => rfl, rfl, fun _ _ => rfl, fun c h => absurd h List.not_mem_nil⟩
  | cons d l ih =>
    obtain ⟨hd, hl⟩ := List.nodup_cons.mp hl
    obtain ⟨hg, hr, hrest, hdg⟩ := ih hl (s.rampNext d)
    have one : OnCh d s (s.rampNext d) := onCh_rampIn s _ 4 0
    refine ⟨fun g => (hg g).trans (grp_rampNext s d g), hr.trans (regs_rampNext s d), fun c hc => ?_, fun c hc hst => ?_⟩
    · rw [List.mem_cons, not_or] at hc
      exact (hrest c hc.2).trans (one.rest c hc.1)
    · rcases List.mem_cons.mp hc with rfl | hm
      · exact congrArg DrvCh.dg ((hrest c hd).trans (ch_rampIn s c hst))
      · rw [← one.time]
        exact hdg c hm (by rwa [one.rest c fun e => hd (e ▸ hm)])

theorem railReturn_ramps (s : State) {g x : Nat} (hg : g < 48) (ho : (s.grp g).okAt = some x)
    (ht : x + 10 * msNs ≤ s.time.up) (hoff : (s.grp g).off = true) :
    Completes (.railReturn g) s fun t => (t.grp g).off = false ∧ (t.grp g).forced = false ∧ t.regs = s.regs
      ∧ (∀ h, h ≠ g → t.grp h = s.grp h)
      ∧ ∀ k, k < 4 → (s.ch (4 * g + k)).st ≠ 0 → (t.ch (4 * g + k)).dg = ⟨0, 1048576, s.time.tick + 1, 4, 0⟩ := by
  let u := s.setGrp g { s.grp g with off := false, forced := false }
  let l := (List.range 4).map (4 * g + ·)
  have e : execRailReturn g s = .next (l.foldl State.rampNext u) := by
    unfold execRailReturn
    dsimp only
    split
    · next y hy =>
      obtain rfl : x = y := Option.some.inj (ho.symm.trans hy)
      rw [if_pos ⟨hg, .inl hoff, ht⟩, if_pos hoff, List.foldl_map]
      rfl
    · next hy => exact absurd (ho.symm.trans hy) (Option.some_ne_none x)
  have hl : l.Nodup := List.nodup_range.map fun a b h => Nat.add_left_cancel h
  have hu : u.grp g = { s.grp g with off := false, forced := false } := (grp_setGrp s g g _).trans (if_pos rfl)
  obtain ⟨hgrp, hregs, -, hdg⟩ := rampsIn_foldl l hl u
  refine ⟨_, e, ?_, ?_, hregs.trans (regs_setGrp s g _), fun h hne => ?_, fun k hk hst => ?_⟩
  · exact congrArg BoostGrp.off ((hgrp g).trans hu)
  · exact congrArg BoostGrp.forced ((hgrp g).trans hu)
  · exact (hgrp h).trans ((grp_setGrp s g h _).trans (if_neg hne))
  · exact hdg _ (List.mem_map_of_mem (List.mem_range.mpr hk)) hst

end

/-! ### Energy and the programme (R20, R184, R205, R206) -/

theorem programme_of_gain (s : State) (c i : Nat) (h0 : (s.ch c).gain0 = 0) (h1 : (s.ch c).gain = 0) : s.programme c i = 0 := by
  unfold State.programme
  dsimp only
  rw [h0, h1]
  split
  · rfl
  · simp only [Nat.cast_zero, mul_zero, sub_self, zero_mul, add_zero, Int.zero_ediv]

theorem limTarget_of_eWindow (s : State) (c : Nat) (h : s.eWindow c = 0) : (s.limTarget c).1 = 0 := by
  unfold State.limTarget
  dsimp only
  rw [h, Nat.zero_mul, if_neg fun k => k.2 rfl, if_pos (Nat.zero_le _)]

theorem gateNum_of_muted (s : State) (c i : Nat) (hm : s.aud.muted = true) (hf : s.aud.fadeTick ≠ s.time.tick)
    (hv : s.voiceOnly = false) : s.gateNum c i = 0 := by
  unfold State.gateNum
  extract_lets key a t was is g m
  have hm0 : m = 0 := by
    unfold m a t
    rw [hm, hv, if_neg (by decide), if_neg hf, if_neg (by decide)]
  rw [hm0, Nat.mul_zero]

theorem programme_of_gateNum (s : State) (c i : Nat) (h : s.gateNum c i = 0) : s.programme c i = 0 := by
  unfold State.programme
  dsimp only
  rw [h]
  split
  · rfl
  · simp only [Nat.cast_zero, mul_zero, Int.zero_ediv]

theorem energyBinEnd_waits (s : State) (h : s.now / (100 * msNs) = s.drv.binNo) : exec .energyBinEnd s = .next s :=
  congrArg Host.Outcome.next (if_pos h)

/-- A channel whose bin has ended. -/
def DrvCh.binEnded (x : DrvCh) : DrvCh := { x with bins := (x.cur :: x.bins).take 99, cur := 0 }

theorem binEnded_ne_reset (x : DrvCh) : x.binEnded ≠ DrvCh.reset := fun h =>
  absurd (congrArg DrvCh.bins h) (List.cons_ne_nil _ _)

/-- The entry of a key in a map whose entries have a new value each. -/
theorem mget_map_of_mem {α : Type} (d : α) (f : α → α) (m : AMap α) {k : Nat} (h : k ∈ m.map (·.1)) :
    mget d (m.map fun p => (p.1, f p.2)) k = f (mget d m k) := by
  induction m with
  | nil => exact absurd h List.not_mem_nil
  | cons p m ih =>
    obtain ⟨j, v⟩ := p
    by_cases e : k = j
    · rw [List.map_cons, mget, mget, if_pos e, if_pos e]
    · rw [List.map_cons, mget, mget, if_neg e, if_neg e]
      exact ih ((List.mem_cons.mp h).resolve_left e)

/-- Every channel's bin ends (R205). -/
theorem energyBinEnd_ends (s : State) (h : s.now / (100 * msNs) ≠ s.drv.binNo) :
    Completes .energyBinEnd s fun t => (∀ c, c ∈ s.drv.chs.map (·.1) → t.ch c = (s.ch c).binEnded)
      ∧ t.drv.binNo = s.now / (100 * msNs) ∧ t.regs = s.regs := by
  refine ⟨_, congrArg Host.Outcome.next (if_neg h), fun c hc => ?_, rfl, rfl⟩
  have keep : (s.drv.chs.map fun p => (p.1, p.2.binEnded)).filter (fun p => p.2 ≠ DrvCh.reset)
      = s.drv.chs.map fun p => (p.1, p.2.binEnded) := by
    refine List.filter_eq_self.mpr fun p hp => ?_
    obtain ⟨q, -, rfl⟩ := List.mem_map.mp hp
    exact decide_eq_true (binEnded_ne_reset q.2)
  show mget DrvCh.reset ((s.drv.chs.map fun p => (p.1, p.2.binEnded)).filter (fun p => p.2 ≠ DrvCh.reset)) c = _
  rw [keep]
  exact mget_map_of_mem _ DrvCh.binEnded _ hc

end Sys2Proof.Machine
end

