-- ==== Sys2Proof/Proofs/FloatCommands.lean ====
section
/-! The commands of the Float (R194, R197, R203, R206): measurements, FLT_CLEAR, FLT_READ, and FLT_SET, whose settings take effect
in one hand-over. -/

namespace Sys2Proof.Machine

/-! ### Measurements (R197) -/

theorem drv_det (s : State) (a b c d e : Nat) : (s.det a b c d e).drv = s.drv := rfl

theorem measurementTimeout_fails (s : State) {g : Nat} (hg : g < 48) (hm : s.fg F.FLT_CAP_MEAS g = 1)
    (ht : (s.grp g).at_ + 200 * msNs ≤ s.time.up) : Completes (.measurementTimeout g) s fun t =>
      t.fg F.FLT_CAP_MEAS g = 4 ∧ t.fg F.FLT_CAP_CAUSE g = 1 ∧ t.drv = s.drv ∧ RegsKept [.FLT_CAP] s t := by
  have e : execMeasurementTimeout g s = .next (s.failMeas g 1) := by
    unfold execMeasurementTimeout
    dsimp only
    rw [if_neg (by omega), if_pos ⟨hm, ht⟩]
  refine ⟨_, e, ?_, ?_, ?_, ?_⟩
  · unfold State.failMeas
    rw [fg_det, fg_fs_apart _ F.FLT_CAP_CAUSE F.FLT_CAP_MEAS g 1 rfl (by decide) (by decide) (by decide) (by decide)]
    exact fg_fs_same _ _ _ _ (by decide) (by decide)
  · unfold State.failMeas
    rw [fg_det]
    exact fg_fs_same _ _ _ _ (by decide) (by decide)
  · unfold State.failMeas
    rw [drv_det, fs_drv, fs_drv]
  · unfold State.failMeas
    exact ((regsKept_fs _ _ _ _ (by decide) (by omega)).trans (regsKept_fs _ _ _ _ (by decide) (by omega))).trans
      (regsKept_det _ _ _ _ _ _ _)

theorem regsKept_showVe (s : State) {g : Nat} (hg : g < 48) : RegsKept [.FLT_CAP, .FLT_VE] s (s.showVe g) := by
  unfold State.showVe
  extract_lets d m t
  have ht : RegsKept [.FLT_CAP, .FLT_VE] s t := regsKept_fs s _ g _ (by decide) (by omega)
  split
  · exact ht
  · exact ht.trans (regsKept_fs t _ g _ (by decide) (by omega))

/-- The display of V_E leaves the state of every measurement. -/
theorem meas_showVe (s : State) {g h : Nat} (hg : g < 48) (hh : h < 48) :
    (s.showVe g).fg F.FLT_CAP_MEAS h = s.fg F.FLT_CAP_MEAS h := by
  unfold State.showVe
  extract_lets d m t
  have ht : t.fg F.FLT_CAP_MEAS h = s.fg F.FLT_CAP_MEAS h := fg_fs_clear s (by decide) (by omega) (by omega)
  split
  · exact ht
  · exact (fg_fs_clear t (by decide) (by omega) (by omega)).trans ht

/-- A group that starts is in SETTLE, and no other group's measurement changes. -/
theorem meas_startMeas (s : State) {g h : Nat} (hg : g < 48) (hh : h < 48) :
    (s.startMeas g).fg F.FLT_CAP_MEAS h = if h = g then 1 else s.fg F.FLT_CAP_MEAS h := by
  unfold State.startMeas
  extract_lets x
  rw [meas_showVe _ hg hh, fg_fs_clear _ (f := F.FLT_CAP_CAUSE) (by decide) (by omega) (by omega)]
  by_cases e : h = g
  · subst e
    rw [if_pos rfl]
    exact fg_fs_same _ _ _ _ (by decide) (by decide)
  · rw [if_neg e, fg_fs_other _ _ _ _ _ _ (by omega) (by omega) (.inr e), fg_setGrp]

theorem regsKept_startMeas (s : State) {g : Nat} (hg : g < 48) : RegsKept [.FLT_CAP, .FLT_VE] s (s.startMeas g) := by
  have cap : ∀ (t : State) (f : Fld) v, f.reg = .FLT_CAP → RegsKept [.FLT_CAP, .FLT_VE] t (t.fs f g v) := fun t f v h =>
    regsKept_fs t f g v (by rw [h]; decide) (by omega)
  unfold State.startMeas
  exact (((RegsKept.of_regs (regs_setGrp s g _)).trans (cap _ F.FLT_CAP_MEAS _ rfl)).trans (cap _ F.FLT_CAP_CAUSE _ rfl)).trans
    (regsKept_showVe _ hg)

/-- Whether a group that FLT_REMEASURE names can be measured: its mode is not DISABLED and its port is UP. -/
def State.canMeasure (s : State) (g : Nat) : Bool :=
  decide (s.fg F.BG_CTL_OUT_MODE g ≠ 0 ∧ s.fg F.DP_STAT_STATE (g / 2) = 3)

/-- What FLT_REMEASURE does to a group it names. -/
def State.remeasure (s : State) (g : Nat) : State :=
  if s.fg F.BG_CTL_OUT_MODE g ≠ 0 ∧ s.fg F.DP_STAT_STATE (g / 2) = 3 then s.startMeas g else s

theorem remeasure_eq (s : State) (g : Nat) : s.remeasure g = if s.canMeasure g = true then s.startMeas g else s := by
  unfold State.remeasure State.canMeasure
  simp only [decide_eq_true_eq]

theorem canMeasure_congr {s t : State} (h : RegsKept [.FLT_CAP, .FLT_VE] s t) {g : Nat} (hg : g < 48) :
    t.canMeasure g = s.canMeasure g := by
  unfold State.canMeasure
  rw [h.fg F.BG_CTL_OUT_MODE g (by decide) (by omega), h.fg F.DP_STAT_STATE (g / 2) (by decide) (by omega)]

theorem regsKept_remeasure (s : State) {g : Nat} (hg : g < 48) : RegsKept [.FLT_CAP, .FLT_VE] s (s.remeasure g) := by
  rw [remeasure_eq]
  split
  · exact regsKept_startMeas s hg
  · exact .refl _ s

theorem meas_remeasure (s : State) {g h : Nat} (hg : g < 48) (hh : h < 48) :
    (s.remeasure g).fg F.FLT_CAP_MEAS h = if h = g ∧ s.canMeasure h = true then 1 else s.fg F.FLT_CAP_MEAS h := by
  rw [remeasure_eq]
  by_cases c : s.canMeasure g = true
  · rw [if_pos c, meas_startMeas s hg hh]
    by_cases e : h = g
    · rw [if_pos e, if_pos ⟨e, e ▸ c⟩]
    · rw [if_neg e, if_neg (not_and_of_not_left _ e)]
  · rw [if_neg c, if_neg (by rintro ⟨rfl, k⟩; exact c k)]

theorem meas_remeasure_foldl (l : List Nat) (hl : ∀ g ∈ l, g < 48) {h : Nat} (hh : h < 48) (s : State) :
    (l.foldl State.remeasure s).fg F.FLT_CAP_MEAS h
      = if h ∈ l ∧ s.canMeasure h = true then 1 else s.fg F.FLT_CAP_MEAS h := by
  induction l generalizing s with
  | nil => exact (if_neg fun k => List.not_mem_nil k.1).symm
  | cons g l ih =>
    have hg := hl g (List.mem_cons_self ..)
    rw [List.foldl_cons, ih (fun x hx => hl x (List.mem_cons_of_mem _ hx)), canMeasure_congr (regsKept_remeasure s hg) hh,
      meas_remeasure s hg hh]
    by_cases c : s.canMeasure h = true
    · by_cases e : h = g
      · subst e
        simp [c]
      · simp [c, e]
    · simp [c]

theorem mem_bitList (n v i : Nat) : i ∈ bitList n v ↔ i < n ∧ v.testBit i = true := by
  unfold bitList
  rw [List.mem_filter, List.mem_range]

theorem applyFltRemeasure_measures (e : Entry) (s : State) :
    ∃ v, Ends e Sts.OK [] v (applyFltRemeasure e s) ∧ ∀ g, g < 48 → v.fg F.FLT_CAP_MEAS g =
      if (e.cmd.a + e.cmd.b * 2 ^ 32).testBit g ∧ s.fg F.BG_CTL_OUT_MODE g ≠ 0 ∧ s.fg F.DP_STAT_STATE (g / 2) = 3 then 1
      else s.fg F.FLT_CAP_MEAS g := by
  refine ⟨(bitList 48 (e.cmd.a + e.cmd.b * 2 ^ 32)).foldl State.remeasure s, ⟨false, rfl⟩, fun g hg => ?_⟩
  rw [meas_remeasure_foldl _ (fun x hx => ((mem_bitList _ _ _).mp hx).1) hg s]
  unfold State.canMeasure
  simp only [mem_bitList, hg, true_and, decide_eq_true_eq]

/-! ### FLT_CLEAR (R203) -/

/-- What FLT_CLEAR does to a channel it names. -/
def State.clearTrip (s : State) (c : Nat) : State := if (s.ch c).st = 2 then s.toCheck c else s

theorem st_clearTrip (s : State) {c d : Nat} (hc : c < 192) :
    ((s.clearTrip c).ch d).st = if d = c ∧ (s.ch d).st = 2 then 3 else (s.ch d).st := by
  unfold State.clearTrip
  by_cases h : (s.ch c).st = 2
  · rw [if_pos h]
    by_cases e : d = c
    · rw [if_pos ⟨e, e ▸ h⟩, e, ch_toCheck]
    · rw [if_neg (not_and_of_not_left _ e), (onCh_toCheck s hc).rest d e]
  · rw [if_neg h, if_neg (by rintro ⟨rfl, k⟩; exact h k)]

theorem st_clearTrip_foldl (l : List Nat) (hl : ∀ c ∈ l, c < 192) (d : Nat) (s : State) :
    ((l.foldl State.clearTrip s).ch d).st = if d ∈ l ∧ (s.ch d).st = 2 then 3 else (s.ch d).st := by
  induction l generalizing s with
  | nil => exact (if_neg fun k => List.not_mem_nil k.1).symm
  | cons c l ih =>
    rw [List.foldl_cons, ih (fun x hx => hl x (List.mem_cons_of_mem _ hx)), st_clearTrip s (hl c (List.mem_cons_self ..))]
    by_cases h : (s.ch d).st = 2
    · by_cases e : d = c
      · subst e
        simp [h]
      · simp [h, e]
    · simp [h]

theorem applyFltClear_clears (e : Entry) (s : State) : ∃ v, Ends e Sts.OK [] v (applyFltClear e s) ∧ ∀ c, c < 192 →
    (v.ch c).st = if (cmdMask e.cmd).testBit c ∧ (s.ch c).st = 2 then 3 else (s.ch c).st := by
  refine ⟨(bitList 192 (cmdMask e.cmd)).foldl State.clearTrip s, ⟨false, rfl⟩, fun c hc => ?_⟩
  rw [st_clearTrip_foldl _ (fun x hx => ((mem_bitList _ _ _).mp hx).1) c s]
  simp only [mem_bitList, hc, true_and]

/-! ### FLT_READ (R204, R205) -/

/-- A figure whose last place is not fixed uses at most one free word. -/
theorem quot_frame (s : State) (a b : Nat) : ((s.quot a b).2).regs = s.regs ∧ ((s.quot a b).2).drv = s.drv := by
  unfold State.quot
  split
  · exact ⟨rfl, rfl⟩
  · exact ⟨rfl, rfl⟩

/-- A row has 16 bytes, the state and the cause of the channel first; figures that are not fixed use free words alone. -/
theorem fltRow_spec (s : State) (c : Nat) : (s.fltRow c).2.regs = s.regs ∧ (s.fltRow c).2.drv = s.drv
    ∧ (s.fltRow c).1.length = 16
    ∧ (s.fltRow c).1.take 2 = [BitVec.ofNat 8 (s.ch c).st, BitVec.ofNat 8 (s.ch c).cause] := by
  -- The row is opened under a name: compared with its body as it stands, its numbers would be evaluated by the kernel.
  generalize hrow : s.fltRow c = row
  generalize hf : State.fltRow = f at hrow
  delta State.fltRow at hf
  subst hf
  beta_reduce at hrow
  extract_lets -underBinder x den at hrow
  clear_value den
  split at hrow
  next r t hr =>
  have ht : t.regs = s.regs ∧ t.drv = s.drv := by
    split at hr
    · obtain rfl := congrArg Prod.snd hr
      exact ⟨rfl, rfl⟩
    · obtain rfl := congrArg Prod.snd hr
      exact quot_frame s _ _
  split at hrow
  next g u hg =>
  obtain rfl := congrArg Prod.snd hg
  subst hrow
  obtain ⟨qr, qd⟩ := quot_frame t x.gain 65536
  refine ⟨qr.trans ht.1, qd.trans ht.2, ?_, rfl⟩
  simp only [List.length_append, length_leBytes]

theorem hostGets_hostWrite (s : State) (a : Nat) (b : List Byte) : HostGets a b s (s.hostWrite a b) :=
  ⟨rfl, fun x => memByte_memWrite s.hif.hostMem a b x⟩

theorem applyFltRead_one (e : Entry) (s : State) (hb : e.cmd.b = 1) : applyFltRead e s
    = ((s.fltRow e.cmd.a).2.hostWrite e.cmd.addr (s.fltRow e.cmd.a).1).finish e Sts.OK [] false := by
  unfold applyFltRead
  rw [hb]
  split
  next b t h =>
  rw [List.range_one, List.foldl_cons, List.foldl_nil] at h
  split at h
  next r u hr =>
  obtain ⟨rfl, rfl⟩ := Prod.mk.inj h
  rw [Nat.add_zero] at hr
  rw [hr]
  rfl

theorem applyFltRead_reads (e : Entry) (s : State) (hb : e.cmd.b = 1) :
    ∃ (v u : State) (b : List Byte), Ends e Sts.OK [] v (applyFltRead e s) ∧ HostGets e.cmd.addr b u v ∧ u.regs = s.regs
      ∧ u.drv = s.drv ∧ b.length = 16
      ∧ b.take 2 = [BitVec.ofNat 8 (s.ch e.cmd.a).st, BitVec.ofNat 8 (s.ch e.cmd.a).cause] := by
  obtain ⟨hr, hd, hl, ht⟩ := fltRow_spec s e.cmd.a
  exact ⟨_, _, _, ⟨false, applyFltRead_one e s hb⟩, hostGets_hostWrite _ _ _, hr, hd, hl, ht⟩

end Sys2Proof.Machine
end

