-- ==== Sys2Proof/Proofs/FloatSettings.lean ====
section
/-! Shadow registers (R114, R115) and FLT_SET (R194, R200): the images of a command go to the shadows of its block, and one hand-over
copies them to the active registers. -/

namespace Sys2Proof.Machine

/-! ### One bit of a register -/

theorem getLsbD_eq_fg (s : State) (r : RegId) (i k : Nat) : (s.rr r i).getLsbD k = (s.fg ⟨r, k, k⟩ i == 1) := by
  unfold State.fg Fld.get BitVec.getLsbD
  rw [Nat.testBit_eq_decide_div_mod_eq, Nat.add_sub_cancel_left]
  rfl

theorem getLsbD_maskPut (old new : Word) (m : Nat) {k : Nat} (hk : k < 32) :
    (maskPut old new m).getLsbD k = if m.testBit k then new.getLsbD k else old.getLsbD k := by
  have hmask : (BitVec.ofNat 32 m).getLsbD k = m.testBit k := by rw [BitVec.getLsbD_ofNat, decide_eq_true hk, Bool.true_and]
  unfold maskPut
  simp only [BitVec.getLsbD_or, BitVec.getLsbD_and, BitVec.getLsbD_not, hmask, hk, decide_true, Bool.true_and]
  cases m.testBit k with
  | true => simp only [Bool.not_true, Bool.and_false, Bool.and_true, Bool.false_or, if_true]
  | false => simp only [Bool.not_false, Bool.and_true, Bool.and_false, Bool.or_false, Bool.false_eq_true, if_false]

/-! ### What the shadows hold -/

section
variable {r : RegId} {i img : Nat}

theorem shadows_of_shadow {s t : State} (h : t.shadow = s.shadow) (hs : s.shadows r i img) : t.shadows r i img := by
  intro k hk hm
  rw [← hs k hk hm]
  unfold State.shw
  rw [h]

theorem holds_of_rr {s t : State} (h : t.rr r i = s.rr r i) (hs : s.holds r i img) : t.holds r i img := by
  intro k hk hm
  rw [h]
  exact hs k hk hm

theorem shw_setShw (s : State) (r : RegId) (i : Nat) (w : Word) : (s.setShw r i w).shw r i = w := mget_mput_same _ _ _ _

theorem shw_setShw_ne (s : State) {r r' : RegId} {i j : Nat} (w : Word) (h : regKey r' j ≠ regKey r i) :
    (s.setShw r i w).shw r' j = s.shw r' j := by
  unfold State.setShw State.shw
  dsimp only
  exact mget_mput_ne _ _ _ _ h

theorem shadow_armAt (s : State) (m : AMap Nat) : ({ s with armAt := m } : State).shadow = s.shadow := rfl

theorem shadow_setArm (s : State) (a : RegId) (i : Nat) (b : Bool) : (s.setArm a i b).shadow = s.shadow :=
  (shadow_armAt (s.fs ⟨a, 31, 31⟩ i (b2n b)) _).trans (fs_shadow s _ _ _)

/-- A write with RWS fields changes one shadow. -/
theorem rwsWrite_shadow (s : State) (r : RegId) (i w : Nat) (hb : (blockOf r).isSome) :
    (s.rwsWrite r i w).shadow = (s.setShw r i (maskPut (s.shw r i) (BitVec.ofNat 32 w) (rwsMask r))).shadow := by
  unfold State.rwsWrite
  split
  · next h => exact absurd (h ▸ hb) (by decide)
  · extract_lets t m u
    split
    · exact (shadow_setArm _ _ _ _).trans (rw_shadow _ _ _ _)
    · exact shadow_setArm _ _ _ _

/-- It holds the RWS fields of the image afterwards. -/
theorem rwsWrite_shadows (s : State) (r : RegId) (i : Nat) {w : Nat} (hb : (blockOf r).isSome)
    (h : ∀ k, k < 32 → (rwsMask r).testBit k = true → w.testBit k = img.testBit k) : (s.rwsWrite r i w).shadows r i img := by
  refine shadows_of_shadow (rwsWrite_shadow s r i w hb) fun k hk hm => ?_
  rw [shw_setShw, getLsbD_maskPut _ _ _ hk, if_pos hm, ← h k hk hm, BitVec.getLsbD_ofNat, decide_eq_true hk, Bool.true_and]

theorem rwsWrite_shadows_other {s : State} {r' : RegId} {j : Nat} (w : Nat) (hb : (blockOf r').isSome) (hi : i < 2048) (hj : j < 2048)
    (h : r ≠ r') (hs : s.shadows r i img) : (s.rwsWrite r' j w).shadows r i img := by
  refine shadows_of_shadow (rwsWrite_shadow s r' j w hb) fun k hk hm => ?_
  rw [shw_setShw_ne s _ fun e => h (regKey_inj hi hj e).1]
  exact hs k hk hm

/-! ### The hand-over -/

/-- The transfer of one shadow (R114). -/
def State.copyShw (s : State) (r : RegId) (i : Nat) : State := s.rw r i (maskPut (s.rr r i) (s.shw r i) (rwsMask r))

theorem copyShw_shadows {s : State} (r' : RegId) (j : Nat) (hs : s.shadows r i img) : (s.copyShw r' j).shadows r i img :=
  shadows_of_shadow (rw_shadow _ _ _ _) hs

theorem copyShw_holds_same {s : State} (hs : s.shadows r i img) : (s.copyShw r i).holds r i img := by
  intro k hk hm
  unfold State.copyShw
  rw [rr_rw_same, getLsbD_maskPut _ _ _ hk, if_pos hm]
  exact hs k hk hm

/-- A register that its shadow agrees with keeps its fields through every transfer. -/
theorem copyShw_holds {s : State} (r' : RegId) {j : Nat} (hi : i < 2048) (hj : j < 2048) (hs : s.shadows r i img)
    (hh : s.holds r i img) : (s.copyShw r' j).holds r i img := by
  by_cases e : r = r' ∧ i = j
  · obtain ⟨rfl, rfl⟩ := e
    exact copyShw_holds_same hs
  · refine holds_of_rr ?_ hh
    unfold State.copyShw
    rw [rr_rw _ _ _ _ _ _ hj hi, if_neg e]

/-- Transfers of a list of registers: those named, and those that held their image before, hold it afterwards. -/
theorem copyShw_foldl_holds (l : List (RegId × Nat)) (hl : ∀ p ∈ l, p.2 < 2048) (hi : i < 2048) {s : State} (hs : s.shadows r i img)
    (h : (r, i) ∈ l ∨ s.holds r i img) : (l.foldl (fun s p => s.copyShw p.1 p.2) s).holds r i img := by
  induction l generalizing s with
  | nil => exact h.resolve_left List.not_mem_nil
  | cons p l ih =>
    refine ih (fun q hq => hl q (List.mem_cons_of_mem _ hq)) (copyShw_shadows p.1 p.2 hs) ?_
    rcases h with h | h
    · rcases List.mem_cons.mp h with rfl | h
      · exact .inr (copyShw_holds_same hs)
      · exact .inl h
    · exact .inr (copyShw_holds p.1 hi (hl p (List.mem_cons_self ..)) hs h)

/-- The registers of a block in the order of their transfer. -/
def blockRegs (a : RegId) (i : Nat) : List (RegId × Nat) := (armBlock a).flatMap fun r => (blockInsts a r i).map fun j => (r, j)

theorem handOver_eq (s : State) (a : RegId) (i : Nat) :
    s.handOver a i = ((blockRegs a i).foldl (fun s p => s.copyShw p.1 p.2) s).setArm a i false := by
  unfold State.handOver blockRegs
  rw [List.foldl_flatMap]
  simp only [List.foldl_map]
  rfl

theorem rr_armAt (s : State) (m : AMap Nat) (r : RegId) (i : Nat) : ({ s with armAt := m } : State).rr r i = s.rr r i := rfl

theorem rr_setArm (s : State) (a r : RegId) (i j : Nat) (b : Bool) :
    (s.setArm a i b).rr r j = (s.fs ⟨a, 31, 31⟩ i (b2n b)).rr r j := rr_armAt _ _ r j

/-- ARM is no RWS field: setting and clearing it leaves those of its register. -/
theorem setArm_holds {s : State} (a : RegId) {j : Nat} (b : Bool) (hi : i < 2048) (hj : j < 2048)
    (h : r ≠ a ∨ (rwsMask r).testBit 31 = false) (hh : s.holds r i img) : (s.setArm a j b).holds r i img := by
  intro k hk hm
  rw [← hh k hk hm, rr_setArm, getLsbD_eq_fg, getLsbD_eq_fg]
  have e : (s.fs ⟨a, 31, 31⟩ j (b2n b)).fg ⟨r, k, k⟩ i = s.fg ⟨r, k, k⟩ i := by
    by_cases hr : r = a ∧ i = j
    · obtain ⟨rfl, rfl⟩ := hr
      have h31 : k ≠ 31 := fun e => absurd (hm.symm.trans (e ▸ h.resolve_left fun n => n rfl)) (by decide)
      refine fg_fs_apart s ⟨r, 31, 31⟩ ⟨r, k, k⟩ i _ rfl (Nat.le_refl 31) (Nat.lt_succ_self 31) (Nat.le_refl k) ?_
      unfold Fld.apart
      simp only [Bool.or_eq_true, decide_eq_true_eq]
      omega
    · exact fg_fs_other s _ _ j i _ hj hi (not_and_or.mp hr)
  rw [e]

theorem handOver_holds {s : State} (a : RegId) {j : Nat} (hi : i < 2048) (hl : ∀ p ∈ blockRegs a j, p.2 < 2048) (hj : j < 2048)
    (hm : (r, i) ∈ blockRegs a j) (h : r ≠ a ∨ (rwsMask r).testBit 31 = false) (hs : s.shadows r i img) :
    (s.handOver a j).holds r i img := by
  rw [handOver_eq]
  exact setArm_holds a false hi hj h (copyShw_foldl_holds _ hl hi hs (.inl hm))

theorem handOver_shadows {s : State} (a : RegId) (j : Nat) (hs : s.shadows r i img) : (s.handOver a j).shadows r i img := by
  rw [handOver_eq]
  refine shadows_of_shadow (shadow_setArm _ _ _ _) ?_
  exact List.foldlRecOn (motive := fun t : State => t.shadows r i img) _ _ hs fun t ht p _ => copyShw_shadows p.1 p.2 ht

end

section
variable {l : List RegId}

theorem regsKept_setArm (s : State) (a : RegId) (i : Nat) (b : Bool) (ha : a ∈ l) (hi : i < 2048) :
    RegsKept l s (s.setArm a i b) := fun r j hr hj =>
  (rr_setArm s a r i j b).trans (regsKept_fs (l := l) s ⟨a, 31, 31⟩ i _ ha hi r j hr hj)

theorem regsKept_handOver (s : State) (a : RegId) {i : Nat} (ha : a ∈ l) (hi : i < 2048)
    (hl : ∀ p ∈ blockRegs a i, p.1 ∈ l ∧ p.2 < 2048) : RegsKept l s (s.handOver a i) := by
  rw [handOver_eq]
  refine .trans ?_ (regsKept_setArm _ a i false ha hi)
  refine foldl_frame (RegsKept l) (.refl l) .trans _ _ (fun t p hp => ?_) s
  exact regsKept_rw t p.1 p.2 _ (hl p hp).1 (hl p hp).2

end

theorem setArm_arm (s : State) (a : RegId) (i : Nat) (b : Bool) : (s.setArm a i b).arm a i = b := by
  have e : (s.setArm a i b).fg ⟨a, 31, 31⟩ i = b2n b % 2 ^ 1 :=
    (fg_of_rr (rr_setArm s a a i i b)).trans (fg_fs_same s ⟨a, 31, 31⟩ i _ (Nat.le_refl 31) (Nat.lt_succ_self 31))
  unfold State.arm State.fb
  rw [e]
  cases b <;> rfl

theorem handOver_arm (s : State) (a : RegId) (i : Nat) : (s.handOver a i).arm a i = false := by
  rw [handOver_eq]
  exact setArm_arm _ a i false

theorem armed_of_rr {s t : State} {a : RegId} {i : Nat} (h : t.rr a i = s.rr a i) : t.arm a i = s.arm a i :=
  congrArg (· == 1) (fg_of_rr (f := ⟨a, 31, 31⟩) h)

/-! ### The drive state through them -/

theorem drv_armAt (s : State) (m : AMap Nat) : ({ s with armAt := m } : State).drv = s.drv := rfl
theorem drv_setShw (s : State) (r : RegId) (i : Nat) (w : Word) : (s.setShw r i w).drv = s.drv := rfl

theorem drv_setArm (s : State) (a : RegId) (i : Nat) (b : Bool) : (s.setArm a i b).drv = s.drv :=
  (drv_armAt (s.fs ⟨a, 31, 31⟩ i (b2n b)) _).trans (fs_drv s _ _ _)

theorem drv_rwsWrite (s : State) (r : RegId) (i w : Nat) : (s.rwsWrite r i w).drv = s.drv := by
  unfold State.rwsWrite
  split
  · exact rw_drv _ _ _ _
  · extract_lets t m u
    split
    · exact (drv_setArm _ _ _ _).trans ((rw_drv _ _ _ _).trans (drv_setShw s _ _ _))
    · exact (drv_setArm _ _ _ _).trans (drv_setShw s _ _ _)

theorem drv_handOver (s : State) (a : RegId) (i : Nat) : (s.handOver a i).drv = s.drv := by
  rw [handOver_eq]
  refine (drv_setArm _ _ _ _).trans ?_
  exact List.foldlRecOn (motive := fun t : State => t.drv = s.drv) _ _ rfl fun t ht p _ => (rw_drv t _ _ _).trans ht

/-! ### FLT_SET -/

/-- FLT_CTL and LW_CTL as Windlass writes them: the image with ARM. -/
theorem testBit_armed {k : Nat} (img : Nat) (hk : k < 31) : (img % 2 ^ 31 + 2 ^ 31).testBit k = img.testBit k := by
  rw [Nat.add_comm, Nat.testBit_two_pow_add_gt hk, Nat.testBit_mod_two_pow, decide_eq_true hk, Bool.true_and]

theorem testBit_armed_of_mask {r : RegId} (h : (rwsMask r).testBit 31 = false) (img k : Nat) (hk : k < 32)
    (hm : (rwsMask r).testBit k = true) : (img % 2 ^ 31 + 2 ^ 31).testBit k = img.testBit k := by
  have : k ≠ 31 := fun e => absurd (hm.symm.trans (e ▸ h)) (by decide)
  exact testBit_armed img (by omega)

/-- What the shadows of the Float hold once the images of an FLT_SET are in them. -/
structure FltShadows (c : Cmd) (s : State) : Prop where
  ctl : s.shadows .FLT_CTL 0 c.i0
  lw  : s.shadows .LW_CTL 0 c.i3
  grp : c.a < 48 → s.shadows .FLT_GRP c.a c.i1
  rel : c.a < 48 → s.shadows .FLT_REL c.a c.i2

theorem wrFltSet_shadows (c : Cmd) (s : State) : FltShadows c (wrFltSet c s) := by
  unfold wrFltSet
  extract_lets t
  have ctl : (t.rwsWrite .FLT_CTL 0 (c.i0 % 2 ^ 31 + 2 ^ 31)).shadows .FLT_CTL 0 c.i0 :=
    rwsWrite_shadows t .FLT_CTL 0 (by decide) (testBit_armed_of_mask (by decide) c.i0)
  have keep : ∀ {r : RegId} {img : Nat}, c.a < 48 → r ≠ .FLT_CTL → r ≠ .LW_CTL → t.shadows r c.a img →
      ((t.rwsWrite .FLT_CTL 0 (c.i0 % 2 ^ 31 + 2 ^ 31)).rwsWrite .LW_CTL 0 (c.i3 % 2 ^ 31 + 2 ^ 31)).shadows r c.a img :=
    fun ha h0 h1 h => rwsWrite_shadows_other _ (by decide) (by omega) (by decide) h1
      (rwsWrite_shadows_other _ (by decide) (by omega) (by decide) h0 h)
  refine ⟨?_, ?_, fun ha => keep ha (by decide) (by decide) ?_, fun ha => keep ha (by decide) (by decide) ?_⟩
  · exact rwsWrite_shadows_other _ (by decide) (by decide) (by decide) (by decide) ctl
  · exact rwsWrite_shadows _ .LW_CTL 0 (by decide) (testBit_armed_of_mask (by decide) c.i3)
  · unfold t
    rw [if_pos ha]
    refine rwsWrite_shadows_other _ (by decide) (by omega) (by omega) (by decide) ?_
    exact rwsWrite_shadows s .FLT_GRP c.a (by decide) fun _ _ _ => rfl
  · unfold t
    rw [if_pos ha]
    exact rwsWrite_shadows _ .FLT_REL c.a (by decide) fun _ _ _ => rfl

theorem drv_wrFltSet (c : Cmd) (s : State) : (wrFltSet c s).drv = s.drv := by
  unfold wrFltSet
  extract_lets t
  have ht : t.drv = s.drv := by
    unfold t
    split
    · rw [drv_rwsWrite, drv_rwsWrite]
    · rfl
  rw [drv_rwsWrite, drv_rwsWrite, ht]

/-- What an FLT_SET leaves once its settings are in force. -/
structure FltInForce (c : Cmd) (s t : State) : Prop where
  ctl  : t.holds .FLT_CTL 0 c.i0
  lw   : t.holds .LW_CTL 0 c.i3
  grp  : c.a < 48 → t.holds .FLT_GRP c.a c.i1 ∧ t.holds .FLT_REL c.a c.i2
  armF : t.arm .FLT_CTL 0 = false
  armL : t.arm .LW_CTL 0 = false
  drv  : t.drv = s.drv

/-- All registers of a block lie within the register file. -/
theorem blockRegs_flt : ∀ p ∈ blockRegs .FLT_CTL 0, p.1 ∈ [RegId.FLT_CTL, .FLT_GRP, .FLT_REL] ∧ p.2 < 2048 := by decide

theorem blockRegs_lw : ∀ p ∈ blockRegs .LW_CTL 0, p.1 ∈ [RegId.LW_CTL] ∧ p.2 < 2048 := by decide

theorem mem_blockRegs_flt {r : RegId} {g : Nat} (hr : r = .FLT_GRP ∨ r = .FLT_REL) (hg : g < 48) :
    (r, g) ∈ blockRegs .FLT_CTL 0 := by
  refine List.mem_flatMap.mpr ⟨r, ?_, List.mem_map_of_mem ?_⟩
  · rcases hr with rfl | rfl <;> decide
  · have hne : r ≠ .FLT_CTL := by rcases hr with rfl | rfl <;> decide
    unfold blockInsts
    rw [if_pos ⟨rfl, hne⟩]
    exact List.mem_range.mpr hg

/-- The hand-over of the Float and of Line Watch after the writing of the images. -/
theorem fltHandOver_inForce (c : Cmd) (s : State) :
    FltInForce c s (((wrFltSet c s).handOver .FLT_CTL 0).handOver .LW_CTL 0) := by
  obtain ⟨ctl, lw, grp, rel⟩ := wrFltSet_shadows c s
  have kept : RegsKept [.LW_CTL] ((wrFltSet c s).handOver .FLT_CTL 0) (((wrFltSet c s).handOver .FLT_CTL 0).handOver .LW_CTL 0) :=
    regsKept_handOver _ .LW_CTL (by decide) (by decide) blockRegs_lw
  have flt : ∀ {r : RegId} {i img : Nat}, i < 2048 → (r, i) ∈ blockRegs .FLT_CTL 0 → r ≠ .FLT_CTL ∨ (rwsMask r).testBit 31 = false →
      r ∉ [RegId.LW_CTL] → (wrFltSet c s).shadows r i img →
      (((wrFltSet c s).handOver .FLT_CTL 0).handOver .LW_CTL 0).holds r i img := fun hi hm h hr hs =>
    holds_of_rr (kept _ _ hr hi) (handOver_holds .FLT_CTL hi (fun p hp => (blockRegs_flt p hp).2) (by decide) hm h hs)
  refine ⟨?_, ?_, fun ha => ⟨?_, ?_⟩, ?_, handOver_arm _ _ _, ?_⟩
  · exact flt (by decide) (by decide) (.inr (by decide)) (by decide) ctl
  · exact handOver_holds .LW_CTL (by decide) (fun p hp => (blockRegs_lw p hp).2) (by decide) (by decide) (.inr (by decide))
      (handOver_shadows .FLT_CTL 0 lw)
  · exact flt (by omega) (mem_blockRegs_flt (.inl rfl) ha) (.inl (by decide)) (by decide) (grp ha)
  · exact flt (by omega) (mem_blockRegs_flt (.inr rfl) ha) (.inl (by decide)) (by decide) (rel ha)
  · exact (armed_of_rr (kept .FLT_CTL 0 (by decide) (by decide))).trans (handOver_arm _ _ _)
  · rw [drv_handOver, drv_handOver, drv_wrFltSet]

theorem drv_showVe (s : State) (g : Nat) : (s.showVe g).drv = s.drv := by
  unfold State.showVe
  extract_lets d m t
  split
  · exact fs_drv _ _ _ _
  · exact (fs_drv _ _ _ _).trans (fs_drv _ _ _ _)

/-- The display of V_E leaves the settings and the drive state. -/
theorem showVes_kept (s : State) : RegsKept [.FLT_CAP, .FLT_VE] s s.showVes ∧ s.showVes.drv = s.drv := by
  unfold State.showVes
  constructor
  · refine foldl_frame (RegsKept _) (.refl _) .trans _ _ (fun t g hg => ?_) s
    split
    · exact .refl _ t
    · exact regsKept_showVe t (List.mem_range.mp hg)
  · refine List.foldlRecOn (motive := fun t : State => t.drv = s.drv) _ _ rfl fun t ht g _ => ?_
    split
    · exact ht
    · exact (drv_showVe t g).trans ht

theorem FltInForce.showVes {c : Cmd} {s t : State} (h : FltInForce c s t) : FltInForce c s t.showVes := by
  obtain ⟨kept, drv⟩ := showVes_kept t
  refine ⟨?_, ?_, fun ha => ⟨?_, ?_⟩, ?_, ?_, drv.trans h.drv⟩
  · exact holds_of_rr (kept _ _ (by decide) (by decide)) h.ctl
  · exact holds_of_rr (kept _ _ (by decide) (by decide)) h.lw
  · exact holds_of_rr (kept _ _ (by decide) (by omega)) (h.grp ha).1
  · exact holds_of_rr (kept _ _ (by decide) (by omega)) (h.grp ha).2
  · exact (armed_of_rr (kept _ _ (by decide) (by decide))).trans h.armF
  · exact (armed_of_rr (kept _ _ (by decide) (by decide))).trans h.armL

/-- An FLT_SET that is the only one waiting takes effect as one (R194). -/
theorem applyFltSet_inForce (e : Entry) (s : State) (hcode : e.code = Code.FLT_SET) (hchk : (chkFltSet e.cmd s).1 = Sts.OK)
    (harm : e.wrote = false ∨ s.arm .FLT_CTL 0 = true) (hx : ∀ x ∈ s.sched ++ s.dueNext, x.code ≠ Code.FLT_SET) :
    ∃ v, Ends e Sts.OK [] v (applyFltSet e s) ∧ FltInForce e.cmd s v := by
  have written : ¬ (e.wrote && !s.arm .FLT_CTL 0) = true := by
    rcases harm with h | h
    · rw [h, Bool.false_and]
      exact Bool.false_ne_true
    · rw [h, Bool.not_true, Bool.and_false]
      exact Bool.false_ne_true
  have none_ : ¬ ((s.sched ++ s.dueNext).any fun x => x.code == e.code && (RegId.FLT_CTL == .FLT_CTL || x.cmd.a == e.cmd.a)
      && x.wrote && decide (x.place ≤ s.now)) = true := by
    rw [List.any_eq_true]
    rintro ⟨x, hm, hp⟩
    simp only [Bool.and_eq_true, beq_iff_eq] at hp
    exact hx x hm (hp.1.1.1.trans hcode)
  have transfer : s.rwsTransfer .FLT_CTL 0 wrFltSet e = (wrFltSet e.cmd s).handOver .FLT_CTL 0 := by
    unfold State.rwsTransfer
    rw [if_neg written]
    exact if_neg none_
  refine ⟨_, ⟨true, ?_⟩, (fltHandOver_inForce e.cmd s).showVes⟩
  unfold applyFltSet
  dsimp only
  rw [if_neg (not_not.mpr hchk), if_neg written, transfer]

/-! ### Where an accepted command with shadows stands -/

/-- A command that Windlass marks as written stands at its boundary or at the one after it (R114). -/
theorem markWritten_place {u : State} {e : Entry} (seq : Nat) (guard : Bool) (he : e ∈ u.dueNext) :
    ∃ x ∈ (u.markWritten seq guard).dueNext, x.code = e.code ∧ x.cmd = e.cmd ∧ x.seq = e.seq
      ∧ (x.place = e.place ∨ x.place = nextTick e.place) := by
  refine ⟨_, List.mem_map_of_mem he, ?_⟩
  split
  · refine ⟨rfl, rfl, rfl, ?_⟩
    cases guard with
    | true => exact .inr rfl
    | false => exact .inl rfl
  · exact ⟨rfl, rfl, rfl, .inl rfl⟩

theorem Accepts.taken_rws {code : Nat} {chk : Cmd → State → Chk} {c : Cmd} {s : State} (h : Accepts code chk c s)
    {wr : Cmd → State → State} (hw : ∀ c s, SameQueue s (wr c s)) :
    (submitRws code chk wr c s).hif.cmdSeq = s.hif.cmdSeq + 1 ∧ ∃ e ∈ (submitRws code chk wr c s).dueNext,
      e.code = code ∧ e.cmd = c ∧ e.seq = s.hif.cmdSeq
        ∧ (e.place = (s.taken c).immPlace code ∨ e.place = nextTick ((s.taken c).immPlace code)) := by
  obtain ⟨hseq, e, hdue, hcode, hcmd, heseq, -, hplace⟩ := submit_placed h
  have hmem : e ∈ (submit code chk c s).dueNext := by
    rw [hdue]
    exact List.mem_append_right _ (List.mem_cons_self ..)
  unfold submitRws
  extract_lets seq t
  split
  · have q := hw c t
    obtain ⟨x, hx, xcode, xcmd, xseq, xplace⟩ := markWritten_place (u := wr c t) seq t.inTickGuard (by rw [q.due]; exact hmem)
    refine ⟨(markWritten_cmdSeq _ _ _).trans (q.seq.trans hseq), x, hx, xcode.trans hcode, xcmd.trans hcmd, xseq.trans heseq, ?_⟩
    rwa [hplace] at xplace
  · exact ⟨hseq, e, hmem, hcode, hcmd, heseq, .inl hplace⟩

/-- An accepted command of the Float and its effect. -/
theorem takenThen_of {mk : Cmd → Instr} {code : Nat} {chk : Cmd → State → Chk} {f : Entry → State → State}
    {p : Entry → State → State → Prop} (hx : ∀ c s, exec (mk c) s = .next (submit code chk c s))
    (hf : effectOf code = some (code, f)) (hp : ∀ e s, p e s (f e s)) : TakenThen mk code chk p := by
  refine ⟨fun c s h => ⟨_, hx c s, submit_placed h⟩, fun e s he => ?_⟩
  rw [applyEntry_of_effect hf he]
  exact hp e s

/-- Settles O38: each step on a channel or a group is framed (`OnCh`, `RampsIn`), and FLT_SET is one hand-over of the shadows its
images were written to. -/
theorem floatGuardsItsChannels : Obligations.FloatGuardsItsChannels := by
  unfold Obligations.FloatGuardsItsChannels
  refine ⟨⟨fun c s h => ⟨_, rfl, h.taken_rws wrFltSet_queue⟩, fun e s he hchk harm hx => ?_⟩,
    takenThen_of (fun _ _ => rfl) rfl applyFltRemeasure_measures, takenThen_of (fun _ _ => rfl) rfl applyFltClear_clears,
    takenThen_of (fun _ _ => rfl) rfl applyFltRead_reads, fun g s hg hm ht => measurementTimeout_fails s hg hm ht,
    fun g s x hg ho ht hoff => railOvervoltageTrip_trips s hg ho ht hoff, fun g s x hg ho ht hoff => railReturn_ramps s hg ho ht hoff,
    fun c s hc hst ht => retryExpiry_checks s hc hst ht, fun c s hc hst ht => tripFreeExpiry_resets s hc hst ht,
    fun c s hc hst ht => checkEnd_decides s hc hst ht, programme_of_gain, limTarget_of_eWindow,
    fun s c hm hf hv i => programme_of_gateNum s c i (gateNum_of_muted s c i hm hf hv), energyBinEnd_waits, fun s h => ?_⟩
  · rw [applyEntry_of_effect (code := Code.FLT_SET) rfl he]
    obtain ⟨v, hv, f⟩ := applyFltSet_inForce e s he hchk harm hx
    exact ⟨v, hv, f.ctl, f.lw, f.grp, f.armF, f.armL, f.drv⟩
  · obtain ⟨t, ht, hch, hbin, hregs⟩ := energyBinEnd_ends s h
    refine ⟨t, ht, fun c _ hc => ?_, hbin, hregs⟩
    rw [hch c hc]
    exact ⟨rfl, rfl⟩

end Sys2Proof.Machine
end

