-- ==== Sys2Proof/Proofs/WellheadSlots.lean ====
section
/-! Reference slots (R36, R37, R40 - R42): what is read of a slot after each write to it, the measurements and the frequency, the
edges of period slots, and the states of a slot. -/

namespace Sys2Proof.Machine

/-! ### Event records -/

theorem detq_hif (s : State) (h : HifSt) : ({ s with hif := h } : State).detq = s.detq := rfl

theorem detq_post (s : State) (typ source : Nat) (p : List Byte) : (s.post typ source p).detq = s.detq := by
  unfold State.post State.postAt
  simp only
  split
  · next r l hr =>
    have hlt : r < 32 := mem_ringsOf (by rw [hr]; exact List.mem_cons_self)
    split
    · rw [fadd_detq, detq_hif, detq_hif]
    · rw [(told_ringReturn _ _ _ hlt).detq, detq_hif, detq_hif]
  · rw [fadd_detq, detq_hif, detq_hif]

theorem time_post (s : State) (typ source : Nat) (p : List Byte) : (s.post typ source p).time = s.time :=
  (epoch_post s typ source p).time

theorem fg_post (s : State) (typ source : Nat) (p : List Byte) (f : Fld) (i : Nat)
    (hf : f.reg ∉ [RegId.HIF_RING_IDX, .HIF_STAT]) (hi : i < 2048) : (s.post typ source p).fg f i = s.fg f i :=
  (regsKept_post s typ source p).fg f i hf hi

/-! ### What is read of a slot after a write -/

theorem slot_of_slots {s t : State} (h : t.wh.slots = s.wh.slots) (n : Nat) : t.slot n = s.slot n := by
  unfold State.slot
  rw [h]

theorem slot_of_wh {s t : State} (h : t.wh = s.wh) (n : Nat) : t.slot n = s.slot n := slot_of_slots (congrArg WhSt.slots h) n

section
variable (s : State) (n : Nat)

@[simp] theorem slot_setSlot_same (x : WhSlot) : (s.setSlot n x).slot n = x := mget_mput_same _ _ _ _

theorem slot_setSlot_ne {m : Nat} (x : WhSlot) (h : m ≠ n) : (s.setSlot n x).slot m = s.slot m := mget_mput_ne _ _ _ _ h

@[simp] theorem slot_setTimer (d : Option Nat) : (s.setTimer n d).slot n = { s.slot n with timer := d } :=
  slot_setSlot_same s n _

@[simp] theorem slot_fs (f : Fld) (i v : Nat) : (s.fs f i v).slot n = s.slot n := slot_of_wh (fs_wh s f i v) n
@[simp] theorem slot_fsI (f : Fld) (i : Nat) (v : Int) : (s.fsI f i v).slot n = s.slot n := slot_of_wh (fsI_wh s f i v) n
@[simp] theorem slot_setSst (m v : Nat) : (s.setSst m v).slot n = s.slot n := slot_fs s n _ _ _
@[simp] theorem slot_det (a b c d e : Nat) : (s.det a b c d e).slot n = s.slot n := rfl

@[simp] theorem slot_post (typ source : Nat) (p : List Byte) : (s.post typ source p).slot n = s.slot n :=
  slot_of_wh (post_works s typ source p).wh n

@[simp] theorem fg_setSlot (x : WhSlot) (f : Fld) (i : Nat) : (s.setSlot n x).fg f i = s.fg f i := rfl

theorem sst_setSst {v : Nat} (hv : v < 8) : (s.setSst n v).sst n = v :=
  (fg_fs_same s F.WH_SLOT_STAT_STATE n v (by decide) (by decide)).trans (Nat.mod_eq_of_lt hv)

/-- The seconds of WTR share no bit with the state of a slot. -/
theorem sst_wtrLeft (v : Nat) : (s.fs F.WH_SLOT_STAT_WTR_LEFT n v).sst n = s.sst n :=
  fg_fs_apart s F.WH_SLOT_STAT_WTR_LEFT F.WH_SLOT_STAT_STATE n v rfl (by decide) (by decide) (by decide) (by decide)

theorem wtrLeft_wtrLeft {v : Nat} (hv : v < 4096) : (s.fs F.WH_SLOT_STAT_WTR_LEFT n v).fg F.WH_SLOT_STAT_WTR_LEFT n = v :=
  (fg_fs_same s F.WH_SLOT_STAT_WTR_LEFT n v (by decide) (by decide)).trans (Nat.mod_eq_of_lt hv)

theorem sst_post (typ source : Nat) (p : List Byte) (hn : n < 2048) : (s.post typ source p).sst n = s.sst n :=
  fg_post s typ source p _ n (by decide) hn

theorem detq_setSlot (x : WhSlot) : (s.setSlot n x).detq = s.detq := rfl
theorem detq_setTimer (d : Option Nat) : (s.setTimer n d).detq = s.detq := rfl
theorem detq_setSst (v : Nat) : (s.setSst n v).detq = s.detq := fs_detq s _ _ _
theorem time_setSst (v : Nat) : (s.setSst n v).time = s.time := fs_time s _ _ _

end

/-! ### A slot is given up (R36, R40) -/

/-- A slot of which nothing more is measured. -/
def WhSlot.dropped (x : WhSlot) : WhSlot :=
  { x with valid := false, lastEdge := none, badEdges := 0, hist := [], at_ := none, turns := 0 }

/-- A slot in use, taken out of use with an event record and a report of family 0x30. -/
def State.reportSlot (s : State) (n st evt kind : Nat) (payload : List Byte) : State :=
  (((s.setTimer n none).setSst n st).post evt n payload).det 0x30 n 0 kind 0

section
variable {s : State} {n : Nat}

theorem slotInvalid_of_wtr (h : s.sst n = 2) : s.slotInvalid n
    = (((s.setSlot n (s.slot n).dropped).setTimer n none).setSst n 1).fs F.WH_SLOT_STAT_WTR_LEFT n 0 := if_pos h

theorem slotInvalid_of_used (h : s.sst n = 3 ∨ s.sst n = 4) :
    s.slotInvalid n = (s.setSlot n (s.slot n).dropped).reportSlot n 1 Evt.WH_REF_LOST 0 [] :=
  (if_neg (by omega)).trans (if_pos h)

theorem slotInvalid_of_unused (h2 : s.sst n ≠ 2) (h3 : ¬ (s.sst n = 3 ∨ s.sst n = 4)) : s.slotInvalid n
    = if s.sst n = 5 then (s.setSlot n (s.slot n).dropped).setTimer n none else s.setSlot n (s.slot n).dropped :=
  (if_neg h2).trans (if_neg h3)

theorem slot_reportSlot (st evt kind : Nat) (p : List Byte) :
    (s.reportSlot n st evt kind p).slot n = { s.slot n with timer := none } := by
  unfold State.reportSlot
  rw [slot_det, slot_post, slot_setSst, slot_setTimer]

theorem sst_reportSlot {st : Nat} (evt kind : Nat) (p : List Byte) (hst : st < 8) (hn : n < 15) :
    (s.reportSlot n st evt kind p).sst n = st := by
  unfold State.reportSlot
  rw [State.sst, fg_det]
  exact (sst_post _ n _ _ _ (by omega)).trans (sst_setSst _ n hst)

theorem detq_reportSlot (st evt kind : Nat) (p : List Byte) :
    (s.reportSlot n st evt kind p).detq = s.detq ++ [⟨0x30, n, 0, kind, 0, s.mts, false, false, 0⟩] := by
  unfold State.reportSlot
  rw [detq_det, detq_post, detq_setSst, detq_setTimer, mts_of_time ((time_post _ _ _ _).trans (time_setSst _ n st))]
  rfl

/-- What is left of a slot that is given up, but for its timer. -/
theorem slot_slotInvalid (s : State) (n : Nat) : ∃ d, (s.slotInvalid n).slot n = { (s.slot n).dropped with timer := d } := by
  by_cases h2 : s.sst n = 2
  · refine ⟨none, ?_⟩
    rw [slotInvalid_of_wtr h2, slot_fs, slot_setSst, slot_setTimer, slot_setSlot_same]
  · by_cases h3 : s.sst n = 3 ∨ s.sst n = 4
    · refine ⟨none, ?_⟩
      rw [slotInvalid_of_used h3, slot_reportSlot, slot_setSlot_same]
    · rw [slotInvalid_of_unused h2 h3]
      split
      · exact ⟨none, by rw [slot_setTimer, slot_setSlot_same]⟩
      · exact ⟨_, slot_setSlot_same s n _⟩

theorem valid_slotInvalid (s : State) (n : Nat) : ((s.slotInvalid n).slot n).valid = false := by
  obtain ⟨d, h⟩ := slot_slotInvalid s n
  rw [h]
  rfl

theorem phase_slotInvalid (s : State) (n : Nat) : ((s.slotInvalid n).slot n).phase = (s.slot n).phase := by
  obtain ⟨d, h⟩ := slot_slotInvalid s n
  rw [h]
  rfl

/-- A slot in WTR that is given up. -/
theorem slotInvalid_leaves_wtr (h : s.sst n = 2) : (s.slotInvalid n).sst n = 1
    ∧ (s.slotInvalid n).fg F.WH_SLOT_STAT_WTR_LEFT n = 0 ∧ (s.slotInvalid n).detq = s.detq := by
  rw [slotInvalid_of_wtr h]
  refine ⟨(sst_wtrLeft _ n 0).trans (sst_setSst _ n (by decide)), wtrLeft_wtrLeft _ n (by decide), ?_⟩
  rw [fs_detq, detq_setSst, detq_setTimer, detq_setSlot]

/-- A slot in use that is given up. -/
theorem slotInvalid_reports (hn : n < 15) (h : s.sst n = 3 ∨ s.sst n = 4) :
    (s.slotInvalid n).sst n = 1 ∧ (s.slotInvalid n).detq = s.detq ++ [⟨0x30, n, 0, 0, 0, s.mts, false, false, 0⟩] := by
  rw [slotInvalid_of_used h]
  exact ⟨sst_reportSlot _ _ _ (by decide) hn, detq_reportSlot _ _ _ _⟩

theorem slotInvalid_keeps_unused (h : s.sst n = 0 ∨ s.sst n = 1 ∨ s.sst n = 5) :
    (s.slotInvalid n).sst n = s.sst n ∧ (s.slotInvalid n).detq = s.detq := by
  rw [slotInvalid_of_unused (by omega) (by omega)]
  split
  · exact ⟨rfl, rfl⟩
  · exact ⟨rfl, rfl⟩

/-- SLOT_INVALID gives up a slot that meets its condition. -/
theorem slotInvalid_drops (hn : n < 15) (hb : s.slotBad n = true) : Completes (.slotInvalid n) s (fun t =>
    (t.slot n).valid = false
      ∧ (s.sst n = 2 → t.sst n = 1 ∧ t.fg F.WH_SLOT_STAT_WTR_LEFT n = 0 ∧ t.detq = s.detq)
      ∧ (s.sst n = 3 ∨ s.sst n = 4 → t.sst n = 1 ∧ t.detq = s.detq ++ [⟨0x30, n, 0, 0, 0, s.mts, false, false, 0⟩])
      ∧ (s.sst n = 0 ∨ s.sst n = 1 ∨ s.sst n = 5 → t.sst n = s.sst n ∧ t.detq = s.detq)) :=
  ⟨s.slotInvalid n, congrArg Host.Outcome.next (if_pos ⟨hn, hb⟩), valid_slotInvalid s n, slotInvalid_leaves_wtr,
    slotInvalid_reports hn, slotInvalid_keeps_unused⟩

theorem exec_slotInvalid_of_good (h : s.slotBad n = false) : exec (.slotInvalid n) s = .next s :=
  congrArg Host.Outcome.next (if_neg fun k => Bool.false_ne_true (h.symm.trans k.2))

/-- SYNC_TIMEOUT gives up a PTP slot (R36). -/
theorem syncTimeout_drops {g : Int} (hn : n < 8) (hg : s.edgeGap n = some g) (hl : 3 * logNs (s.fgI F.NET_PTP_CFG_LOG_SYNC n) ≤ g) :
    Completes (.syncTimeout n) s (fun t => (t.slot n).valid = false
      ∧ (s.sst n = 3 ∨ s.sst n = 4 → t.sst n = 1 ∧ t.detq = s.detq ++ [⟨0x30, n, 0, 0, 0, s.mts, false, false, 0⟩])) := by
  refine ⟨s.slotInvalid n, ?_, valid_slotInvalid s n, slotInvalid_reports (by omega)⟩
  show execSyncTimeout n s = _
  unfold execSyncTimeout
  rw [hg]
  exact congrArg Host.Outcome.next (if_pos ⟨hn, hl⟩)

/-! ### A slot comes into use (R40, R41) -/

/-- A slot that shows WTR with its seconds whole. -/
def State.wtrShown (s : State) (n : Nat) : State :=
  (s.setSst n 2).fs F.WH_SLOT_STAT_WTR_LEFT n ((s.setSst n 2).fg F.WH_SLOT_CFG_WTR n)

theorem wtr_setSst (s : State) {n : Nat} (v : Nat) (hn : n < 15) :
    (s.setSst n v).fg F.WH_SLOT_CFG_WTR n = s.fg F.WH_SLOT_CFG_WTR n :=
  fg_fs_clear s (by decide) (by omega) (by omega)

theorem wtrLeft_wtrShown (s : State) {n : Nat} (hn : n < 15) :
    (s.wtrShown n).fg F.WH_SLOT_STAT_WTR_LEFT n = s.fg F.WH_SLOT_CFG_WTR n := by
  have hw : s.fg F.WH_SLOT_CFG_WTR n < 4096 := fg_lt s F.WH_SLOT_CFG_WTR n
  unfold State.wtrShown
  rw [wtr_setSst s 2 hn]
  exact wtrLeft_wtrLeft _ n hw

theorem time_wtrShown (s : State) (n : Nat) : (s.wtrShown n).time = s.time := (fs_time _ _ _ _).trans (time_setSst s n 2)

theorem wh_wtrShown (s : State) (n : Nat) : (s.wtrShown n).wh = s.wh := (fs_wh _ _ _ _).trans (fs_wh s _ n 2)

theorem sst_wtrShown (s : State) (n : Nat) : (s.wtrShown n).sst n = 2 := (sst_wtrLeft _ n _).trans (sst_setSst s n (by decide))

/-- WTR waits for the end of a switch (R41), and else begins at once. -/
theorem startWtr_eq (s : State) (n : Nat) : s.startWtr n = (s.wtrShown n).setSlot n
    (if (s.wtrShown n).wh.switch.isSome = true then { (s.wtrShown n).slot n with timer := none, lateWtr := true }
      else { (s.wtrShown n).slot n with
        timer := (s.wtrShown n).inNs ((s.setSst n 2).fg F.WH_SLOT_CFG_WTR n * secNs), lateWtr := false }) :=
  (apply_ite ((s.wtrShown n).setSlot n) _ _ _).symm

theorem sst_startWtr (s : State) (n : Nat) : (s.startWtr n).sst n = 2 := by
  rw [startWtr_eq]
  exact (fg_setSlot ..).trans (sst_wtrShown s n)

theorem wtrLeft_startWtr (s : State) {n : Nat} (hn : n < 15) :
    (s.startWtr n).fg F.WH_SLOT_STAT_WTR_LEFT n = s.fg F.WH_SLOT_CFG_WTR n := by
  rw [startWtr_eq]
  exact (fg_setSlot ..).trans (wtrLeft_wtrShown s hn)

theorem slot_wtrShown (s : State) (n : Nat) : (s.wtrShown n).slot n = s.slot n := (slot_fs _ n _ _ _).trans (slot_setSst s n n 2)

theorem valid_startWtr (s : State) (n : Nat) : ((s.startWtr n).slot n).valid = (s.slot n).valid := by
  rw [startWtr_eq, slot_setSlot_same, apply_ite WhSlot.valid, ite_self, slot_wtrShown]

theorem phase_startWtr (s : State) (n : Nat) : ((s.startWtr n).slot n).phase = (s.slot n).phase := by
  rw [startWtr_eq, slot_setSlot_same, apply_ite WhSlot.phase, ite_self, slot_wtrShown]

theorem timer_startWtr (s : State) {n : Nat} (hn : n < 15) (h : s.wh.switch = none) :
    ((s.startWtr n).slot n).timer = some (s.time.up + s.fg F.WH_SLOT_CFG_WTR n * secNs) := by
  have hw : (s.wtrShown n).wh.switch = none := (congrArg WhSt.switch (wh_wtrShown s n)).trans h
  rw [startWtr_eq, slot_setSlot_same, if_neg (by rw [hw]; decide), wtr_setSst s 2 hn]
  unfold State.inNs
  rw [time_wtrShown]

theorem slotValid_of_invalid (h : s.sst n = 1) : s.slotValid n
    = if s.service = true then (s.setSlot n { s.slot n with valid := true }).startWtr n
      else (s.setSlot n { s.slot n with valid := true }).setSst n 3 := if_pos h

/-- SLOT_VALID (R40): a slot that is valid again waits in SERVICE, and is used at once in ACQUIRE. -/
theorem slotValid_takes_into_use (hn : n < 15) (hst : s.sst n = 1) (hb : s.slotBad n = false) :
    Completes (.slotValid n) s (fun t => (t.slot n).valid = true ∧ t.sst n = (if s.service = true then 2 else 3)
      ∧ (s.service = true → t.fg F.WH_SLOT_STAT_WTR_LEFT n = s.fg F.WH_SLOT_CFG_WTR n
          ∧ (s.wh.switch = none → (t.slot n).timer = some (s.time.up + s.fg F.WH_SLOT_CFG_WTR n * secNs)))) := by
  have e : exec (.slotValid n) s = .next (s.slotValid n) :=
    congrArg Host.Outcome.next (if_pos ⟨hn, by rw [hst]; decide, by rw [hb]; rfl⟩)
  refine ⟨_, e, ?_⟩
  rw [slotValid_of_invalid hst]
  by_cases hs : s.service = true
  · rw [if_pos hs, if_pos hs]
    exact ⟨(valid_startWtr _ n).trans (congrArg WhSlot.valid (slot_setSlot_same s n _)), sst_startWtr _ n,
      fun _ => ⟨wtrLeft_startWtr _ hn, timer_startWtr (s.setSlot n { s.slot n with valid := true }) hn⟩⟩
  · rw [if_neg hs, if_neg hs]
    exact ⟨congrArg WhSlot.valid ((slot_setSst _ n n 3).trans (slot_setSlot_same s n _)), sst_setSst _ n (by decide),
      fun h => absurd h hs⟩

/-! ### The ends of WTR and of DRIFT_HOLD (R40) -/

theorem regsKept_setTimer (l : List RegId) (s : State) (n : Nat) (d : Option Nat) : RegsKept l s (s.setTimer n d) := .of_regs rfl

theorem wtrExpiry_qualifies (hn : n < 15) (hst : s.sst n = 2) (hd : s.due (s.slot n).timer = true) :
    Completes (.wtrExpiry n) s (fun t => t.sst n = 3 ∧ (t.slot n).timer = none ∧ t.fg F.WH_SLOT_STAT_WTR_LEFT n = 0
      ∧ RegsKept [.WH_SLOT_STAT] s t) := by
  refine ⟨((s.setTimer n none).setSst n 3).fs F.WH_SLOT_STAT_WTR_LEFT n 0, congrArg Host.Outcome.next (if_pos ⟨hn, hst, hd⟩),
    (sst_wtrLeft _ n 0).trans (sst_setSst _ n (by decide)), ?_, wtrLeft_wtrLeft _ n (by decide), ?_⟩
  · rw [slot_fs, slot_setSst, slot_setTimer]
  · exact ((regsKept_setTimer _ s n none).trans (regsKept_fs _ _ n 3 (by decide) (by omega))).trans
      (regsKept_fs _ _ n 0 (by decide) (by omega))

theorem driftHoldExpiry_disqualifies (hn : n < 15) (hd : s.due (s.slot n).timer = true) (hst : s.sst n = 4) :
    Completes (.driftHoldExpiry n) s (fun t => t.sst n = 5 ∧ (t.slot n).timer = none
      ∧ t.detq = s.detq ++ [⟨0x30, n, 0, 1, 0, s.mts, false, false, 0⟩]) := by
  have e : exec (.driftHoldExpiry n) s
      = .next (s.reportSlot n 5 Evt.WH_DISQUALIFIED 1 (leBytes 4 (s.fg F.WH_SLOT_FREQ_FREQ n))) :=
    congrArg Host.Outcome.next ((if_pos ⟨hn, hd⟩).trans (if_pos hst))
  refine ⟨_, e, sst_reportSlot _ _ _ (by decide) hn, ?_, detq_reportSlot _ _ _ _⟩
  rw [slot_reportSlot]

theorem driftHoldExpiry_takes_back (hn : n < 15) (hd : s.due (s.slot n).timer = true) (hst : s.sst n = 5) :
    Completes (.driftHoldExpiry n) s (fun t => t.sst n = if s.service = true then 2 else 3) := by
  refine ⟨_, congrArg Host.Outcome.next ((if_pos ⟨hn, hd⟩).trans ((if_neg (by omega)).trans (if_pos hst))), ?_⟩
  split
  · exact sst_startWtr _ n
  · exact sst_setSst _ n (by decide)

/-! ### What the states of the slots leave -/

/-- Media Time, the network ports, what steers the loop and every register stay, but for the states of the slots and what event
records write. -/
structure SlotsOnly (s t : State) : Prop where
  time : t.time = s.time
  net  : t.net = s.net
  wh   : t.wh = { s.wh with slots := t.wh.slots }
  regs : RegsKept [.WH_SLOT_STAT, .HIF_RING_IDX, .HIF_STAT] s t

theorem SlotsOnly.refl (s : State) : SlotsOnly s s := ⟨rfl, rfl, rfl, .refl _ s⟩

theorem SlotsOnly.trans {s t u : State} (h : SlotsOnly s t) (k : SlotsOnly t u) : SlotsOnly s u :=
  ⟨k.time.trans h.time, k.net.trans h.net, k.wh.trans (congrArg (fun w : WhSt => { w with slots := u.wh.slots }) h.wh),
    h.regs.trans k.regs⟩

theorem SlotsOnly.ite {c : Prop} [Decidable c] {s t u : State} (ht : SlotsOnly s t) (hu : SlotsOnly s u) :
    SlotsOnly s (if c then t else u) := by
  split
  · exact ht
  · exact hu

theorem SlotsOnly.foldl {f : State → Nat → State} {l : List Nat} (h : ∀ s, ∀ n ∈ l, SlotsOnly s (f s n)) (s : State) :
    SlotsOnly s (l.foldl f s) := foldl_frame SlotsOnly .refl .trans f l h s

section
variable (s : State) (n : Nat)

theorem slotsOnly_setSlot (x : WhSlot) : SlotsOnly s (s.setSlot n x) := ⟨rfl, rfl, rfl, .of_regs rfl⟩
theorem slotsOnly_setTimer (d : Option Nat) : SlotsOnly s (s.setTimer n d) := slotsOnly_setSlot s n _
theorem slotsOnly_det (a b c d e : Nat) : SlotsOnly s (s.det a b c d e) := ⟨rfl, rfl, rfl, .of_regs rfl⟩

theorem slotsOnly_post (typ source : Nat) (p : List Byte) : SlotsOnly s (s.post typ source p) := by
  have h := post_works s typ source p
  exact ⟨time_post s typ source p, h.net, by rw [h.wh], (regsKept_post s typ source p).mono (by simp)⟩

theorem slotsOnly_fs (f : Fld) (v : Nat) (hf : f.reg = .WH_SLOT_STAT) (hn : n < 15) : SlotsOnly s (s.fs f n v) :=
  ⟨fs_time s f n v, fs_net s f n v, by rw [fs_wh], regsKept_fs s f n v (by rw [hf]; decide) (by omega)⟩

variable {n}

theorem slotsOnly_setSst (v : Nat) (hn : n < 15) : SlotsOnly s (s.setSst n v) := slotsOnly_fs s n _ v rfl hn

theorem slotsOnly_wtrLeft (v : Nat) (hn : n < 15) : SlotsOnly s (s.fs F.WH_SLOT_STAT_WTR_LEFT n v) :=
  slotsOnly_fs s n _ v rfl hn

theorem slotsOnly_reportSlot (st evt kind : Nat) (p : List Byte) (hn : n < 15) : SlotsOnly s (s.reportSlot n st evt kind p) :=
  (((slotsOnly_setTimer s n none).trans (slotsOnly_setSst _ st hn)).trans (slotsOnly_post _ evt n p)).trans
    (slotsOnly_det _ _ _ _ _ _)

theorem slotsOnly_startWtr (hn : n < 15) : SlotsOnly s (s.startWtr n) := by
  rw [startWtr_eq]
  exact ((slotsOnly_setSst s 2 hn).trans (slotsOnly_wtrLeft _ _ hn)).trans (slotsOnly_setSlot _ n _)

theorem slotsOnly_slotInvalid (hn : n < 15) : SlotsOnly s (s.slotInvalid n) := by
  have hx : SlotsOnly s (s.setSlot n (s.slot n).dropped) := slotsOnly_setSlot s n _
  by_cases h2 : s.sst n = 2
  · rw [slotInvalid_of_wtr h2]
    exact ((hx.trans (slotsOnly_setTimer _ n none)).trans (slotsOnly_setSst _ 1 hn)).trans (slotsOnly_wtrLeft _ 0 hn)
  · by_cases h3 : s.sst n = 3 ∨ s.sst n = 4
    · rw [slotInvalid_of_used h3]
      exact hx.trans (slotsOnly_reportSlot _ _ _ _ _ hn)
    · rw [slotInvalid_of_unused h2 h3]
      exact .ite (hx.trans (slotsOnly_setTimer _ n none)) hx

theorem slotsOnly_slotValid (hn : n < 15) : SlotsOnly s (s.slotValid n) := by
  unfold State.slotValid
  extract_lets _ t
  have ht : SlotsOnly s t := slotsOnly_setSlot s n _
  exact .ite (.ite (ht.trans (slotsOnly_startWtr t hn)) (ht.trans (slotsOnly_setSst t 3 hn)))
    (.ite (ht.trans (slotsOnly_setTimer t n _)) ht)

/-- The drift rows of R40 write the states of the slots alone. -/
theorem slotsOnly_judgeDrift (hn : n < 15) : SlotsOnly s (s.judgeDrift n) := by
  have disqualified : SlotsOnly s (s.disqualify n) := slotsOnly_reportSlot s 5 _ _ _ hn
  have cleared : SlotsOnly s (s.setTimer n none) := slotsOnly_setTimer s n none
  have held : ∀ v, SlotsOnly s ((s.setSst n v).setTimer n (s.inNs (s.fg F.WH_DRIFT_DRIFT_HOLD 0 * secNs))) := fun v =>
    (slotsOnly_setSst s v hn).trans (slotsOnly_setTimer _ n _)
  unfold State.judgeDrift
  extract_lets st d
  refine .ite (.ite (slotsOnly_slotValid s hn) (.refl s)) (.ite (.ite ?_ (.refl s)) (.ite ?_ (.ite ?_ (.ite ?_ (.refl s)))))
  · exact (cleared.trans (slotsOnly_setSst _ 1 hn)).trans (slotsOnly_wtrLeft _ 0 hn)
  · exact .ite disqualified (.ite ((held 4).trans (slotsOnly_post _ _ _ _)) (.refl s))
  · exact .ite disqualified (.ite (.refl s) ((slotsOnly_setSst s 3 hn).trans (slotsOnly_setTimer _ n none)))
  · exact .ite cleared (.ite (slotsOnly_setTimer s n _) (.refl s))

theorem slotsOnly_showWtr (hn : n < 15) : SlotsOnly s (s.showWtr n) := by
  unfold State.showWtr
  split
  · exact .ite (slotsOnly_wtrLeft s _ hn) (.refl s)
  · exact .refl s

end

/-! ### Edges of period slots (R36, R37) -/

theorem phase_slotValid (s : State) (n : Nat) : ((s.slotValid n).slot n).phase = (s.slot n).phase := by
  unfold State.slotValid
  extract_lets _ t
  have ht : (t.slot n).phase = (s.slot n).phase := by
    unfold t
    rw [slot_setSlot_same]
  refine Eq.trans ?_ ht
  split
  · split
    · exact phase_startWtr t n
    · rw [slot_setSst]
  · split
    · rw [slot_setTimer]
    · rfl

section
variable (s : State) {n : Nat} (p : Int)

/-- A measurement writes the phase of the slot and what the frequency is taken from (R37). -/
theorem slot_slotPhase : ∃ turns hz at_ hist,
    (s.slotPhase n p).slot n = { s.slot n with phase := p, turns := turns, hz := hz, at_ := at_, hist := hist } := by
  unfold State.slotPhase
  extract_lets x hz goOn k u t _ v
  have hv : v.slot n = t.slot n := by
    unfold v
    split
    · split <;> rfl
    · rfl
  refine ⟨k, hz, some (s.time.up, s.now * hz + u), if goOn then x.hist else [], ?_⟩
  exact (slot_fsI v n F.WH_SLOT_PHASE_PHASE n _).trans (hv.trans (slot_setSlot_same s n _))

theorem sst_slotPhase (hn : n < 15) : (s.slotPhase n p).sst n = s.sst n := by
  unfold State.slotPhase
  extract_lets x hz goOn k u t _ v
  have hv : v.regs = s.regs := by
    unfold v
    split
    · split <;> rfl
    · rfl
  exact (fg_fs_clear v (f := F.WH_SLOT_PHASE_PHASE) (by decide) (by omega) (by omega)).trans (fg_of_regs hv _ _)

end

section
variable {s t : State} {n : Nat}

/-- The nominal frequency of a slot is a setting. -/
theorem SlotsOnly.slotHz (h : SlotsOnly s t) (hn : n < 15) : t.slotHz n = s.slotHz n := by
  unfold State.slotHz
  rw [h.regs.fg F.WH_SLOT_CFG_NOM n (by decide) (by omega)]

/-- What an edge leaves of the phase, whether or not it breaks the period of its slot. -/
theorem phase_periodEdge (s : State) (bad : Bool) (limit : Nat) (hn : n < 15) :
    ((s.periodEdge n bad limit).slot n).phase = foldPhase (s.slotHz n) s.time.ns.toNat := by
  unfold State.periodEdge
  extract_lets late t x nb u v
  have hu : SlotsOnly s u :=
    (SlotsOnly.ite (slotsOnly_slotInvalid s hn) (.refl s)).trans (slotsOnly_setSlot t n _)
  have hv : (v.slot n).phase = foldPhase (s.slotHz n) s.time.ns.toNat := by
    obtain ⟨_, _, _, _, h⟩ := slot_slotPhase (n := n) u (foldPhase (u.slotHz n) u.time.ns.toNat)
    rw [← hu.slotHz hn, ← hu.time]
    exact congrArg WhSlot.phase h
  refine Eq.trans ?_ hv
  split
  · exact phase_slotInvalid v n
  · split
    · exact phase_slotValid v n
    · rfl

/-- The first edge of a slot is judged against nothing. -/
theorem periodEdge_of_first {limit : Nat} (bad : Bool) (hn : n < 15) (hl : 0 < limit) (h : (s.slot n).lastEdge = none) :
    ((s.periodEdge n bad limit).slot n).lastEdge = some (s.now : Int) ∧ (s.periodEdge n bad limit).sst n = s.sst n := by
  have hlate : s.edgeLate n = true := by
    unfold State.edgeLate State.edgeGap
    rw [h]
    rfl
  let u := s.setSlot n { s.slot n with lastEdge := some (s.now : Int), badEdges := 0 }
  let v := u.slotPhase n (foldPhase (u.slotHz n) u.time.ns.toNat)
  have e : s.periodEdge n bad limit = v := by
    unfold State.periodEdge
    dsimp only
    rw [hlate, h]
    simp only [Option.isSome_none, Bool.and_false, Bool.false_eq_true, if_false, Bool.not_true, Bool.false_and]
    exact if_neg (by omega)
  rw [e]
  refine ⟨?_, sst_slotPhase u _ hn⟩
  obtain ⟨_, _, _, _, hv⟩ := slot_slotPhase (n := n) u (foldPhase (u.slotHz n) u.time.ns.toNat)
  rw [hv, slot_setSlot_same]

end

/-! ### The frequency (R37) -/

theorem head_lastSecond (t : Nat) (m : Nat × Int) (l : List (Nat × Int)) : (lastSecond t (m :: l)).head? = some m := by
  unfold lastSecond
  split <;> rfl

/-- The slope over measurements of which the newest is given. -/
theorem phaseSlope_of_last (hz : Nat) {h : List (Nat × Int)} {m r : Nat × Int} (hm : h.head? = some m) (hr : h.getLast? = some r) :
    phaseSlope hz h = if m.1 ≤ r.1 then none else some ((m.2 - r.2 - hz * (m.1 - r.1 : Nat)) * 2 ^ 40 / (hz * (m.1 - r.1) : Nat)) := by
  unfold phaseSlope
  rw [hm, hr]

theorem phaseSlope_singleton (hz : Nat) (m : Nat × Int) : phaseSlope hz [m] = none := if_pos (Nat.le_refl m.1)

theorem satS_range (x : Int) : -2 ^ 31 ≤ satS 32 x ∧ satS 32 x < 2 ^ 31 := by
  unfold satS
  split
  · decide
  · split
    · decide
    · omega

/-- The frequency a slot shows is taken from the measurements that its last one joins. -/
theorem freq_updateFreq {s : State} {n : Nat} {m : Nat × Int} (hv : (s.slot n).valid = true) (ha : (s.slot n).at_ = some m)
    (hh : (s.slot n).hist.head? ≠ some m) : (s.updateFreq n).fgI F.WH_SLOT_FREQ_FREQ n
      = satS 32 ((phaseSlope (s.slot n).hz (lastSecond m.1 (m :: (s.slot n).hist))).getD s.rateNow) := by
  unfold State.updateFreq
  dsimp only
  rw [hv, ha]
  dsimp only
  rw [if_neg hh, if_neg (by decide)]
  obtain ⟨hlo, hhi⟩ := satS_range ((phaseSlope (s.slot n).hz (lastSecond m.1 (m :: (s.slot n).hist))).getD s.rateNow)
  exact fgI_fsI_word _ F.WH_SLOT_FREQ_FREQ n rfl rfl hlo hhi

/-- A loop over distinct keys: where a round leaves what is read at every other key, the loop does at a key what its round does. -/
theorem foldl_at_key {R : State → State → Prop} (hr : ∀ s, R s s) (ht : ∀ {s t u}, R s t → R t u → R s u) {f : State → Nat → State}
    {l : List Nat} {n : Nat} (hl : l.Nodup) (hn : n ∈ l) (hf : ∀ s, ∀ m ∈ l, m ≠ n → R s (f s m)) (s : State) :
    ∃ u, R s u ∧ R (f u n) (l.foldl f s) := by
  obtain ⟨a, b, rfl⟩ := List.append_of_mem hn
  obtain ⟨-, hb, hd⟩ := List.nodup_append.mp hl
  have ha : n ∉ a := fun h => hd n h n (List.mem_cons_self ..) rfl
  have hb' : n ∉ b := (List.nodup_cons.mp hb).1
  rw [List.foldl_append, List.foldl_cons]
  refine ⟨_, foldl_frame R hr ht f a (fun s m hm => hf s m (by simp [hm]) fun e => ha (e ▸ hm)) s, ?_⟩
  exact foldl_frame R hr ht f b (fun s m hm => hf s m (by simp [hm]) fun e => hb' (e ▸ hm)) _

/-- What the frequency of slot n is taken from stays, and the frequency shown. -/
structure SameMeasure (n : Nat) (s t : State) : Prop where
  slot : t.slot n = s.slot n
  rate : t.rateNow = s.rateNow
  freq : t.fgI F.WH_SLOT_FREQ_FREQ n = s.fgI F.WH_SLOT_FREQ_FREQ n

section
variable {n : Nat}

theorem SameMeasure.refl (s : State) : SameMeasure n s s := ⟨rfl, rfl, rfl⟩

theorem SameMeasure.trans {s t u : State} (h : SameMeasure n s t) (k : SameMeasure n t u) : SameMeasure n s u :=
  ⟨k.slot.trans h.slot, k.rate.trans h.rate, k.freq.trans h.freq⟩

/-- The rate in force depends on what steers the loop and on the state of the loop. -/
theorem rateNow_congr {s t : State} (hw : t.wh = { s.wh with slots := t.wh.slots })
    (hl : t.fg F.WH_STATUS_LOOP 0 = s.fg F.WH_STATUS_LOOP 0) : t.rateNow = s.rateNow := by
  unfold State.rateNow
  rw [hl, hw]

theorem sameMeasure_updateFreq (s : State) {m : Nat} (hm : m < 15) (hn : n < 15) (h : n ≠ m) : SameMeasure n s (s.updateFreq m) := by
  unfold State.updateFreq
  extract_lets x hist
  split
  · exact .refl s
  · refine ⟨?_, rateNow_congr ?_ ?_, ?_⟩
    · rw [slot_fsI]
      exact slot_setSlot_ne s m _ h
    · rw [fsI_wh]
      rfl
    · exact fg_fs_clear (s.setSlot m _) (f := F.WH_SLOT_FREQ_FREQ) (by decide) (by omega) (by omega)
    · exact congrArg (sext 32) (fg_fs_other (s.setSlot m _) F.WH_SLOT_FREQ_FREQ F.WH_SLOT_FREQ_FREQ m n _ (by omega) (by omega) (.inr h))

end

/-- SLOT_MEASUREMENT_UPDATE gives a valid slot its frequency (R37). -/
theorem slotMeasurementUpdate_gives_freq (dt : Nat) (s : State) {n : Nat} (hn : n < 15) (hv : (s.slot n).valid = true) :
    Completes (.slotMeasurementUpdate dt) s fun t => ∀ m, (s.slot n).at_ = some m → (s.slot n).hist.head? ≠ some m →
      t.fgI F.WH_SLOT_FREQ_FREQ n = satS 32 ((phaseSlope (s.slot n).hz (lastSecond m.1 (m :: (s.slot n).hist))).getD
        (s.elapse dt).rateNow) := by
  refine ⟨_, rfl, fun m ha hh => ?_⟩
  have hslot : (s.elapse dt).slot n = s.slot n := slot_of_wh (elapse_works s dt).wh n
  obtain ⟨u, hu, ht⟩ := foldl_at_key (n := n) SameMeasure.refl SameMeasure.trans List.nodup_range (List.mem_range.mpr hn)
    (fun s m hm h => sameMeasure_updateFreq s (List.mem_range.mp hm) hn h.symm) (s.elapse dt)
  have hx : u.slot n = s.slot n := hu.slot.trans hslot
  have judged : SlotsOnly _ _ := SlotsOnly.foldl (l := List.range 15) (f := fun s n => (s.judgeDrift n).showWtr n)
    (fun s n h => (slotsOnly_judgeDrift s (List.mem_range.mp h)).trans (slotsOnly_showWtr _ (List.mem_range.mp h)))
    ((List.range 15).foldl (fun s n => s.updateFreq n) (s.elapse dt))
  rw [← hu.rate, ← hx]
  rw [← hx] at hv ha hh
  refine .trans (congrArg (sext 32) (judged.regs.fg F.WH_SLOT_FREQ_FREQ n (by decide) (by omega))) ?_
  exact ht.freq.trans (freq_updateFreq hv ha hh)

theorem slotMeasurementUpdate_measures (dt : Nat) (s : State) (n : Nat) (hn : n < 15) (hv : (s.slot n).valid = true) :
    Completes (.slotMeasurementUpdate dt) s (fun t =>
      let x := s.slot n
      (∀ m t0 r0, x.at_ = some m → x.hist.head? ≠ some m → (lastSecond m.1 (m :: x.hist)).getLast? = some (t0, r0) → t0 < m.1 →
        t.fgI F.WH_SLOT_FREQ_FREQ n = satS 32 ((m.2 - r0 - x.hz * (m.1 - t0 : Nat)) * 2 ^ 40 / (x.hz * (m.1 - t0) : Nat)))
      ∧ (∀ m, x.at_ = some m → x.hist = [] → t.fgI F.WH_SLOT_FREQ_FREQ n = satS 32 (s.elapse dt).rateNow)) := by
  obtain ⟨t, e, h⟩ := slotMeasurementUpdate_gives_freq dt s hn hv
  refine ⟨t, e, fun m t0 r0 ha hh hl ht => ?_, fun m ha hh => ?_⟩
  · rw [h m ha hh, phaseSlope_of_last _ (head_lastSecond _ _ _) hl, if_neg (Nat.not_le.mpr ht)]
    rfl
  · have hone : lastSecond m.1 [m] = [m] := ite_self _
    rw [h m ha (by rw [hh]; exact Option.some_ne_none m ∘ Eq.symm), hh, hone, phaseSlope_singleton]
    rfl

theorem edge_measures {s u : State} {n limit : Nat} (bad : Bool) (hu : u.regs = s.regs) (hw : u.wh = s.wh) (hn : n < 15)
    (hl : 0 < limit) : ((u.periodEdge n bad limit).slot n).phase = foldPhase (s.slotHz n) u.time.ns.toNat
      ∧ ((s.slot n).lastEdge = none → ((u.periodEdge n bad limit).slot n).lastEdge = some (u.now : Int)
          ∧ (u.periodEdge n bad limit).sst n = s.sst n) := by
  have hz : u.slotHz n = s.slotHz n := by
    unfold State.slotHz
    rw [fg_of_regs hu]
  refine ⟨by rw [← hz]; exact phase_periodEdge u bad limit hn, fun h => ?_⟩
  obtain ⟨hedge, hsst⟩ := periodEdge_of_first bad hn hl (by rw [slot_of_wh hw]; exact h)
  exact ⟨hedge, hsst.trans (fg_of_regs hu _ _)⟩

/-- Settles O18: what is read of a slot after each write to it; the slots are measured one by one (`foldl_at_key`), and their states
write no frequency (`SlotsOnly`). -/
theorem slotsAreMeasuredAndTheirStatesFollow : Obligations.SlotsAreMeasuredAndTheirStatesFollow := by
  refine ⟨slotMeasurementUpdate_measures, ⟨fun dt s => ⟨_, rfl, ?_⟩, fun i dt s hi => ⟨_, if_pos hi, ?_⟩⟩,
    fun n s hn hb => slotInvalid_drops hn hb, fun n s h => exec_slotInvalid_of_good h,
    fun n s g hn hg hl => syncTimeout_drops hn hg hl, fun n s hn hst hb => slotValid_takes_into_use hn hst hb,
    fun n s hn hst hd => wtrExpiry_qualifies hn hst hd,
    fun n s hn hd => ⟨driftHoldExpiry_disqualifies hn hd, driftHoldExpiry_takes_back hn hd⟩⟩
  · exact edge_measures (n := 14) _ (regs_elapse s dt) (elapse_works s dt).wh (by decide) (by decide)
  · exact edge_measures (n := 10 + i) _ (regs_elapse s dt) (elapse_works s dt).wh (by omega) (by decide)

end

end Sys2Proof.Machine
end

