-- ==== Sys2Proof/Proofs/WellheadLoop.lean ====
section
/-! The mode and the loop of the Wellhead (R42, R45, R47), switches of the reference (R48), and the commands that steer them
(R52 - R54). -/

namespace Sys2Proof.Machine

/-! ### The mode (R42) -/

/-- The block with a mode shown. -/
def State.modeShown (s : State) (m : Nat) : State :=
  let t := s.fs F.WH_STATUS_MODE 0 m
  { t with wh := { t.wh with hoSince := if m = 1 ∧ t.loop = 4 then some t.time.up else none } }

/-- A slot in WTR is used at once in ACQUIRE. -/
def State.endWtr (s : State) (n : Nat) : State :=
  if s.sst n = 2 then
    ((s.setSlot n { s.slot n with timer := none, lateWtr := false }).setSst n 3).fs F.WH_SLOT_STAT_WTR_LEFT n 0
  else s

theorem setMode_eq (s : State) (m : Nat) :
    s.setMode m = if m = 0 then (List.range 15).foldl State.endWtr (s.modeShown m) else s.modeShown m := rfl

theorem setMode_service (s : State) : s.setMode 1 = s.modeShown 1 := (setMode_eq s 1).trans (if_neg Nat.one_ne_zero)

theorem setMode_acquire (s : State) : s.setMode 0 = (List.range 15).foldl State.endWtr (s.modeShown 0) :=
  (setMode_eq s 0).trans (if_pos rfl)

theorem regsKept_wh (l : List RegId) (s : State) (x : WhSt) : RegsKept l s { s with wh := x } := .of_regs rfl

theorem regsKept_modeShown (s : State) (m : Nat) : RegsKept [.WH_STATUS] s (s.modeShown m) :=
  (regsKept_fs s F.WH_STATUS_MODE 0 m (by decide) (by decide)).trans (regsKept_wh _ _ _)

theorem time_wh (s : State) (x : WhSt) : ({ s with wh := x } : State).time = s.time := rfl

theorem time_modeShown (s : State) (m : Nat) : (s.modeShown m).time = s.time := (time_wh _ _).trans (fs_time s _ _ _)

theorem mode_modeShown (s : State) {m : Nat} (hm : m < 2) : (s.modeShown m).fg F.WH_STATUS_MODE 0 = m :=
  (fg_wh _ _ _ _).trans ((fg_fs_same s F.WH_STATUS_MODE 0 m (by decide) (by decide)).trans (Nat.mod_eq_of_lt hm))

theorem loop_modeShown (s : State) (m : Nat) : (s.modeShown m).loop = s.loop :=
  (fg_wh _ _ _ _).trans (fg_fs_clear s (f := F.WH_STATUS_MODE) (by decide) (by decide) (by decide))

theorem slotsOnly_endWtr (s : State) {n : Nat} (hn : n < 15) : SlotsOnly s (s.endWtr n) :=
  .ite (((slotsOnly_setSlot s n _).trans (slotsOnly_setSst _ 3 hn)).trans (slotsOnly_wtrLeft _ 0 hn)) (.refl s)

theorem sst_endWtr_same (s : State) (n : Nat) : (s.endWtr n).sst n = if s.sst n = 2 then 3 else s.sst n := by
  unfold State.endWtr
  split
  · exact (sst_wtrLeft _ n 0).trans (sst_setSst _ n (by decide))
  · rfl

theorem sst_endWtr_ne (s : State) {m n : Nat} (hm : m < 15) (hn : n < 15) (h : n ≠ m) : (s.endWtr m).sst n = s.sst n := by
  unfold State.endWtr
  split
  · refine (fg_fs_other _ F.WH_SLOT_STAT_WTR_LEFT _ m n 0 (by omega) (by omega) (.inr h)).trans ?_
    exact (fg_fs_other _ F.WH_SLOT_STAT_STATE _ m n 3 (by omega) (by omega) (.inr h)).trans (fg_setSlot s m _ _ _)
  · rfl

theorem slotsOnly_endWtrs (s : State) : SlotsOnly s ((List.range 15).foldl State.endWtr s) :=
  .foldl (fun s _ hn => slotsOnly_endWtr s (List.mem_range.mp hn)) s

/-- In ACQUIRE no slot waits. -/
theorem sst_setMode_acquire (s : State) {n : Nat} (hn : n < 15) :
    (s.setMode 0).sst n = if s.sst n = 2 then 3 else s.sst n := by
  rw [setMode_acquire]
  obtain ⟨u, hu, ht⟩ := foldl_at_key (R := fun s t => t.sst n = s.sst n) (fun _ => rfl) (fun h k => k.trans h) List.nodup_range
    (List.mem_range.mpr hn) (fun s m hm h => sst_endWtr_ne s (List.mem_range.mp hm) hn h.symm) (s.modeShown 0)
  have hs : (s.modeShown 0).sst n = s.sst n := (regsKept_modeShown s 0).fg _ n (by decide) (by omega)
  rw [ht, sst_endWtr_same, hu, hs]

theorem service_of_mode {s : State} {m : Nat} (h : s.fg F.WH_STATUS_MODE 0 = m) : s.service = (m == 1) := congrArg (· == 1) h

theorem setMode_acquire_keeps (s : State) :
    (s.setMode 0).service = false ∧ (s.setMode 0).time = s.time ∧ (s.setMode 0).loop = s.loop := by
  have h := slotsOnly_endWtrs (s.modeShown 0)
  rw [setMode_acquire]
  refine ⟨service_of_mode (m := 0) ?_, h.time.trans (time_modeShown s 0), ?_⟩
  · exact (h.regs.fg F.WH_STATUS_MODE 0 (by decide) (by decide)).trans (mode_modeShown s (by decide))
  · exact (h.regs.fg F.WH_STATUS_LOOP 0 (by decide) (by decide)).trans (loop_modeShown s 0)

theorem acqHoldExpiry_enters_service (s : State) (hs : s.service = false) (hl : s.loop = 2)
    (hd : s.due (s.wh.lockSince.map (· + s.fg F.WH_TIMERS_ACQ_HOLD 0 * secNs)) = true) :
    Completes .acqHoldExpiry s (fun t => t.service = true ∧ t.loop = 2 ∧ RegsKept [.WH_STATUS] s t) := by
  have e : exec .acqHoldExpiry s = .next (s.setMode 1) :=
    congrArg Host.Outcome.next (if_pos ⟨by rw [hs]; rfl, hl, hd⟩)
  refine ⟨_, e, ?_⟩
  rw [setMode_service]
  exact ⟨service_of_mode (mode_modeShown s (by decide)), (loop_modeShown s 1).trans hl, regsKept_modeShown s 1⟩

theorem reacqExpiry_enters_acquire (s : State) (hs : s.service = true) (hl : s.loop = 4) (hr : s.fg F.WH_TIMERS_REACQ 0 ≠ 0)
    (hd : s.due (s.wh.hoSince.map (· + s.fg F.WH_TIMERS_REACQ 0 * secNs)) = true) :
    Completes .reacqExpiry s (fun t => t.service = false ∧ t.loop = 4
      ∧ ∀ n, n < 15 → t.sst n = if s.sst n = 2 then 3 else s.sst n) := by
  obtain ⟨hserv, -, hloop⟩ := setMode_acquire_keeps s
  exact ⟨_, congrArg Host.Outcome.next (if_pos ⟨hs, hl, hr, hd⟩), hserv, hloop.trans hl, fun n hn => sst_setMode_acquire s hn⟩

/-! ### The state of the loop (R45) -/

section
variable (s : State) (l : Nat)

theorem wh_setLoop : (s.setLoop l).wh = { s.wh with
    lockSince := if l = 2 then some s.time.up else none, critSince := none, lockDue := false, hoSince := (s.setLoop l).wh.hoSince } := by
  unfold State.setLoop
  dsimp only
  rw [fs_wh, fs_wh, fs_time, fs_time]

theorem time_setLoop : (s.setLoop l).time = s.time := (time_wh _ _).trans ((fs_time _ _ _ _).trans (fs_time s _ _ _))

theorem regsKept_setLoop : RegsKept [.WH_STATUS] s (s.setLoop l) :=
  ((regsKept_fs s F.WH_STATUS_LOOP 0 l (by decide) (by decide)).trans
    (regsKept_fs _ F.WH_STATUS_LOCK 0 _ (by decide) (by decide))).trans (regsKept_wh _ _ _)

theorem lock_setLoop : (s.setLoop l).fg F.WH_STATUS_LOCK 0 = b2n (l == 2) := by
  refine (fg_wh _ _ _ _).trans ((fg_fs_same _ F.WH_STATUS_LOCK 0 _ (by decide) (by decide)).trans (Nat.mod_eq_of_lt ?_))
  cases l == 2 <;> decide

theorem loop_setLoop {l : Nat} (hl : l < 8) : (s.setLoop l).loop = l :=
  (fg_wh _ _ _ _).trans ((fg_fs_clear _ (f := F.WH_STATUS_LOCK) (by decide) (by decide) (by decide)).trans
    ((fg_fs_same s F.WH_STATUS_LOOP 0 l (by decide) (by decide)).trans (Nat.mod_eq_of_lt hl)))

/-- Entering a state of the loop leaves what else the Wellhead shows. -/
theorem fg_setLoop {f : Fld} (ho : F.WH_STATUS_LOOP.clear f = true) (hk : F.WH_STATUS_LOCK.clear f = true) :
    (s.setLoop l).fg f 0 = s.fg f 0 :=
  (fg_wh _ _ _ _).trans ((fg_fs_clear _ hk (by decide) (by decide)).trans (fg_fs_clear s ho (by decide) (by decide)))

theorem slot_setLoop (n : Nat) : (s.setLoop l).slot n = s.slot n := slot_of_slots (by rw [wh_setLoop]) n

end

theorem exec_whLock (s : State) (hl : s.loop = 1) (hw : s.within 1 = true)
    (hd : s.due (s.wh.critSince.map (· + s.fg F.WH_LOCK_LOCK_TIME 0 * 100000000)) = true) :
    exec .whLock s = .next { s with wh := { s.wh with lockDue := true } } :=
  congrArg Host.Outcome.next (if_pos ⟨hl, hw, hd⟩)

theorem whUnlock_acquires (s : State) (hl : s.loop = 2) (hw : s.within 4 = false) : Completes .whUnlock s (fun t =>
    t.loop = 1 ∧ t.fg F.WH_STATUS_LOCK 0 = 0 ∧ t.wh.lockSince = none ∧ t.time = s.time) := by
  refine ⟨_, congrArg Host.Outcome.next (if_pos ⟨hl, by rw [hw]; rfl⟩), ?_, ?_, ?_, ?_⟩
  · exact (fg_post _ _ _ _ F.WH_STATUS_LOOP 0 (by decide) (by decide)).trans (loop_setLoop s (by decide))
  · exact (fg_post _ _ _ _ F.WH_STATUS_LOCK 0 (by decide) (by decide)).trans (lock_setLoop s 1)
  · rw [(post_works _ _ _ _).wh, wh_setLoop]
    rfl
  · exact (time_post _ _ _ _).trans (time_setLoop s 1)

/-! ### What a step leaves (R18) -/

/-- What steers the loop stays, and every register but those that a step and the cancelling of events write. -/
structure LoopKept (s t : State) : Prop where
  wh   : t.wh = { s.wh with slots := t.wh.slots }
  regs : RegsKept [.MT_EPOCH, .WH_SLOT_PHASE, .LW_SWEEP_STAT, .HIF_RING_IDX, .RW_PENDING] s t

theorem LoopKept.refl (s : State) : LoopKept s s := ⟨rfl, .refl _ s⟩

theorem LoopKept.trans {s t u : State} (h : LoopKept s t) (k : LoopKept t u) : LoopKept s u :=
  ⟨k.wh.trans (congrArg (fun w : WhSt => { w with slots := u.wh.slots }) h.wh), h.regs.trans k.regs⟩

theorem LoopKept.ite {c : Prop} [Decidable c] {s t u : State} (ht : LoopKept s t) (hu : LoopKept s u) :
    LoopKept s (if c then t else u) := by
  split
  · exact ht
  · exact hu

theorem loopKept_fs (s : State) (f : Fld) (i v : Nat)
    (hf : f.reg ∈ [RegId.MT_EPOCH, .WH_SLOT_PHASE, .LW_SWEEP_STAT, .HIF_RING_IDX, .RW_PENDING]) (hi : i < 2048) :
    LoopKept s (s.fs f i v) := ⟨by rw [fs_wh], regsKept_fs s f i v hf hi⟩

theorem loopKept_setSlot (s : State) (n : Nat) (x : WhSlot) : LoopKept s (s.setSlot n x) := ⟨rfl, .of_regs rfl⟩
theorem loopKept_stepMoved (s : State) (off : Int) (frac : Nat) : LoopKept s (s.stepMoved off frac) := ⟨rfl, .of_regs rfl⟩

theorem loopKept_stepNoted (s : State) : LoopKept s s.stepNoted :=
  (loopKept_fs s F.MT_EPOCH_STEPPED 0 1 (by decide) (by decide)).trans (loopKept_fs _ F.MT_EPOCH_WINDOW 0 0 (by decide) (by decide))

theorem loopKept_stepSlots (s : State) (off : Int) : LoopKept s (s.stepSlots off) := by
  unfold State.stepSlots
  refine foldl_frame LoopKept .refl .trans _ _ (fun s n hn => ?_) s
  have := List.mem_range.mp hn
  extract_lets _ x p u k
  exact .ite (loopKept_setSlot s n _)
    ((loopKept_setSlot s n _).trans (loopKept_fs _ F.WH_SLOT_PHASE_PHASE n _ (by decide) (by omega)))

theorem loopKept_finish (s : State) (e : Entry) (status : Nat) (result : List Nat) (full : Bool) :
    LoopKept s (s.finish e status result full) :=
  ⟨by rw [(finish_works s e status result full).wh], (regsKept_finish s e status result full).mono (by simp)⟩

theorem loopKept_cancelAll (s : State) (l : List Entry) : LoopKept s (s.cancelAll l) := by
  induction l generalizing s with
  | nil => exact .refl s
  | cons e l ih =>
    refine LoopKept.trans ?_ (ih _)
    unfold State.cancel
    exact .trans (.ite (loopKept_fs s F.LW_SWEEP_STAT_STATE 0 4 (by decide) (by decide)) (.refl s)) (loopKept_finish _ _ _ _ _)

theorem loopKept_lists (s : State) (l k : List Entry) : LoopKept s { s with sched := l, dueNext := k } := ⟨rfl, .of_regs rfl⟩

theorem loopKept_cancelForStep (s : State) : LoopKept s s.cancelForStep := by
  unfold State.cancelForStep
  extract_lets gone keep
  exact (loopKept_lists s [] keep).trans (loopKept_cancelAll _ gone)

theorem loopKept_stepTo (s : State) (off : Int) (frac : Nat) : LoopKept s (s.stepTo off frac) := by
  rw [stepTo_eq]
  exact ((loopKept_stepMoved s off frac).trans (loopKept_stepNoted _)).trans
    ((loopKept_stepSlots _ off).trans (loopKept_cancelForStep _))

theorem epoch_cancelForStep (s : State) : s.cancelForStep.rr .MT_EPOCH 0 = s.rr .MT_EPOCH 0 := by
  unfold State.cancelForStep
  extract_lets gone keep
  exact (epoch_cancelAll ({ s with sched := [], dueNext := keep } : State) gone).epoch

/-- A step is noted in MT_EPOCH (R17). -/
theorem stepped_stepTo (s : State) (off : Int) (frac : Nat) : (s.stepTo off frac).fg F.MT_EPOCH_STEPPED 0 = 1 := by
  have noted : (s.stepMoved off frac).stepNoted.fg F.MT_EPOCH_STEPPED 0 = 1 :=
    (fg_fs_clear _ (f := F.MT_EPOCH_WINDOW) (by decide) (by decide) (by decide)).trans
      (fg_fs_same _ F.MT_EPOCH_STEPPED 0 1 (by decide) (by decide))
  rw [stepTo_eq]
  exact (fg_of_rr (f := F.MT_EPOCH_STEPPED) ((epoch_cancelForStep _).trans (epoch_stepSlots _ off).epoch)).trans noted

/-! ### LOCKED is entered (R45, R47) -/

/-- The block with LOCKED shown. -/
def State.lockEntered (s : State) : State := ({ s with wh := { s.wh with lockDue := false } } : State).setLoop 2

/-- The block in LOCKED after the alignment step, where one is due. -/
def State.lockAligned (s : State) (restarted : Bool) : State :=
  if !restarted && s.lockEntered.alignDueNow then s.lockEntered.alignStep else s.lockEntered

theorem lockEntry_eq {s : State} (hl : s.loop = 1) (hw : s.within 1 = true) (hd : s.wh.lockDue = true) (r : Bool) :
    s.lockEntry r = (s.lockAligned r).post Evt.WH_LOCK ((s.lockAligned r).fg F.WH_STATUS_SELECTED 0) [] := by
  have entering : (s.wh.lockDue && decide (s.loop = 1) && s.within 1) = true := by
    rw [hd, hw, hl]
    rfl
  unfold State.lockEntry
  dsimp only
  rw [entering]
  rfl

section
variable (s : State)

theorem regsKept_lockEntered : RegsKept [.WH_STATUS] s s.lockEntered := (regsKept_wh _ s _).trans (regsKept_setLoop _ 2)
theorem time_lockEntered : s.lockEntered.time = s.time := time_setLoop _ 2

theorem wh_lockEntered : s.lockEntered.wh.lockDue = false ∧ s.lockEntered.wh.lockSince = some s.time.up := by
  unfold State.lockEntered
  rw [wh_setLoop]
  exact ⟨rfl, rfl⟩

theorem selected_lockEntered : s.lockEntered.fg F.WH_STATUS_SELECTED 0 = s.fg F.WH_STATUS_SELECTED 0 :=
  fg_setLoop _ 2 (by decide) (by decide)

theorem slot_lockEntered (n : Nat) : s.lockEntered.slot n = s.slot n := slot_setLoop _ 2 n

/-- An alignment step is due where it is asked for and the window is open. -/
theorem alignDue_lockEntered :
    s.lockEntered.alignDueNow = (s.fb F.MT_EPOCH_WINDOW 0 && s.fb F.MT_CTL_ALIGN 0) := by
  have hl : s.lockEntered.fg F.WH_STATUS_LOOP 0 = 2 := loop_setLoop _ (by decide)
  have hw : s.lockEntered.fg F.MT_EPOCH_WINDOW 0 = s.fg F.MT_EPOCH_WINDOW 0 :=
    (regsKept_lockEntered s).fg _ 0 (by decide) (by decide)
  have ha : s.lockEntered.fg F.MT_CTL_ALIGN 0 = s.fg F.MT_CTL_ALIGN 0 := (regsKept_lockEntered s).fg _ 0 (by decide) (by decide)
  unfold State.alignDueNow State.fb
  rw [hl, hw, ha]
  rfl

theorem alignStep_cases : s.alignStep = s ∨ ∃ off, s.alignStep = (s.stepTo off 0).setAbsorb 0 :=
  (ite_eq_or_eq _ _ _).imp id fun h => ⟨_, h⟩

theorem lockAligned_cases (r : Bool) :
    s.lockAligned r = s.lockEntered ∨ ∃ off, s.lockAligned r = (s.lockEntered.stepTo off 0).setAbsorb 0 := by
  unfold State.lockAligned
  split
  · exact alignStep_cases s.lockEntered
  · exact .inl rfl

theorem fg_setAbsorb (a : Int) (f : Fld) (i : Nat) : (s.setAbsorb a).fg f i = s.fg f i := rfl
theorem lockDue_setAbsorb (a : Int) : (s.setAbsorb a).wh.lockDue = s.wh.lockDue := rfl

theorem lockAligned_is_locked (r : Bool) : (s.lockAligned r).loop = 2 ∧ (s.lockAligned r).fg F.WH_STATUS_LOCK 0 = 1
    ∧ (s.lockAligned r).wh.lockDue = false := by
  have hloop : s.lockEntered.loop = 2 := loop_setLoop _ (by decide)
  have hlock : s.lockEntered.fg F.WH_STATUS_LOCK 0 = 1 := lock_setLoop _ 2
  have hdue := (wh_lockEntered s).1
  rcases lockAligned_cases s r with h | ⟨off, h⟩
  · rw [h]
    exact ⟨hloop, hlock, hdue⟩
  · have k := loopKept_stepTo s.lockEntered off 0
    rw [h, lockDue_setAbsorb, k.wh]
    exact ⟨(fg_setAbsorb ..).trans ((k.regs.fg _ 0 (by decide) (by decide)).trans hloop),
      (fg_setAbsorb ..).trans ((k.regs.fg _ 0 (by decide) (by decide)).trans hlock), hdue⟩

end

theorem lockAligned_of_no_step {s : State} {r : Bool} (h : s.fb F.MT_CTL_ALIGN 0 = false ∨ r = true) :
    s.lockAligned r = s.lockEntered := by
  have hc : (!r && s.lockEntered.alignDueNow) = false := by
    rw [alignDue_lockEntered]
    rcases h with h | h
    · rw [h, Bool.and_false, Bool.and_false]
    · rw [h]
      rfl
  unfold State.lockAligned
  rw [hc]
  rfl

/-- The alignment step takes the counter to the selected reference (R47). -/
theorem lockAligned_of_step {s : State} (ha : s.fb F.MT_CTL_ALIGN 0 = true) (hw : s.fb F.MT_EPOCH_WINDOW 0 = true)
    (hs : s.fg F.WH_STATUS_SELECTED 0 ≠ 15) (h0 : 0 ≤ (s.now : Int) + (s.slot (s.fg F.WH_STATUS_SELECTED 0)).phase) :
    s.lockAligned false = (s.lockEntered.stepTo (s.slot (s.fg F.WH_STATUS_SELECTED 0)).phase 0).setAbsorb 0 := by
  have hnow : s.lockEntered.now = s.now := now_of_time_eq (by rw [time_lockEntered]) (by rw [time_lockEntered])
  have hwin : s.lockEntered.fb F.MT_EPOCH_WINDOW 0 = true :=
    (congrArg (· == 1) ((regsKept_lockEntered s).fg F.MT_EPOCH_WINDOW 0 (by decide) (by decide))).trans hw
  have hok : stepChk (s.slot (s.fg F.WH_STATUS_SELECTED 0)).phase s.now s.lockEntered = Sts.OK := by
    unfold stepChk
    rw [hwin, if_neg (by decide), if_neg (by omega)]
  unfold State.lockAligned
  rw [alignDue_lockEntered, ha, hw]
  refine (if_pos rfl).trans ?_
  unfold State.alignStep
  dsimp only
  rw [selected_lockEntered, slot_lockEntered, hnow, if_neg (not_or.mpr ⟨hs, not_not.mpr hok⟩)]

theorem now_stepTo_whole {s : State} {off : Int} (h0 : 0 ≤ (s.now : Int) + off) (hm : (s.now : Int) + off + 1 < 2 ^ 48 * 1000000000) :
    ((s.stepTo off 0).now : Int) = s.now + off := by
  have hf := s.time.frac.isLt
  have hfull : (s.stepFull off 0 : Int) = s.now + off := by
    unfold State.stepFull
    omega
  have ht := (stepTo_moves s off 0).1
  rw [now_of_time_eq (congrArg TimeSt.sec ht) (congrArg TimeSt.ns ht), now_stepMoved s (by omega), hfull]

theorem now_setAbsorb (s : State) (a : Int) : (s.setAbsorb a).now = s.now := rfl
theorem absorb_setAbsorb (s : State) (a : Int) : (s.setAbsorb a).wh.absorb = a := rfl

/-- LOCKED is entered at the tick boundary after its criteria were met, with the alignment step that then is due. -/
theorem lockEntry_locks (s : State) (hl : s.loop = 1) (hw : s.within 1 = true) (hd : s.wh.lockDue = true) (r : Bool) :
    (s.lockEntry r).loop = 2 ∧ (s.lockEntry r).fg F.WH_STATUS_LOCK 0 = 1 ∧ (s.lockEntry r).wh.lockDue = false
      ∧ (s.fb F.MT_CTL_ALIGN 0 = false ∨ r = true → (s.lockEntry r).time = s.time ∧ (s.lockEntry r).wh.lockSince = some s.time.up)
      ∧ (s.fb F.MT_CTL_ALIGN 0 = true → s.fb F.MT_EPOCH_WINDOW 0 = true → s.fg F.WH_STATUS_SELECTED 0 ≠ 15 → r = false →
          0 ≤ (s.now : Int) + (s.slot (s.fg F.WH_STATUS_SELECTED 0)).phase →
          (s.now : Int) + (s.slot (s.fg F.WH_STATUS_SELECTED 0)).phase + 1 < 2 ^ 48 * 1000000000 →
          ((s.lockEntry r).now : Int) = s.now + (s.slot (s.fg F.WH_STATUS_SELECTED 0)).phase ∧ (s.lockEntry r).wh.absorb = 0
            ∧ (s.lockEntry r).fb F.MT_EPOCH_STEPPED 0 = true) := by
  obtain ⟨hloop, hlock, hdue⟩ := lockAligned_is_locked s r
  have htime := time_post (s.lockAligned r) Evt.WH_LOCK ((s.lockAligned r).fg F.WH_STATUS_SELECTED 0) []
  have hregs := regsKept_post (s.lockAligned r) Evt.WH_LOCK ((s.lockAligned r).fg F.WH_STATUS_SELECTED 0) []
  rw [lockEntry_eq hl hw hd r, (post_works _ _ _ _).wh]
  refine ⟨(hregs.fg _ 0 (by decide) (by decide)).trans hloop, (hregs.fg _ 0 (by decide) (by decide)).trans hlock, hdue,
    fun h => ?_, fun ha hwin hs hr h0 hm => ?_⟩
  · rw [lockAligned_of_no_step h] at htime ⊢
    exact ⟨htime.trans (time_lockEntered s), (wh_lockEntered s).2⟩
  · subst hr
    have hn : s.lockEntered.now = s.now := now_of_time_eq (by rw [time_lockEntered]) (by rw [time_lockEntered])
    have e := lockAligned_of_step ha hwin hs h0
    refine ⟨?_, by rw [e, absorb_setAbsorb], ?_⟩
    · rw [now_of_time_eq (congrArg TimeSt.sec htime) (congrArg TimeSt.ns htime), e, now_setAbsorb,
        now_stepTo_whole (by rw [hn]; exact h0) (by rw [hn]; exact hm), hn]
    · refine beq_iff_eq.mpr ((hregs.fg F.MT_EPOCH_STEPPED 0 (by decide) (by decide)).trans ?_)
      rw [e, fg_setAbsorb]
      exact stepped_stepTo _ _ 0

/-! ### Switches (R48) -/

theorem switchDeltaFix_fixes (s : State) (w : WhSwitch) (hw : s.wh.switch = some w) (hd : w.delta = none)
    (ht : w.start + 1 ≤ s.time.tick) : Completes .switchDeltaFix s (fun t =>
      t = { s with wh := { s.wh with switch := some { w with delta := some (s.meanPhase w.new w.newSum w.newN -
        (if w.oldInv = true ∨ (s.slot w.old).valid = false then s.wh.absorb / 2 ^ 32 else s.meanPhase w.old w.oldSum w.oldN)) } } }) := by
  refine ⟨_, ?_, rfl⟩
  show execSwitchDeltaFix s = _
  unfold execSwitchDeltaFix
  split
  · next x hx =>
    obtain rfl : w = x := Option.some.inj (hw.symm.trans hx)
    rw [if_pos ⟨by rw [hd]; rfl, ht⟩]
    simp only [Bool.not_eq_true']
  · next hx => exact absurd (hw.symm.trans hx) (Option.some_ne_none w)

/-- One measurement of a slot that has folded nothing out of its phase is its mean. -/
theorem meanPhase_of_one (s : State) (slot : Nat) (p : Int) (hz : (s.slot slot).hz = 1) (ht : (s.slot slot).turns = 0) :
    s.meanPhase slot p 1 = p := by
  unfold State.meanPhase
  dsimp only
  rw [if_neg Nat.one_ne_zero, hz, ht, mul_zero, zero_mul, sub_zero, Nat.mul_one, Nat.cast_one, Int.ediv_one]

/-- The block once Δ has gone into WH_ABSORB. -/
def State.absorbed (s : State) (d : Int) : State :=
  { s with wh := { s.wh with absorb := s.wh.absorb + d * 2 ^ 32, switch := none } }

/-- The block with a slot shown as the one selected. -/
def State.selectShown (s : State) (n : Nat) : State := (s.fs F.WH_STATUS_SELECTED 0 n).fs F.WH_STATUS_QL 0 (s.qlOf n)

/-- The block with one more switch counted. -/
def State.switchCounted (s : State) : State :=
  s.fs F.WH_STATUS_SWITCH_COUNT 0 ((s.fg F.WH_STATUS_SWITCH_COUNT 0 + 1) % 65536)

/-- The block once the new slot drives the detector: it is shown, counted and posted. -/
def State.switchShown (s : State) (w : WhSwitch) (d : Int) : State :=
  (((s.absorbed d).selectShown w.new).switchCounted).post Evt.WH_SWITCH w.new (leBytes 8 w.old ++ leBytes 8 (wrap 64 d))

theorem selected_selectShown (s : State) {n : Nat} (hn : n < 16) : (s.selectShown n).fg F.WH_STATUS_SELECTED 0 = n :=
  (fg_fs_clear _ (f := F.WH_STATUS_QL) (by decide) (by decide) (by decide)).trans
    ((fg_fs_same s F.WH_STATUS_SELECTED 0 n (by decide) (by decide)).trans (Nat.mod_eq_of_lt hn))

theorem count_selectShown (s : State) (n : Nat) :
    (s.selectShown n).fg F.WH_STATUS_SWITCH_COUNT 0 = s.fg F.WH_STATUS_SWITCH_COUNT 0 :=
  (fg_fs_clear _ (f := F.WH_STATUS_QL) (by decide) (by decide) (by decide)).trans
    (fg_fs_clear s (f := F.WH_STATUS_SELECTED) (by decide) (by decide) (by decide))

theorem wh_selectShown (s : State) (n : Nat) : (s.selectShown n).wh = s.wh := (fs_wh _ _ _ _).trans (fs_wh s _ _ _)
theorem time_selectShown (s : State) (n : Nat) : (s.selectShown n).time = s.time := (fs_time _ _ _ _).trans (fs_time s _ _ _)

theorem selected_switchCounted (s : State) :
    s.switchCounted.fg F.WH_STATUS_SELECTED 0 = s.fg F.WH_STATUS_SELECTED 0 :=
  fg_fs_clear s (f := F.WH_STATUS_SWITCH_COUNT) (by decide) (by decide) (by decide)

theorem count_switchCounted (s : State) :
    s.switchCounted.fg F.WH_STATUS_SWITCH_COUNT 0 = (s.fg F.WH_STATUS_SWITCH_COUNT 0 + 1) % 65536 :=
  (fg_fs_same s F.WH_STATUS_SWITCH_COUNT 0 _ (by decide) (by decide)).trans (Nat.mod_mod _ _)

theorem wh_switchCounted (s : State) : s.switchCounted.wh = s.wh := fs_wh s _ _ _
theorem time_switchCounted (s : State) : s.switchCounted.time = s.time := fs_time s _ _ _

section
variable (s : State) (w : WhSwitch) (d : Int)

theorem wh_switchShown : (s.switchShown w d).wh = { s.wh with absorb := s.wh.absorb + d * 2 ^ 32, switch := none } := by
  unfold State.switchShown
  rw [(post_works _ _ _ _).wh, wh_switchCounted, wh_selectShown]
  rfl

theorem time_switchShown : (s.switchShown w d).time = s.time := by
  unfold State.switchShown
  rw [time_post, time_switchCounted, time_selectShown]
  rfl

theorem selected_switchShown (hw : w.new < 16) : (s.switchShown w d).fg F.WH_STATUS_SELECTED 0 = w.new := by
  unfold State.switchShown
  rw [fg_post _ _ _ _ _ 0 (by decide) (by decide), selected_switchCounted, selected_selectShown _ hw]

theorem count_switchShown :
    (s.switchShown w d).fg F.WH_STATUS_SWITCH_COUNT 0 = (s.fg F.WH_STATUS_SWITCH_COUNT 0 + 1) % 65536 := by
  unfold State.switchShown
  rw [fg_post _ _ _ _ _ 0 (by decide) (by decide), count_switchCounted, count_selectShown]
  rfl

theorem slotsOnly_lateWtrs : SlotsOnly s s.lateWtrs :=
  .foldl (fun s _ hn => .ite (slotsOnly_startWtr s (List.mem_range.mp hn)) (.refl s)) s

/-- The block after a switch: the loop in the state it leaves SWITCHING for, and the WTRs begun that waited. -/
def State.switched : State := ((s.switchShown w d).setLoop (if w.before = 2 then 2 else 1)).lateWtrs

theorem wh_switched : (s.switched w d).wh.absorb = s.wh.absorb + d * 2 ^ 32 ∧ (s.switched w d).wh.switch = none
    ∧ (s.switched w d).wh.follow = s.wh.follow ∧ (s.switched w d).wh.bleed = s.wh.bleed
    ∧ (s.switched w d).wh.openReq = s.wh.openReq := by
  unfold State.switched
  rw [(slotsOnly_lateWtrs _).wh, wh_setLoop, wh_switchShown]
  exact ⟨rfl, rfl, rfl, rfl, rfl⟩

theorem time_switched : (s.switched w d).time = s.time :=
  (slotsOnly_lateWtrs _).time.trans ((time_setLoop _ _).trans (time_switchShown s w d))

theorem fg_switched {f : Fld} (hf : f.reg = .WH_STATUS) : (s.switched w d).fg f 0
    = ((s.switchShown w d).setLoop (if w.before = 2 then 2 else 1)).fg f 0 :=
  (slotsOnly_lateWtrs _).regs.fg f 0 (by rw [hf]; decide) (by decide)

variable {s w d}

theorem exec_whSwitch (hw : s.wh.switch = some w) (hd : w.delta = some d) (ht : w.start + 2 ≤ s.time.tick)
    (ho : s.wh.openReq = false) : exec .whSwitch s = .next (s.switched w d) := by
  have hopen : ¬ (s.switched w d).wh.openReq = true := by
    rw [(wh_switched s w d).2.2.2.2, ho]
    exact Bool.false_ne_true
  show execWhSwitch s = _
  unfold execWhSwitch
  split
  · next x hx =>
    obtain rfl : w = x := Option.some.inj (hw.symm.trans hx)
    split
    · next y hy =>
      obtain rfl : d = y := Option.some.inj (hd.symm.trans hy)
      rw [if_pos ht]
      extract_lets _ t u v x y z
      have hx : x = s.switchShown w d := rfl
      have hz : z = s.switched w d := congrArg (fun u => (u.setLoop (if w.before = 2 then 2 else 1)).lateWtrs) hx
      rw [hz, if_neg hopen]
    · next hy => exact absurd (hd.symm.trans hy) (Option.some_ne_none d)
  · next hx => exact absurd (hw.symm.trans hx) (Option.some_ne_none w)

end

theorem whSwitch_switches (s : State) (w : WhSwitch) (d : Int) (hw : s.wh.switch = some w) (hd : w.delta = some d)
    (ht : w.start + 2 ≤ s.time.tick) (hn : w.new < 16) (ho : s.wh.openReq = false) :
    Completes .whSwitch s (fun t => t.wh.absorb = s.wh.absorb + d * 2 ^ 32 ∧ t.wh.switch = none
      ∧ t.fg F.WH_STATUS_SELECTED 0 = w.new ∧ t.loop = (if w.before = 2 then 2 else 1)
      ∧ t.fg F.WH_STATUS_SWITCH_COUNT 0 = (s.fg F.WH_STATUS_SWITCH_COUNT 0 + 1) % 65536
      ∧ t.time = s.time ∧ t.wh.follow = s.wh.follow ∧ t.wh.bleed = s.wh.bleed) := by
  obtain ⟨habsorb, hswitch, hfollow, hbleed, -⟩ := wh_switched s w d
  refine ⟨_, exec_whSwitch hw hd ht ho, habsorb, hswitch, ?_, ?_, ?_, time_switched s w d, hfollow, hbleed⟩
  · rw [fg_switched s w d rfl, fg_setLoop _ _ (by decide) (by decide), selected_switchShown s w d hn]
  · exact (fg_switched s w d rfl).trans (loop_setLoop _ (by split <;> decide))
  · rw [fg_switched s w d rfl, fg_setLoop _ _ (by decide) (by decide), count_switchShown]

/-- Settles O19: the alignment step and the WTRs that end with a switch leave the loop (`LoopKept`, `SlotsOnly`), so that what
`setLoop` shows stands. -/
theorem loopAndSwitchesFollowTheirTables : Obligations.LoopAndSwitchesFollowTheirTables :=
  ⟨⟨exec_whLock, lockEntry_locks, whUnlock_acquires, acqHoldExpiry_enters_service, reacqExpiry_enters_acquire⟩,
    switchDeltaFix_fixes, meanPhase_of_one, whSwitch_switches⟩

/-! ### The commands (R42, R52 - R54) -/

theorem applyWhAcquire_acquires (e : Entry) (s : State) : ∃ v, Ends e Sts.OK [] v (applyWhAcquire e s) ∧ v.service = false
    ∧ v.time = s.time ∧ ∀ n, n < 15 → v.sst n = if s.sst n = 2 then 3 else s.sst n := by
  obtain ⟨hserv, htime, -⟩ := setMode_acquire_keeps s
  exact ⟨_, ⟨false, rfl⟩, hserv, htime, fun n hn => sst_setMode_acquire s hn⟩

/-- The block as WH_LOOP_OPEN leaves it: a switch in progress is waited for (R54). -/
def State.loopOpened (s : State) : State :=
  if s.loop = 5 then s
  else if s.wh.switch.isSome then { s with wh := { s.wh with openReq := true } }
  else s.setLoop 5

theorem applyWhLoopOpen_opens (e : Entry) (s : State) : ∃ v, Ends e Sts.OK [] v (applyWhLoopOpen e s)
    ∧ (s.loop ≠ 5 → s.wh.switch = none → v.loop = 5 ∧ v.wh.rateSet = s.wh.rateSet
      ∧ (∀ r, s.wh.rateSet = some r → v.rateNow = r) ∧ v.wh.absorb = s.wh.absorb)
    ∧ (s.loop ≠ 5 → s.wh.switch ≠ none → v.loop = s.loop ∧ v.wh.openReq = true) := by
  refine ⟨s.loopOpened, ⟨false, rfl⟩, fun hl hw => ?_, fun hl hw => ?_⟩
  · have hv : s.loopOpened = s.setLoop 5 := (if_neg hl).trans (if_neg (by rw [hw]; decide))
    have hloop : (s.setLoop 5).loop = 5 := loop_setLoop s (by decide)
    have hrate : (s.setLoop 5).wh.rateSet = s.wh.rateSet := by rw [wh_setLoop]
    rw [hv]
    exact ⟨hloop, hrate, fun r hr => rateNow_of_open hloop (hrate.trans hr), by rw [wh_setLoop]⟩
  · have hv : s.loopOpened = { s with wh := { s.wh with openReq := true } } :=
      (if_neg hl).trans (if_pos (Option.isSome_iff_ne_none.mpr hw))
    rw [hv]
    exact ⟨fg_wh _ _ _ _, rfl⟩

/-- The block as WH_LOOP_CLOSE finds its rate: the rate in force is the following component, and nothing bleeds (R54). -/
def State.rateHeld (s : State) : State := { s with wh := { s.wh with follow := s.rateNow * 24000, bleed := 0 } }

/-- The block as WH_LOOP_CLOSE leaves it. -/
def State.loopClosed (s : State) : State :=
  if s.loop ≠ 5 then { s with wh := { s.wh with openReq := false } }
  else if s.fg F.WH_STATUS_SELECTED 0 = 15 then s.rateHeld.setLoop (if s.fb F.WH_HO_VALID_VALID 0 then 4 else 0)
  else s.rateHeld.startSwitch (s.fg F.WH_STATUS_SELECTED 0)

/-- A switch begun in OPEN keeps the rate, and its old phase is WH_ABSORB (R48). -/
theorem startSwitch_of_open {s : State} (new : Nat) (h : s.loop = 5) : (s.startSwitch new).loop = 3
    ∧ (s.startSwitch new).wh.follow = s.wh.follow ∧ (s.startSwitch new).wh.bleed = s.wh.bleed
    ∧ (s.startSwitch new).wh.switch = some ⟨s.fg F.WH_STATUS_SELECTED 0, new, s.time.tick, 5, true, none, 0, 0, 0, 0⟩ := by
  unfold State.startSwitch
  extract_lets old l inv t x
  have htick : t.time.tick = s.time.tick := congrArg TimeSt.tick (time_setLoop s 3)
  have hinv : decide inv = true := decide_eq_true (.inr (.inr (.inr (.inr h))))
  have hl : l = 5 := h
  have hwh : x.follow = s.wh.follow ∧ x.bleed = s.wh.bleed := by
    unfold x t
    rw [wh_setLoop]
    exact ⟨rfl, rfl⟩
  refine ⟨(fg_wh _ _ _ _).trans (loop_setLoop s (by decide)), hwh.1, hwh.2, ?_⟩
  rw [htick, hinv, hl]

theorem applyWhLoopClose_closes (e : Entry) (s : State) : ∃ v, Ends e Sts.OK [] v (applyWhLoopClose e s)
    ∧ (s.loop ≠ 5 → v = { s with wh := { s.wh with openReq := false } })
    ∧ (s.loop = 5 → (∀ r, s.wh.rateSet = some r → v.wh.follow = r * 24000) ∧ v.wh.bleed = 0
        ∧ (s.fg F.WH_STATUS_SELECTED 0 = 15 → v.loop = if s.fb F.WH_HO_VALID_VALID 0 = true then 4 else 0)
        ∧ (s.fg F.WH_STATUS_SELECTED 0 ≠ 15 → v.loop = 3
            ∧ v.wh.switch = some ⟨s.fg F.WH_STATUS_SELECTED 0, s.fg F.WH_STATUS_SELECTED 0, s.time.tick, 5, true, none, 0, 0, 0, 0⟩)) := by
  refine ⟨s.loopClosed, ⟨false, rfl⟩, fun hl => if_pos hl, fun hl => ?_⟩
  have held : s.loopClosed = if s.fg F.WH_STATUS_SELECTED 0 = 15
      then s.rateHeld.setLoop (if s.fb F.WH_HO_VALID_VALID 0 then 4 else 0)
      else s.rateHeld.startSwitch (s.fg F.WH_STATUS_SELECTED 0) := if_neg (not_not.mpr hl)
  have rate : ∀ r, s.wh.rateSet = some r → s.rateHeld.wh.follow = r * 24000 := fun r hr =>
    congrArg (· * 24000) (rateNow_of_open hl hr)
  by_cases hsel : s.fg F.WH_STATUS_SELECTED 0 = 15
  · rw [held, if_pos hsel]
    refine ⟨fun r hr => ?_, ?_, fun _ => loop_setLoop _ (by split <;> decide), fun h => absurd hsel h⟩
    · rw [wh_setLoop]
      exact rate r hr
    · rw [wh_setLoop]
      rfl
  · obtain ⟨hloop, hfollow, hbleed, hswitch⟩ := startSwitch_of_open (s := s.rateHeld) (s.fg F.WH_STATUS_SELECTED 0)
      ((fg_wh s _ _ _).trans hl)
    rw [held, if_neg hsel]
    exact ⟨fun r hr => hfollow.trans (rate r hr), hbleed, fun h => absurd h hsel, fun _ => ⟨hloop, hswitch⟩⟩

/-! ### WH_PHASE_STEP (R53) -/

/-- The phase of one clock output moved. -/
def State.clkMoved (s : State) (p : Int) (n : Nat) : State :=
  s.fsI F.WH_CLKOUT_PHASE_PHASE n (s.fgI F.WH_CLKOUT_PHASE_PHASE n + p)

theorem applyWhPhaseStep_eq (e : Entry) (s : State) : applyWhPhaseStep e s
    = if (chkWhPhaseStep e.cmd s).1 ≠ Sts.OK then s.finish e (chkWhPhaseStep e.cmd s).1 [] false
      else ((bitList 6 e.cmd.a).foldl (State.clkMoved · (argI e.cmd.b)) s).finish e Sts.OK [] true := rfl

theorem time_clkMoved (s : State) (p : Int) (n : Nat) : (s.clkMoved p n).time = s.time := fsI_time s _ _ _

theorem regsKept_clkMoved (s : State) (p : Int) {n : Nat} (hn : n < 6) : RegsKept [.WH_CLKOUT_PHASE] s (s.clkMoved p n) :=
  regsKept_fs s F.WH_CLKOUT_PHASE_PHASE n _ (by decide) (by omega)

theorem phase_clkMoved_same {s : State} {p : Int} {n : Nat} (h : (s.fgI F.WH_CLKOUT_PHASE_PHASE n + p).natAbs ≤ 2147483647) :
    (s.clkMoved p n).fgI F.WH_CLKOUT_PHASE_PHASE n = s.fgI F.WH_CLKOUT_PHASE_PHASE n + p :=
  fgI_fsI_word s F.WH_CLKOUT_PHASE_PHASE n rfl rfl (by omega) (by omega)

theorem phase_clkMoved_ne (s : State) (p : Int) {m n : Nat} (hm : m < 6) (hn : n < 6) (h : n ≠ m) :
    (s.clkMoved p m).fgI F.WH_CLKOUT_PHASE_PHASE n = s.fgI F.WH_CLKOUT_PHASE_PHASE n :=
  congrArg (sext 32) (fg_fs_other s F.WH_CLKOUT_PHASE_PHASE F.WH_CLKOUT_PHASE_PHASE m n _ (by omega) (by omega) (.inr h))

/-- A command that is accepted takes no sum out of its range. -/
theorem chkWhPhaseStep_bounds {c : Cmd} {s : State} (h : (chkWhPhaseStep c s).1 = Sts.OK) :
    ∀ n ∈ bitList 6 c.a, (s.fgI F.WH_CLKOUT_PHASE_PHASE n + argI c.b).natAbs ≤ 2147483647 := by
  intro n hn
  by_contra hc
  have hany : (bitList 6 c.a).any (fun n => decide ((s.fgI F.WH_CLKOUT_PHASE_PHASE n + argI c.b).natAbs > 2147483647)) = true :=
    List.any_eq_true.mpr ⟨n, hn, decide_eq_true (by omega)⟩
  unfold chkWhPhaseStep at h
  dsimp only at h
  rw [hany] at h
  split at h
  · exact absurd h (by decide)
  · split at h
    · exact absurd h (by decide)
    · exact absurd h (by decide)

/-- Each clock output named moves once. -/
theorem phase_clkMoved_foldl {s : State} {p : Int} {l : List Nat} (hl : l.Nodup) (hlt : ∀ n ∈ l, n < 6)
    (hb : ∀ n ∈ l, (s.fgI F.WH_CLKOUT_PHASE_PHASE n + p).natAbs ≤ 2147483647) {n : Nat} (hn : n < 6) :
    (l.foldl (State.clkMoved · p) s).fgI F.WH_CLKOUT_PHASE_PHASE n = s.fgI F.WH_CLKOUT_PHASE_PHASE n + if n ∈ l then p else 0 := by
  have refl : ∀ s : State, s.fgI F.WH_CLKOUT_PHASE_PHASE n = s.fgI F.WH_CLKOUT_PHASE_PHASE n := fun _ => rfl
  have other : ∀ s : State, ∀ m ∈ l, n ≠ m → (s.clkMoved p m).fgI F.WH_CLKOUT_PHASE_PHASE n = s.fgI F.WH_CLKOUT_PHASE_PHASE n :=
    fun s m hm h => phase_clkMoved_ne s p (hlt m hm) hn h
  by_cases hm : n ∈ l
  · obtain ⟨u, hu, ht⟩ := foldl_at_key (R := fun s t => t.fgI F.WH_CLKOUT_PHASE_PHASE n = s.fgI F.WH_CLKOUT_PHASE_PHASE n)
      refl (fun h k => k.trans h) hl hm (fun s m hm h => other s m hm h.symm) s
    have hs := hb n hm
    rw [← hu] at hs ⊢
    rw [ht, phase_clkMoved_same hs, if_pos hm]
  · rw [if_neg hm, add_zero]
    exact foldl_frame (fun s t : State => t.fgI F.WH_CLKOUT_PHASE_PHASE n = s.fgI F.WH_CLKOUT_PHASE_PHASE n) refl
      (fun h k => k.trans h) _ l (fun s m hk => other s m hk fun e => hm (e ▸ hk)) s

theorem applyWhPhaseStep_steps (e : Entry) (s : State) :
    ((chkWhPhaseStep e.cmd s).1 ≠ Sts.OK → Ends e (chkWhPhaseStep e.cmd s).1 [] s (applyWhPhaseStep e s))
    ∧ ((chkWhPhaseStep e.cmd s).1 = Sts.OK → ∃ v, Ends e Sts.OK [] v (applyWhPhaseStep e s) ∧ v.time = s.time
        ∧ RegsKept [.WH_CLKOUT_PHASE] s v
        ∧ ∀ n, n < 6 → v.fgI F.WH_CLKOUT_PHASE_PHASE n
          = s.fgI F.WH_CLKOUT_PHASE_PHASE n + if e.cmd.a.testBit n then argI e.cmd.b else 0) := by
  have hlt : ∀ n ∈ bitList 6 e.cmd.a, n < 6 := fun n hn => ((mem_bitList 6 e.cmd.a n).mp hn).1
  have hnodup : (bitList 6 e.cmd.a).Nodup := List.nodup_range.filter _
  rw [applyWhPhaseStep_eq]
  refine ⟨fun h => ⟨false, if_pos h⟩, fun h => ⟨_, ⟨true, if_neg (not_not.mpr h)⟩, ?_, ?_, fun n hn => ?_⟩⟩
  · exact foldl_frame (fun s t : State => t.time = s.time) (fun _ => rfl) (fun h k => k.trans h) _ _
      (fun s n _ => time_clkMoved s _ n) s
  · exact foldl_frame (RegsKept [.WH_CLKOUT_PHASE]) (.refl _) .trans _ _ (fun s n hn => regsKept_clkMoved s _ (hlt n hn)) s
  · have hmem : n ∈ bitList 6 e.cmd.a ↔ e.cmd.a.testBit n = true := (mem_bitList 6 _ n).trans (and_iff_right hn)
    rw [phase_clkMoved_foldl hnodup hlt (chkWhPhaseStep_bounds h) hn]
    simp only [hmem]

/-- Settles O20: each command is placed as every other, and ends on the state that its loop function leaves. -/
theorem wellheadCommandsSteerTheLoop : Obligations.WellheadCommandsSteerTheLoop :=
  ⟨takenThen_of (fun _ _ => rfl) rfl applyWhAcquire_acquires, takenThen_of (fun _ _ => rfl) rfl applyWhLoopOpen_opens,
    takenThen_of (fun _ _ => rfl) rfl applyWhLoopClose_closes, takenThen_of (fun _ _ => rfl) rfl applyWhPhaseStep_steps⟩

end Sys2Proof.Machine
end

