-- ==== Sys2Proof/Proofs/PtpPorts.lean ====
section
/-! PTP ports (R36, R243, R253, R254): the length of a PTP frame, what the queueing of a frame that fits leaves, the messages that a
port sends of its own, and the loss of the master's Announce. -/

namespace Sys2Proof.Machine

/-! ### The length of a PTP frame -/

@[simp] theorem length_beBytes (n v : Nat) : (beBytes n v).length = n :=
  List.length_reverse.trans (length_leBytes n v)

@[simp] theorem length_zeros (n : Nat) : (zeros n).length = n := List.length_replicate

@[simp] theorem length_netMac (s : State) (p : Nat) : (s.netMac p).length = 6 := length_beBytes _ _

@[simp] theorem length_clockId (s : State) (p : Nat) : (s.clockId p).length = 8 := by
  simp [State.clockId]

@[simp] theorem length_portId (s : State) (p : Nat) : (s.portId p).length = 10 := by
  simp [State.portId]

@[simp] theorem length_ptpMsg (s : State) (p ty seq flags logInt : Nat) (corr : Int) (body : List Byte) :
    (s.ptpMsg p ty seq flags logInt corr body).length = 34 + body.length := by
  simp only [State.ptpMsg, List.length_append, length_beBytes, length_zeros, length_portId, List.length_cons, List.length_nil]

theorem length_ptpFrame_raw (s : State) (p : Nat) (m : List Byte) : (s.ptpFrame p false m).length = 14 + m.length := by
  unfold State.ptpFrame
  simp only [Bool.false_eq_true, if_false, List.length_append, length_netMac]
  split <;> simp only [List.length_cons, List.length_nil]

theorem length_annData_le {s : State} {p : Nat} (h : (s.np p).ptp.ds.length ≤ 20) : (s.annData p).length ≤ 20 := by
  unfold State.annData
  dsimp only
  split
  · simp
  · exact h

/-! ### Queueing a frame -/

section
variable (s : State) (p : Nat)

theorem np_of_net {s t : State} (h : t.net = s.net) (p : Nat) : t.np p = s.np p := by
  unfold State.np
  rw [h]

@[simp] theorem np_setNp (x : NetPort) : (s.setNp p x).np p = x := mget_mput_same _ _ _ _

@[simp] theorem np_setPtp (x : PtpPort) : (s.setPtp p x).np p = { s.np p with ptp := x } := np_setNp s p _

/-- What the queueing of a frame at the end of a port's queue 7 leaves. -/
structure Queued (s t : State) (p : Nat) (f : NetTx) : Prop where
  queue : (t.np p).queue 7 = (s.np p).queue 7 ++ [f]
  ptp   : (t.np p).ptp = (s.np p).ptp
  regs  : t.regs = s.regs

/-- A frame added at the end of a queue, as `State.enqueue` leaves the port. -/
def State.queueBack (s : State) (p k : Nat) (f : NetTx) : State :=
  s.setNp p { s.np p with q := mput [] (s.np p).q k ((s.np p).queue k ++ [f]) }

theorem queued_queueBack (f : NetTx) : Queued s (s.queueBack p 7 f) p f := by
  have h : (s.queueBack p 7 f).np p = { s.np p with q := mput [] (s.np p).q 7 ((s.np p).queue 7 ++ [f]) } := np_setNp s p _
  exact ⟨h ▸ mget_mput_same _ _ _ _, h ▸ rfl, rfl⟩

theorem np_creditRun : ∃ c a t, (s.creditRun p).np p = { s.np p with credit := c, creditAt := a, txQ := t } :=
  ⟨_, _, _, np_setNp s p _⟩

end

variable {s : State} {p : Nat}

theorem enqueue_of_fits {k : Nat} {f : NetTx} (hl : s.level ≠ 4) (hup : s.netUp p = true)
    (hf : s.txFits p k (f.bytes.length + 4) = true) : s.enqueue p k f = (s.creditRun p).queueBack p k f :=
  (if_neg fun h => hl h.2).trans (if_neg (by simp [hup, hf]))

theorem txFits_seven {n : Nat} (h : (s.np p).queued [7] + n ≤ 65536) : s.txFits p 7 n = true := by
  unfold State.txFits
  simp [h]

theorem queued_enqueue {f : NetTx} (hl : s.level ≠ 4) (hup : s.netUp p = true)
    (hf : (s.np p).queued [7] + (f.bytes.length + 4) ≤ 65536) : Queued s (s.enqueue p 7 f) p f := by
  rw [enqueue_of_fits hl hup (txFits_seven hf)]
  obtain ⟨hq, hp, hr⟩ := queued_queueBack (s.creditRun p) p f
  obtain ⟨c, a, t, hc⟩ := np_creditRun s p
  exact ⟨hq.trans (by rw [hc]; rfl), hp.trans (by rw [hc]), hr⟩

/-! ### The messages of a port -/

/-- A port that is up, below L4, with room in queue 7 for one PTP message. -/
structure HasRoom (s : State) (p : Nat) : Prop where
  up   : s.netUp p = true
  live : s.level ≠ 4
  room : (s.np p).queued [7] + 200 ≤ 65536

/-- A message of the device's own, sent as the port's PTP clock turns to `x`. -/
def Sends (s t : State) (p : Nat) (x : PtpPort) : Prop :=
  (∃ f : NetTx, (t.np p).queue 7 = (s.np p).queue 7 ++ [f] ∧ f.kind = 1 ∧ f.entry = none) ∧ (t.np p).ptp = x ∧ t.regs = s.regs

theorem sends_ptpSend {udp : Bool} {m : List Byte} (hudp : udp = false) (h : HasRoom s p) (hm : m.length ≤ 182) (x : PtpPort) :
    Sends s ((s.setPtp p x).ptpSend p udp none m) p x := by
  subst hudp
  obtain ⟨hup, hl, hroom⟩ := h
  have hnp := np_setPtp s p x
  have hlen := length_ptpFrame_raw (s.setPtp p x) p m
  obtain ⟨hq, hp, hr⟩ := queued_enqueue (s := s.setPtp p x) (p := p)
    (f := ⟨(s.setPtp p x).ptpFrame p false m, none, 1, none, false⟩) hl hup (by
      have hold : ((s.setPtp p x).np p).queued [7] = (s.np p).queued [7] := by rw [hnp]; rfl
      rw [hold, hlen]
      omega)
  exact ⟨⟨_, hq.trans (by rw [hnp]; rfl), rfl, rfl⟩, hp.trans (by rw [hnp]), hr⟩

theorem ptpSendAll_raw {m : List Byte} (h : s.fg F.NET_PTP_CFG_TRANSPORT p = 0) :
    s.ptpSendAll p m = s.ptpSend p false none m := by
  unfold State.ptpSendAll
  simp [h]

theorem sends_ptpSendAll {m : List Byte} (ht : s.fg F.NET_PTP_CFG_TRANSPORT p = 0) (h : HasRoom s p) (hm : m.length ≤ 182)
    (x : PtpPort) : Sends s ((s.setPtp p x).ptpSendAll p m) p x := by
  have ht' : (s.setPtp p x).fg F.NET_PTP_CFG_TRANSPORT p = 0 := ht
  rw [ptpSendAll_raw ht']
  exact sends_ptpSend rfl h hm x

theorem ptpSyncSend_sends (hp : p < 8) (hrole : s.ptpRole p = 2) (ht : s.fg F.NET_PTP_CFG_TRANSPORT p = 0)
    (hdue : (s.np p).ptp.syncDue ≤ s.time.up) (h : HasRoom s p) :
    Completes (.ptpSyncSend p) s (fun t => Sends s t p { (s.np p).ptp with
      seq := ((s.np p).ptp.seq + 1) % 65536, syncDue := s.time.up + logNs (s.fgI F.NET_PTP_CFG_LOG_SYNC p) }) := by
  have hgo : ¬ (8 ≤ p ∨ s.ptpRole p ≠ 2 ∨ (!s.netUp p) = true ∨ s.time.up < (s.np p).ptp.syncDue) := by
    simp [hrole, h.up, hp, hdue]
  exact ⟨_, congrArg Host.Outcome.next (if_neg hgo), sends_ptpSendAll ht h (by simp) _⟩

theorem ptpAnnounceSend_sends (hp : p < 8) (hrole : s.ptpRole p = 2) (ht : s.fg F.NET_PTP_CFG_TRANSPORT p = 0)
    (hds : (s.np p).ptp.ds.length ≤ 20) (hdue : (s.np p).ptp.annDue ≤ s.time.up) (h : HasRoom s p) :
    Completes (.ptpAnnounceSend p) s (fun t => Sends s t p { (s.np p).ptp with
      annSeq := ((s.np p).ptp.annSeq + 1) % 65536, annDue := s.time.up + logNs (s.fgI F.NET_PTP_CFG_LOG_ANNOUNCE p) }) := by
  have hgo : ¬ (8 ≤ p ∨ s.ptpRole p ≠ 2 ∨ (!s.netUp p) = true ∨ s.time.up < (s.np p).ptp.annDue) := by
    simp [hrole, h.up, hp, hdue]
  have hdata := length_annData_le hds
  refine ⟨_, congrArg Host.Outcome.next (if_neg hgo), sends_ptpSendAll ht h ?_ _⟩
  rw [length_ptpMsg, List.length_append, length_zeros]
  omega

theorem pdelayReqSend_sends (hp : p < 8) (hrole : s.ptpRole p ≠ 0) (hmech : s.ptpP2p p = true)
    (ht : s.fg F.NET_PTP_CFG_TRANSPORT p = 0) (hdue : (s.np p).ptp.pdDue ≤ s.time.up) (h : HasRoom s p) :
    Completes (.pdelayReqSend p) s (fun t => Sends s t p { (s.np p).ptp with
      pdSeq := ((s.np p).ptp.pdSeq + 1) % 65536, pdReq := none, pdReqU := none, pdResp := none, pdRespU := none
      pdDue := s.time.up + logNs (s.fgI F.NET_PTP_CFG_LOG_PDELAY p) }) := by
  have hgo : ¬ (8 ≤ p ∨ s.ptpRole p = 0 ∨ (!s.ptpP2p p) = true ∨ (!s.netUp p) = true ∨ s.time.up < (s.np p).ptp.pdDue) := by
    simp [hrole, hmech, h.up, hp, hdue]
  exact ⟨_, congrArg Host.Outcome.next (if_neg hgo), sends_ptpSendAll ht h (by simp) _⟩

theorem delayReqSend_sends (hp : p < 8) (hrole : s.ptpRole p = 1) (hmech : s.ptpP2p p = false)
    (hmaster : (s.np p).ptp.master ≠ []) (hudp : (s.np p).ptp.udp = false) (h : HasRoom s p) :
    Completes (.delayReqSend p) s (fun t => Sends s t p { (s.np p).ptp with
      reqSeq := ((s.np p).ptp.reqSeq + 1) % 65536, req := none }) := by
  have hgo : ¬ (8 ≤ p ∨ s.ptpRole p ≠ 1 ∨ s.ptpP2p p = true ∨ (!s.netUp p) = true ∨ (s.np p).ptp.master = []) := by
    simp [hrole, hmech, h.up, hp, hmaster]
  exact ⟨_, congrArg Host.Outcome.next (if_neg hgo), sends_ptpSend hudp h (by simp) _⟩

/-! ### The loss of the master -/

/-- The report of a lost slot is added to the reports that wait. -/
theorem detq_slotInvalid_subset (s : State) (n : Nat) : s.detq ⊆ (s.slotInvalid n).detq := by
  by_cases h2 : s.sst n = 2
  · obtain ⟨-, -, hd⟩ := slotInvalid_leaves_wtr h2
    rw [hd]
    exact List.Subset.refl _
  · by_cases h3 : s.sst n = 3 ∨ s.sst n = 4
    · rw [slotInvalid_of_used h3, detq_reportSlot]
      exact List.subset_append_left _ _
    · rw [slotInvalid_of_unused h2 h3]
      split <;> exact List.Subset.refl _

/-- The PTP clock of a port that follows no master. -/
def PtpPort.masterless (x : PtpPort) : PtpPort := { x with master := [], sync := none, s2m := none, delay := none, req := none }

/-- The loss of a port's master: it is followed no more, reported, and the port's slot given up. -/
def State.losesMaster (s : State) (p : Nat) : State :=
  ((s.setPtp p (s.np p).ptp.masterless).det 0x41 p 0 0 0).slotInvalid p

theorem master_losesMaster (s : State) {p : Nat} (hp : p < 8) : ((s.losesMaster p).np p).ptp.master = [] := by
  unfold State.losesMaster
  rw [np_of_net (slotsOnly_slotInvalid _ (by omega)).net]
  exact congrArg (fun x : NetPort => x.ptp.master) (np_setPtp s p (s.np p).ptp.masterless)

theorem announceTimeout_loses_master (hp : p < 8) (hrole : s.ptpRole p = 1) (hmaster : (s.np p).ptp.master ≠ [])
    (hdue : (s.np p).ptp.annAt + s.fg F.NET_PTP_CFG_ANN_TIMEOUT p * logNs (s.fgI F.NET_PTP_CFG_LOG_ANNOUNCE p) ≤ s.time.up) :
    Completes (.announceTimeout p) s (fun t =>
      (t.np p).ptp.master = [] ∧ (t.slot p).valid = false ∧ ∃ d ∈ t.detq, d.fam = 0x41 ∧ d.inst = p) := by
  have hgo : ¬ (8 ≤ p ∨ s.ptpRole p ≠ 1 ∨ (s.np p).ptp.master = []
      ∨ s.time.up < (s.np p).ptp.annAt + s.fg F.NET_PTP_CFG_ANN_TIMEOUT p * logNs (s.fgI F.NET_PTP_CFG_LOG_ANNOUNCE p)) := by
    simp [hrole, hp, hmaster, hdue]
  exact ⟨s.losesMaster p, congrArg Host.Outcome.next (if_neg hgo), master_losesMaster s hp, valid_slotInvalid _ p, _,
    detq_slotInvalid_subset _ p (List.mem_append_right _ List.mem_cons_self), rfl, rfl⟩

/-- Settles O43: each send whose conditions hold queues one message that fits, and the timeout ends master and slot. -/
theorem ptpPortsSendTheirMessages : Obligations.PtpPortsSendTheirMessages :=
  ⟨fun _ _ hp hrole ht hdue ⟨up, live, room⟩ => ptpSyncSend_sends hp hrole ht hdue ⟨up, live, room⟩,
    fun _ _ hp hrole ht hds hdue ⟨up, live, room⟩ => ptpAnnounceSend_sends hp hrole ht hds hdue ⟨up, live, room⟩,
    fun _ _ hp hrole hmech ht hdue ⟨up, live, room⟩ => pdelayReqSend_sends hp hrole hmech ht hdue ⟨up, live, room⟩,
    fun _ _ hp hrole hmech hmaster hudp ⟨up, live, room⟩ => delayReqSend_sends hp hrole hmech hmaster hudp ⟨up, live, room⟩,
    fun _ _ hp hrole hmaster hdue => announceTimeout_loses_master hp hrole hmaster hdue⟩

end Sys2Proof.Machine
end

