-- ==== Sys2Proof/Proofs/RouterBanks.lean ====
section
/-! Tables in two banks (R62, R64 - R66, R182): what the writing, the reading and the copying of entries leaves, what a decoder's
detection leaves, and the Router's banks. -/

namespace Sys2Proof.Machine

/-! ### Sparse collections that are filtered, renamed and joined -/

section
variable {α : Type} {d : α}

theorem mget_of_not_mem {m : AMap α} {q : Nat} (h : ∀ p ∈ m, p.1 ≠ q) : mget d m q = d := by
  induction m with
  | nil => rfl
  | cons p m ih =>
    obtain ⟨k, v⟩ := p
    exact (if_neg (h (k, v) List.mem_cons_self).symm).trans (ih fun p hp => h p (List.mem_cons_of_mem _ hp))

theorem mget_append_of_left {a b : AMap α} {q : Nat} (h : ∀ p ∈ b, p.1 ≠ q) : mget d (a ++ b) q = mget d a q := by
  induction a with
  | nil => exact mget_of_not_mem h
  | cons p a ih =>
    obtain ⟨k, v⟩ := p
    simp only [List.cons_append, mget, ih]

theorem mget_append_of_right {a b : AMap α} {q : Nat} (h : ∀ p ∈ a, p.1 ≠ q) : mget d (a ++ b) q = mget d b q := by
  induction a with
  | nil => rfl
  | cons p a ih =>
    obtain ⟨k, v⟩ := p
    exact (if_neg (h (k, v) List.mem_cons_self).symm).trans (ih fun p hp => h p (List.mem_cons_of_mem _ hp))

/-- The entries that satisfy a condition on their keys, under new names: where a name stands for one key alone, it reads what the
key did. -/
theorem mget_filter_map {m : AMap α} {P : Nat → Bool} {f : Nat → Nat} {q r : Nat} (hq : P q = true)
    (hf : ∀ k, P k = true → (r = f k ↔ q = k)) :
    mget d ((m.filter (fun p => P p.1)).map (fun p => (f p.1, p.2))) r = mget d m q := by
  induction m with
  | nil => rfl
  | cons p m ih =>
    obtain ⟨k, v⟩ := p
    by_cases hk : P k = true
    · rw [List.filter_cons_of_pos (p := fun p : Nat × α => P p.1) hk, List.map_cons]
      simp only [mget, ih, hf k hk]
    · rw [List.filter_cons_of_neg (p := fun p : Nat × α => P p.1) hk, ih]
      exact (if_neg fun e : q = k => hk (e ▸ hq)).symm

theorem mget_filter {m : AMap α} {P : Nat → Bool} {q : Nat} (hq : P q = true) : mget d (m.filter (fun p => P p.1)) q = mget d m q := by
  simpa using mget_filter_map (d := d) (m := m) (f := id) hq fun _ _ => Iff.rfl

/-! ### Banks -/

/-- After the copy both banks read what the active one read. -/
theorem mget_copyBank {n : Nat} (act : Nat) (m : AMap α) {i : Nat} (hi : i < n) :
    mget d (copyBank n act m) i = mget d m (n * act + i) ∧ mget d (copyBank n act m) (n + i) = mget d m (n * act + i) := by
  have hact : ((n * act + i) / n == act) = true := by
    rw [Nat.mul_add_div (by omega), Nat.div_eq_of_lt hi, Nat.add_zero, beq_self_eq_true]
  have hkey : ∀ k, (k / n == act) = true → (i = k % n ↔ n * act + i = k) := fun k hk => by
    have := Nat.div_add_mod k n
    rw [eq_of_beq hk] at this
    omega
  have hlow : ∀ p ∈ (m.filter (fun p => p.1 / n == act)).map (fun p => (p.1 % n, p.2)), p.1 < n := by
    intro p hp
    obtain ⟨x, -, rfl⟩ := List.mem_map.mp hp
    exact Nat.mod_lt _ (by omega)
  unfold copyBank
  dsimp only
  refine ⟨?_, ?_⟩
  · rw [mget_append_of_left, mget_filter_map (P := fun k => k / n == act) (f := fun k => k % n) hact hkey]
    intro p hp
    obtain ⟨x, -, rfl⟩ := List.mem_map.mp hp
    show n + x.1 ≠ i
    omega
  · rw [mget_append_of_right fun p hp => by have := hlow p hp; omega, List.map_map]
    exact mget_filter_map (P := fun k => k / n == act) (f := fun k => n + k % n) hact fun k hk => by
      have := hkey k hk
      omega

end

theorem mget_writeEntries (d w key : Nat) (b : List Byte) (n : Nat) (m : AMap Nat) (j : Nat) :
    mget d (writeEntries d w key b n m) j = if key ≤ j ∧ j < key + n then leAt b (w * (j - key)) w else mget d m j := by
  induction n with
  | zero => exact (if_neg (by omega)).symm
  | succ n ih =>
    rw [writeEntries, mget_mput, ih]
    by_cases hj : j = key + n
    · rw [if_pos hj, if_pos (by omega), hj, Nat.add_sub_cancel_left]
    · rw [if_neg hj]
      exact if_congr (by omega) rfl rfl

theorem getD_leBytes {n : Nat} (v : Nat) {j : Nat} (hj : j < n) : (leBytes n v).getD j 0 = BitVec.ofNat 8 (v / 256 ^ j) := by
  induction n generalizing v j with
  | zero => omega
  | succ n ih =>
    cases j with
    | zero => simp [leBytes]
    | succ j => rw [leBytes, List.getD_cons_succ, ih _ (by omega), Nat.div_div_eq_div_mul, Nat.pow_succ']

theorem toNat_getD_leBytes {n : Nat} (v : Nat) {j : Nat} (hj : j < n) : ((leBytes n v).getD j 0).toNat = v / 256 ^ j % 256 := by
  rw [getD_leBytes v hj, BitVec.toNat_ofNat]

section
variable {f : Nat → List Byte} {w : Nat} (hf : ∀ i, (f i).length = w)
include hf

theorem length_flatMap_range (n : Nat) : ((List.range n).flatMap f).length = w * n := by
  induction n with
  | zero => rfl
  | succ n ih =>
    rw [List.range_succ, List.flatMap_append, List.length_append, ih, List.flatMap_singleton, hf, Nat.mul_succ]

/-- Byte j of piece k in a row of pieces of one length. -/
theorem getD_flatMap_range {n k j : Nat} (hk : k < n) (hj : j < w) : ((List.range n).flatMap f).getD (w * k + j) 0 = (f k).getD j 0 := by
  induction n with
  | zero => omega
  | succ n ih =>
    have hlen := length_flatMap_range hf n
    rw [List.range_succ, List.flatMap_append, List.flatMap_singleton]
    rcases Nat.lt_succ_iff_lt_or_eq.mp hk with h | rfl
    · have : w * k + w ≤ w * n := by rw [← Nat.mul_succ]; exact Nat.mul_le_mul_left w h
      rw [List.getD_append _ _ _ _ (by omega), ih h]
    · rw [List.getD_append_right _ _ _ _ (by omega), hlen, Nat.add_sub_cancel_left]

end

theorem length_readEntries (d w key n : Nat) (m : AMap Nat) : (readEntries d w key n m).length = w * n :=
  length_flatMap_range (fun _ => length_leBytes w _) n

theorem getD_readEntries (d : Nat) {w : Nat} (key : Nat) {n k j : Nat} (m : AMap Nat) (hk : k < n) (hj : j < w) :
    ((readEntries d w key n m).getD (w * k + j) 0).toNat = mget d m (key + k) / 256 ^ j % 256 := by
  unfold readEntries
  rw [getD_flatMap_range (fun _ => length_leBytes w _) hk hj, toNat_getD_leBytes _ hj]

/-- The host finds the bytes of the entries read in its buffer, and every other byte as it was. -/
theorem hostMem_readEntries (s : State) (a d w key n : Nat) (m : AMap Nat) :
    (∀ k j, k < n → j < w → (memByte (s.hostWrite a (readEntries d w key n m)).hif.hostMem (a + w * k + j)).toNat
      = mget d m (key + k) / 256 ^ j % 256)
    ∧ ∀ x, x < a ∨ a + w * n ≤ x → memByte (s.hostWrite a (readEntries d w key n m)).hif.hostMem x = memByte s.hif.hostMem x := by
  obtain ⟨-, hmem⟩ := hostGets_hostWrite s a (readEntries d w key n m)
  rw [length_readEntries] at hmem
  refine ⟨fun k j hk hj => ?_, fun x hx => (hmem x).trans (if_neg (by omega))⟩
  have : w * k + w ≤ w * n := by rw [← Nat.mul_succ]; exact Nat.mul_le_mul_left w hk
  rw [hmem, if_pos (by omega), show a + w * k + j - a = w * k + j by omega, getD_readEntries d key m hk hj]

/-! ### What a decoder's detection and the writing of a table leave (R314 - R317) -/

/-- Nothing changes but the counters, logs and records of the memories, the reports and the time of the last uncorrectable word. -/
structure EccOnly (s t : State) : Prop where
  state : t = { s with regs := t.regs, integ := t.integ, detq := t.detq, tw := t.tw }

namespace EccOnly
variable {s t u : State}

theorem refl (s : State) : EccOnly s s := ⟨rfl⟩
theorem trans (h : EccOnly s t) (k : EccOnly t u) : EccOnly s u := ⟨by rw [k.state, h.state]⟩
theorem aud (h : EccOnly s t) : t.aud = s.aud := by rw [h.state]
theorem drv (h : EccOnly s t) : t.drv = s.drv := by rw [h.state]
theorem sp (h : EccOnly s t) : t.sp = s.sp := by rw [h.state]
theorem eng (h : EccOnly s t) : t.eng = s.eng := by rw [h.state]
theorem time (h : EccOnly s t) : t.time = s.time := by rw [h.state]

theorem foldl {α : Type} {f : State → α → State} (l : List α) (h : ∀ s a, EccOnly s (f s a)) (s : State) :
    EccOnly s (l.foldl f s) :=
  foldl_frame EccOnly refl trans f l (fun s a _ => h s a) s

end EccOnly

theorem eccOnly_fs (s : State) (f : Fld) (i v : Nat) : EccOnly s (s.fs f i v) := ⟨rfl⟩
theorem eccOnly_fadd (s : State) (f : Fld) (i n : Nat) : EccOnly s (s.fadd f i n) := ⟨rfl⟩

theorem eccOnly_countCe (s : State) (w : WordId) : EccOnly s (s.countCe w) := by
  unfold State.countCe
  repeat' split
  all_goals exact eccOnly_fadd s _ _ _

theorem eccOnly_countUe (s : State) (w : WordId) : EccOnly s (s.countUe w) := by
  unfold State.countUe
  repeat' split
  all_goals exact eccOnly_fadd s _ _ _

theorem eccOnly_eccLog (s : State) (w : WordId) (ue : Bool) (req syn : Nat) : EccOnly s (s.eccLog w ue req syn) := by
  unfold State.eccLog
  extract_lets l e full l' x t u
  have hu : EccOnly s u := EccOnly.trans ⟨rfl⟩ (eccOnly_fs t _ _ _)
  split
  · exact hu.trans (eccOnly_fadd u _ _ _)
  · exact hu

theorem eccOnly_foundCe (s : State) (w : WordId) (syn req : Nat) : EccOnly s (s.foundCe w syn req) :=
  ((eccOnly_countCe s w).trans (eccOnly_eccLog _ w false req syn)).trans ⟨rfl⟩

theorem eccOnly_foundUe (s : State) (w : WordId) (syn req : Nat) : EccOnly s (s.foundUe w syn req) :=
  ((eccOnly_countUe s w).trans (eccOnly_eccLog _ w true req syn)).trans ⟨rfl⟩

theorem eccOnly_fullWrite (s : State) (w : WordId) : EccOnly s (s.fullWrite w) := ⟨rfl⟩

theorem eccOnly_wroteTab (s : State) (tab lo n : Nat) : EccOnly s (s.wroteTab tab lo n) := by
  refine EccOnly.foldl _ (fun s k => ?_) s
  extract_lets w
  split
  · exact eccOnly_fullWrite s w
  · split
    · exact eccOnly_foundUe s w _ 4
    · exact .refl s

/-! ### The Router's banks (R62, R64 - R66) -/

theorem applyRouteWrite_writes (e : Entry) (s : State) :
    (s.rtLocked = true → Ends e Sts.ROUTE_BANK_LOCKED [] s (applyRouteWrite e s))
    ∧ (s.rtLocked = false → ∃ v, Ends e Sts.OK [] v (applyRouteWrite e s) ∧ v.aud.rtAct = s.aud.rtAct
      ∧ (∀ k, k < e.cmd.b → mget 0 v.aud.rt ((1 - s.aud.rtAct) * 4096 + e.cmd.a + k) = leAt e.cmd.buf (8 * k) 8)
      ∧ ∀ j, j < (1 - s.aud.rtAct) * 4096 + e.cmd.a ∨ (1 - s.aud.rtAct) * 4096 + e.cmd.a + e.cmd.b ≤ j →
          mget 0 v.aud.rt j = mget 0 s.aud.rt j) := by
  refine ⟨fun h => ⟨false, if_pos h⟩, fun h => ⟨_, ⟨false, if_neg (by rw [h]; decide)⟩, ?_⟩⟩
  rw [(eccOnly_wroteTab s Tab.ROUTER _ e.cmd.b).aud]
  refine ⟨rfl, fun k hk => ?_, fun j hj => ?_⟩
  · rw [mget_writeEntries, if_pos (by omega), Nat.add_sub_cancel_left]
  · rw [mget_writeEntries, if_neg (by omega)]

theorem applyRouteRead_reads (e : Entry) (s : State) : ∃ v, Ends e Sts.OK [] v (applyRouteRead e s) ∧ v.aud = s.aud
    ∧ (∀ k j, k < e.cmd.b → j < 8 → (memByte v.hif.hostMem (e.cmd.addr + 8 * k + j)).toNat
        = mget 0 s.aud.rt (e.cmd.c * 4096 + e.cmd.a + k) / 256 ^ j % 256)
    ∧ ∀ a, a < e.cmd.addr ∨ e.cmd.addr + 8 * e.cmd.b ≤ a → memByte v.hif.hostMem a = memByte s.hif.hostMem a :=
  ⟨_, ⟨false, rfl⟩, rfl, hostMem_readEntries s _ 0 8 _ _ _⟩

theorem applyRouteCommit_swaps (e : Entry) (s : State) : ∃ v, Ends e Sts.OK [] v (applyRouteCommit e s)
    ∧ v.aud.rtAct = 1 - s.aud.rtAct ∧ v.aud.rtLock = 2 ∧ v.aud.rtGen = e.gen ∧ v.aud.rtOutTick = s.time.tick + 1
    ∧ v.aud.rt = s.aud.rt :=
  ⟨_, ⟨true, rfl⟩, rfl, rfl, rfl, rfl, rfl⟩

theorem applyRouteStatus_tells (e : Entry) (s : State) :
    Ends e Sts.OK [s.aud.rtAct + 2 * b2n s.rtLocked, s.aud.rtGen] s (applyRouteStatus e s) :=
  ⟨false, rfl⟩

theorem bankCopyComplete_copies_router (s : State) (hl : s.aud.rtLock = 2) (ht : s.aud.rtOutTick < s.time.tick)
    (hi : s.aud.icFade = []) (hd : s.aud.dstFade = []) : Completes (.bankCopyComplete 0) s (fun t =>
      t.aud.rtLock = 0 ∧ t.aud.rtAct = s.aud.rtAct
      ∧ ∀ i, i < 4096 → mget 0 t.aud.rt i = mget 0 s.aud.rt (4096 * s.aud.rtAct + i)
        ∧ mget 0 t.aud.rt (4096 + i) = mget 0 s.aud.rt (4096 * s.aud.rtAct + i)) := by
  have e : exec (.bankCopyComplete 0) s = .next s.routeCopied := rfl
  unfold State.routeCopied at e
  dsimp only at e
  rw [if_pos ⟨hl, ht, by simp [hi], by simp [hd]⟩] at e
  refine ⟨_, e, ?_⟩
  rw [(eccOnly_wroteTab s Tab.ROUTER _ 4096).aud]
  exact ⟨rfl, rfl, fun i hi => mget_copyBank s.aud.rtAct s.aud.rt hi⟩

/-- The banks of the drive channels and lines become equal, and no table of the signal path changes (R182). -/
theorem bankCopyComplete_copies_drive (s : State) (hl : s.drv.lock = 2) (hr : s.dcRamping = false) :
    Completes (.bankCopyComplete 2) s (fun t => t.drv.lock = 0
      ∧ (∀ i, i < 192 → mget 0 t.drv.dc (192 + i) = mget 0 s.drv.dc (192 * s.drv.act + i)
        ∧ mget 0 t.drv.ln (192 + i) = mget 0 s.drv.ln (192 * s.drv.act + i)) ∧ t.aud = s.aud) := by
  have hw := (eccOnly_wroteTab s Tab.DC (192 * (1 - s.drv.act)) 192).trans (eccOnly_wroteTab _ Tab.LINE (192 * (1 - s.drv.act)) 192)
  have e : exec (.bankCopyComplete 2) s = .next s.dcCopied := rfl
  unfold State.dcCopied at e
  dsimp only at e
  rw [if_pos ⟨hl, by simp [hr]⟩] at e
  refine ⟨_, e, ?_⟩
  rw [hw.drv]
  exact ⟨rfl, fun i hi => ⟨(mget_copyBank s.drv.act s.drv.dc hi).2, (mget_copyBank s.drv.act s.drv.ln hi).2⟩, hw.aud⟩

/-- Settles O21: a write and a read of entries are one write and one read of a collection, and the copy renames the entries of the
active bank to both banks' keys (`mget_copyBank`). -/
theorem routerBanksAreWrittenAndSwapped : Obligations.RouterBanksAreWrittenAndSwapped :=
  ⟨⟨takenThen_of (fun _ _ => rfl) rfl applyRouteWrite_writes, takenThen_of (fun _ _ => rfl) rfl applyRouteRead_reads⟩,
    takenThen_of (fun _ _ => rfl) rfl applyRouteCommit_swaps, takenThen_of (fun _ _ => rfl) rfl applyRouteStatus_tells,
    bankCopyComplete_copies_router, bankCopyComplete_copies_drive⟩

end Sys2Proof.Machine
end

