-- ==== Sys2Proof/Proofs/TickEvents.lean ====
section
/-! The matrix and the Router within a tick (R55, R59, R70): what the forming of samples leaves, the group a tile takes, the
collection of the output block, and ASRC groups that settle or lose their rate. -/

namespace Sys2Proof.Machine

/-! ### One bit of a number -/

theorem testBit_add_two_pow {v n : Nat} (h : v.testBit n = false) (m : Nat) :
    (v + 2 ^ n).testBit m = if m = n then true else v.testBit m := by
  by_cases hm : m = n
  · rw [if_pos hm, hm, Nat.add_comm, Nat.testBit_two_pow_add_eq, h, Bool.not_false]
  · have hlow : v % 2 ^ (n + 1) < 2 ^ n := by
      refine Nat.lt_pow_two_of_testBit _ fun j hj => ?_
      rw [Nat.testBit_mod_two_pow]
      rcases Nat.eq_or_lt_of_le hj with rfl | hj
      · rw [h, Bool.and_false]
      · rw [decide_eq_false (by omega), Bool.false_and]
    have hpow : 2 ^ (n + 1) = 2 ^ n + 2 ^ n := by omega
    have hv := Nat.div_add_mod v (2 ^ (n + 1))
    have hv' : v + 2 ^ n = 2 ^ (n + 1) * (v / 2 ^ (n + 1)) + (2 ^ n + v % 2 ^ (n + 1)) := by omega
    rw [if_neg hm, hv', Nat.testBit_two_pow_mul_add _ (by omega)]
    conv_rhs => rw [← hv, Nat.testBit_two_pow_mul_add _ (by omega)]
    split
    · rw [Nat.testBit_two_pow_add_gt (by omega)]
    · rfl

theorem testBit_setBit (v i : Nat) (b : Bool) (m : Nat) : (setBit v i b).testBit m = if m = i then b else v.testBit m := by
  unfold setBit
  by_cases h : v.testBit i = b
  · rw [if_pos h]
    split
    · rename_i e
      rw [e, h]
    · rfl
  · rw [if_neg h]
    cases b with
    | true => exact testBit_add_two_pow (Bool.eq_false_iff.mpr h) m
    | false =>
      have hv : v - 2 ^ i + 2 ^ i = v := Nat.sub_add_cancel (Nat.ge_two_pow_of_testBit (Bool.eq_true_of_not_eq_false h))
      have hw : (v - 2 ^ i).testBit i = false := by
        have := Nat.testBit_two_pow_add_eq (v - 2 ^ i) i
        rw [Nat.add_comm, hv, Bool.eq_true_of_not_eq_false h] at this
        exact Bool.not_eq_true' _ |>.mp this.symm
      have := testBit_add_two_pow hw m
      rw [hv] at this
      rw [if_neg (by decide)]
      by_cases e : m = i
      · rw [if_pos e, e, hw]
      · rw [if_neg e, this, if_neg e]

@[simp] theorem testBit_setBit_same (v i : Nat) (b : Bool) : (setBit v i b).testBit i = b :=
  (testBit_setBit v i b i).trans (if_pos rfl)

theorem setBit_lt {v i k : Nat} (b : Bool) (hv : v < 2 ^ k) (hi : i < k) : setBit v i b < 2 ^ k := by
  refine Nat.lt_pow_two_of_testBit _ fun m hm => ?_
  rw [testBit_setBit, if_neg (by omega)]
  exact Nat.testBit_lt_two_pow (hv.trans_le (Nat.pow_le_pow_right (by decide) hm))

/-! ### Open values -/

/-- Nothing changes but the count of open values drawn (assumption 1). -/
structure Draws (s t : State) : Prop where
  state : t = { s with free := t.free }

namespace Draws
variable {s t u : State}

theorem refl (s : State) : Draws s s := ⟨rfl⟩
theorem trans (h : Draws s t) (k : Draws t u) : Draws s u := ⟨by rw [k.state, h.state]⟩
theorem time (h : Draws s t) : t.time = s.time := by rw [h.state]
theorem of_eq {α : Type} {p : α × State} {a : α} (h : Draws s p.2) (e : p = (a, t)) : Draws s t := by rwa [e] at h

end Draws

theorem draws_q31 (s : State) (num : Int) (den : Nat) : Draws s (s.q31 num den).2 := by
  unfold State.q31
  extract_lets
  split
  · exact ⟨rfl⟩
  · split <;> exact ⟨rfl⟩

theorem draws_blk {f : Nat → State → Int × State} (hf : ∀ i s, Draws s (f i s).2) (s : State) : Draws s (s.blk f).2 :=
  (((hf 0 s).trans (hf 1 _)).trans (hf 2 _)).trans (hf 3 _)

theorem draws_scaleBlk (s : State) (b : Blk) (num : Nat → Int) (den : Nat) : Draws s (s.scaleBlk b num den).2 :=
  draws_blk (fun _ _ => draws_q31 _ _ _) s

theorem draws_fadeOut (s : State) (b : Blk) : Draws s (s.fadeOut b).2 := draws_scaleBlk s b _ 4

theorem draws_fadeBlk (s : State) (f : Fade) (t : Nat) (x : Nat → Blk) : Draws s (s.fadeBlk f t x).2 :=
  draws_blk (fun _ _ => draws_q31 _ _ _) s

theorem draws_polarity (s : State) (inv : Bool) (b : Blk) : Draws s (s.polarity inv b).2 := by
  unfold State.polarity
  split
  · exact draws_scaleBlk s b _ 1
  · exact .refl s

/-! ### The group a tile takes (R70) -/

/-- Nothing changes but the blocks of the matrix inputs, and the open values drawn for them. -/
structure FormsInputs (s t : State) : Prop where
  state : t = { s with free := t.free, aud := { s.aud with mi := t.aud.mi, miK := t.aud.miK } }

theorem FormsInputs.refl (s : State) : FormsInputs s s := ⟨rfl⟩
theorem FormsInputs.trans {s t u : State} (h : FormsInputs s t) (k : FormsInputs t u) : FormsInputs s u :=
  ⟨by rw [k.state, h.state]⟩

namespace FormsInputs
variable {s t : State}

theorem grp (h : FormsInputs s t) : t.aud.grp = s.aud.grp := by rw [h.state]
theorem cyc (h : FormsInputs s t) : t.aud.cyc = s.aud.cyc := by rw [h.state]
theorem mo (h : FormsInputs s t) : t.aud.mo = s.aud.mo := by rw [h.state]
theorem xp (h : FormsInputs s t) : t.aud.xp = s.aud.xp := by rw [h.state]
theorem time (h : FormsInputs s t) : t.time = s.time := by rw [h.state]

end FormsInputs

theorem formsInputs_formMi (s : State) (mi : Nat) : FormsInputs s (s.formMi mi) := by
  unfold State.formMi
  extract_lets t
  split
  next b u e =>
  have hu : Draws s u := by
    split at e
    · next f _ =>
      exact (draws_fadeBlk s f t (s.miOf mi)).of_eq e
    · cases e
      exact .refl s
  exact ⟨by rw [hu.state]⟩

/-- The blocks of KIND 3 inputs that a group forms as they come. -/
theorem formsInputs_late (s : State) (l : List Nat) : FormsInputs s (l.foldl (fun (s : State) mi =>
    if s.miIsK3 mi && !(mi ∈ s.aud.miK) then
      let s := s.formMi mi
      { s with aud := { s.aud with miK := mi :: s.aud.miK } }
    else s) s) := by
  refine foldl_frame FormsInputs .refl .trans _ l (fun s mi _ => ?_) s
  split
  · exact (formsInputs_formMi s mi).trans ⟨rfl⟩
  · exact .refl s

/-- A mixed group is done for the block; outputs, crosspoints and the cycles used stand as they were. -/
theorem mixGroup_marks (s : State) (c q : Nat) : (mget 0 (s.mixGroup c q).aud.grp c).testBit q = true
    ∧ (s.mixGroup c q).aud.mo = s.aud.mo ∧ (s.mixGroup c q).aud.xp = s.aud.xp ∧ (s.mixGroup c q).aud.cyc = s.aud.cyc
    ∧ (s.mixGroup c q).time = s.time := by
  have h := formsInputs_late s ((List.range 32).map (32 * q + ·))
  unfold State.mixGroup
  extract_lets t idx acc
  have ht : FormsInputs s t := h
  refine ⟨?_, ?_⟩
  · show (mget 0 (mmod 0 t.aud.grp c (fun m => setBit m q true)) c).testBit q = true
    rw [mmod, mget_mput_same, testBit_setBit_same]
  · exact ⟨ht.mo, ht.xp, ht.cyc, ht.time⟩

/-- The block with the cycles a tile has used. -/
def State.usesCycles (s : State) (c n : Nat) : State := { s with aud := { s.aud with cyc := mput 0 s.aud.cyc c n } }

@[simp] theorem cyc_usesCycles (s : State) (c n : Nat) : mget 0 (s.usesCycles c n).aud.cyc c = n := by simp [State.usesCycles]

theorem tileGroupProcess_takes_group (c dt : Nat) (s : State) (q : Nat) (hc : c < 24) (hm : (s.elapse dt).tileMixes c = true)
    (ht : tickStart (tickAt (s.elapse dt).now) + 3000 ≤ (s.elapse dt).now) (hq : (s.elapse dt).nextGroup c = some q)
    (hfit : max (max ((s.elapse dt).tileSkips c).length (mget 0 s.aud.cyc c))
        ((s.elapse dt).now - (tickStart (tickAt (s.elapse dt).now) + 3000)) + 768
      ≤ (s.elapse dt).time.next - (tickStart (tickAt (s.elapse dt).now) + 3000)) :
    Completes (.tileGroupProcess c dt) s (fun t => (mget 0 t.aud.grp c).testBit q = true
      ∧ mget 0 t.aud.cyc c = max (max ((s.elapse dt).tileSkips c).length (mget 0 s.aud.cyc c))
        ((s.elapse dt).now - (tickStart (tickAt (s.elapse dt).now) + 3000)) + 768
      ∧ t.time = (s.elapse dt).time ∧ t.aud.mo = s.aud.mo ∧ t.aud.xp = s.aud.xp) := by
  have haud : (s.elapse dt).aud = s.aud := (elapse_works s dt).aud
  have e : exec (.tileGroupProcess c dt) s = execTileGroupProcess c dt s := rfl
  unfold execTileGroupProcess at e
  dsimp only at e
  rw [if_neg (by simp only [hm, Bool.not_true, Bool.false_eq_true, false_or]; omega), hq, haud] at e
  dsimp only at e
  rw [if_neg (by omega)] at e
  obtain ⟨hgrp, hmo, hxp, -, htime⟩ := mixGroup_marks (s.elapse dt) c q
  rw [haud] at hmo hxp
  exact ⟨((s.elapse dt).mixGroup c q).usesCycles c _, e, hgrp, cyc_usesCycles _ c _, htime, hmo, hxp⟩

/-! ### The collection of the output block (R55, R66) -/

section
variable {P : State → Prop}

/-- A loop beside whose state something is gathered: what each round keeps, the loop keeps. -/
theorem foldl_snd_keeps {α β : Type} {f : β × State → α → β × State} (hf : ∀ p a, P p.2 → P (f p a).2) {p : β × State}
    (hp : P p.2) (l : List α) : P (l.foldl f p).2 := by
  induction l generalizing p with
  | nil => exact hp
  | cons a l ih => exact ih (hf p a hp)

theorem foldl_keeps {α : Type} {f : State → α → State} (hf : ∀ s a, P s → P (f s a)) {s : State} (hs : P s) (l : List α) :
    P (l.foldl f s) := by
  induction l generalizing s with
  | nil => exact hs
  | cons a l ih => exact ih (hf s a hs)

end

theorem time_convValue (s : State) (mode key phase : Nat) : (s.convValue mode key phase).2.time = s.time := by
  unfold State.convValue
  extract_lets
  split
  · rfl
  · split <;> rfl

theorem time_convPush (s : State) (mode key : Nat) (v : Int) : (s.convPush mode key v).time = s.time := rfl

theorem time_convBlk (s : State) (key : Nat) (b : Blk) (up : Bool) : (s.convBlk key b up).2.time = s.time := by
  refine foldl_snd_keeps (P := fun t => t.time = s.time) (fun p i hp => ?_) rfl _
  rw [← hp]
  extract_lets t
  split
  · exact (time_convValue _ _ _ _).trans (time_convValue _ _ _ _)
  · split
    · exact time_convValue _ _ _ _
    · rfl

theorem time_ringReturn (s : State) (r : Nat) (b : List Byte) : (s.ringReturn r b).time = s.time := by
  unfold State.ringReturn
  rw [(told_signal _ r).time, fs_time]
  rfl

theorem time_audReturn (s : State) (d : AudDesc) : (s.audReturn d).time = s.time := by
  exact (time_ringReturn (State.fadd _ _ _ _) _ _).trans (fadd_time _ _ _ _)

theorem time_houtRing (s : State) (r g : Nat) : (s.houtRing r g).time = s.time := by
  unfold State.houtRing
  extract_lets -underBinder i ch half nf
  split
  · rfl
  · extract_lets -underBinder gap d _ t
    split
    next l u e =>
    have hu : u.time = t.time := by
      rw [← show _ = u.time from congrArg (fun q => q.2.time) e]
      refine foldl_snd_keeps (P := fun v => v.time = t.time) (fun p c hp => ?_) rfl _
      rw [← hp]
      extract_lets b
      split
      · exact time_convBlk _ _ _ _
      · rfl
    extract_lets -underBinder b v _ _ w
    have hw : w.time = s.time := hu
    split
    · exact (time_audReturn w _).trans hw
    · exact hw

theorem time_houtCollect (s : State) (g : Nat) : (s.houtCollect g).time = s.time := by
  refine foldl_keeps (P := fun t => t.time = s.time) (fun t r ht => ?_) rfl _
  rw [← ht]
  split
  · exact time_houtRing t r g
  · rfl

theorem draws_feed (s : State) (key : Nat) (blk : Nat → Blk) : Draws s (s.feed key blk).2 := by
  unfold State.feed
  extract_lets one t
  have hone : ∀ (s : State) src, Draws s (one s src).2 := fun s src => by
    show Draws s (if src < 2 then _ else _ : Blk × State).2
    split
    · exact .refl s
    · exact draws_polarity s _ _
  split
  · next f _ =>
    split
    · exact hone s _
    · split
      next bs u e =>
      have hu : Draws s u := by
        refine Draws.of_eq ?_ e
        refine foldl_snd_keeps (P := Draws s) (fun p c hp => ?_) (.refl s) _
        exact hp.trans (hone p.2 c)
      exact hu.trans (draws_fadeBlk u f t _)
  · exact hone s _

theorem time_muteHout (s : State) : s.muteHout.time = s.time := by
  unfold State.muteHout
  split
  · rfl
  · split
    · split
      next m t e =>
      have ht : Draws s t := by
        refine Draws.of_eq ?_ e
        exact foldl_snd_keeps (P := Draws s) (fun p b hp => hp.trans (draws_fadeOut p.2 b.2)) (.refl s) _
      exact ht.time
    · rfl

theorem time_feed {s t : State} {key : Nat} {blk : Nat → Blk} {b : Blk} (e : s.feed key blk = (b, t)) : t.time = s.time := by
  exact ((draws_feed s key blk).of_eq e).time

/-- The collection takes no time, and marks its tick as collected. -/
theorem collect_marks (s : State) : s.collect.aud.collTick = s.time.tick + 1 ∧ s.collect.time = s.time := by
  unfold State.collect
  extract_lets -underBinder keys slots _ t u full v w
  have hu : u.time = s.time := by
    refine foldl_keeps (P := fun v => v.time = s.time) (fun v key hv => ?_) (show t.time = s.time from rfl) _
    rw [← hv]
    split
    next b t et =>
    have ht := time_feed et
    extract_lets -underBinder _ u
    split
    · exact ht
    · split
      next c v ev =>
      have hv := (time_feed ev).trans ht
      extract_lets -underBinder _ w
      split
      · split
        next d x ex => exact (time_feed ex).trans hv
      · exact hv
  have hw : w.time = s.time := ((time_houtCollect v _).trans (time_muteHout u)).trans hu
  exact ⟨by rw [← hw], hw⟩

theorem outputCollection_collects (dt : Nat) (s : State) (hn : s.aud.collTick ≠ s.time.tick + 1)
    (ht : tickStart (tickAt (s.elapse dt).now) + s.deadlineNs ≤ (s.elapse dt).now) :
    Completes (.outputCollection dt) s (fun t => t.aud.collTick = s.time.tick + 1 ∧ t.time = (s.elapse dt).time) := by
  have haud : (s.elapse dt).aud = s.aud := (elapse_works s dt).aud
  have hd : (s.elapse dt).deadlineNs = s.deadlineNs := congrArg (· * 100) (fg_of_regs (regs_elapse s dt) _ _)
  obtain ⟨hc, htime⟩ := collect_marks (s.elapse dt)
  rw [tick_elapse] at hc
  refine ⟨_, congrArg Host.Outcome.next (if_neg ?_), hc, htime⟩
  rw [haud, tick_elapse, hd]
  omega

theorem exec_outputCollection_of_collected (dt : Nat) (s : State) (h : s.aud.collTick = s.time.tick + 1) :
    exec (.outputCollection dt) s = .next (s.elapse dt) :=
  congrArg Host.Outcome.next (if_pos (.inl (by rw [(elapse_works s dt).aud, tick_elapse, h])))

/-! ### ASRC groups (R59) -/

theorem asrcSettled_ramps_in (key : Nat) (s : State) : Completes (.asrcSettled key) s (fun t =>
    t = { s with aud := { s.aud with conv := t.aud.conv } }
    ∧ t.aud.conv.length = s.aud.conv.length ∧ ∀ (i : Nat) (g : ConvGrp), s.aud.conv[i]? = some g →
      t.aud.conv[i]? = some (if g.key = key ∧ g.asrc = true ∧ g.settled = false
        then { g with settled := true, fade := some (s.time.tick + 1), out := false } else g)) := by
  refine ⟨_, rfl, rfl, List.length_map _, fun i g hg => ?_⟩
  rw [List.getElem?_map, hg]
  simp only [Option.map_some, Bool.not_eq_true']

/-- A group whose rate is lost: it ramps out over the next tick, unless it was settling already. -/
def ConvGrp.rateLost (g : ConvGrp) (tick : Nat) : ConvGrp :=
  { g with settled := false, fade := if g.settled then some (tick + 1) else none, out := true }

/-- The groups of a list with the one of a key changed, where the change keeps key and count. -/
theorem convIndex_map {s t : State} {f : ConvGrp → ConvGrp} (ht : t.aud.conv = s.aud.conv.map f) (hkey : ∀ g, (f g).key = g.key)
    (hcount : ∀ g, (f g).count = g.count) (key : Nat) : t.convIndex key = s.convIndex key := by
  unfold State.convIndex
  rw [ht, List.takeWhile_map, List.foldl_map]
  simp only [Function.comp_def, hkey, hcount]

theorem asrcRateLoss_ramps_out (key : Nat) (s : State) (g : ConvGrp) (hg : s.convOf key = some g) (ha : g.asrc = true) :
    Completes (.asrcRateLoss key) s (fun t =>
      t.detq = s.detq ++ [⟨0x34, s.convIndex key / 4, s.convIndex key, 0, 0, s.mts, false, false, 0⟩]
      ∧ ∀ (i : Nat) (x : ConvGrp), s.aud.conv[i]? = some x → t.aud.conv[i]? = some (if x.key = key
          then { x with settled := false, fade := if x.settled then some (s.time.tick + 1) else none, out := true } else x)) := by
  have e : exec (.asrcRateLoss key) s = execAsrcRateLoss key s := rfl
  unfold execAsrcRateLoss at e
  rw [hg] at e
  dsimp only at e
  rw [if_neg (by rw [ha]; decide)] at e
  refine ⟨_, e, ?_, fun i x hx => ?_⟩
  · rw [detq_det, convIndex_map rfl]
    · rfl
    · intro g
      split <;> rfl
    · intro g
      split <;> rfl
  · show (s.aud.conv.map _)[i]? = _
    rw [List.getElem?_map, hx]
    rfl

/-- Settles O23: a group that is mixed marks its bit and writes no output (`mixGroup_marks`), and the collection takes no time
(`collect_marks`). -/
theorem matrixAsrcAndOutputsRunOnceATick : Obligations.MatrixAsrcAndOutputsRunOnceATick :=
  ⟨tileGroupProcess_takes_group, ⟨outputCollection_collects, exec_outputCollection_of_collected⟩, asrcSettled_ramps_in,
    asrcRateLoss_ramps_out⟩

end Sys2Proof.Machine
end

