-- ==== Sys2Proof/Proofs/StandpipeStores.lean ====
section
/-! The Standpipe's registers, message store and inputs (R79 - R83, R316, R441): SP_CONFIG, the staging and the store of messages, the
debouncing of ALARM inputs, and the fall back to flash. -/

namespace Sys2Proof.Machine

/-! ### SP_CONFIG (R82) -/

theorem spReg_inj {i j : Nat} (hi : i < 98) (hj : j < 98) (h : spReg i = spReg j) : i = j := by
  unfold spReg at h
  split_ifs at h <;> simp only [Prod.mk.injEq, reduceCtorEq, true_and, false_and] at h <;> omega

theorem spReg_mem (i : Nat) : (spReg i).1 ∈ [RegId.SP_CTL, .SP_TIMING, .SP_ZONE, .SP_WATCH_A, .SP_WATCH_B] := by
  unfold spReg
  split_ifs <;> simp

theorem spReg_lt {i : Nat} (hi : i < 98) : (spReg i).2 < 2048 := by
  unfold spReg
  split_ifs <;> dsimp only <;> omega

/-- Word i of an SP_CONFIG image is written. -/
def State.spPut (s : State) (c : Cmd) (i : Nat) : State := s.imgWrite (spReg i).1 (spReg i).2 (spWord c i)

theorem rr_spPut_same (s : State) (c : Cmd) (i : Nat) : (s.spPut c i).rr (spReg i).1 (spReg i).2
    = maskPut (s.rr (spReg i).1 (spReg i).2) (BitVec.ofNat 32 (spWord c i)) (accMask (spReg i).1 (· == .rw)) :=
  rr_rw_same s _ _ _

theorem rr_spPut_ne (s : State) (c : Cmd) {i j : Nat} (hi : i < 98) (hj : j < 98) (h : j ≠ i) :
    (s.spPut c j).rr (spReg i).1 (spReg i).2 = s.rr (spReg i).1 (spReg i).2 := by
  refine rr_rw_ne s _ fun e => h (spReg_inj hj hi ?_)
  obtain ⟨h1, h2⟩ := regKey_inj (spReg_lt hi) (spReg_lt hj) e
  exact (Prod.ext h1 h2).symm

theorem applySpConfig_writes (e : Entry) (s : State) : ∃ v, Ends e Sts.OK [] v (applySpConfig e s) ∧ v.sp = s.sp
    ∧ RegsKept [.SP_CTL, .SP_TIMING, .SP_ZONE, .SP_WATCH_A, .SP_WATCH_B] s v
    ∧ ∀ i, i < 98 → v.rr (spReg i).1 (spReg i).2
      = maskPut (s.rr (spReg i).1 (spReg i).2) (BitVec.ofNat 32 (spWord e.cmd i)) (accMask (spReg i).1 (· == .rw)) := by
  refine ⟨(List.range 98).foldl (fun s i => s.spPut e.cmd i) s, ⟨true, rfl⟩, ?_, ?_, fun i hi => ?_⟩
  · exact foldl_keeps (P := fun t => t.sp = s.sp) (fun t i ht => (rw_sp t _ _ _).trans ht) rfl _
  · exact foldl_frame (RegsKept _) (.refl _) .trans _ _
      (fun t i hi => regsKept_rw t _ _ _ (spReg_mem i) (spReg_lt (List.mem_range.mp hi))) s
  · obtain ⟨u, hu, ht⟩ := foldl_at_key (R := fun s t => t.rr (spReg i).1 (spReg i).2 = s.rr (spReg i).1 (spReg i).2)
      (fun _ => rfl) (fun h k => k.trans h) List.nodup_range (List.mem_range.mpr hi)
      (fun t j hj h => rr_spPut_ne t e.cmd hi (List.mem_range.mp hj) h) s
    rw [ht, rr_spPut_same, hu]

/-! ### Messages (R79, R80) -/

section
variable (s : State) (m : Nat)

@[simp] theorem msg_setMsg_same (x : Msg) : (s.setMsg m x).msg m = x := mget_mput_same _ _ _ _

theorem msg_setMsg_ne {n : Nat} (x : Msg) (h : n ≠ m) : (s.setMsg m x).msg n = s.msg n := mget_mput_ne _ _ _ _ h

theorem msg_of_msgs {s t : State} (h : t.sp.msgs = s.sp.msgs) (m : Nat) : t.msg m = s.msg m := by
  unfold State.msg
  rw [h]

end

theorem applySpMsgBlock_stages (e : Entry) (s : State) : ∃ v, Ends e Sts.OK [] v (applySpMsgBlock e s)
    ∧ (v.msg e.cmd.a).staged = memWrite (s.msg e.cmd.a).staged e.cmd.b (e.cmd.buf.take e.cmd.len)
    ∧ (v.msg e.cmd.a).inUse = (s.msg e.cmd.a).inUse ∧ (∀ m, m ≠ e.cmd.a → v.msg m = s.msg m) ∧ v.regs = s.regs := by
  refine ⟨_, ⟨false, rfl⟩, ?_, ?_, fun m hm => msg_setMsg_ne s _ _ hm, rfl⟩
  · rw [msg_setMsg_same]
  · rw [msg_setMsg_same]
    rfl

section
variable (x : Msg) (e : Entry)

theorem inUse_storing : (x.storing e).inUse = x.inUse := by
  unfold Msg.storing Msg.inUse
  dsimp only
  split <;> rfl

theorem other_storing : (x.storing e).other = x.staged.filter (fun p => decide (p.1 < 64 + msgBytes x.staged)) := by
  unfold Msg.storing Msg.other
  dsimp only
  split <;> rfl

/-- The flash slot a store fills holds the bytes of the staged message. -/
theorem memByte_other_storing {k : Nat} (hk : k < 64 + msgBytes x.staged) :
    memByte (x.storing e).other k = memByte x.staged k := by
  rw [other_storing]
  exact mget_filter (P := fun k => decide (k < 64 + msgBytes x.staged)) (decide_eq_true hk)

end

theorem applySpMsgCommit_stores (e : Entry) (s : State) (hs : (s.msg e.cmd.a).store = none) :
    (msgOk e.cmd.a (s.msg e.cmd.a).staged = false → Ends e Sts.SP_MSG_CRC [] s (applySpMsgCommit e s))
    ∧ (msgOk e.cmd.a (s.msg e.cmd.a).staged = true → s.storeUsed e.cmd.a + 64 + msgBytes (s.msg e.cmd.a).staged ≤ 0x4000000 →
      applySpMsgCommit e s = s.setMsg e.cmd.a ((s.msg e.cmd.a).storing e) ∧ ((applySpMsgCommit e s).msg e.cmd.a).store = some e
      ∧ ((applySpMsgCommit e s).msg e.cmd.a).inUse = (s.msg e.cmd.a).inUse
      ∧ ∀ k, k < 64 + msgBytes (s.msg e.cmd.a).staged →
        memByte ((applySpMsgCommit e s).msg e.cmd.a).other k = memByte (s.msg e.cmd.a).staged k) := by
  unfold applySpMsgCommit
  dsimp only
  rw [hs, if_neg (by decide)]
  refine ⟨fun h => ?_, fun h hroom => ?_⟩
  · rw [h, if_pos (by decide)]
    exact ⟨false, rfl⟩
  · rw [h, if_neg (by decide), if_neg (by omega), msg_setMsg_same]
    exact ⟨rfl, rfl, inUse_storing _ e, fun k hk => memByte_other_storing _ e hk⟩

/-- A message whose store has completed: the flash slots change roles, and LPDDR holds the new copy. -/
def Msg.stored (x : Msg) : Msg := { x with slot := 1 - x.slot, ddr := x.other, store := none }

theorem inUse_stored (x : Msg) : x.stored.inUse = x.other ∧ x.stored.other = x.inUse := by
  unfold Msg.stored Msg.inUse Msg.other
  dsimp only
  by_cases h : x.slot = 0
  · rw [if_neg (by omega), if_pos h, if_neg (by omega), if_pos h]
    exact ⟨rfl, rfl⟩
  · rw [if_pos (by omega), if_neg h, if_pos (by omega), if_neg h]
    exact ⟨rfl, rfl⟩

theorem sp_showMsg (s : State) (m : Nat) (ddr : Bool) : (s.showMsg m ddr).sp = s.sp := by
  unfold State.showMsg
  exact (fs_sp _ _ _ _).trans ((fs_sp _ _ _ _).trans ((fs_sp _ _ _ _).trans ((fs_sp _ _ _ _).trans (fs_sp _ _ _ _))))

theorem present_showMsg (s : State) {m : Nat} (hm : m < 16) (ddr : Bool) : (s.showMsg m ddr).fg F.SP_MSG_PRESENT m = 1
    ∧ (s.showMsg m ddr).fg F.SP_MSG_DDR_OK m = b2n ddr := by
  unfold State.showMsg
  extract_lets d
  constructor
  · rw [fg_fs_clear _ (by decide) (by omega) (by omega), fg_fs_clear _ (by decide) (by omega) (by omega),
      fg_fs_clear _ (by decide) (by omega) (by omega), fg_fs_clear _ (by decide) (by omega) (by omega),
      fg_fs_same _ _ _ _ (by decide) (by decide)]
    rfl
  · rw [fg_fs_clear _ (by decide) (by omega) (by omega), fg_fs_clear _ (by decide) (by omega) (by omega),
      fg_fs_same _ _ _ _ (by decide) (by decide)]
    cases ddr <;> rfl

/-- The voices that play message m go on from the previous copy to the end of their repetition. -/
def State.voicesOld (s : State) (m : Nat) : State := (List.range 16).foldl (fun s v =>
  if (s.voice v).busy ∧ (s.voice v).msg = m then s.setVoice v { s.voice v with old := true, flash := false } else s) s

theorem msg_voicesOld (s : State) (m n : Nat) : (s.voicesOld m).msg n = s.msg n := by
  refine foldl_keeps (P := fun t => t.msg n = s.msg n) (fun t v ht => ?_) rfl _
  split <;> exact ht

theorem spMsgStoreComplete_verified (m : Nat) (s : State) (e : Entry) (hm : m < 16) (hs : (s.msg m).store = some e) :
    Completes (.spMsgStoreComplete m true) s (fun t => ∃ v, Ends e Sts.OK [] v t ∧ v.fg F.SP_MSG_PRESENT m = 1
      ∧ v.fg F.SP_MSG_DDR_OK m = 1 ∧ (v.msg m).store = none ∧ (v.msg m).slot = 1 - (s.msg m).slot
      ∧ (v.msg m).inUse = (s.msg m).other ∧ (v.msg m).ddr = (s.msg m).other ∧ (v.msg m).other = (s.msg m).inUse) := by
  have e1 : exec (.spMsgStoreComplete m true) s = execSpMsgStoreComplete m true s := rfl
  unfold execSpMsgStoreComplete at e1
  dsimp only at e1
  rw [hs] at e1
  dsimp only at e1
  rw [if_neg (by decide)] at e1
  obtain ⟨hp, hd⟩ := present_showMsg ((s.setMsg m (s.msg m).stored).voicesOld m) hm true
  have hv : (((s.setMsg m (s.msg m).stored).voicesOld m).showMsg m true).msg m = (s.msg m).stored := by
    rw [msg_of_msgs (congrArg SpSt.msgs (sp_showMsg _ m true)), msg_voicesOld, msg_setMsg_same]
  refine ⟨_, e1, ((s.setMsg m (s.msg m).stored).voicesOld m).showMsg m true, ⟨true, rfl⟩, hp, hd, ?_⟩
  rw [hv]
  exact ⟨rfl, rfl, (inUse_stored _).1, rfl, (inUse_stored _).2⟩

theorem spMsgStoreComplete_failed (m : Nat) (s : State) (e : Entry) (_ : m < 16) (hs : (s.msg m).store = some e) :
    Completes (.spMsgStoreComplete m false) s (fun t => ∃ v, Ends e Sts.SP_MSG_CRC [] v t ∧ v.regs = s.regs
      ∧ (v.msg m).store = none ∧ (v.msg m).inUse = (s.msg m).inUse) := by
  have e1 : exec (.spMsgStoreComplete m false) s = execSpMsgStoreComplete m false s := rfl
  unfold execSpMsgStoreComplete at e1
  dsimp only at e1
  rw [hs] at e1
  dsimp only at e1
  rw [if_pos (by decide)] at e1
  refine ⟨_, e1, _, ⟨false, rfl⟩, rfl, ?_, ?_⟩
  · rw [msg_setMsg_same]
  · rw [msg_setMsg_same]
    rfl

/-! ### ALARM inputs (R83, R441) -/

theorem alarmInputChange_starts_debounce (n : Nat) (active : Bool) (dt : Nat) (s : State) (hn : n < 8)
    (hr : s.sp.raw.testBit n ≠ active) (ha : (s.fg F.SP_STAT_ALARM 0).testBit n ≠ active) :
    Completes (.alarmInputChange n active dt) s (fun t => t.sp.raw.testBit n = active
      ∧ mget 0 t.sp.deb n = (s.elapse dt).time.up + s.fg F.SP_CTL_DEBOUNCE 0 * msNs + 1
      ∧ t.regs = s.regs ∧ t.sp.zones = s.sp.zones) := by
  have e : exec (.alarmInputChange n active dt) s = execAlarmInputChange n active dt s := rfl
  have hsp : (s.elapse dt).sp = s.sp := (elapse_works s dt).sp
  have hregs := regs_elapse s dt
  unfold execAlarmInputChange at e
  dsimp only at e
  rw [hsp, if_neg (not_or.mpr ⟨by omega, hr⟩), fg_of_regs hregs, beq_false_of_ne ha, if_neg (by decide), fg_of_regs hregs] at e
  refine ⟨_, e, ?_, ?_, hregs, rfl⟩
  · exact testBit_setBit_same _ n active
  · simp

theorem debounceExpiry_shows (n : Nat) (s : State) (hn : n < 8) (h0 : mget 0 s.sp.deb n ≠ 0) (ht : mget 0 s.sp.deb n ≤ s.time.up + 1) :
    Completes (.debounceExpiry n) s (fun t => (t.fg F.SP_STAT_ALARM 0).testBit n = s.sp.raw.testBit n ∧ mget 0 t.sp.deb n = 0
      ∧ mget 0 t.sp.since n = s.time.up
      ∧ (∀ m, m < 8 → m ≠ n → (t.fg F.SP_STAT_ALARM 0).testBit m = (s.fg F.SP_STAT_ALARM 0).testBit m)
      ∧ RegsKept [.SP_STAT] s t) := by
  have e : exec (.debounceExpiry n) s = execDebounceExpiry n s := rfl
  unfold execDebounceExpiry at e
  dsimp only at e
  rw [if_neg (by omega)] at e
  have hlt : setBit (s.fg F.SP_STAT_ALARM 0) n (s.sp.raw.testBit n) < 2 ^ 8 := setBit_lt _ (fg_lt s F.SP_STAT_ALARM 0) hn
  have hfg : (s.fs F.SP_STAT_ALARM 0 (setBit (s.fg F.SP_STAT_ALARM 0) n (s.sp.raw.testBit n))).fg F.SP_STAT_ALARM 0
      = setBit (s.fg F.SP_STAT_ALARM 0) n (s.sp.raw.testBit n) := by
    rw [fg_fs_same _ _ _ _ (by decide) (by decide)]
    exact Nat.mod_eq_of_lt hlt
  refine ⟨_, e, ?_, ?_, ?_, fun m _ hm => ?_, regsKept_fs s F.SP_STAT_ALARM 0 _ (by decide) (by decide)⟩
  · exact (congrArg (Nat.testBit · n) hfg).trans (testBit_setBit_same _ n _)
  · simp
  · simp
  · exact (congrArg (Nat.testBit · m) hfg).trans ((testBit_setBit _ n _ m).trans (if_neg hm))

/-! ### The fall back to flash (R81, R316) -/

theorem eccRead_of_uncorrectable {s : State} {w : WordId} {syn : Nat} (h : eccDecide (s.effSyn w syn) = 2) (req : Nat) :
    s.eccRead w syn req = (2, s.foundUe w (s.effSyn w syn) req) := by
  unfold State.eccRead
  dsimp only
  rw [h]
  rfl

theorem detq_foundUe (s : State) (w : WordId) (syn req : Nat) :
    (s.foundUe w syn req).detq = s.detq ++ [⟨0x01, w.log, w.inst, req, syn, s.mts, false, false, 0⟩] := by
  have hc : (s.countUe w).detq = s.detq := by
    unfold State.countUe
    split_ifs <;> exact fadd_detq s _ _ _
  have hl : ∀ s : State, (s.eccLog w true req syn).detq = s.detq := fun s => by
    unfold State.eccLog
    extract_lets l e full l' x t u
    have hu : u.detq = s.detq := fs_detq t _ _ _
    split
    · exact (fadd_detq u _ _ _).trans hu
    · exact hu
  have hm : ((s.countUe w).eccLog w true req syn).mts = s.mts :=
    mts_of_time ((eccOnly_countUe s w).trans (eccOnly_eccLog _ w true req syn)).time
  show (((s.countUe w).eccLog w true req syn).det 0x01 w.log w.inst req syn).detq = _
  rw [detq_det, hl, hc, hm]

theorem voice_of_sp {s t : State} (h : t.sp = s.sp) (v : Nat) : t.voice v = s.voice v := by
  unfold State.voice
  rw [h]

@[simp] theorem voice_setVoice_same (s : State) (v : Nat) (x : Voice) : (s.setVoice v x).voice v = x := mget_mput_same _ _ _ _

theorem voiceFlashFallback_falls_back (v : Nat) (w : WordId) (syn : Nat) (s : State) (hv : v < 16) (hb : (s.voice v).busy = true)
    (hm : (s.voice v).msg < 16) (hw : w.log = 7) (hd : eccDecide (s.effSyn w syn) = 2) :
    Completes (.voiceFlashFallback ⟨v, w, syn⟩) s (fun t =>
      t.detq = s.detq ++ [⟨0x01, w.log, w.inst, 5, s.effSyn w syn, s.mts, false, false, 0⟩] ∧ (t.voice v).flash = true
      ∧ (t.voice v).pos = (s.voice v).pos ∧ t.fg F.SP_STAT_FLASH_ONLY 0 = 1 ∧ t.fg F.SP_MSG_DDR_OK (s.voice v).msg = 0) := by
  have e : exec (.voiceFlashFallback ⟨v, w, syn⟩) s = execVoiceFlashFallback ⟨v, w, syn⟩ s := rfl
  unfold execVoiceFlashFallback at e
  dsimp only at e
  rw [eccRead_of_uncorrectable hd, hb, hw, if_neg (by simp; omega)] at e
  dsimp only at e
  rw [if_neg (by decide)] at e
  refine ⟨_, e, ?_, ?_, ?_, ?_, ?_⟩
  · rw [fs_detq, fs_detq]
    exact detq_foundUe s w _ 5
  · rw [voice_of_sp (fs_sp _ _ _ _), voice_of_sp (fs_sp _ _ _ _), voice_setVoice_same]
  · rw [voice_of_sp (fs_sp _ _ _ _), voice_of_sp (fs_sp _ _ _ _), voice_setVoice_same]
  · rw [fg_fs_clear _ (by decide) (by omega) (by omega), fg_fs_same _ _ _ _ (by decide) (by decide)]
    rfl
  · rw [fg_fs_same _ _ _ _ (by decide) (by decide)]
    rfl

end Sys2Proof.Machine
end

