-- ==== Sys2Proof/Proofs/StandpipePlays.lean ====
section
/-! The Standpipe's plays (R82 - R86): what leaving and joining a zone does, SP_PLAY and SP_STOP, the watch and repetition timers, and
the obligation assembled. -/

namespace Sys2Proof.Machine

/-! ### Zones and voices -/

section
variable (s : State) (z : Nat) (x : Zone)

@[simp] theorem zone_setZone_same : (s.setZone z x).zone z = x := mget_mput_same _ _ _ _

theorem zone_setZone_ne {y : Nat} (h : y ≠ z) : (s.setZone z x).zone y = s.zone y := mget_mput_ne _ _ _ _ h

end

theorem zone_of_sp {s t : State} (h : t.sp = s.sp) (z : Nat) : t.zone z = s.zone z := by
  unfold State.zone
  rw [h]

theorem sp_showSp (s : State) : s.showSp.sp = s.sp := (fs_sp _ _ _ _).trans (fs_sp _ _ _ _)

theorem mem_zonesOf {s : State} {v z : Nat} : z ∈ s.zonesOf v ↔ z < 32 ∧ (s.zone z).voice = some v := by
  unfold State.zonesOf
  rw [List.mem_filter, List.mem_range, beq_iff_eq]

/-- A mask of one zone. -/
theorem bitList_two_pow {n z : Nat} (hz : z < n) : bitList n (2 ^ z) = [z] := by
  have hn : (bitList n (2 ^ z)).Nodup := List.nodup_range.filter _
  have hm : ∀ i, i ∈ bitList n (2 ^ z) ↔ i = z := fun i => by
    rw [mem_bitList, Nat.testBit_two_pow, decide_eq_true_eq]
    omega
  match h : bitList n (2 ^ z) with
  | [] => simpa [h] using hm z
  | [i] => rw [(hm i).mp (by simp [h])]
  | i :: j :: l =>
    have hi := (hm i).mp (by simp [h])
    have hj := (hm j).mp (by simp [h])
    rw [h, hi, hj] at hn
    simp at hn

/-! ### A voice leaves a zone -/

/-- Only the Standpipe's zones may differ. -/
structure ZonesOnly (s t : State) : Prop where
  state : t = { s with sp := { s.sp with zones := t.sp.zones } }

section
variable {s t u : State}

theorem ZonesOnly.refl (s : State) : ZonesOnly s s := ⟨rfl⟩

theorem ZonesOnly.trans (h : ZonesOnly s t) (k : ZonesOnly t u) : ZonesOnly s u := ⟨by rw [k.state, h.state]⟩

theorem ZonesOnly.voices (h : ZonesOnly s t) : t.sp.voices = s.sp.voices := by rw [h.state]

theorem ZonesOnly.ends (h : ZonesOnly s t) : t.sp.ends = s.sp.ends := by rw [h.state]

theorem ZonesOnly.tails (h : ZonesOnly s t) : t.sp.tails = s.sp.tails := by rw [h.state]

theorem ZonesOnly.regs (h : ZonesOnly s t) : t.regs = s.regs := by rw [h.state]

theorem ZonesOnly.time (h : ZonesOnly s t) : t.time = s.time := by rw [h.state]

theorem ZonesOnly.voice (h : ZonesOnly s t) (v : Nat) : t.voice v = s.voice v := by
  unfold State.voice
  rw [h.voices]

theorem ZonesOnly.foldl {f : State → Nat → State} (hf : ∀ s a, ZonesOnly s (f s a)) (l : List Nat) (s : State) :
    ZonesOnly s (l.foldl f s) :=
  foldl_keeps (P := ZonesOnly s) (fun t a h => h.trans (hf t a)) (.refl s) l

theorem zonesOnly_setZone (s : State) (z : Nat) (x : Zone) : ZonesOnly s (s.setZone z x) := ⟨rfl⟩

end

section
variable (s : State)

theorem spRamp_of_regs {s t : State} (h : t.regs = s.regs) : t.spRamp = s.spRamp := by
  unfold State.spRamp
  rw [fg_of_regs h]

theorem duckTarget_of_regs {s t : State} (h : t.regs = s.regs) (z : Nat) : t.duckTarget z = s.duckTarget z := by
  unfold State.duckTarget
  rw [fg_of_regs h]

theorem duckNow_of_duck {s t : State} {z : Nat} (h : (t.zone z).duck = (s.zone z).duck) (ht : t.time = s.time) :
    t.duckNow z = s.duckNow z := by
  unfold State.duckNow
  rw [h, ht]

/-- A zone that voice v leaves (R84): the voice fades out and the duck gain returns to 0 dB over RAMP. -/
def State.zoneLeft (s : State) (z v : Nat) : Zone := { s.zone z with
  voice := none, auto := false, heard := false, oldV := some v, oldT := false,
  vGain := some ⟨1048576, 0, s.time.tick, s.spRamp, 0⟩, duck := some ⟨s.duckNow z, 1048576, s.time.tick, s.spRamp, 0⟩ }

theorem leaveZone_of_none {z : Nat} (h : (s.zone z).voice = none) : s.leaveZone z = s := by
  unfold State.leaveZone
  dsimp only
  rw [h]

theorem leaveZone_of_some {z v : Nat} (h : (s.zone z).voice = some v) : s.leaveZone z = s.setZone z (s.zoneLeft z v) := by
  unfold State.leaveZone
  dsimp only
  rw [h]
  rfl

theorem zonesOnly_leaveZone (z : Nat) : ZonesOnly s (s.leaveZone z) := by
  match h : (s.zone z).voice with
  | none => rw [leaveZone_of_none s h]; exact .refl s
  | some v => rw [leaveZone_of_some s h]; exact zonesOnly_setZone s z _

theorem zone_leaveZone_ne {z y : Nat} (h : y ≠ z) : (s.leaveZone z).zone y = s.zone y := by
  match hv : (s.zone z).voice with
  | none => rw [leaveZone_of_none s hv]
  | some v => rw [leaveZone_of_some s hv, zone_setZone_ne s z _ h]

theorem voice_leaveZone_same (z : Nat) : ((s.leaveZone z).zone z).voice = none := by
  match hv : (s.zone z).voice with
  | none => rw [leaveZone_of_none s hv, hv]
  | some v => rw [leaveZone_of_some s hv, zone_setZone_same]; rfl

/-- A zone in which nothing plays stays as it is when voices leave zones. -/
theorem zone_leaveZone_of_none {z y : Nat} (h : (s.zone y).voice = none) : (s.leaveZone z).zone y = s.zone y := by
  by_cases e : y = z
  · rw [e] at h ⊢
    rw [leaveZone_of_none s h]
  · exact zone_leaveZone_ne s e

/-! ### A voice that no zone plays is free -/

theorem zone_tidyVoice (v z : Nat) : (s.tidyVoice v).zone z = s.zone z := by
  unfold State.tidyVoice
  dsimp only
  split_ifs <;> rfl

theorem tidyVoice_of_mem {v z : Nat} (h : z ∈ s.zonesOf v) : s.tidyVoice v = s := by
  unfold State.tidyVoice
  dsimp only
  rw [if_neg fun e => by rw [List.isEmpty_iff.mp e] at h; exact absurd h (List.not_mem_nil)]

theorem busy_tidyVoice {v : Nat} (h : s.zonesOf v = []) : ((s.tidyVoice v).voice v).busy = false := by
  unfold State.tidyVoice
  dsimp only
  rw [h, if_pos List.isEmpty_nil, voice_setVoice_same]

end

/-! ### A play begins and ends -/

/-- Registers, time and the ends of plays stand, and so do each zone's voice, its owner and its duck gain. -/
structure PlaysKept (s t : State) : Prop where
  regs : t.regs = s.regs
  time : t.time = s.time
  ends : t.sp.ends = s.sp.ends
  voice : ∀ z, (t.zone z).voice = (s.zone z).voice
  auto : ∀ z, (t.zone z).auto = (s.zone z).auto
  duck : ∀ z, (t.zone z).duck = (s.zone z).duck

theorem PlaysKept.refl (s : State) : PlaysKept s s := ⟨rfl, rfl, rfl, fun _ => rfl, fun _ => rfl, fun _ => rfl⟩

theorem PlaysKept.setZone {s t : State} (h : PlaysKept s t) (z : Nat) (x : Zone) (hv : x.voice = (t.zone z).voice)
    (ha : x.auto = (t.zone z).auto) (hd : x.duck = (t.zone z).duck) : PlaysKept s (t.setZone z x) := by
  have at_z : ∀ {α : Type} (f : Zone → α) (_ : f x = f (t.zone z)) (y : Nat), f ((t.setZone z x).zone y) = f (t.zone y) := by
    intro α f hf y
    by_cases e : y = z
    · rw [e, zone_setZone_same, hf]
    · rw [zone_setZone_ne t z x e]
  exact ⟨h.regs, h.time, h.ends, fun y => (at_z Zone.voice hv y).trans (h.voice y),
    fun y => (at_z Zone.auto ha y).trans (h.auto y), fun y => (at_z Zone.duck hd y).trans (h.duck y)⟩

theorem PlaysKept.tails {s t : State} (h : PlaysKept s t) (m : AMap Voice) :
    PlaysKept s { t with sp := { t.sp with tails := m } } :=
  ⟨h.regs, h.time, h.ends, h.voice, h.auto, h.duck⟩

theorem PlaysKept.setVoice {s t : State} (h : PlaysKept s t) (v : Nat) (x : Voice) : PlaysKept s (t.setVoice v x) :=
  ⟨h.regs, h.time, h.ends, h.voice, h.auto, h.duck⟩

section
variable (s : State) (v : Nat)

/-- The earlier play of voice v, fading in some zones still, gives its place up to another (R84, R86). -/
def State.tailsLeft (s : State) (v : Nat) : State := (List.range 32).foldl (fun s z =>
  let x := s.zone z
  if x.oldV ≠ some v then s
  else if x.oldT then s.setZone z { x with oldV := none, vGain := none, oldT := false }
  else s.setZone z { x with oldT := true }) s

theorem playsKept_tailsLeft : PlaysKept s (s.tailsLeft v) := by
  refine foldl_keeps (P := PlaysKept s) (fun t z h => ?_) (.refl s) _
  dsimp only
  split_ifs
  · exact h
  · exact h.setZone z _ rfl rfl rfl
  · exact h.setZone z _ rfl rfl rfl

theorem playsKept_startVoice (m : Nat) (auto : Bool) (reps seq : Nat) : PlaysKept s (s.startVoice v m auto reps seq) := by
  unfold State.startVoice
  refine PlaysKept.setVoice ?_ v _
  split
  · extract_lets t
    have ht : PlaysKept s t := playsKept_tailsLeft s v
    exact ht.tails _
  · exact .refl s

theorem voice_startVoice (m : Nat) (auto : Bool) (reps seq : Nat) : (s.startVoice v m auto reps seq).voice v
    = { Voice.idle with busy := true, auto := auto, msg := m, left := reps, seq := seq } :=
  voice_setVoice_same _ v _

theorem zone_endPlay_of_none (status : Nat) {z : Nat} (h : (s.zone z).voice = none) :
    (s.endPlay v status).zone z = s.zone z := by
  have hz : ((s.zonesOf v).foldl State.leaveZone s).zone z = s.zone z :=
    foldl_keeps (P := fun t => t.zone z = s.zone z)
      (fun t y ht => (zone_leaveZone_of_none t (by rw [ht, h])).trans ht) rfl _
  exact hz

theorem ends_endPlay (status : Nat) : mget (0, 0) (s.endPlay v status).sp.ends v = ((s.voice v).seq, status) := by
  have hv := (ZonesOnly.foldl zonesOnly_leaveZone (s.zonesOf v) s).voice v
  unfold State.endPlay
  dsimp only
  rw [hv]
  exact mget_mset_false _ _ _ _

theorem zonesOnly_joinZone (z : Nat) (auto : Bool) : ZonesOnly s (s.joinZone z v auto) :=
  (zonesOnly_leaveZone s z).trans (zonesOnly_setZone _ z _)

/-- A zone in which nothing plays takes voice v, under its duck ramp (R84). -/
theorem zone_joinZone_of_none {z : Nat} (auto : Bool) (h : (s.zone z).voice = none) :
    ((s.joinZone z v auto).zone z).voice = some v ∧ ((s.joinZone z v auto).zone z).auto = auto
      ∧ ((s.joinZone z v auto).zone z).duck = some ⟨s.duckNow z, s.duckTarget z, s.time.tick, s.spRamp, 0⟩ := by
  unfold State.joinZone
  dsimp only
  rw [leaveZone_of_none s h, zone_setZone_same]
  exact ⟨rfl, rfl, rfl⟩

end

/-! ### SP_PLAY (R84) -/

/-- The voice and the zones of an SP_PLAY, its voice free: the message starts and joins the one zone named, in which nothing
plays. -/
theorem play_in_free_zone (s : State) (v m reps seq : Nat) {z : Nat} (hz : z < 32) (h : (s.zone z).voice = none) :
    ∀ t, t = ((s.startVoice v m false reps seq).joinZone z v false) → t.tidyVoice v = t ∧ t.sp.ends = s.sp.ends
      ∧ t.voice v = { Voice.idle with busy := true, auto := false, msg := m, left := reps, seq := seq }
      ∧ (t.zone z).voice = some v ∧ (t.zone z).auto = false
      ∧ (t.zone z).duck = some ⟨s.duckNow z, s.duckTarget z, s.time.tick, s.spRamp, 0⟩ := by
  rintro t rfl
  have k := playsKept_startVoice s v m false reps seq
  have j := zonesOnly_joinZone (s.startVoice v m false reps seq) v z false
  obtain ⟨hv, ha, hd⟩ := zone_joinZone_of_none (s.startVoice v m false reps seq) v false ((k.voice z).trans h)
  rw [duckNow_of_duck (k.duck z) k.time, duckTarget_of_regs k.regs, spRamp_of_regs k.regs, k.time] at hd
  exact ⟨tidyVoice_of_mem _ (mem_zonesOf.mpr ⟨hz, hv⟩), j.ends.trans k.ends, (j.voice v).trans (voice_startVoice s v _ _ _ _),
    hv, ha, hd⟩

/-- An SP_PLAY to one zone in which nothing plays, on the state its voice is free in. -/
theorem applySpPlay_one_zone (e : Entry) (s s₁ : State) {z : Nat} (hz : z < 32) (hb : e.cmd.b = 2 ^ z)
    (hok : (chkSpPlay e.cmd s).1 = Sts.OK)
    (h₁ : s₁ = if (s.voice (e.cmd.a % 16)).busy then s.endPlay (e.cmd.a % 16) Sts.SP_PREEMPTED else s)
    (h : (s₁.zone z).voice = none) :
    applySpPlay e s = (((s₁.startVoice (e.cmd.a % 16) (bits e.cmd.a 11 8) false (bits e.cmd.a 23 16) e.seq).joinZone z
      (e.cmd.a % 16) false).showSp).finish e Sts.OK [0] false := by
  have k := playsKept_startVoice s₁ (e.cmd.a % 16) (bits e.cmd.a 11 8) false (bits e.cmd.a 23 16) e.seq
  have hn := (k.voice z).trans h
  obtain ⟨ht, -⟩ := play_in_free_zone s₁ (e.cmd.a % 16) (bits e.cmd.a 11 8) (bits e.cmd.a 23 16) e.seq hz h _ rfl
  unfold applySpPlay
  dsimp only
  rw [if_neg (by simpa using hok), ← h₁, hb, bitList_two_pow hz]
  simp only [List.filter_cons, List.filter_nil, hn, Option.isSome_none, Bool.false_and, Bool.false_eq_true, if_false,
    List.foldl_cons, List.foldl_nil, List.not_mem_nil]
  rw [ht]

theorem applySpPlay_plays (e : Entry) (s : State) :
    ((chkSpPlay e.cmd s).1 ≠ Sts.OK → Ends e (chkSpPlay e.cmd s).1 (chkSpPlay e.cmd s).2 s (applySpPlay e s))
    ∧ (∀ z, (chkSpPlay e.cmd s).1 = Sts.OK → z < 32 → e.cmd.b = 2 ^ z → (s.zone z).voice = none →
        (s.voice (e.cmd.a % 16)).busy = false → ∃ v, Ends e Sts.OK [0] v (applySpPlay e s)
          ∧ (v.zone z).voice = some (e.cmd.a % 16) ∧ (v.zone z).auto = false
          ∧ (v.zone z).duck = some ⟨s.duckNow z, s.duckTarget z, s.time.tick, s.spRamp, 0⟩
          ∧ (v.voice (e.cmd.a % 16)).busy = true ∧ (v.voice (e.cmd.a % 16)).msg = bits e.cmd.a 11 8
          ∧ (v.voice (e.cmd.a % 16)).left = bits e.cmd.a 23 16 ∧ (v.voice (e.cmd.a % 16)).pos = 0)
    ∧ ∀ z, (chkSpPlay e.cmd s).1 = Sts.OK → z < 32 → e.cmd.b = 2 ^ z → (s.zone z).voice = none →
        (s.voice (e.cmd.a % 16)).busy = true → ∃ v r, Ends e Sts.OK r v (applySpPlay e s)
          ∧ mget (0, 0) v.sp.ends (e.cmd.a % 16) = ((s.voice (e.cmd.a % 16)).seq, Sts.SP_PREEMPTED) := by
  refine ⟨fun h => ?_, fun z hok hz hb hn hf => ?_, fun z hok hz hb hn hf => ?_⟩
  · unfold applySpPlay
    dsimp only
    rw [if_pos h]
    exact ⟨false, rfl⟩
  · obtain ⟨-, -, hv, hzv, hza, hzd⟩ := play_in_free_zone s (e.cmd.a % 16) (bits e.cmd.a 11 8) (bits e.cmd.a 23 16) e.seq hz hn _ rfl
    refine ⟨_, ⟨false, applySpPlay_one_zone e s s hz hb hok (by rw [hf]; rfl) hn⟩, ?_⟩
    rw [zone_of_sp (sp_showSp _), voice_of_sp (sp_showSp _), hv]
    exact ⟨hzv, hza, hzd, rfl, rfl, rfl, rfl⟩
  · have hn' : ((s.endPlay (e.cmd.a % 16) Sts.SP_PREEMPTED).zone z).voice = none := by rw [zone_endPlay_of_none s _ _ hn, hn]
    obtain ⟨-, he, -⟩ := play_in_free_zone (s.endPlay (e.cmd.a % 16) Sts.SP_PREEMPTED) (e.cmd.a % 16) (bits e.cmd.a 11 8)
      (bits e.cmd.a 23 16) e.seq hz hn' _ rfl
    refine ⟨_, [0], ⟨false, applySpPlay_one_zone e s _ hz hb hok (by rw [hf, if_pos rfl]) hn'⟩, ?_⟩
    rw [sp_showSp, he]
    exact ends_endPlay s _ _

/-! ### SP_STOP, the watch timers and the end of a repetition (R83, R85, R86) -/

/-- Zones other than z are as they were after voice v left z and was tidied. -/
theorem zone_left_and_tidied (s : State) (z v : Nat) (y : Nat) :
    (((s.leaveZone z).tidyVoice v).showSp).zone y = (s.leaveZone z).zone y := by
  rw [zone_of_sp (sp_showSp _), zone_tidyVoice]

/-- A zone that its voice w leaves, and every other zone. -/
theorem left_one_zone (s : State) {z w : Nat} (hw : (s.zone z).voice = some w) : ((s.leaveZone z).zone z).voice = none
    ∧ ((s.leaveZone z).zone z).oldV = some w ∧ ((s.leaveZone z).zone z).vGain = some ⟨1048576, 0, s.time.tick, s.spRamp, 0⟩
    ∧ ((s.leaveZone z).zone z).duck = some ⟨s.duckNow z, 1048576, s.time.tick, s.spRamp, 0⟩
    ∧ ∀ y, y ≠ z → (s.leaveZone z).zone y = s.zone y := by
  rw [leaveZone_of_some s hw, zone_setZone_same]
  exact ⟨rfl, rfl, rfl, rfl, fun y hy => zone_setZone_ne s z _ hy⟩

/-- A zone put with its voice and its duck gain unchanged is left as the zone itself is. -/
theorem setZone_then_left (s : State) {z w : Nat} {x : Zone} (hw : x.voice = some w) (hd : x.duck = (s.zone z).duck) :
    (((s.setZone z x).leaveZone z).zone z).voice = none ∧ (((s.setZone z x).leaveZone z).zone z).oldV = some w
    ∧ (((s.setZone z x).leaveZone z).zone z).vGain = some ⟨1048576, 0, s.time.tick, s.spRamp, 0⟩
    ∧ (((s.setZone z x).leaveZone z).zone z).duck = some ⟨s.duckNow z, 1048576, s.time.tick, s.spRamp, 0⟩
    ∧ ∀ y, y ≠ z → ((s.setZone z x).leaveZone z).zone y = s.zone y := by
  obtain ⟨h₁, h₂, h₃, h₄, h₅⟩ := left_one_zone (s.setZone z x) ((congrArg Zone.voice (zone_setZone_same s z x)).trans hw)
  rw [duckNow_of_duck ((congrArg Zone.duck (zone_setZone_same s z x)).trans hd) rfl] at h₄
  exact ⟨h₁, h₂, h₃, h₄, fun y hy => (h₅ y hy).trans (zone_setZone_ne s z x hy)⟩

theorem applySpStop_stops (e : Entry) (s : State) :
    ((chkSpStop e.cmd s).1 ≠ Sts.OK → Ends e (chkSpStop e.cmd s).1 (chkSpStop e.cmd s).2 s (applySpStop e s))
    ∧ ∀ z w, (chkSpStop e.cmd s).1 = Sts.OK → z < 32 → e.cmd.b = 2 ^ z → (s.zone z).voice = some w → ∃ v,
      Ends e Sts.OK [] v (applySpStop e s)
        ∧ (v.zone z).voice = none ∧ (v.zone z).oldV = some w
        ∧ (v.zone z).vGain = some ⟨1048576, 0, s.time.tick, s.spRamp, 0⟩
        ∧ (v.zone z).duck = some ⟨s.duckNow z, 1048576, s.time.tick, s.spRamp, 0⟩
        ∧ ∀ y, y ≠ z → v.zone y = s.zone y := by
  constructor
  · intro h
    unfold applySpStop
    dsimp only
    rw [if_pos h]
    exact ⟨false, rfl⟩
  · intro z w hok hz hb hw
    unfold applySpStop
    dsimp only
    rw [if_neg (by simpa using hok), hb, bitList_two_pow hz, List.foldl_cons, List.foldl_nil, hw]
    dsimp only
    refine ⟨_, ⟨false, rfl⟩, ?_⟩
    simp only [zone_left_and_tidied]
    split_ifs
    · exact setZone_then_left s rfl rfl
    · exact left_one_zone s hw

theorem watchLossExpiry_loses (z : Nat) (s : State) (hz : z < 32) (h : s.lossDue z = true) :
    exec (.watchLossExpiry z) s = .next (s.setZone z { s.zone z with lost := true }) := by
  have e : exec (.watchLossExpiry z) s = execWatchLossExpiry z s := rfl
  unfold execWatchLossExpiry at e
  rwa [if_pos ⟨hz, h⟩] at e

theorem watchReturnExpiry_ends (z v : Nat) (s : State) (hz : z < 32) (ha : (s.zone z).auto = true) (hr : s.returnDue z = true)
    (hv : (s.zone z).voice = some v) : Completes (.watchReturnExpiry z) s (fun t => (t.zone z).voice = none
      ∧ (t.zone z).oldV = some v ∧ (t.zone z).auto = false ∧ ∀ y, y ≠ z → t.zone y = s.zone y) := by
  have e : exec (.watchReturnExpiry z) s = execWatchReturnExpiry z s := rfl
  unfold execWatchReturnExpiry at e
  dsimp only at e
  rw [if_pos ⟨hz, ha, hr⟩, hv] at e
  refine ⟨_, e, ?_⟩
  simp only [zone_left_and_tidied]
  obtain ⟨hn, ho, -, -, hk⟩ := left_one_zone s hv
  refine ⟨hn, ho, ?_, hk⟩
  rw [leaveZone_of_some s hv, zone_setZone_same]
  rfl

/-- The zones of voice v whose play does not go on are left at the end of a repetition. -/
def State.zonesStop (s : State) (v : Nat) (x : Voice) : State :=
  (s.zonesOf v).foldl (fun s z => if s.zoneGoesOn z x then s else s.leaveZone z) s

theorem zonesOf_zonesStop (s : State) (v : Nat) (x : Voice) (ha : x.auto = false) (hl : x.left = 1) :
    (s.zonesStop v x).zonesOf v = [] := by
  have hgo : ∀ (t : State) z, t.zoneGoesOn z x = false := fun t z => by
    unfold State.zoneGoesOn
    rw [ha, hl]
    rfl
  have hf : s.zonesStop v x = (s.zonesOf v).foldl State.leaveZone s := by
    unfold State.zonesStop
    simp only [hgo, Bool.false_eq_true, if_false]
  have hstay : ∀ (l : List Nat) (t : State) z, z ∉ l → ((l.foldl State.leaveZone t).zone z) = t.zone z := fun l t z hz =>
    foldl_frame (fun a b => b.zone z = a.zone z) (fun _ => rfl) (fun h k => k.trans h) _ _
      (fun u y hy => zone_leaveZone_ne u fun e => hz (by rwa [e])) t
  have hnd : (s.zonesOf v).Nodup := List.nodup_range.filter _
  have hleft : ∀ z ∈ s.zonesOf v, (((s.zonesOf v).foldl State.leaveZone s).zone z).voice = none := fun z hz => by
    obtain ⟨u, -, ht⟩ := foldl_at_key (R := fun a b => b.zone z = a.zone z) (fun _ => rfl) (fun h k => k.trans h)
      hnd hz (fun t y _ h => zone_leaveZone_ne t (Ne.symm h)) s
    exact (congrArg Zone.voice ht).trans (voice_leaveZone_same u z)
  rw [hf, List.eq_nil_iff_forall_not_mem]
  intro z hz
  obtain ⟨hz32, hv⟩ := mem_zonesOf.mp hz
  by_cases hm : z ∈ s.zonesOf v
  · rw [hleft z hm] at hv
    exact absurd hv (by simp)
  · rw [hstay _ _ _ hm] at hv
    exact hm (mem_zonesOf.mpr ⟨hz32, hv⟩)

theorem repetitionEnd_frees (v : Nat) (s : State) (hv : v < 16) (hb : (s.voice v).busy = true) (hg : (s.voice v).again = false)
    (hp : msgLen (s.voiceCopy (s.voice v)) ≤ (s.voice v).pos) (hl : (s.voice v).left = 1) (ha : (s.voice v).auto = false) :
    Completes (.repetitionEnd v) s (fun t => (t.voice v).busy = false ∧ ∀ z, z < 32 → (t.zone z).voice ≠ some v) := by
  have e : exec (.repetitionEnd v) s = execRepetitionEnd v s := rfl
  unfold execRepetitionEnd at e
  dsimp only at e
  rw [if_neg (by rw [hb, hg]; simp; omega)] at e
  have hnil := zonesOf_zonesStop s v (s.voice v) ha hl
  refine ⟨_, e, ?_, fun z hz hzv => ?_⟩
  · rw [voice_of_sp (sp_showSp _)]
    exact busy_tidyVoice _ hnil
  · rw [zone_of_sp (sp_showSp _), zone_tidyVoice] at hzv
    have hm : z ∈ (s.zonesStop v (s.voice v)).zonesOf v := mem_zonesOf.mpr ⟨hz, hzv⟩
    rw [hnil] at hm
    exact absurd hm List.not_mem_nil

/-- Settles O24: SP_PLAY, SP_STOP and the timers come down to what leaving and joining one zone does; the message store to the
exchange of its flash slots; the rest is registers. -/
theorem standpipePlaysStoresAndTimes : Obligations.StandpipePlaysStoresAndTimes :=
  ⟨⟨takenThen_of (fun _ _ => rfl) rfl applySpConfig_writes, takenThen_of (fun _ _ => rfl) rfl applySpPlay_plays,
      takenThen_of (fun _ _ => rfl) rfl applySpStop_stops⟩,
    ⟨takenThen_of (fun _ _ => rfl) rfl applySpMsgBlock_stages, takenThen_of (fun _ _ => rfl) rfl applySpMsgCommit_stores,
      spMsgStoreComplete_verified, spMsgStoreComplete_failed⟩,
    ⟨alarmInputChange_starts_debounce, debounceExpiry_shows⟩,
    watchLossExpiry_loses, watchReturnExpiry_ends, repetitionEnd_frees, voiceFlashFallback_falls_back⟩

end Sys2Proof.Machine
end

