-- ==== Sys2Proof/Proofs/UnitInputs.lean ====
section
/-! The units' inputs and their wake (R55, R91, R138): a block written to a Cistern, a signal line pulsed in a cluster, and what a unit
starts its tick with. -/

namespace Sys2Proof.Machine

/-- A loop comes to each member of its list, and what every round keeps holds before that round and after it. -/
theorem foldl_passes {α : Type} {R : State → State → Prop} (hr : ∀ s, R s s) (ht : ∀ {s t u}, R s t → R t u → R s u)
    {f : State → α → State} {l : List α} {a : α} (ha : a ∈ l) (hf : ∀ s, ∀ b ∈ l, R s (f s b)) (s : State) :
    ∃ u, R s u ∧ R (f u a) (l.foldl f s) := by
  obtain ⟨l₁, l₂, rfl⟩ := List.append_of_mem ha
  rw [List.foldl_append, List.foldl_cons]
  exact ⟨_, foldl_frame R hr ht f l₁ (fun s b hb => hf s b (by simp [hb])) s,
    foldl_frame R hr ht f l₂ (fun s b hb => hf s b (by simp [hb])) _⟩

/-! ### A block in a Cistern (R91) -/

theorem length_blkBytes (b : Blk) : (blkBytes b).length = 16 := by
  unfold blkBytes
  simp only [List.length_append, length_leBytes]

/-- The byte mask of a word all of whose bytes are written. -/
theorem fullMask {P : Nat → Prop} [DecidablePred P] (h : ∀ b, b < 8 → P b) :
    (List.range 8).foldl (fun m b => if P b then m + 2 ^ b else m) 0 = 255 := by
  rw [List.foldl_ext (g := fun m b => m + 2 ^ b) (H := fun m b hb => if_pos (h b (List.mem_range.mp hb)))]
  rfl

/-- A write aligned to words of 8 bytes writes whole words. -/
theorem wordsOf_aligned {a n : Nat} (ha : a % 8 = 0) (hn : n % 8 = 0) : ∀ p ∈ wordsOf a n, p.2 = 255 := by
  intro p hp
  unfold wordsOf at hp
  split at hp
  · exact absurd hp List.not_mem_nil
  · obtain ⟨i, hi, rfl⟩ := List.mem_map.mp hp
    rw [List.mem_range] at hi
    exact fullMask (P := fun b => a ≤ 8 * (a / 8 + i) + b ∧ 8 * (a / 8 + i) + b < a + n) fun b hb => by omega

theorem refusesPartial_of_whole (s : State) {p : Nat × Nat} (syn : Nat) (h : p.2 = 255) : s.refusesPartial p syn = false := by
  unfold State.refusesPartial
  split
  · rw [h]
    rfl
  · rfl

/-- Registers and the contents of memories stand; what is known of damaged words may differ. -/
structure ContentsKept (s t : State) : Prop where
  regs : t.regs = s.regs
  mem : t.integ.mem = s.integ.mem

theorem ContentsKept.refl (s : State) : ContentsKept s s := ⟨rfl, rfl⟩

theorem ContentsKept.trans {s t u : State} (h : ContentsKept s t) (k : ContentsKept t u) : ContentsKept s u :=
  ⟨k.regs.trans h.regs, k.mem.trans h.mem⟩

theorem contentsKept_wroteWord_whole (s : State) {p : Nat × Nat} (syn : Nat) (h : p.2 = 255) : ContentsKept s (s.wroteWord p syn) := by
  unfold State.wroteWord
  split
  · rw [if_pos h]
    exact ⟨rfl, rfl⟩
  · exact .refl s

theorem contentsKept_notePages (s : State) (a n : Nat) : ContentsKept s (s.notePages a n) := by
  unfold State.notePages
  split
  · exact .refl s
  · exact ⟨rfl, rfl⟩

/-- A write of whole words is never refused (R312): its bytes stand in memory. -/
theorem busWrite_aligned (s : State) (a : Nat) (bs : List Byte) (syn : Nat) (ha : a % 8 = 0) (hn : bs.length % 8 = 0) :
    ∃ t, s.busWrite a bs syn = (true, t) ∧ t.regs = s.regs ∧ t.integ.mem = memWrite s.integ.mem a bs := by
  have hw := wordsOf_aligned ha hn
  have hnone : (wordsOf a bs.length).find? (fun p => s.refusesPartial p syn) = none :=
    List.find?_eq_none.mpr fun p hp => by rw [refusesPartial_of_whole s syn (hw p hp)]; decide
  obtain ⟨hr, hm⟩ : ContentsKept s ((wordsOf a bs.length).foldl (fun s p => s.wroteWord p syn) s) :=
    foldl_frame ContentsKept .refl .trans _ _ (fun t p hp => contentsKept_wroteWord_whole t syn (hw p hp)) s
  unfold State.busWrite
  dsimp only
  rw [hnone]
  generalize (wordsOf a bs.length).foldl (fun s p => s.wroteWord p syn) s = v at hr hm ⊢
  obtain ⟨kr, km⟩ := contentsKept_notePages { v with integ := { v.integ with mem := memWrite v.integ.mem a bs } } a bs.length
  exact ⟨_, rfl, kr.trans hr, km.trans (congrArg (memWrite · a bs) hm)⟩

/-- Where a cluster has one program with one bind of the kinds delivered, one block is written. -/
theorem deliverIn_one (s : State) {c u off i k : Nat} {p : UProg} {kinds : List Nat} (blk : Nat → Nat → Blk)
    (hp : s.progsOf c = [(u, p)]) (hb : p.binds = [⟨k, i, off⟩]) (hk : k ∈ kinds) (ho : off % 16 = 0) :
    (s.deliverIn c kinds blk).regs = s.regs
      ∧ ∀ j, j < 16 → memByte (s.deliverIn c kinds blk).integ.mem (dpaCistern c + off + j) = (blkBytes (blk k i)).getD j 0 := by
  have hc : (dpaCistern c + off) % 8 = 0 := by unfold dpaCistern; omega
  obtain ⟨t, ht, hr, hm⟩ := busWrite_aligned s (dpaCistern c + off) (blkBytes (blk k i)) 0 hc (by rw [length_blkBytes])
  have h : s.deliverIn c kinds blk = t := by
    unfold State.deliverIn
    rw [hp, List.foldl_cons, List.foldl_nil, hb, List.filter_cons, List.filter_nil, if_pos (decide_eq_true hk), List.foldl_cons,
      List.foldl_nil, ht]
  rw [h]
  refine ⟨hr, fun j hj => ?_⟩
  rw [hm, memByte_memWrite, length_blkBytes, if_pos (by omega), Nat.add_sub_cancel_left]

/-! ### Signal lines (R130, R138) -/

/-- Lines may have become pending and pumps triggered; units and memories are as they were else. -/
structure Signals (s t : State) : Prop where
  regs : RegsKept [.PMP_CH_STAT] s t
  integ : t.integ = s.integ
  detq : t.detq = s.detq
  core : ∀ q, ∃ p e, t.core q = { s.core q with pend := p, iev := e } ∧ ∀ l, (s.core q).pend.testBit l = true → p.testBit l = true

section
variable {s t u : State}

theorem Signals.refl (s : State) : Signals s s := ⟨.refl _ s, rfl, rfl, fun _ => ⟨_, _, rfl, fun _ h => h⟩⟩

theorem Signals.trans (h : Signals s t) (k : Signals t u) : Signals s u := by
  refine ⟨h.regs.trans k.regs, k.integ.trans h.integ, k.detq.trans h.detq, fun q => ?_⟩
  obtain ⟨p, e, ht, hp⟩ := h.core q
  obtain ⟨p', e', hu, hp'⟩ := k.core q
  rw [ht] at hu hp'
  exact ⟨p', e', hu, fun l hl => hp' l (hp l hl)⟩

theorem Signals.pend (h : Signals s t) {q l : Nat} (hl : (s.core q).pend.testBit l = true) : (t.core q).pend.testBit l = true := by
  obtain ⟨p, e, ht, hp⟩ := h.core q
  rw [ht]
  exact hp l hl

end

section
variable {s t : State} {l : List RegId}

theorem spareOf_of_regs (h : RegsKept l s t) (hl : RegId.RG_SPARE ∉ l) {g : Nat} (hg : g < 2048) : t.spareOf g = s.spareOf g := by
  unfold State.spareOf State.fb
  rw [h.fg F.RG_SPARE_EN g hl hg, h.fg F.RG_SPARE_SPARE_SEL g hl hg]

variable (h : RegsKept l s t) (hl : RegId.RG_SPARE ∉ l) (hs : RegId.RG_SPARE_STAT ∉ l) {p : Nat} (hp : p < 192)
include h hl hs hp

theorem role_of_regs : t.role p = s.role p := by
  unfold State.role
  dsimp only
  rw [spareOf_of_regs h hl (by omega), h.fg F.RG_SPARE_STAT_STATE (p / 32) hs (by omega),
    h.fg F.RG_SPARE_STAT_FOR_UNIT (p / 32) hs (by omega)]

theorem runner_of_regs : t.runner p = s.runner p := by
  unfold State.runner
  dsimp only
  rw [spareOf_of_regs h hl (by omega), h.fg F.RG_SPARE_STAT_STATE (p / 32) hs (by omega),
    h.fg F.RG_SPARE_STAT_FOR_UNIT (p / 32) hs (by omega)]

end

section
variable (s : State)

theorem core_setCore_ne {u v : Nat} (c : UCore) (h : v ≠ u) : (s.setCore u c).core v = s.core v :=
  congrArg UnitSt.core (unit_setUnit_ne s _ h)

theorem core_of_eng {s t : State} (h : t.eng = s.eng) (q : Nat) : t.core q = s.core q := by
  unfold State.core State.unit
  rw [h]

theorem signals_latchLine (p l : Nat) : Signals s (s.latchLine p l) := by
  unfold State.latchLine
  split
  · exact .refl s
  · refine ⟨.of_regs rfl, rfl, rfl, fun q => ?_⟩
    by_cases h : q = s.runner p
    · rw [h, core_setCore_same]
      refine ⟨_, _, rfl, fun m hm => ?_⟩
      rw [testBit_setBit]
      split
      · rfl
      · exact hm
    · rw [core_setCore_ne s _ h]
      exact ⟨_, _, rfl, fun _ hm => hm⟩

/-- A unit that has a line's role latches it. -/
theorem pend_latchLine {p l : Nat} (h : s.role p = p) : ((s.latchLine p l).core (s.runner p)).pend.testBit l = true := by
  unfold State.latchLine
  rw [if_neg (not_not.mpr h)]
  dsimp only
  rw [core_setCore_same]
  exact testBit_setBit_same _ l true

theorem signals_pmpTrig {n : Nat} (hn : n < 2048) : Signals s (s.pmpTrig n) := by
  unfold State.pmpTrig
  dsimp only
  split_ifs
  · exact ⟨.of_regs rfl, rfl, rfl, fun _ => ⟨_, _, rfl, fun _ h => h⟩⟩
  · exact ⟨regsKept_fs s _ n 1 (by decide) hn, rfl, rfl, fun _ => ⟨_, _, rfl, fun _ h => h⟩⟩
  · exact .refl s

theorem lt_of_mem_pmpOn {n : Nat} (h : n ∈ s.pmpOn) : n < 2048 := by
  unfold State.pmpOn at h
  obtain ⟨p, -, rfl⟩ := List.mem_map.mp h
  exact Nat.mod_lt _ (by decide)

/-- The pulse of a line within a cluster: the units latch it, and then the pumps see it. -/
theorem pulse_eq (cl l : Nat) (h : ¬(35 ≤ l ∧ l < 64 ∨ 24 ≤ cl)) :
    ∃ t, t = (List.range 8).foldl (fun s i => s.latchLine (8 * cl + i) l) s ∧ Signals t (s.pulse cl l) := by
  unfold State.pulse
  rw [if_neg h]
  exact ⟨_, rfl, foldl_frame Signals .refl .trans _ _
    (fun t n hn => signals_pmpTrig t (lt_of_mem_pmpOn _ (List.mem_filter.mp hn).1)) _⟩

theorem signals_latchLines (cl l : Nat) : Signals s ((List.range 8).foldl (fun s i => s.latchLine (8 * cl + i) l) s) :=
  foldl_frame Signals .refl .trans _ _ (fun t i _ => signals_latchLine t (8 * cl + i) l) s

theorem signals_pulse (cl l : Nat) : Signals s (s.pulse cl l) := by
  by_cases h : 35 ≤ l ∧ l < 64 ∨ 24 ≤ cl
  · unfold State.pulse
    rw [if_pos h]
    exact .refl s
  · obtain ⟨t, rfl, k⟩ := pulse_eq s cl l h
    exact (signals_latchLines s cl l).trans k

/-- A line pulsed in a cluster is pending in each of its units that has its own role. -/
theorem pend_pulse {cl l i : Nat} (hcl : cl < 24) (hl : l < 35) (hi : i < 8) (h : s.role (8 * cl + i) = 8 * cl + i) :
    ((s.pulse cl l).core (s.runner (8 * cl + i))).pend.testBit l = true := by
  obtain ⟨t, rfl, k⟩ := pulse_eq s cl l (by omega)
  obtain ⟨u, hu, ht⟩ := foldl_passes Signals.refl Signals.trans (List.mem_range.mpr hi)
    (fun t i _ => signals_latchLine t (8 * cl + i) l) s
  have hlatch := pend_latchLine u (l := l) ((role_of_regs hu.regs (by decide) (by decide) (by omega)).trans h)
  rw [runner_of_regs hu.regs (by decide) (by decide) (by omega)] at hlatch
  exact k.pend (ht.pend hlatch)

end

/-- Inputs or outputs delivered to a cluster with one program, and the line that tells its units. -/
theorem delivered_then_pulsed (s : State) {c u off i k l : Nat} {p : UProg} {kinds : List Nat} (blk : Nat → Nat → Blk) (hc : c < 24)
    (hl : l < 35) (hp : s.progsOf c = [(u, p)]) (hb : p.binds = [⟨k, i, off⟩]) (hk : k ∈ kinds) (ho : off % 16 = 0) :
    ∀ t, t = (s.deliverIn c kinds blk).pulse c l →
      (∀ j, j < 16 → memByte t.integ.mem (dpaCistern c + off + j) = (blkBytes (blk k i)).getD j 0)
      ∧ ∀ j, j < 8 → s.role (8 * c + j) = 8 * c + j → (t.core (s.runner (8 * c + j))).pend.testBit l = true := by
  rintro t rfl
  obtain ⟨hr, hm⟩ := deliverIn_one s blk hp hb hk ho
  have hregs : RegsKept [] s (s.deliverIn c kinds blk) := .of_regs hr
  refine ⟨fun j hj => ?_, fun j hj hrole => ?_⟩
  · rw [(signals_pulse _ c l).integ]
    exact hm j hj
  · rw [← runner_of_regs hregs (by decide) (by decide) (by omega)]
    exact pend_pulse _ hc hl hj ((role_of_regs hregs (by decide) (by decide) (by omega)).trans hrole)

theorem inputDeliveryComplete_delivers (c : Nat) (s : State) (u : Nat) (p : UProg) (i off : Nat) (hc : c < 24)
    (hr : s.clusterRuns c = true) (hp : s.progsOf c = [(u, p)]) (hb : p.binds = [⟨1, i, off⟩]) (ho : off % 16 = 0) (_ : off < 0x200000) :
    Completes (.inputDeliveryComplete c) s (fun t =>
      (∀ k, k < 16 → memByte t.integ.mem (dpaCistern c + off + k) = (blkBytes (mget Blk.zero s.aud.ic i)).getD k 0)
      ∧ ∀ k, k < 8 → s.role (8 * c + k) = 8 * c + k → (t.core (s.runner (8 * c + k))).pend.testBit 33 = true) := by
  have e : exec (.inputDeliveryComplete c) s = execInputDeliveryComplete c s := rfl
  unfold execInputDeliveryComplete at e
  rw [if_neg (by rw [hr]; simp; omega)] at e
  exact ⟨_, e, delivered_then_pulsed s
    (fun k i => if k = 1 then mget Blk.zero s.aud.ic i else mget Blk.zero s.aud.ab i) hc (by decide) hp hb (by decide) ho _ rfl⟩

theorem outputDeliveryComplete_delivers (c : Nat) (s : State) (u : Nat) (p : UProg) (i off : Nat) (hc : c < 24)
    (hr : s.clusterRuns c = true) (hp : s.progsOf c = [(u, p)]) (hb : p.binds = [⟨3, i, off⟩]) (ho : off % 16 = 0) (_ : off < 0x200000) :
    Completes (.outputDeliveryComplete c) s (fun t =>
      (∀ k, k < 16 → memByte t.integ.mem (dpaCistern c + off + k) = (blkBytes (mget Blk.zero s.aud.mo i)).getD k 0)
      ∧ ∀ k, k < 8 → s.role (8 * c + k) = 8 * c + k → (t.core (s.runner (8 * c + k))).pend.testBit 34 = true) := by
  have e : exec (.outputDeliveryComplete c) s = execOutputDeliveryComplete c s := rfl
  unfold execOutputDeliveryComplete at e
  rw [if_neg (by rw [hr]; simp; omega)] at e
  exact ⟨_, e, delivered_then_pulsed s (fun _ i => mget Blk.zero s.aud.mo i) hc (by decide) hp hb (by decide) ho _ rfl⟩

end Sys2Proof.Machine
end

