-- ==== Sys2Proof/Proofs/UnitWake.lean ====
section
/-! A unit wakes (R138): its state is set at its entry, and line 32 is pulsed in every cluster that runs. -/

namespace Sys2Proof.Machine

section
variable (s : State) (u : Nat)

/-- Where no spare is enabled a unit plays its own role, and no other unit runs it. -/
theorem role_of_no_spare (h : s.spareOf (u / 32) = none) : s.role u = u ∧ s.runner u = u := by
  unfold State.role State.runner
  dsimp only
  rw [h]
  refine ⟨if_neg (by simp), ?_⟩
  split <;> rfl

/-- The core of a unit that wakes with program x, in its own role. -/
def State.wokenCore (s : State) (u : Nat) (x : UProg) : UCore := { UCore.reset with
  d := mput 0 (mput 0 (mput (0 : Word) [] 0 (BitVec.ofNat 32 s.tickno)) 1 (BitVec.ofNat 32 (s.fg F.UNIT_DONE_LAST_DONE u))) 2
    (BitVec.ofNat 32 u)
  sf := sfIE
  pc := x.entry
  imask := F.UNIT_CTL_IEV_EN.get (s.rr .UNIT_CTL u).toNat + 2 * F.UNIT_CTL_PCOV_EN.get (s.rr .UNIT_CTL u).toNat
  tick := s.tickno
  woke := s.time.tick }

theorem wake_of_own_role {x : UProg} (hr : s.role u = u) (hp : s.progOf u = some x) :
    s.wake u = ((s.setCore u (s.wokenCore u x)).setUst u 2).perf u 15 1 1 := by
  unfold State.wake
  dsimp only
  rw [hr, hp]
  dsimp only
  rw [if_neg (fun h => h.2 rfl)]
  rfl

/-- What a wake leaves of the machine. -/
theorem wake_leaves {x : UProg} (hu : u < 192) (hr : s.role u = u) (hp : s.progOf u = some x) :
    RegsKept [.UNIT_STAT, .PC_CNT, .PC_OVF, .PC_AGG_CNT, .PC_AGG_OVF] s (s.wake u)
      ∧ s.wake u = { s.setCore u (s.wokenCore u x) with regs := (s.wake u).regs } ∧ (s.wake u).ust u = 2 := by
  rw [wake_of_own_role s u hr hp]
  have k := perf_frame ((s.setCore u (s.wokenCore u x)).setUst u 2) u 15 1 1 hu
  refine ⟨?_, k.state, ?_⟩
  · exact .trans (regsKept_fs (l := [.UNIT_STAT, .PC_CNT, .PC_OVF, .PC_AGG_CNT, .PC_AGG_OVF]) _ F.UNIT_STAT_STATE u 2 (by decide)
      (by omega)) (k.regs.mono (by simp))
  · exact (k.regs.fg F.UNIT_STAT_STATE u (by decide) (by omega)).trans (fg_fs_same _ _ _ _ (by decide) (by decide))

theorem signals_woken (n : Nat) : Signals s { s with eng := { s.eng with woken := n } } :=
  ⟨.of_regs rfl, rfl, rfl, fun _ => ⟨_, _, rfl, fun _ h => h⟩⟩

theorem signals_wakeLine : Signals s s.wakeLine := by
  unfold State.wakeLine
  split
  · exact .refl s
  · exact (signals_woken s _).trans (foldl_frame Signals .refl .trans _ _ (fun t c _ => signals_pulse t c 32) _)

/-- The first wake of a tick makes line 32 pending in the units of each cluster that runs. -/
theorem pend_wakeLine (hu : u < 192) (hw : s.eng.woken ≠ s.time.tick + 1) (ha : s.regionAwake (u / 32) = true)
    (hc : s.clusterRuns (u / 8) = true) (hr : s.role u = u) (hn : s.runner u = u) : (s.wakeLine.core u).pend.testBit 32 = true := by
  have hm : u / 8 ∈ (List.range 24).filter (fun c => s.regionAwake (c / 4) && s.clusterRuns c) := by
    rw [List.mem_filter, List.mem_range, Nat.div_div_eq_div_mul, ha, hc]
    exact ⟨by omega, rfl⟩
  obtain ⟨t, ht, hk⟩ := foldl_passes Signals.refl Signals.trans hm (fun t c _ => signals_pulse t c 32)
    { s with eng := { s.eng with woken := s.time.tick + 1 } }
  have h := (signals_woken s _).trans ht
  have hidx : 8 * (u / 8) + u % 8 = u := Nat.div_add_mod u 8
  have hp := pend_pulse t (cl := u / 8) (l := 32) (i := u % 8) (by omega) (by decide) (Nat.mod_lt _ (by decide))
    (by rw [hidx, role_of_regs h.regs (by decide) (by decide) hu, hr])
  rw [hidx, runner_of_regs h.regs (by decide) (by decide) hu, hn] at hp
  unfold State.wakeLine
  rw [if_neg hw]
  exact hk.pend hp

end

/-- Whether a region and a cluster run does not depend on their units. -/
theorem runs_of_regs {l : List RegId} {s t : State} (h : RegsKept l s t) (hl : RegId.RG_PWR ∉ l) (hw : RegId.RW_PWR_STAT ∉ l)
    (hc : RegId.CL_STAT ∉ l) (ht : t.time = s.time) (hr : t.ret = s.ret) (hx : t.eng.clRst = s.eng.clRst) {u : Nat} (hu : u < 192) :
    t.regionAwake (u / 32) = s.regionAwake (u / 32) ∧ t.clusterRuns (u / 8) = s.clusterRuns (u / 8) := by
  unfold State.regionAwake State.clusterRuns State.standby State.pwr State.fb
  rw [h.fg F.RG_PWR_ON (u / 32) hl (by omega), h.fg F.RW_PWR_STAT_STATE 0 hw (by decide), h.fg F.RW_PWR_STAT_MOVING 0 hw (by decide),
    h.fg F.CL_STAT_STATE (u / 8) hc (by omega), ht, hr, hx]
  exact ⟨rfl, rfl⟩

theorem runs_of_mayWake {s : State} {u : Nat} (h : s.mayWake u = true) :
    s.regionAwake (u / 32) = true ∧ s.clusterRuns (u / 8) = true := by
  unfold State.mayWake at h
  simp only [Bool.and_eq_true] at h
  obtain ⟨⟨⟨⟨⟨hr, hc⟩, -⟩, -⟩, -⟩, -⟩ := h
  exact ⟨hr, hc⟩

/-- The one unit that wakes at an instant, and line 32. -/
theorem woken_state (s : State) (u : Nat) (p : UProg) (hu : u < 192) (hsp : ∀ g, g < 6 → s.spareOf g = none)
    (hm : s.mayWake u = true) (hw : s.eng.woken ≠ s.time.tick + 1) (hp : s.progOf u = some p) :
    ∀ t, t = (s.wake u).wakeLine → t.ust u = 2 ∧ (t.core u).pc = p.entry ∧ (t.core u).pend.testBit 32 = true
        ∧ (t.core u).tick = s.tickno ∧ (t.core u).dr 2 = BitVec.ofNat 32 u ∧ (t.core u).sf = sfIE := by
  rintro t rfl
  obtain ⟨hr, hn⟩ := role_of_no_spare s u (hsp (u / 32) (by omega))
  obtain ⟨ha, hc⟩ := runs_of_mayWake hm
  obtain ⟨hk, hst, hust⟩ := wake_leaves s u hu hr hp
  have htime : (s.wake u).time = s.time := by rw [hst]; rfl
  have hret : (s.wake u).ret = s.ret := by rw [hst]; rfl
  have heng : (s.wake u).eng = (s.setCore u (s.wokenCore u p)).eng := by rw [hst]
  obtain ⟨ha', hc'⟩ := runs_of_regs hk (by decide) (by decide) (by decide) htime hret (by rw [heng]; rfl) hu
  have hpend := pend_wakeLine (s.wake u) u hu (by rw [heng, htime]; exact hw) (ha'.trans ha) (hc'.trans hc)
    ((role_of_regs hk (by decide) (by decide) hu).trans hr) ((runner_of_regs hk (by decide) (by decide) hu).trans hn)
  have hg := signals_wakeLine (s.wake u)
  obtain ⟨q, e, hcore, -⟩ := hg.core u
  rw [core_of_eng heng, core_setCore_same] at hcore
  refine ⟨(hg.regs.fg F.UNIT_STAT_STATE u (by decide) (by omega)).trans hust, ?_, hpend, ?_, ?_, ?_⟩
  · rw [hcore]
    rfl
  · rw [hcore]
    rfl
  · rw [hcore]
    exact mget_mput_same _ _ 2 _
  · rw [hcore]
    rfl

theorem unitWake_wakes (dt : Nat) (s : State) (u : Nat) (p : UProg) (hn : tickStart (tickAt (s.elapse dt).now) + 3000 ≤ (s.elapse dt).now)
    (hus : s.eng.units.map (·.1) = [u]) (hu : u < 192) (hsp : ∀ g, g < 6 → s.spareOf g = none)
    (hm : (s.elapse dt).mayWake u = true) (hust : s.ust u = 4) (hw : s.eng.woken ≠ s.time.tick + 1) (hp : s.progOf u = some p) :
    Completes (.unitWake dt) s (fun t => t.ust u = 2 ∧ (t.core u).pc = p.entry ∧ (t.core u).pend.testBit 32 = true
      ∧ (t.core u).tick = (s.elapse dt).tickno ∧ (t.core u).dr 2 = BitVec.ofNat 32 u ∧ (t.core u).sf = sfIE) := by
  have e : exec (.unitWake dt) s = execUnitWake dt s := rfl
  have hregs : RegsKept [] s (s.elapse dt) := .of_regs (regs_elapse s dt)
  have heng : (s.elapse dt).eng = s.eng := (elapse_works s dt).eng
  have hsp' : ∀ g, g < 6 → (s.elapse dt).spareOf g = none := fun g hg =>
    (spareOf_of_regs hregs (by decide) (by omega)).trans (hsp g hg)
  have hnone : (List.range 6).filterMap (s.elapse dt).spareOf = [] :=
    List.filterMap_eq_nil_iff.mpr fun g hg => hsp' g (List.mem_range.mp hg)
  have hust' : (s.elapse dt).ust u = 4 := (fg_of_regs (regs_elapse s dt) _ _).trans hust
  have hp' : (s.elapse dt).progOf u = some p := by
    unfold State.progOf State.unit
    rw [heng]
    exact hp
  unfold execUnitWake at e
  dsimp only at e
  rw [if_neg (Nat.not_lt.mpr hn), hnone, heng, hus, List.filter_nil, List.append_nil, List.filter_cons, List.filter_nil, if_pos hm,
    List.foldl_cons, List.foldl_nil, List.foldl_cons, List.foldl_nil, hust', if_neg (by decide)] at e
  exact ⟨_, e, woken_state (s.elapse dt) u p hu hsp' hm (by rw [heng, tick_elapse]; exact hw) hp' _ rfl⟩

end Sys2Proof.Machine
end

