-- ==== Sys2Proof/Proofs/UnitDeadline.lean ====
section
/-! The pre-matrix deadline (R140): what stops one unit leaves the states of the others, and every report made stays. -/

namespace Sys2Proof.Machine

/-- The units other than u are in the states they were in, and no report is withdrawn. -/
structure OthersKept (u : Nat) (s t : State) : Prop where
  ust : ∀ v, v < 192 → v ≠ u → t.ust v = s.ust v
  told : s.detq ⊆ t.detq

section
variable {u : Nat} {s t : State}

theorem OthersKept.refl (u : Nat) (s : State) : OthersKept u s s := ⟨fun _ _ _ => rfl, List.Subset.refl _⟩

theorem OthersKept.trans {v : State} (h : OthersKept u s t) (k : OthersKept u t v) : OthersKept u s v :=
  ⟨fun x hx hn => (k.ust x hx hn).trans (h.ust x hx hn), List.Subset.trans h.told k.told⟩

/-- A step that writes no UNIT_STAT. -/
theorem OthersKept.of_regs {l : List RegId} (h : RegsKept l s t) (hl : RegId.UNIT_STAT ∉ l) (hd : s.detq ⊆ t.detq) :
    OthersKept u s t := ⟨fun _ hv _ => h.fg F.UNIT_STAT_STATE _ hl (by omega), hd⟩

/-- A step that writes no register and makes no report. -/
theorem OthersKept.of_eq (hr : t.regs = s.regs) (hd : t.detq = s.detq) : OthersKept u s t :=
  .of_regs (l := []) (.of_regs hr) List.not_mem_nil (by rw [hd]; exact List.Subset.refl _)

theorem OthersKept.det {a b c d e : Nat} (h : OthersKept u s t) : OthersKept u s (t.det a b c d e) :=
  h.trans (.of_regs (l := []) (.of_regs rfl) List.not_mem_nil (List.subset_append_left _ _))

theorem OthersKept.fs (h : OthersKept u s t) (f : Fld) (v : Nat) (hu : u < 192) : OthersKept u s (t.fs f u v) :=
  h.trans ⟨fun _ hx hn => fg_fs_other t f F.UNIT_STAT_STATE u _ v (by omega) (by omega) (.inr hn), List.Subset.refl _⟩

theorem OthersKept.fadd (h : OthersKept u s t) (f : Fld) (n : Nat) (hu : u < 192) : OthersKept u s (t.fadd f u n) := h.fs f _ hu

theorem OthersKept.setUst (h : OthersKept u s t) (v : Nat) (hu : u < 192) : OthersKept u s (t.setUst u v) :=
  h.fs F.UNIT_STAT_STATE v hu

theorem OthersKept.signals (h : Signals s t) : OthersKept u s t :=
  .of_regs h.regs (by decide) (by rw [h.detq]; exact List.Subset.refl _)

end

/-! ### Writes on the bus (R312 - R317) -/

theorem log_wordOfDpa {a : Nat} {w : WordId} (h : wordOfDpa a = some w) : w.log < 8 := by
  unfold wordOfDpa at h
  extract_lets c u o c' at h
  split_ifs at h <;> simp only [Option.some.injEq] at h <;> subst h <;> dsimp only <;> omega

/-- The counters and the log of the decoders. -/
def eccRegs : List RegId := [.RG_ECC_CNT0, .RG_ECC_CNT1, .RG_ECC_CNT2, .DPR_HUB_CNT0, .DPR_HUB_CNT1, .DPR_DDR_CNT, .DPR_LOGSTAT]

section
variable (s : State)

theorem eccRegs_fadd (f : Fld) {i : Nat} (n : Nat) (hf : f.reg ∈ eccRegs) (hi : i < 2048) : RegsKept eccRegs s (s.fadd f i n) :=
  regsKept_fs s f i _ hf hi

theorem eccRegs_countCe (w : WordId) (hw : w.log < 8) : RegsKept eccRegs s (s.countCe w) := by
  unfold State.countCe
  repeat' split
  all_goals exact eccRegs_fadd s _ 1 (by decide) (by omega)

theorem eccRegs_countUe (w : WordId) (hw : w.log < 8) : RegsKept eccRegs s (s.countUe w) := by
  unfold State.countUe
  repeat' split
  all_goals exact eccRegs_fadd s _ 1 (by decide) (by omega)

theorem eccRegs_eccLog (w : WordId) (ue : Bool) (req syn : Nat) (hw : w.log < 8) :
    RegsKept eccRegs s (s.eccLog w ue req syn) ∧ (s.eccLog w ue req syn).detq = s.detq := by
  unfold State.eccLog
  extract_lets l e full l' x t v
  have hv : RegsKept eccRegs s v := .trans (.of_regs rfl) (regsKept_fs t F.DPR_LOGSTAT_COUNT w.log _ (by decide) (by omega))
  have hd : v.detq = s.detq := fs_detq t _ _ _
  split
  · exact ⟨hv.trans (eccRegs_fadd v F.DPR_LOGSTAT_OVERWRITTEN 1 (by decide) (by omega)), (fadd_detq v _ _ _).trans hd⟩
  · exact ⟨hv, hd⟩

theorem detq_countCe (w : WordId) : (s.countCe w).detq = s.detq := by
  unfold State.countCe
  repeat' split
  all_goals exact fadd_detq s _ _ _

variable {u : Nat}

theorem othersKept_foundCe (w : WordId) (syn req : Nat) (hw : w.log < 8) : OthersKept u s (s.foundCe w syn req) := by
  obtain ⟨hl, hd⟩ := eccRegs_eccLog (s.countCe w) w false req syn hw
  have h : OthersKept u s ((s.countCe w).eccLog w false req syn) :=
    .of_regs ((eccRegs_countCe s w hw).trans hl) (by decide) (by rw [hd, detq_countCe]; exact List.Subset.refl _)
  exact h.det.trans (.of_eq rfl rfl)

theorem othersKept_foundUe (w : WordId) (syn req : Nat) (hw : w.log < 8) : OthersKept u s (s.foundUe w syn req) :=
  .of_regs (((eccRegs_countUe s w hw).trans (eccRegs_eccLog _ w true req syn hw).1).trans (.of_regs rfl)) (by decide)
    (by rw [detq_foundUe]; exact List.subset_append_left _ _)

theorem othersKept_eccRead (w : WordId) (syn req : Nat) (hw : w.log < 8) : OthersKept u s (s.eccRead w syn req).2 := by
  unfold State.eccRead
  dsimp only
  split
  · exact .refl u s
  · exact othersKept_foundCe s w _ req hw
  · exact othersKept_foundUe s w _ req hw

theorem othersKept_mergeInto (w : WordId) (mask : Nat) : OthersKept u s (s.mergeInto w mask) := by
  unfold State.mergeInto
  dsimp only
  split_ifs
  · exact .of_eq rfl rfl
  · exact .of_eq rfl rfl

theorem othersKept_mergeOpen (w : WordId) : OthersKept u s (s.mergeOpen w) := by
  unfold State.mergeOpen
  split
  · split_ifs
    · exact .of_eq rfl rfl
    · exact .of_eq rfl rfl
  · exact .of_eq rfl rfl

theorem othersKept_wroteWord (p : Nat × Nat) (syn : Nat) : OthersKept u s (s.wroteWord p syn) := by
  unfold State.wroteWord
  split
  next w hw =>
    split_ifs
    · exact .of_eq rfl rfl
    · exact othersKept_mergeInto s w p.2
    · exact ((othersKept_eccRead s w syn 6 (log_wordOfDpa hw)).trans (othersKept_mergeOpen _ w)).trans (othersKept_mergeInto _ w p.2)
  next => exact .refl u s

theorem othersKept_notePages (a n : Nat) : OthersKept u s (s.notePages a n) := by
  unfold State.notePages
  split_ifs
  · exact .refl u s
  · exact .of_eq rfl rfl

theorem othersKept_busWrite (a : Nat) (bs : List Byte) (syn : Nat) : OthersKept u s (s.busWrite a bs syn).2 := by
  unfold State.busWrite
  dsimp only
  split
  · split
    next w hw => exact othersKept_foundUe s w _ 6 (log_wordOfDpa hw)
    next => exact .refl u s
  · have h : OthersKept u s ((wordsOf a bs.length).foldl (fun s p => s.wroteWord p syn) s) :=
      foldl_keeps (P := OthersKept u s) (fun t p ht => ht.trans (othersKept_wroteWord t p syn)) (.refl u s) _
    refine .trans ?_ (othersKept_notePages _ a bs.length)
    exact h.trans (.of_eq rfl rfl)

/-! ### The write buffer and the outputs of a unit that stops (R81, R136, R140) -/

theorem othersKept_wbOut (v : Nat) (e : WbEnt) : OthersKept u s (s.wbOut v e).2 := by
  unfold State.wbOut
  split
  · exact .signals (signals_pulse s _ _)
  · exact othersKept_busWrite s _ _ _

end

/-- Registers and reports stand. -/
structure Untold (s t : State) : Prop where
  regs : t.regs = s.regs
  detq : t.detq = s.detq

theorem Untold.refl (s : State) : Untold s s := ⟨rfl, rfl⟩

theorem Untold.trans {s t u : State} (h : Untold s t) (k : Untold t u) : Untold s u :=
  ⟨k.regs.trans h.regs, k.detq.trans h.detq⟩

theorem Draws.untold {s t : State} (h : Draws s t) : Untold s t := by
  rw [h.state]
  exact ⟨rfl, rfl⟩

section
variable (s : State)

theorem untold_deliver (k i : Nat) (b : Blk) : Untold s (s.deliver k i b) := by
  unfold State.deliver
  split
  · exact ⟨rfl, rfl⟩
  · exact ⟨rfl, rfl⟩

theorem untold_setUnit (p : Nat) (x : UnitSt) : Untold s (s.setUnit p x) := ⟨rfl, rfl⟩

theorem untold_fadeBinds (p : Nat) : Untold s (s.fadeBinds p) := by
  unfold State.fadeBinds
  dsimp only
  split
  · exact .refl s
  · refine Untold.trans ?_ (untold_setUnit _ p _)
    refine foldl_keeps (P := Untold s) (fun t b ht => ?_) (.refl s) _
    split
    · exact ht
    · split
      · split
        · exact ht.trans (untold_deliver t 4 _ _)
        · exact ht
      · have hd := draws_fadeOut t (mget Blk.zero (s.unit p).last (b.kind * 2048 + b.index))
        exact (ht.trans hd.untold).trans (.trans (untold_setUnit _ p _) (untold_deliver _ _ _ _))

variable {u : Nat}

theorem othersKept_fadeBinds (p : Nat) : OthersKept u s (s.fadeBinds p) :=
  .of_eq (untold_fadeBinds s p).regs (untold_fadeBinds s p).detq

theorem othersKept_stopTrap (cause pc : Nat) (hu : u < 192) : OthersKept u s (s.stopTrap u cause pc) := by
  unfold State.stopTrap
  refine .trans ?_ (othersKept_fadeBinds _ _)
  refine OthersKept.det (OthersKept.setUst ?_ 5 hu)
  exact (((OthersKept.refl u s).fs F.UNIT_TRAP_CAUSE cause hu).fs F.UNIT_TRAP_PC pc hu).fadd F.UNIT_TRAP_COUNT 1 hu

theorem othersKept_setCore (c : UCore) : OthersKept u s (s.setCore u c) := .of_eq rfl rfl

theorem othersKept_wbLeave (hu : u < 192) : OthersKept u s (s.wbLeave u) := by
  unfold State.wbLeave
  dsimp only
  split
  · exact .refl u s
  next e l _ =>
    have h : OthersKept u s (((s.setCore u { s.core u with wb := l }).wbOut u e).2) :=
      (othersKept_setCore s _).trans (othersKept_wbOut _ u e)
    split
    · exact h
    · refine .trans ?_ (othersKept_stopTrap _ 7 e.pc hu)
      exact foldl_keeps (P := OthersKept u s) (fun t e ht => ht.trans (othersKept_wbOut t u e)) (h.trans (othersKept_setCore _ _)) l

theorem othersKept_wbDrain (n : Nat) (hu : u < 192) : OthersKept u s (s.wbDrain u n) := by
  induction n generalizing s with
  | zero => exact .refl u s
  | succ n ih =>
    unfold State.wbDrain
    split
    · exact .refl u s
    · exact (othersKept_wbLeave s hu).trans (ih _)

/-! ### The overrun of a unit (R140) -/

theorem othersKept_overrun (hu : u < 192) : OthersKept u s (s.overrun u) := by
  have h : OthersKept u s ((s.setCore u (s.core u).drain).wbDrain u 8) :=
    (othersKept_setCore s _).trans (othersKept_wbDrain _ 8 hu)
  unfold State.overrun
  dsimp only
  split
  · exact (h.setUst 5 hu).det
  · exact ((h.trans (othersKept_fadeBinds _ _)).setUst 5 hu).det

end

/-- A unit has been stopped at the deadline, and that is reported. -/
def State.overran (s : State) (u : Nat) : Prop := s.ust u = 5 ∧ ∃ d ∈ s.detq, d.fam = 0x20 ∧ d.subj = u

section
variable {s t : State} {u : Nat}

theorem overran_overrun (s : State) (u : Nat) : (s.overrun u).overran u := by
  unfold State.overrun State.overran
  extract_lets tick a b
  rw [detq_det]
  exact ⟨(fg_fs_same b F.UNIT_STAT_STATE u 5 (by decide) (by decide)), _, List.mem_append_right _ (List.mem_singleton_self _), rfl, rfl⟩

theorem Untold.overran (h : Untold s t) (ho : s.overran u) : t.overran u := by
  obtain ⟨hs, d, hd, hf⟩ := ho
  exact ⟨(fg_of_regs h.regs _ _).trans hs, d, by rwa [h.detq], hf⟩

/-- A unit due to be stopped stays so or is stopped, and one that is stopped stays so. -/
structure StopsOnce (u : Nat) (s t : State) : Prop where
  due : s.ust u = 2 ∨ s.ust u = 3 → (t.ust u = 2 ∨ t.ust u = 3) ∨ t.overran u
  done : s.overran u → t.overran u

theorem StopsOnce.refl (u : Nat) (s : State) : StopsOnce u s s := ⟨.inl, id⟩

theorem StopsOnce.trans {v : State} (h : StopsOnce u s t) (k : StopsOnce u t v) : StopsOnce u s v :=
  ⟨fun hs => (h.due hs).elim k.due fun ht => .inr (k.done ht), fun hs => k.done (h.done hs)⟩

theorem OthersKept.stopsOnce {v : Nat} (h : OthersKept v s t) (hu : u < 192) (hn : u ≠ v) : StopsOnce u s t := by
  have hust := h.ust u hu hn
  refine ⟨fun hs => .inl (by rwa [hust]), fun ⟨hs, d, hd, hf⟩ => ⟨hust.trans hs, d, h.told hd, hf⟩⟩

/-- A unit that has not done is stopped. -/
def State.stopLate (s : State) (u : Nat) : State := if s.ust u = 2 ∨ s.ust u = 3 then s.overrun u else s

theorem stopLate_stopsOnce (s : State) {v : Nat} (hu : u < 192) (hv : v < 192) : StopsOnce u s (s.stopLate v) := by
  unfold State.stopLate
  split
  next h =>
    by_cases e : u = v
    · rw [e]
      exact ⟨fun _ => .inr (overran_overrun s v), fun _ => overran_overrun s v⟩
    · exact (othersKept_overrun s hv).stopsOnce hu e
  next => exact .refl u s

theorem overran_stopLate (hu : u < 192) (h : (s.ust u = 2 ∨ s.ust u = 3) ∨ s.overran u) : (s.stopLate u).overran u := by
  rcases h with h | h
  · unfold State.stopLate
    rw [if_pos h]
    exact overran_overrun s u
  · exact (stopLate_stopsOnce s hu hu).done h

/-- Every unit of a list that has not done is stopped and reported, once or more often listed. -/
theorem overran_foldl {l : List Nat} (hl : ∀ v ∈ l, v < 192) (hu : u ∈ l) (h : s.ust u = 2 ∨ s.ust u = 3) :
    (l.foldl State.stopLate s).overran u := by
  obtain ⟨t, hst, ht⟩ := foldl_passes (StopsOnce.refl u) StopsOnce.trans hu
    (fun t v hv => stopLate_stopsOnce t (hl u hu) (hl v hv)) s
  exact ht.done (overran_stopLate (hl u hu) (hst.due h))

end

theorem preMatrixDeadline_stops (dt : Nat) (s : State)
    (hn : tickStart (tickAt (s.elapse dt).now) + s.deadlineNs ≤ (s.elapse dt).now) (hl : ∀ p ∈ s.eng.units, p.1 < 192) :
    Completes (.preMatrixDeadline dt) s (fun t => ∀ p ∈ s.eng.units, s.ust p.1 = 2 ∨ s.ust p.1 = 3 →
      t.ust p.1 = 5 ∧ ∃ d ∈ t.detq, d.fam = 0x20 ∧ d.subj = p.1) := by
  have e : exec (.preMatrixDeadline dt) s = execPreMatrixDeadline dt s := rfl
  have hregs := regs_elapse s dt
  have heng : (s.elapse dt).eng = s.eng := (elapse_works s dt).eng
  have hdl : (s.elapse dt).deadlineNs = s.deadlineNs := congrArg (· * 100) (fg_of_regs hregs F.UNIT_TICK_DEADLINE_D 0)
  unfold execPreMatrixDeadline at e
  dsimp only at e
  rw [hdl, if_neg (Nat.not_lt.mpr hn), heng] at e
  refine ⟨_, e, fun p hp hrun => ?_⟩
  have ho : ((s.eng.units.map (·.1)).foldl State.stopLate (s.elapse dt)).overran p.1 :=
    overran_foldl (by simpa using hl) (List.mem_map.mpr ⟨p, hp, rfl⟩) (by rwa [State.ust, fg_of_regs hregs])
  refine Untold.overran (s := (s.eng.units.map (·.1)).foldl State.stopLate (s.elapse dt)) ?_ ho
  refine foldl_keeps (P := Untold _) (fun t u ht => ?_) (.refl _) _
  split
  · split_ifs
    · exact ht
    · exact ht.trans (untold_fadeBinds t u)
    · exact foldl_keeps (P := Untold _) (fun v b hv => hv.trans (untold_deliver v 4 b.index Blk.zero)) ht _
  · exact ht

/-- Settles O33: deliveries write whole words, which nothing refuses; lines only add to what is pending; and a unit's overrun
leaves every other unit as it is. -/
theorem unitsWakeAndMeetTheDeadline : Obligations.UnitsWakeAndMeetTheDeadline :=
  ⟨inputDeliveryComplete_delivers, outputDeliveryComplete_delivers, unitWake_wakes, preMatrixDeadline_stops⟩

end Sys2Proof.Machine
end
